-- ==== Sys2Proof/Word.lean ====
section
/-!
DEFINITION. Words, bytes, bit fields and the sparse map that holds every memory of the block.

Registers, cells, frames and table entries of the spec are bit strings, so they are `BitVec`s here.
Addresses inside a memory and counts are natural numbers.
-/

namespace Sys2Proof

/-- One byte of a memory, a frame or a packet. -/
abbrev Byte := BitVec 8
/-- One 32-bit register or memory word (R13: BAR0 is accessed in 32-bit words). -/
abbrev Word := BitVec 32
/-- One 64-bit register pair (R43). -/
abbrev DWord := BitVec 64

/-- A requester of the register file: 0 to 3 are CP0 to CP3, 4 is the maintenance port (R14). -/
abbrev Req := Fin 5
/-- A channel port CP0 to CP3. -/
abbrev Port := Fin 4
/-- A legacy segment: 0 is LSA, 1 is LSB. -/
abbrev Seg := Fin 2
/-- A ring port: 0 is RGE, 1 is RGW. -/
abbrev RingPort := Fin 2

/-- A sparse memory: pairs of an address and what it holds, addresses strictly rising.
An address that is not listed holds the memory's default value, and no entry holds that default. -/
abbrev SMap (α : Type) := List (Nat × α)

/-- Bits `hi` down to `lo` of a number, as a number. -/
def bitsOf (w hi lo : Nat) : Nat := (w >>> lo) % 2 ^ (hi + 1 - lo)

/-- The number `w` with its bits `hi` down to `lo` replaced by `v` (taken modulo the field's width). -/
def withBits (w hi lo v : Nat) : Nat :=
  w - (bitsOf w hi lo) * 2 ^ lo + (v % 2 ^ (hi + 1 - lo)) * 2 ^ lo

/-- Bits `hi` down to `lo` of a bit string, as a number. -/
def fieldOf {n : Nat} (w : BitVec n) (hi lo : Nat) : Nat := bitsOf w.toNat hi lo

/-- Bit `i` of a bit string. -/
def bitAt {n : Nat} (w : BitVec n) (i : Nat) : Bool := w.getLsbD i

/-- The word `w` with its bits `hi` down to `lo` replaced by `v`. -/
def setFieldOf (w : Word) (hi lo v : Nat) : Word := BitVec.ofNat 32 (withBits w.toNat hi lo v)

/-- The number 1 for true, 0 for false. -/
def bnat (b : Bool) : Nat := if b then 1 else 0

/-- Little-endian bytes of a number, `n` of them. -/
def bytesLE : Nat → Nat → List Byte
  | 0, _ => []
  | n + 1, v => BitVec.ofNat 8 v :: bytesLE n (v / 256)

/-- The number that little-endian bytes spell. -/
def natLE : List Byte → Nat
  | [] => 0
  | b :: bs => b.toNat + 256 * natLE bs

/-- The word that four little-endian bytes spell. -/
def wordLE (bs : List Byte) : Word := BitVec.ofNat 32 (natLE (bs.take 4))

end Sys2Proof
end

