-- ==== Sys2Proof/Syntax.lean ====
section
/-!
DEFINITION. The commands of the block: one constructor per row of the opcode table, with its operands.

A command is an access of a requester, an operation of a bus or protocol, an event on a pin, or the
moment at which an operation of the device ends or a time of the spec has passed (DESIGN CHOICE, log entries 3 and 4).
-/

namespace Sys2Proof

/-- Frame types of Table 10.3 that carry a frame of the ring protocol. -/
structure Frame where
  typ : BitVec 4
  src : BitVec 7
  sec : Bool
  dst : BitVec 7
  crit : Bool
  carry : Bool
  wrapped : Bool
  slot : BitVec 10
  cycle : Word
  utag : Word
  payload : List Byte
  crcOk : Bool
  eed : Bool
  lenOk : Bool
  deriving DecidableEq, Repr

/-- One VMEbus cycle seen by the slave of a segment: address, modifier, bytes of the quad or octet, kind. -/
structure SlaveCyc where
  addr : Word
  am : BitVec 6
  size : Nat
  write : Bool
  blt : Bool
  mblt : Bool
  rmw : Bool
  deriving DecidableEq, Repr

/-- The kinds of requests that Table 4.8 answers with Unsupported Request (R91, R94). -/
inductive UrKind where
  | unsupportedNonPosted | unsupportedPosted | noBarNonPosted | noBarPosted | disabledNonPosted | disabledPosted
  | vendorMessage0 | vendorMessage1
  deriving DecidableEq, Repr

/-- The link-layer errors of Table 4.8. -/
inductive LinkErr where
  | receiverError | badTlp | badDllp | replayTimeout | replayRollover
  deriving DecidableEq, Repr

/-- TLPs that a port discards whatever they ask for (Table 4.8): the four fatal errors, and a failed ECRC check. -/
inductive FatalErr where
  | malformed | receiverOverflow | flowControl | dataLink | ecrc
  deriving DecidableEq, Repr

/-- The causes that start a gated segment's clock (R190). -/
inductive WakeCause where
  | asFall | masterWork
  deriving DecidableEq, Repr

/-- The places of a legacy master engine's arbiter (R215, R217). -/
inductive Place where
  | scheduled | vap | remote | mailbox
  deriving DecidableEq, Repr

/-- The supply conditions of Table 13.11. -/
inductive Supply where
  | pfw | vddio
  deriving DecidableEq, Repr

/-- The monitored transceiver and SerDes supplies of VMON (R377). -/
inductive Rail where
  | vddsa | vddsh
  deriving DecidableEq, Repr

/-- A DWORD of a register write with the EP bit of its TLP (R113). -/
structure PostedDw where
  word : Word
  poisoned : Bool
  deriving DecidableEq, Repr

/-- The Length and the tag of a register read (R99). -/
structure DwRead where
  dws : Nat
  tag : BitVec 10
  deriving DecidableEq, Repr

/-- The length of a BAR4 read and its byte enables (R133). -/
structure BytesRead where
  len : Nat
  be : List Bool
  deriving DecidableEq, Repr

/-- The OFFSET of a maintenance read frame, and the DATA that the frame carries after it (Table 2.16). -/
structure MntField where
  offset : BitVec 25
  data : Word
  deriving DecidableEq, Repr

/-- The CMD of a maintenance frame that starts no access, with the fields that follow it (Table 2.16). -/
structure MntIdle where
  cmd : BitVec 3
  space : Bool
  offset : BitVec 25
  data : Word
  deriving DecidableEq, Repr

/-- A grant on a level BGxIN*, at a Loom time (R162). -/
structure GrantIn where
  level : Fin 4
  time : Nat
  deriving DecidableEq, Repr

/-- BR0* to BR3* and BBSY* as the arbiter sees them (R183). -/
structure ReqLines where
  lines : BitVec 4
  bbsy : Bool
  deriving DecidableEq, Repr

/-- An Ephemeris entry and the Loom time at which it starts (R230). -/
structure EntryAt where
  entry : BitVec 14
  time : Nat
  deriving DecidableEq, Repr

/-- The header of a sub-block and the ring port by which it came (R305). -/
structure SubFrom where
  port : RingPort
  hdr : List Byte
  deriving DecidableEq, Repr

/-- The commands of the block, one per row of the opcode table. -/
inductive Instr where
  | registerWrite (r : Req) (addr : BitVec 20) (be : BitVec 4) (data : PostedDw)
  | unassignedPageWrite (r : Req) (addr : BitVec 20) (data : Word)
  | eventAck (r : Req) (page : BitVec 8) (seq : BitVec 8) (mask : BitVec 24)
  | lockWrite (r : Req) (page : BitVec 8) (data : Word)
  | indDataRead (r : Req) (page : BitVec 8) (tag : BitVec 10)
  | indDataWrite (r : Req) (page : BitVec 8) (data : Word)
  | indirectTimeout (r : Req) (page : BitVec 8) (write : Bool) (data : Word) (tag : BitVec 10)
  | guardedValueWrite (r : Req) (page : BitVec 8) (off : BitVec 12) (value : Word)
  | guardWrite (r : Req) (page : BitVec 8) (value : Word)
  | guardTimeout (r : Req) (page : BitVec 8)
  | votedWrite (c : Port) (page : BitVec 8) (off : BitVec 12) (value : Word)
  | votedEntryExpire (c : Port) (page : BitVec 8) (off : BitVec 12)
  | update (r : Req) (strobe : Word)
  | group7UpdateApply
  | bitAliasWrite (r : Req) (addr : BitVec 16) (data : Word)
  | snap (r : Req) (go clear : Bool)
  | mntRead (clocks : Nat) (space : Bool) (offset : MntField) (crc : BitVec 8)
  | mntWrite (clocks : Nat) (space : Bool) (offset : BitVec 25) (data : Word) (crc : BitVec 8)
  | mntGuardedWrite (clocks : Nat) (space : Bool) (offset : BitVec 25) (data : Word) (crc : BitVec 8)
  | mntReadStatus (clocks : Nat) (cmd : MntIdle) (crc : BitVec 8)
  | mntAccessDone
  | legCmdGo (data : Word)
  | legDone
  | configRequest (p : Port) (dw : BitVec 10) (write : Bool) (be : BitVec 4) (data : Word) (tag : BitVec 10)
  | unsupportedRequest (p : Port) (kind : UrKind) (tag : BitVec 10)
  | malformedTlp (p : Port) (kind : FatalErr)
  | bar2Read (p : Port) (off : BitVec 25) (len : Nat) (tag : BitVec 10)
  | bar2Write (p : Port) (off : BitVec 25) (data : List Byte) (be : List Bool) (poisoned : Bool)
  | bar4Write (p : Port) (pat : BitVec 16) (off : BitVec 12) (data : List Byte) (be : List Bool)
      (poisoned ecrcBad : Bool)
  | bar4Read (p : Port) (pat : BitVec 16) (off : BitVec 12) (len : BytesRead) (tag : BitVec 10)
  | flushRead (p : Port) (tag : BitVec 10)
  | flushReadComplete (p : Port) (tag : BitVec 10)
  | bar4TlpClaimGrant (p : Port)
  | pushStart (p : Port)
  | pushDone (p : Port)
  | perst (p : Port)
  | hotReset (p : Port)
  | dlDown (p : Port)
  | flr (p : Port)
  | dlUp (p : Port) (speed : BitVec 4) (width : BitVec 6) (credits : Option (Nat × Nat))
  | portReady (p : Port)
  | l1Entry (p : Port)
  | l1Exit (p : Port)
  | pmeTurnOff (p : Port)
  | rejoin (r : Req) (p : Port)
  | matchEntryExpire (k : Word) (pat : BitVec 16)
  | closedEntryRetire (k : Word) (pat : BitVec 16)
  | fenceCmd (ch : Port)
  | modeCmdAuto
  | modeCmdSelect1oo1 (ch : Port)
  | admissionEnd
  | commit (n : Word) (first second : Port)
  | noMajority (n : Word)
  | thirdCopyCompareDone (t : Port)
  | thirdCopyMissing (t : Port)
  | observerCompareDone (c : Port)
  | divergentClear (c : Port)
  | sysresetIn (g : Seg) (low : Bool)
  | busGrant (g : Seg) (t : GrantIn)
  | busReleaseRequest (g : Seg)
  | legacyTransferStart (g : Seg) (t : Nat)
  | dtackSeen (g : Seg) (data : DWord)
  | berrSeen (g : Seg)
  | retrySeen (g : Seg)
  | retryGapExpire (g : Seg)
  | bto (g : Seg)
  | strobeHoldResume (g : Seg)
  | trunc (g : Seg)
  | continuedIssue (g : Seg)
  | imageWindowWrite (g : Seg) (cyc : SlaveCyc) (data : List Byte)
  | slaveClaimTimeout (g : Seg) (cyc : SlaveCyc)
  | imageWindowRead (g : Seg) (cyc : SlaveCyc)
  | forwardWindowWrite (g : Seg) (cyc : SlaveCyc) (data : List Byte)
  | forwardedRead (g : Seg) (cyc : SlaveCyc)
  | forwardedReadTimeout (g : Seg)
  | delayedReadRepeat (g : Seg) (cyc : SlaveCyc)
  | drDiscard (g : Seg) (slot : Fin 4)
  | crcsrAccess (g : Seg) (write : Bool) (off : BitVec 19)
  | gaErr (g : Seg) (pins : BitVec 6)
  | iackCycle (g : Seg) (level : BitVec 3) (width : Fin 3)
  | irqGenAssert (r : Req) (g : Seg) (data : Word)
  | handlerServe (g : Seg) (level : BitVec 3)
  | busRequestArbitrate (g : Seg) (lines : ReqLines)
  | sysresetDriveEnd
  | sysfailIn (g : Seg)
  | acfail (g : Seg)
  | wake (g : Seg) (cause : WakeCause)
  | segmentStop (g : Seg)
  | qPop (r : Req) (tag : BitVec 10)
  | qCmdDrop (r : Req) (data : Word)
  | dropDone (queue : Fin 64)
  | reclaimDone
  | arbCommit (r : Req)
  | loomCycleStart
  | legacyEntry (entry : BitVec 14)
  | ringTxEntry (entry : BitVec 14)
  | ringRxEntry (entry : BitVec 14)
  | ringRxWindowClose (entry : BitVec 14)
  | syncEntry (entry : BitVec 14)
  | powerOnEntry (entry : EntryAt)
  | powerOffEntry (entry : EntryAt)
  | almStop
  | mark (entry : EntryAt)
  | deadline (entry : EntryAt)
  | skip (entry : BitVec 14)
  | gapWaitExpire (g : Seg) (place : Place)
  | gapOverrun (g : Seg)
  | load (r : Req) (slot : Fin 2)
  | loadClear (r : Req)
  | loadDone
  | checkCmd (r : Req)
  | checkDone
  | arm (dropOk : Bool)
  | armed (ok : Bool)
  | disarm
  | switched
  | freeze (r : Req) (n : Word)
  | commitRunDone
  | wdog
  | restartWarm
  | restartCold
  | restartStop
  | restartDone
  | forceSet (index : BitVec 12)
  | forceClear (index : BitVec 12)
  | forceClearAll
  | linkLoss (rp : RingPort)
  | linkOk (rp : RingPort)
  | dataFrameReceive (rp : RingPort) (inWindow : Bool) (f : Frame)
  | syncFrameReceive (rp : RingPort) (inWindow : Bool) (stamp : BitVec 66) (f : Frame)
  | coldstartEntry
  | coldstartSend
  | coldstartFrameReceive (rp : RingPort) (f : Frame)
  | inaugFrameReceive (rp : RingPort) (f : Frame)
  | inaugReturnTimeout
  | resultFrameReceive (rp : RingPort) (f : Frame)
  | unwrap (rp : RingPort)
  | memberLoss (n : BitVec 7)
  | takeover (n : BitVec 7)
  | release (n : BitVec 7)
  | ringCmdInaugurate
  | ringCmdWithdraw
  | ringCmdRelease
  | ringCmdRemoteWithdraw (dst : BitVec 7)
  | ringCmdRemoteRelease (dst : BitVec 7)
  | remoteRequestReceive (hdr : SubFrom) (data : List Byte)
  | remoteResponseReceive (hdr : SubFrom) (data : List Byte)
  | remCmd (hdr : List Byte)
  | remTimeout (tag : BitVec 12)
  | remoteWriteFragmentTimeout (src : BitVec 7) (tag : BitVec 12)
  | relayHoldExpire (relay : BitVec 14)
  | listenSyncSend
  | resync (intervalMs : Nat)
  | slewDone
  | epochCmd
  | logCellClose
  | logRecordStore
  | replSkip (p : Port)
  | logStart
  | clkfail
  | sysPllUnlock
  | serdesPllUnlock
  | phyPllUnlock (p : Port)
  | xto (pair : Fin 15)
  | pcmdRun
  | pcmdListen
  | pcmdHold
  | pcmdReset
  | pstateChg
  | coreGate
  | powerOnReset
  | vddioReset
  | vddReset
  | resetIn
  | resetRelease (straps : BitVec 6)
  | sysPllLock
  | wipeDone
  | portsOpen
  | warn (cond : Supply)
  | retainSaveStart
  | retainSaved
  | recover
  | lcToCommissioning (r : Req)
  | lcToService (r : Req)
  | lcToMaintenance (r : Req)
  | lcToRetired (r : Req) (confirm : BitVec 16)
  | sealArm (r : Req)
  | sealDisarm (r : Req)
  | sealClear (r : Req)
  | fuseVerifyDone (ok : Bool)
  | lcAlert
  | presenceAssert
  | presenceRelease
  | presenceTimeout
  | sealCheck (sampled : BitVec 16)
  | writeWeave (r : Req)
  | weaveStreamGapTimeout
  | invalidateWeave (r : Req)
  | saveRetain (r : Req)
  | invalidateRetain (r : Req)
  | writeIdent (r : Req)
  | almAbort (r : Req)
  | opDone
  | refreshStep
  | ovfClear (r : Req) (addr : BitVec 20) (data : Word)
  | userPageRead (r : Req) (off : BitVec 12) (tag : BitVec 10)
  | scrubVisit (memory : Fin 8) (word : Nat)
  | tapUpdateIr (ir : BitVec 6)
  | tapReset
  | resetCauseEnd (cause : Fin 7)
  | serdesPllLock
  | phyPllLock (p : Port)
  | perstRelease (p : Port)
  | recoveryTimeStart
  | warningReturnInHold (cond : Supply)
  | vmonSupplyLow (rail : Rail)
  | vmonSupplyOk (rail : Rail)
  | registerRead (r : Req) (addr : BitVec 20) (tag : DwRead)
  | unexpectedCompletion (p : Port)
  | linkLayerError (p : Port) (kind : LinkErr)
  | linkSpeedWidthChange (p : Port) (speed : BitVec 4) (width : BitVec 6)
  | postedCreditReturn (p : Port) (ph pd : Nat)
  | slotStart (slot : BitVec 10)
  | slaveStrobeRelease (g : Seg)
  deriving DecidableEq, Repr

end Sys2Proof
end

