-- ==== Sys2Proof/Decode.lean ====
section
/-!
DEFINITION. The words of the opcode table: no row of this block's table gives bits, so no word spells a command.
-/

namespace Sys2Proof

/-- The command that a word spells by the bits of the opcode table. The table of this block gives no row any bits: its
commands are accesses, pins and events, so there is nothing to decode. -/
def decodeTableWord (_nbits _w : Nat) : Option Instr := none

end Sys2Proof
end

