-- ==== Sys2Proof/Machine/Crc.lean ====
section
/-!
DEFINITION. The checksums of the spec: CRC-32C (RFC 3720, Table 4.6 and others) and the CRC-8 of maintenance frames (R53).
-/

namespace Sys2Proof.Machine

open Sys2Proof

/-- One bit of CRC-32C, reflected polynomial 0x82F63B78. -/
def crc32cBit (c : BitVec 32) : BitVec 32 :=
  if c.getLsbD 0 then (c >>> 1) ^^^ 0x82F63B78#32 else c >>> 1

/-- One byte of CRC-32C. -/
def crc32cByte (c : BitVec 32) (b : Byte) : BitVec 32 :=
  crc32cBit (crc32cBit (crc32cBit (crc32cBit (crc32cBit (crc32cBit (crc32cBit (crc32cBit (c ^^^ b.setWidth 32))))))))

/-- CRC-32C over a byte string: initial value all ones, final inversion. -/
def crc32c (bs : List Byte) : Word := ~~~ (bs.foldl crc32cByte 0xFFFFFFFF#32)

/-- One bit of the CRC-8 of R53: polynomial x^8 + x^2 + x + 1, most significant bit first, no reflection. -/
def crc8Bit (c : BitVec 8) (b : Bool) : BitVec 8 :=
  if (c.getLsbD 7) != b then (c <<< 1) ^^^ 0x07#8 else c <<< 1

/-- CRC-8 over the 64 bits of a frame, most significant bit first, initial value 0xFF (R53). -/
def crc8 (w : DWord) : BitVec 8 :=
  (List.range 64).foldl (fun c i => crc8Bit c (w.getLsbD (63 - i))) 0xFF#8

end Sys2Proof.Machine
end

