-- ==== Sys2Proof/Machine/SMap.lean ====
section
/-!
DEFINITION. Reading and writing a sparse memory, and its canonical form.

Every memory of the block (image, Almanac, tables, cells, registers) is an `SMap`; two equal memories are equal lists.
-/

namespace Sys2Proof.Machine

open Sys2Proof

/-- What address `k` holds; `d` is what an address that is not listed holds. -/
def mget {α : Type} (d : α) : SMap α → Nat → α
  | [], _ => d
  | (a, v) :: m, k => if a = k then v else mget d m k

/-- Put the entry `(k, v)` in its place, dropping an older entry of `k`. -/
def minsert {α : Type} (k : Nat) (v : α) : SMap α → SMap α
  | [] => [(k, v)]
  | (a, w) :: m => if k < a then (k, v) :: (a, w) :: m else if k = a then (k, v) :: m else (a, w) :: minsert k v m

/-- Drop the entry of `k`. -/
def merase {α : Type} (k : Nat) (m : SMap α) : SMap α := m.filter fun e => !(e.1 == k)

/-- Write `v` at `k`; writing the default `d` removes the entry, which keeps the form canonical. -/
def mset {α : Type} [DecidableEq α] (d : α) (k : Nat) (v : α) (m : SMap α) : SMap α :=
  if v = d then merase k m else minsert k v m

/-- Write consecutive values from address `k` on. -/
def msetList {α : Type} [DecidableEq α] (d : α) : Nat → List α → SMap α → SMap α
  | _, [], m => m
  | k, v :: vs, m => msetList d (k + 1) vs (mset d k v m)

/-- The `n` values from address `k` on. -/
def mgetList {α : Type} (d : α) (m : SMap α) : Nat → Nat → List α
  | _, 0 => []
  | k, n + 1 => mget d m k :: mgetList d m (k + 1) n

/-- Drop every entry whose address lies in `[lo, hi)`. -/
def meraseRange {α : Type} (lo hi : Nat) (m : SMap α) : SMap α :=
  m.filter fun e => !(decide (lo ≤ e.1) && decide (e.1 < hi))

/-- Addresses strictly rise, all above `lo`. -/
def mrising {α : Type} : Option Nat → SMap α → Bool
  | _, [] => true
  | none, (a, _) :: m => mrising (some a) m
  | some b, (a, _) :: m => decide (b < a) && mrising (some a) m

/-- The canonical form: addresses strictly rising, no entry equal to the default. -/
def mwf {α : Type} [DecidableEq α] (d : α) (m : SMap α) : Bool :=
  mrising none m && m.all fun e => !(decide (e.2 = d))

/-- The canonical form of a byte memory: addresses strictly rising, no entry listed that reads as an unlisted address does. -/
def Memory.wf (m : SMap Byte) : Bool := mwf 0 m

/-- The memory `m` as one of byte addresses: the word at byte address `a`, little-endian. -/
def mword (m : SMap Byte) (a : Nat) : Word := wordLE (mgetList 0 m a 4)

/-- Write the word `w` at byte address `a`, little-endian. -/
def msetWord (a : Nat) (w : Word) (m : SMap Byte) : SMap Byte := msetList 0 a (bytesLE 4 w.toNat) m

end Sys2Proof.Machine
end

