-- ==== Sys2Proof/Machine/Operands.lean ====
section
/-!
DEFINITION. Operand forms of the legacy accesses: the pattern entry bit by bit (R65), its field encodings (R66),
the address modifiers (R67), the access checks (R69), the translation of window bytes to legacy bytes (R71, R75),
and the cutting of an access into VMEbus cycles (R76 to R79).
-/

namespace Sys2Proof.Machine

open Sys2Proof

/-- Access kinds of Table 3.2. -/
inductive PatKind where
  | read | write | rmw | iack
  deriving DecidableEq, Repr

/-- A pattern entry, taken apart (Table 3.1). -/
structure Pat where
  valid : Bool
  kind : PatKind
  seg : Seg
  node : Nat
  am : Nat
  width : Nat
  uat : Bool
  burst : Nat
  swapSize : Nat
  swapInv : Bool
  profile : Nat
  idem : Bool
  atomic : Bool
  cut : Bool
  base : Nat
  rlen : Nat
  errpol : Nat
  vclass : Nat
  safety : Bool
  resv : Nat
  wlen : Nat
  recOff : Nat
  deriving DecidableEq, Repr

/-- KIND of Table 3.2. -/
def patKindOf (n : Nat) : PatKind :=
  if n = 0 then .read else if n = 1 then .write else if n = 2 then .rmw else .iack

/-- The pattern whose 128 bits are `e` (Table 3.1). -/
def patOf (e : Nat) : Pat :=
  { valid := bitsOf e 0 0 == 1, kind := patKindOf (bitsOf e 2 1), seg := if bitsOf e 3 3 = 1 then 1 else 0,
    node := bitsOf e 10 4, am := bitsOf e 16 11, width := bitsOf e 19 17, uat := bitsOf e 20 20 == 1,
    burst := bitsOf e 22 21, swapSize := bitsOf e 24 23, swapInv := bitsOf e 25 25 == 1,
    profile := bitsOf e 28 26, idem := bitsOf e 29 29 == 1, atomic := bitsOf e 30 30 == 1,
    cut := bitsOf e 31 31 == 1, base := bitsOf e 63 32, rlen := bitsOf e 79 64, errpol := bitsOf e 83 80,
    vclass := bitsOf e 86 84, safety := bitsOf e 87 87 == 1, resv := bitsOf e 95 88,
    wlen := bitsOf e 107 96, recOff := bitsOf e 127 108 }

/-- The width W in bytes of a single cycle (R77): 1 for D8, 2 for D16, 4 for D32 and D64. -/
def Pat.w (p : Pat) : Nat := if p.width ≤ 1 then 1 else if p.width = 2 then 2 else 4

/-- WIDTH D8(O) of Table 3.2. -/
def Pat.d8o (p : Pat) : Bool := p.width == 0

/-- ERRPOL[0] RDPOL. -/
def Pat.rdpol (p : Pat) : Bool := bitsOf p.errpol 0 0 == 1
/-- ERRPOL[2:1] RTRY: RETRY* answers honoured before the access counts as failed. -/
def Pat.rtry (p : Pat) : Nat := 4 ^ bitsOf p.errpol 2 1
/-- ERRPOL[3] LMPOL. -/
def Pat.lmpol (p : Pat) : Bool := bitsOf p.errpol 3 3 == 1

/-- Whether AM is a code of Table 3.3. -/
def amListed (am : Nat) : Bool :=
  [0x29, 0x2D, 0x2F, 0x39, 0x3A, 0x3D, 0x3E, 0x09, 0x0A, 0x0D, 0x0E].contains am

/-- Whether AM permits bursts (the rows of Table 3.3 with a BLT code); 2eVME only in A32. -/
def amBurst (am burst : Nat) : Bool :=
  burst == 0 || [0x09, 0x0D].contains am || ([0x39, 0x3D].contains am && burst != 3)

/-- The highest address of the space of AM (Table 3.4, Address range). -/
def amTop (am : Nat) : Nat :=
  if am = 0x29 ∨ am = 0x2D then 0xFFFF
  else if am = 0x2F ∨ am = 0x39 ∨ am = 0x3A ∨ am = 0x3D ∨ am = 0x3E then 0xFFFFFF else 0xFFFFFFFF

/-- The derived modifier of a burst (R67, Table 3.3). -/
def burstAm (am burst : Nat) : Nat :=
  if burst = 3 then 0x20
  else if burst = 1 then am + 2
  else if burst = 2 then am - 1
  else am

/-- The refusals of R69 for an access of `n` bytes at window offset `off`. -/
def accessRefused (p : Pat) (isWrite : Bool) (off n : Nat) : Bool :=
  !p.valid || decide (p.wlen + 1 < off + n) ||
  (isWrite && (p.kind == .read || p.kind == .iack)) ||
  (!isWrite && p.kind == .write) ||
  (isWrite && p.kind == .rmw && !(off == 0 && n == 2 * p.w)) ||
  (!isWrite && (p.kind == .rmw || p.kind == .iack) && !(off == 0 && n == p.w))

/-- The swap map m(x) of R75 for an access of `n` bytes at window offset `off`. -/
def swapMap (p : Pat) (off n x : Nat) : Nat :=
  let s := 2 ^ p.swapSize
  let u := x / s * s
  if p.swapInv ∧ ¬(off ≤ u ∧ u + s ≤ off + n) then x else u + (s - 1 - (x - u))

/-- The legacy byte address L(x) of the byte at window offset `x` (R71). -/
def legacyAddr (p : Pat) (off n x : Nat) : Nat :=
  if p.d8o then p.base + 2 * x else p.base + swapMap p off n x

/-- One byte of an access: its legacy address and its window offset. -/
abbrev LByte := Nat × Nat

/-- One VMEbus cycle or burst: `beats` is 0 for a single cycle, else the beats of the burst. -/
structure Cyc where
  addr : Nat
  beats : Nat
  bytes : List LByte
  deriving DecidableEq, Repr

/-- Put a byte in its place of a list sorted by legacy address. -/
def insLByte (b : LByte) : List LByte → List LByte
  | [] => [b]
  | c :: cs => if b.1 ≤ c.1 then b :: c :: cs else c :: insLByte b cs

/-- The bytes of an access in ascending legacy address order (R76). -/
def sortLBytes (bs : List LByte) : List LByte := bs.foldr insLByte []

/-- Cut a sorted list of bytes into runs of contiguous addresses (R76). -/
def cutRuns : List LByte → List (List LByte)
  | [] => []
  | b :: bs =>
    match cutRuns bs with
    | (c :: r) :: rs => if c.1 = b.1 + 1 then (b :: c :: r) :: rs else [b] :: (c :: r) :: rs
    | rs => [b] :: rs

/-- The bytes of the next single cycle of a run at address `a` with `n` bytes left (R77). -/
def singleSize (w : Nat) (uat : Bool) (a n : Nat) : Nat :=
  if w = 4 ∧ uat then min n (4 - a % 4)
  else if w = 4 ∧ a % 4 = 0 ∧ 4 ≤ n then 4
  else if 2 ≤ w ∧ a % 2 = 0 ∧ 2 ≤ n then 2
  else 1

/-- Shape a run into single cycles (R77); the fuel is the number of bytes. -/
def shapeSingles (w : Nat) (uat : Bool) : Nat → List LByte → List Cyc
  | 0, _ => []
  | _, [] => []
  | f + 1, b :: bs =>
    let c := singleSize w uat b.1 (bs.length + 1)
    ⟨b.1, 0, (b :: bs).take c⟩ :: shapeSingles w uat f ((b :: bs).drop c)

/-- The beat size B of a burst form (R78). -/
def beatSize (p : Pat) : Nat := if p.burst = 1 then (if p.width = 2 then 2 else 4) else 8
/-- The boundary P of a burst form (R78). -/
def burstBound (p : Pat) : Nat := if p.burst = 1 then 256 else 2048

/-- The middle part of R78: bursts that never cross a boundary P; the fuel is the number of bytes. -/
def shapeMid (p : Pat) : Nat → Nat → Nat → List LByte → List Cyc
  | 0, _, _, _ => []
  | fuel + 1, a, f, bs =>
    if a < f then
      let q := min f (a / burstBound p * burstBound p + burstBound p)
      let part := bs.take (q - a)
      (if 2 * beatSize p ≤ q - a then [⟨a, (q - a) / beatSize p, part⟩]
       else shapeSingles p.w p.uat part.length part) ++ shapeMid p fuel q f (bs.drop (q - a))
    else []

/-- Shape one run (R77, R78). -/
def shapeRun (p : Pat) (run : List LByte) : List Cyc :=
  match run with
  | [] => []
  | b :: _ =>
    let a := b.1
    let n := run.length
    let bz := beatSize p
    let s := (a + bz - 1) / bz * bz
    let f := (a + n) / bz * bz
    if p.burst = 0 ∨ f < s + 2 * bz then shapeSingles p.w p.uat n run
    else
      shapeSingles p.w p.uat n (run.take (s - a)) ++ shapeMid p n s f ((run.drop (s - a)).take (f - s)) ++
        shapeSingles p.w p.uat n (run.drop (f - a))

/-- The window offsets an access of `n` bytes at `off` carries: for a write the enabled bytes, for a read every byte (R76). -/
def accessBytes (p : Pat) (off n : Nat) (enabled : Nat → Bool) : List LByte :=
  ((List.range n).filter enabled).map fun i => (legacyAddr p off n (off + i), off + i)

/-- The cycles of an access in issue order (R76 to R78). -/
def shapeAccess (p : Pat) (off n : Nat) (enabled : Nat → Bool) : List Cyc :=
  let bs := sortLBytes (accessBytes p off n enabled)
  if p.d8o then bs.map fun b => ⟨b.1, 0, [b]⟩ else (cutRuns bs).flatMap (shapeRun p)

/-- The cycles of a forwarded access: byte addresses are kept, no swap (R83). -/
def shapeForward (p : Pat) (off n : Nat) : List Cyc :=
  let bs := (List.range n).map fun i => (p.base + off + i, off + i)
  if p.d8o then bs.map fun b => ⟨b.1, 0, [b]⟩ else (cutRuns bs).flatMap (shapeRun p)

/-- The address-phase and strobe levels of a single cycle (Table 3.6): DS1*, DS0*, A[1], LWORD*; true is high. -/
structure Lanes where
  ds1 : Bool
  ds0 : Bool
  a1 : Bool
  lword : Bool
  deriving DecidableEq, Repr

/-- The levels of Table 3.6 for `n` bytes at address `a`. -/
def lanesOf (a n : Nat) : Lanes :=
  let q := a % 4
  if n = 1 then ⟨a % 2 = 1, a % 2 = 0, 2 ≤ q, true⟩
  else if n = 2 ∧ q ≠ 1 then ⟨false, false, q = 2, true⟩
  else if n = 3 ∧ q = 0 then ⟨false, true, false, false⟩
  else if n = 3 then ⟨true, false, false, false⟩
  else if n = 2 then ⟨false, false, true, false⟩
  else ⟨false, false, false, false⟩

/-- How far left the lowest-addressed byte of a single cycle lies on D[31:0] (Table 3.6), in bits. -/
def laneTop (a n : Nat) : Nat :=
  let l := lanesOf a n
  if l.lword then (if n = 1 then (if a % 2 = 0 then 8 else 0) else 8)
  else 24 - 8 * (a % 4)

/-- The data lines D[31:0] of a single cycle that carries the bytes `bs` (Table 3.6). -/
def laneData (a : Nat) (bs : List Byte) : Nat :=
  let top := laneTop a bs.length
  (bs.zip (List.range bs.length)).foldl (fun acc e => acc + e.1.toNat * 2 ^ (top - 8 * e.2)) 0

/-- The bytes that D[31:0] carries in a single cycle of `n` bytes at `a` (Table 3.6). -/
def laneBytes (a n : Nat) (d : Nat) : List Byte :=
  (List.range n).map fun i => BitVec.ofNat 8 (d >>> (laneTop a n - 8 * i))

/-- A record's own rules of Table 3.4: the first subject broken, if any.
`recOk` says whether the record lies in one image area, and `recGeneral` whether in the general area. -/
def patFault (e : Nat) (recOk recGeneral : Bool) : Bool :=
  let p := patOf e
  let w := p.w
  let s := 2 ^ p.swapSize
  let reservedBad := p.resv != 0 || decide (4 < p.width) || decide (1 < p.vclass)
  if reservedBad then true
  else if p.node ≠ 0 then
    !(decide (p.node ≤ 64) && (p.kind == .read || p.kind == .write) && decide (p.base < 0x10000) && p.seg == 0 &&
      p.am == 0 && p.width == 0 && !p.uat && p.burst == 0 && p.swapSize == 0 && !p.swapInv && p.profile == 0 &&
      !p.atomic && !p.cut && p.rlen == 0 && p.recOff == 0 && (!p.idem || p.kind == .read))
  else
    (p.width == 4) != (p.burst == 2 || p.burst == 3) ||
    (p.burst == 1 && !(p.width == 2 || p.width == 3)) ||
    (p.uat && !(p.width == 3 || p.width == 4)) ||
    !(amListed p.am && amBurst p.am p.burst) ||
    (p.d8o && !(p.burst == 0 && p.swapSize == 0 && (p.base % 2 == 1 || p.kind == .iack))) ||
    !(p.base % s == 0 && (p.swapInv || ((p.wlen + 1) % s == 0 && p.rlen % s == 0))) ||
    decide (amTop p.am < p.base + (if p.d8o then 2 * p.wlen else p.wlen)) ||
    (p.rlen != 0 && decide (amTop p.am < p.base + p.rlen - 1)) ||
    (if p.rlen = 0 then p.recOff != 0 else !recOk) ||
    (p.idem && p.kind != .read) ||
    (p.atomic && p.cut) || (p.cut && p.kind != .write) ||
    (p.kind == .rmw && !((p.width == 1 || p.width == 2 || p.width == 3) && p.burst == 0 && !p.uat &&
      p.wlen + 1 == 2 * w && p.rlen == w && recGeneral)) ||
    (p.kind == .iack && !((p.width == 0 || p.width == 2 || p.width == 3) && p.burst == 0 && decide (p.base < 8) &&
      decide (1 ≤ p.base) && p.wlen + 1 == w && p.rlen == 0))

end Sys2Proof.Machine
end

