-- ==== Sys2Proof/Config.lean ====
section
/-!
DEFINITION. What the spec leaves open and the model does not choose: opaque constants with no value.
A statement about the model holds for every value of them.
-/

namespace Sys2Proof.Config

open Sys2Proof

/-- A value the spec does not state (DESIGN CHOICE, log entry 12): the `n`-th free value the machine takes. -/
opaque freeValue : Nat → BitVec 64

/-- The rounding of a mean or of a scaled quantity that the spec does not fix (DESIGN CHOICE, log entry 13):
whether the quotient of `a` by `n` takes the next higher integer. -/
opaque roundUp : Int → Nat → Bool

end Sys2Proof.Config
end

