-- ==== Sys2Proof/Machine/State.lean ====
section
/-!
DEFINITION. The state of the block as plain data, the reasons a step can stop, and the machine right after reset.

Every register of the spec has one home. A register whose bits other state already fixes is computed from that state
when it is read (`Machine/RegMap.lean`); every other register lives in `State.regs`, at its BAR0 address.
-/

namespace Sys2Proof.Machine

open Sys2Proof

/-- Reasons a step could stop with a fault. No meaning of this model ends in one: every command of the spec has an
effect the spec states. -/
inductive Fault where
  /-- Raised by nobody; kept so that the type has a constructor. Safe: a stop proves nothing about the hardware. -/
  | internal
  deriving DecidableEq, Repr

/-- Reasons a command could be refused by the model. -/
inductive Refusal where
  /-- Raised by the dispatcher for a command that has no meaning yet. Safe: the model then says nothing about it. -/
  | notModelled (mnemonic : String)
  deriving DecidableEq, Repr

/-- Channel states of Table 5.1. -/
inductive ChState where
  | absent | observer | ready | active | fenced
  deriving DecidableEq, Repr

/-- Vote modes of Table 5.4. -/
inductive VoteMode where
  | halt | m2oo2 | m2oo3 | m1oo1
  deriving DecidableEq, Repr

/-- Controller states of Table 9.16. -/
inductive CtlState where
  | waiting | running | stopped
  deriving DecidableEq, Repr

/-- Node states of Table 10.5. -/
inductive NodeState where
  | listen | coldstart | integrate | active | standby
  deriving DecidableEq, Repr

/-- Power states of Table 13.6. -/
inductive PowerState where
  | reset | hold | listen | run
  deriving DecidableEq, Repr

/-- Life-cycle states of Table 14.10. -/
inductive LifeState where
  | blank | commissioning | service | maintenance | retired
  deriving DecidableEq, Repr

/-- The reset sequence of Table 13.10: in reset, released, wiping, wiped, identity read, ports open. -/
inductive BootPhase where
  | inReset | released | wiping | wiped | identified | opened
  deriving DecidableEq, Repr

/-- ARM_STAT.STATE of Table 8.16. -/
inductive ArmState where
  | idle | marking | armed | switched | refused | abandoned
  deriving DecidableEq, Repr

/-- CHECK_STAT.STATE of Table 8.17. -/
inductive CheckState where
  | none | running | pass | fail
  deriving DecidableEq, Repr

/-- A posted TLP that a port sends: a memory write (R102, R111). -/
structure PTlp where
  addr : Nat
  data : List Byte
  deriving DecidableEq, Repr

/-- The header of a TLP, DW 0 in bits [31:0] and DW 3 in bits [127:96], with the bits of it that the command gives (R114). -/
structure Hdr where
  bits : BitVec 128
  known : BitVec 128
  deriving DecidableEq, Repr

/-- A non-posted request that a port holds (R98): its tag and its header. -/
structure NpReq where
  tag : Nat
  hdr : Hdr
  deriving DecidableEq, Repr

/-- What leaves the device during one step: completions, posted writes, messages, frames, register read data. -/
inductive Out where
  /-- A completion: port, tag, status (0 successful, 1 UR, 2 CRS, 4 CA), poisoned, Byte Count, Lower Address, bytes. -/
  | cpl (p : Port) (tag status : Nat) (ep : Bool) (byteCount lower : Nat) (data : List Byte)
  /-- A posted memory write; a 4-DW header is used when `hdr4` is true (R107, R111). -/
  | mwr (p : Port) (hdr4 : Bool) (t : PTlp)
  /-- A PCI Express message by name. -/
  | msg (p : Port) (name : String)
  /-- The ECRC of the TLP before it, while ECRC generation is enabled (Table 4.1). -/
  | digest (p : Port)
  /-- The credits a port advertises on VC0 (Table 4.4): posted header and data, non-posted header and data; completions infinite. -/
  | initFc (p : Port) (ph pd nph npd : Nat)
  /-- A register word returned to a requester inside the device (maintenance frames). -/
  | word (r : Req) (w : Word)
  /-- The maintenance response of Table 2.18, 72 bits. -/
  | miso (w : BitVec 72)
  /-- A ring frame sent on a port. -/
  | ring (rp : RingPort) (f : Frame)
  /-- A slave answer on a segment: 0 DTACK*, 1 BERR*, 2 RETRY*, with the data bytes of a read. -/
  | slave (g : Seg) (answer : Nat) (data : List Byte)
  /-- IACKIN* passed on to IACKOUT*. -/
  | iackOut (g : Seg) (level : Nat)
  /-- BGxIN* of a level passed on to BGxOUT* (R162). -/
  | grantOut (g : Seg) (level : Nat)
  /-- An address-only cycle: AS* is released without DS* (R171). -/
  | addrOnly (g : Seg) (addr am : Nat)
  /-- The 16 bits driven onto SEAL_A by one check (R392). -/
  | seal (bits : BitVec 16)
  deriving DecidableEq, Repr

/-- Who receives the outcome of a legacy access or of a remote request. -/
inductive Origin where
  /-- A scheduled entry of the Ephemeris: its index, the Loom cycle in which it was dispatched, and its TIME. -/
  | sched (entry cycle due : Nat)
  /-- The vote unit: the match entry (k, pattern index). -/
  | vote (k pat : Nat)
  /-- A remote request of another node: source node, tag. -/
  | remote (src tag : Nat)
  /-- A forwarded write of the slave of a segment. -/
  | fwdWrite (g : Seg)
  /-- A forwarded read of the slave of a segment, by delayed-read number. -/
  | fwdRead (g : Seg) (id : Nat)
  /-- The maintenance mailbox. -/
  | mailbox
  /-- The interrupt handler of a segment, by level. -/
  | handler (g : Seg) (level : Nat)
  deriving DecidableEq, Repr

/-- A packet on a list of the Creel (R196), with the descriptor of Table 7.1 and the pattern entry it was fetched
with (R63). -/
structure Pkt where
  owner : Nat
  cells : List Nat
  eop : Bool
  epoch : Nat
  /-- The Loom cycle, modulo 65,536, in which the ring delivered the request (R312). -/
  cy : Nat
  src : Nat
  pat : Nat
  off : Nat
  len : Nat
  aux : Nat
  data : List Byte
  en : List Bool
  isRead : Bool
  trunc : Bool
  cont : Bool
  poison : Bool
  sent : Nat
  patE : Nat
  origin : Origin
  deriving DecidableEq, Repr

/-- One queue of the Creel (R197, Tables 7.2 and 7.3, 7.12, 7.13). -/
structure Queue where
  pkts : List Pkt
  held : Nat
  resv : Nat
  limit : Nat
  thresh : Nat
  /-- The packet whose rest is being dropped, with the cells it still holds (R208). -/
  dropping : Option Pkt
  underrun : Bool
  /-- The stored copies of a pointer of this list disagree (R211). -/
  ptrBad : Bool
  deriving DecidableEq, Repr

/-- The Creel: cells, lists, free list, reclaim sweep (chapter 7). -/
structure Creel where
  q : SMap Queue
  cell : SMap Byte
  /-- Free list: the cells `fresh` to 16,383 not used since reset, then the released cells in order. -/
  fresh : Nat
  free : List Nat
  /-- Cells of reset lists that the running sweep will release or relink, with the queue that owns them (R212). -/
  lostCells : List (Nat × Nat)
  /-- Packets lost by a reset of their list, whose operations fail (R213): list, packet. -/
  lostPkts : List (Nat × Pkt)
  /-- The lists that the running sweep recovers. -/
  resets : List Nat
  /-- The same three of the further sweep (R212). -/
  nextCells : List (Nat × Nat)
  nextPkts : List (Nat × Pkt)
  nextResets : List Nat
  sweep : Bool
  sweepPending : Bool
  sweepQueue : Nat
  sweepReleased : Nat
  /-- Reservation increases not yet covered by releases (R201). -/
  uncovered : Nat
  ptrErr : Word
  lastPop : Word
  /-- Words of the head IACK packet already popped (R209). -/
  popped : Nat
  /-- PRIO_SCHED in effect, and its shadow (R219). -/
  prioSched : Word
  prioShadow : Word
  deriving DecidableEq, Repr

/-- A held guarded write (R28): register offset and value. -/
structure Held where
  off : Nat
  value : Word
  deriving DecidableEq, Repr

/-- The per-requester state of the register file (R14, R25, R28, R43). -/
structure ReqS where
  indAddr : SMap Word
  guards : SMap Held
  guardStat : SMap Word
  hiLatch : SMap Word
  loHeld : SMap Word
  qSel : Nat
  routeSel : Nat
  deriving DecidableEq, Repr

/-- An entry of a voted-write table (R32): key (page × 4096 + folded offset), value (both words of a 64-bit register,
R323), APSEQ.K and epoch of the writer (R125, R143). -/
structure VEntry where
  key : Nat
  value : DWord
  k : Word
  epoch : BitVec 16
  deriving DecidableEq, Repr

/-- The register file around the registers: requesters, shadows, voted-write tables. -/
structure Bus where
  req : Vector ReqS 5
  /-- Shadows of SH registers, by BAR0 address plus 2^20 × queue or event number (R37). -/
  shadow : SMap Word
  voted : Vector (List VEntry) 4
  /-- Voted writes that took effect less than VWIN ago: key and value (R142). -/
  recent : List (Nat × DWord)
  deriving DecidableEq, Repr

/-- One channel in the vote unit (chapter 5). -/
structure Chan where
  st : ChState
  epoch : BitVec 16
  k : Word
  aligned : Bool
  matchCnt : Nat
  divergent : Bool
  /-- Stamps of the charges counted against the channel (R148). -/
  charges : List Word
  /-- Stamp of the last Completer Abort under R138. -/
  caStamp : Option Word
  /-- BAR4 operations accepted since its last write to IMG.COMMIT (R153). -/
  opsSince : Nat
  /-- The controller cycle of a commit write waiting for its comparison, if any (R145, R149). -/
  copyOf : Option Word
  /-- The last controller cycle whose comparison has ended for the channel, by a comparison or as missing (R145, R149). -/
  cmpOf : Option Word
  deriving DecidableEq, Repr

/-- A request that waits in a port: in its receive buffer behind a stalled BAR4 write (R203), or behind an indirect access whose clock
domain stands (R26, R100). A BAR0 write is one DW; a BAR0 read counts DWs and keeps the bytes it has read. -/
inductive RxTlp where
  | config (dw : Nat) (write : Bool) (be : BitVec 4) (data : Word) (tag : Nat)
  | flr
  | unsupported (kind : UrKind) (tag : Nat)
  | bar0Write (addr : Nat) (en : List Bool) (data : Word) (poisoned : Bool)
  | bar0Read (addr dws tag : Nat) (got : List Byte)
  | bar2Write (off : Nat) (data : List Byte) (en : List Bool) (poisoned : Bool)
  | bar2Read (off len tag : Nat)
  | write (pat off : Nat) (data : List Byte) (en : List Bool) (poisoned : Bool)
  | read (pat off len : Nat) (en : List Bool) (tag : Nat)
  | flush (tag : Nat)
  deriving DecidableEq, Repr

/-- The data bytes of a posted memory write. -/
def RxTlp.payload : RxTlp → Option Nat
  | .bar0Write .. => some 4
  | .bar2Write _ d _ _ => some d.length
  | .write _ _ d _ _ => some d.length
  | _ => none

/-- A waiting TLP is a memory write. -/
def RxTlp.isWrite (x : RxTlp) : Bool := x.payload.isSome

/-- A waiting request addresses BAR0 or BAR2. -/
def RxTlp.isBar02 : RxTlp → Bool
  | .bar0Write .. => true | .bar0Read .. => true | .bar2Write .. => true | .bar2Read .. => true | _ => false

/-- A running push (R105 to R108). -/
structure Push where
  n : Word
  bytes : Nat
  records : Nat
  crc : Word
  truncated : Bool
  epoch : BitVec 16
  st : ChState
  ftime : Nat
  base : Nat
  limit : Nat
  deriving DecidableEq, Repr

/-- A push asked for by a freeze: its controller cycle, the time of the freeze, and the frozen records with their push offset and the image
offset of their slot (R106, R108, R264). -/
structure PushAsk where
  n : Word
  ftime : Nat
  recs : List (Nat × Nat × List Byte)
  deriving DecidableEq, Repr

/-- The PCI Express side of one channel port (chapter 4). -/
structure PortS where
  perst : Bool
  hotReset : Bool
  dlUp : Bool
  speed : Nat
  width : Nat
  l1 : Bool
  l23 : Bool
  /-- The port answers with Configuration Request Retry Status (R117). -/
  crs : Bool
  phyLock : Bool
  cfg : SMap Word
  /-- Non-posted requests not yet completed (R98). -/
  np : List NpReq
  rx : List RxTlp
  /-- BAR0 and BAR2 requests that wait behind an indirect access of the port, its own first (R26, R100). -/
  bar : List RxTlp
  /-- Flush reads not yet completed: tag, APSEQ.K at their receipt (R70). -/
  flush : List (Nat × Nat)
  push : Option Push
  /-- Pushes that wait, oldest first (R108). -/
  pushWaiting : List PushAsk
  pseq : Word
  deriving DecidableEq, Repr

/-- The posted transmit side of one port: the partner's credits and TLPs waiting for them (R98, R102). -/
structure TxQ where
  /-- Posted header and data credits held, `none` when infinite. -/
  credits : Option (Nat × Nat)
  waiting : List (Nat × PTlp)
  deriving DecidableEq, Repr

/-- MSI-X of one port (R110, R345). -/
structure MsixS where
  table : SMap Word
  pba : SMap Bool
  /-- Vectors whose message has been called for and whose TLP is not issued (R344). -/
  outstanding : List Nat
  /-- Device time, in 2^-32 s, of the last fenced-vector message issued (R345). -/
  lastFenced : Option Nat
  deriving DecidableEq, Repr

/-- A copy of an aperiodic operation in the match table (R131 to R139). -/
structure MCopy where
  ch : Port
  k : Word
  pat : Nat
  off : Nat
  len : Nat
  data : List Byte
  en : List Bool
  poisoned : Bool
  isRead : Bool
  tag : Nat
  cells : List Nat
  epoch : BitVec 16
  /-- Bytes of a read already completed (R99). -/
  done : Nat
  deriving DecidableEq, Repr

/-- The phase of a match entry: waiting, read started, issued or performed. -/
inductive EntryPhase where
  | waiting | started | done
  deriving DecidableEq, Repr

/-- A match entry (R132 to R138). -/
structure MEntry where
  k : Word
  pat : Nat
  patE : Nat
  /-- The pattern that runs at this node, as fetched when the entry opened: its own, or the destination of R74 (R63). -/
  locE : Option Nat
  isRead : Bool
  copies : List MCopy
  phase : EntryPhase
  /-- The copy that was issued or performed. -/
  chosen : Option MCopy
  /-- The held completion of a read: failed, bytes. -/
  result : Option (Bool × List Byte)
  /-- The first bytes of a started read, as far as they are present (R99). -/
  prog : List Byte
  deriving DecidableEq, Repr

/-- One record of the commit digest (R146): CRC of the agreed copy, or of P's and Q's copies. -/
structure Digest where
  recOff : Nat
  rlen : Nat
  agreed : Bool
  crcP : Word
  crcQ : Word
  deriving DecidableEq, Repr

/-- The last commit carried out (R143 to R149). -/
structure CommitInfo where
  n : Word
  first : Port
  second : Port
  kc : Word
  digest : List Digest
  digestValid : Bool
  /-- Whether the third channel's copy has been compared or charged as missing. -/
  thirdDone : Bool
  /-- Vote mode 2OO3 at the commit. -/
  three : Bool
  deriving DecidableEq, Repr

/-- The vote unit (chapter 5). -/
structure Vot where
  mode : VoteMode
  oneCh : Port
  admitOn : Bool
  openE : List MEntry
  closedE : List MEntry
  waiting : List MCopy
  kEvict : Option Word
  last : Option CommitInfo
  /-- Controller cycles whose first commit write has been made and that have no commit yet (R144). -/
  attempts : List Word
  deriving DecidableEq, Repr

/-- The force table and the forces in effect, as the words of Tables 9.7 and 9.23. -/
structure Frc where
  tab : SMap Word
  eff : SMap Word
  deriving DecidableEq, Repr

/-- A commit run (R269). -/
structure CommitRun where
  n : Word
  first : Port
  second : Port
  one : Bool
  cycle : Word
  /-- Records of the output list when the commit was carried out: REC, RLEN, RETAIN, RET_OFF. -/
  outs : List (Nat × Nat × Bool × Nat)
  /-- The commit was carried out in WAITING, so the safe presentation is what it builds from (R281). -/
  fromSafe : Bool
  /-- The force table and the forces in effect when the run began (R276). -/
  frc : Frc
  deriving DecidableEq, Repr

/-- The process image and the controller (chapter 9). -/
structure Img where
  mem : SMap Byte
  build : SMap Byte
  /-- Slot state of INIT list entry i: newest + 4 × frozen + 16 × written; 3 is none. -/
  slot : SMap Nat
  ctl : CtlState
  restarting : Bool
  restartCold : Bool
  lastCold : Bool
  fallback : Bool
  stopCause : Nat
  frozen : Word
  committed : Word
  freezeCycle : Word
  freezeTime : Nat
  /-- The records frozen, in ascending REC: push offset, image offset of the slot, header and data (R266). -/
  frozenRecs : List (Nat × Nat × List Byte)
  heldFreeze : List (Nat × Word)
  /-- 0 not counting, 1 freeze to commit, 2 commit to freeze (R279). -/
  wdogRun : Nat
  runs : List CommitRun
  stgBusy : List Nat
  /-- The safe presentation is shown (R281). -/
  safeShown : Bool
  /-- The retain step of the last restart has completed (R379). -/
  retainReady : Bool
  /-- Relay records: RING_RX entry and due cycles without acceptance; at more than OUT_HOLD the SAFE bytes show. -/
  relayMiss : SMap Nat
  /-- The output records, by the image offset of their header, whose ERROR an uncorrectable error has set, and whether ERROR also stands for a
  failed access (R261, R272). -/
  eccErr : List (Nat × Bool)
  deriving DecidableEq, Repr

/-- A legacy access that an engine performs. -/
structure Acc where
  origin : Origin
  place : Place
  queue : Nat
  pat : Nat
  patE : Nat
  off : Nat
  len : Nat
  write : Bool
  data : List Byte
  en : List Bool
  cont : Bool
  deriving DecidableEq, Repr

/-- A cycle or burst of a running access: first address, beats (0 single), bytes as (legacy address, window offset). -/
structure CycS where
  addr : Nat
  beats : Nat
  bytes : List (Nat × Nat)
  deriving DecidableEq, Repr

/-- The legacy master engine at work. -/
structure Eng where
  acc : Acc
  todo : List CycS
  beat : Nat
  /-- Bytes read so far, by window offset. -/
  got : List (Nat × Byte)
  retries : Nat
  /-- 2eVME address phases still to be acknowledged. -/
  phases : Nat
  /-- In the write phase of a read-modify-write (R444). -/
  rmwWrite : Bool
  /-- Waiting out RETRY_GAP (R172). -/
  gap : Bool
  /-- A strobe hold runs (R174). -/
  hold : Bool
  /-- The engine drives its pins; false while it waits for the bus (R162). -/
  driving : Bool
  deriving DecidableEq, Repr

/-- The pins of one segment that the device drives, at the end of the last command; true is asserted (low) for
strobes, and driven toward the bus for the groups. -/
structure Pins where
  as_ : Bool
  ds1 : Bool
  ds0 : Bool
  addr : Nat
  am : Nat
  lwordLow : Bool
  writeLow : Bool
  iackLow : Bool
  data : Nat
  groupA : Bool
  groupD : Bool
  groupC : Bool
  groupR : Bool
  dtack : Bool
  berr : Bool
  retry : Bool
  bclr : Bool
  bgOut : Nat
  deriving DecidableEq, Repr

/-- A delayed-read slot (R180). -/
structure DrSlot where
  win : Nat
  cyc : SlaveCyc
  id : Nat
  /-- The held result: failed, bytes. -/
  result : Option (Bool × List Byte)
  /-- The always-on tick at which the result arrived. -/
  heldAt : Nat
  deriving DecidableEq, Repr

/-- A slave write whose next beat waits for a cell (R177, R179): the cycle at that beat, the bytes not yet accepted, and whether beats of it
have been accepted before. -/
structure SlvWait where
  cyc : SlaveCyc
  data : List Byte
  begun : Bool
  deriving DecidableEq, Repr

/-- One legacy segment (chapter 6). -/
structure SegS where
  sysresetLow : Bool
  owner : Bool
  /-- SEG_CFG as it stood when the present tenure began (R157). -/
  mcfg : Word
  /-- The transfer in progress: one cycle or burst of an access. -/
  eng : Option Eng
  /-- The Loom time of a grant made during the last beat of a pipelined cycle (R170, R216). -/
  ahead : Option Nat
  /-- Accesses begun whose next transfer waits for a grant (R215) or for RETRY_GAP (R172). -/
  paused : List Eng
  sched : List Acc
  /-- The maintenance mailbox's access, while it waits for its first grant. -/
  mail : Option Acc
  /-- The places granted, the last first (R217); whether LSx_FWD is next in the remote place, a handler IACK in the voted one. -/
  grants : List Place
  fwdTurn : Bool
  iackTurn : Bool
  /-- A forwarded read the slave still waits for (2 µs not passed): its slot number; 4 when it found no cell. -/
  waitRead : Option Nat
  slvWait : Option SlvWait
  /-- SEG_CFG as it stood when the waiting slave access began (R157). -/
  slvCfg : Word
  dr : Vector (Option DrSlot) 4
  drNext : Nat
  /-- NEXT of each image window (R178). -/
  winNext : SMap Nat
  irqIn : Nat
  /-- The levels at which a software request is pending (R186). -/
  swPend : Nat
  hdlBusy : List Nat
  sysresetTimer : Bool
  gated : Bool
  stopWait : Bool
  noGate : Bool
  gaPins : Nat
  busLines : Nat
  busLast : Nat
  /-- The transfers that may be granted outside every window without fitting (R235): list, requester of the access, cycles still to come. -/
  waived : List (Nat × Origin × Nat)
  /-- The places whose request lost an arbitration and waits in the pending queue (R218). -/
  parked : List Place
  pins : Pins
  deriving DecidableEq, Repr

/-- A Weave set: the bytes of every section destination, at type × 2^20 + offset (type 0: header and directory),
the section lengths, and its check status (R243 to R246). -/
structure WSet where
  mem : SMap Byte
  len : SMap Nat
  hasHdr : Bool
  src : Nat
  modified : Bool
  check : CheckState
  rule : Nat
  index : Nat
  deriving DecidableEq, Repr

/-- The Loom (chapter 8). -/
structure Lom where
  act : WSet
  stby : WSet
  bank : Bool
  volatile : Bool
  run : Bool
  cycle : Word
  everRun : Bool
  /-- The entry dispatched most recently since the Loom started (R416). -/
  lastEntry : Option Nat
  /-- Entries of this Loom cycle dispatched, started, completed and skipped. -/
  dispatched : List Nat
  completed : List Nat
  skipped : List Nat
  armState : ArmState
  armReason : Nat
  armTarget : Word
  dropOk : Bool
  /-- A DISARM waits for the mark write in progress (R252). -/
  disarmWait : Bool
  /-- Announcements received for a Loom cycle: cycle, schedule ID (R253). -/
  announced : List (Word × Word)
  loading : Option (Option Nat)
  /-- Mark writes that wait for the end of brownout hold: active slot, target slot, cycle (R378). -/
  markDue : List (Nat × Nat × Nat)
  checking : Bool
  deriving DecidableEq, Repr

/-- One ring port (chapter 10). -/
structure RingPortS where
  signal : Bool
  codeSync : Bool
  lost : Bool
  foreign : Bool
  wrapped : Bool
  swapped : Bool
  hopValid : Bool
  hopDelay : Nat
  /-- The sums r + RAW of R327 in use for the mean, newest first, at most 256. -/
  hopResults : List Nat
  /-- The raw difference of the last neighbour's sync frame (R327). -/
  raw : Option Nat
  rawSent : Option Nat
  rejects : SMap Nat
  deriving DecidableEq, Repr

/-- A request sent to another node and not yet answered (R312, R313). -/
structure RemTx where
  tag : Nat
  dst : Nat
  patE : Nat
  pat : Nat
  origin : Origin
  cycle : Word
  left : Bool
  deriving DecidableEq, Repr

/-- A member of the last RESULT frame: UID, node number, delay of its primary input link. -/
structure Member where
  uid : DWord
  num : Nat
  delay : Nat
  deriving DecidableEq, Repr

/-- A frame whose payload a RING_TX entry has read (R228): the entry and the Loom cycle, and what the Weave of its dispatch says of the
slot. -/
structure TxFrame where
  entry : Nat
  cycle : Word
  slot : Nat
  rings : Nat
  carry : Bool
  crit : Bool
  maxLen : Nat
  data : List Byte
  deriving DecidableEq, Repr

/-- An open acceptance window (R228): its entry, the Loom cycle of its dispatch and the bits of the entry. -/
structure RxWin where
  entry : Nat
  cycle : Nat
  bits : Nat
  deriving DecidableEq, Repr

/-- The ring protocol (chapter 10). -/
structure Rng where
  port : Vector RingPortS 2
  node : NodeState
  num : Nat
  seam : Nat
  member : BitVec 64
  reversed : Bool
  /-- The wraps that nodes announce: WRAP_E of node n at 2n, WRAP_W at 2n + 1 (R309). -/
  wrapE : SMap Bool
  /-- The wraps whose offsets apply (R310). -/
  wrapNow : SMap Bool
  /-- Link delays in 0.25 ns, as nodes publish them: into the primary input of node n at 2n, into its primary output port
  at 2n + 1 (R295). -/
  delays : SMap Nat
  tepoch : BitVec 16
  ownEpoch : BitVec 16
  taken : Bool
  /-- Slots owned by another node than the slot table names: node taken over, holder, TEPOCH. -/
  takenOver : List (Nat × Nat × Nat)
  /-- A release that takes effect at a later Loom cycle: principal, cycle. -/
  releaseAt : List (Nat × Word)
  result : List Member
  /-- COLDSTART frames of its own seen in a row (R302). -/
  ownSeen : Nat
  head : Bool
  inaugTries : Nat
  /-- Loom cycles without an accepted sync frame, per node. -/
  miss : SMap Nat
  /-- Nodes whose sync frame was accepted in this Loom cycle, and their MEMBER_CRC. -/
  heard : List (Nat × Word)
  states : SMap Nat
  goodCycles : Nat
  everSynced : Bool
  c0 : Word
  rxMiss : SMap Nat
  windows : List RxWin
  remoteLost : List Nat
  rem : List RemTx
  nextTag : Nat
  /-- Command sub-blocks and responses waiting for an own slot. -/
  carry : List (List Byte)
  /-- Responses that wait for a cell of RNG_RSP_TX (Table 7.4). -/
  answers : List Pkt
  /-- Frames whose payload RING_TX entries have read, and that wait for their slot (R228). -/
  txBuf : List TxFrame
  /-- The sources of sub-blocks in the order of their last grants, the last first (R217). -/
  txGrants : List Nat
  unwrapAt : Option Word
  deriving DecidableEq, Repr

/-- Meridian (chapter 11). Device time: seconds in [95:64], fraction in units of 2^-64 s in [63:0] (R321). -/
structure Mer where
  time : BitVec 96
  /-- RATE, in units of 2^-40 of the nominal rate (Table 11.7). -/
  rate : Int
  /-- What a slew still has to apply, in units of 2^-64 s. -/
  slew : Int
  slewing : Bool
  synced : Bool
  /-- Whether each of the last 16 changes of RATE was below 0.125 ppm, newest first. -/
  rateHist : List Bool
  /-- SYNC_STAT.K. -/
  trimmed : Bool
  holdover : Bool
  n : Nat
  resyncs : BitVec 16
  offset : Int
  devMax : Nat
  lastInBound : Bool
  /-- A resync of this Loom cycle found the deviation out of bound. -/
  strayed : Bool
  /-- Readings of the current sync segment, in 2^-32 s. -/
  readings : SMap Int
  lastReadings : SMap Int
  trimmedNodes : List Nat
  /-- The nodes whose readings the last resync used (IN_SET). -/
  inSet : List Nat
  rawOk : List Nat
  points : List Nat
  spoiled : Bool
  deriving DecidableEq, Repr

/-- One occurrence of an event (R342): number, details of its log record, sub-cycle of the command, and the Loom cycle that a
record of it shows (Table 12.3). -/
structure Occ where
  ev : Nat
  d0 : Word
  d1 : Word
  cyc : Nat
  loom : Word
  /-- Device time as it occurs. -/
  time : DWord
  /-- Route and EVENT_EN bit in effect, where the command changes them after (Table 12.5). -/
  pin : Option (Nat × Bool)
  /-- The sampling counters have seen it (R414). -/
  sampled : Bool
  deriving DecidableEq, Repr

/-- The event hub and the counters (chapters 12 and 15). -/
structure Evh where
  /-- EVENT of each page: SEQ and bits. -/
  event : SMap Word
  cnt : SMap Nat
  sc : SMap Nat
  scOvf : Word
  ecOvf : SMap Word
  ovfRec : SMap Word
  held : SMap Nat
  /-- Pending events at interrupter levels: segment, level, event. -/
  levels : List (Nat × Nat × Nat)
  routes : SMap Word
  lost : Nat
  lostNext : Nat
  scanning : Bool
  /-- LOG_WR and LOG_RD (R348, R351). -/
  logWr : Word
  logRd : Word
  capTime : DWord
  capOvr : Bool
  capUnread : Bool
  occ : List Occ
  sub : Nat
  memErr : SMap Word
  /-- Replication bases: words 2n and 2n + 1 for CPn (Table 12.10). -/
  replBase : SMap Word
  deriving DecidableEq, Repr

/-- The access a maintenance frame started (R54, R55): write, guarded, space, offset, data. -/
structure MntAcc where
  write : Bool
  guarded : Bool
  space : Bool
  offset : Nat
  data : Word
  deriving DecidableEq, Repr

/-- The maintenance port (R52 to R58). -/
structure Mnt where
  acc : Option MntAcc
  /-- Result of the last access: valid, refused, written, echo, data. -/
  valid : Bool
  accErr : Bool
  written : Bool
  echo : Nat
  data : Word
  crcErr : Bool
  abort : Bool
  /-- The mailbox's access, while it waits for its cells (R6, R164). -/
  leg : Option Pkt
  /-- The mailbox access ended: failed, CODE, bytes (R58). -/
  legEnd : Option (Bool × Nat × List Byte)
  legRun : Bool
  legRead : Bool
  deriving DecidableEq, Repr

/-- Power, clocks, reset and supply supervision (chapter 13). -/
structure Pwr where
  st : PowerState
  boot : BootPhase
  transit : Bool
  awake : Bool
  causes : List Nat
  lastReset : Nat
  straps : Nat
  spare : Port
  aonOk : Bool
  sysLock : Bool
  serdesLock : Bool
  brownout : Bool
  pfwWarn : Bool
  vddioWarn : Bool
  recovering : Bool
  pfwLow : Bool
  vddioLow : Bool
  vddsaOk : Bool
  vddshOk : Bool
  saveRun : Bool
  saveDue : Bool
  almGated : Bool
  almStopWait : Bool
  /-- A PCMD transition has left RUN and has not ended (Table 13.7). -/
  fromRun : Bool
  /-- The reset sequence of Table 13.10 has not ended: device time stands at 0 (R321). -/
  seqRun : Bool
  /-- WAKE_STAT.LAST and its sticky bits (Table 13.15). -/
  wakeLast : Nat
  wakeBits : Nat
  /-- Cycles of the always-on clock counted by the idle steps, 40 ns each (DESIGN CHOICE, log entry 2). -/
  ticks : Nat
  deriving DecidableEq, Repr

/-- A running life-cycle transition (R389): operation, target, and whether a fuse is being programmed. -/
structure LcTrans where
  op : Nat
  target : LifeState
  fuse : Bool
  deriving DecidableEq, Repr

/-- Life-cycle, presence, seal and fuses (chapter 14). -/
structure Lcc where
  st : LifeState
  recErr : Bool
  refuse : Nat
  trans : Option LcTrans
  presence : Bool
  timedOut : Bool
  presPin : Bool
  armed : Bool
  broken : Bool
  noTime : Bool
  loopBad : Bool
  failSeen : Bool
  failRun : Nat
  lfsr : BitVec 16
  breakTime : DWord
  firstFail : DWord
  breakCount : Word
  /-- A break whose record is not yet written (R393). -/
  sealDue : Bool
  uid : DWord
  uidLock : Bool
  commissioned : Bool
  retired : Bool
  ssid : BitVec 16
  ssvid : BitVec 16
  wiping : Bool
  wipeBlocks : Nat
  deriving DecidableEq, Repr

/-- A running Almanac operation of Table 14.7. -/
structure AlmOp where
  op : Nat
  slot : Nat
  len : Nat
  req : Nat
  words : Nat
  lowWord : Option Word
  /-- SEQ of the trailer a WRITE_WEAVE will write (R400, R401). -/
  seq : Word
  deriving DecidableEq, Repr

/-- The Almanac (chapter 14). -/
structure Alm where
  mem : SMap Byte
  ready : Bool
  op : Option AlmOp
  statOp : Nat
  statResult : Nat
  statWords : Nat
  /-- The retain slot a running retain save writes, and its SEQ. -/
  saveSlot : Option (Nat × Word)
  /-- The save was asked for by SAVE_RETAIN. -/
  saveByOp : Bool
  /-- Weave slots whose content CRC has failed (R400). -/
  badSlots : List Nat
  /-- 64-bit words of the Almanac in error; true is uncorrectable (R396, R404). -/
  ecc : SMap Bool
  deriving DecidableEq, Repr

/-- The test access port and the boundary scan (R421 to R423). -/
structure Tap where
  tlr : Bool
  ir : BitVec 6
  taken : Bool
  scrubMem : Nat
  /-- The 812 cells of the boundary register (R421); no command of the table shifts or updates them. -/
  boundary : BitVec 812
  /-- Words in error: memory × 2^24 + word; true is uncorrectable. -/
  ecc : SMap Bool
  deriving DecidableEq, Repr

/-- The whole block. -/
structure State where
  /-- The commands that wait, first in, first out. -/
  pending : List Instr
  /-- What left the device during the last step. -/
  out : List Out
  /-- Every register without another home, at its BAR0 address. -/
  regs : SMap Word
  bus : Bus
  ch : Vector Chan 4
  port : Vector PortS 4
  tx : Vector TxQ 4
  msix : Vector MsixS 4
  vot : Vot
  img : Img
  frc : Frc
  seg : Vector SegS 2
  crl : Creel
  lom : Lom
  rng : Rng
  mer : Mer
  evh : Evh
  mnt : Mnt
  pwr : Pwr
  lcc : Lcc
  alm : Alm
  tap : Tap
  /-- The model's own counter of free values taken (DESIGN CHOICE, log entry 12). -/
  freeCount : Nat
  deriving DecidableEq, Repr

/-! The machine right after reset -/

/-- A requester's register-file state at reset. -/
def reqInit : ReqS :=
  { indAddr := [], guards := [], guardStat := [], hiLatch := [], loHeld := [], qSel := 0, routeSel := 0 }

/-- The register file around the registers at reset. -/
def busInit : Bus :=
  { req := Vector.replicate 5 reqInit, shadow := [], voted := Vector.replicate 4 [], recent := [] }

/-- A channel at reset: ABSENT, EPOCH 0, no APSEQ, unaligned (Tables 4.12, 4.13 and 4.17). -/
def chanInit : Chan :=
  { st := .absent, epoch := 0, k := 0, aligned := false, matchCnt := 0, divergent := false, charges := [], caStamp := none, opsSince := 0,
    copyOf := none, cmpOf := none }

/-- A channel port at reset: its link down, answering with Configuration Request Retry Status (R117, R374). -/
def portInit : PortS :=
  { perst := false, hotReset := false, dlUp := false, speed := 0, width := 0, l1 := false, l23 := false, crs := true,
    phyLock := false, cfg := [], np := [], rx := [], bar := [], flush := [], push := none, pushWaiting := [], pseq := 0 }

/-- The transmit side of a port at reset. -/
def txInit : TxQ := { credits := some (0, 0), waiting := [] }

/-- MSI-X of a port at reset. -/
def msixInit : MsixS := { table := [], pba := [], outstanding := [], lastFenced := none }

/-- The vote unit at reset: HALT, admission running (R123, R128). -/
def votInit : Vot :=
  { mode := .halt, oneCh := 0, admitOn := true, openE := [], closedE := [], waiting := [], kEvict := none, last := none,
    attempts := [] }

/-- The process image and the controller at reset: the restart that the reset sequence ends with is under way
(Table 13.10, R284). -/
def imgInit : Img :=
  { mem := [], build := [], slot := [], ctl := .waiting, restarting := true, restartCold := false, lastCold := false,
    fallback := false, stopCause := 0, frozen := 0, committed := 0, freezeCycle := 0, freezeTime := 0, frozenRecs := [], heldFreeze := [],
    wdogRun := 0, runs := [], stgBusy := [], safeShown := true, retainReady := false,
    relayMiss := [], eccErr := [] }

/-- No pin driven. -/
def pinsInit : Pins :=
  { as_ := false, ds1 := false, ds0 := false, addr := 0, am := 0, lwordLow := false, writeLow := false, iackLow := false,
    data := 0, groupA := false, groupD := false, groupC := false, groupR := false, dtack := false, berr := false,
    retry := false, bclr := false, bgOut := 0 }

/-- A legacy segment at reset. -/
def segInit : SegS :=
  { sysresetLow := false, owner := false, mcfg := 0, eng := none, ahead := none, paused := [], sched := [], mail := none, grants := [],
    fwdTurn := false, iackTurn := false, waitRead := none, slvWait := none, slvCfg := 0, dr := Vector.replicate 4 none, drNext := 0,
    winNext := [], irqIn := 0, swPend := 0, hdlBusy := [], sysresetTimer := false,
    gated := false, stopWait := false, noGate := false, gaPins := 0x3E, busLines := 0, busLast := 0,
    waived := [], parked := [], pins := pinsInit }

/-- The Creel at reset: every cell on the free list (R375). -/
def creelInit : Creel :=
  { q := [], cell := [], fresh := 0, free := [], lostCells := [], lostPkts := [], resets := [], nextCells := [], nextPkts := [], nextResets := [], sweep := false, sweepPending := false, sweepQueue := 0,
    sweepReleased := 0, uncovered := 0, ptrErr := 0, lastPop := 0, popped := 0, prioSched := 0x00077677#32,
    prioShadow := 0x00077677#32 }

/-- A set that holds nothing. -/
def wsetInit : WSet :=
  { mem := [], len := [], hasHdr := false, src := 0, modified := false, check := .none, rule := 0, index := 0 }

/-- The Loom at reset: stopped, no Weave. -/
def lomInit : Lom :=
  { act := wsetInit, stby := wsetInit, bank := false, volatile := false, run := false, cycle := 0, everRun := false,
    lastEntry := none, dispatched := [], completed := [], skipped := [], armState := .idle, armReason := 0, armTarget := 0,
    dropOk := false, disarmWait := false, announced := [], loading := none, markDue := [], checking := false }

/-- A ring port at reset. -/
def ringPortInit : RingPortS :=
  { signal := false, codeSync := false, lost := true, foreign := false, wrapped := false, swapped := false,
    hopValid := false, hopDelay := 0, hopResults := [], raw := none, rawSent := none, rejects := [] }

/-- The ring protocol at reset: node state LISTEN, no number, no member (Table 10.5). -/
def rngInit : Rng :=
  { port := Vector.replicate 2 ringPortInit, node := .listen, num := 0, seam := 0, member := 0, reversed := false,
    wrapE := [], wrapNow := [], delays := [], tepoch := 0, ownEpoch := 0, taken := false, takenOver := [], releaseAt := [], result := [], ownSeen := 0,
    head := false, inaugTries := 0, miss := [], heard := [], states := [], goodCycles := 0, everSynced := false, c0 := 0,
    rxMiss := [], windows := [], remoteLost := [], rem := [], nextTag := 0, carry := [], answers := [], txBuf := [], txGrants := [],
    unwrapAt := none }

/-- Meridian at reset: device time 0, in holdover (R338). -/
def merInit : Mer :=
  { time := 0, rate := 0, slew := 0, slewing := false, synced := false, rateHist := [], trimmed := false, holdover := true,
    n := 0, resyncs := 0, offset := 0, devMax := 0, lastInBound := false, strayed := false, readings := [], lastReadings := [],
    trimmedNodes := [], inSet := [], rawOk := [], points := [], spoiled := false }

/-- The event hub at reset; the log scan has not ended (R351). -/
def evhInit : Evh :=
  { event := [], cnt := [], sc := [], scOvf := 0, ecOvf := [], ovfRec := [], held := [], levels := [], routes := [],
    lost := 0, lostNext := 0, scanning := true, logWr := 0, logRd := 0, capTime := 0, capOvr := false, capUnread := false,
    occ := [], sub := 0, memErr := [], replBase := [] }

/-- The maintenance port at reset. -/
def mntInit : Mnt :=
  { acc := none, valid := false, accErr := false, written := false, echo := 0, data := 0, crcErr := false, abort := false, leg := none,
    legEnd := none, legRun := false, legRead := false }

/-- Power, clocks and supplies at the release of a power-on reset (R371, Table 13.10). -/
def pwrInit : Pwr :=
  { st := .reset, boot := .released, transit := false, awake := false, causes := [], lastReset := 0, straps := 0, spare := 0,
    aonOk := true, sysLock := true, serdesLock := false, brownout := false, pfwWarn := false, vddioWarn := false,
    recovering := false, pfwLow := false, vddioLow := false, vddsaOk := true, vddshOk := true, saveRun := false,
    saveDue := false, almGated := false, almStopWait := false, fromRun := false, seqRun := true, wakeLast := 0, wakeBits := 0, ticks := 0 }

/-- Life-cycle, presence and seal at reset: no fuse but the UID lock is blown (DESIGN CHOICE, log entry 5). -/
def lccInit : Lcc :=
  { st := .blank, recErr := false, refuse := 0, trans := none, presence := false, timedOut := false, presPin := false,
    armed := false, broken := false, noTime := false, loopBad := false, failSeen := false, failRun := 0, lfsr := 1,
    breakTime := 0, firstFail := 0, breakCount := 0, sealDue := false, uid := 1, uidLock := true, commissioned := false,
    retired := false, ssid := 0, ssvid := 0, wiping := false, wipeBlocks := 0 }

/-- The Almanac of a blank device, not yet read. -/
def almInit : Alm :=
  { mem := [], ready := false, op := none, statOp := 0, statResult := 0, statWords := 0, saveSlot := none,
    saveByOp := false, badSlots := [], ecc := [] }

/-- The test access port at reset: Test-Logic-Reset, instruction IDCODE (R421). -/
def tapInit : Tap := { tlr := true, ir := 0x01, taken := false, scrubMem := 0, boundary := 0, ecc := [] }

/-- The machine at the release of a power-on reset (t0 of Table 13.10), as the spec says; the DESIGN CHOICE log entries 5 and 6 name the
values the spec does not state. -/
def State.reset : State :=
  { pending := [], out := [], regs := [], bus := busInit, ch := Vector.replicate 4 chanInit,
    port := Vector.replicate 4 portInit, tx := Vector.replicate 4 txInit, msix := Vector.replicate 4 msixInit,
    vot := votInit, img := imgInit, frc := ⟨[], []⟩, seg := Vector.replicate 2 segInit, crl := creelInit, lom := lomInit,
    rng := rngInit, mer := merInit, evh := evhInit, mnt := mntInit, pwr := pwrInit, lcc := lccInit, alm := almInit,
    tap := tapInit, freeCount := 0 }

end Sys2Proof.Machine
end

