-- ==== Sys2Proof/Machine/RegMap.lean ====
section
/-!
DEFINITION. The register map: the pages of Table 2.14, the registers of Table 2.23 and their fields, class by class
(Table 2.11), with the reset values of the field tables of every chapter.
-/

namespace Sys2Proof.Machine

open Sys2Proof

/-- The base classes of Table 2.11. -/
inductive Cls where
  | rw | ro | rwc | rws | ptr | cnt | ev | wo | w1
  deriving DecidableEq, Repr

/-- A field of a register: bits, base class, modifiers SH, G and V, whether only the maintenance port may write it,
and whether it is computed from other state instead of stored. -/
structure Field where
  hi : Nat
  lo : Nat
  cls : Cls
  sh : Bool
  g : Bool
  v : Bool
  mnt : Bool
  home : Bool
  deriving DecidableEq, Repr

/-- A field with the modifiers SH, G and V, writable by the maintenance port alone, or computed. -/
def fdOf (sh g v mnt home : Bool) (hi lo : Nat) (c : Cls) : Field := ⟨hi, lo, c, sh, g, v, mnt, home⟩
/-- A stored field without modifier. -/
def fd := fdOf false false false false false
/-- A computed field. -/
def fdH := fdOf false false false false true
/-- A stored SH field. -/
def fdS := fdOf true false false false false
/-- A computed SH field. -/
def fdSH := fdOf true false false false true
/-- A stored SH, G field. -/
def fdSG := fdOf true true false false false
/-- A stored G field. -/
def fdG := fdOf false true false false false
/-- A stored V field. -/
def fdV := fdOf false false true false false
/-- A stored G, V field. -/
def fdGV := fdOf false true true false false
/-- A computed field that only the maintenance port writes. -/
def fdMH := fdOf false false false true true

/-- A register: offset in its page, reset value of its stored fields, fields. -/
structure RegRow where
  off : Nat
  reset : Nat
  fields : List Field
  deriving DecidableEq, Repr

/-- Registers of the HDR page header (Tables 2.1 to 2.10): offset, reset value of the stored fields, fields. -/
def tabHdr : List RegRow :=
  [
   -- ID
   ⟨0x000, 0x0, [fdH 31 24 .ro, fdH 23 16 .ro, fdH 15 8 .ro, fdH 7 0 .ro]⟩,
   -- STATUS
   ⟨0x008, 0x0, [fd 31 31 .rws, fd 30 30 .rws]⟩,
   -- EVENT
   ⟨0x00C, 0x0, [fdH 31 24 .ro, fdH 23 0 .ev]⟩,
   -- EVENT_ACK
   ⟨0x010, 0x0, [fd 31 24 .wo, fd 23 0 .wo]⟩,
   -- EVENT_EN
   ⟨0x014, 0x0, [fd 23 0 .rw]⟩,
   -- LOCK
   ⟨0x018, 0x0, [fd 0 0 .w1]⟩,
   -- UPD_GRP
   ⟨0x01C, 0x0, [fdH 3 3 .ro, fd 2 0 .rw]⟩,
   -- IND_ADDR
   ⟨0x020, 0x0, [fdH 31 31 .rw, fdH 27 24 .rw, fdH 23 0 .ptr]⟩,
   -- IND_DATA
   ⟨0x024, 0x0, [fdH 31 0 .rw]⟩,
   -- GUARD
   ⟨0x028, 0x0, [fd 31 0 .wo]⟩,
   -- GUARD_STAT
   ⟨0x02C, 0x0, [fdH 15 4 .ro, fdH 3 2 .ro, fdH 1 1 .rws, fdH 0 0 .ro]⟩,
   -- ERRLOG0
   ⟨0x030, 0x0, [fd 31 31 .rws, fd 30 30 .rws, fd 29 26 .ro, fd 25 23 .ro, fd 19 12 .ro, fd 11 0 .ro]⟩
  ] ++
  [
   -- ERRLOG1
   ⟨0x034, 0x0, [fd 31 0 .ro]⟩,
   -- CNT_BASE
   ⟨0x038, 0x0, [fdH 12 8 .ro, fdH 7 0 .ro]⟩,
   -- SCRATCH
   ⟨0x03C, 0x0, [fd 31 0 .rw]⟩
  ]

/-- Registers of the GLB page: offset, reset value of the stored fields, fields. -/
def tabGlb : List RegRow :=
  [
   -- DEV_ID
   ⟨0x040, 0x48101F9B, [fd 31 16 .ro, fd 15 0 .ro]⟩,
   -- REV
   ⟨0x044, 0x1A1, [fd 15 8 .ro, fd 7 0 .ro]⟩,
   -- UID_LO
   ⟨0x048, 0x0, [fdH 31 0 .ro]⟩,
   -- UID_HI
   ⟨0x04C, 0x0, [fdH 31 0 .ro]⟩,
   -- SUBSYS
   ⟨0x050, 0x0, [fdH 31 16 .ro, fdH 15 0 .ro]⟩,
   -- STRAPS
   ⟨0x054, 0x0, [fdH 15 0 .ro]⟩,
   -- REQ_ID
   ⟨0x058, 0x0, [fdH 2 0 .ro]⟩,
   -- UPDATE
   ⟨0x060, 0x0, [fd 7 1 .wo]⟩,
   -- UPD_STAT
   ⟨0x064, 0x0, [fd 7 7 .ro]⟩,
   -- SNAP
   ⟨0x068, 0x0, [fd 1 1 .wo, fd 0 0 .wo]⟩,
   -- SNAP_SEQ
   ⟨0x06C, 0x0, [fd 31 0 .ro]⟩,
   -- SNAP_TIME_LO
   ⟨0x070, 0x0, [fd 31 0 .ro]⟩
  ] ++
  [
   -- SNAP_TIME_HI
   ⟨0x074, 0x0, [fd 31 0 .ro]⟩,
   -- UNASG_CNT
   ⟨0x078, 0x0, [fd 31 0 .cnt]⟩
  ]

/-- Registers of the PWR page: offset, reset value of the stored fields, fields. -/
def tabPwr : List RegRow :=
  [
   -- PSTATE
   ⟨0x040, 0x0, [fdH 8 8 .ro, fdH 4 4 .ro, fdH 1 0 .ro]⟩,
   -- PCMD
   ⟨0x044, 0x0, [fdGV 2 0 .wo]⟩,
   -- WAKE_STAT
   ⟨0x048, 0x0, [fdH 18 16 .ro, fdH 6 6 .rws, fdH 5 5 .rws, fdH 4 4 .rws, fdH 3 0 .rws]⟩,
   -- GATE_STAT
   ⟨0x04C, 0x0, [fdH 15 0 .ro]⟩,
   -- RESTART_SEL
   ⟨0x050, 0x0, [fdGV 1 0 .rw]⟩
  ]

/-- Registers of the LCC page: offset, reset value of the stored fields, fields. -/
def tabLcc : List RegRow :=
  [
   -- LC_STATE
   ⟨0x040, 0x0, [fdH 15 12 .ro, fdH 5 5 .ro, fdH 4 4 .ro, fdH 2 0 .ro]⟩,
   -- LC_CMD
   ⟨0x044, 0x0, [fdG 31 16 .wo, fdG 3 0 .wo]⟩,
   -- PRES_STAT
   ⟨0x048, 0x0, [fdH 2 2 .ro, fdH 1 1 .ro, fdH 0 0 .ro]⟩,
   -- SEAL_STAT
   ⟨0x04C, 0x0, [fdH 11 8 .ro, fdH 4 4 .ro, fdH 3 3 .rws, fdH 2 2 .ro, fdH 1 1 .ro, fdH 0 0 .ro]⟩,
   -- FUSE_STAT
   ⟨0x050, 0x0, [fdH 4 4 .ro, fdH 3 3 .ro, fdH 2 2 .ro, fdH 1 1 .ro]⟩,
   -- WIPE_STAT
   ⟨0x054, 0x0, [fdH 31 31 .ro, fdH 30 30 .ro, fdH 10 0 .ro]⟩
  ]

/-- Registers of the SUP page: offset, reset value of the stored fields, fields. -/
def tabSup : List RegRow :=
  [
   -- SUP_STAT
   ⟨0x040, 0x0, [fdH 27 24 .ro, fdH 4 4 .ro, fdH 3 3 .ro, fdH 2 2 .ro, fdH 1 1 .ro, fdH 0 0 .ro]⟩,
   -- PFW_RECOVER
   ⟨0x044, 0x4, [fd 5 0 .rw]⟩,
   -- BROWNOUT_CNT
   ⟨0x048, 0x0, [fd 31 0 .cnt]⟩,
   -- LAST_WARN_LO
   ⟨0x050, 0x0, [fd 31 0 .ro]⟩,
   -- LAST_WARN_HI
   ⟨0x054, 0x0, [fd 31 0 .ro]⟩,
   -- VMON
   ⟨0x058, 0x0, [fdH 3 3 .ro, fdH 2 2 .ro, fdH 1 1 .ro, fdH 0 0 .ro]⟩
  ]

/-- Registers of the CLK page: offset, reset value of the stored fields, fields. -/
def tabClk : List RegRow :=
  [
   -- PLL_STAT
   ⟨0x040, 0x0, [fdH 8 8 .ro, fdH 5 2 .ro, fdH 1 1 .ro, fdH 0 0 .ro]⟩,
   -- DOM_STAT
   ⟨0x044, 0x0, [fdH 13 0 .ro]⟩,
   -- XOVR
   ⟨0x048, 0x0, [fd 14 0 .rws]⟩,
   -- XTO
   ⟨0x04C, 0x0, [fd 14 0 .rws]⟩,
   -- GATE_CTRL
   ⟨0x050, 0x0, [fdS 3 3 .rw, fdS 2 2 .rw, fdS 1 1 .rw, fdS 0 0 .rw]⟩
  ]

/-- Registers of the CP page: offset, reset value of the stored fields, fields. -/
def tabCp : List RegRow :=
  [
   -- CTRL
   ⟨0x004, 0x1, [fd 0 0 .rw]⟩,
   -- STATUS
   ⟨0x008, 0x0, [fdH 2 2 .ro, fdH 1 1 .ro, fdH 0 0 .ro]⟩,
   -- STATE
   ⟨0x040, 0x0, [fdH 3 3 .ro, fdH 2 0 .ro]⟩,
   -- EPOCH
   ⟨0x044, 0x0, [fdH 15 0 .ro]⟩,
   -- LINK_STAT
   ⟨0x048, 0x0, [fdH 19 19 .ro, fdH 18 18 .ro, fdH 17 16 .ro, fdH 14 13 .ro, fdH 12 12 .ro, fdH 9 4 .ro, fdH 3 0 .ro]⟩,
   -- PUSH_BASE_LO
   ⟨0x050, 0x0, [fd 31 12 .rw]⟩,
   -- PUSH_BASE_HI
   ⟨0x054, 0x0, [fd 31 0 .rw]⟩,
   -- PUSH_CTRL
   ⟨0x058, 0x180, [fd 31 31 .rw, fd 8 0 .rw]⟩,
   -- PUSH_STAT
   ⟨0x05C, 0x0, [fd 31 0 .ro]⟩,
   -- APSEQ
   ⟨0x060, 0x0, [fdH 31 0 .ro]⟩,
   -- CREDIT_STAT
   ⟨0x064, 0x0, [fdH 31 20 .ro, fdH 16 8 .ro, fdH 7 0 .ro]⟩,
   -- ERR_STAT
   ⟨0x068, 0x0, [fd 14 14 .rws, fd 13 13 .rws, fd 12 12 .rws, fd 11 11 .rws, fd 10 10 .rws, fd 9 9 .rws, fd 8 8 .rws, fd 7 7 .rws, fd 6 6 .rws, fd 5 5 .rws, fd 4 4 .rws, fd 3 3 .rws, fd 0 0 .rws]⟩
  ] ++
  [
   -- REJOIN
   ⟨0x06C, 0x0, [fdG 0 0 .wo]⟩
  ]

/-- Registers of the VOT page: offset, reset value of the stored fields, fields. -/
def tabVot : List RegRow :=
  [
   -- STATUS
   ⟨0x008, 0x0, [fdH 10 10 .ro, fdH 9 0 .ro]⟩,
   -- MODE
   ⟨0x040, 0x0, [fdH 9 8 .ro, fdH 5 4 .ro, fdH 1 0 .ro]⟩,
   -- MODE_CMD
   ⟨0x044, 0x0, [fdGV 5 4 .wo, fdGV 1 0 .wo]⟩,
   -- VWIN
   ⟨0x048, 0xC8, [fdV 13 0 .rw]⟩,
   -- CWIN
   ⟨0x04C, 0x7D0, [fdV 19 0 .rw]⟩,
   -- DIVERGE_LIMIT
   ⟨0x050, 0x3, [fdV 3 0 .rw]⟩,
   -- DIVERGE_SPAN
   ⟨0x054, 0x3E8, [fdV 15 0 .rw]⟩,
   -- SPARE_CFG
   ⟨0x058, 0x1, [fdGV 5 4 .rw, fdGV 0 0 .rw]⟩,
   -- CH_STATE
   ⟨0x05C, 0x0, [fdH 31 0 .ro]⟩,
   -- FENCE_CMD
   ⟨0x060, 0x0, [fdGV 8 8 .wo, fdGV 1 0 .wo]⟩,
   -- DIV_CNT0
   ⟨0x064, 0x0, [fd 31 0 .cnt]⟩,
   -- DIV_CNT1
   ⟨0x068, 0x0, [fd 31 0 .cnt]⟩
  ] ++
  [
   -- DIV_CNT2
   ⟨0x06C, 0x0, [fd 31 0 .cnt]⟩,
   -- DIV_CNT3
   ⟨0x070, 0x0, [fd 31 0 .cnt]⟩,
   -- STALE_DROP_CNT
   ⟨0x074, 0x0, [fd 31 0 .cnt]⟩
  ]

/-- Registers of the FRC page: offset, reset value of the stored fields, fields. -/
def tabFrc : List RegRow :=
  [
   -- FRC_CMD
   ⟨0x040, 0x0, [fdG 27 16 .wo, fdG 1 0 .wo]⟩,
   -- FRC_STAT
   ⟨0x044, 0x0, [fd 27 16 .ro, fd 3 0 .ro]⟩,
   -- FRC_COUNT
   ⟨0x048, 0x0, [fdH 12 0 .ro]⟩,
   -- DROP_STAT
   ⟨0x04C, 0x0, [fd 12 0 .ro]⟩
  ]

/-- Registers of the LS page: offset, reset value of the stored fields, fields. -/
def tabLs : List RegRow :=
  [
   -- CTRL
   ⟨0x004, 0x0, [fd 7 1 .rwc]⟩,
   -- STATUS
   ⟨0x008, 0x0, [fdH 7 5 .ro, fdH 4 4 .ro, fdH 3 3 .ro, fdH 2 2 .ro, fdH 1 1 .ro, fdH 0 0 .ro]⟩,
   -- SEG_CFG
   ⟨0x040, 0x1F6, [fdSG 8 8 .rw, fdSG 7 6 .rw, fdSG 5 5 .rw, fdSG 4 4 .rw, fdSG 3 3 .rw, fdSG 2 2 .rw, fdSG 1 1 .rw, fdSG 0 0 .rw]⟩,
   -- SYSCON
   ⟨0x044, 0x16, [fdSG 4 4 .rw, fdSG 3 3 .rw, fdSG 2 2 .rw, fdSG 1 1 .rw, fdSG 0 0 .rw]⟩,
   -- BUS_TIMER
   ⟨0x048, 0x3, [fdS 2 0 .rw]⟩,
   -- HOLD_LIMIT
   ⟨0x04C, 0x8, [fdS 9 0 .rw]⟩,
   -- GA
   ⟨0x054, 0x0, [fdH 6 6 .ro, fdH 5 5 .ro, fdH 4 0 .ro]⟩,
   -- BERR_CNT
   ⟨0x058, 0x0, [fd 31 0 .cnt]⟩,
   -- RETRY_CNT
   ⟨0x05C, 0x0, [fd 31 0 .cnt]⟩,
   -- TRUNC_CNT
   ⟨0x060, 0x0, [fd 31 0 .cnt]⟩,
   -- IRQ_STAT
   ⟨0x064, 0x0, [fdH 24 24 .ro, fdH 23 17 .ro, fdH 15 9 .ro, fdH 7 1 .ro]⟩,
   -- IRQ_GEN
   ⟨0x068, 0x0, [fd 31 31 .rw, fd 18 16 .rw, fd 7 0 .rw]⟩
  ] ++
  [
   -- GATE_STAT
   ⟨0x06C, 0x0, [fdH 3 3 .ro, fdH 2 2 .ro, fdH 1 1 .ro, fdH 0 0 .ro]⟩
  ]

/-- Registers of the CRL page: offset, reset value of the stored fields, fields. -/
def tabCrl : List RegRow :=
  [
   -- CTRL
   ⟨0x004, 0x0, [fd 0 0 .rw]⟩,
   -- STATUS
   ⟨0x008, 0x0, [fdH 1 1 .ro, fdH 0 0 .ro]⟩,
   -- FREE_CNT
   ⟨0x040, 0x0, [fdH 30 16 .ro, fdH 14 0 .ro]⟩,
   -- Q_SEL
   ⟨0x044, 0x0, [fdH 5 0 .rw]⟩,
   -- Q_STAT
   ⟨0x048, 0x0, [fdH 31 31 .rws, fdH 30 30 .ro, fdH 29 15 .ro, fdH 14 0 .ro]⟩,
   -- Q_RESV
   ⟨0x04C, 0x0, [fdSH 14 0 .rw]⟩,
   -- Q_LIMIT
   ⟨0x050, 0x0, [fdSH 14 0 .rw]⟩,
   -- Q_THRESH
   ⟨0x054, 0x0, [fdSH 6 0 .rw]⟩,
   -- Q_POP
   ⟨0x058, 0x0, [fdH 31 0 .ro]⟩,
   -- Q_CMD
   ⟨0x05C, 0x0, [fd 8 8 .wo, fd 5 0 .wo]⟩,
   -- RECLAIM_STAT
   ⟨0x060, 0x0, [fdH 31 31 .ro, fdH 30 30 .ro, fdH 29 24 .ro, fdH 14 0 .ro]⟩,
   -- PTR_ERR_CNT
   ⟨0x064, 0x0, [fdH 31 0 .cnt]⟩
  ]

/-- Registers of the ARB page: offset, reset value of the stored fields, fields. -/
def tabArb : List RegRow :=
  [
   -- STATUS
   ⟨0x008, 0x0, [fdH 0 0 .ro]⟩,
   -- PRIO_LSA
   ⟨0x040, 0x245, [fd 2 0 .rw, fd 6 4 .rw, fd 10 8 .rw]⟩,
   -- PRIO_LSB
   ⟨0x044, 0x245, [fd 2 0 .rw, fd 6 4 .rw, fd 10 8 .rw]⟩,
   -- PRIO_CRL_W
   ⟨0x048, 0x2654, [fd 2 0 .rw, fd 6 4 .rw, fd 10 8 .rw, fd 14 12 .rw]⟩,
   -- PRIO_CRL_R
   ⟨0x04C, 0x26545, [fd 2 0 .rw, fd 6 4 .rw, fd 10 8 .rw, fd 14 12 .rw, fd 18 16 .rw]⟩,
   -- PRIO_IMG
   ⟨0x050, 0x354, [fd 2 0 .rw, fd 6 4 .rw, fd 10 8 .rw]⟩,
   -- PRIO_RTX
   ⟨0x054, 0x6254, [fd 2 0 .rw, fd 6 4 .rw, fd 10 8 .rw, fd 14 12 .rw]⟩,
   -- PRIO_SCHED
   ⟨0x058, 0x0, [fdSH 2 0 .rw, fdSH 6 4 .rw, fdSH 10 8 .rw, fdSH 14 12 .rw, fdSH 18 16 .rw]⟩,
   -- COMMIT
   ⟨0x05C, 0x0, [fdG 0 0 .wo]⟩,
   -- PEND_STAT
   ⟨0x060, 0x0, [fdH 29 25 .ro, fdH 24 20 .ro, fdH 19 15 .ro, fdH 14 10 .ro, fdH 9 5 .ro, fdH 4 0 .ro]⟩
  ]

/-- Registers of the LOM page: offset, reset value of the stored fields, fields. -/
def tabLom : List RegRow :=
  [
   -- CTRL
   ⟨0x004, 0x0, [fd 0 0 .wo]⟩,
   -- STATUS
   ⟨0x008, 0x0, [fdH 1 1 .ro, fdH 0 0 .ro]⟩,
   -- LOM_STAT
   ⟨0x040, 0x0, [fdH 8 8 .ro, fdH 7 6 .ro, fdH 5 4 .ro, fdH 3 3 .ro, fdH 2 2 .ro, fdH 1 1 .ro, fdH 0 0 .ro]⟩,
   -- CYCLE
   ⟨0x044, 0x0, [fdH 31 0 .ro]⟩,
   -- SCHED_ID_ACT
   ⟨0x048, 0x0, [fdH 31 0 .ro]⟩,
   -- SCHED_ID_STBY
   ⟨0x04C, 0x0, [fdH 31 0 .ro]⟩,
   -- ARM
   ⟨0x050, 0x0, [fdGV 4 4 .wo, fdGV 1 0 .wo]⟩,
   -- ARM_CYCLE
   ⟨0x054, 0x0, [fdV 31 0 .rw]⟩,
   -- ARM_STAT
   ⟨0x058, 0x0, [fdH 11 8 .ro, fdH 2 0 .ro]⟩,
   -- CHECK_CMD
   ⟨0x05C, 0x0, [fd 0 0 .wo]⟩,
   -- CHECK_STAT
   ⟨0x060, 0x0, [fdH 31 16 .ro, fdH 15 8 .ro, fdH 1 0 .ro]⟩,
   -- LATE_CNT
   ⟨0x064, 0x0, [fd 31 16 .cnt, fd 15 0 .cnt]⟩
  ] ++
  [
   -- LATE_MAX
   ⟨0x068, 0x0, [fd 31 18 .ro, fd 17 0 .ro]⟩,
   -- LOAD_CMD
   ⟨0x06C, 0x0, [fdG 4 4 .wo, fdG 1 0 .wo]⟩
  ]

/-- Registers of the IMG page: offset, reset value of the stored fields, fields. -/
def tabImg : List RegRow :=
  [
   -- STATUS
   ⟨0x008, 0x0, [fdH 11 11 .ro, fdH 10 10 .ro, fdH 9 9 .ro, fdH 8 8 .ro, fdH 7 4 .ro, fdH 3 0 .ro]⟩,
   -- CTL_STATE
   ⟨0x040, 0x0, [fdH 9 9 .ro, fdH 8 8 .ro, fdH 6 4 .ro, fdH 1 0 .ro]⟩,
   -- FREEZE
   ⟨0x044, 0x0, [fd 31 0 .wo]⟩,
   -- FROZEN
   ⟨0x048, 0x0, [fdH 31 0 .ro]⟩,
   -- COMMIT
   ⟨0x04C, 0x0, [fdV 31 0 .wo]⟩,
   -- COMMITTED
   ⟨0x050, 0x0, [fdH 31 0 .ro]⟩,
   -- WDOG
   ⟨0x054, 0x186A0, [fdGV 23 0 .rw]⟩,
   -- RESTART
   ⟨0x058, 0x0, [fdGV 1 0 .wo]⟩,
   -- ECC_CNT
   ⟨0x060, 0x0, [fd 31 0 .cnt]⟩,
   -- ECC_ADDR
   ⟨0x064, 0x0, [fd 31 31 .ro, fd 22 3 .ro]⟩,
   -- STALE_CNT
   ⟨0x068, 0x0, [fd 31 0 .cnt]⟩
  ]

/-- Registers of the RG page: offset, reset value of the stored fields, fields. -/
def tabRg : List RegRow :=
  [
   -- STATUS
   ⟨0x008, 0x0, [fdH 1 1 .ro, fdH 0 0 .ro]⟩,
   -- PORT_STAT
   ⟨0x040, 0x0, [fdH 4 4 .ro, fdH 3 3 .ro, fdH 2 2 .ro, fdH 1 1 .ro, fdH 0 0 .ro]⟩,
   -- PORT_CFG
   ⟨0x044, 0x1, [fdS 2 2 .rw, fdS 1 1 .rw, fdS 0 0 .rw]⟩,
   -- CRC_CNT
   ⟨0x048, 0x0, [fd 31 0 .cnt]⟩,
   -- EDGE_REJ_CNT
   ⟨0x04C, 0x0, [fd 31 0 .cnt]⟩,
   -- LOS_CNT
   ⟨0x050, 0x0, [fd 31 0 .cnt]⟩,
   -- HOP_DELAY
   ⟨0x058, 0x0, [fdH 31 31 .ro, fdH 15 0 .ro]⟩
  ]

/-- Registers of the RNG page: offset, reset value of the stored fields, fields. -/
def tabRng : List RegRow :=
  [
   -- CTRL
   ⟨0x004, 0x1, [fd 0 0 .rw]⟩,
   -- STATUS
   ⟨0x008, 0x0, [fdH 2 2 .ro, fdH 1 1 .ro, fdH 0 0 .ro]⟩,
   -- NODE_STATE
   ⟨0x040, 0x0, [fdH 2 0 .ro]⟩,
   -- NODE_NUM
   ⟨0x044, 0x0, [fdH 24 24 .ro, fdH 22 16 .ro, fdH 14 8 .ro, fdH 6 0 .ro]⟩,
   -- MEMBER_LO
   ⟨0x048, 0x0, [fdH 31 0 .ro]⟩,
   -- MEMBER_HI
   ⟨0x04C, 0x0, [fdH 31 0 .ro]⟩,
   -- RING_CMD
   ⟨0x050, 0x0, [fdGV 14 8 .wo, fdGV 3 0 .wo]⟩,
   -- MISS_LIMIT
   ⟨0x054, 0x3, [fdS 3 0 .rw]⟩,
   -- OUT_HOLD
   ⟨0x058, 0xA, [fdS 7 0 .rw]⟩,
   -- TOPO_STAT
   ⟨0x05C, 0x0, [fd 22 16 .ro, fd 2 0 .ro]⟩,
   -- TAKEOVER_EPOCH
   ⟨0x060, 0x0, [fdH 15 0 .ro]⟩,
   -- INAUG_CNT
   ⟨0x064, 0x0, [fd 31 0 .cnt]⟩
  ]

/-- Registers of the MER page: offset, reset value of the stored fields, fields. -/
def tabMer : List RegRow :=
  [
   -- CTRL
   ⟨0x004, 0x0, [fd 0 0 .wo]⟩,
   -- STATUS
   ⟨0x008, 0x0, [fdH 1 1 .rws, fdH 0 0 .ro]⟩,
   -- TIME_LO
   ⟨0x040, 0x0, [fdH 31 0 .ro]⟩,
   -- TIME_HI
   ⟨0x044, 0x0, [fdH 31 0 .ro]⟩,
   -- SYNC_STAT
   ⟨0x048, 0x0, [fdH 31 31 .ro, fdH 30 30 .ro, fdH 29 29 .ro, fdH 28 28 .ro, fdH 22 16 .ro, fdH 15 0 .ro]⟩,
   -- OFFSET
   ⟨0x04C, 0x0, [fdH 31 0 .ro]⟩,
   -- RATE
   ⟨0x050, 0x0, [fdH 31 0 .ro]⟩,
   -- EPOCH_SET_LO
   ⟨0x054, 0x0, [fdGV 31 0 .rw]⟩,
   -- EPOCH_SET_HI
   ⟨0x058, 0x0, [fdGV 31 0 .rw]⟩,
   -- EPOCH_CMD
   ⟨0x05C, 0x0, [fdGV 0 0 .wo]⟩,
   -- CAP_SEL
   ⟨0x060, 0x0, [fd 31 31 .rw, fd 7 0 .rw]⟩,
   -- CAP_TIME_LO
   ⟨0x064, 0x0, [fdH 31 0 .ro]⟩
  ] ++
  [
   -- CAP_TIME_HI
   ⟨0x068, 0x0, [fdH 31 0 .ro]⟩,
   -- DEV_MAX
   ⟨0x06C, 0x0, [fdH 31 0 .ro]⟩
  ]

/-- Registers of the EVH page: offset, reset value of the stored fields, fields. -/
def tabEvh : List RegRow :=
  [
   -- STATUS
   ⟨0x008, 0x0, [fdH 17 17 .ro, fdH 16 16 .ro, fdH 15 0 .ro]⟩,
   -- ROUTE_SEL
   ⟨0x040, 0x0, [fdH 7 0 .rw]⟩,
   -- ROUTE
   ⟨0x044, 0x0, [fdSH 31 31 .rw, fdSH 15 15 .rw, fdSH 14 12 .rw, fdSH 11 9 .rw, fdSH 8 8 .rw, fdSH 7 0 .rw]⟩,
   -- LOG_WR
   ⟨0x048, 0x0, [fdMH 31 0 .ptr]⟩,
   -- LOG_RD
   ⟨0x04C, 0x0, [fdH 31 0 .rw]⟩,
   -- LOG_CFG
   ⟨0x050, 0x8, [fd 8 8 .rw, fd 5 0 .rw]⟩,
   -- IRQ_LEVEL_STAT
   ⟨0x054, 0x0, [fdH 15 9 .ro, fdH 7 1 .ro]⟩
  ]

/-- Registers of the CNT page: offset, reset value of the stored fields, fields. -/
def tabCnt : List RegRow :=
  [
   -- CTRL
   ⟨0x004, 0x801, [fd 11 8 .rw, fd 0 0 .rw]⟩,
   -- STATUS
   ⟨0x008, 0x0, [fdH 6 4 .ro, fdH 1 1 .ro, fdH 0 0 .ro]⟩,
   -- USER_EN
   ⟨0x040, 0x0, [fdG 3 0 .rw]⟩,
   -- SC_OVF
   ⟨0x044, 0x0, [fdH 31 16 .rws, fdH 15 0 .rws]⟩,
   -- EC_OVF0
   ⟨0x050, 0x0, [fdH 31 0 .rws]⟩,
   -- EC_OVF1
   ⟨0x054, 0x0, [fdH 31 0 .rws]⟩,
   -- EC_OVF2
   ⟨0x058, 0x0, [fdH 31 0 .rws]⟩,
   -- EC_OVF3
   ⟨0x05C, 0x0, [fdH 31 0 .rws]⟩,
   -- EC_OVF4
   ⟨0x060, 0x0, [fdH 31 0 .rws]⟩,
   -- EC_OVF5
   ⟨0x064, 0x0, [fdH 31 0 .rws]⟩,
   -- EC_OVF6
   ⟨0x068, 0x0, [fdH 31 0 .rws]⟩,
   -- EC_OVF7
   ⟨0x06C, 0x0, [fdH 31 0 .rws]⟩
  ]

/-- Registers of the ALM page: offset, reset value of the stored fields, fields. -/
def tabAlm : List RegRow :=
  [
   -- ALM_STAT
   ⟨0x040, 0x0, [fdH 5 5 .ro, fdH 4 4 .ro, fdH 3 3 .ro, fdH 2 2 .ro, fdH 1 1 .ro, fdH 0 0 .ro]⟩,
   -- SLOT_STAT
   ⟨0x044, 0x0, [fdH 8 8 .ro, fdH 7 7 .ro, fdH 6 6 .ro, fdH 5 5 .ro, fdH 4 4 .ro, fdH 3 3 .ro, fdH 2 2 .ro, fdH 1 1 .ro, fdH 0 0 .ro]⟩,
   -- OP_CMD
   ⟨0x048, 0x0, [fdG 3 0 .wo]⟩,
   -- OP_ADDR
   ⟨0x04C, 0x0, [fd 31 0 .rw]⟩,
   -- OP_LEN
   ⟨0x050, 0x0, [fd 21 0 .rw]⟩,
   -- OP_STAT
   ⟨0x054, 0x0, [fdH 31 31 .ro, fdH 27 8 .ro, fdH 7 4 .ro, fdH 3 0 .ro]⟩,
   -- WEAR_MAX
   ⟨0x058, 0x0, [fdH 31 0 .ro]⟩,
   -- REFRESH_STAT
   ⟨0x05C, 0x0, [fdH 31 20 .ro, fdH 10 0 .ro]⟩,
   -- RETAIN_SEL
   ⟨0x060, 0x1, [fdGV 2 1 .rw, fdGV 0 0 .rw]⟩
  ]

/-- Registers of the MNT page: offset, reset value of the stored fields, fields. -/
def tabMnt : List RegRow :=
  [
   -- FRAMES
   ⟨0x040, 0x0, [fd 31 0 .cnt]⟩,
   -- CRC_ERRS
   ⟨0x044, 0x0, [fd 31 0 .cnt]⟩,
   -- ABORTS
   ⟨0x048, 0x0, [fd 31 0 .cnt]⟩,
   -- LEG_CMD
   ⟨0x050, 0x0, [fd 31 31 .wo, fd 30 30 .rw, fd 18 16 .rw, fd 15 0 .rw]⟩,
   -- LEG_OFF
   ⟨0x054, 0x0, [fd 11 0 .rw]⟩,
   -- LEG_WDATA_LO
   ⟨0x058, 0x0, [fd 31 0 .rw]⟩,
   -- LEG_WDATA_HI
   ⟨0x05C, 0x0, [fd 31 0 .rw]⟩,
   -- LEG_RDATA_LO
   ⟨0x060, 0x0, [fd 31 0 .ro]⟩,
   -- LEG_RDATA_HI
   ⟨0x064, 0x0, [fd 31 0 .ro]⟩,
   -- LEG_STAT
   ⟨0x068, 0x0, [fd 7 4 .ro, fd 2 2 .rws, fd 1 1 .rws, fd 0 0 .ro]⟩
  ]

/-- SC_SEL0 to SC_SEL15 and SC0 to SC15 of the CNT control page (Tables 15.7 and 15.8). -/
def tabSc : List RegRow :=
  (List.range 16).map (fun s => ⟨0x080 + 4 * s, 0, [fd 31 31 .rw, fd 7 0 .rw]⟩) ++
  (List.range 16).map (fun s => ⟨0x0C0 + 8 * s, 0, [fdH 31 0 .ptr]⟩) ++
  (List.range 16).map (fun s => ⟨0x0C4 + 8 * s, 0, [fdH 15 0 .ptr]⟩)

/-- SC0 to SC15 of the CNT user page (Table 15.10). -/
def tabUser : List RegRow :=
  (List.range 32).map (fun s => ⟨0x040 + 4 * s, 0, [fdH 31 0 .cnt]⟩)

/-- The register pages of Table 2.14. -/
inductive PageKind where
  | glb | pwr | lcc | sup | clk | cp (n : Port) | vot | frc | ls (g : Seg) | crl | arb | lom | img
  | rg (rp : RingPort) | rng | mer | evh | cnt | cntu | alm | mnt
  deriving DecidableEq, Repr

/-- The page with a given page number, if Table 2.14 lists it as a register page. -/
def pageKind (p : Nat) : Option PageKind :=
  if p = 0x00 then some .glb else if p = 0x01 then some .pwr else if p = 0x02 then some .lcc
  else if p = 0x03 then some .sup else if p = 0x04 then some .clk
  else if p = 0x08 then some (.cp 0) else if p = 0x09 then some (.cp 1)
  else if p = 0x0A then some (.cp 2) else if p = 0x0B then some (.cp 3)
  else if p = 0x0C then some .vot else if p = 0x0D then some .frc
  else if p = 0x10 then some (.ls 0) else if p = 0x11 then some (.ls 1)
  else if p = 0x18 then some .crl else if p = 0x19 then some .arb
  else if p = 0x1A then some .lom else if p = 0x1B then some .img
  else if p = 0x20 then some (.rg 0) else if p = 0x21 then some (.rg 1)
  else if p = 0x22 then some .rng else if p = 0x23 then some .mer
  else if p = 0x30 then some .evh else if p = 0x31 then some .cnt else if p = 0x32 then some .cntu
  else if p = 0x40 then some .alm else if p = 0x41 then some .mnt
  else none

/-- The page number of a register page (Table 2.14). -/
def PageKind.num : PageKind → Nat
  | .glb => 0x00 | .pwr => 0x01 | .lcc => 0x02 | .sup => 0x03 | .clk => 0x04 | .cp n => 0x08 + n.val
  | .vot => 0x0C | .frc => 0x0D | .ls g => 0x10 + g.val | .crl => 0x18 | .arb => 0x19 | .lom => 0x1A | .img => 0x1B
  | .rg rp => 0x20 + rp.val | .rng => 0x22 | .mer => 0x23 | .evh => 0x30 | .cnt => 0x31 | .cntu => 0x32
  | .alm => 0x40 | .mnt => 0x41

/-- TYPE of the page (Table 2.14): the page number of the block's first instance. -/
def PageKind.typ : PageKind → Nat
  | .cp _ => 0x08 | .ls _ => 0x10 | .rg _ => 0x20 | k => k.num

/-- INST of the page (Table 2.14). -/
def PageKind.inst : PageKind → Nat
  | .cp n => n.val | .ls g => g.val | .rg rp => rp.val | _ => 0

/-- CNT_BASE.FIRST and CNT_BASE.COUNT of the page (Table 2.14). -/
def PageKind.events : PageKind → Nat × Nat
  | .glb => (0, 3) | .pwr => (3, 3) | .lcc => (13, 3) | .sup => (6, 4) | .clk => (10, 3)
  | .cp n => (16 + 8 * n.val, 8) | .vot => (48, 16) | .frc => (76, 4) | .ls g => (80 + 16 * g.val, 16)
  | .crl => (112, 10) | .arb => (122, 6) | .lom => (128, 16) | .img => (64, 12)
  | .rg rp => (144 + 16 * rp.val, 16) | .rng => (176, 16) | .mer => (192, 16) | .evh => (224, 4)
  | .cnt => (228, 12) | .cntu => (0, 0) | .alm => (208, 16) | .mnt => (240, 8)

/-- Every register page. -/
def allPages : List PageKind :=
  [.glb, .pwr, .lcc, .sup, .clk, .cp 0, .cp 1, .cp 2, .cp 3, .vot, .frc, .ls 0, .ls 1, .crl, .arb, .lom, .img,
   .rg 0, .rg 1, .rng, .mer, .evh, .cnt, .cntu, .alm, .mnt]

/-- The page and EVENT bit of an event number, if it has one (R340); 248 to 255 have none (R341). -/
def eventPage (ev : Nat) : Option (PageKind × Nat) :=
  (allPages.find? fun k => decide (k.events.1 ≤ ev) && decide (ev < k.events.1 + k.events.2)).map
    fun k => (k, ev - k.events.1)

/-- The block registers of a page from offset 0x040, and its CTRL and STATUS bits. -/
def blockTab : PageKind → List RegRow
  | .glb => tabGlb | .pwr => tabPwr | .lcc => tabLcc | .sup => tabSup | .clk => tabClk | .cp _ => tabCp
  | .vot => tabVot | .frc => tabFrc | .ls _ => tabLs | .crl => tabCrl | .arb => tabArb | .lom => tabLom
  | .img => tabImg | .rg _ => tabRg | .rng => tabRng | .mer => tabMer | .evh => tabEvh | .cnt => tabCnt ++ tabSc
  | .cntu => tabUser | .alm => tabAlm | .mnt => tabMnt

/-- The fields of a table's register. -/
def rowsFields (t : List RegRow) (off : Nat) : List Field := (t.filter fun r => r.off == off).flatMap (·.fields)

/-- The reset value of a table's register. -/
def rowsReset (t : List RegRow) (off : Nat) : Nat := (t.filter fun r => r.off == off).foldl (fun a r => a ||| r.reset) 0

/-- The fields of the register at a folded offset of a page; empty where the page holds no register (R10).
The ARB page's GROUP reads 0 and ignores writes (R40). -/
def regFields (k : PageKind) (off : Nat) : List Field :=
  let fs := rowsFields tabHdr off ++ rowsFields (blockTab k) off
  if k = .arb ∧ off = 0x01C then [fdH 3 3 .ro] else fs

/-- The reset value of the stored bits at a folded offset of a page. -/
def regResetOf (k : PageKind) (off : Nat) : Word :=
  BitVec.ofNat 32 (rowsReset tabHdr off ||| rowsReset (blockTab k) off)

/-- The BAR0 address of a register (R45): page number times 4 KiB plus the folded offset. -/
def regAddr (k : PageKind) (off : Nat) : Nat := k.num * 0x1000 + off

/-- The reset value of the word stored at a BAR0 register address. -/
def regDefault (a : Nat) : Word :=
  match pageKind (a / 0x1000) with
  | some k => regResetOf k (a % 0x1000)
  | none => 0

/-- The bits of a register that satisfy a condition on their field, as a mask. -/
def fieldMask (c : Field → Bool) (fs : List Field) : Nat :=
  (fs.filter c).foldl (fun a f => a ||| ((2 ^ (f.hi + 1 - f.lo) - 1) * 2 ^ f.lo)) 0

end Sys2Proof.Machine
end

