-- ==== Sys2Proof/Machine/Ops.lean ====
section
/-!
DEFINITION. The named operations over the state that every meaning is written with: registers, events, free values,
posted writes, the configuration space, error reporting, and the cells and queues of the Creel.
-/

namespace Sys2Proof.Machine

open Sys2Proof

/-! Registers -/

/-- The stored bits of a register. -/
def getReg (s : State) (k : PageKind) (off : Nat) : Word :=
  mget (regDefault (regAddr k off)) s.regs (regAddr k off)

/-- Store the stored bits of a register. -/
def setReg (k : PageKind) (off : Nat) (w : Word) (s : State) : State :=
  { s with regs := mset (regDefault (regAddr k off)) (regAddr k off) w s.regs }

/-- A stored field of a register. -/
def getFld (s : State) (k : PageKind) (off hi lo : Nat) : Nat := fieldOf (getReg s k off) hi lo

/-- Store a field of a register. -/
def putFld (k : PageKind) (off hi lo v : Nat) (s : State) : State :=
  setReg k off (setFieldOf (getReg s k off) hi lo v) s

/-- Count up a 32-bit counter register, wrapping (class CNT). -/
def incReg (k : PageKind) (off n : Nat) (s : State) : State := setReg k off (getReg s k off + BitVec.ofNat 32 n) s

/-! Time -/

/-- Device time in units of 2^-32 s, as TIME shows it (R321). -/
def time64 (s : State) : DWord := (s.mer.time >>> 32).setWidth 64
/-- TIME as a number. -/
def timeN (s : State) : Nat := (time64 s).toNat
/-- The fraction word of device time. -/
def timeFrac (s : State) : Word := (time64 s).setWidth 32
/-- The seconds word of device time. -/
def timeSec (s : State) : Word := (time64 s >>> 32).setWidth 32

/-! Events and outputs -/

/-- An event occurs, with the details of its log record (R342, Table 12.4). -/
def raiseD (ev : Nat) (d0 d1 : Word) (s : State) : State :=
  { s with evh := { s.evh with occ := s.evh.occ ++ [⟨ev, d0, d1, s.evh.sub, if s.lom.everRun then s.lom.cycle else 0, time64 s, none, false⟩] } }

/-- An event occurs. -/
def raise (ev : Nat) (s : State) : State := raiseD ev 0 0 s

/-- An event occurs if a condition holds. -/
def raiseIf (b : Bool) (ev : Nat) (s : State) : State := if b then raise ev s else s

/-- The next occurrences of this command fall in a later core cycle (R13, R342). -/
def nextCycle (s : State) : State := { s with evh := { s.evh with sub := s.evh.sub + 1 } }

/-- Something leaves the device. -/
def emit (o : Out) (s : State) : State := { s with out := s.out ++ [o] }

/-- Take the next free value (DESIGN CHOICE, log entry 12). -/
def freeVal (s : State) : BitVec 64 := Config.freeValue s.freeCount
/-- The free value has been taken. -/
def tookFree (s : State) : State := { s with freeCount := s.freeCount + 1 }

/-- A pulse of event `ev` crosses into CORE on pair `pair` of Table 13.5. Commands lie four destination cycles apart at least; a pulse that
follows one of the same event within a command may come sooner, and is then merged: XOVR and XFAULT (R362; DESIGN CHOICE, log entry 51). -/
def pulse (pair ev : Nat) (d0 d1 : Word) (s : State) : State :=
  if s.evh.occ.any (·.ev == ev) then
    let s1 := tookFree s
    if (freeVal s).getLsbD 0 then raise 12 (putFld .clk 0x048 pair pair 1 s1) else raiseD ev d0 d1 s1
  else raiseD ev d0 d1 s

/-! Channels, ports, segments -/

/-- Change one channel. -/
def modCh (c : Port) (f : Chan → Chan) (s : State) : State := { s with ch := s.ch.set c (f s.ch[c]) }
/-- Change one channel port. -/
def modPort (p : Port) (f : PortS → PortS) (s : State) : State := { s with port := s.port.set p (f s.port[p]) }
/-- Change one port's MSI-X state. -/
def modMsix (p : Port) (f : MsixS → MsixS) (s : State) : State := { s with msix := s.msix.set p (f s.msix[p]) }
/-- Change one segment. -/
def modSeg (g : Seg) (f : SegS → SegS) (s : State) : State := { s with seg := s.seg.set g (f s.seg[g]) }
/-- Change one ring port. -/
def modRp (rp : RingPort) (f : RingPortS → RingPortS) (s : State) : State :=
  { s with rng := { s.rng with port := s.rng.port.set rp (f s.rng.port[rp]) } }
/-- Change one requester's register-file state. -/
def modReq (r : Req) (f : ReqS → ReqS) (s : State) : State :=
  { s with bus := { s.bus with req := s.bus.req.set r (f s.bus.req[r]) } }

/-- The four channel ports. -/
def allPorts : List Port := [0, 1, 2, 3]

/-- The channel port of a requester, `none` for the maintenance port. -/
def reqPort (r : Req) : Option Port := if h : r.val < 4 then some ⟨r.val, h⟩ else none

/-- The requester of a channel port. -/
def portReq (p : Port) : Req := ⟨p.val, by omega⟩

/-- STATE encoding of Table 4.12. -/
def ChState.code : ChState → Nat
  | .absent => 0 | .observer => 1 | .ready => 2 | .active => 3 | .fenced => 4

/-- The channel is ACTIVE, READY or OBSERVER: eligible for pushes and events (R105, R344). -/
def ChState.inService : ChState → Bool
  | .observer => true | .ready => true | .active => true | _ => false

/-- The ACTIVE channels, in ascending order. -/
def activeChs (s : State) : List Port := allPorts.filter fun c => s.ch[c].st == .active
/-- The ACTIVE, aligned channels. -/
def activeAligned (s : State) : List Port := allPorts.filter fun c => s.ch[c].st == .active && s.ch[c].aligned

/-- Life-cycle state COMMISSIONING or MAINTENANCE (R36, R58). -/
def lcOpen (s : State) : Bool := s.lcc.st == .commissioning || s.lcc.st == .maintenance

/-- Life-cycle encoding of Table 14.10. -/
def LifeState.code : LifeState → Nat
  | .blank => 0 | .commissioning => 1 | .service => 2 | .maintenance => 3 | .retired => 4

/-- Power state encoding of Table 13.14. -/
def PowerState.code : PowerState → Nat
  | .reset => 0 | .hold => 1 | .listen => 2 | .run => 3

/-! Register errors (R19, R20) -/

/-- The page that reports a page's register errors: the CNT control page for the user page (R46). -/
def errPage : PageKind → PageKind
  | .cntu => .cnt | k => k

/-- Capture a register error in a page's ERRLOG and set its event (R19, R20): cause, requester, page number and
offset of the access as issued, data. -/
def capture (k : PageKind) (cause req page off : Nat) (data : Word) (s : State) : State :=
  let k := errPage k
  let w := BitVec.ofNat 32 (2 ^ 31 + cause * 2 ^ 26 + req * 2 ^ 23 + (page % 256) * 2 ^ 12 + off % 4096)
  let s1 :=
    if getFld s k 0x030 31 31 = 1 then putFld k 0x030 30 30 1 s
    else setReg k 0x034 data (setReg k 0x030 (w ||| (getReg s k 0x030 &&& 0x40000000#32)) s)
  let s2 := raiseIf (cause == 1 || cause == 4 || cause == 5 || cause == 7) k.events.1 s1
  raiseIf (cause == 2) (k.events.1 + 1) s2

/-! The configuration space of a port (R92, Tables 4.2 and 4.3) -/

/-- Reset values of the configuration header (Table 4.2) and of the Power Management and MSI-X capabilities (Table 4.3). -/
def cfgHead (dw : Nat) : Word :=
  match dw with
  | 0x00 => 0x48101F9B#32 | 0x01 => 0x00100000#32 | 0x02 => 0x088000A1#32
  | 0x06 => 0x0000000C#32 | 0x0D => 0x00000040#32
  | 0x10 => 0x00035001#32 | 0x11 => 0x00000008#32
  | 0x14 => 0x00FF6011#32 | 0x15 => 0x00090000#32 | 0x16 => 0x00091000#32
  | _ => 0

/-- Reset values of the PCI Express and Advanced Error Reporting capabilities (Table 4.3). -/
def cfgExpress (dw : Nat) : Word :=
  if dw = 0x18 then 0x00020010#32 else if dw = 0x19 then 0x10008C22#32 else if dw = 0x1A then 0x00002810#32
  else if dw = 0x1B then 0x00410844#32 else if dw = 0x21 then 0x00010000#32 else if dw = 0x23 then 0x0000001E#32
  else if dw = 0x24 then 0x00000004#32 else if dw = 0x40 then 0x14820001#32 else if dw = 0x43 then 0x00462030#32
  else if dw = 0x45 then 0x00006000#32 else if dw = 0x46 then 0x000000A0#32 else 0

/-- Reset value of the configuration DWORD with number `dw`; the capabilities from 0x148 on, the lane margining registers last. -/
def cfgDefault (dw : Nat) : Word :=
  if dw < 0x18 then cfgHead dw
  else if dw < 0x50 then cfgExpress dw
  else if 0x6C ≤ dw ∧ dw ≤ 0x6F then 0x00009C38#32
  else match dw with
  | 0x52 => 0x15810003#32 | 0x56 => 0x17810019#32 | 0x5E => 0x1A810026#32 | 0x6A => 0x00010027#32
  | _ => 0

/-- The stored configuration DWORD. -/
def cfgGet (s : State) (p : Port) (dw : Nat) : Word := mget (cfgDefault dw) s.port[p].cfg dw
/-- Store a configuration DWORD. -/
def cfgSet (p : Port) (dw : Nat) (w : Word) (s : State) : State :=
  modPort p (fun q => { q with cfg := mset (cfgDefault dw) dw w q.cfg }) s

/-- Memory Space Enable. -/
def memEn (s : State) (p : Port) : Bool := bitAt (cfgGet s p 0x01) 1
/-- Bus Master Enable. -/
def bme (s : State) (p : Port) : Bool := bitAt (cfgGet s p 0x01) 2
/-- The port is in D3hot (PMCSR). -/
def d3hot (s : State) (p : Port) : Bool := fieldOf (cfgGet s p 0x11) 1 0 == 3
/-- MSI-X Enable. -/
def msixEn (s : State) (p : Port) : Bool := bitAt (cfgGet s p 0x14) 31
/-- MSI-X Function Mask. -/
def msixMask (s : State) (p : Port) : Bool := bitAt (cfgGet s p 0x14) 30
/-- The programmed Max Payload Size in bytes (Device Control [7:5]). -/
def mps (s : State) (p : Port) : Nat := 128 * 2 ^ min 2 (fieldOf (cfgGet s p 0x1A) 7 5)
/-- ASPM L1 is enabled in Link Control. -/
def aspmL1 (s : State) (p : Port) : Bool := bitAt (cfgGet s p 0x1C) 1
/-- ECRC checking is enabled. -/
def ecrcCheck (s : State) (p : Port) : Bool := bitAt (cfgGet s p 0x46) 8

/-! Error reporting under AER (R113, R114) -/

/-- Set bits of a configuration DWORD. -/
def cfgOr (p : Port) (dw bitsSet : Nat) (s : State) : State :=
  cfgSet p dw (cfgGet s p dw ||| BitVec.ofNat 32 bitsSet) s

/-- Set a port error flag of ERR_STAT (Table 4.18). -/
def portFlag (p : Port) (b : Nat) (s : State) : State := putFld (.cp p) 0x068 b b 1 s

/-- The event number of bit `b` of CPn. -/
def cpEv (p : Port) (b : Nat) : Nat := 16 + 8 * p.val + b

/-- The header of a TLP of which the command gives nothing. -/
def noHdr : Hdr := ⟨0, 0⟩

/-- Base address of BAR0, BAR2 or BAR4 of a port, by number. -/
def barBase (s : State) (p : Port) (bar : Nat) : Nat :=
  let lo := (cfgGet s p (4 + bar)).toNat
  if bar = 2 then lo / 16 * 16 + (cfgGet s p 0x07).toNat * 2 ^ 32 else lo / 16 * 16

/-- Byte enables of the first or last DW, four enables. -/
def beNat (en : List Bool) : Nat := ((en.take 4).zipIdx.map fun e => if e.1 then 2 ^ e.2 else 0).sum

/-- The header of a memory request to address `a` of a port (R114; its layout is that of the PCI Express Base Specification 4.0,
PRESUMED, log entry 7): one enable per byte, the tag of a read, the poisoned bit. Traffic class, attributes, requester and the tag of
a write are not given. -/
def memHdr (write : Bool) (a : Nat) (en : List Bool) (tag : Nat) (ep : Bool) : Hdr :=
  let es := List.replicate (a % 4) false ++ en
  let n := (es.length + 3) / 4
  let wide := decide (2 ^ 32 ≤ a)
  let d0 := bnat wide * 2 ^ 29 + bnat write * 2 ^ 30 + bnat ep * 2 ^ 14 + n % 1024 +
    (if write then 0 else bitsOf tag 9 9 * 2 ^ 23 + bitsOf tag 8 8 * 2 ^ 19)
  let d1 := (if write then 0 else tag % 256 * 256) + (if 1 < n then beNat (es.drop (4 * (n - 1))) * 16 else 0) + beNat es
  let d2 := if wide then a / 2 ^ 32 else a % 2 ^ 32 / 4 * 4
  let d3 := if wide then a % 2 ^ 32 / 4 * 4 else 0
  let k0 := 0xFF0043FF + (if write then 0 else 0x00880000)
  let k1 := 0xFF + (if write then 0 else 0xFF00)
  ⟨BitVec.ofNat 128 (d0 + d1 * 2 ^ 32 + d2 * 2 ^ 64 + d3 * 2 ^ 96),
   BitVec.ofNat 128 (k0 + k1 * 2 ^ 32 + (2 ^ 32 - 1) * 2 ^ 64 + (if wide then 2 ^ 32 - 1 else 0) * 2 ^ 96)⟩

/-- The first unmasked error is pointed at and the header of its TLP logged; what of the header the command does not give is free
(PRESUMED, log entries 7 and 12). -/
def aerFirst (p : Port) (b : Nat) (h : Hdr) (s : State) : State :=
  let s1 := tookFree s
  let f : BitVec 128 := (freeVal s1) ++ (freeVal s)
  let w := (h.bits &&& h.known) ||| (f &&& ~~~ h.known)
  let dw (j : Nat) : Word := (w >>> (32 * j)).setWidth 32
  cfgSet p 0x46 (setFieldOf (cfgGet s p 0x46) 4 0 b)
    (cfgSet p 0x47 (dw 0) (cfgSet p 0x48 (dw 1) (cfgSet p 0x49 (dw 2) (cfgSet p 0x4A (dw 3) (tookFree s1)))))

/-- Report an uncorrectable error with status bit `b`, met by a TLP with header `h`; `advisory` reports it as Advisory Non-Fatal when its severity
is non-fatal. The message leaves when the status bit and the enables allow it. -/
def aerUncorr (p : Port) (b : Nat) (advisory : Bool) (h : Hdr) (s : State) : State :=
  let masked := bitAt (cfgGet s p 0x42) b
  let fatal := bitAt (cfgGet s p 0x43) b
  let s1 := cfgOr p 0x41 (2 ^ b) s
  let adv := advisory && !fatal
  let s2 := if adv then cfgOr p 0x44 (2 ^ 13) s1 else s1
  let s3 := cfgOr p 0x1A (if adv then 2 ^ 16 else if fatal then 2 ^ 18 else 2 ^ 17) s2
  let s4 := if b = 20 then cfgOr p 0x1A (2 ^ 19) s3 else if b = 15 then cfgOr p 0x01 (2 ^ 27) s3
    else if b = 12 then cfgOr p 0x01 (2 ^ 31) s3 else s3
  let ctl := cfgGet s p 0x1A
  let serr := bitAt (cfgGet s p 0x01) 8
  let s5 :=
    if adv then
      (if !masked && !bitAt (cfgGet s p 0x45) 13 && bitAt ctl 0 then emit (.msg p "ERR_COR") s4 else s4)
    else if !masked && fatal && (serr || bitAt ctl 2) then
      emit (.msg p "ERR_FATAL") (if serr then cfgOr p 0x01 (2 ^ 30) s4 else s4)
    else if !masked && !fatal && (serr || bitAt ctl 1) then
      emit (.msg p "ERR_NONFATAL") (if serr then cfgOr p 0x01 (2 ^ 30) s4 else s4)
    else s4
  let s6 := if masked || bitAt (cfgGet s p 0x41) (fieldOf (cfgGet s p 0x46) 4 0) then s5 else aerFirst p b h s5
  raise (cpEv p 6) s6

/-- Report a correctable error with status bit `b`. -/
def aerCorr (p : Port) (b : Nat) (s : State) : State :=
  let s1 := cfgOr p 0x1A (2 ^ 16) (cfgOr p 0x44 (2 ^ b) s)
  let s2 := if !bitAt (cfgGet s p 0x45) b && bitAt (cfgGet s p 0x1A) 0 then emit (.msg p "ERR_COR") s1 else s1
  raise (cpEv p 6) s2

/-! Posted writes of a port (R98, R102) -/

/-- Posted data credits of a TLP: 16 bytes each. -/
def pdOf (t : PTlp) : Nat := (t.data.length + 15) / 16

/-- ECRC generation is enabled. -/
def ecrcGen (s : State) (p : Port) : Bool := bitAt (cfgGet s p 0x46) 6

/-- A port sends TLPs: they leave with their ECRC when it is generated, and the port leaves L1 (R119). -/
def sendOut (p : Port) (os : List Out) (s : State) : State :=
  let withEcrc := if ecrcGen s p then os.flatMap fun o => [o, .digest p] else os
  modPort p (fun q => { q with l1 := false }) { s with out := s.out ++ withEcrc }

/-- A TLP of kind `kd` (0 push, 1 log replication, 2 + v MSI-X vector v) leaves port `p`. -/
def issueTlp (p : Port) (kd : Nat) (t : PTlp) (s : State) : State :=
  let s1 := sendOut p [.mwr p (decide (2 ^ 32 ≤ t.addr)) t] s
  if kd < 2 then s1
  else modMsix p (fun m => { m with outstanding := m.outstanding.filter (· != kd - 2),
                                     lastFenced := if kd = 257 then some (timeN s) else m.lastFenced }) s1

/-- Vector Control bit 0 of MSI-X entry `v`. -/
def vectorMasked (s : State) (p : Port) (v : Nat) : Bool :=
  bitAt (mget 1 s.msix[p].table (4 * v + 3)) 0

/-- A message of vector `v` may be sent (R110, R118); a FENCED channel gets only its fenced vector (R127). -/
def msixMay (s : State) (p : Port) (v : Nat) : Bool :=
  msixEn s p && !msixMask s p && !vectorMasked s p v && !d3hot s p && bme s p && s.port[p].dlUp &&
    (s.ch[p].st != .fenced || v == 255)

/-- A message that waits for credits finds that it may not be sent: it becomes pending, or ends with MSI-X disabled (R110). -/
def msixPark (p : Port) (v : Nat) (s : State) : State :=
  modMsix p (fun m => { m with outstanding := m.outstanding.filter (· != v),
                               pba := if msixEn s p then mset false v true m.pba else m.pba }) s

/-- Whether the partner's credits cover a TLP. -/
def creditsFor (c : Option (Nat × Nat)) (t : PTlp) : Bool :=
  match c with
  | none => true
  | some (h, d) => decide (1 ≤ h) && decide (pdOf t ≤ d)

/-- The credits left after a TLP. -/
def creditsAfter (c : Option (Nat × Nat)) (t : PTlp) : Option (Nat × Nat) :=
  c.map fun e => (e.1 - 1, e.2 - pdOf t)

/-- Send waiting TLPs of a port in order while the credits last; the fuel is their number. -/
def drainTx (p : Port) : Nat → State → State
  | 0, s => s
  | n + 1, s =>
    match s.tx[p].waiting with
    | [] => s
    | (kd, t) :: rest =>
      if 2 ≤ kd ∧ msixMay s p (kd - 2) = false then
        drainTx p n (msixPark p (kd - 2) { s with tx := s.tx.set p ⟨s.tx[p].credits, rest⟩ })
      else if creditsFor s.tx[p].credits t then
        drainTx p n (issueTlp p kd t
          { s with tx := s.tx.set p ⟨creditsAfter s.tx[p].credits t, rest⟩ })
      else s

/-- Queue a posted TLP behind the earlier ones and send what the credits allow. -/
def sendTlp (p : Port) (kd : Nat) (t : PTlp) (s : State) : State :=
  let s1 := { s with tx := s.tx.set p ⟨s.tx[p].credits, s.tx[p].waiting ++ [(kd, t)]⟩ }
  drainTx p s1.tx[p].waiting.length s1

/-! The Creel: cells and queues (R194 to R200) -/

/-- RESV, least RESV and LIMIT at reset (Table 7.3); zero for a queue that owns no cells. -/
def queueTab (q : Nat) : Nat × Nat × Nat :=
  if q < 4 then (64, 8, 2048) else if q = 4 then (256, 64, 2048)
  else if q = 14 ∨ q = 15 then (64, 8, 1024) else if q = 16 ∨ q = 17 then (8, 4, 64)
  else if q = 18 then (16, 1, 256) else if q = 21 then (128, 32, 1024) else if q = 22 then (16, 1, 512)
  else if q = 23 then (128, 32, 1024) else if q = 24 then (64, 32, 512) else if q = 25 then (16, 1, 64)
  else if q = 26 then (64, 8, 1024) else (0, 0, 0)

/-- The queues that own cells (Table 7.2). -/
def owningQueues : List Nat := [0, 1, 2, 3, 4, 14, 15, 16, 17, 18, 21, 22, 23, 24, 25, 26]

/-- A queue at reset. -/
def queueInit (q : Nat) : Queue :=
  { pkts := [], held := 0, resv := (queueTab q).1, limit := (queueTab q).2.2,
    thresh := if 10 ≤ q ∧ q ≤ 13 then 4 else 0, dropping := none, underrun := false, ptrBad := false }

/-- A queue of the Creel. -/
def getQ (c : Creel) (q : Nat) : Queue := mget (queueInit q) c.q q
/-- Change a queue of the Creel. -/
def setQ (q : Nat) (v : Queue) (c : Creel) : Creel := { c with q := mset (queueInit q) q v c.q }

/-- FREE of R199. -/
def creelFree (c : Creel) : Nat := 16384 - (owningQueues.map fun q => (getQ c q).held).foldl (· + ·) 0
/-- U of R199: the reservations not yet in use. -/
def creelU (c : Creel) : Nat := (owningQueues.map fun q => (getQ c q).resv - (getQ c q).held).foldl (· + ·) 0
/-- FREE − U, 0 when negative. -/
def headroom (c : Creel) : Nat := creelFree c - creelU c

/-- Cells that can be taken from the free list now. -/
def freeListLen (c : Creel) : Nat := (16384 - c.fresh) + c.free.length

/-- The first `n` cells of the free list, and the Creel without them. -/
def takeCells (n : Nat) (c : Creel) : List Nat × Creel :=
  let a := min n (16384 - c.fresh)
  ((List.range a).map (c.fresh + ·) ++ c.free.take (n - a), { c with fresh := c.fresh + a, free := c.free.drop (n - a) })

/-- List `q` has been reset, and the sweep that recovers it has not ended: its producers wait (R211). -/
def resetNow (c : Creel) (q : Nat) : Bool := c.resets.contains q || c.nextResets.contains q

/-- Whether a claim of `n` cells by queue `q` is granted (R199, R201, R211). A LIMIT below RESV acts as RESV, below 64 as 64. -/
def claimOk (c : Creel) (q n : Nat) : Bool :=
  let e := getQ c q
  let unused := e.resv - e.held
  decide (e.held + n ≤ max e.limit (max e.resv 64)) &&
  decide (n - unused ≤ headroom c) &&
  (c.uncovered == 0 || decide (n ≤ unused)) &&
  decide (n ≤ freeListLen c) &&
  !(resetNow c 63 || resetNow c q)

/-- The copy whose cells a lost packet of a hold queue held counts as not presented (R213). -/
def loseCopy (p : Pkt) (s : State) : State :=
  let live (c : MCopy) : Bool := c.isRead || c.cells != p.cells
  let strip (e : MEntry) : MEntry := { e with copies := e.copies.filter live }
  { s with vot := { s.vot with
    openE := (s.vot.openE.map strip).filter fun e => !(e.copies.isEmpty && e.phase == .waiting),
    waiting := s.vot.waiting.filter live } }

/-- A pointer mismatch found at a use of list `q` resets the list and starts a sweep, or a further one (R211, R212). -/
def resetList (q : Nat) (s : State) : State :=
  let e := getQ s.crl q
  let cells := if q = 63 then ((List.range (16384 - s.crl.fresh)).map (s.crl.fresh + ·) ++ s.crl.free).map fun c => (c, 63)
               else e.pkts.flatMap fun p => p.cells.map fun c => (c, p.owner)
  let pkts := e.pkts.map fun p => (q, p)
  let c := setQ q { e with pkts := [], ptrBad := false } s.crl
  let c1 := { c with sweep := true, sweepPending := c.sweep, sweepQueue := q,
                     popped := if q = 18 then 0 else c.popped,
                     fresh := if q = 63 then 16384 else c.fresh, free := if q = 63 then [] else c.free,
                     ptrErr := c.ptrErr + 1 }
  let c2 := if c.sweep then { c1 with nextCells := c.nextCells ++ cells, nextPkts := c.nextPkts ++ pkts, nextResets := c.nextResets ++ [q] }
            else { c1 with lostCells := cells, lostPkts := pkts, resets := [q] }
  let s1 := { s with crl := c2 }
  raiseD 114 (BitVec.ofNat 32 q) 0 (if q < 4 then pkts.foldl (fun s e => loseCopy e.2 s) s1 else s1)

/-- Every use of a list's pointers compares their two copies (R211). -/
def useList (q : Nat) (s : State) : State := if (getQ s.crl q).ptrBad then resetList q s else s

/-- Claim `n` cells for queue `q`: the cells, or nothing when the claim is not granted. The use of the free list compares its pointers. -/
def claim (q n : Nat) (s0 : State) : Option (List Nat × State) :=
  let s := useList 63 s0
  if claimOk s.crl q n then
    let (cells, c1) := takeCells n s.crl
    let e := getQ c1 q
    let c2 := setQ q { e with held := e.held + n } c1
    let s1 := { s with crl := c2 }
    some (cells, raiseIf (decide (0 < headroom s.crl) && headroom c2 == 0) 118 s1)
  else none

/-- Store bytes in the cells of a packet, 64 per cell (R196). -/
def fillCells : List Nat → List Byte → SMap Byte → SMap Byte
  | [], _, m => m
  | c :: cs, bs, m => fillCells cs (bs.drop 64) (msetList 0 (c * 64) (bs.take 64) m)

/-- Release cells that queue `q` owns: they join the free list (R198). -/
def releaseCells (q : Nat) (cells : List Nat) (s : State) : State :=
  let e := getQ s.crl q
  let c := setQ q { e with held := e.held - cells.length } s.crl
  { s with crl := { c with free := c.free ++ cells, uncovered := c.uncovered - cells.length } }

/-- Cells of a packet of `n` bytes (R196); a read of no byte still needs its descriptor cell. -/
def cellsFor (n : Nat) : Nat := max 1 ((n + 63) / 64)

/-- Link a packet at the tail of list `q`. -/
def linkPkt (q : Nat) (p : Pkt) (s : State) : State :=
  let s := useList q s
  let e := getQ s.crl q
  { s with crl := setQ q { e with pkts := e.pkts ++ [p] } s.crl }

/-- The packets of list `q`. -/
def listPkts (s : State) (q : Nat) : List Pkt := (getQ s.crl q).pkts

/-- Put new packets on list `q`. -/
def setPkts (q : Nat) (ps : List Pkt) (s : State) : State :=
  let e := getQ s.crl q
  { s with crl := setQ q { e with pkts := ps } s.crl }

/-- An operation whose packet a reset of list `q` has caught has ended by itself: its packet, the list's oldest, is lost to nobody (R213). -/
def dropLost (q : Nat) (s : State) : State :=
  { s with crl := { s.crl with
    lostPkts := s.crl.lostPkts.eraseP fun e => e.1 == q,
    nextPkts := if s.crl.lostPkts.any fun e => e.1 == q then s.crl.nextPkts else s.crl.nextPkts.eraseP fun e => e.1 == q } }

/-- Drop the head packet of list `q` and release its cells to their owner. -/
def popPkt (q : Nat) (s0 : State) : State :=
  let s := useList q s0
  match listPkts s q with
  | [] => dropLost q s
  | p :: ps => releaseCells p.owner p.cells (setPkts q ps s)

/-! Arbiters among beats (R215 to R219) -/

/-- Ranks of PRIO_SCHED in effect (Table 7.21), by the place of the field. -/
def schedRank (s : State) (lo : Nat) : Nat := bitsOf s.crl.prioSched.toNat (lo + 2) lo

/-- Ranks of an immediate priority register (Table 7.20), by the places of its fields. -/
def immRanks (s : State) (off : Nat) (los : List Nat) : List Nat := los.map fun l => getFld s .arb off (l + 2) l

/-- A request of the scheduled path or of the voted output that may lose an arbitration among the beats of a command, which no command
orders: whether it lost and was parked is free (R217, R218; DESIGN CHOICE, log entry 4). -/
def contend (may : Bool) (s : State) : State :=
  if may then raiseIf ((freeVal s).getLsbD 0) 125 (tookFree s) else s

/-- A requester of at least rank `own`, against which a request of that rank may lose. -/
def outranks (own : Nat) (others : List Nat) : Bool := others.any fun r => decide (own ≤ r)

/-- The scheduled path may lose at an image bank or at the Creel's write port. -/
def schedMayLose (s : State) : Bool :=
  outranks (schedRank s 4) (immRanks s 0x048 [0, 4, 8, 12]) ||
    outranks (schedRank s 8) (schedRank s 12 :: immRanks s 0x050 [0, 4, 8])

/-- The commit engine may lose at an image bank. -/
def commitMayLose (s : State) : Bool := outranks (schedRank s 12) (schedRank s 8 :: immRanks s 0x050 [0, 4, 8])

/-- The Loom may lose at a ring transmit path. -/
def txMayLose (s : State) : Bool := outranks (schedRank s 16) (immRanks s 0x054 [0, 4, 8, 12])

/-- The depth of a pending queue that no command fixes: `f` bounds it (DESIGN CHOICE, log entry 4). -/
def pendDepth (f : Nat) : Nat := min 16 (f % 32)

/-! Memory errors (R64, R214, R232, R272, R418, R419) -/

/-- Whether a word of a memory of Table 15.2 holds an error; true is uncorrectable. -/
def eccOf (s : State) (m w : Nat) : Option Bool := (s.tap.ecc.find? fun e => e.1 == m * 2 ^ 24 + w).map (·.2)

/-- Count a memory error in the log of R419. -/
def countEcc (m w : Nat) (uncorr : Bool) (s : State) : State :=
  let i := 4 * m + (if uncorr then 1 else 0)
  let e := mset 0 i (mget 0 s.evh.memErr i + 1) s.evh.memErr
  let e1 := mset 0 (4 * m + 2) (BitVec.ofNat 32 (bnat uncorr * 2 ^ 31 + w % 2 ^ 23)) e
  let s1 := { s with evh := { s.evh with memErr := e1 } }
  if m = 0 ∧ !uncorr then incReg .img 0x060 1 s1 else s1

/-- A reader meets the words `lo` to `hi − 1` of memory `m`: errors are counted, corrected ones are gone. -/
def readEcc (m lo hi : Nat) (s : State) : State :=
  (s.tap.ecc.filter fun e => decide (m * 2 ^ 24 + lo ≤ e.1) && decide (e.1 < m * 2 ^ 24 + hi)).foldl
    (fun s e =>
      let s1 := countEcc m (e.1 - m * 2 ^ 24) e.2 s
      if e.2 then s1 else { s1 with tap := { s1.tap with ecc := merase e.1 s1.tap.ecc } }) s

/-- Whether some of the words `lo` to `hi − 1` of memory `m` is uncorrectable. -/
def uncorrIn (s : State) (m lo hi : Nat) : Bool :=
  s.tap.ecc.any fun e => e.2 && decide (m * 2 ^ 24 + lo ≤ e.1) && decide (e.1 < m * 2 ^ 24 + hi)

/-- The words of memory 6 of Table 15.2, eight a cell, that hold bytes `lo` to `lo + n − 1` of a packet. -/
def pktWords (p : Pkt) (lo n : Nat) : List Nat :=
  ((List.range n).map fun i => p.cells.getD ((lo + i) / 64) 16384 * 8 + (lo + i) % 64 / 8).eraseDups

/-- Some of the cell words is uncorrectable (R214). -/
def wordsBad (s : State) (ws : List Nat) : Bool := ws.any fun w => uncorrIn s 6 w (w + 1)

/-- A consumer reads cell words: errors are counted (R214, R419). -/
def meetWords (ws : List Nat) (s : State) : State := ws.foldl (fun s w => readEcc 6 w (w + 1) s) s

/-- The bytes of a packet as its consumer reads them, and whether a word was bad. -/
def pktBad (s : State) (p : Pkt) : Bool := wordsBad s (pktWords p 0 p.data.length)

end Sys2Proof.Machine
end

