-- ==== Sys2Proof/Machine/Weave.lean ====
section
/-!
DEFINITION. Reading a Weave set: sections, Ephemeris entries, partition, record lists, signal map, RING and TIMING
sections (R239 to R242, Tables 9.1, 9.11, 10.9, 6.18).
-/

namespace Sys2Proof.Machine

open Sys2Proof

/-- Section types of Table 8.5; 0 is the header and directory. -/
def secBase (t : Nat) : Nat := t * 2 ^ 20

/-- A byte of a section. -/
def wbyte (w : WSet) (t off : Nat) : Byte := mget 0 w.mem (secBase t + off)
/-- `n` bytes of a section. -/
def wbytes (w : WSet) (t off n : Nat) : List Byte := mgetList 0 w.mem (secBase t + off) n
/-- `n` little-endian bytes of a section as a number. -/
def wnat (w : WSet) (t off n : Nat) : Nat := natLE (wbytes w t off n)
/-- A 32-bit word of a section. -/
def wword (w : WSet) (t off : Nat) : Nat := wnat w t off 4
/-- LENGTH of a section; 0 when the image has none. -/
def wlen (w : WSet) (t : Nat) : Nat := mget 0 w.len t

/-- An empty set: every destination zero, no header (R245). -/
def wsetEmpty : WSet :=
  { mem := [], len := [], hasHdr := false, src := 0, modified := false, check := .none, rule := 0, index := 0 }

/-- An active Weave is present (R226). -/
def activePresent (s : State) : Bool := s.lom.act.src != 0 || s.lom.volatile

/-- Pattern entry `i`, 128 bits (R62). -/
def patEntry (w : WSet) (i : Nat) : Nat := wnat w 1 (16 * i) 16
/-- Ephemeris entry `i`, 128 bits (R227). -/
def ephEntry (w : WSet) (i : Nat) : Nat := wnat w 2 (64 + 16 * i) 16
/-- Word `j` of the Ephemeris header (Table 8.6). -/
def ephHdr (w : WSet) (j : Nat) : Nat := wword w 2 (4 * j)
/-- PERIOD, in 10 ns. -/
def ephPeriod (w : WSet) : Nat := bitsOf (ephHdr w 0) 23 0
/-- COUNT. -/
def ephCount (w : WSet) : Nat := bitsOf (ephHdr w 1) 14 0

/-- Header fields of Table 8.4. -/
def hdrSched (w : WSet) : Nat := if w.hasHdr then wnat w 0 0x08 4 else 0
/-- SAFETY_SIG. -/
def hdrSafety (w : WSet) : Nat := wnat w 0 0x0C 4
/-- FLAGS.RING. -/
def hdrRing (w : WSet) : Bool := bitsOf (wnat w 0 0x12 2) 0 0 == 1
/-- FLAGS.COLD_ONLY. -/
def hdrColdOnly (w : WSet) : Bool := bitsOf (wnat w 0 0x12 2) 1 1 == 1
/-- NODE. -/
def hdrNode (w : WSet) : Nat := wnat w 0 0x1B 1

/-- An Ephemeris entry, taken apart (Tables 8.1 and 8.2). -/
structure Eph where
  valid : Bool
  kind : Nat
  rep : Nat
  phase : Nat
  safety : Bool
  time : Nat
  lateLim : Nat
  bits : Nat
  deriving DecidableEq, Repr

/-- The entry whose 128 bits are `e`. -/
def ephOf (e : Nat) : Eph :=
  { valid := bitsOf e 0 0 == 1, kind := bitsOf e 3 1, rep := bitsOf e 6 4, phase := bitsOf e 14 8,
    safety := bitsOf e 15 15 == 1, time := bitsOf e 55 32, lateLim := bitsOf e 63 56, bits := e }

/-- A field of the entry's kind-specific bits. -/
def Eph.f (e : Eph) (hi lo : Nat) : Nat := bitsOf e.bits hi lo

/-- Entry `i` of a set. -/
def ephAt (w : WSet) (i : Nat) : Eph := ephOf (ephEntry w i)

/-- The entry is due in Loom cycle `c` (R227). -/
def ephDue (e : Eph) (c : Nat) : Bool := e.valid && c % 2 ^ e.rep == e.phase

/-- A word of the partition header (Table 9.1). -/
def part (w : WSet) (i : Nat) : Nat := wword w 6 (4 * i)
def inBase (w : WSet) : Nat := part w 0
def inLen : WSet → Nat := (part · 1)
def stgBase (w : WSet) : Nat := part w 2
def voutBase (w : WSet) : Nat := part w 3
def voutLen : WSet → Nat := (part · 4)
def retBase (w : WSet) : Nat := part w 5
def retLen : WSet → Nat := (part · 6)
def lslBase (w : WSet) : Nat := part w 7
def lslLen : WSet → Nat := (part · 8)
def genBase (w : WSet) : Nat := part w 9
def genLen : WSet → Nat := (part · 10)

/-- An entry of the INIT list (Table 9.11): REC, RLEN, AREA, DATA. -/
structure InitRec where
  recOff : Nat
  rlen : Nat
  area : Nat
  data : Bool
  deriving DecidableEq, Repr

/-- INIT list entry `i`. -/
def initRec (w : WSet) (i : Nat) : InitRec :=
  let e := wnat w 6 (64 + 8 * i) 8
  ⟨bitsOf e 19 0, bitsOf e 35 20, bitsOf e 38 36, bitsOf e 39 39 == 1⟩

/-- The INIT list. -/
def initList (w : WSet) : List InitRec := (List.range (part w 11)).map (initRec w)

/-- The output list: REC, RLEN, RETAIN, RET_OFF (Table 9.11). -/
def outList (w : WSet) : List (Nat × Nat × Bool × Nat) :=
  (List.range (wword w 7 0)).map fun i =>
    let e := wnat w 7 (8 + 8 * i) 8
    (bitsOf e 19 0, bitsOf e 35 20, bitsOf e 36 36 == 1, bitsOf e 54 37)

/-- The initial data of INIT list entry `i`: its bytes in the data part, zeros without DATA (R286). -/
def initData (w : WSet) (i : Nat) : List Byte :=
  let start := 64 + 8 * part w 11 +
    (((initList w).take i).map fun r => if r.data then (r.rlen + 7) / 8 * 8 else 0).foldl (· + ·) 0
  let r := initRec w i
  if r.data then wbytes w 6 start r.rlen else List.replicate r.rlen 0

/-- The INIT list index of the record with offset `rec` in one of the areas `as`. -/
def findInit (w : WSet) (as : List Nat) (rec : Nat) : Option Nat :=
  (initList w).findIdx? fun r => r.recOff == rec && as.contains r.area

/-- Signal map entry `i` (Table 9.6). -/
def sigEntry (w : WSet) (i : Nat) : Nat := wnat w 3 (8 * i) 8

/-- FCAP permits forcing of signal map index `i` (R273). -/
def fcapBit (w : WSet) (i : Nat) : Bool :=
  wlen w 4 != 0 && (wbyte w 4 (i / 8)).getLsbD (i % 8)

/-- A signal ID resolves in a set: REC, BIT, WIDTH (bits minus 1), OUT (R273). -/
def resolveSig (w : WSet) (sig : Nat) : Option (Nat × Nat × Nat × Bool) :=
  let e := sigEntry w (sig % 65536)
  if bitsOf e 47 47 = 1 ∧ bitsOf e 63 48 = sig / 65536 then
    some (bitsOf e 19 0, bitsOf e 39 20, bitsOf e 45 40, bitsOf e 46 46 == 1)
  else none

/-- The route of event `n` in the EVR section (R343). -/
def evrRoute (w : WSet) (n : Nat) : Nat := if 16 * n + 16 ≤ wlen w 8 then wword w 8 (16 * n) else 0

/-! The RING section (Table 10.9) -/

/-- Header word of the RING section. -/
def ringHdr (w : WSet) (i : Nat) : Nat := wword w 9 (4 * i)
def ringNodes (w : WSet) : Nat := bitsOf (ringHdr w 0) 6 0
def ringColdOk (w : WSet) : Bool := bitsOf (ringHdr w 0) 8 8 == 1
def ringSlots (w : WSet) : Nat := bitsOf (ringHdr w 0) 25 16
def ringPrec (w : WSet) : Nat := bitsOf (ringHdr w 1) 7 0
def ringRemTimeout (w : WSet) : Nat := bitsOf (ringHdr w 2) 7 0
def ringRelays (w : WSet) : Nat := bitsOf (ringHdr w 3) 9 0
/-- ORDER, without the trailing zeros. -/
def ringOrder (w : WSet) : List Nat := ((wbytes w 9 64 64).map (·.toNat)).filter (· != 0)
/-- The standby of node `n`, or 0. -/
def ringStandby (w : WSet) (n : Nat) : Nat := if n = 0 then 0 else (wbyte w 9 (128 + (n - 1))).toNat
/-- Slot table entry `k`. -/
def ringSlot (w : WSet) (k : Nat) : Nat := wnat w 9 (256 + 8 * k) 8
def slotStartBT (w : WSet) (k : Nat) : Nat := bitsOf (ringSlot w k) 25 0
def slotMaxLen (w : WSet) (k : Nat) : Nat := bitsOf (ringSlot w k) 36 26 + 1
def slotOwner (w : WSet) (k : Nat) : Nat := bitsOf (ringSlot w k) 43 37
def slotCrit (w : WSet) (k : Nat) : Bool := bitsOf (ringSlot w k) 44 44 == 1
def slotRings (w : WSet) (k : Nat) : Nat := bitsOf (ringSlot w k) 46 45
/-- Relay entry `j`: RING_RX entry index, output REC. -/
def relayEntry (w : WSet) (j : Nat) : Nat × Nat :=
  let e := wnat w 9 (256 + 8 * ringSlots w + 8 * j) 8
  (bitsOf e 13 0, bitsOf e 33 14)
/-- The relay records of a set. -/
def relayList (w : WSet) : List (Nat × Nat) := (List.range (ringRelays w)).map (relayEntry w)
/-- The guard G in BT (R298). -/
def guardBT (w : WSet) : Nat := max 50 ((10 * (2 * ringPrec w + 80) + 31) / 32 + 9)

/-! The TIMING section (Table 6.18) -/

/-- Start of the part of segment `g`. -/
def timBase (g : Seg) : Nat := 0x10 + 416 * g.val
/-- CR_LEN of a segment. -/
def crLen (w : WSet) (g : Seg) : Nat := wword w 10 (4 * g.val)
/-- Word `i` of indirect space 0x0, timing profiles. -/
def profWord (w : WSet) (g : Seg) (i : Nat) : Nat := wword w 10 (timBase g + 4 * i)
/-- Word `i` of indirect space 0x1, slave windows. -/
def winWord (w : WSet) (g : Seg) (i : Nat) : Nat := wword w 10 (timBase g + 128 + 4 * i)
/-- Word `i` of indirect space 0x2, handler words. -/
def hdlWord (w : WSet) (g : Seg) (i : Nat) : Nat := wword w 10 (timBase g + 384 + 4 * i)
/-- CR byte `j` (R442). -/
def crByte (w : WSet) (g : Seg) (j : Nat) : Byte :=
  if j < crLen w g then wbyte w 10 (0x350 + (if g = 1 then crLen w 0 else 0) + j) else 0

/-- A field of timing profile `p` of a segment (Table 6.2). -/
def profField (w : WSet) (g : Seg) (p word hi lo : Nat) : Nat := bitsOf (profWord w g (4 * p + word)) hi lo

/-- A slave window (Table 6.6). -/
structure Win where
  valid : Bool
  fwd : Bool
  wrEn : Bool
  rdEn : Bool
  bltEn : Bool
  mbltEn : Bool
  rmwEn : Bool
  pat : Nat
  base : Nat
  size : Nat
  space : Nat
  super : Bool
  user : Bool
  prog : Bool
  areaOut : Bool
  recOff : Nat
  deriving DecidableEq, Repr

/-- Slave window `j` of a segment. -/
def winAt (w : WSet) (g : Seg) (j : Nat) : Win :=
  let a := winWord w g (4 * j)
  let c := winWord w g (4 * j + 2)
  let d := winWord w g (4 * j + 3)
  let b (x i : Nat) : Bool := bitsOf x i i == 1
  { valid := b a 0, fwd := b a 1, wrEn := b a 2, rdEn := b a 3, bltEn := b a 4, mbltEn := b a 5, rmwEn := b a 6,
    pat := bitsOf a 31 16, base := winWord w g (4 * j + 1), size := bitsOf c 4 0, space := bitsOf c 9 8,
    super := b c 10, user := b c 11, prog := b c 12, areaOut := b d 0, recOff := bitsOf d 19 1 }

/-! Routes in effect (R343) -/

/-- The route of event `n`: the override, else the EVR entry of the active Weave, else empty. -/
def routeOf (s : State) (n : Nat) : Nat :=
  let o := (mget 0 s.evh.routes n).toNat
  if bitsOf o 31 31 = 1 then o else if activePresent s then evrRoute s.lom.act n else 0

end Sys2Proof.Machine
end

