-- ==== Sys2Proof/Machine/Flags.lean ====
section
/-!
DEFINITION. What the occurrence of an event does (chapters 12 and 15): counters, sampling counters, EVENT bits and SEQ,
routing to MSI-X and interrupter levels, the log record, the time capture, and the waking of CORE.

Every meaning ends in `settle`, which delivers the occurrences the command raised.
-/

namespace Sys2Proof.Machine

open Sys2Proof

/-- Events that are logged at every occurrence (Table 12.4, R347, R418). -/
def alwaysLogged (ev : Nat) : Bool :=
  [8, 9, 15, 51, 70, 78, 79, 82, 98, 87, 103, 88, 104, 90, 106, 114, 132, 135, 136, 139, 141, 142, 185, 188, 255,
   231].contains ev

/-- EVENT_EN of the event's bit; events without a page are not gated (R341, R342). -/
def eventEnabled (s : State) (ev : Nat) : Bool :=
  match eventPage ev with
  | some (k, b) => bitAt (getReg s k 0x014) b
  | none => true

/-- The occurrences of this core cycle keep the routes and EVENT_EN bits of `was`, which a write, an update or a switch of the same cycle changes
(Table 12.5). -/
def pinRoutes (was s : State) : State :=
  { s with evh := { s.evh with
    occ := s.evh.occ.map fun o => { o with pin := o.pin.or (some (routeOf was o.ev, eventEnabled was o.ev)) } } }

/-- Count an occurrence (R411). -/
def countEvent (ev : Nat) (s : State) : State :=
  let v := mget 0 s.evh.cnt ev + 1
  if v = 2 ^ 48 then
    let j := ev / 32
    raise 230 { s with evh := { s.evh with
      cnt := mset 0 ev 0 s.evh.cnt,
      ecOvf := mset 0 j (mget 0 s.evh.ecOvf j ||| BitVec.ofNat 32 (2 ^ (ev % 32))) s.evh.ecOvf } }
  else { s with evh := { s.evh with cnt := mset 0 ev v s.evh.cnt } }

/-- The overflow record of sampling counter `i` (R416, Table 15.9). -/
def ovfRecord (i : Nat) (s : State) : SMap Word :=
  let w0 : Nat := 2 ^ 31 + (match s.lom.lastEntry with | some e => e % 2 ^ 14 | none => 2 ^ 30)
  let m := mset 0 (4 * i) (BitVec.ofNat 32 w0) s.evh.ovfRec
  let m := mset 0 (4 * i + 1) s.lom.cycle m
  let m := mset 0 (4 * i + 2) (timeFrac s) m
  mset 0 (4 * i + 3) (timeSec s) m

/-- Sampling counter `i` sees an occurrence (R413). -/
def sampleOne (ev i : Nat) (s : State) : State :=
  let sel := getReg s .cnt (0x080 + 4 * i)
  if bitAt sel 31 && fieldOf sel 7 0 == ev then
    let v := mget 0 s.evh.sc i + 1
    if v = 2 ^ 48 then
      let again := bitAt s.evh.scOvf i
      let w := s.evh.scOvf ||| BitVec.ofNat 32 (2 ^ i) ||| (if again then BitVec.ofNat 32 (2 ^ (16 + i)) else 0)
      raise (232 + i / 2) { s with evh := { s.evh with
        sc := mset 0 i 0 s.evh.sc, scOvf := w, ovfRec := ovfRecord i s } }
    else { s with evh := { s.evh with sc := mset 0 i v s.evh.sc } }
  else s

/-- Every sampling counter sees an occurrence. -/
def sample (ev : Nat) (s : State) : State := (List.range 16).foldl (fun s i => sampleOne ev i s) s

/-- Occurrences of one event in one core cycle are one occurrence (R342); the first gives the details. -/
def dedupe : List Occ → List Occ
  | [] => []
  | o :: os => o :: (dedupe os).filter fun p => !(p.ev == o.ev && p.cyc == o.cyc)

/-- The sampling counters see the occurrences of this core cycle before a write changes what they count (R414). -/
def sampleNow (s : State) : State :=
  (dedupe (s.evh.occ.filter fun o => !o.sampled)).foldl (fun s o => sample o.ev s)
    { s with evh := { s.evh with occ := s.evh.occ.map fun o => { o with sampled := true } } }

/-- A write of sampling counter `i` (R413): an increment of the same core cycle counts after it, and sets OVF if the old value wrapped (R415). -/
def writeSc (i v : Nat) (s : State) : State :=
  let s1 := (dedupe (s.evh.occ.filter fun o => !o.sampled)).foldl (fun s o => sampleOne o.ev i s) s
  { s1 with evh := { s1.evh with sc := mset 0 i (v % 2 ^ 48) s1.evh.sc } }

/-- The EVENT bit of an occurrence sets (R18, Table 2.4). -/
def setEventBit (ev : Nat) (s : State) : State :=
  match eventPage ev with
  | some (k, b) =>
    { s with evh := { s.evh with
      event := mset 0 k.num (mget 0 s.evh.event k.num ||| BitVec.ofNat 32 (2 ^ b)) s.evh.event } }
  | none => s

/-- SEQ of a page advances by one (Table 2.4). -/
def bumpSeq (page : Nat) (s : State) : State :=
  { s with evh := { s.evh with event := mset 0 page (mget 0 s.evh.event page + 0x01000000#32) s.evh.event } }

/-- A port that sends and takes messages: D0 and link up (R110, R118). -/
def portAwake (s : State) (p : Port) : Bool := s.port[p].dlUp && !d3hot s p

/-- The MSI-X message of vector `v` of port `p` is called for (R110, R111, R344). The table words are held with
default 1 for Vector Control and 0 for the others. -/
def msixWord (s : State) (p : Port) (v j : Nat) : Word :=
  mget (if j = 3 then 1 else 0) s.msix[p].table (4 * v + j)

/-- Send the message of vector `v`, behind the TLPs issued before it. -/
def msixSend (p : Port) (v : Nat) (s : State) : State :=
  let a := (msixWord s p v 0).toNat + (msixWord s p v 1).toNat * 2 ^ 32
  let t : PTlp := ⟨a / 4 * 4, bytesLE 4 (msixWord s p v 2).toNat⟩
  sendTlp p (2 + v) t (modMsix p (fun m => { m with outstanding := m.outstanding ++ [v] }) s)

/-- An occurrence calls for vector `v` at port `p` (R110, R344). -/
def msixCall (p : Port) (v : Nat) (s : State) : State :=
  if s.msix[p].outstanding.contains v then s
  else if !msixEn s p then s
  else if !msixMay s p v then
    modMsix p (fun m => { m with pba := mset false v true m.pba }) s
  else msixSend p v s

/-- Deliver vector `v` to every eligible port (R344). -/
def msixAll (v : Nat) (s : State) : State :=
  if 255 ≤ v then s
  else allPorts.foldl (fun s p => if s.ch[p].st.inService then msixCall p v s else s) s

/-- Event `ev` becomes pending at a level of a segment (R346). -/
def addLevel (g level ev : Nat) (s : State) : State :=
  if level = 0 ∨ s.evh.levels.contains (g, level, ev) then s
  else { s with evh := { s.evh with levels := s.evh.levels ++ [(g, level, ev)] } }

/-- A record is lost (R350); the loss of a LOG_LOST record raises no further occurrence. -/
def loseRecord (ev : Nat) (s : State) : State :=
  let s1 := { s with evh := { s.evh with lost := (s.evh.lost + 1) % 65536, lostNext := s.evh.lostNext + 1 } }
  if ev = 227 then s1 else raise 227 s1

/-- The bytes of a log record while it waits: SEQ, FLAGS, LOST and CRC follow at its storage (Table 12.3, R348). -/
def recordBytes (o : Occ) : List Byte :=
  bytesLE 4 0 ++ bytesLE 8 o.time.toNat ++ [BitVec.ofNat 8 o.ev, 0] ++ bytesLE 2 0 ++
    bytesLE 4 o.loom.toNat ++ bytesLE 4 o.d0.toNat ++ bytesLE 4 o.d1.toNat ++
    bytesLE 4 0

/-- The EVLOG packet that a record opens. -/
def evlogPkt (cells : List Nat) (bs : List Byte) : Pkt :=
  { owner := 26, cells := cells, eop := false, epoch := 0, cy := 0, src := 9, pat := 0, off := 0, len := 32, aux := 0, data := bs,
    en := [], isRead := false, trunc := false, cont := false, poison := false, sent := 0, patE := 0, origin := .mailbox }

/-- Add a record to the EVLOG queue, two per cell (R347, R350). LOG_START goes before every record that waits (R351). -/
def logRecord (o : Occ) (s : State) : State :=
  let bs := recordBytes o
  let s := useList 26 s
  match (if o.ev = 255 then none else (listPkts s 26).getLast?) with
  | some p =>
    if p.eop then
      match claim 26 1 s with
      | some (cells, s1) => linkPkt 26 (evlogPkt cells bs)
          { s1 with crl := { s1.crl with cell := fillCells cells bs s1.crl.cell } }
      | none => loseRecord o.ev s
    else
      let p2 := { p with data := p.data ++ bs, eop := true, len := 64 }
      let s1 := setPkts 26 ((listPkts s 26).dropLast ++ [p2]) s
      { s1 with crl := { s1.crl with cell := fillCells p2.cells p2.data s1.crl.cell } }
  | none =>
    match claim 26 1 s with
    | some (cells, s1) =>
      let first := { evlogPkt cells bs with eop := o.ev == 255 }
      setPkts 26 (first :: listPkts s1 26) { s1 with crl := { s1.crl with cell := fillCells cells bs s1.crl.cell } }
    | none => loseRecord o.ev s

/-- The time capture of R336: the device time at which the event occurred, so before a step that the same command makes (Table 11.3). -/
def captureTime (o : Occ) (s : State) : State :=
  let sel := getReg s .mer 0x060
  if bitAt sel 31 && fieldOf sel 7 0 == o.ev && o.ev != 202 && o.ev != 203 then
    let s1 := raise 202 { s with evh := { s.evh with
      capTime := o.time, capUnread := true, capOvr := s.evh.capOvr || s.evh.capUnread } }
    if s.evh.capUnread then raise 203 s1 else s1
  else s

/-- Wake CORE in HOLD or LISTEN (R370): cause number of WAKE_STAT.LAST, sticky bit. Each awake period sets PSTATE_CHG
once. CORE still runs while a transition out of RUN lasts (Table 13.7). -/
def wakeCore (cause bit : Nat) (s : State) : State :=
  if (s.pwr.st == .hold || s.pwr.st == .listen) && !s.pwr.awake && !s.pwr.fromRun then
    raise 5 { s with pwr := { s.pwr with awake := true, wakeLast := cause, wakeBits := s.pwr.wakeBits ||| 2 ^ bit } }
  else s

/-- One occurrence: counted whatever its route, then delivered, logged and captured (R342 to R347). -/
def deliver (o : Occ) (s : State) : State :=
  let r := (o.pin.map (·.1)).getD (routeOf s o.ev)
  let s1 := countEvent o.ev s
  let s := captureTime o (setEventBit o.ev (if o.sampled then s1 else sample o.ev s1))
  let s :=
    if (o.pin.map (·.2)).getD (eventEnabled s o.ev) then
      addLevel 1 (bitsOf r 14 12) o.ev (addLevel 0 (bitsOf r 11 9) o.ev
        (if bitsOf r 8 8 = 1 then msixAll (bitsOf r 7 0) s else s))
    else s
  if alwaysLogged o.ev || bitsOf r 15 15 == 1 then logRecord o s else s

/-- The pages, with the core cycle, in which a list of occurrences sets EVENT bits, each once. -/
def pagesSet (os : List Occ) : List (Nat × Nat) :=
  (os.filterMap fun o => (eventPage o.ev).map fun e => (e.1.num, o.cyc)).eraseDups

/-- One wave of occurrences: those raised so far are delivered; their consequences wait for the next wave. -/
def wave (s : State) : State :=
  let os := dedupe s.evh.occ
  let s0 := { s with evh := { s.evh with occ := [], sub := s.evh.sub + 1 } }
  let s1 := (pagesSet os).foldl (fun s e => bumpSeq e.1 s) s0
  os.foldl (fun s o => deliver o s) s1

/-- Waves until no occurrence is left; each counter and sampling counter can overflow at most once, which bounds them. -/
def waves : Nat → State → State
  | 0, s => { s with evh := { s.evh with occ := [] } }
  | n + 1, s => if s.evh.occ.isEmpty then s else waves n (wave s)

/-- Deliver every occurrence the command raised; in reset CORE does not run and none is delivered. A PSTATE_CHG alone
wakes nothing. Only the event hub, the Creel, CORE's wake state, the MSI-X tables, the transmit queues, the link states and the
outputs change. -/
def settle (s : State) : State :=
  let s := if s.pwr.boot == .inReset then { s with evh := { s.evh with occ := [] } } else s
  let w := waves 300 (if s.evh.occ.all (fun o => o.ev == 5) then s else wakeCore 3 5 s)
  { s with evh := { w.evh with occ := [], sub := 0 }, crl := w.crl, pwr := w.pwr, msix := w.msix, tx := w.tx,
           port := w.port, out := w.out }

/-- Run the effect of a command: the outputs of the last step are gone, the occurrences are delivered. -/
def run (f : State → State) (s : State) : Host.Outcome State Fault Refusal :=
  .next (settle (f { s with out := [] }))

end Sys2Proof.Machine
end

