-- ==== Sys2Proof/Machine/Image.lean ====
section
/-!
DEFINITION. The process image and the controller (chapter 9): record headers, input slots, forces, the voted output
image and its safe presentation, commit runs, freezes, the watchdog and the STOPPED state.
-/

namespace Sys2Proof.Machine

open Sys2Proof

/-! Record headers (R260 to R262) -/

/-- A stored record header: acquisition age, flags, source node, cycle (Table 9.3). -/
def mkHdr (a flags src cyc : Nat) : Nat := a % 65536 + (flags % 256) * 2 ^ 16 + (src % 256) * 2 ^ 24 + (cyc % 2 ^ 32) * 2 ^ 32

/-- AGE as a reader sees it: A plus the Loom cycles since CYCLE, saturating (R262). -/
def presentAge (a cyc l : Nat) : Nat := min 0xFFFF (a + (l + 2 ^ 32 - cyc % 2 ^ 32) % 2 ^ 32)

/-- A stored header with its AGE presented in Loom cycle `l`. -/
def presentHdr (h l : Nat) : Nat := withBits h 15 0 (presentAge (bitsOf h 15 0) (bitsOf h 63 32) l)

/-- FLAGS of a header. -/
def hdrFlags (h : Nat) : Nat := bitsOf h 23 16

/-- The Loom cycle as a number. -/
def cyc (s : State) : Nat := s.lom.cycle.toNat

/-- Image bytes as stored. -/
def imgBytes (s : State) (off n : Nat) : List Byte := mgetList 0 s.img.mem off n
/-- The 8-byte word at an image offset. -/
def imgHdr (s : State) (off : Nat) : Nat := natLE (imgBytes s off 8)
/-- Store image bytes. -/
def putImg (off : Nat) (bs : List Byte) (s : State) : State :=
  { s with img := { s.img with mem := msetList 0 off bs s.img.mem } }

/-- Store a record: data first, then the header (R263). -/
def putRec (off : Nat) (hdr : Nat) (data : List Byte) (s : State) : State :=
  putImg off (bytesLE 8 hdr) (putImg (off + 8) data s)

/-- Set or clear bits of FLAGS in a stored header. -/
def putFlags (off set clear : Nat) (s : State) : State :=
  let h := imgHdr s off
  putImg off (bytesLE 8 (withBits h 23 16 ((hdrFlags h &&& (255 - clear)) ||| set))) s

/-! Flag bits of Table 9.4 -/
def fSTALE : Nat := 1
def fINCOMPLETE : Nat := 2
def fFORCED : Nat := 4
def fSUBST : Nat := 8
def fREMLOST : Nat := 16
def fSAFE : Nat := 32
def fCONT : Nat := 64
def fERROR : Nat := 128

/-! Forces (R273 to R277) -/

/-- Word `j` of force table entry `i`. -/
def frcWord (s : State) (i j : Nat) : Word := mget 0 s.frc.tab (4 * i + j)
/-- Word `j` of the force in effect of entry `i` (Table 9.23). -/
def frcEff (s : State) (i j : Nat) : Nat := (mget 0 s.frc.eff (4 * i + j)).toNat
/-- Store a word of the force table. -/
def putFrc (i j : Nat) (w : Word) (s : State) : State :=
  { s with frc := { s.frc with tab := mset 0 (4 * i + j) w s.frc.tab } }
/-- Store a word of the forces in effect. -/
def putEff (i j : Nat) (w : Word) (s : State) : State :=
  { s with frc := { s.frc with eff := mset 0 (4 * i + j) w s.frc.eff } }

/-- The ACTIVE force table entries, ascending. -/
def activeForces (s : State) : List Nat :=
  (s.frc.tab.filter fun e => e.1 % 4 == 1 && bitAt e.2 0).map fun e => e.1 / 4

/-- Replace `w` bits from bit `b` of a byte string by the low bits of `v` (R273). -/
def setBitsLE (bs : List Byte) (b w v : Nat) : List Byte :=
  let n := natLE bs
  let field := (v % 2 ^ w) * 2 ^ b
  bytesLE bs.length (n - (n / 2 ^ b % 2 ^ w) * 2 ^ b + field)

/-- Apply the forces of a record to its data: the data, and whether any applied (R276). -/
def applyForces (s : State) (out : Bool) (rec : Nat) (data : List Byte) : List Byte × Bool :=
  ((activeForces s).filter fun i => bitAt (frcWord s i 1) 1 == out && frcEff s i 2 == rec).foldl
    (fun acc i =>
      (setBitsLE acc.1 (bitsOf (frcEff s i 3) 19 0) (bitsOf (frcEff s i 3) 25 20 + 1)
        (frcEff s i 0 + frcEff s i 1 * 2 ^ 32), true)) (data, false)

/-! Input slots (R263) -/

/-- Slot state of an INIT list entry after a restart: slot 0 newest, none frozen, none being written. -/
def slotInit : Nat := 60
def slotOf (s : State) (i : Nat) : Nat := mget slotInit s.img.slot i
def slotNewest (s : State) (i : Nat) : Nat := bitsOf (slotOf s i) 1 0
def slotFrozen (s : State) (i : Nat) : Nat := bitsOf (slotOf s i) 3 2
/-- Image offset of slot `k` of an input record. -/
def slotAddr (w : WSet) (rec k : Nat) : Nat := rec * 8 + k * inLen w
/-- The lowest-numbered slot that is neither newest complete nor frozen. -/
def slotFree (s : State) (i : Nat) : Nat :=
  ([0, 1, 2].find? fun k => k != slotNewest s i && k != slotFrozen s i).getD 2
/-- Store the slot state of an INIT list entry. -/
def putSlot (i v : Nat) (s : State) : State :=
  { s with img := { s.img with slot := mset slotInit i v s.img.slot } }

/-- Write an input record: a free slot takes the data with the forces applied, then the header, and becomes newest
complete (R263, R276). -/
def writeInput (i : Nat) (data : List Byte) (flags src a cy : Nat) (s : State) : State :=
  let r := initRec s.lom.act i
  let k := slotFree s i
  let (d, forced) := applyForces s false r.recOff data
  let fl := if forced then flags ||| fFORCED else flags
  putSlot i (withBits (slotOf s i) 1 0 k) (putRec (slotAddr s.lom.act r.recOff k) (mkHdr a fl src cy) d s)

/-- Header and data of the newest complete slot of INIT list entry `i`. -/
def newestSlot (s : State) (i : Nat) : Nat × List Byte :=
  let r := initRec s.lom.act i
  let a := slotAddr s.lom.act r.recOff (slotNewest s i)
  (imgHdr s a, imgBytes s (a + 8) r.rlen)

/-! The voted output image and the safe presentation (R269, R281, R316) -/

/-- The relay entry (RING_RX entry index) of an output record, if it is a relay record of the active Weave. -/
def relayOf (s : State) (rec : Nat) : Option Nat :=
  if activePresent s then ((relayList s.lom.act).find? fun e => e.2 == rec).map (·.1) else none

/-- OUT_HOLD.CYCLES in effect (Table 10.18). -/
def outHold (s : State) : Nat := max 1 (getFld s .rng 0x058 7 0)

/-- Whether output record `rec` reads as its SAFE bytes (R281, R316). -/
def safeRec (s : State) (rec : Nat) : Bool :=
  if s.img.ctl == .stopped then true
  else match relayOf s rec with
    | some i => decide (outHold s < mget 0 s.img.relayMiss i)
    | none => s.img.safeShown

/-- Bytes of the SAFE section for an image offset range of the voted output area. -/
def safeBytes (s : State) (off n : Nat) : List Byte := wbytes s.lom.act 5 (off - voutBase s.lom.act) n

/-- Header and data that a reader of output record `rec` sees. -/
def readOut (s : State) (rec rlen : Nat) : Nat × List Byte :=
  if safeRec s rec then (mkHdr 0 fSAFE 0 (cyc s), safeBytes s (rec * 8 + 8) rlen)
  else (presentHdr (imgHdr s (rec * 8)) (cyc s), imgBytes s (rec * 8 + 8) rlen)

/-- Lay the bytes `bs` at offset `a` over a view that starts at `base`. -/
def overlay (base a : Nat) (bs view : List Byte) : List Byte :=
  if a + bs.length ≤ base ∨ base + view.length ≤ a then view
  else
    let b := bs.drop (base - a)
    let pre := a - base
    view.take pre ++ b.take (view.length - pre) ++ view.drop (pre + b.length)

/-- The bytes a reader of the voted output area sees from image offset `off` on. -/
def voutView (s : State) (off n : Nat) : List Byte :=
  let safeAll := s.img.ctl == .stopped || s.img.safeShown
  let v := if safeAll then safeBytes s off n else imgBytes s off n
  (outList s.lom.act).foldl (fun v r =>
    let (h, d) := readOut s r.1 r.2.1
    overlay off (r.1 * 8) (bytesLE 8 h ++ d) v) v

/-- The records of one area of the INIT list with their index. -/
def areaRecs (w : WSet) (area : Nat) : List (Nat × InitRec) :=
  ((List.range (part w 11)).map fun i => (i, initRec w i)).filter fun e => e.2.area == area

/-- Lie `n` bytes from `off` in `[base, base + len)`? -/
def inRange (off n base len : Nat) : Bool := decide (base ≤ off) && decide (off + n ≤ base + len)

/-- One area of the image with the byte range it occupies: 0 input plane 0, 1 plane 1, 2 plane 2, 3 + p staging of CPp,
7 voted output, 8 retain, 9 legacy-slave, 10 general, 11 unassigned (Tables 9.1 and 9.2). -/
def areaOf (w : WSet) (off : Nat) : Nat :=
  if inRange off 1 (inBase w) (inLen w) then 0
  else if inRange off 1 (inBase w + inLen w) (inLen w) then 1
  else if inRange off 1 (inBase w + 2 * inLen w) (inLen w) then 2
  else if inRange off 1 (stgBase w) 0x200000 ∧ w.hasHdr then 3 + (off - stgBase w) / 0x80000
  else if inRange off 1 (voutBase w) (voutLen w) then 7
  else if inRange off 1 (retBase w) (retLen w) then 8
  else if inRange off 1 (lslBase w) (lslLen w) then 9
  else if inRange off 1 (genBase w) (genLen w) then 10
  else 11

/-- The view of a run of image bytes that lies in one area (Table 9.2). During a restart the areas return their bytes
as they stand (R284). -/
def areaView (s : State) (area off n : Nat) : List Byte :=
  let w := s.lom.act
  let aged (recs : List (Nat × InitRec)) (v : List Byte) : List Byte :=
    recs.foldl (fun v e => overlay off (e.2.recOff * 8)
      (bytesLE 8 (presentHdr (imgHdr s (e.2.recOff * 8)) (cyc s))) v) v
  if area = 11 ∨ area = 2 then List.replicate n 0
  else if s.img.restarting then imgBytes s off n
  else if area = 0 ∨ area = 1 then
    (areaRecs w 0).foldl (fun v e =>
      let k := if area = 1 ∧ slotFrozen s e.1 ≠ 3 then slotFrozen s e.1 else slotNewest s e.1
      let a := slotAddr w e.2.recOff k
      overlay off (e.2.recOff * 8 + area * inLen w)
        (bytesLE 8 (presentHdr (imgHdr s a) (cyc s)) ++ imgBytes s (a + 8) e.2.rlen) v) (List.replicate n 0)
  else if area = 7 then voutView s off n
  else if area = 9 then aged (areaRecs w 1) (imgBytes s off n)
  else if area = 10 then aged (areaRecs w 2) (imgBytes s off n)
  else imgBytes s off n

/-- The view of image bytes `off` to `off + n − 1`, in pieces of 64 KiB at most so that each lies in one area
(R258: every area starts and ends at a multiple of 64 KiB). -/
def imgView (s : State) : Nat → Nat → Nat → List Byte
  | 0, _, _ => []
  | fuel + 1, off, n =>
    if n = 0 then []
    else
      let m := min n (0x10000 - off % 0x10000)
      areaView s (areaOf s.lom.act off) off m ++ imgView s fuel (off + m) (n - m)

/-! Controller cycles (R264, R265, R279, R280) -/

/-- The controller cycle that follows `n` (R265). -/
def cycSucc (n : Word) : Word := if n = 0xFFFFFFFF#32 then 1 else n + 1
/-- The controller cycle that precedes `n`. -/
def cycPred (n : Word) : Word := if n = 1 then 0xFFFFFFFF#32 else n - 1

/-- A commit run uses the staging copy of channel port `p`. -/
def CommitRun.reads (r : CommitRun) (p : Nat) : Bool := r.first.val == p || (!r.one && r.second.val == p)

/-- Every output record reads as the safe image, the runs are abandoned and with them the comparisons of their copies, the watchdog stops, and the
controller is STOPPED with its cause (R271, R280, Table 9.9); a restart that is under way goes on, and leaves it STOPPED (Table 1.4,
R129; DEDUCED, log entry 33). -/
def stopController (cause : Nat) (s : State) : State :=
  if s.img.ctl == .stopped then s
  else
    let s1 := { s with img := { s.img with
      ctl := .stopped, stopCause := cause, wdogRun := 0, runs := [], safeShown := true,
      stgBusy := s.img.stgBusy.filter fun p => !s.img.runs.any (·.reads p) } }
    raiseD 70 (BitVec.ofNat 32 cause) s.img.frozen s1

/-- Put a record in its place by REC. -/
def insRec (e : Nat × InitRec) : List (Nat × InitRec) → List (Nat × InitRec)
  | [] => [e]
  | x :: xs => if e.2.recOff ≤ x.2.recOff then e :: x :: xs else x :: insRec e xs

/-- The newest complete slots of the input records as a freeze takes them: push offset, image offset of the slot, header with the AGE of that
Loom cycle, data (R262, R264, R266). -/
def freezeRecs (s : State) : List (Nat × Nat × List Byte) :=
  let w := s.lom.act
  ((areaRecs w 0).foldr insRec []).map fun e =>
    let a := slotAddr w e.2.recOff (slotNewest s e.1)
    (e.2.recOff * 8 - inBase w, a, bytesLE 8 (presentHdr (imgHdr s a) (cyc s)) ++ imgBytes s (a + 8) e.2.rlen)

/-- A freeze of `n` takes effect (R264): every input record's newest complete slot is frozen; pushes send what is frozen now, by the list of this
Weave (R266). -/
def takeFreeze (n : Word) (s : State) : State :=
  let w := s.lom.act
  let s1 := (areaRecs w 0).foldl (fun s e => putSlot e.1 (withBits (slotOf s e.1) 3 2 (slotNewest s e.1)) s) s
  let running := s.img.ctl == .running
  let committed := if running then s.img.committed else if n = 1 then 0 else cycPred n
  let counts := s.img.ctl != .stopped && !s.img.restarting
  raise 66 { s1 with img := { s1.img with
    frozen := n, committed := committed, frozenRecs := freezeRecs s, freezeCycle := s.lom.cycle,
    freezeTime := timeN s, wdogRun := if counts then 1 else 0 } }

/-- A push to a port for controller cycle `n` is asked for: its records are those frozen now, it starts at PUSH_START,
or it is skipped at once when a condition of R105 fails. -/
def askPush (p : Port) (n : Word) (s : State) : State :=
  let ok := s.ch[p].st.inService && getFld s (.cp p) 0x058 31 31 == 1 && bme s p && !d3hot s p && s.port[p].dlUp
  if ok then modPort p (fun q => { q with pushWaiting := q.pushWaiting ++ [⟨n, s.img.freezeTime, s.img.frozenRecs⟩] }) s
  else raise (cpEv p 3) (portFlag p 10 s)

/-- Treat the freeze write of `n` by channel `c` once: held, received, set or refused (R264). `again` is true when a
held write is treated again, which refuses nothing. -/
def treatFreeze (c : Port) (n : Word) (s : State) : State :=
  let held (s : State) : State :=
    { s with img := { s.img with heldFreeze := s.img.heldFreeze.filter (fun e => e.1 != c.val) ++ [(c.val, n)] } }
  let unheld (s : State) : State :=
    { s with img := { s.img with heldFreeze := s.img.heldFreeze.filter fun e => e.1 != c.val } }
  let f := s.img.frozen
  let next := if f = 0 then n ≠ 0 else n = cycSucc f
  if s.img.restarting then raise 73 s
  else if n = f ∧ f ≠ 0 then askPush c n (unheld s)
  else if next then
    if s.ch[c].st == .active && (s.img.ctl != .running || s.img.committed == f) then
      askPush c n (takeFreeze n (unheld s))
    else held s
  else raise 73 (unheld s)

/-- The held freeze write of a channel is treated again. -/
def retryFreeze (c : Port) (s : State) : State :=
  match s.img.heldFreeze.find? fun e => e.1 == c.val with
  | some e => treatFreeze c e.2 s
  | none => s

/-- Held freeze writes are treated again, in ascending channel order, an ACTIVE channel's first so that it sets the
freeze the others receive (R264). Only writes that can now be received or set are treated. -/
def retryFreezes (s : State) : State :=
  let pick (s : State) (active : Bool) : List Port :=
    allPorts.filter fun c => (s.ch[c].st == .active) == active && s.img.heldFreeze.any fun e => e.1 == c.val
  let s1 := (pick s true).foldl (fun s c => retryFreeze c s) s
  (pick s1 false).foldl (fun s c => retryFreeze c s) s1

/-- Image offset of the data of a staging copy (R268). -/
def stagingAddr (s : State) (p : Port) (rec : Nat) : Nat :=
  stgBase s.lom.act + p.val * 0x80000 + (rec * 8 - voutBase s.lom.act) + 8

/-- The data bytes of the staging copy of an output record by port `p` (R268). -/
def stagingData (s : State) (p : Port) (rec rlen : Nat) : List Byte := imgBytes s (stagingAddr s p rec) rlen

/-- Capture an image error (R272, Table 9.19): the word, and whether it is uncorrectable, which sets ECC_UNCORR. That corrected errors are
captured too is DEDUCED from the field UNCORR (log entry 54). -/
def imgCapture (w : Nat) (uncorr : Bool) (s : State) : State :=
  raiseIf uncorr 75 (setReg .img 0x064 (BitVec.ofNat 32 (bnat uncorr * 2 ^ 31 + w * 8 % 2 ^ 23)) s)

/-- A reader of the image meets `n` bytes from image offset `a`: errors are corrected, counted and captured (R272, R419). -/
def imgMeet (a n : Nat) (s : State) : State :=
  let lo := a / 8
  let hi := (a + n + 7) / 8
  (s.tap.ecc.filter fun e => decide (lo ≤ e.1) && decide (e.1 < hi)).foldl (fun s e => imgCapture e.1 e.2 s) (readEcc 0 lo hi s)

/-- Some of `n` image bytes from offset `a` lies in an uncorrectable word. -/
def imgBad (s : State) (a n : Nat) : Bool := uncorrIn s 0 (a / 8) ((a + n + 7) / 8)

/-! ERROR of an output record (R261, R272, Table 3.9) -/

/-- An uncorrectable error sets ERROR in the record whose header stands at `h`, until the next write of the record. -/
def eccError (h : Nat) (s : State) : State :=
  let had := hdrFlags (imgHdr s h) &&& fERROR != 0
  let s1 := putFlags h fERROR 0 s
  if s.img.eccErr.any (·.1 == h) then s1 else { s1 with img := { s1.img with eccErr := s1.img.eccErr ++ [(h, had)] } }

/-- What eccErr says of ERROR for a failed access becomes `b`. -/
def noteBus (h : Nat) (b : Bool) (s : State) : State :=
  { s with img := { s.img with eccErr := s.img.eccErr.map fun e => if e.1 = h then (h, b) else e } }

/-- A failed access sets ERROR in a record (Table 3.9). -/
def busError (h : Nat) (s : State) : State := noteBus h true (putFlags h fERROR 0 s)

/-- A transfer of the record completes: ERROR of a failed access clears (Table 3.9), that of an uncorrectable error stands. -/
def busClear (h : Nat) (s : State) : State :=
  if s.img.eccErr.any (·.1 == h) then noteBus h false s else putFlags h 0 fERROR s

/-- ERROR of a record as its next write leaves it: that of a failed access alone stands (R261). -/
def keptError (s : State) (h : Nat) : Nat :=
  match s.img.eccErr.find? (·.1 == h) with
  | some e => if e.2 then fERROR else 0
  | none => hdrFlags (imgHdr s h) &&& fERROR

/-- Write a record of the voted output image. -/
def writeOut (h hdr : Nat) (data : List Byte) (s : State) : State :=
  let s1 := putRec h hdr data s
  { s1 with img := { s1.img with eccErr := s1.img.eccErr.filter (·.1 != h) } }

/-- Whether a staging copy holds an uncorrectable word (R272). -/
def stagingBad (s : State) (p : Port) (rec rlen : Nat) : Bool := imgBad s (stagingAddr s p rec) rlen

/-- A comparison reads staging copies of port `p` (R272). -/
def meetStaging (p : Port) (recs : List (Nat × Nat)) (s : State) : State :=
  recs.foldl (fun s r => imgMeet (stagingAddr s p r.1) r.2 s) s

/-- The digest entry of one output record of a commit by `p` and `q` (R146). -/
def digestOf (s : State) (one : Bool) (p q : Port) (rec rlen : Nat) : Digest :=
  let dp := stagingData s p rec rlen
  let dq := stagingData s q rec rlen
  let agreed := one || (dp == dq && !stagingBad s p rec rlen && !stagingBad s q rec rlen)
  ⟨rec, rlen, agreed, crc32c dp, crc32c dq⟩

/-- Build one output record of a commit run (Table 9.5): header and data for the building bank, and whether the
copies differ. The forces are those with which the run began (R276); the copies of an uncorrectable word equal no other (R272). -/
def buildRec (s0 : State) (r : CommitRun) (rec rlen : Nat) : Nat × List Byte × Bool :=
  let s := { s0 with frc := r.frc }
  let shown := (r.fromSafe && (relayOf s rec).isNone) || safeRec s rec
  let h := if shown then mkHdr 0 fSAFE 0 r.cycle.toNat else imgHdr s (rec * 8)
  let safe := shown || hdrFlags h &&& fSAFE != 0
  let old := if shown then safeBytes s (rec * 8 + 8) rlen else imgBytes s (rec * 8 + 8) rlen
  let keepErr := if shown then 0 else keptError s (rec * 8)
  let d := digestOf s r.one r.first r.second rec rlen
  let built (flags a cy : Nat) (x : List Byte × Bool) : Nat × List Byte :=
    (mkHdr a (flags ||| keepErr ||| (if x.2 then fFORCED else 0)) 0 cy, x.1)
  if r.one || d.agreed then
    let x := built (if r.one then fSUBST else 0) 0 r.cycle.toNat (applyForces s true rec (stagingData s r.first rec rlen))
    (x.1, x.2, false)
  else
    let x := built (fSTALE ||| (hdrFlags h &&& fSAFE)) (if safe then 0 else bitsOf h 15 0)
      (if safe then r.cycle.toNat else bitsOf h 63 32) (applyForces s true rec old)
    (x.1, x.2, true)

/-- Copy the data of the RETAIN records into the retain area (R269, R285). -/
def copyRetain (outs : List (Nat × Nat × Bool × Nat)) (s : State) : State :=
  outs.foldl (fun s o =>
    if o.2.2.1 then putImg (retBase s.lom.act + o.2.2.2) (imgBytes s (o.1 * 8 + 8) o.2.1) s else s) s

/-- The run of a commit ends, and the next one begins: the records are built in the building bank, the banks are exchanged, the retain copy is
made or deferred (R269, R285), the commit digest holds what the comparison read (R146, R271). Relay records are not built (R316); records that a switch during the run has made new keep
what the switch gave them (R278). -/
def finishRun (r : CommitRun) (s00 : State) : State :=
  let s := contend (commitMayLose s00) s00
  let outs := r.outs.filter fun o => (relayOf s o.1).isNone
  let built := outs.map fun o => (o, buildRec s r o.1 o.2.1)
  let stale := (built.filter fun b => b.2.2.2).length
  let old := s.img.mem
  let vb := voutBase s.lom.act
  let vl := voutLen s.lom.act
  let news := ((outList s.lom.act).filter fun o => !r.outs.any fun x => x.1 == o.1 && x.2.1 == o.2.1).map fun o =>
    (o.1 * 8, imgBytes s (o.1 * 8) (8 + o.2.1))
  let read := outs.map fun o => (o.1, o.2.1)
  let s0 := built.foldl (fun s b => writeOut (b.1.1 * 8) b.2.1 b.2.2.1 s)
    (meetStaging r.first read (if r.one then s else meetStaging r.second read s))
  let s1 := news.foldl (fun s b => putImg b.1 b.2 s) s0
  let bank := ((old.filter fun e => decide (vb ≤ e.1) && decide (e.1 < vb + vl)).map fun e => (e.1 - vb, e.2))
  let s2 := { s1 with img := { s1.img with
      build := bank, safeShown := false,
      runs := (s1.img.runs.take 1).map (fun x => { x with frc := s1.frc }) ++ s1.img.runs.drop 1,
      stgBusy := s1.img.stgBusy.filter fun p => p != r.first.val && (r.one || p != r.second.val) } }
  let s3 := if s2.pwr.saveRun then s2 else copyRetain r.outs s2
  let s3 := { s3 with vot := { s3.vot with last := s3.vot.last.map fun ci =>
    if ci.n == r.n && ci.digestValid then
      { ci with digest := r.outs.map fun o => digestOf s r.one r.first r.second o.1 o.2.1 } else ci } }
  let s4 := incReg .img 0x068 stale s3
  raise 67 ((List.range stale).foldl (fun s _ => nextCycle (raise 68 s)) s4)

/-- The retain area is rewritten from the RETAIN records of the presented bank when a save has ended (R285). -/
def rewriteRetain (s : State) : State := copyRetain (outList s.lom.act) s

end Sys2Proof.Machine
end

