-- ==== Sys2Proof/Machine/Vote.lean ====
section
/-!
DEFINITION. The vote unit (chapter 5): channel states, fences, promotion and vote modes, aperiodic matching, the
charging of divergences and the commit comparison.
-/

namespace Sys2Proof.Machine

open Sys2Proof

/-! Completions (R97 to R99) -/

/-- Cut the bytes of a read at the boundaries of R99; the fuel is the number of bytes. `a` is the address of the first byte, `more` the
number of bytes of the request that follow these in later completions. -/
def splitCpl (p : Port) (tag ep a m more : Nat) : Nat → List Byte → List Out
  | 0, _ => []
  | fuel + 1, bs =>
    if bs.isEmpty then []
    else
      let first := (a + m) / 64 * 64 - a
      let n := if first = 0 then m else min m first
      let head := bs.take n
      .cpl p tag 0 (ep == 1) (bs.length + more) (a % 128) head :: splitCpl p tag ep (a + head.length) m more fuel (bs.drop n)

/-- A non-posted request of a port is finished: its tag is no longer held. -/
def dropTag (p : Port) (tag : Nat) (s : State) : State :=
  modPort p (fun q => { q with np := q.np.eraseP fun x => x.tag == tag }) s

/-- The header of a held request. -/
def tagHdr (s : State) (p : Port) (tag : Nat) : Hdr := ((s.port[p].np.find? fun x => x.tag == tag).map (·.hdr)).getD noHdr

/-- Complete a read successfully, poisoned when `ep` (R99, Table 4.8). -/
def complete (p : Port) (tag a : Nat) (ep : Bool) (bs : List Byte) (s : State) : State :=
  dropTag p tag (sendOut p (splitCpl p tag (bnat ep) a (mps s p) 0 bs.length bs) s)

/-- Complete a request with Completer Abort, reported as advisory (Table 4.8). -/
def completeCa (p : Port) (tag : Nat) (s : State) : State :=
  aerUncorr p 15 true (tagHdr s p tag) (dropTag p tag (sendOut p [.cpl p tag 4 false 0 0 []] s))

/-- Complete a request with Unsupported Request. -/
def completeUr (p : Port) (tag : Nat) (s : State) : State :=
  aerUncorr p 20 true (tagHdr s p tag) (dropTag p tag (sendOut p [.cpl p tag 1 false 0 0 []] s))

/-- Complete a failed legacy or remote read by RDPOL (R81, Table 3.9). -/
def completeFailed (p : Port) (tag a n : Nat) (rdpol : Bool) (s : State) : State :=
  if rdpol then complete p tag a true (List.replicate n 0xFF#8) s else completeCa p tag s

/-! Channel states (R122 to R124) -/

/-- A channel changes state; STATE_CHG sets when it differs (Table 4.10). -/
def setChState (c : Port) (st : ChState) (s : State) : State :=
  if s.ch[c].st == st then s
  else raise (cpEv c 7) (modCh c (fun x => { x with st := st }) s)

/-- The vote mode that the number of ACTIVE channels gives (R129 rule 1). -/
def modeByCount (s : State) : VoteMode :=
  let n := (activeChs s).length
  if 3 ≤ n then .m2oo3 else if n = 2 then .m2oo2 else .halt

/-- The vote mode becomes `m`; a change into HALT stops the controller (R129 rule 3, Table 9.9). -/
def setMode (m : VoteMode) (s : State) : State :=
  if s.vot.mode == m then s
  else
    let s1 := raise 53 { s with vot := { s.vot with mode := m } }
    if m == .halt then stopController 3 s1 else s1

/-- The mode is re-evaluated while 1OO1 is not selected (R129 rule 1). -/
def evalMode (s : State) : State := if s.vot.mode == .m1oo1 then s else setMode (modeByCount s) s

/-- An OBSERVER becomes READY, and event READY sets, also where the controller is not RUNNING (R124, R149, Table 5.7; DESIGN CHOICE, log
entry 54: the table's row cites R149 alone). -/
def becomeReady (c : Port) (s : State) : State :=
  raise 55 (setChState c .ready (modCh c (fun x => { x with matchCnt := 0 }) s))

/-- While the controller is not RUNNING every OBSERVER becomes READY (R124). -/
def observersReady (s : State) : State :=
  if s.img.ctl == .running then s
  else allPorts.foldl (fun s c => if s.ch[c].st == .observer then becomeReady c s else s) s

/-- The channel that R151 promotes now, if any. -/
def promotable (s : State) : Option Port :=
  if getFld s .vot 0x058 0 0 = 1 ∧ (activeChs s).length < 3 ∧ s.vot.admitOn = false ∧ s.vot.mode ≠ .m1oo1 then
    let ready := allPorts.filter fun c => s.ch[c].st == .ready
    match ready.find? fun c => c.val == getFld s .vot 0x058 5 4 with
    | some c => some c
    | none => ready.head?
  else none

/-- Promote READY channels while R151 holds; the fuel bounds the number of channels. -/
def promoteAll : Nat → State → State
  | 0, s => s
  | n + 1, s =>
    match promotable s with
    | some c => promoteAll n (raise 52 (setChState c .active s))
    | none => s

/-- Promotion, vote mode and OBSERVER to READY until nothing changes (R124, R129, R151): a stop of the controller makes
OBSERVERs READY, which can be promoted in turn. -/
def settleChannels (s : State) : State :=
  let round (s : State) : State := observersReady (evalMode (promoteAll 3 s))
  retryFreezes (round (round (round s)))

/-- Vote mode 1OO1 ends (R129 rule 5): every READY channel becomes OBSERVER and the mode is re-evaluated. -/
def endOne (s : State) : State :=
  let t := allPorts.foldl (fun s p => if s.ch[p].st == .ready then setChState p .observer s else s) s
  settleChannels (setMode (modeByCount t) t)

/-! Divergences (R148) -/

/-- The stamp of a charge made now: the controller cycle in progress. -/
def stampNow (s : State) : Word := cycSucc s.img.committed

/-- How many controller cycles lie from stamp `a` to stamp `b` along the sequence of R265. -/
def cycDist (a b : Word) : Nat :=
  if a.toNat ≤ b.toNat then b.toNat - a.toNat else b.toNat + (2 ^ 32 - 1) - a.toNat

/-- DIVERGE_LIMIT and DIVERGE_SPAN in effect (Table 5.11). -/
def divLimit (s : State) : Nat := max 1 (getFld s .vot 0x050 3 0)
def divSpan (s : State) : Nat := max 1 (getFld s .vot 0x054 15 0)

/-! Discarding what a channel has placed (R126) -/

/-- One item of a stale epoch is dropped or discarded; a write is counted (R126, R128). -/
def staleDrop (isWrite : Bool) (s : State) : State :=
  raise 57 (if isWrite then incReg .vot 0x074 1 s else s)

/-- Take the packet with given cells off list `q`, if it stands there, and release them. -/
def discardPkt (q : Nat) (cells : List Nat) (s : State) : State :=
  if (listPkts s q).any fun p => p.cells == cells then
    releaseCells q cells (setPkts q ((listPkts s q).filter fun p => p.cells != cells) s)
  else s

/-- Discard one copy: a write's cells are released and the write is counted. -/
def discardCopy (c : MCopy) (s : State) : State :=
  staleDrop (!c.isRead) (if c.isRead then s else discardPkt c.ch.val c.cells s)

/-- Discard every copy of channel `c` in the match table except an issued one and reads already answered (R126). -/
def discardCopies (c : Port) (s : State) : State :=
  let mine (e : MEntry) : List MCopy := e.copies.filter fun x => x.ch == c
  let live (e : MEntry) : List MCopy :=
    if e.phase == .done then (mine e).filter fun x => x.isRead != e.isRead || (!e.isRead && e.chosen.map (·.ch) != some x.ch)
    else mine e
  let gone := s.vot.openE.flatMap live ++ s.vot.waiting.filter fun x => x.ch == c
  let strip (e : MEntry) : MEntry := { e with copies := e.copies.filter fun x => x.ch != c }
  let s1 := { s with vot := { s.vot with
    openE := (s.vot.openE.map strip).filter fun e => !(e.copies.isEmpty && e.phase == .waiting),
    closedE := s.vot.closedE.map strip, waiting := s.vot.waiting.filter fun x => x.ch != c } }
  gone.foldl (fun s x => discardCopy x s) s1

/-- Stop a running push (R108, R127). -/
def abandonPush (p : Port) (s : State) : State :=
  let s1 := { s with tx := s.tx.set p { s.tx[p] with waiting := s.tx[p].waiting.filter fun e => e.1 != 0 } }
  match s.port[p].push with
  | some _ => raise (cpEv p 3) (portFlag p 9 (modPort p (fun q => { q with push := none, pushWaiting := [] }) s1))
  | none => modPort p (fun q => { q with pushWaiting := [] }) s

/-- An operation of the Almanac that a requester issued is aborted (R403: fence or port reset of the issuer). -/
def abortStream (r : Nat) (s : State) : State :=
  match s.alm.op with
  | some o =>
    if o.op = 1 ∧ o.req = r then
      raise 211 { s with alm := { s.alm with op := none, statOp := 1, statResult := 6, statWords := o.words } }
    else s
  | none => s

/-- The fenced vector of a port, sent only while its channel is FENCED (R345). -/
def fencedVector (p : Port) (s : State) : State := if s.ch[p].st == .fenced then msixCall p 255 s else s

/-- A request of a FENCED channel was dropped or refused: the fenced vector, at most once per 100 µs (R345). -/
def refusedVector (p : Port) (s : State) : State :=
  match s.msix[p].lastFenced with
  | some t => if timeN s - t < 429497 then s else fencedVector p s
  | none => fencedVector p s

/-- A fence (R127, R147): `portReset` when a port reset of Table 4.9 causes it. -/
def fence (c : Port) (portReset : Bool) (s : State) : State :=
  if s.ch[c].st.inService then
    let wasOne := s.vot.mode == .m1oo1 && s.vot.oneCh == c
    let entries := s.bus.voted[c]
    let s1 := modCh c (fun x => { x with epoch := x.epoch + 1, copyOf := none }) (setChState c .fenced s)
    let s2 := { s1 with
      bus := { s1.bus with
        voted := s1.bus.voted.set c [], req := s1.bus.req.set (portReq c) { s1.bus.req[portReq c] with guards := [] } },
      img := { s1.img with
        heldFreeze := s1.img.heldFreeze.filter (fun e => e.1 != c.val),
        stgBusy := s1.img.stgBusy.filter fun p =>
          p != c.val || s1.img.runs.any (·.reads c.val) } }
    let s3 := entries.foldl (fun s _ => staleDrop true s) (abandonPush c (discardCopies c s2))
    let rx := s3.port[c].rx ++ s3.port[c].bar
    let s4 := rx.foldl (fun s x => staleDrop x.isWrite s)
      (modPort c (fun q => { q with rx := [], bar := [], flush := [] }) s3)
    let s5 := if portReset then modPort c (fun q => { q with np := [] }) s4
      else portFlag c 4 ((s4.port[c].np).foldl (fun s t => completeCa c t.tag s) s4)
    let s6 := abortStream c.val s5
    let s7 := raiseD 51 (BitVec.ofNat 32 (c.val + s6.ch[c].epoch.toNat * 2 ^ 16)) 0 s6
    let s8 := fencedVector c s7
    if wasOne then endOne s8 else settleChannels s8
  else s

/-- The charges of a channel that count at the stamp `now` (R148). -/
def liveCharges (s : State) (c : Port) (now : Word) : Nat :=
  (s.ch[c].charges.filter fun t => decide (cycDist t now < divSpan s)).length

/-- Charge one divergence to channel `c`; too many within the span fence it (R147, R148). Nothing is counted in
vote mode 1OO1, 2OO2 or HALT (Table 5.4): `mode` is the mode in which the comparison was judged, so that one fence does not
spare the other channels of the same comparison. The condition is judged at a charge: a lower DIVERGE_LIMIT or a larger
DIVERGE_SPAN fences nobody by charges already made (DESIGN CHOICE, log entry 54). -/
def charge (mode : VoteMode) (c : Port) (s : State) : State :=
  if s.ch[c].st == .active && s.ch[c].aligned && mode == .m2oo3 then
    let now := stampNow s
    let s1 := modCh c (fun x => { x with
      charges := (x.charges.filter fun t => decide (cycDist t now < 65535)) ++ [now], divergent := true }) s
    let s2 := raise 50 (incReg .vot (0x064 + 4 * c.val) 1 s1)
    if divLimit s ≤ liveCharges s2 c now then fence c false s2 else s2
  else s

/-- A comparison miss of a READY or OBSERVER channel (R149); in 1OO1 no copy is compared (R130). -/
def observerMiss (c : Port) (s : State) : State :=
  if (s.ch[c].st == .ready || s.ch[c].st == .observer) && s.vot.mode != .m1oo1 then
    let s1 := modCh c (fun x => { x with matchCnt := 0 }) s
    if s1.ch[c].st == .ready && s1.img.ctl == .running then setChState c .observer s1 else s1
  else s

/-! Matching (R131 to R141) -/

/-- Two copies of one key are equal (R133). -/
def copyEq (a b : MCopy) : Bool :=
  !a.poisoned && !b.poisoned && a.off == b.off && a.len == b.len && a.en == b.en && (a.isRead || a.data == b.data)

/-- The copies of ACTIVE, aligned channels in an entry. -/
def votingCopies (s : State) (e : MEntry) : List MCopy :=
  e.copies.filter fun c => s.ch[c.ch].st == .active && s.ch[c.ch].aligned

/-- The local node number (RNG.NODE_NUM). -/
def localNode (s : State) : Nat := s.rng.num

/-- The pattern an access runs locally: its own, or the destination pattern when NODE names this node (R74). Such an access keeps the
pattern index and the RDPOL of its own pattern, for the log and for its completion (DESIGN CHOICE, log entry 54). -/
def localPat (s : State) (e : Nat) : Option Nat :=
  let p := patOf e
  if p.node = 0 then some e
  else if p.node = localNode s then some (patEntry s.lom.act (p.base % 65536)) else none

/-- Words of pattern `i` in memory 2 of Table 15.2. -/
def patUncorr (s : State) (i : Nat) : Bool :=
  let b := bnat s.lom.bank * 131072 + 2 * i
  uncorrIn s 2 b (b + 2)

/-- The patterns that an access to pattern `i` fetches: its own, and the destination of R74. -/
def fetched (s : State) (i : Nat) : List Nat :=
  let p := patOf (patEntry s.lom.act i)
  if p.node ≠ 0 ∧ p.node = localNode s then [i, p.base % 65536] else [i]

/-- A fetch of the access met an uncorrectable error (R64). -/
def fetchBad (s : State) (i : Nat) : Bool := (fetched s i).any (patUncorr s)

/-- One pattern entry is fetched: the errors of its words are met (R64). -/
def fetchOne (j : Nat) (s : State) : State :=
  let lo := bnat s.lom.bank * 131072 + 2 * j
  raiseIf (patUncorr s j) 130 (readEcc 2 lo (lo + 2) s)

/-- The fetches of an access meet the errors of their entries: counted, corrected, and the pattern-fault event for an uncorrectable
one (R64). -/
def fetchPat (i : Nat) (s : State) : State := (fetched s i).foldl (fun s j => fetchOne j s) s

/-- An access of pattern `e` with NODE ≠ 0 is refused at this node: the node has no number, or NODE names it and the destination
pattern has a NODE of its own or refuses the access (R69, R73, R74). -/
def nodeRefused (s : State) (e : Nat) (write : Bool) (off n : Nat) : Bool :=
  let p := patOf e
  let q := patEntry s.lom.act (p.base % 65536)
  p.node != 0 && (decide (localNode s = 0) || (p.node == localNode s && ((patOf q).node != 0 || accessRefused (patOf q) write off n)))

/-- The copy that meets the entry's condition for issue or performance, with the channels that satisfy it
(R130, R134, R138). UNANIMOUS asks for two equal copies at least, also where one ACTIVE channel alone is aligned (DESIGN CHOICE, log
entry 54). -/
def entryChoice (s : State) (e : MEntry) : Option (MCopy × List Port) :=
  let vs := votingCopies s e
  let p := patOf e.patE
  let pair : Option (MCopy × List Port) :=
    (vs.find? fun c => decide (2 ≤ (vs.filter (copyEq c)).length)).map
      fun c => (c, (vs.filter (copyEq c)).map (·.ch))
  let one : Option (MCopy × List Port) := vs.head?.map fun c => (c, [c.ch])
  if s.vot.mode == .m1oo1 then (vs.find? fun c => !c.poisoned).map fun c => (c, [c.ch])
  else if e.isRead then
    (if p.idem || p.kind == .rmw then one else pair)
  else if s.vot.mode == .halt then none
  else if p.vclass = 1 then
    match pair with
    | some (c, chs) => if chs.length == (activeAligned s).length then some (c, chs) else none
    | none => none
  else pair

/-- An earlier entry holds this one back (R140): a read counts as performed once its data are available, not when it has started, in
1OO1 too (DESIGN CHOICE, log entry 54). -/
def heldBack (s : State) (e : MEntry) (chs : List Port) : Bool :=
  s.vot.openE.any fun f =>
    f.phase != .done && decide (f.k.toNat < e.k.toNat) && f.copies.any fun c => chs.contains c.ch

/-- Replace the entry of key (k, pattern). -/
def putEntry (e : MEntry) (s : State) : State :=
  { s with vot := { s.vot with openE := s.vot.openE.map fun f => if f.k == e.k && f.pat == e.pat then e else f } }

/-- Find an open entry. -/
def findOpen (s : State) (k : Word) (pat : Nat) : Option MEntry :=
  s.vot.openE.find? fun e => e.k == k && e.pat == pat

/-- The cell words that hold the data of a read's held completion from byte `n` on (R214). -/
def heldWords (s : State) (e : MEntry) (n : Nat) : List Nat :=
  match (listPkts s 4).find? fun p => p.origin == .vote e.k.toNat e.pat with
  | some p => pktWords p n (p.data.length - n)
  | none => []

/-- Complete one copy of a performed read: the held completion when it equals the performed request, else Completer
Abort (R138, R139). A completion whose data meet an uncorrectable word carries EP (R214). -/
def answerCopy (e : MEntry) (c : MCopy) (s : State) : State :=
  match e.chosen, e.result with
  | some x, some (failed, bs) =>
    if copyEq x c then
      (if failed then completeFailed c.ch c.tag (c.off + c.done) (c.len - c.done) (patOf e.patE).rdpol s
       else
         let ws := heldWords s e c.done
         complete c.ch c.tag (c.off + c.done) (wordsBad s ws) (bs.drop c.done) (meetWords ws s))
    else completeCa c.ch c.tag s
  | _, _ => completeCa c.ch c.tag s

/-- The bytes of a started read that are present: a copy of it is answered up to the last 64-byte boundary among them (R99). Bytes
already sent stand when the read fails later (DESIGN CHOICE, log entry 55). -/
def answerPart (e : MEntry) (c : MCopy) (s : State) : MCopy × State :=
  let n := (c.off + e.prog.length) / 64 * 64 - c.off
  if c.isRead && c.done < n && n < c.len && (e.chosen.any fun x => copyEq x c) then
    ({ c with done := n },
     sendOut c.ch (splitCpl c.ch c.tag 0 (c.off + c.done) (mps s c.ch) (c.len - n) (n - c.done) ((e.prog.take n).drop c.done)) s)
  else (c, s)

/-- Answer every copy of an entry as far as its bytes are present. -/
def answerParts (e : MEntry) : List MCopy → State → List MCopy × State
  | [], s => ([], s)
  | c :: cs, s =>
    let (c1, s1) := answerPart e c s
    let (cs1, s2) := answerParts e cs s1
    (c1 :: cs1, s2)

/-- Release the cells of a held completion (Table 7.3, VOT_RD). -/
def dropHeld (k : Word) (pat : Nat) (s : State) : State :=
  ((listPkts s 4).filter fun p => p.pat == pat && p.origin == .vote k.toNat pat).foldl
    (fun s p => discardPkt 4 p.cells s) s

/-- The read of an entry was made by an item of a stale epoch, or by none: its result is dropped, and the entry waits again for a copy
that may perform it (R126; DEDUCED, log entry 36). -/
def readAgain (e : MEntry) (s : State) : State :=
  dropHeld e.k e.pat { s with vot := { s.vot with
    openE := (s.vot.openE.map fun f => if f.k == e.k && f.pat == e.pat then
      { e with phase := .waiting, chosen := none, result := none, prog := [] } else f).filter fun f =>
        !(f.copies.isEmpty && f.phase == .waiting) } }

/-- The chosen copy of an entry carries an older epoch of its channel (R126). -/
def chosenStale (s : State) (e : MEntry) : Bool := e.chosen.any fun c => c.epoch != s.ch[c.ch].epoch

/-- The first bytes of a started read are present (R99). -/
def readPart (k : Word) (pat : Nat) (bs : List Byte) (s : State) : State :=
  match findOpen s k pat with
  | some e =>
    if e.phase != .started || chosenStale s e then s
    else
      let e1 := { e with prog := bs }
      let (cs, s1) := answerParts e1 e1.copies s
      putEntry { e1 with copies := cs } s1
  | none => s

/-- The data of a performed read are available: every copy present is answered (R138); the result of an
entry that a restart has discarded, or whose item is stale, is dropped (R126). -/
def readResult (k : Word) (pat : Nat) (failed : Bool) (bs : List Byte) (s : State) : State :=
  match findOpen s k pat with
  | some e =>
    if chosenStale s e then readAgain e s
    else
      let e1 := { e with phase := .done, result := some (failed, bs) }
      (e.copies.filter (·.isRead)).foldl (fun s c => answerCopy e1 c s) (putEntry e1 s)
  | none => dropHeld k pat s

/-- A packet for the queue of a segment or of the ring. -/
def accessPkt (e : MEntry) (c : MCopy) (owner : Nat) (cells : List Nat) (patE : Nat) : Pkt :=
  { owner := owner, cells := cells, eop := true, epoch := c.epoch.toNat, cy := 0, src := c.ch.val, pat := e.pat, off := c.off,
    len := c.len, aux := e.k.toNat % 2 ^ 20, data := c.data, en := c.en, isRead := e.isRead, trunc := false, cont := false,
    poison := c.poisoned, sent := 0, patE := patE, origin := .vote e.k.toNat e.pat }

/-- A node is a member (R307). -/
def isMember (s : State) (n : Nat) : Bool := decide (1 ≤ n) && s.rng.member.getLsbD (n - 1)

/-- Note a request to another node as sent (R312, R313). -/
def noteRemote (patE pat : Nat) (o : Origin) (s : State) : State :=
  { s with rng := { s.rng with
    rem := s.rng.rem ++ [⟨s.rng.nextTag, (patOf patE).node, patE, pat, o, s.lom.cycle, false⟩],
    nextTag := (s.rng.nextTag + 1) % 4096 } }

/-- Issue a write entry with the agreed copy: its cells are relinked to the segment's or the ring's queue (R134); a
request to a node that is not a member fails at once (R312). -/
def issueWrite (e : MEntry) (c : MCopy) (s : State) : State :=
  let s1 := putEntry { e with phase := .done, chosen := some c } s
  let s2 := setPkts c.ch.val ((listPkts s1 c.ch.val).filter fun p => p.cells != c.cells) s1
  match e.locE with
  | some le => linkPkt (8 + (patOf le).seg.val) (accessPkt e c c.ch.val c.cells le) s2
  | none =>
    if isMember s (patOf e.patE).node then
      noteRemote e.patE e.pat (.vote e.k.toNat e.pat) (linkPkt 20 { accessPkt e c c.ch.val c.cells e.patE with
        aux := s2.rng.nextTag } s2)
    else releaseCells c.ch.val c.cells s2

/-- The list that a packet of an entry goes to (R134, R312). -/
def targetList (e : MEntry) : Nat := match e.locE with | some le => 8 + (patOf le).seg.val | none => 20

/-- Start or perform a read entry with its chosen copy (R138, R164, R85): a read of an RMW pattern answers from the
record; any other read needs the cells for all its data in VOT_RD. -/
def startRead (e : MEntry) (c : MCopy) (s : State) : State :=
  let e1 := { e with phase := .started, chosen := some c, prog := [] }
  match e.locE with
  | some le =>
    let p := patOf le
    if p.kind == .rmw then readResult e.k e.pat false (imgBytes s (p.recOff * 8 + 8) p.w) (putEntry e1 s)
    else
      match claim 4 (cellsFor c.len) s with
      | some (cells, s1) => linkPkt (8 + p.seg.val) (accessPkt e c 4 cells le) (putEntry e1 s1)
      | none => s
  | none =>
    if isMember s (patOf e.patE).node then
      match claim 4 (cellsFor c.len) s with
      | some (cells, s1) =>
        noteRemote e.patE e.pat (.vote e.k.toNat e.pat) (linkPkt 20 { accessPkt e c 4 cells e.patE with
          aux := s1.rng.nextTag } (putEntry e1 s1))
      | none => s
    else readResult e.k e.pat true [] (putEntry e1 s)

/-- A read of an RMW pattern waits for the record of an issued write of that pattern (R85). -/
def rmwBusy (s : State) (le : Nat) : Bool :=
  let g := (patOf le).seg
  let voted : Origin → Bool := fun o => match o with | .vote _ _ => true | _ => false
  (patOf le).kind == .rmw &&
    ((listPkts s (8 + g.val)).any (fun p => p.patE == le && !p.isRead && voted p.origin) ||
      (s.seg[g].eng.toList ++ s.seg[g].paused).any fun x => x.acc.patE == le && x.acc.write && voted x.acc.origin)

/-- Whether a read entry can start now: the cells it needs are free (R164), the record it reads is written (R85). -/
def canStart (s : State) (e : MEntry) : Bool :=
  match e.locE with
  | some le => if (patOf le).kind == .rmw then !rmwBusy s le else claimOk s.crl 4 (cellsFor ((e.copies.map (·.len)).headD 0))
  | none => !isMember s (patOf e.patE).node || claimOk s.crl 4 (cellsFor ((e.copies.map (·.len)).headD 0))

/-- Every ACTIVE, aligned channel has presented a copy. -/
def allPresented (s : State) (e : MEntry) : Bool :=
  (activeAligned s).all fun c => e.copies.any fun x => x.ch == c

/-- The copy of the majority class at the close, if there is a majority class: `some none` is the silent class (R135). -/
def majority (s : State) (e : MEntry) : Option (Option MCopy) :=
  match e.phase, e.chosen with
  | .done, some c => some (some c)
  | _, _ =>
    let vs := votingCopies s e
    let silent := (activeAligned s).length - vs.length
    let need := if s.vot.mode == .m2oo3 then 2 else if s.vot.mode == .m2oo2 then 2 else 99
    match vs.find? fun c => decide (need ≤ (vs.filter (copyEq c)).length) with
    | some c => some (some c)
    | none => if need ≤ silent then some none else none

/-- Whether channel `ch` lies outside the majority class `m`. -/
def outside (e : MEntry) (m : Option MCopy) (ch : Port) : Bool :=
  match m, e.copies.find? fun x => x.ch == ch with
  | some c, some x => !(x == c || copyEq c x)
  | some _, none => true
  | none, some _ => true
  | none, none => false

/-- Retire the oldest closed entry to make room (R137), or a closed entry whose time has passed (R136): the cells of its
held completion are released. -/
def dropClosed (e : MEntry) (s : State) : State :=
  dropHeld e.k e.pat
    { s with vot := { s.vot with closedE := s.vot.closedE.filter fun f => !(f.k == e.k && f.pat == e.pat) } }

/-- Move an entry to the closed part; a full closed part retires its oldest entry (R136, R137). -/
def addClosed (e : MEntry) (s : State) : State :=
  let s1 :=
    match s.vot.closedE with
    | old :: _ =>
      if 512 ≤ s.vot.closedE.length then
        let s2 := dropClosed old s
        let kv := match s2.vot.kEvict with | some k => if k.toNat < old.k.toNat then old.k else k | none => old.k
        raise 63 { s2 with vot := { s2.vot with kEvict := some kv } }
      else s
    | [] => s
  { s1 with vot := { s1.vot with closedE := s1.vot.closedE ++ [e] } }

/-- Close an entry (R135, R138, R139, R149): classes, charges, Completer Abort for a read never performed, with VOTE_CA and DIVERGENT
where IDEM is clear, the cells of every write copy but the issued one released. -/
def closeEntry (e : MEntry) (s : State) : State :=
  let chs := activeAligned s
  let m := majority s e
  let s1 := { s with vot := { s.vot with openE := s.vot.openE.filter fun f => !(f.k == e.k && f.pat == e.pat) } }
  let s2 := addClosed e s1
  let s3 :=
    if e.isRead && e.phase == .done then s2
    else
      (e.copies.filter (·.isRead)).foldl (fun s c =>
        let s1 := completeCa c.ch c.tag s
        if e.isRead && !(patOf e.patE).idem && (patOf e.patE).kind != .rmw then
          modCh c.ch (fun x => { x with divergent := true, caStamp := some (stampNow s) }) (portFlag c.ch 3 s1)
        else s1) s2
  let keep := if e.phase == .done then e.chosen else none
  let s4 := (e.copies.filter fun c => !c.isRead && some c != keep).foldl
    (fun s c => discardPkt c.ch.val c.cells s) s3
  match m with
  | some mc =>
    let s5 := (chs.filter fun c => outside e mc c).foldl (fun s c => charge s4.vot.mode c s) s4
    (e.copies.filter fun x => s.ch[x.ch].aligned && s.ch[x.ch].st != .active && outside e mc x.ch).foldl
      (fun s x => observerMiss x.ch s) s5
  | none => if s.vot.mode == .m1oo1 then s4 else raise 54 s4

/-- Can the copies present still meet the entry's condition? Only asked when every ACTIVE, aligned channel has
presented a copy. -/
def mustClose (s : State) (e : MEntry) : Bool :=
  allPresented s e && (e.phase == .done || (e.phase == .waiting && (entryChoice s e).isNone))

/-- Open an entry for a copy that found none, if one is free; else it waits (R132). -/
def openEntry (c : MCopy) (s : State) : State :=
  if s.vot.openE.length < 512 then
    let pe := patEntry s.lom.act c.pat
    let e : MEntry := { k := c.k, pat := c.pat, patE := pe, locE := localPat s pe, isRead := c.isRead,
                        copies := [c], phase := .waiting, chosen := none, result := none, prog := [] }
    { s with vot := { s.vot with openE := s.vot.openE ++ [e] } }
  else raise 59 { s with vot := { s.vot with waiting := s.vot.waiting ++ [c] } }

/-- A copy meets a closed or evicted key (R136, R137). -/
def lateCopy (e : Option MEntry) (c : MCopy) (s : State) : State :=
  let s1 := raise 58 s
  if c.isRead then
    match e with
    | some e => answerCopy e c s1
    | none => completeCa c.ch c.tag s1
  else discardPkt c.ch.val c.cells s1

/-- The vote unit reads the cells of a write copy to compare it: a copy with an uncorrectable word is poisoned, and its packet with it
(R133, R214). -/
def readCopy (c : MCopy) (s : State) : MCopy × State :=
  match (if c.isRead then none else (listPkts s c.ch.val).find? fun p => p.cells == c.cells) with
  | some p =>
    let ws := pktWords p 0 p.data.length
    if wordsBad s ws then
      ({ c with poisoned := true },
       setPkts c.ch.val ((listPkts s c.ch.val).map fun x => if x.cells == c.cells then { x with poison := true } else x) (meetWords ws s))
    else (c, meetWords ws s)
  | none => (c, s)

/-- Present a copy of a key to the match table (R132, R136 to R139). -/
def presentCopy (c0 : MCopy) (s0 : State) : State :=
  let (c, s) := readCopy c0 s0
  match findOpen s c.k c.pat with
  | some e =>
    if e.isRead && e.phase == .started then
      let (c1, s1) := answerPart e c s
      putEntry { e with copies := e.copies ++ [c1] } s1
    else
      let e1 := { e with copies := e.copies ++ [c] }
      let s1 := putEntry e1 s
      if e.isRead && c.isRead && e.phase == .done then answerCopy e1 c s1 else s1
  | none =>
    match s.vot.closedE.find? fun e => e.k == c.k && e.pat == c.pat with
    | some e => lateCopy (some e) c s
    | none =>
      match s.vot.kEvict with
      | some k => if c.k.toNat ≤ k.toNat then lateCopy none c s else openEntry c s
      | none => openEntry c s

/-- One round of the vote unit: an eligible entry issues or starts, or a complete one closes, or a waiting copy opens
its entry. -/
def voteRound (s : State) : State :=
  let ready := s.vot.openE.find? fun e => e.phase == .waiting &&
    (match entryChoice s e with
      | some (c, chs) => !heldBack s e chs && !resetNow s.crl (targetList e) && (!e.isRead || canStart s { e with copies := [c] })
      | none => false)
  match ready with
  | some e =>
    match entryChoice s e with
    | some (c, _) => if e.isRead then startRead e c s else issueWrite e c s
    | none => s
  | none =>
    match s.vot.openE.find? (mustClose s) with
    | some e => closeEntry e s
    | none =>
      match s.vot.waiting with
      | c :: cs =>
        if s.vot.openE.length < 512 then presentCopy c { s with vot := { s.vot with waiting := cs } } else s
      | [] => s

/-- Rounds until nothing more can issue or close. -/
def voteRounds : Nat → State → State
  | 0, s => s
  | n + 1, s => voteRounds n (voteRound s)

/-- Let the vote unit act on what is present (R134 to R140). The bound covers every open and waiting item twice. -/
def voteUnit (s : State) : State := voteRounds (2 * (s.vot.openE.length + s.vot.waiting.length) + 2) s

/-! Commits (R143 to R149) -/

/-- The third channels of the commit `ci` that have made no write of its cycle (R145). -/
def thirdAbsent (ci : Option CommitInfo) (s : State) : List Port :=
  match ci with
  | some ci =>
    if ci.three && !ci.thirdDone && ci.digestValid then
      (activeAligned s).filter fun c => c != ci.first && c != ci.second && s.ch[c].copyOf != some ci.n && s.ch[c].cmpOf != some ci.n
    else []
  | none => []

/-- The READY and OBSERVER channels that have made no write of the cycle of the commit `ci` in time (R149). -/
def observersAbsent (ci : Option CommitInfo) (s : State) : List Port :=
  match ci with
  | some ci => allPorts.filter fun c => ci.digestValid &&
      (s.ch[c].st == .ready || s.ch[c].st == .observer) && s.ch[c].copyOf != some ci.n && s.ch[c].cmpOf != some ci.n
  | none => []

/-- A later commit takes effect: who made no write for the commit `ci` is charged as missing, or misses; the stamp is that
of the controller cycle now in progress (R145, R148, R149, Table 5.6). -/
def closeAccount (ci : Option CommitInfo) (s : State) : State :=
  let s1 := (observersAbsent ci s).foldl (fun s c => observerMiss c s) s
  (thirdAbsent ci s).foldl (fun t c => charge s.vot.mode c t) s1

/-- Key of a held write of IMG.COMMIT (R32). -/
def commitKey : Nat := PageKind.img.num * 4096 + 0x04C

/-- A comparison that reads the channel's staging copy is still to come, or its write of IMG.COMMIT is held (R271). -/
def stgHolds (s : State) (c : Port) : Bool :=
  s.img.runs.any (·.reads c.val) || s.bus.voted[c].any (·.key == commitKey) ||
    (s.ch[c].copyOf.isSome && s.ch[c].copyOf == s.vot.last.map (·.n))

/-- A write of IMG.COMMIT has been discarded: STG_BUSY clears unless another of the channel stands (R271). -/
def releaseStg (s : State) (c : Port) : State :=
  if stgHolds s c then s else { s with img := { s.img with stgBusy := s.img.stgBusy.filter (· != c.val) } }

/-- A commit write that no comparison will use any more is discarded (R145). -/
def dropCopy (s : State) (c : Port) : State := releaseStg (modCh c (fun x => { x with copyOf := none }) s) c

/-- The channels whose last commit write names a controller cycle before `n` (R145). -/
def lateCopies (n : Word) (s : State) : List Port :=
  allPorts.filter fun c => s.ch[c].copyOf.any fun m => m != n && decide (cycDist m n < 2 ^ 31)

/-- A voted commit of `n` by the pair `p`, `q` takes effect (R270): carried out, or refused. -/
def commitOp (n : Word) (p q : Port) (kp kq : Word) (s : State) : State :=
  let s := raiseIf (kp != kq && s.vot.mode != .m1oo1) 61 s
  if (s.img.ctl == .waiting || s.img.ctl == .running) && !s.img.restarting && n == s.img.frozen && n != 0 &&
      s.img.committed != n then
    let one := s.vot.mode == .m1oo1
    let outs := outList s.lom.act
    let ci : CommitInfo :=
      { n := n, first := p, second := q, kc := kp, digest := outs.map (fun o => digestOf s one p q o.1 o.2.1),
        digestValid := true, thirdDone := false, three := s.vot.mode == .m2oo3 }
    let wasWaiting := s.img.ctl == .waiting
    let run : CommitRun := ⟨n, p, q, one, s.lom.cycle, outs, wasWaiting, s.frc⟩
    let s2 := { s with
      vot := { s.vot with last := some ci, admitOn := false, attempts := s.vot.attempts.filter fun a => a != n },
      img := { s.img with
        committed := n, ctl := .running, runs := s.img.runs ++ [run], wdogRun := 2,
        stgBusy := (s.img.stgBusy.filter fun x => x != p.val && x != q.val) ++ (if one then [p.val] else [p.val, q.val]) } }
    let s3 := raiseIf wasWaiting 71 s2
    let s4 := closeAccount s.vot.last s3
    retryFreezes (settleChannels ((lateCopies n s4).foldl dropCopy s4))
  else
    raise 74 (([p, q].filter fun c => s.ch[c].copyOf == some n && s.vot.last.map (·.n) != some n).foldl dropCopy s)

/-- Compare a channel's staging copies with the digest of the last commit (R145, R146): for the third channel, whether
every agreeing record is equal, and whether every STALE record equals P's copy, or Q's copy. -/
def compareDigest (s : State) (c : Port) (ds : List Digest) : Bool × Bool × Bool :=
  let crc (d : Digest) : Word := crc32c (stagingData s c d.recOff d.rlen)
  let good (d : Digest) : Bool := !stagingBad s c d.recOff d.rlen
  let ok := (ds.filter (·.agreed)).all fun d => good d && crc d == d.crcP
  let st := ds.filter fun d => !d.agreed
  (ok, st.all (fun d => good d && crc d == d.crcP), st.all fun d => good d && crc d == d.crcQ)

/-- A comparison with the commit digest has read every byte of the channel's copy (R271, R272). -/
def copyRead (c : Port) (ci : CommitInfo) (s : State) : State :=
  let s1 := meetStaging c (ci.digest.map fun d => (d.recOff, d.rlen)) s
  modCh c (fun x => { x with copyOf := none, cmpOf := some ci.n })
    { s1 with img := { s1.img with stgBusy := s1.img.stgBusy.filter fun x => x != c.val } }

/-- The comparison of the third channel's copy ends (R145, Table 5.5). -/
def thirdCompare (t : Port) (s : State) : State :=
  match s.vot.last with
  | some ci =>
    if ci.three && !ci.thirdDone && s.ch[t].st == .active && t != ci.first && t != ci.second &&
        s.ch[t].copyOf == some ci.n && ci.digestValid then
      let (ok, eqP, eqQ) := compareDigest s t ci.digest
      let stale := ci.digest.any fun d => !d.agreed
      let s2 := copyRead t ci { s with vot := { s.vot with last := some { ci with thirdDone := true } } }
      let s3 := if ok then s2 else charge s.vot.mode t s2
      if stale && eqP && !eqQ then charge s.vot.mode ci.second s3
      else if stale && eqQ && !eqP then charge s.vot.mode ci.first s3
      else s3
    else s
  | none => s

/-- The comparison of a READY or OBSERVER channel's copy ends (R149, R153). -/
def observerCompare (c : Port) (s : State) : State :=
  match s.vot.last with
  | some ci =>
    if (s.ch[c].st == .ready || s.ch[c].st == .observer) && s.ch[c].copyOf == some ci.n && ci.digestValid &&
        s.vot.mode != .m1oo1 then
      let (ok, _, _) := compareDigest s c ci.digest
      let s0 := copyRead c ci s
      if ok then
        let align := s.ch[c].st == .observer && !s.ch[c].aligned
        let s1 := modCh c (fun x => { x with
          matchCnt := min 15 (x.matchCnt + 1), aligned := x.aligned || align,
          k := if align then ci.kc + BitVec.ofNat 32 x.opsSince else x.k }) s0
        if s.ch[c].st == .observer && 15 ≤ s.ch[c].matchCnt && s.img.ctl == .running then
          settleChannels (becomeReady c s1)
        else s1
      else observerMiss c s0
    else s
  | none => s

end Sys2Proof.Machine
end

