-- ==== Sys2Proof/Machine/Master.lean ====
section
/-!
DEFINITION. The legacy master engine of a segment (chapters 3, 6 and 7): bus tenure, the arbiter and the Loom's gaps, cycles
and bursts beat by beat, retry, strobe hold and truncation, and the outcome of every access (Table 3.9).
-/

namespace Sys2Proof.Machine

open Sys2Proof

/-! A segment's roles (R158, R160) -/

/-- Event bit `b` of segment `g` (Table 6.9). -/
def segEv (g : Seg) (b : Nat) : Nat := 80 + 16 * g.val + b

/-- A bit of SEG_CFG in effect. -/
def segCfg (s : State) (g : Seg) (b : Nat) : Bool := bitAt (getReg s (.ls g) 0x040) b

/-- The segment is available: enabled, SYSRESET* high, power state RUN (R158, R160). -/
def segAvail (s : State) (g : Seg) : Bool := segCfg s g 0 && !s.seg[g].sysresetLow && s.pwr.st == .run

/-- The engine masters cycles: available and MASTER_EN (Table 6.11). -/
def masterOk (s : State) (g : Seg) : Bool := segAvail s g && segCfg s g 1

/-- A bit of SEG_CFG as the master functions see it: a tenure keeps the value with which it began (R157). -/
def tenureCfg (s : State) (g : Seg) (b : Nat) : Bool :=
  if s.seg[g].owner then bitAt s.seg[g].mcfg b else segCfg s g b

/-- The system controller functions run (R183). -/
def sysconAct (s : State) (g : Seg) : Bool := segCfg s g 3 && s.pwr.st == .run

/-- The list of a place: voted aperiodic, remote requests, forwarded accesses. -/
def vapQ (g : Seg) : Nat := 8 + g.val
def remQ (g : Seg) : Nat := 10 + g.val
def fwdQ (g : Seg) : Nat := 12 + g.val

/-- The engine of a segment has work (R162). -/
def hasWork (s : State) (g : Seg) : Bool :=
  let e := s.seg[g]
  e.eng.isSome || !e.paused.isEmpty || !e.sched.isEmpty || e.mail.isSome || !(listPkts s (vapQ g)).isEmpty ||
    !(listPkts s (remQ g)).isEmpty || !(listPkts s (fwdQ g)).isEmpty

/-! Accesses and their cycles -/

/-- The access that a packet of list `q` asks for. -/
def accOfPkt (q : Nat) (place : Place) (p : Pkt) : Acc :=
  { origin := p.origin, place := place, queue := q, pat := p.pat, patE := p.patE, off := p.off, len := p.len,
    write := !p.isRead, data := p.data, en := p.en, cont := p.cont }

/-- A forwarded legacy-master access keeps its byte addresses (R83). -/
def Acc.forwarded (a : Acc) : Bool :=
  match a.origin with
  | .fwdWrite _ => true
  | .fwdRead _ _ => true
  | _ => false

/-- The bytes the access carries, in issue order (R76, R83). -/
def accBytes (a : Acc) : List LByte :=
  let p := patOf a.patE
  let on (i : Nat) : Bool := !a.write || a.en.getD i true
  if a.forwarded then ((List.range a.len).filter on).map fun i => (p.base + a.off + i, a.off + i)
  else sortLBytes (accessBytes p a.off a.len on)

/-- Shape a sorted list of bytes into cycles (R76 to R78). -/
def shapeList (p : Pat) (bs : List LByte) : List Cyc :=
  if p.d8o then bs.map fun b => ⟨b.1, 0, [b]⟩ else (cutRuns bs).flatMap (shapeRun p)

/-- The cycles of an access after its first `sent` bytes (R76 to R78, R84, R86, R175); a read of an RMW pattern masters none (R85). An RMW pattern whose BASE is no multiple of W drives
one cycle with the lanes of that address (DESIGN CHOICE, log entry 54). -/
def accCycles (a : Acc) (sent : Nat) : List CycS :=
  let p := patOf a.patE
  let cs : List Cyc :=
    match p.kind with
    | .rmw => if !a.write then [] else [⟨p.base, 0, sortLBytes ((List.range p.w).map fun x => (p.base + swapMap p 0 p.w x, x))⟩]
    | .iack => [⟨p.base % 8, 0, sortLBytes ((List.range p.w).map fun x => (swapMap p 0 p.w x, x))⟩]
    | _ => shapeList p ((accBytes a).drop sent)
  cs.map fun c => ⟨c.addr, c.beats, c.bytes⟩

/-- Bytes of one beat of a cycle. -/
def beatBytes (p : Pat) (c : CycS) (beat : Nat) : List LByte :=
  if c.beats = 0 then c.bytes else (c.bytes.drop (beat * beatSize p)).take (beatSize p)

/-- Address phases that a slave acknowledges before the first beat: one for MBLT, three for 2eVME (Table 6.5, R169). -/
def phasesOf (p : Pat) (c : CycS) : Nat := if c.beats = 0 then 0 else if p.burst = 2 then 1 else if p.burst = 3 then 3 else 0

/-- Beats of 64 bits, which carry D[63:32] on A[31:1] and LWORD* (Table 3.6). -/
def wideBeats (p : Pat) (c : CycS) : Bool := c.beats != 0 && decide (2 ≤ p.burst)

/-- The engine about to start an access. -/
def engOf (a : Acc) (sent : Nat) : Eng :=
  let cs := accCycles a sent
  { acc := a, todo := cs, beat := 0, got := [], retries := 0,
    phases := match cs with | c :: _ => phasesOf (patOf a.patE) c | [] => 0,
    rmwWrite := false, gap := false, hold := false, driving := false }

/-- A byte of a write by its window offset. -/
def writeByte (a : Acc) (x : Nat) : Byte := a.data.getD (x - a.off) 0

/-- A byte read so far. -/
def gotByte (e : Eng) (x : Nat) : Byte := ((e.got.find? fun b => b.1 == x).map (·.2)).getD 0

/-- The byte that a read-modify-write stores at window offset `x` (R84). -/
def rmwByte (e : Eng) (x : Nat) : Byte :=
  let w := (patOf e.acc.patE).w
  let m := e.acc.data.getD (w + x) 0
  (gotByte e x &&& ~~~ m) ||| (e.acc.data.getD x 0 &&& m)

/-- The bytes an engine writes in the present beat. -/
def beatOut (e : Eng) (c : CycS) : List Byte :=
  let p := patOf e.acc.patE
  (beatBytes p c e.beat).map fun b => if p.kind == .rmw then rmwByte e b.2 else writeByte e.acc b.2

/-- The bytes that the data lines carry in one beat, lowest address first (Table 3.6, R86). -/
def beatIn (p : Pat) (c : CycS) (n : Nat) (d : Nat) : List Byte :=
  if c.beats = 0 ∧ p.kind ≠ .iack then laneBytes c.addr n d
  else (List.range n).map fun i => BitVec.ofNat 8 (d >>> (8 * (n - 1 - i)))

/-! Pins (R79, R169, R188) -/

/-- A[31:1] in bits [31:1] and LWORD* in bit 0, as the engine drives them for 64-bit beats: the address in the address phase of MBLT
(Table 6.5); in those of 2eVME the upper address and the XAM 0x01, then the low address byte, the rest being free: `f` (R169; PRESUMED of
VITA 1.1, log entry 56); D[63:32] of a write beat `v` (Table 3.6). -/
def wideAddr (p : Pat) (e : Eng) (c : CycS) (writing : Bool) (v f : Nat) : Nat :=
  if e.phases = 0 then (if writing then v / 2 ^ 32 % 2 ^ 32 else 0)
  else if p.burst = 2 then c.addr
  else if e.phases = 3 then c.addr / 256 * 256 + 1
  else if e.phases = 2 then f % 2 ^ 32 / 256 * 256 + c.addr % 256
  else f % 2 ^ 32

/-- The engine drives a cycle: address, modifier, strobes and transceivers; the strobes are those of Table 3.6. The data lines carry nothing
the spec states in an address phase: `f` (DESIGN CHOICE, log entry 12). In the beats of a 64-bit read the slave drives group A (DEDUCED,
log entry 56). -/
def drivePins (p : Pat) (e : Eng) (c : CycS) (f : Nat) (x : Pins) : Pins :=
  let single := c.beats = 0
  let wide := wideBeats p c
  let n := c.bytes.length
  let l := lanesOf c.addr n
  let writing := e.acc.write && (p.kind != .rmw || e.rmwWrite)
  let d := beatOut e c
  let v := d.foldl (fun a b => a * 256 + b.toNat) 0
  let w := wideAddr p e c writing v f
  { x with
    as_ := true, ds1 := if single ∧ p.kind ≠ .iack then !l.ds1 else !(p.d8o),
    ds0 := if single ∧ p.kind ≠ .iack then !l.ds0 else true,
    addr := if p.kind = .iack then (p.base % 8) * 2
            else if single then c.addr / 4 * 4 + (if l.a1 then 2 else 0) else if wide then w / 2 * 2 else c.addr,
    am := if single then p.am else burstAm p.am p.burst,
    lwordLow := if p.kind = .iack then p.width == 3 else if single then !l.lword else if wide then w % 2 == 0 else beatSize p != 2,
    writeLow := writing, iackLow := p.kind == .iack,
    data := if !writing then 0 else if single then laneData c.addr d
            else if wide && decide (0 < e.phases) then f / 2 ^ 32 % 2 ^ 32 else if wide then v % 2 ^ 32 else v,
    groupA := !wide || writing || decide (0 < e.phases), groupC := true, groupD := writing }

/-- The engine releases the bus lines it drove; the transceivers return to the idle state (R188). -/
def idlePins (x : Pins) : Pins :=
  { x with as_ := false, ds1 := false, ds0 := false, addr := 0, am := 0, lwordLow := false, writeLow := false,
           iackLow := false, data := 0, groupA := false, groupC := false, groupD := false }

/-- Show the engine's present cycle on the pins. -/
def showEng (g : Seg) (e : Eng) (s : State) : State :=
  match e.todo with
  | c :: _ =>
    let p := patOf e.acc.patE
    let s1 := modSeg g (fun x => { x with pins := drivePins p e c (freeVal s).toNat x.pins }) s
    if wideBeats p c && decide (0 < e.phases) then tookFree s1 else s1
  | [] => s

/-! The bus (R162) -/

/-- The end of an access or of a truncated burst: release-when-done releases the bus, release-on-request when another
requests it or no work is left (R162). -/
def tenureEnd (g : Seg) (s : State) : State :=
  let rel := !tenureCfg s g 5 || decide (s.seg[g].busLines ≥ 16) || !hasWork s g
  modSeg g (fun x => { x with owner := x.owner && !rel, busLines := if rel then x.busLines % 16 else x.busLines }) s

/-! Outcomes (Table 3.9) -/

/-- Where the header of a record stands that a reader sees: the newest slot of an input record, else the record. -/
def recHdrAddr (s : State) (rec : Nat) : Nat :=
  match findInit s.lom.act [0] rec with
  | some i => slotAddr s.lom.act rec (slotNewest s i)
  | none => rec * 8

/-- ERROR sets in the header of a pattern's record, if it has one. -/
def recError (p : Pat) (s : State) : State :=
  if p.rlen = 0 then s else busError (recHdrAddr s p.recOff) s

/-- An Ephemeris entry that was dispatched in Loom cycle `c` has completed; it counts for that Loom cycle alone (Table 8.3). -/
def entryDone (i c : Nat) (s : State) : State :=
  if c = cyc s then { s with lom := { s.lom with completed := s.lom.completed ++ [i] } } else s

/-- A scheduled read failed: the newest slot's data are rewritten with ERROR and STALE (Tables 3.9 and 9.4); a record of the general area has
one slot, in place (R72). -/
def schedReadFail (p : Pat) (s : State) : State :=
  match findInit s.lom.act [0] p.recOff with
  | some i =>
    let (h, d) := newestSlot s i
    writeInput i d ((hdrFlags h &&& (255 - fFORCED)) ||| fERROR ||| fSTALE) (bitsOf h 31 24) (bitsOf h 15 0) (bitsOf h 63 32) s
  | none => if p.rlen = 0 then s else putFlags (p.recOff * 8) (fERROR ||| fSTALE) 0 s

/-- A scheduled read succeeded: its bytes become the record's newest slot (R263), or the record's data where it stands in the general area
(R72, Table 9.12). -/
def schedReadOk (p : Pat) (bs : List Byte) (s : State) : State :=
  match findInit s.lom.act [0] p.recOff with
  | some i => writeInput i bs 0 0 0 (cyc s) s
  | none => if p.rlen = 0 then s else putRec (p.recOff * 8) (mkHdr 0 0 0 (cyc s)) (bs.take p.rlen) s

/-- The response packet of a remote read: destination node and tag in the origin; `cy` is the low half of the Loom cycle
in which the request was received on port `rp`, `sent` STATUS plus 256 times the bytes already sent. -/
def responsePkt (rp : RingPort) (src tag status cy : Nat) (cells : List Nat) (bs : List Byte) : Pkt :=
  { owner := 21, cells := cells, eop := true, epoch := 0, cy := cy, src := 7 + bnat (rp == 1), pat := 0, off := 0, len := bs.length, aux := tag,
    data := bs, en := [], isRead := true, trunc := false, cont := false, poison := false, sent := status, patE := 0,
    origin := .remote src tag }

/-- Queue a response for another node (Table 10.8). -/
def queueResponse (p : Pkt) (s : State) : State :=
  match claim 21 (cellsFor p.data.length) s with
  | some (cells, s1) =>
    linkPkt 21 { p with cells := cells } { s1 with crl := { s1.crl with cell := fillCells cells p.data s1.crl.cell } }
  | none => { s with rng := { s.rng with answers := s.rng.answers ++ [p] } }

/-- Queue a response without data for another node; without a cell it waits (Table 7.4). -/
def respondStatus (rp : RingPort) (src tag status cy : Nat) (s : State) : State := queueResponse (responsePkt rp src tag status cy [] []) s

/-- Queue the responses that wait for a cell, in order; the fuel is their number. -/
def drainAnswers : Nat → State → State
  | 0, s => s
  | n + 1, s =>
    match s.rng.answers with
    | p :: ps =>
      if claimOk s.crl 21 (cellsFor p.data.length) then drainAnswers n (queueResponse p { s with rng := { s.rng with answers := ps } }) else s
    | [] => s

/-- The ring port that delivered a request (Table 7.1, SRC). -/
def pktPort (p : Pkt) : RingPort := if p.src = 8 then 1 else 0

/-- A slave answer on a segment: 0 DTACK*, 1 BERR*, 2 RETRY* (R181, Table 6.9). -/
def slaveAnswer (g : Seg) (a : Nat) (bs : List Byte) (s : State) : State :=
  let s1 := modSeg g (fun x => { x with pins := { x.pins with
    dtack := a == 0, berr := a != 0, retry := a == 2, groupR := true } }) (emit (.slave g a bs) s)
  if a = 1 then raise (segEv g 4) s1 else if a = 2 then raise (segEv g 5) s1 else s1

/-- A read that the slave decodes turns group D toward the bus (R188). -/
def turnD (g : Seg) (s : State) : State := modSeg g (fun x => { x with pins := { x.pins with groupD := true } }) s

/-- RETRY* when the segment gives it, else BERR*. -/
def retryOrBerr (g : Seg) (s : State) : State := slaveAnswer g (if segCfg s g 4 then 2 else 1) [] s

/-- Answer a read of a segment's slave with held data or a failure. -/
def answerHeld (g : Seg) (r : Bool × List Byte) (s : State) : State :=
  if r.1 then slaveAnswer g 1 [] s else slaveAnswer g 0 r.2 s

/-- Release the cells of a forwarded read's result (Table 7.3, LSx_DR). -/
def dropDr (g : Seg) (id : Nat) (s : State) : State :=
  ((listPkts s (16 + g.val)).filter fun p => p.origin == .fwdRead g id).foldl
    (fun s p => discardPkt (16 + g.val) p.cells s) s

/-- Empty a delayed-read slot. -/
def freeSlot (g : Seg) (k : Fin 4) (s : State) : State :=
  match s.seg[g].dr[k] with
  | some d => dropDr g d.id (modSeg g (fun x => { x with dr := x.dr.set k none }) s)
  | none => s

/-- The four delayed-read slots. -/
def allSlots : List (Fin 4) := [0, 1, 2, 3]

/-- The data or the failure of a forwarded read return (R180): to a waiting slave at once, else held in the slot; a read
whose slot is gone is discarded. -/
def fwdReadResult (g : Seg) (id : Nat) (r : Bool × List Byte) (s : State) : State :=
  match allSlots.find? fun k => (s.seg[g].dr[k].map (·.id)) == some id with
  | some k =>
    if s.seg[g].waitRead == some k.val then
      answerHeld g r (freeSlot g k (modSeg g (fun x => { x with waitRead := none }) s))
    else modSeg g (fun x => { x with dr := x.dr.set k (x.dr[k].map fun d => { d with result := some r, heldAt := s.pwr.ticks }) }) s
  | none => dropDr g id s

/-- A handler's status/ID is queued (R187, R209, R347): IACK_PKT, IACK_DONE with its log record, and either the
packet stays on the IACK queue or the event hub takes it. -/
def iackQueued (g : Seg) (level : Nat) (bs : List Byte) (cells : List Nat) (s : State) : State :=
  let v : Nat := bs.foldl (fun a b => a * 256 + b.toNat) 0
  let words := bytesLE 4 v ++ bytesLE 4 (level % 8 + 256 * g.val) ++ bytesLE 4 (timeFrac s).toNat ++
    bytesLE 4 (timeSec s).toNat
  let s1 := raiseD (segEv g 10) (BitVec.ofNat 32 level) (BitVec.ofNat 32 v) (raise 117 s)
  if getFld s .crl 0x004 0 0 = 1 then
    linkPkt 18 { owner := 18, cells := cells, eop := true, epoch := 0, cy := 0, src := 5 + g.val, pat := 0, off := 0, len := 16,
                 aux := level, data := words, en := [], isRead := true, trunc := false, cont := false, poison := false,
                 sent := 0, patE := 0, origin := .handler g level }
      { s1 with crl := { s1.crl with cell := fillCells cells words s1.crl.cell } }
  else releaseCells 18 cells s1

/-- The head packet of list `q` has been consumed: it leaves the list, its cells kept. -/
def takeHead (q : Nat) (s0 : State) : Option Pkt × State :=
  let s := useList q s0
  match listPkts s q with
  | p :: ps => (some p, setPkts q ps s)
  | [] => (none, s)

/-- Move the head packet of list `q` to list `q2` with the data read (R197). -/
def moveHead (q q2 : Nat) (bs : List Byte) (status : Nat) (s : State) : State :=
  match takeHead q s with
  | (some p, s1) =>
    linkPkt q2 { p with data := bs, sent := status }
      { s1 with crl := { s1.crl with cell := fillCells p.cells bs s1.crl.cell } }
  | (none, s1) => s1

/-- The mailbox's access has ended: its packet leaves VOT_RD (DESIGN CHOICE, log entry 21). -/
def mailDone (failed : Bool) (code : Nat) (bs : List Byte) (s : State) : State :=
  let s1 := ((listPkts s 4).filter fun p => p.origin == .mailbox).foldl (fun s p => discardPkt 4 p.cells s) s
  { s1 with mnt := { s1.mnt with legEnd := some (failed, code, bs) } }

/-- The window bytes of a completed read, in window order. -/
def readBytes (e : Eng) : List Byte := (List.range e.acc.len).map fun i => gotByte e (e.acc.off + i)

/-- The bytes of a read in bus order, lowest legacy address first: the status/ID that the handler queues (R86, R187). -/
def busBytes (e : Eng) : List Byte := e.got.map (·.2)

/-- An access ended well; a read of an RMW pattern answers from its record (R85). -/
def finishOk (e : Eng) (s : State) : State :=
  let a := e.acc
  let p := patOf a.patE
  let bs := if p.kind == .rmw && !a.write then imgBytes s (p.recOff * 8 + 8) p.w else readBytes e
  let s0 := if a.write && p.rlen != 0 && !a.cont then putFlags (recHdrAddr s p.recOff) 0 fCONT s else s
  let s1 := if p.kind == .rmw && a.write then
      putRec (p.recOff * 8) (mkHdr 0 0 0 (cyc s0)) ((List.range p.w).map (gotByte e)) s0 else s0
  match a.origin with
  | .sched i c _ =>
    entryDone i c (if a.write then busClear (p.recOff * 8) s1 else schedReadOk p bs (contend (schedMayLose s1) s1))
  | .vote k pat =>
    if a.write then popPkt a.queue s1 else readResult (BitVec.ofNat 32 k) pat false bs (moveHead a.queue 4 bs 0 s1)
  | .remote _ _ => if a.write then popPkt a.queue s1 else moveHead a.queue 21 bs 0 s1
  | .fwdWrite _ => popPkt a.queue s1
  | .fwdRead g2 id => fwdReadResult g2 id (false, bs) (moveHead a.queue (16 + g2.val) bs 0 s1)
  | .mailbox => mailDone false 0 bs s1
  | .handler g2 level =>
    match takeHead a.queue s1 with
    | (some q, s2) =>
      iackQueued g2 level (busBytes e) q.cells (modSeg g2 (fun x => { x with
        hdlBusy := x.hdlBusy.filter (· != level), irqIn := withBits x.irqIn level level 0 }) s2)
    | (none, s2) => s2

/-- The outcome of a failed access for its path (Table 3.9, R187). A failed forwarded write is logged alone: no record takes ERROR for it
(DESIGN CHOICE, log entry 54). -/
def failOutcome (a : Acc) (code : Nat) (s : State) : State :=
  let p := patOf a.patE
  match a.origin with
  | .sched i c _ => entryDone i c (if a.write then busError (p.recOff * 8) s else schedReadFail p s)
  | .vote k pat =>
    if a.write then popPkt a.queue (recError p s) else readResult (BitVec.ofNat 32 k) pat true [] (moveHead a.queue 4 [] 0 s)
  | .remote src tag =>
    if a.write then popPkt a.queue (recError p s)
    else
      match listPkts s a.queue with
      | q :: _ => if q.owner = 21 then moveHead a.queue 21 [] 1 s else respondStatus (pktPort q) src tag 1 q.cy (popPkt a.queue s)
      | [] => s
  | .fwdWrite _ => popPkt a.queue s
  | .fwdRead g2 id => fwdReadResult g2 id (true, []) (moveHead a.queue (16 + g2.val) [] 0 s)
  | .mailbox => mailDone true code [] s
  | .handler g2 level =>
    pulse (4 + g2.val) (segEv g2 11) 0 0 (putFld (.ls g2) 0x004 level level 0
      (modSeg g2 (fun x => { x with
        hdlBusy := x.hdlBusy.filter (· != level), irqIn := withBits x.irqIn level level 0 }) (popPkt a.queue s)))

/-- A failed access (R81): BUS_ERR with its log record, then the outcome of Table 3.9; nothing of it waits for a gap any more. -/
def finishFail (g : Seg) (a : Acc) (addr code : Nat) (s : State) : State :=
  failOutcome a code (pulse (4 + g.val) (segEv g 2) (BitVec.ofNat 32 (a.pat % 65536)) (BitVec.ofNat 32 addr)
    (modSeg g (fun x => { x with waived := x.waived.filter fun w => !(w.1 == a.queue && w.2.1 == a.origin) }) s))

/-- The address that a cycle drives; an interrupt acknowledge cycle drives its level on A[3:1] (R86). -/
def drivenAddr (a : Acc) (c : CycS) : Nat := if (patOf a.patE).kind == .iack then c.addr % 8 * 2 else c.addr

/-- The address of the first cycle an access would have mastered (R81). -/
def firstAddr (a : Acc) : Nat := match accCycles a 0 with | c :: _ => drivenAddr a c | [] => (patOf a.patE).base

/-- The address of the cycle an engine is at. -/
def engAddr (e : Eng) : Nat := match e.todo with | c :: _ => drivenAddr e.acc c | [] => (patOf e.acc.patE).base

/-- The address of the first byte that an engine has not transferred: what a DROP logs (R81). -/
def dropAddr (e : Eng) : Nat :=
  match e.todo with
  | c :: _ =>
    if (patOf e.acc.patE).kind == .iack then drivenAddr e.acc c
    else ((beatBytes (patOf e.acc.patE) c e.beat).head?.map (·.1)).getD c.addr
  | [] => (patOf e.acc.patE).base

/-- Whether no cycle of the access has been completed yet. -/
def isFirst (e : Eng) : Bool := e.got.isEmpty && e.retries == 0 && e.todo.length == (accCycles e.acc 0).length

/-! Work of an unavailable or stopped segment (R157, R158, R160, Table 13.7) -/

/-- What completes on a segment that masters nothing: a scheduled transfer in progress while a transition leaves RUN (Table 13.7), an
ATOMIC access in progress whose SEG_CFG has changed (R157). -/
def keepsOn (s : State) (g : Seg) (e : Eng) : Bool :=
  !s.seg[g].sysresetLow &&
    ((s.pwr.fromRun && e.acc.place == .scheduled && segCfg s g 0 && segCfg s g 1) ||
      (s.pwr.st == .run && (patOf e.acc.patE).atomic && !isFirst e))

/-- The data bytes of a write that are present: an incomplete packet grows at its list's head. -/
def present (s : State) (a : Acc) : List Byte :=
  if 10 ≤ a.queue ∧ a.queue ≤ 13 then (match listPkts s a.queue with | p :: _ => p.data | [] => a.data) else a.data

/-- The next beat's bytes are all present (R174). -/
def beatPresent (s : State) (e : Eng) (c : CycS) (beat : Nat) : Bool :=
  !e.acc.write || (beatBytes (patOf e.acc.patE) c beat).all fun b => decide (b.2 - e.acc.off < (present s e.acc).length)

/-- The first beat of an engine's next cycle is present. -/
def beatReady (s : State) (e : Eng) : Bool := match e.todo with | c :: _ => beatPresent s e c e.beat | [] => true

/-- Fail one piece of queued work of segment `g`, if there is any. -/
def failOne (g : Seg) (s : State) : State :=
  let s := nextCycle s
  match s.seg[g].paused.find? (fun e => !keepsOn s g e), s.seg[g].sched, s.seg[g].mail with
  | some e, _, _ => finishFail g e.acc (engAddr e) 1 (modSeg g (fun x => { x with paused := x.paused.erase e }) s)
  | none, a :: as, _ => finishFail g a (firstAddr a) 1 (modSeg g (fun x => { x with sched := as }) s)
  | none, [], some a => finishFail g a (firstAddr a) 1 (modSeg g (fun x => { x with mail := none }) s)
  | none, [], none =>
    match ([vapQ g, remQ g, fwdQ g].find? fun q => !(listPkts s q).isEmpty) with
    | some q =>
      match listPkts s q with
      | p :: _ => let a := accOfPkt q .vap p; finishFail g a (firstAddr a) 1 s
      | [] => s
    | none => s

/-- How many pieces of work a segment has queued. -/
def workCount (s : State) (g : Seg) : Nat :=
  (s.seg[g].paused.filter fun e => !keepsOn s g e).length + s.seg[g].sched.length + s.seg[g].mail.toList.length + (listPkts s (vapQ g)).length +
    (listPkts s (remQ g)).length + (listPkts s (fwdQ g)).length

/-- Fail queued work while there is some; the fuel is its amount. -/
def failWork (g : Seg) : Nat → State → State
  | 0, s => s
  | n + 1, s => failWork g n (failOne g s)

/-- A transfer that still waits for the bus of a segment that masters nothing goes back to the work that waits. -/
def shelve (g : Seg) (s : State) : State :=
  match s.seg[g].eng with
  | some e => if e.driving || keepsOn s g e then s
              else modSeg g (fun x => { x with eng := none, paused := x.paused ++ [e] }) s
  | none => s

/-- An owner without work releases the bus (R162); a segment that is no system controller drives no grant and no BCLR* (R183). -/
def dropBus (g : Seg) (s : State) : State :=
  let keep := s.seg[g].owner && hasWork s g
  let ctl := sysconAct s g
  modSeg g (fun x => { x with
    owner := keep, busLines := if x.owner && !keep then x.busLines % 16 else x.busLines,
    pins := { x.pins with bgOut := if ctl then x.pins.bgOut else 0, bclr := ctl && x.pins.bclr } }) s

/-- Work queued for a segment that masters nothing fails at the head of its queue (R158, Table 6.11). -/
def segFlush (g : Seg) (s : State) : State :=
  if masterOk s g then dropBus g s
  else
    let s1 := shelve g s
    dropBus g (if workCount s1 g == 0 then s1 else failWork g (workCount s1 g) s1)

/-- The mailbox's access has its cells: it goes to its segment or, as a request, to RNG_REQ_TX (R6, R58, R164). -/
def mailStart (p : Pkt) (s : State) : State :=
  if (patOf p.patE).node = 0 then
    let a := { accOfPkt 64 .mailbox p with en := List.replicate p.len true }
    modSeg (patOf p.patE).seg (fun x => { x with mail := some a }) (linkPkt 4 p s)
  else noteRemote p.patE p.pat .mailbox (linkPkt 20 { p with aux := s.rng.nextTag } s)

/-- The mailbox's access claims its cells, or waits for them (DESIGN CHOICE, log entry 21: in VOT_RD). -/
def mailPump (s : State) : State :=
  match s.mnt.leg with
  | some p =>
    if resetNow s.crl 20 then s
    else
      match claim 4 (cellsFor p.len) s with
      | some (cells, s1) =>
        mailStart { p with cells := cells }
          { s1 with mnt := { s1.mnt with leg := none }, crl := { s1.crl with cell := fillCells cells p.data s1.crl.cell } }
      | none => s
  | none => s

/-- A remote request that RNG_RX holds goes to its segment's list, but for a list that is being recovered (R197, R211). -/
def ringPump : Nat → State → State
  | 0, s => s
  | n + 1, s =>
    match listPkts s 23 with
    | p :: _ =>
      let q := remQ (patOf p.patE).seg
      if resetNow s.crl q then s
      else
        match takeHead 23 s with
        | (some p, s1) => ringPump n (linkPkt q p s1)
        | (none, s1) => s1
    | [] => s

/-- Let the vote unit, the mailbox, the ring's requests and both segments act on what is present: used at the end of every command that adds
work or frees cells. -/
def pump (s : State) : State :=
  let s1 := mailPump (voteUnit s)
  let s2 := ringPump (listPkts s1 23).length s1
  segFlush 1 (segFlush 0 (drainAnswers s2.rng.answers.length s2))

/-! The Loom's gaps (R234, R235) -/

/-- The windows of a segment due in Loom cycle `c`: start and end. -/
def windowsOf (w : WSet) (g : Seg) (c : Nat) : List (Nat × Nat) :=
  (List.range (ephCount w)).filterMap fun i =>
    let e := ephAt w i
    if ephDue e c && e.kind == 0 && (patOf (patEntry w (e.f 79 64))).seg == g then some (e.time, e.time + e.f 119 96)
    else none

/-- Loom time `t` lies in no window (R234). -/
def outsideWindows (s : State) (g : Seg) (t : Nat) : Bool :=
  !s.lom.run || (windowsOf s.lom.act g (cyc s)).all fun v => !(decide (v.1 ≤ t) && decide (t < v.2))

/-- W of R234. -/
def nextWindow (s : State) (g : Seg) (t : Nat) : Nat :=
  let p := ephPeriod s.lom.act
  let least (l : List Nat) : Option Nat := l.foldl (fun a b => match a with | some x => some (min x b) | none => some b) none
  match least ((windowsOf s.lom.act g (cyc s)).filterMap fun v => if t < v.1 then some v.1 else none) with
  | some x => x
  | none =>
    match least ((windowsOf s.lom.act g ((cyc s + 1) % 2 ^ 32)).map (·.1)) with
    | some x => p + x
    | none => p + p

/-- EST of R234 for the cycles of a grant: one cycle or burst, every cycle of an ATOMIC access. -/
def estimate (s : State) (g : Seg) (e : Eng) : Nat :=
  let h1 := ephHdr s.lom.act (2 + 2 * g.val)
  let h2 := ephHdr s.lom.act (3 + 2 * g.val)
  let one (c : CycS) : Nat := bitsOf h1 15 0 + c.beats * bitsOf h1 31 16
  let cs := if (patOf e.acc.patE).atomic then e.todo else e.todo.take 1
  (cs.map one).foldl (· + ·) 0 + (if s.seg[g].owner then 0 else bitsOf h2 15 0)

/-- What tells one transfer from every other (R235): its list, the requester of the access, the cycles still to come. -/
def xferKey (e : Eng) : Nat × Origin × Nat := (e.acc.queue, e.acc.origin, e.todo.length)

/-- R234 permits a non-scheduled transfer at Loom time `t`; R235 waives the fit, never the windows. -/
def gapPermits (s : State) (g : Seg) (t : Nat) (e : Eng) : Bool :=
  !s.lom.run ||
    (outsideWindows s g t &&
      (s.seg[g].waived.contains (xferKey e) ||
        decide (t + estimate s g e + bitsOf (ephHdr s.lom.act (3 + 2 * g.val)) 31 16 ≤ nextWindow s g t)))

/-! The arbiter (R215, R217) -/

/-- The cut-through threshold of a list in cells: above 64 acts as 64 (Table 7.13). -/
def cutAt (s : State) (q : Nat) : Nat := min 64 (getQ s.crl q).thresh

/-- A packet at the head of a list may start: a write complete or past the cut-through threshold, a truncated write
once its remainder is issued, a remote read once its response cells can be claimed (R164, R205, R206); a remote request
waits for the gaps of the Loom cycle after the one in which it was received (R312). -/
def pktStartable (s : State) (q : Nat) (p : Pkt) : Bool :=
  let sameCycle := match p.origin with | .remote _ _ => s.lom.run && p.cy == cyc s % 65536 | _ => false
  if sameCycle then false
  else if p.isRead then
    (match p.origin with
      | .remote _ _ => p.owner == 21 || claimOk s.crl 21 (cellsFor p.len)
      | _ => true)
  else if p.trunc then p.cont
  else p.eop || ((patOf p.patE).cut && !(patOf p.patE).atomic && decide (0 < cutAt s q) && decide (cutAt s q ≤ p.data.length / 64))

/-- An IACK of the interrupt handler. -/
def isHandler (p : Pkt) : Bool := match p.origin with | .handler _ _ => true | _ => false

/-- The packet of list `q` that its place would start: the head; on a voted aperiodic list voted work and handler IACKs take turns
(R217). -/
def turnHead (s : State) (g : Seg) (q : Nat) : Option Pkt :=
  if q = vapQ g then
    let a := (listPkts s q).find? isHandler
    let b := (listPkts s q).find? fun p => !isHandler p
    if s.seg[g].iackTurn then a.or b else b.or a
  else (listPkts s q).head?

/-- The engine state with which a packet of list `q` would start. -/
def headEng (s : State) (g : Seg) (q : Nat) (place : Place) : Option Eng :=
  match turnHead s g q with
  | some p => if pktStartable s q p then some (engOf (accOfPkt q place p) p.sent) else none
  | none => none

/-- A paused access requests its next transfer: RETRY_GAP has passed and, unless `dry`, its first beat is present (R171). -/
def pausedAsks (s : State) (dry : Bool) (e : Eng) : Option Eng := if e.gap || !(dry || beatReady s e) then none else some e

/-- The next transfer of list `q`: a paused access first, then the head. -/
def listNext (s : State) (g : Seg) (q : Nat) (place : Place) (dry : Bool) : Option Eng :=
  match s.seg[g].paused.find? fun e => e.acc.queue == q with
  | some e => pausedAsks s dry e
  | none => headEng s g q place

/-- The transfer that each place of the arbiter requests; `dry` takes accesses whose next beat is not present. -/
def placeAsks (s : State) (g : Seg) (dry : Bool) : Place → Option Eng
  | .scheduled =>
    match s.seg[g].paused.find? fun e => e.acc.place == .scheduled with
    | some e => pausedAsks s dry e
    | none => s.seg[g].sched.head?.map fun a => engOf a 0
  | .vap => listNext s g (vapQ g) .vap dry
  | .remote =>
    let a := listNext s g (remQ g) .remote dry
    let b := listNext s g (fwdQ g) .remote dry
    if s.seg[g].fwdTurn then b.or a else a.or b
  | .mailbox =>
    match s.seg[g].paused.find? fun e => e.acc.place == .mailbox with
    | some e => pausedAsks s dry e
    | none => s.seg[g].mail.map fun a => engOf a 0

/-- The transfer that each place of the arbiter requests. -/
def placeNext (s : State) (g : Seg) (pl : Place) : Option Eng := placeAsks s g false pl

/-- The places in requester order of Table 7.6. -/
def allPlaces : List Place := [.scheduled, .vap, .remote, .mailbox]

/-- The number of a place in requester order. -/
def placeNum : Place → Nat
  | .scheduled => 0 | .vap => 1 | .remote => 2 | .mailbox => 3

/-- The rank of a place (Tables 7.20 and 7.21). -/
def placeRank (s : State) (g : Seg) : Place → Nat
  | .scheduled => bitsOf s.crl.prioSched.toNat 2 0
  | .vap => getFld s .arb (0x040 + 4 * g.val) 2 0
  | .remote => getFld s .arb (0x040 + 4 * g.val) 6 4
  | .mailbox => getFld s .arb (0x040 + 4 * g.val) 10 8

/-- An ATOMIC access that has begun keeps the engine (R89). -/
def atomicHolder (s : State) (g : Seg) : Option Eng :=
  s.seg[g].paused.find? fun e => (patOf e.acc.patE).atomic

/-- The places whose transfer the arbiter may grant at Loom time `t`. -/
def candidates (s : State) (g : Seg) (t : Nat) (dry : Bool) : List (Place × Eng) :=
  match atomicHolder s g with
  | some e => if e.gap then [] else [(e.acc.place, e)]
  | none =>
    if !masterOk s g then
      (s.seg[g].paused.filter fun e => keepsOn s g e && !e.gap).map fun e => (e.acc.place, e)
    else
    allPlaces.filterMap fun pl =>
      match placeAsks s g dry pl with
      | some e => if pl == .scheduled || gapPermits s g t e then some (pl, e) else none
      | none => none

/-- Round robin distance among the requesters of one rank, from the one of that rank granted last (R217). -/
def rrDist (s : State) (g : Seg) (pl : Place) : Nat :=
  match s.seg[g].grants.find? fun x => placeRank s g x == placeRank s g pl with
  | some last => (placeNum pl + 3 - placeNum last) % 4
  | none => placeNum pl

/-- The winner of an arbitration: highest rank, then round robin (R217). -/
def winner (s : State) (g : Seg) (cs : List (Place × Eng)) : Option (Place × Eng) :=
  cs.foldl (fun best c =>
    match best with
    | none => some c
    | some b =>
      let rb := placeRank s g b.1
      let rc := placeRank s g c.1
      if rb < rc ∨ (rb = rc ∧ rrDist s g c.1 < rrDist s g b.1) then some c else some b) none

/-- A scheduled write takes its data from the voted output image (R164), or from the safe image where a word of it is uncorrectable (R272), by
way of a Creel port on which the vote unit's quarter comes first (R217). -/
def schedLoad (e : Eng) (s0 : State) : Eng × State :=
  match e.acc.origin with
  | .sched _ _ _ =>
    let s := contend e.acc.write s0
    if e.acc.write then
      let p := patOf e.acc.patE
      let a := p.recOff * 8 + 8
      if safeRec s p.recOff then ({ e with acc := { e.acc with data := safeBytes s a p.rlen } }, s)
      else if imgBad s a p.rlen then
        ({ e with acc := { e.acc with data := safeBytes s a p.rlen } }, eccError (p.recOff * 8) (imgMeet a p.rlen s))
      else ({ e with acc := { e.acc with data := imgBytes s a p.rlen } }, imgMeet a p.rlen s)
    else (e, s)
  | _ => (e, s0)

/-- A remote read starts: its response packet is claimed in RNG_RSP_TX and the request's cells are released (Table 7.3);
a poisoned packet or an uncorrectable cell word fails it (R214). -/
def openRemoteRead (e : Eng) (s : State) : State :=
  match e.acc.origin, listPkts s e.acc.queue with
  | .remote _ _, p :: ps =>
    if e.acc.write || p.owner == 21 then s
    else
      match claim 21 (cellsFor p.len) s with
      | some (cells, s1) =>
        setPkts e.acc.queue ({ p with owner := 21, cells := cells } :: ps) (releaseCells p.owner p.cells s1)
      | none => s
  | _, _ => s

/-- The packet whose cells feed an access: the head of its list, or the mailbox's packet in VOT_RD. -/
def feedPkt (s : State) (a : Acc) : Option Pkt :=
  if a.queue = 64 then (listPkts s 4).find? fun p => p.origin == .mailbox
  else if 8 ≤ a.queue ∧ a.queue < 14 then (listPkts s a.queue).head? else none

/-- The cell words that feed the present beat of a write, as words of memory 6 of Table 15.2 (eight words a cell); a read-modify-write takes
DATA and MASK. -/
def beatWords (s : State) (e : Eng) : List Nat :=
  match e.todo, feedPkt s e.acc with
  | c :: _, some p =>
    let pt := patOf e.acc.patE
    let is := if pt.kind == .rmw then List.range (2 * pt.w) else (beatBytes pt c e.beat).map fun b => b.2 - e.acc.off
    if e.acc.write then (is.map fun i => p.cells.getD (i / 64) 16384 * 8 + i % 64 / 8).eraseDups else []
  | _, _ => []

/-- Some word that feeds the present beat is uncorrectable (R214). -/
def beatBad (s : State) (e : Eng) : Bool := wordsBad s (beatWords s e)

/-- The engine reads the words that feed the present beat: errors are counted (R214, R419). -/
def readBeat (e : Eng) (s : State) : State := meetWords (beatWords s e) s

/-- The lateness of entry `i` of Loom cycle `c` with TIME `due`, which starts at Loom time `t` (R230, Table 8.18). -/
def countLate (i c due t : Nat) (s : State) : State :=
  let late := t + (cyc s + 2 ^ 32 - c) % 2 ^ 32 * ephPeriod s.lom.act - due
  let s1 := if fieldOf (getReg s .lom 0x068) 17 0 < min late 0x3FFFF then
      setReg .lom 0x068 (BitVec.ofNat 32 (min late 0x3FFFF + i % 2 ^ 14 * 2 ^ 18)) s else s
  if 10 < late then raise 133 (putFld .lom 0x064 15 0 (getFld s1 .lom 0x064 15 0 + 1) s1) else s1

/-- The engine gives up its transfer; the pins return to idle. -/
def engStop (g : Seg) (s : State) : State := modSeg g (fun x => { x with eng := none, ahead := none, pins := idlePins x.pins }) s

/-- Change the head packet of a list. -/
def modHead (q : Nat) (f : Pkt → Pkt) (s : State) : State :=
  match listPkts s q with
  | p :: ps => setPkts q (f p :: ps) s
  | [] => s

/-- The end of a packet that is being dropped arrives: the cells it still holds are released and the DROP ends (R208). -/
def endDropping (q : Nat) (s : State) : State :=
  match (getQ s.crl q).dropping with
  | some p => raise 121 (releaseCells p.owner p.cells { s with crl := setQ q { getQ s.crl q with dropping := none } s.crl })
  | none => s

/-- A write stops before the beat that holds an uncorrectable word: POISON sets in its packet, and the access fails (R214). -/
def stopAtError (g : Seg) (e : Eng) (s : State) : State :=
  tenureEnd g (pump (finishFail g e.acc (if isFirst e && e.beat == 0 then engAddr e else dropAddr e) 1
    (modHead e.acc.queue (fun p => { p with poison := true }) (engStop g s))))

/-- The engine drives the pins of its present beat, whose words it reads from the Creel (R214). -/
def driveBeat (g : Seg) (e : Eng) (s : State) : State :=
  let s1 := readBeat e s
  if beatBad s e then stopAtError g e s1 else showEng g e (modSeg g (fun x => { x with eng := some e }) s1)

/-- The engine drives the first pins of its transfer; a scheduled entry's first transfer is its start (R230). -/
def engDrive (g : Seg) (e : Eng) (t : Nat) (first : Bool) (s : State) : State :=
  let s1 := driveBeat g { e with driving := true } s
  match e.acc.origin with
  | .sched i c due => if first then countLate i c due t s1 else s1
  | _ => s1

/-- The requests that lose an arbitration are parked; a scheduled request newly parked sets SCHED_PARKED (R218). -/
def park (g : Seg) (won : Option Place) (s : State) : State :=
  let lost := allPlaces.filter fun pl => (placeNext s g pl).isSome && won != some pl
  raiseIf (lost.contains .scheduled && !s.seg[g].parked.contains .scheduled) 125
    (modSeg g (fun x => { x with parked := lost }) s)

/-- A voted read that waits on a list was placed under an older epoch of its channel (R126). -/
def pktStale (s : State) (p : Pkt) : Bool :=
  match p.origin with
  | .vote _ _ => p.isRead && (match allPorts.find? fun c => c.val == p.src with | some c => s.ch[c].epoch.toNat != p.epoch | none => false)
  | _ => false

/-- A stale read leaves list `q`, and its entry waits again (R126). -/
def dropStaleRead (q : Nat) (s : State) (p : Pkt) : State :=
  let s1 := discardPkt q p.cells { s with rng := { s.rng with rem := s.rng.rem.filter fun r => !(q == 20 && r.tag == p.aux) } }
  match p.origin with
  | .vote k pat => (match findOpen s1 (BitVec.ofNat 32 k) pat with | some e => readAgain e s1 | none => s1)
  | _ => s1

/-- The stale reads on list `q`, but for one an engine performs, are discarded as they are reached (R126). -/
def dropStale (q : Nat) (s : State) : State :=
  let engs := [(0 : Seg), 1].flatMap fun g => s.seg[g].eng.toList ++ s.seg[g].paused
  let stale := (listPkts s q).filter fun p => pktStale s p && !(engs.any fun e => e.acc.queue == q && e.acc.origin == p.origin)
  stale.foldl (dropStaleRead q) s

/-- The packet that starts comes to the head of its list (R217). -/
def bringFront (e : Eng) (s : State) : State :=
  if 8 ≤ e.acc.queue ∧ e.acc.queue < 10 then
    match (listPkts s e.acc.queue).find? fun p => p.origin == e.acc.origin with
    | some p => setPkts e.acc.queue (p :: (listPkts s e.acc.queue).erase p) s
    | none => s
  else s

/-- The arbiter has granted one transfer of place `pl`; without the bus the engine requests it first. -/
def grantTransfer (g : Seg) (t : Nat) (pl : Place) (e : Eng) (s : State) : State :=
  let x := s.seg[g]
  let s1 := openRemoteRead e (bringFront e (park g (some pl) s))
  let first := isFirst e
  let (e1, s2) := if first then schedLoad e s1 else (e, s1)
  let s3 := modSeg g (fun x => { x with
    paused := x.paused.filter (fun f => f != e),
    sched := if pl == .scheduled && !x.paused.contains e then x.sched.drop 1 else x.sched,
    mail := if pl == .mailbox then none else x.mail,
    grants := pl :: x.grants.filter (· != pl), fwdTurn := if pl == .remote then e.acc.queue == remQ g else x.fwdTurn,
    iackTurn := if pl == .vap then (match e.acc.origin with | .handler _ _ => false | _ => true) else x.iackTurn,
    waived := x.waived.filter (· != xferKey e) }) s2
  match e1.todo with
  | [] => tenureEnd g (pump (finishOk e1 s3))
  | _ =>
    if x.owner then engDrive g e1 t first s3
    else modSeg g (fun x => { x with eng := some e1 }) s3

/-- The present cycle's profile has PIPE set, and the cycle is in its last beat: the next transfer may be granted now (R170, R216). -/
def pipeOpen (s : State) (g : Seg) : Bool :=
  match s.seg[g].eng with
  | some e =>
    (match e.todo with
     | c :: _ => e.driving && !e.hold && e.phases == 0 && decide (c.beats ≤ e.beat + 1)
     | [] => false) && profField s.lom.act g (patOf e.acc.patE).profile 2 24 24 == 1
  | none => false

/-- LEGACY_TRANSFER_START at Loom time `t` (R215): the arbiter grants one transfer. Brownout hold and a gated clock let no new cycle begin
(R378, R190); an ATOMIC access in progress completes. In the last beat of a pipelined cycle the grant waits for its end (R170). -/
def transferStart (g : Seg) (t : Nat) (s0 : State) : State :=
  let s := dropStale (vapQ g) s0
  let x := s.seg[g]
  if !(masterOk s g || x.paused.any (keepsOn s g)) || x.gated || (s.pwr.brownout && (atomicHolder s g).isNone) then s
  else if x.eng.isSome then (if pipeOpen s g then modSeg g (fun x => { x with ahead := some t }) s else s)
  else
    match winner s g (candidates s g t false) with
    | none => park g none s
    | some (pl, e) => grantTransfer g t pl e s

/-- The engine requests the bus (R162). -/
def busAsked (s : State) (g : Seg) : Bool :=
  !s.seg[g].owner && (match s.seg[g].eng with | some e => !e.driving && (masterOk s g || keepsOn s g e) | none => false)

/-- BUS_GRANT at Loom time `t` (R162): BGxIN* of a level is low. An engine that requests at that level takes the grant, asserts BBSY* and
drives its first pins; otherwise the grant is passed on. -/
def busGrant (g : Seg) (level t : Nat) (s : State) : State :=
  let pass := if s.pwr.st == .run then emit (.grantOut g level) s else s
  match s.seg[g].eng with
  | some e =>
    if busAsked s g && level == getFld s (.ls g) 0x040 7 6 && (!s.pwr.brownout || ((patOf e.acc.patE).atomic && !isFirst e)) then
      engDrive g e t (isFirst e) (modSeg g (fun x => { x with
        owner := true, mcfg := getReg s (.ls g) 0x040, pins := { x.pins with bgOut := 0 } }) s)
    else pass
  | none => pass

/-- BUS_RELEASE_REQUEST (R162): in release-on-request the owner releases the bus after the access in progress. -/
def busReleaseRequest (g : Seg) (s : State) : State :=
  let x := s.seg[g]
  if !x.owner || !tenureCfg s g 5 then s
  else
    let busy := x.eng.isSome || x.paused.any fun e => !isFirst e && !e.gap
    modSeg g (fun x => { x with owner := busy, busLines := if busy then x.busLines % 16 + 16 else x.busLines }) s

/-! Beats (R167 to R175) -/

/-- The next transfer, granted during the last beat of a pipelined cycle, begins in the same tenure (R170). Without its first beat it is an
address-only cycle, and starts again when the beat is present (R171; DESIGN CHOICE, log entry 57: the beat is missed if it is not present
when the phase begins). The first transfer of a scheduled entry starts at a LEGACY_TRANSFER_START of its own. -/
def startAhead (g : Seg) (t : Nat) (s : State) : State :=
  if !s.seg[g].owner || s.seg[g].eng.isSome || s.seg[g].gated || (s.pwr.brownout && (atomicHolder s g).isNone) then s
  else
    match winner s g (candidates s g t true) with
    | some (pl, e) =>
      if pl == .scheduled && isFirst e then s
      else if beatReady s e then grantTransfer g t pl e s
      else
        match e.todo with
        | c :: _ => emit (.addrOnly g (drivenAddr e.acc c)
            (if c.beats = 0 then (patOf e.acc.patE).am else burstAm (patOf e.acc.patE).am (patOf e.acc.patE).burst)) s
        | [] => s
    | none => s

/-- The bytes read so far, in window order up to the first that is missing. -/
def readPrefix (e : Eng) : List Byte :=
  ((List.range e.acc.len).takeWhile fun i => e.got.any fun b => b.1 == e.acc.off + i).map fun i => gotByte e (e.acc.off + i)

/-- A voted read has bytes for the copies that wait (R99). -/
def partRead (e : Eng) (s : State) : State :=
  match e.acc.origin with
  | .vote k pat => if e.acc.write then s else readPart (BitVec.ofNat 32 k) pat (readPrefix e) s
  | _ => s

/-- The cycle of the engine ends well: the access ends, or its next transfer waits for a grant. -/
def cycleDone (g : Seg) (e : Eng) (s : State) : State :=
  let next (s1 : State) : State := match s.seg[g].ahead with | some t => startAhead g t s1 | none => s1
  match e.todo.drop 1 with
  | [] => next (tenureEnd g (pump (finishOk e (engStop g s))))
  | c :: cs =>
    let e1 := { e with todo := c :: cs, beat := 0, retries := 0, phases := phasesOf (patOf e.acc.patE) c,
                       driving := false, hold := false, rmwWrite := false }
    next (segFlush g (modSeg g (fun x => { x with paused := x.paused ++ [e1] }) (partRead e (engStop g s))))

/-- Bytes of the access written once the engine stands at its present beat. -/
def sentSoFar (e : Eng) : Nat :=
  let total := (accBytes e.acc).length
  let left := (e.todo.map fun c => c.bytes.length).foldl (· + ·) 0
  total - left + e.beat * beatSize (patOf e.acc.patE)

/-- DTACK_SEEN (R167): an address phase, a beat or a read phase is complete. -/
def dtackSeen (g : Seg) (d : DWord) (s : State) : State :=
  match s.seg[g].eng with
  | some e =>
    if !e.driving || e.hold then s
    else
      let p := patOf e.acc.patE
      match e.todo with
      | [] => s
      | c :: _ =>
        let put (e : Eng) : State := showEng g e (modSeg g (fun x => { x with eng := some e }) s)
        let go (e : Eng) : State := driveBeat g e (partRead e s)
        if 0 < e.phases then put { e with phases := e.phases - 1 }
        else if p.kind == .rmw && !e.rmwWrite then
          let bs := beatIn p c c.bytes.length d.toNat
          put { e with rmwWrite := true, got := (c.bytes.map (·.2)).zip bs }
        else
          let xs := beatBytes p c e.beat
          let e1 := if e.acc.write then e
            else { e with got := e.got ++ ((xs.map (·.2)).zip (beatIn p c xs.length d.toNat)) }
          if c.beats ≤ e.beat + 1 then cycleDone g e1 s
          else
            let e2 := { e1 with beat := e.beat + 1, acc := { e.acc with data := present s e.acc } }
            if beatPresent s e2 c e2.beat then go e2 else put { e2 with hold := true }
  | none => s

/-- The transfer in progress ends with a failure (R80): the access fails and none of its later cycles is issued. -/
def cycleFail (g : Seg) (code : Nat) (s : State) : State :=
  match s.seg[g].eng with
  | some e => tenureEnd g (pump (finishFail g e.acc (engAddr e) code (engStop g s)))
  | none => s

/-- BERR_SEEN (R172). -/
def berrSeen (g : Seg) (code : Nat) (s : State) : State :=
  match s.seg[g].eng with
  | some e => if e.driving then cycleFail g code (incReg (.ls g) 0x058 1 s) else s
  | none => s

/-- The rest of a cycle from the beat that was answered with RETRY*, as a new burst (R172). -/
def retryCycle (p : Pat) (e : Eng) (c : CycS) : CycS :=
  if c.beats = 0 then c
  else ⟨c.addr + e.beat * beatSize p, c.beats - e.beat, c.bytes.drop (e.beat * beatSize p)⟩

/-- RETRY_SEEN (R172): the retry gap starts, or the access fails beyond ERRPOL.RTRY. -/
def retrySeen (g : Seg) (s : State) : State :=
  match s.seg[g].eng with
  | some e =>
    if !e.driving then s
    else if !tenureCfg s g 4 then berrSeen g 1 s
    else
      let p := patOf e.acc.patE
      match e.todo with
      | [] => s
      | c :: cs =>
        if p.rtry ≤ e.retries then cycleFail g 2 (incReg (.ls g) 0x05C 1 s)
        else
          let c1 := retryCycle p e c
          let e1 := { e with todo := c1 :: cs, beat := 0, retries := e.retries + 1, phases := phasesOf p c1,
                             rmwWrite := false, gap := true, hold := false, driving := false }
          modSeg g (fun x => { x with paused := x.paused ++ [e1], owner := x.owner && p.atomic }) (engStop g s)
  | none => s

/-- RETRY_GAP_EXPIRE (R172): the access that waits longest requests its transfer again. -/
def retryGapExpire (g : Seg) (s : State) : State :=
  let rec clear : List Eng → List Eng
    | [] => []
    | e :: es => if e.gap then { e with gap := false } :: es else e :: clear es
  modSeg g (fun x => { x with paused := clear x.paused }) s

/-- BTO (R184): the bus timer of the system controller asserts BERR*; its own cycle fails. -/
def btoOp (g : Seg) (s : State) : State :=
  if segCfg s g 3 && s.pwr.st == .run && bitAt (getReg s (.ls g) 0x044) 2 then
    berrSeen g 2 (raise (segEv g 6) (modSeg g (fun x => { x with pins := { x.pins with berr := true } }) s))
  else s

/-- STROBE_HOLD_RESUME (R174): the next beat has arrived and the burst continues. -/
def strobeHoldResume (g : Seg) (s : State) : State :=
  match s.seg[g].eng with
  | some e =>
    match e.todo with
    | c :: _ =>
      let e1 := { e with acc := { e.acc with data := present s e.acc }, hold := false }
      if e.hold && beatPresent s e1 c e.beat then driveBeat g e1 s else s
    | [] => s
  | none => s

/-- TRUNC (R174, R206): the held burst is truncated at its last complete beat; the packet stays at the head, marked. -/
def truncOp (g : Seg) (s : State) : State :=
  match s.seg[g].eng with
  | some e =>
    if e.hold then
      let s1 := modHead e.acc.queue (fun p => { p with trunc := true, cont := false, sent := sentSoFar e }) (engStop g s)
      tenureEnd g (raise (segEv g 3) (incReg (.ls g) 0x060 1 s1))
    else s
  | none => s

/-- The head of list `q`, if it is the remainder of a truncated write, may be issued (R175, R206). -/
def continueHead (q : Nat) (s : State) : State :=
  match listPkts s q with
  | p :: _ =>
    if p.trunc && !p.cont && (p.eop || (decide (0 < cutAt s q) && decide (64 * cutAt s q ≤ p.data.length - p.sent))) then
      let s1 := modHead q (fun p => { p with cont := true }) s
      let pt := patOf p.patE
      if pt.rlen = 0 then s1 else putFlags (recHdrAddr s1 pt.recOff) fCONT 0 s1
    else s
  | [] => s

/-- CONTINUED_ISSUE (R175, R206): the remainder of a truncated write at the head of a list of the segment is issued once its
bytes fill Q_THRESH cells or its end is present; CONTINUED sets in the record's header. -/
def continuedIssue (g : Seg) (s : State) : State := continueHead (fwdQ g) (continueHead (remQ g) s)

/-- GAP_WAIT_EXPIRE (R235): the waiting non-scheduled transfer of the place has been refused for a whole Loom cycle (DESIGN CHOICE, log entry 3); it
is granted outside every window, fit or not. -/
def gapWaitExpire (g : Seg) (pl : Place) (s : State) : State :=
  match (if pl = .scheduled then none else placeNext s g pl) with
  | some e => modSeg g (fun x => { x with waived := x.waived.filter (· != xferKey e) ++ [xferKey e] }) s
  | none => s

/-- GAP_OVERRUN (R235): a window opens while a non-scheduled transfer holds the engine; an ATOMIC access holds it between its cycles too
(R89). -/
def gapOverrun (g : Seg) (s : State) : State :=
  raiseIf (s.lom.run && ((s.seg[g].eng.or (atomicHolder s g)).any fun e => e.acc.place != .scheduled)) 143 s

end Sys2Proof.Machine
end

