-- ==== Sys2Proof/Machine/Slave.lean ====
section
/-!
DEFINITION. The slave of a legacy segment, its system controller, interrupter, handler and clock gating (chapter 6).
-/

namespace Sys2Proof.Machine

open Sys2Proof

/-! Decoding (R176, R182) -/

/-- What a modifier asks of a slave window: space (0 A16, 1 A24, 2 A32), supervisory, program, BLT, MBLT. -/
def amInfo (am : Nat) : Option (Nat × Bool × Bool × Bool × Bool) :=
  let space := if am = 0x29 ∨ am = 0x2D then some 0 else if 0x38 ≤ am ∧ am < 0x40 then some 1
    else if 0x08 ≤ am ∧ am < 0x10 then some 2 else none
  space.map fun sp => (sp, am / 4 % 2 == 1, am % 4 == 2, am % 4 == 3, am % 4 == 0)

/-- Window `v` decodes a cycle (R176). -/
def winDecodes (v : Win) (c : SlaveCyc) : Bool :=
  match amInfo c.am.toNat with
  | some (sp, sup, prog, blt, mblt) =>
    v.valid && v.space == sp && (if sup then v.super else v.user) && (!prog || v.prog) &&
    decide (v.base ≤ c.addr.toNat) && decide (c.addr.toNat < v.base + 2 ^ v.size) &&
    (!c.write || c.rmw || v.wrEn) && (c.write || c.rmw || v.rdEn) && (!blt || v.bltEn) && (!mblt || v.mbltEn) &&
    (!c.rmw || v.fwd || v.rmwEn)
  | none => false

/-- The BLT or MBLT modifier of a cycle. -/
def isBlock (c : SlaveCyc) : Bool :=
  match amInfo c.am.toNat with
  | some (_, _, _, blt, mblt) => blt || mblt
  | none => false

/-- GA.SLOT: the geographic pins inverted (Table 6.14). -/
def gaSlot (s : State) (g : Seg) : Nat := 31 - s.seg[g].gaPins % 32

/-- GA.PAR_OK: an odd number of the six geographic pins is low (DEDUCED, log entry 15). -/
def gaParOk (s : State) (g : Seg) : Bool :=
  ((List.range 6).filter fun i => bitsOf s.seg[g].gaPins i i == 0).length % 2 == 1

/-- The geographic address is valid (R182). -/
def gaValid (s : State) (g : Seg) : Bool := gaParOk s g && decide (1 ≤ gaSlot s g) && decide (gaSlot s g ≤ 21)

/-- GA.CRCSR_ACT: the CR/CSR space is decoded (R158, R182). -/
def crcsrAct (s : State) (g : Seg) : Bool := segAvail s g && segCfg s g 8 && gaValid s g

/-- The segment's slave answers at all: available, its clock running, the device not mastering (R158, R163, R190). -/
def slaveOn (s : State) (g : Seg) : Bool :=
  segAvail s g && !s.seg[g].gated && !((s.seg[g].eng.map (·.driving)) == some true)

/-- The slave window that decodes a cycle, by number. -/
def winFind (s : State) (g : Seg) (c : SlaveCyc) : Option (Nat × Win) :=
  if slaveOn s g && segCfg s g 2 then
    ((List.range 16).map fun j => (j, winAt s.lom.act g j)).find? fun v => winDecodes v.2 c
  else none

/-- The record of an image window: image offset of its header and its length. -/
def winRecord (s : State) (v : Win) : Option (Nat × Nat) :=
  let w := s.lom.act
  if v.areaOut then
    let rec8 := voutBase w / 8 + v.recOff
    ((outList w).find? fun r => r.1 == rec8).map fun r => (rec8 * 8, r.2.1)
  else
    let rec8 := lslBase w / 8 + v.recOff
    (findInit w [1] rec8).map fun i => (rec8 * 8, (initRec w i).rlen)

/-! Image windows (R177, R178) -/

/-- The header and NEXT after an accepted write beat of `n` bytes at record byte `b` (R178). -/
def incompleteUpdate (g : Seg) (j hdrAddr rlen b n : Nat) (s : State) : State :=
  let next := mget 0 s.seg[g].winNext j
  let next1 := if b = 0 then n else if 0 < next ∧ b = next then next + n else 0
  let s1 := if b = 0 || !(decide (0 < next) && b == next) then putFlags hdrAddr fINCOMPLETE 0 s else s
  let s2 := modSeg g (fun x => { x with winNext := mset 0 j (if next1 = rlen then 0 else next1) x.winNext }) s1
  if next1 = rlen then
    putImg hdrAddr (bytesLE 8 (mkHdr 0 (hdrFlags (imgHdr s2 hdrAddr) &&& (255 - fINCOMPLETE)) 0 (cyc s2))) s2
  else s2

/-- A slave access that finds no cell waits (R177, R179, R202); SEG_CFG as it stands now governs its answer (R157). -/
def slaveHold (g : Seg) (c : SlaveCyc) (data : List Byte) (begun : Bool) (s : State) : State :=
  modSeg g (fun x => { x with slvWait := some ⟨c, data, begun⟩, slvCfg := if begun then x.slvCfg else getReg s (.ls g) 0x040 }) s

/-- RETRY* or BERR* for an access that has waited, as SEG_CFG stood when it began (R157). -/
def lateAnswer (g : Seg) (s : State) : State := slaveAnswer g (if bitAt s.seg[g].slvCfg 4 then 2 else 1) [] s

/-- IMAGE_WINDOW_WRITE (R177): one write beat to an image window. -/
def imageWrite (g : Seg) (c : SlaveCyc) (data : List Byte) (s : State) : State :=
  match winFind s g c with
  | some (j, v) =>
    if v.fwd then s
    else if s.pwr.brownout then retryOrBerr g s
    else
      let b := c.addr.toNat - v.base
      match winRecord s v with
      | some (h, rlen) =>
        if v.areaOut || decide (rlen < b + data.length) then slaveAnswer g 1 [] s
        else
          match claim (14 + g.val) 1 s with
          | some (cells, s1) =>
            let s2 := { s1 with crl := { s1.crl with cell := fillCells cells data s1.crl.cell } }
            let s3 := incompleteUpdate g j h rlen b data.length (putImg (h + 8 + b) data s2)
            slaveAnswer g 0 [] (releaseCells (14 + g.val) cells s3)
          | none => slaveHold g c data false s
      | none => slaveAnswer g 1 [] s
  | none => s

/-- IMAGE_WINDOW_READ (R177): the record's data, every earlier accepted beat included. Of a word that is uncorrectable the bytes as stored answer
(DESIGN CHOICE, log entry 54: R272 names no outcome for it). -/
def imageRead (g : Seg) (c : SlaveCyc) (s0 : State) : State :=
  match winFind s0 g c with
  | some (_, v) =>
    let s := turnD g s0
    if v.fwd then s0
    else if s.pwr.brownout then retryOrBerr g s
    else
      let b := c.addr.toNat - v.base
      match winRecord s v with
      | some (h, rlen) =>
        if rlen < b + c.size then slaveAnswer g 1 [] s
        else if v.areaOut && safeRec s (h / 8) then slaveAnswer g 0 ((safeBytes s (h + 8) rlen).drop b |>.take c.size) s
        else slaveAnswer g 0 (imgBytes s (h + 8 + b) c.size) (imgMeet (h + 8 + b) c.size s)
      | none => slaveAnswer g 1 [] s
  | none => s0

/-! Forward windows (R179, R180, Table 3.10) -/

/-- Where a forwarded access goes: the pattern that runs and the target segment, or another node. -/
inductive FwdTo where
  | segment (patE : Nat) (h : Seg)
  | node (patE n : Nat)
  | absent (patE : Nat)
  deriving DecidableEq, Repr

/-- The ring gives no path: both ports of this node have lost their link (Table 3.10; DEDUCED, log entry 58). -/
def pathGone (s : State) : Bool := s.rng.port[(0 : RingPort)].lost && s.rng.port[(1 : RingPort)].lost

/-- The target of forwarding pattern index `pat` (R73, R74). -/
def fwdTarget (s : State) (pat : Nat) : FwdTo :=
  let e := patEntry s.lom.act pat
  match localPat s e with
  | some le => .segment le (patOf le).seg
  | none => if !isMember s (patOf e).node || pathGone s then .absent e else .node e (patOf e).node

/-- The access is one that Table 3.10 answers with BERR*: pattern invalid, of KIND IACK or RMW, of the other KIND, or the
access outside its window. -/
def fwdRefused (patE : Nat) (write : Bool) (off n : Nat) : Bool :=
  let p := patOf patE
  p.kind == .iack || p.kind == .rmw || accessRefused p write off n

/-- The forwarding pattern refuses the access: itself (Table 3.10), its fetch (R64), or this node on its behalf (R69, R74). -/
def fwdBad (s : State) (pat : Nat) (write : Bool) (off n : Nat) : Bool :=
  let e := patEntry s.lom.act pat
  fetchBad s pat || fwdRefused e write off n || nodeRefused s e write off n ||
    (match localPat s e with | some le => fwdRefused le write off n | none => false)

/-- The target masters nothing, or no path leads to it (Table 3.10). -/
def fwdGone (s : State) (pat : Nat) : Bool :=
  match fwdTarget s pat with | .segment _ h => !masterOk s h | .absent _ => true | .node _ _ => false

/-- The pattern entry that a forwarded access runs: the destination's at this node, else the forwarding pattern's. -/
def fwdEntry (s : State) (pat : Nat) : Nat :=
  match fwdTarget s pat with | .segment le _ => le | .node e _ => e | .absent e => e

/-- The answer for an unavailable target (Table 3.10): by LMPOL, BERR* where RETRY* is disabled. -/
def fwdUnavailable (g : Seg) (patE : Nat) (s : State) : State :=
  if (patOf patE).lmpol then retryOrBerr g s else slaveAnswer g 1 [] s

/-- The packet of a forwarded access. -/
def fwdPkt (g : Seg) (owner pat patE off n : Nat) (data : List Byte) (cells : List Nat) (rd : Bool) (o : Origin) (aux : Nat) : Pkt :=
  { owner := owner, cells := cells, eop := true, epoch := 0, cy := 0, src := 5 + g.val, pat := pat, off := off, len := n, aux := aux,
    data := data, en := [], isRead := rd, trunc := false, cont := false, poison := false, sent := 0, patE := patE,
    origin := o }

/-- A forwarded write of slave `g` has not been issued on its segment or has not left for the ring. -/
def writesWaiting (s : State) (g : Seg) : Bool :=
  [fwdQ 0, fwdQ 1, 20].any fun q => (listPkts s q).any fun p => p.origin == .fwdWrite g

/-- Move the accesses of slave `g` from its queue to their targets, in order (R180, R205): a write for another node once it is complete, a
read once every earlier write has gone. The fuel is their number. -/
def slavePump (g : Seg) : Nat → State → State
  | 0, s => s
  | n + 1, s =>
    match listPkts s (14 + g.val) with
    | p :: _ =>
      let q := if (patOf p.patE).node = 0 then fwdQ (patOf p.patE).seg else 20
      if resetNow s.crl q || (p.isRead && writesWaiting s g) || (q == 20 && !p.eop) then s
      else
        match takeHead (14 + g.val) s with
        | (some p, s1) =>
          slavePump g n (if q = 20 then noteRemote p.patE p.pat p.origin (linkPkt 20 { p with aux := s1.rng.nextTag } s1) else linkPkt q p s1)
        | (none, s1) => s1
    | [] => s

/-- What stands in the queue of slave `g`. -/
def slaveList (s : State) (g : Seg) : List Pkt := listPkts s (14 + g.val)

/-- The packet that a forwarded write of slave `g` fills, with its list (R179). -/
def openSlave (s : State) (g : Seg) : Option (Nat × Pkt) :=
  [14 + g.val, fwdQ 0, fwdQ 1].findSome? fun q =>
    ((listPkts s q).find? fun p => p.origin == .fwdWrite g && !p.eop).map fun p => (q, p)

/-- Change the packet that slave `g` fills on list `q`. -/
def putOpen (g : Seg) (q : Nat) (p : Pkt) (s : State) : State :=
  setPkts q ((listPkts s q).map fun x => if x.origin == .fwdWrite g && !x.eop then p else x)
    { s with crl := { s.crl with cell := fillCells p.cells p.data s.crl.cell } }

/-- One beat of a forwarded write finds its place in a cell of the slave queue, if one can be claimed: a cell is claimed when it is begun
(R179, R199). `mk` is the packet that a first beat opens; the beats of a packet that is being dropped, or was lost, take no cell (R208). -/
def fwdBeat (g : Seg) (mk : Option Pkt) (bs : List Byte) (s : State) : Option State :=
  match openSlave s g, mk with
  | some (q, p), _ =>
    let d := p.data ++ bs
    if cellsFor d.length = p.cells.length then some (putOpen g q { p with data := d } s)
    else (claim (14 + g.val) 1 s).map fun e => putOpen g q { p with data := d, cells := p.cells ++ e.1 } e.2
  | none, some p =>
    (claim (14 + g.val) 1 s).map fun e =>
      slavePump g ((slaveList e.2 g).length + 1) (linkPkt (14 + g.val) { p with cells := e.1, data := bs, eop := false }
        { e.2 with crl := { e.2.crl with cell := fillCells e.1 bs e.2.crl.cell } })
  | none, none => some s

/-- The list on which the packet that slave `g` fills is being dropped (R208). -/
def slaveDropping (s : State) (g : Seg) : Option Nat :=
  [fwdQ 0, fwdQ 1].find? fun q => (getQ s.crl q).dropping.any fun p => p.origin == .fwdWrite g

/-- The last beat of a forwarded write has its place: the packet is complete. -/
def endSlave (g : Seg) (s : State) : State :=
  let s1 := match openSlave s g with | some (q, p) => putOpen g q { p with eop := true } s | none => s
  let s2 := match slaveDropping s1 g with | some q => endDropping q s1 | none => s1
  slavePump g (slaveList s2 g).length s2

/-- Beats of a forwarded write as far as they find places, each answered with DTACK*; the rest waits. The fuel bounds their number. -/
def fwdBeats (g : Seg) (c : SlaveCyc) : Nat → Option Pkt → List Byte → State → State
  | 0, _, _, s => s
  | n + 1, mk, bs, s =>
    if bs.isEmpty then endSlave g s
    else
      match fwdBeat g mk (bs.take c.size) s with
      | some s1 => fwdBeats g c n none (bs.drop c.size) (slaveAnswer g 0 [] s1)
      | none => slaveHold g c bs mk.isNone s

/-- FORWARD_WINDOW_WRITE (R179): a write cycle or burst passed on as a posted write. A pattern of this node whose destination is its own lets the
destination swap (R73 against R83; DESIGN CHOICE, log entry 54). -/
def forwardWrite (g : Seg) (c : SlaveCyc) (data : List Byte) (s0 : State) : State :=
  match winFind s0 g c with
  | some (_, v) =>
    if !v.fwd then s0
    else if s0.pwr.brownout then retryOrBerr g s0
    else
      let off := c.addr.toNat - v.base
      let n := data.length
      let s := fetchPat v.pat s0
      if c.rmw || fwdBad s0 v.pat true off n then slaveAnswer g 1 [] s
      else if fwdGone s0 v.pat then fwdUnavailable g (patEntry s.lom.act v.pat) s
      else fwdBeats g c (n + 1) (some (fwdPkt g (14 + g.val) v.pat (fwdEntry s0 v.pat) off n [] [] false (.fwdWrite g) 0)) data s
  | none => s0

/-- A forwarded write ended before its announced length: an access of it that has begun keeps only the bytes that came. -/
def trimEng (n : Nat) (e : Eng) : Eng :=
  let p := patOf e.acc.patE
  let cut (c : CycS) : CycS :=
    let bs := c.bytes.filter fun b => decide (b.2 < e.acc.off + n)
    ⟨c.addr, if c.beats = 0 then 0 else bs.length / beatSize p, bs⟩
  { e with acc := { e.acc with len := n }, todo := (e.todo.map cut).filter fun c => !c.bytes.isEmpty }

/-- The trimmed transfer has no beat left. -/
def spent (e : Eng) : Bool := match e.todo with | c :: _ => c.beats != 0 && decide (c.beats ≤ e.beat) | [] => true

/-- The access of slave `g`'s packet on list `q` ends with the bytes that came. -/
def trimAccess (g : Seg) (q n : Nat) (s : State) : State :=
  let h : Seg := if q = fwdQ 0 then 0 else 1
  let mine (e : Eng) : Bool := e.acc.queue == q && e.acc.origin == .fwdWrite g
  let s1 := modSeg h (fun x => { x with
    eng := x.eng.map fun e => if mine e then trimEng n e else e,
    paused := x.paused.map fun e => if mine e then trimEng n e else e }) s
  match s1.seg[h].eng, s1.seg[h].paused.find? fun e => mine e && spent e with
  | some e, _ => if mine e && spent e then cycleDone h e s1 else s1
  | none, some e => tenureEnd h (pump (finishOk e (modSeg h (fun x => { x with paused := x.paused.erase e }) s1)))
  | none, none => s1

/-- The master was turned away: the packet ends with the beats that were accepted. -/
def closeSlave (g : Seg) (s : State) : State :=
  match openSlave s g with
  | some (q, p) =>
    let s1 := endSlave g (putOpen g q { p with len := p.data.length } s)
    if q < 14 then trimAccess g q p.data.length s1 else s1
  | none => endSlave g s

/-- SLAVE_CLAIM_TIMEOUT (R177, R179): a beat of cycle `c` that found no cell for 2 µs is answered RETRY* or BERR*. -/
def slaveClaimTimeout (g : Seg) (c : SlaveCyc) (s : State) : State :=
  match s.seg[g].slvWait with
  | some w =>
    if w.cyc = c then
      let s1 := lateAnswer g (modSeg g (fun x => { x with slvWait := none, waitRead := if c.write then x.waitRead else none }) s)
      if w.begun then closeSlave g s1 else s1
    else s
  | none => s

/-- A delayed-read slot whose read equals this one: window, address, modifier, data strobes and LWORD* (R180). -/
def slotOfRead (s : State) (g : Seg) (j : Nat) (c : SlaveCyc) : Option (Fin 4) :=
  allSlots.find? fun k =>
    match s.seg[g].dr[k] with
    | some d => d.win == j && d.cyc.addr == c.addr && d.cyc.am == c.am && d.cyc.size == c.size
    | none => false

/-- A repeat of a slot's read (R180): the held result, or a further wait. -/
def repeatRead (g : Seg) (k : Fin 4) (s : State) : State :=
  match s.seg[g].dr[k] with
  | some d =>
    match d.result with
    | some r => answerHeld g r (freeSlot g k s)
    | none => modSeg g (fun x => { x with waitRead := some k.val, slvCfg := getReg s (.ls g) 0x040 }) s
  | none => s

/-- A new forwarded read takes slot `k` and joins the slave queue (R180, R197). -/
def startForwarded (g : Seg) (j : Nat) (v : Win) (c : SlaveCyc) (k : Fin 4) (s : State) : State :=
  match claim (16 + g.val) 1 s with
  | none => slaveHold g c [] false (modSeg g (fun x => { x with waitRead := some 4 }) s)
  | some (cells, s1) =>
    let id := s1.seg[g].drNext
    let s2 := modSeg g (fun x => { x with
      dr := x.dr.set k (some ⟨j, c, id, none, 0⟩), drNext := x.drNext + 1, waitRead := some k.val, slvCfg := getReg s (.ls g) 0x040 }) s1
    let s3 := linkPkt (14 + g.val)
      (fwdPkt g (16 + g.val) v.pat (fwdEntry s v.pat) (c.addr.toNat - v.base) c.size [] cells true (.fwdRead g id) k.val) s2
    slavePump g (slaveList s3 g).length s3

/-- FORWARDED_READ (R180): a single-cycle read of a forward window. -/
def forwardedRead (g : Seg) (c : SlaveCyc) (s0 : State) : State :=
  match winFind s0 g c with
  | some (j, v) =>
    let s := turnD g s0
    if !v.fwd || c.write then s0
    else if s.pwr.brownout then retryOrBerr g s
    else if isBlock c || c.rmw then slaveAnswer g 1 [] s
    else
      match slotOfRead s g j c with
      | some k => repeatRead g k s
      | none =>
        let s1 := fetchPat v.pat s
        if fwdBad s v.pat false (c.addr.toNat - v.base) c.size then slaveAnswer g 1 [] s1
        else if fwdGone s v.pat then fwdUnavailable g (patEntry s.lom.act v.pat) s1
        else
          match allSlots.find? fun k => s.seg[g].dr[k].isNone with
          | none => retryOrBerr g s1
          | some k => startForwarded g j v c k s1
  | none => s0

/-- A forwarded read that its target segment has not begun within 2 µs, whose pattern answers with BERR* (LMPOL 0): Table 3.10, 'not granted
within the time' (DEDUCED, log entry 58). -/
def notGranted (s : State) (g : Seg) (id : Nat) : Bool :=
  let o : Origin := .fwdRead g id
  let begun := ([(0 : Seg), 1].any fun h => (s.seg[h].eng.toList ++ s.seg[h].paused).any fun e => e.acc.origin == o)
  !begun && [14 + g.val, fwdQ 0, fwdQ 1].any fun q => (listPkts s q).any fun p =>
    p.origin == o && (patOf p.patE).node == 0 && !(patOf p.patE).lmpol

/-- FORWARDED_READ_TIMEOUT (R180): 2 µs without data; the read is kept in its slot, or its result will be discarded. -/
def forwardedTimeout (g : Seg) (s : State) : State :=
  match s.seg[g].waitRead with
  | none => s
  | some k =>
    let s1 := modSeg g (fun x => { x with waitRead := none, slvWait := if k = 4 then none else x.slvWait }) s
    match allSlots.find? fun j => j.val == k with
    | some j =>
      let no := (s.seg[g].dr[j].map fun d => notGranted s g d.id).getD false
      if bitAt s.seg[g].slvCfg 4 && !no then slaveAnswer g 2 [] s1
      else slaveAnswer g 1 [] (modSeg g (fun x => { x with dr := x.dr.set j none }) s1)
    | none => lateAnswer g s1

/-- DELAYED_READ_REPEAT (R180). -/
def delayedRepeat (g : Seg) (c : SlaveCyc) (s : State) : State :=
  match winFind s g c with
  | some (j, _) =>
    match slotOfRead s g j c with
    | some k => repeatRead g k (turnD g s)
    | none => s
  | none => s

/-- DR_DISCARD (R180): a held result nobody collected for 1 ms. -/
def drDiscardOp (g : Seg) (k : Fin 4) (s : State) : State :=
  match s.seg[g].dr[k] with
  | some d => if d.result.isSome then raise (segEv g 13) (freeSlot g k s) else s
  | none => s

/-- A slave access that waits for a cell takes its turn again. -/
def slaveResume (g : Seg) (s : State) : State :=
  match s.seg[g].slvWait with
  | some w =>
    let q := if w.cyc.write then 14 + g.val else 16 + g.val
    if !claimOk s.crl q 1 then s
    else
      let s1 := modSeg g (fun x => { x with slvWait := none }) s
      if w.begun then fwdBeats g w.cyc (w.data.length + 1) none w.data s1
      else if !w.cyc.write then forwardedRead g w.cyc (modSeg g (fun x => { x with waitRead := none }) s1)
      else
        match winFind s1 g w.cyc with
        | some (_, v) => if v.fwd then forwardWrite g w.cyc w.data s1 else imageWrite g w.cyc w.data s1
        | none => s1
  | none => s

/-- What waits in the slaves of both segments goes on. -/
def slavePumps (s : State) : State :=
  let one (g : Seg) (s : State) : State := let s1 := slaveResume g s; slavePump g (slaveList s1 g).length s1
  one 1 (one 0 s)

/-- SYSRESET* falls or rises (R159): the transfer in progress fails as if ended by BERR* (no cycle ended with BERR*: BERR_CNT stands; DEDUCED,
log entry 54), delayed reads are discarded, queued work fails, the slave answers nothing. -/
def sysresetOp (g : Seg) (low : Bool) (s : State) : State :=
  if s.seg[g].sysresetLow == low then s
  else
    let s1 := raise (segEv g 9) (modSeg g (fun x => { x with sysresetLow := low }) s)
    if low then
      let s2 := cycleFail g 1 s1
      let s3 := allSlots.foldl (fun s k => freeSlot g k s) s2
      let s4 := modSeg g (fun x => { x with waitRead := none, slvWait := none, owner := false, ahead := none }) s3
      pump (if (s.seg[g].slvWait.map (·.begun)) == some true then closeSlave g s4 else s4)
    else s1

/-! CR/CSR space and geographic address (R182) -/

/-- CRCSR_ACCESS (R182) at offset `off` of the slot's 512 KiB range; a read returns one byte. -/
def crcsrOp (g : Seg) (write : Bool) (off : Nat) (s : State) : State :=
  if !slaveOn s g || !crcsrAct s g then s
  else if write then (if s.pwr.brownout then retryOrBerr g s else slaveAnswer g 1 [] s)
  else if s.pwr.brownout then retryOrBerr g (turnD g s)
  else slaveAnswer g 0 [if off < 0x4000 ∧ off % 4 = 3 then crByte s.lom.act g (off / 4) else 0] (turnD g s)

/-- GA_ERR (R182): the geographic pins are sampled at reset or change. -/
def gaOp (g : Seg) (pins : Nat) (s : State) : State :=
  let s1 := modSeg g (fun x => { x with gaPins := pins }) s
  raiseIf (!gaParOk s1 g) (segEv g 14) s1

/-! Interrupter and handler (R186, R187) -/

/-- The routed events pending at a level. -/
def levelEvents (s : State) (g level : Nat) : List Nat :=
  (s.evh.levels.filter fun l => l.1 == g && l.2.1 == level).map (·.2.2)

/-- A software request is pending at a level: the one that IRQ_GEN.LEVEL gave when ASSERT rose. -/
def swAt (s : State) (g : Seg) (level : Nat) : Bool := bitsOf s.seg[g].swPend level level == 1 && decide (level ≠ 0)

/-- The device asserts a level of a segment. -/
def levelOwn (s : State) (g : Seg) (level : Nat) : Bool :=
  s.pwr.st == .run && (!(levelEvents s g.val level).isEmpty || swAt s g level)

/-- Drop an event that is pending at a level of a segment: it has been answered there (R346). -/
def dropLevel (g level ev : Nat) (s : State) : State :=
  { s with evh := { s.evh with levels := s.evh.levels.filter fun l => !(l == (g, level, ev)) } }

/-- The least of a list of event numbers. -/
def leastEv (l : List Nat) : Option Nat := l.foldl (fun a b => match a with | some x => some (min x b) | none => some b) none

/-- IACK_CYCLE (R186): answered with the status/ID, or passed on; `w` is 0 for D8(O), 1 for D16, 2 for D32. -/
def iackOp (g : Seg) (level : Nat) (w : Nat) (s : State) : State :=
  if s.pwr.st != .run || (s.seg[g].eng.map (·.driving)) == some true then s
  else if segAvail s g && levelOwn s g level then
    let out (v : Nat) (s : State) : State := slaveAnswer g 0 ((bytesLE (2 ^ w) v).reverse) (turnD g s)
    match leastEv (levelEvents s g.val level) with
    | some ev => out ev (dropLevel g.val level ev s)
    | none => out (getFld s (.ls g) 0x068 7 0) (modSeg g (fun x => { x with swPend := withBits x.swPend level level 0 }) s)
  else emit (.iackOut g level) s

/-- IRQ_GEN (R186): the register is written; a change of ASSERT from 0 to 1 requests one interrupt. -/
def irqGenWrite (g : Seg) (data : Word) (s : State) : State :=
  let was := bitAt (getReg s (.ls g) 0x068) 31
  let s1 := setReg (.ls g) 0x068 (data &&& 0x800700FF#32) s
  let l := fieldOf data 18 16
  if !was && bitAt data 31 && l != 0 then modSeg g (fun x => { x with swPend := x.swPend ||| 2 ^ l }) s1 else s1

/-- Handler word `level` of indirect space 0x2: valid, and its IACK pattern index. -/
def handlerPat (s : State) (g : Seg) (level : Nat) : Option Nat :=
  let w := hdlWord s.lom.act g level
  if level ≠ 0 ∧ bitsOf w 0 0 = 1 then some (bitsOf w 31 16) else none

/-- IRQL* is low: another board drives it, or this device (R186, R192). -/
def irqLow (s : State) (g : Seg) (level : Nat) : Bool := bitsOf s.seg[g].irqIn level level == 1 || (levelOwn s g level && decide (level ≠ 0))

/-- The handler may serve a level (R187). -/
def servable (s : State) (g : Seg) (level : Nat) : Bool :=
  (handlerPat s g level).isSome && bitAt (getReg s (.ls g) 0x004) level && irqLow s g level &&
    !s.seg[g].hdlBusy.contains level

/-- HANDLER_SERVE (R187): level `level`, with IRQL* low, is served if it is the highest pending one and the IACK queue
has a cell. A pattern whose fetch meets an uncorrectable error runs no cycle (R64), and the level stays unserved (DEDUCED, log entry 54). -/
def handlerServe (g : Seg) (level : Nat) (s : State) : State :=
  let s0 := modSeg g (fun x => { x with irqIn := x.irqIn ||| 2 ^ level }) s
  if s.pwr.st != .run || s.seg[g].sysresetLow then s
  else if servable s0 g level && (List.range 8).all (fun l => decide (l ≤ level) || !servable s0 g l) then
    match handlerPat s0 g level, (if resetNow s.crl (vapQ g) then none else claim 18 1 s0) with
    | some pat, some (cells, s1) =>
      if fetchBad s0 pat then fetchPat pat s0 else
      let e := patEntry s1.lom.act pat
      let s2 := modSeg g (fun x => { x with hdlBusy := x.hdlBusy ++ [level] }) s1
      pump (linkPkt (vapQ g)
        { fwdPkt g 18 pat e 0 (patOf e).w [] cells true (.handler g level) level with src := 5 + g.val } (fetchPat pat s2))
    | _, _ => s0
  else s0

/-! System controller (R183, R185) -/

/-- The highest requesting level, if any. -/
def priPick (lines : Nat) : Option Nat := [3, 2, 1, 0].find? fun l => bitsOf lines l l == 1

/-- The next requesting level after the one granted last, in descending order (DEDUCED, log entry 16). -/
def rrsPick (lines last : Nat) : Option Nat :=
  [1, 2, 3, 4].findSome? fun d => let l := (last + 4 - d) % 4; if bitsOf lines l l = 1 then some l else none

/-- A grant stands on a chain until BBSY* falls or the level no longer requests (R183). -/
def grantStands (s : State) (g : Seg) (lines : Nat) (bbsy : Bool) : Bool :=
  !bbsy && decide (s.seg[g].pins.bgOut &&& lines ≠ 0)

/-- BUS_REQUEST_ARBITRATE (R162, R183): the request lines and BBSY* of other boards as seen. A free bus is granted, BCLR* asks an owner of a
lower level to release it; the device as owner sees the requests too. -/
def arbitrateBus (g : Seg) (lines : Nat) (bbsy : Bool) (s : State) : State :=
  if !sysconAct s g then s
  else
    let opt := getReg s (.ls g) 0x044
    let x := s.seg[g]
    let own := if busAsked s g then 2 ^ getFld s (.ls g) 0x040 7 6 else 0
    let all := lines % 16 ||| own
    let s1 := modSeg g (fun x => { x with busLines := x.busLines / 16 * 16 + lines % 16 }) s
    if x.owner || bbsy then
      let bclr := !bitAt opt 0 && bitAt opt 4 && (match priPick all with | some l => decide (x.busLast < l) | none => false)
      let s2 := modSeg g (fun x => { x with pins := { x.pins with bclr := bclr, bgOut := 0 } }) s1
      if x.owner && decide (lines % 16 ≠ 0) then busReleaseRequest g s2 else s2
    else if grantStands s g lines bbsy then modSeg g (fun x => { x with pins := { x.pins with bclr := false } }) s1
    else
      match (if bitAt opt 0 then rrsPick all x.busLast else priPick all) with
      | some l =>
        modSeg g (fun x => { x with
          busLast := l, pins := { x.pins with bclr := false, bgOut := if 2 ^ l = own then 0 else 2 ^ l } }) s1
      | none => modSeg g (fun x => { x with pins := { x.pins with bclr := false, bgOut := 0 } }) s1

/-- SYSRESET_DRIVE_END (R183): the 200 ms drive of SYSRESET* ends on the segments that drive it. -/
def sysresetDriveEnd (s : State) : State :=
  [(0 : Seg), 1].foldl (fun s g => modSeg g (fun x => { x with sysresetTimer := false }) s) s

/-- The device drives SYSFAIL* low (R185). -/
def sysfailDriven (s : State) (g : Seg) : Bool := s.img.ctl == .stopped && bitsOf (hdlWord s.lom.act g 0) 0 0 == 1

/-- The device's SYSFAIL* output is low: outside power state RUN it is released (R160, R185). -/
def sysfailOut (s : State) (g : Seg) : Bool := s.pwr.st == .run && s.pwr.boot == .opened && sysfailDriven s g

/-- SYSFAIL_IN (R185): a fall of SYSFAIL* that the device does not drive. -/
def sysfailInOp (g : Seg) (s : State) : State := raiseIf (!sysfailOut s g) (segEv g 7) s

/-! Clock gating (R189, R190) -/

/-- A segment has no cycle, burst hold, running delayed-read slot or queued master work (R189). -/
def segIdle (s : State) (g : Seg) : Bool :=
  !hasWork s g && s.seg[g].slvWait.isNone && allSlots.all fun k => match s.seg[g].dr[k] with | some d => d.result.isSome | none => true

/-- WAKE (R190): AS* falls or master work waits on a gated segment. -/
def wakeSeg (g : Seg) (c : WakeCause) (s : State) : State :=
  if s.seg[g].gated && (c == .asFall || hasWork s g) then
    raise (segEv g 12) (modSeg g (fun x => { x with gated := false }) s)
  else s

/-- SEGMENT_STOP (R189): a waiting stop takes effect once the segment is idle. -/
def segStop (g : Seg) (s : State) : State :=
  if s.seg[g].stopWait && segIdle s g then modSeg g (fun x => { x with stopWait := false, gated := true }) s else s

/-- SLAVE_STROBE_RELEASE (R181, R188): DS* is seen high; the response lines are released and group D turns back. -/
def strobeRelease (g : Seg) (s : State) : State :=
  modSeg g (fun x => { x with pins := { x.pins with
    dtack := false, berr := false, retry := false, groupR := false,
    groupD := x.pins.groupD && (x.eng.map (·.driving)) == some true } }) s

end Sys2Proof.Machine
end

