-- ==== Sys2Proof/Machine/Update.lean ====
section
/-!
DEFINITION. Shadows and update groups (R37 to R40), what an SH register does when its shadow applies, and the stop of the Loom, at which a
waiting group-7 update applies.

A shadow stands at the register's BAR0 address, plus 2^20 times the queue or event number that selects the register.
-/

namespace Sys2Proof.Machine

open Sys2Proof

/-- UPD_GRP.GROUP of a page; the ARB page's reads 0 and its shadows wait for COMMIT (R40). -/
def pageGroup (s : State) (k : PageKind) : Nat := getFld s k 0x01C 2 0

/-- RESV of queue `q` takes a new value (R201), or the shadow is discarded with RESV_REFUSED. -/
def applyResv (q v : Nat) (s : State) : State :=
  if !owningQueues.contains q then s
  else
    let e := getQ s.crl q
    let r := max v (queueTab q).2.1
    let total := (owningQueues.map fun p => if p = q then r else (getQ s.crl p).resv).foldl (· + ·) 0
    if e.resv < r ∧ 15360 < total then raise 120 s
    else
      let rise := (r - e.held) - (e.resv - e.held)
      let excess := rise - headroom s.crl
      let c := setQ q { e with resv := r } s.crl
      let s1 := { s with crl := { c with uncovered := c.uncovered + excess } }
      raiseIf (decide (0 < headroom s.crl) && headroom c == 0) 118 s1

/-- LIMIT of queue `q` takes a new value. -/
def applyLimit (q v : Nat) (s : State) : State :=
  if !owningQueues.contains q then s else { s with crl := setQ q { getQ s.crl q with limit := v } s.crl }

/-- Q_THRESH of queue `q` takes a new value. -/
def applyThresh (q v : Nat) (s : State) : State :=
  { s with crl := setQ q { getQ s.crl q with thresh := v } s.crl }

/-- A segment with SYSCON at 1 is never gated (R189). -/
def ungateSyscon (g : Seg) (s : State) : State :=
  if segCfg s g 3 then modSeg g (fun x => { x with gated := false, stopWait := false }) s else s

/-- One shadow applies; GATE_CTRL.RING_OFF stops the SerDes PLL (Table 13.18): register offset `off` of a page, selector `idx`, value. -/
def applyShadow (k : PageKind) (off idx : Nat) (w : Word) (s : State) : State :=
  match k with
  | .crl =>
    if off = 0x04C then applyResv idx (fieldOf w 14 0) s
    else if off = 0x050 then applyLimit idx (fieldOf w 14 0) s
    else applyThresh idx (fieldOf w 6 0) s
  | .evh =>
    let s1 := pinRoutes s s
    { s1 with evh := { s1.evh with routes := mset 0 idx w s1.evh.routes } }
  | .ls g => ungateSyscon g (setReg k off w s)
  | .clk =>
    let s1 := setReg k off w s
    if bitAt w 2 then { s1 with pwr := { s1.pwr with serdesLock := false } } else s1
  | k => setReg k off w s

/-- Apply the shadow held at a key and drop it. -/
def applyKey (key : Nat) (w : Word) (s : State) : State :=
  let a := key % 2 ^ 20
  match pageKind (a / 0x1000) with
  | some k => applyShadow k (a % 0x1000) (key / 2 ^ 20) w
      { s with bus := { s.bus with shadow := merase key s.bus.shadow } }
  | none => s

/-- Apply the waiting shadows of the pages that satisfy a condition, in ascending key. -/
def applyWhere (c : PageKind → Bool) (s : State) : State :=
  let due := s.bus.shadow.filter fun e => match pageKind (e.1 % 2 ^ 20 / 0x1000) with | some k => c k | none => false
  pump (due.foldl (fun s e => applyKey e.1 e.2 s) s)

/-- The update of group `g` (R38). -/
def updateGroup (g : Nat) (s : State) : State := applyWhere (fun k => k != .arb && pageGroup s k == g) s

/-- A write to an SH register stores its shadow; with GROUP 0 it applies at once (R37, R40). -/
def writeShadow (k : PageKind) (off idx : Nat) (w : Word) (s : State) : State :=
  let key := regAddr k off + idx * 2 ^ 20
  let s1 := { s with bus := { s.bus with shadow := minsert key w s.bus.shadow } }
  if k != .arb && pageGroup s k == 0 then pump (applyKey key w s1) else s1

/-- The waiting group-7 update applies (R38): at a Loom cycle boundary, or when the Loom stops. -/
def group7Apply (s : State) : State :=
  if getFld s .glb 0x064 7 7 = 1 then updateGroup 7 (putFld .glb 0x064 7 7 0 s) else s

/-- A write to GLB.UPDATE (R38). -/
def updateOp (strobe : Word) (s : State) : State :=
  let s1 := [1, 2, 3, 4, 5, 6].foldl (fun s g => if bitAt strobe g then updateGroup g s else s) s
  if bitAt strobe 7 then (if s.lom.run then putFld .glb 0x064 7 7 1 s1 else updateGroup 7 s1) else s1

/-- A guarded write of ARB.COMMIT with GO at 1 (R219): PRIO_SCHED applies whole. -/
def arbCommitOp (v : Word) (s : State) : State :=
  if bitAt v 0 then raise 124 { s with crl := { s.crl with prioSched := s.crl.prioShadow } } else s

/-! The Loom stops (R226, R238) -/

/-- Drop the scheduled transfers that have not started (R226, R255): they are skipped without counting. A RING_TX entry has started with the
first read of its payload (R230). -/
def dropUnstarted (s : State) : State :=
  let clear (g : Seg) (s : State) : State := modSeg g (fun x => { x with
    sched := [],
    eng := match x.eng with
      | some e => if e.acc.place == .scheduled && !e.driving && isFirst e then none else some e
      | none => none }) s
  clear 1 (clear 0 s)

/-- A gated domain runs while the Loom is stopped (R238). -/
def ungateAll (s : State) : State :=
  let f (x : SegS) : SegS := { x with gated := false, stopWait := false }
  { modSeg 1 f (modSeg 0 f s) with pwr := { s.pwr with almGated := false, almStopWait := false } }

/-- The Loom stops (R226, R238); a waiting group-7 update applies (R38). -/
def loomStop (s : State) : State :=
  if s.lom.run then
    group7Apply (ungateAll (dropUnstarted { s with lom := { s.lom with run := false } }))
  else s

end Sys2Proof.Machine
end

