-- ==== Sys2Proof/Machine/Almanac.lean ====
section
/-!
DEFINITION. The Almanac (chapter 14): records and their pairs, slots and trailers, the Weave mark, the operations of Table 14.7,
retain saves and refresh.
-/

namespace Sys2Proof.Machine

open Sys2Proof

/-! Records (R397, R398) -/

/-- The identity and life-cycle region. -/
def recRegion : Nat := 0x6C0000
/-- Almanac bytes. -/
def almBytes (s : State) (a n : Nat) : List Byte := mgetList 0 s.alm.mem a n
/-- Store Almanac bytes; a word that is written whole is in error no more (R399). -/
def putAlm (a : Nat) (bs : List Byte) (s : State) : State :=
  { s with alm := { s.alm with
    mem := msetList 0 a bs s.alm.mem, ecc := meraseRange ((a + 7) / 8) ((a + bs.length) / 8) s.alm.ecc } }

/-! Errors of Almanac words (R396, R404, Table 14.13) -/

/-- The words in error among `n` bytes from address `a`. -/
def almMarks (s : State) (a n : Nat) : SMap Bool := s.alm.ecc.filter fun e => decide (a / 8 ≤ e.1) && decide (e.1 < (a + n + 7) / 8)

/-- Some of `n` bytes from address `a` lies in an uncorrectable word. -/
def almBad (s : State) (a n : Nat) : Bool := (almMarks s a n).any (·.2)

/-- A reader meets `n` bytes from address `a`: ECC_CORR for a word it corrects, ECC_UNCORR for one it cannot (Table 14.13). -/
def almMeet (a n : Nat) (s : State) : State :=
  (almMarks s a n).foldl (fun s e => nextCycle (raise (if e.2 then 219 else 218) s)) s

/-- The kinds of record pairs of Table 14.6. -/
inductive RecKind where
  | identity | lifeCycle | seal | mark | wear
  deriving DecidableEq, Repr

/-- Region offset of a pair. -/
def recOffset : RecKind → Nat
  | .identity => 0x000 | .lifeCycle => 0x040 | .seal => 0x080 | .mark => 0x0C0 | .wear => 0x180
/-- Bytes 0 to 3 of a record. -/
def recMagic : RecKind → Nat
  | .identity => 0x49444E54 | .lifeCycle => 0x4C435354 | .seal => 0x5345414C | .mark => 0x4D41524B | .wear => 0x57454152

/-- The 32 bytes of a record: value, SEQ, body of 20 bytes, CRC. -/
def recBytes (magic seq : Nat) (body : List Byte) : List Byte :=
  let b := bytesLE 4 magic ++ bytesLE 4 seq ++ (body ++ List.replicate 20 0).take 20
  b ++ bytesLE 4 (crc32c b).toNat

/-- A record at a region offset is valid (R398); the CRC over an uncorrectable word does not hold (DEDUCED, log entry 28). -/
def recValid (s : State) (off magic : Nat) : Bool :=
  let b := almBytes s (recRegion + off) 32
  natLE (b.take 4) == magic && natLE (b.drop 28) == (crc32c (b.take 28)).toNat && !almBad s (recRegion + off) 32

/-- SEQ of the record at a region offset. -/
def recSeq (s : State) (off : Nat) : Nat := natLE (almBytes s (recRegion + off + 4) 4)

/-- Region offset of the record of a pair that counts (R398). -/
def recCounts (s : State) (k : RecKind) : Option Nat :=
  let a := recOffset k
  let b := a + 0x20
  match recValid s a (recMagic k), recValid s b (recMagic k) with
  | true, true => some (if recSeq s a < recSeq s b then b else a)
  | true, false => some a
  | false, true => some b
  | false, false => none

/-- A field of the counting record of a pair; 0 without one. -/
def recField (s : State) (k : RecKind) (off n : Nat) : Nat :=
  match recCounts s k with
  | some a => natLE (almBytes s (recRegion + a + off) n)
  | none => 0

/-- Write a new record of a pair with a given SEQ into the record that does not count. -/
def putRecord (k : RecKind) (seq : Nat) (body : List Byte) (s : State) : State :=
  let a := recOffset k
  let target := match recCounts s k with | some c => if c = a then a + 0x20 else a | none => a
  putAlm (recRegion + target) (recBytes (recMagic k) seq body) s

/-- Write a new record of a pair, SEQ one higher; a pair without a record starts with SEQ 1 (R398). -/
def writeRecord (k : RecKind) (body : List Byte) (s : State) : State :=
  putRecord k (match recCounts s k with | some c => (recSeq s c + 1) % 2 ^ 32 | none => 1) body s

/-! Slots and trailers (R400 to R402); slots 0 and 1 are Weave slots, 2 and 3 retain slots -/

/-- Region offset of a trailer. -/
def trailerOff (i : Nat) : Nat := 0x100 + 0x20 * i
/-- Bytes 0 to 3 of a trailer. -/
def trailerMagic (i : Nat) : Nat := if i < 2 then 0x5754524C else 0x5254524C
/-- Almanac address of a slot. -/
def slotBase (i : Nat) : Nat := if i < 2 then i * 0x300000 else 0x600000 + (i - 2) * 0x40000
/-- LEN of a slot's trailer. -/
def slotLen (s : State) (i : Nat) : Nat := natLE (almBytes s (recRegion + trailerOff i + 8) 4)
/-- Content CRC of a slot's trailer. -/
def slotCrc (s : State) (i : Nat) : Nat := natLE (almBytes s (recRegion + trailerOff i + 12) 4)
/-- SEQ of a slot's trailer. -/
def slotSeq (s : State) (i : Nat) : Nat := recSeq s (trailerOff i)

/-- A slot is valid (R400). -/
def slotValid (s : State) (i : Nat) : Bool :=
  recValid s (trailerOff i) (trailerMagic i) && slotLen s i != 0 && !s.alm.badSlots.contains i

/-- The content CRC of a slot holds; it does not over an uncorrectable word (DEDUCED, log entry 28), nor for a slot longer than its region. -/
def slotCrcOk (s : State) (i : Nat) : Bool :=
  decide (slotLen s i ≤ (if i < 2 then 0x300000 else 0x40000)) && !almBad s (slotBase i) (slotLen s i) &&
    (crc32c (almBytes s (slotBase i) (slotLen s i))).toNat == slotCrc s i

/-- A load or a restore reads the content of a slot (R400). -/
def readSlot (i : Nat) (s : State) : State := almMeet (slotBase i) (slotLen s i) s

/-- SLOT_CHG sets when the validity of a slot changes (Table 14.13). -/
def slotChange (i : Nat) (f : State → State) (s : State) : State :=
  let t := f s
  raiseIf (slotValid s i != slotValid t i) 212 t

/-- Zero a trailer. -/
def zeroTrailer (i : Nat) (s : State) : State :=
  slotChange i (fun s =>
    putAlm (recRegion + trailerOff i) (List.replicate 32 0)
      { s with alm := { s.alm with badSlots := s.alm.badSlots.filter (· != i) } }) s

/-- Write a trailer for the content the slot holds. -/
def writeTrailer (i seq len : Nat) (s : State) : State :=
  slotChange i (fun s =>
    let crc := (crc32c (almBytes s (slotBase i) len)).toNat
    putAlm (recRegion + trailerOff i) (recBytes (trailerMagic i) seq (bytesLE 4 len ++ bytesLE 4 crc))
      { s with alm := { s.alm with badSlots := s.alm.badSlots.filter (· != i) } }) s

/-- A slot whose content CRC failed is invalid from then on (R400). -/
def markBad (i : Nat) (s : State) : State :=
  slotChange i (fun s => { s with alm := { s.alm with badSlots := s.alm.badSlots ++ [i] } }) s

/-! The wear record (R401, R406, R407) -/

/-- Word `i` of the wear record's body: writes of Weave slots 0 and 1, saves of retain slots 0 and 1. -/
def wearCount (s : State) (i : Nat) : Nat := recField s .wear (8 + 4 * i) 4
/-- The next block to refresh. -/
def refreshBlock (s : State) : Nat := recField s .wear 26 2
/-- Completed refresh passes: bits [31:20] of the wear SEQ. -/
def refreshPasses (s : State) : Nat := bitsOf (recField s .wear 4 4) 31 20

/-- WEAR_MAX (R406): the counts of the wear record and half the SEQ of each pair. -/
def wearMax (s : State) : Nat :=
  let counts := [wearCount s 0, wearCount s 1, wearCount s 2, wearCount s 3, recField s .wear 24 2] ++
    [recField s .identity 4 4 / 2, recField s .lifeCycle 4 4 / 2, recField s .seal 4 4 / 2, recField s .mark 4 4 / 2,
     recField s .wear 4 4 / 2]
  counts.foldl max 0

/-- Rewrite the wear record: the four counts, log passes, refresh block; `newPass` starts the next pass count. WEAR_HIGH sets
when WEAR_MAX reaches 10^9. -/
def writeWear (c0 c1 c2 c3 passes block : Nat) (newPass : Bool) (s : State) : State :=
  let seq := match recCounts s .wear with | some c => recSeq s c | none => 0
  let seq1 := if newPass then (seq / 2 ^ 20 + 1) % 2 ^ 12 * 2 ^ 20 else (seq + 1) % 2 ^ 32
  let t := putRecord .wear seq1
    (bytesLE 4 c0 ++ bytesLE 4 c1 ++ bytesLE 4 c2 ++ bytesLE 4 c3 ++ bytesLE 2 passes ++ bytesLE 2 block) s
  raiseIf (decide (wearMax s < 10 ^ 9) && decide (10 ^ 9 ≤ wearMax t)) 217 t

/-- Slot `i` has been written once more (R401). -/
def wearSlot (i : Nat) (s : State) : State :=
  let c (j : Nat) : Nat := wearCount s j + (if j = i then 1 else 0)
  writeWear (c 0) (c 1) (c 2) (c 3) (recField s .wear 24 2) (refreshBlock s) false s

/-! The Weave mark (R247, R248) -/

/-- The active slot of the mark, 0xFF for NONE; of the latest that waits to be written. -/
def markActive (s : State) : Nat :=
  match s.lom.markDue.getLast? with
  | some m => m.1
  | none => match recCounts s .mark with | some _ => recField s .mark 8 1 | none => 0xFF

/-- The target slot of the mark, 0xFF for NONE. -/
def markTarget (s : State) : Nat :=
  match s.lom.markDue.getLast? with
  | some m => m.2.1
  | none => match recCounts s .mark with | some _ => recField s .mark 9 1 | none => 0xFF

/-- Almanac work starts the ALM domain (R237). -/
def wakeAlm (s : State) : State := { s with pwr := { s.pwr with almGated := false } }

/-- Write a record of the Weave mark. -/
def putMark (active target cycle : Nat) (s : State) : State :=
  writeRecord .mark (bytesLE 1 active ++ bytesLE 1 target ++ [0, 0] ++ bytesLE 4 cycle) s

/-- Write the Weave mark, which starts the clock of ALM (R237); in brownout hold the write waits (R378). -/
def writeMark (active target cycle : Nat) (s : State) : State :=
  let s1 := wakeAlm s
  if s.pwr.brownout then { s1 with lom := { s1.lom with markDue := s1.lom.markDue ++ [(active, target, cycle)] } }
  else putMark active target cycle s1

/-- The mark writes that waited are made, in their order. -/
def writeDueMarks (s : State) : State :=
  s.lom.markDue.foldl (fun s m => putMark m.1 m.2.1 m.2.2 s) { s with lom := { s.lom with markDue := [] } }

/-- Rewrite the mark without a target (R247). -/
def clearTarget (s : State) : State := writeMark (markActive s) 0xFF 0 s

/-- The mark names slot `i` as the active slot, or as the target of an armed switch (R248). -/
def protectedSlot (s : State) (i : Nat) : Bool := markActive s == i || markTarget s == i

/-- A completed write to a slot: STBY_SRC and ACT_SRC no longer name it (R248). -/
def unsource (i : Nat) (s : State) : State :=
  { s with lom := { s.lom with
    act := if s.lom.act.src = i + 1 then { s.lom.act with src := 0 } else s.lom.act,
    volatile := s.lom.volatile || s.lom.act.src == i + 1,
    stby := if s.lom.stby.src = i + 1 then { s.lom.stby with src := 0 } else s.lom.stby } }

/-! Operations (R403, Tables 14.7 and 14.8) -/

/-- The event of an operation's RESULT. -/
def resultEvent (r : Nat) : Nat := if r = 1 then 210 else if r = 2 then 221 else 211

/-- An operation is refused: OP_STAT and its event. -/
def refuseOp (op r : Nat) (s : State) : State :=
  raise (resultEvent r) { s with alm := { s.alm with statOp := op, statResult := r, statWords := 0 } }

/-- The life-cycle states in which an operation is permitted (Table 14.7). -/
def opPermitted (s : State) (op : Nat) : Bool :=
  let st := s.lcc.st
  let cms := st == .commissioning || st == .service || st == .maintenance
  if op ≤ 3 then cms else if op = 4 then st == .commissioning || st == .maintenance
  else if op = 5 then st == .commissioning && s.lcc.presence else true

/-- The RESULT with which an operation is refused, 0 if it is accepted. -/
def opRefusal (s : State) (op slot len : Nat) : Nat :=
  if 6 < op then 5
  else if s.pwr.st ≠ .run ∨ s.alm.op.isSome then 4
  else if !opPermitted s op then 3
  else if op = 3 ∧ !(activePresent s && getFld s .alm 0x060 0 0 == 1) then 8
  else if op = 1 ∧ (len % 8 ≠ 0 ∨ len < 8 ∨ 3145728 < len) then 5
  else if (op = 1 ∨ op = 2) ∧ protectedSlot s slot then 2
  else if (op = 1 ∨ op = 2) ∧ s.lom.loading == some (some slot) then 4
  else 0

/-- The retain slot that a save writes, and its SEQ (R402). -/
def saveTarget (s : State) : Nat × Nat :=
  match slotValid s 2, slotValid s 3 with
  | true, true =>
    let hi := max (slotSeq s 2) (slotSeq s 3)
    (if slotSeq s 2 < slotSeq s 3 then 2 else 3, (hi + 1) % 2 ^ 32)
  | true, false => (3, (slotSeq s 2 + 1) % 2 ^ 32)
  | false, true => (2, (slotSeq s 3 + 1) % 2 ^ 32)
  | false, false => (2, 1)

/-- A retain save begins (R379, R402): its slot's trailer is zeroed, the commit runs leave the retain area alone. -/
def beginSave (byOp : Bool) (s : State) : State :=
  let (i, seq) := saveTarget s
  let s1 := zeroTrailer i (wakeAlm s)
  { s1 with
    pwr := { s1.pwr with saveRun := true, saveDue := false },
    alm := { s1.alm with saveSlot := some (i, BitVec.ofNat 32 seq), saveByOp := byOp } }

/-- OP_CMD with operation `op`, 1 to 5 (R403): refused, or started; it ends with OP_DONE. -/
def startOp (r : Req) (op : Nat) (s : State) : State :=
  let operand := getReg s .alm 0x04C
  let slot := bitsOf operand.toNat 0 0
  let len := getFld s .alm 0x050 21 0
  let res := opRefusal s op slot len
  if res ≠ 0 then refuseOp op res s
  else
    let seq : Nat := if op = 1 ∧ recValid s (trailerOff slot) (trailerMagic slot) then slotSeq s slot + 1 else 1
    let s1 := wakeAlm { s with alm := { s.alm with
      op := some ⟨op, slot, len, r.val, 0, none, BitVec.ofNat 32 seq⟩, statOp := op, statResult := 0, statWords := 0 } }
    if op = 1 then zeroTrailer slot s1
    else if op = 3 ∧ !s1.pwr.saveRun ∧ !s1.pwr.brownout then beginSave true s1
    else s1

/-- The running operation ends with a RESULT. -/
def endOp (res : Nat) (s : State) : State :=
  match s.alm.op with
  | some o =>
    let words := if o.op = 3 then retLen s.lom.act / 8 else o.words
    raise (resultEvent res) { s with alm := { s.alm with
      op := none, statOp := o.op, statResult := res, statWords := words } }
  | none => s

/-- OP_CMD ABORT (R403): a running WRITE_WEAVE of the same requester, or of any for the maintenance port. -/
def abortOp (r : Req) (s : State) : State :=
  match s.alm.op with
  | some o => if o.op = 1 ∧ (r.val = 4 ∨ o.req = r.val) then endOp 6 s else s
  | none => s

/-- Whether a running WRITE_WEAVE has received all its data. -/
def streamFull (o : AlmOp) : Bool := decide (o.len ≤ 8 * o.words)

/-- Almanac work may proceed: no brownout hold (R378). -/
def almFree (s : State) : Bool := !s.pwr.brownout

/-- OP_DONE (R403): the running operation's last step, and its RESULT. -/
def opDone (s : State) : State :=
  match s.alm.op with
  | some o =>
    if !almFree s then s
    else if o.op = 1 then
      (if streamFull o then endOp 1 (unsource o.slot (wearSlot o.slot (writeTrailer o.slot o.seq.toNat o.len s))) else s)
    else if o.op = 2 then endOp 1 (unsource o.slot (zeroTrailer o.slot s))
    else if o.op = 3 then (if s.pwr.saveRun ∨ s.alm.saveByOp then s else endOp 1 s)
    else if o.op = 4 then endOp 1 (zeroTrailer 3 (zeroTrailer 2 s))
    else if o.op = 5 then
      let v := (getReg s .alm 0x04C).toNat
      endOp 1 (writeRecord .identity (bytesLE 2 (bitsOf v 15 0) ++ bytesLE 2 (bitsOf v 31 16)) s)
    else s
  | none => s

/-- A word of the WRITE_WEAVE stream at WADDR `w` (R403, R410): true when it was accepted. A word at a wrong WADDR of
the same requester aborts the write. -/
def streamWord (r : Req) (w : Nat) (d : Word) (s : State) : Bool × State :=
  match s.alm.op with
  | some o =>
    if o.op ≠ 1 ∨ o.req ≠ r.val ∨ streamFull o then (false, s)
    else
      let next := 2 * o.words + (if o.lowWord.isSome then 1 else 0)
      if w ≠ next then (false, endOp 6 s)
      else
        match o.lowWord with
        | none => (true, { s with alm := { s.alm with op := some { o with lowWord := some d } } })
        | some lo =>
          let s1 := putAlm (slotBase o.slot + 8 * o.words) (bytesLE 4 lo.toNat ++ bytesLE 4 d.toNat) s
          (true, { s1 with alm := { s1.alm with
            op := some { o with words := o.words + 1, lowWord := none }, statWords := o.words + 1 } })
  | none => (false, s)

/-- WEAVE_STREAM_GAP_TIMEOUT (R403): 100 ms without the next word of the stream. -/
def streamTimeout (s : State) : State :=
  match s.alm.op with
  | some o => if o.op = 1 ∧ !streamFull o then endOp 6 s else s
  | none => s

/-- A SAVE_RETAIN accepted in brownout hold starts its save after it (R403). -/
def startWaitingSave (s : State) : State :=
  if (s.alm.op.any fun o => o.op == 3) && !s.pwr.saveRun && !s.alm.saveByOp then beginSave true s else s

/-- RETAIN_SAVE_START (R379): the save that a warning asked for starts, once no commit run's copy is under way. -/
def retainSaveStart (s : State) : State :=
  if s.pwr.saveDue && s.img.runs.isEmpty && !s.pwr.saveRun then wakeCore 4 6 (beginSave false s) else s

/-- A retain save is over; its slot is written or left invalid. -/
def saveOver (s : State) : State :=
  { s with pwr := { s.pwr with saveRun := false }, alm := { s.alm with saveSlot := none, saveByOp := false } }

/-- A retain save ends in error: its slot stays invalid, RETAIN_ERR sets (R401, Table 14.13), and a SAVE_RETAIN that asked for it ends with RESULT
0x7 (Table 14.8). -/
def saveFails (s : State) : State :=
  let byOp := s.alm.saveByOp
  let s1 := raise 214 (saveOver s)
  if byOp then endOp 7 s1 else s1

/-- RETAIN_SAVED (R379, R401, R402, R285): the data and then the trailer are written; a save that meets an uncorrectable word of the image ends
in error (DEDUCED, log entry 28). The retain area is rewritten from the presented bank. -/
def retainSaved (s : State) : State :=
  match s.alm.saveSlot with
  | some (i, seq) =>
    let n := retLen s.lom.act
    let s1 := putAlm (slotBase i) (imgBytes s (retBase s.lom.act) n) (imgMeet (retBase s.lom.act) n s)
    if imgBad s (retBase s.lom.act) n then rewriteRetain (saveFails s1)
    else raise 213 (rewriteRetain (saveOver (wearSlot i (writeTrailer i seq.toNat n s1))))
  | none => s

/-- A slot that block `b` lies in is being written (Table 14.9). -/
def blockWritten (s : State) (b : Nat) : Bool :=
  let within (i : Nat) : Bool := decide (slotBase i ≤ 4096 * b) && decide (4096 * b < slotBase i + (if i < 2 then 0x300000 else 0x40000))
  (s.alm.op.any fun o => (o.op == 1 || o.op == 2) && within o.slot) || s.alm.saveSlot.any fun p => within p.1

/-- An uncorrectable word that a refresh meets is logged with its address, whatever the route of ECC_UNCORR (Table 14.9). -/
def raiseLogged (ev : Nat) (addr : Nat) (s : State) : State :=
  let pin (o : Occ) : Occ := if o.ev = ev ∧ o.cyc = s.evh.sub then { o with pin := some (withBits (routeOf s ev) 15 15 1, eventEnabled s ev) } else o
  let s1 := raiseD ev (BitVec.ofNat 32 addr) 0 s
  { s1 with evh := { s1.evh with occ := s1.evh.occ.map pin } }

/-- A refresh reads block `b` and rewrites every word corrected; an uncorrectable word is left as stored (R407, Table 14.9). -/
def refreshBlockRead (b : Nat) (s : State) : State :=
  let s1 := (almMarks s (4096 * b) 4096).foldl
    (fun s e => nextCycle (if e.2 then raiseLogged 219 (8 * e.1) s else raise 218 s)) s
  { s1 with alm := { s1.alm with ecc := s1.alm.ecc.filter fun e => e.2 || !(decide (512 * b ≤ e.1) && decide (e.1 < 512 * (b + 1))) } }

/-- REFRESH_STEP (R407): a block is read and rewritten, and the wear record names the next one. A step whose block is being written waits. -/
def refreshStep (s : State) : State :=
  if s.lcc.st == .retired || !almFree s || s.pwr.boot != .opened || blockWritten s (refreshBlock s) then s
  else
    let b := refreshBlock s
    let last := b = 1791
    let s1 := writeWear (wearCount s 0) (wearCount s 1) (wearCount s 2) (wearCount s 3) (recField s .wear 24 2)
      (if last then 0 else b + 1) last (refreshBlockRead b (wakeAlm s))
    raiseIf last 216 s1

end Sys2Proof.Machine
end

