-- ==== Sys2Proof/Machine/Lifecycle.lean ====
section
/-!
DEFINITION. The life-cycle controller, physical presence, the seal loop and the fuses (chapter 14).
-/

namespace Sys2Proof.Machine

open Sys2Proof

/-! Status words (Tables 14.10 and 14.11) -/

/-- LC_STATE. -/
def lcStateWord (s : State) : Nat :=
  s.lcc.refuse * 2 ^ 12 + bnat s.lcc.recErr * 32 + bnat s.lcc.trans.isSome * 16 + s.lcc.st.code

/-- SEAL_STAT. -/
def sealStatWord (s : State) : Nat :=
  s.lcc.failRun * 256 + bnat s.lcc.noTime * 16 + bnat s.lcc.failSeen * 8 + bnat s.lcc.loopBad * 4 + bnat s.lcc.broken * 2 +
    bnat s.lcc.armed

/-- LC_ALERT with its log details (Table 12.4). -/
def lcAlertEvent (s : State) : State :=
  raiseD 15 (BitVec.ofNat 32 (sealStatWord s % 65536 + lcStateWord s % 65536 * 65536)) 0 s

/-! The state that the fuses and the record give (R386, Table 14.1) -/

/-- The state named by a record's STATE byte, if it may be named there. -/
def recordState (n : Nat) : Option LifeState :=
  if n = 1 then some .commissioning else if n = 2 then some .service else if n = 3 then some .maintenance else none

/-- State and REC_ERR of Table 14.1. -/
def lifeAtReset (s : State) : LifeState × Bool :=
  if s.lcc.retired then (.retired, false)
  else if !s.lcc.commissioned then (.blank, false)
  else
    match recCounts s .lifeCycle with
    | some _ =>
      match recordState (recField s .lifeCycle 8 1) with
      | some st => (st, false)
      | none => (.service, true)
    | none => (.service, true)

/-- Write the life-cycle record. -/
def writeLife (st : LifeState) (wipePend : Bool) (s : State) : State :=
  writeRecord .lifeCycle [BitVec.ofNat 8 st.code, if wipePend then 1 else 0] s

/-- The life-cycle state becomes `st`; leaving MAINTENANCE ends vote mode 1OO1 (R129, R387), and in SERVICE no test instruction
keeps the pins (R423). -/
def setLife (st : LifeState) (s : State) : State :=
  let s1 := { s with lcc := { s.lcc with st := st }, tap := { s.tap with taken := s.tap.taken && st != .service } }
  if st != .maintenance && s.vot.mode == .m1oo1 then pump (endOne s1) else s1

/-! Wipes (R375, Table 14.2) -/

/-- The Weave memories are wiped and the Loom stops (R387): both sets, forces, the process image and the commit digest. -/
def wipeWeave (s0 : State) : State :=
  let s := loomStop s0
  { s with
    lom := { s.lom with act := wsetEmpty, stby := wsetEmpty, volatile := false, loading := none, checking := false },
    frc := ⟨[], []⟩,
    img := { s.img with mem := [], build := [], slot := [], frozenRecs := [], eccErr := [], safeShown := true, retainReady := false },
    vot := { s.vot with last := s.vot.last.map fun c => { c with digestValid := false } } }

/-- The standby set is wiped. -/
def wipeStandby (s : State) : State := { s with lom := { s.lom with stby := wsetEmpty } }

/-- The mailbox data registers are wiped. -/
def wipeMailbox (s : State) : State :=
  setReg .mnt 0x064 0 (setReg .mnt 0x060 0 (setReg .mnt 0x05C 0 (setReg .mnt 0x058 0 s)))

/-- The Almanac bytes from `lo` to `hi − 1` are zero. -/
def zeroAlm (lo hi : Nat) (s : State) : State :=
  { s with alm := { s.alm with mem := meraseRange lo hi s.alm.mem, ecc := meraseRange ((lo + 7) / 8) (hi / 8) s.alm.ecc } }

/-- The Almanac wipe of MAINTENANCE to COMMISSIONING (R389 step 4): four trailers, the mark without slots, the data. -/
def wipeSlots (s : State) : State :=
  let s1 := zeroTrailer 3 (zeroTrailer 2 (zeroTrailer 1 (zeroTrailer 0 s)))
  zeroAlm 0 0x680000 (writeMark 0xFF 0xFF 0 s1)

/-- The whole Almanac is wiped. -/
def wipeAlmanac (s : State) : State := zeroAlm 0 0x800000 { s with alm := { s.alm with badSlots := [] } }

/-! Transitions (R387 to R389) -/

/-- Whether a switch counts as armed (R250). -/
def armedNow (s : State) : Bool := s.lom.armState == .marking || s.lom.armState == .armed

/-- The refusals that every life-cycle and seal command shares (R388), in its order; 0 is none. -/
def lcCommon (s : State) (rowMatches : Bool) (noRow : Nat) : Nat :=
  if !s.lcc.presence then 1
  else if !rowMatches then noRow
  else if s.lcc.trans.isSome ∨ s.lcc.wiping then 3
  else if armedNow s then 4
  else if s.pwr.brownout then 0xA
  else 0

/-- A life-cycle command is refused: REFUSE, LOCK_VIOL and the capture with cause 0x1 (R388). -/
def lcRefuse (r : Req) (code raw : Nat) (v : Word) (s : State) : State :=
  capture .lcc 1 r.val 0x02 raw v { s with lcc := { s.lcc with refuse := code } }

/-- A transition ends: the Almanac is wiped, the record rewritten, LC_ALERT (R389 steps 4 and 5). -/
def lcFinish (s : State) : State :=
  match s.lcc.trans with
  | some t =>
    if t.fuse || s.pwr.brownout then s
    else
      let s1 :=
        if t.target == .retired then wipeAlmanac s
        else if s.lcc.wiping then writeLife t.target false (wipeSlots s)
        else writeLife t.target false s
      lcAlertEvent { s1 with lcc := { s1.lcc with trans := none, wiping := false, wipeBlocks := 0 } }
  | none => s

/-- OP 0x1 (Table 14.2): BLANK or MAINTENANCE to COMMISSIONING. -/
def lcCommissioning (r : Req) (raw : Nat) (v : Word) (s : State) : State :=
  let code := lcCommon s (s.lcc.st == .blank || s.lcc.st == .maintenance) 2
  let code := if code = 0 ∧ s.lcc.st = .maintenance ∧ s.img.ctl ≠ .stopped then 5 else code
  if code ≠ 0 then lcRefuse r code raw v s
  else if s.lcc.st = .blank then
    let s1 := writeLife .commissioning false s
    { s1 with lcc := { s1.lcc with st := .commissioning, trans := some ⟨1, .commissioning, true⟩ } }
  else
    let s1 := setLife .commissioning (writeLife .commissioning true s)
    wipeWeave { s1 with lcc := { s1.lcc with
      trans := some ⟨1, .commissioning, false⟩, wiping := true, wipeBlocks := 1664 } }

/-- OP 0x2: COMMISSIONING or MAINTENANCE to SERVICE. -/
def lcService (r : Req) (raw : Nat) (v : Word) (s : State) : State :=
  let code := lcCommon s (s.lcc.st == .commissioning || s.lcc.st == .maintenance) 2
  let code :=
    if code ≠ 0 then code
    else if s.lom.act.src = 0 ∨ s.lom.volatile then 6
    else if (recCounts s .identity).isNone then 7
    else if s.lcc.armed ∧ s.lcc.broken then 8
    else 0
  if code ≠ 0 then lcRefuse r code raw v s
  else
    let s1 := setLife .service (writeLife .service false s)
    let s2 := { s1 with lcc := { s1.lcc with trans := some ⟨2, .service, false⟩ } }
    wipeMailbox (if s2.lom.stby.modified then wipeStandby s2 else s2)

/-- OP 0x3: SERVICE to MAINTENANCE. -/
def lcMaintenance (r : Req) (raw : Nat) (v : Word) (s : State) : State :=
  let code := lcCommon s (s.lcc.st == .service) 2
  if code ≠ 0 then lcRefuse r code raw v s
  else
    let s1 := setLife .maintenance (writeLife .maintenance false s)
    wipeMailbox { s1 with lcc := { s1.lcc with trans := some ⟨3, .maintenance, false⟩ } }

/-- OP 0x4: COMMISSIONING or MAINTENANCE to RETIRED. -/
def lcRetired (r : Req) (raw : Nat) (v : Word) (s : State) : State :=
  let code := lcCommon s (s.lcc.st == .commissioning || s.lcc.st == .maintenance) 2
  let code :=
    if code ≠ 0 then code
    else if s.img.ctl ≠ .stopped then 5
    else if fieldOf v 31 16 ≠ s.lcc.uid.toNat % 65536 then 9
    else 0
  if code ≠ 0 then lcRefuse r code raw v s
  else { s with lcc := { s.lcc with trans := some ⟨4, .retired, true⟩ } }

/-- FUSE_VERIFY_DONE (R389 step 2, R394): the programmed fuse verifies, or the transition ends with REFUSE 0xB. -/
def fuseDone (ok : Bool) (s : State) : State :=
  match s.lcc.trans with
  | some t =>
    if !t.fuse then s
    else if t.target == .retired then
      if ok then
        let s1 := setLife .retired { s with lcc := { s.lcc with retired := true } }
        wipeWeave { s1 with lcc := { s1.lcc with trans := some { t with fuse := false }, wiping := true, wipeBlocks := 1792 } }
      else { s with lcc := { s.lcc with refuse := 0xB, trans := none } }
    else if ok then
      { s with lcc := { s.lcc with commissioned := true, trans := some { t with fuse := false } } }
    else { s with lcc := { s.lcc with refuse := 0xB, trans := none, st := .blank } }
  | none => s

/-! Seal loop (R392, R393) -/

/-- Write the seal record. -/
def writeSeal (s : State) : State :=
  writeRecord .seal
    ([BitVec.ofNat 8 (bnat s.lcc.armed + 2 * bnat s.lcc.broken + 4 * bnat s.lcc.noTime), 0, 0, 0] ++
      bytesLE 4 s.lcc.breakCount.toNat ++ bytesLE 8 s.lcc.breakTime.toNat) s

/-- A seal command: 5 SEAL_ARM, 6 SEAL_DISARM, 7 SEAL_CLEAR (R393, Table 14.10). -/
def sealCmd (r : Req) (op raw : Nat) (v : Word) (s : State) : State :=
  let code := lcCommon s (lcOpen s) 0xC
  let code := if code = 0 ∧ op = 7 ∧ s.lcc.loopBad then 8 else code
  if code ≠ 0 then lcRefuse r code raw v s
  else
    writeSeal { s with lcc := { s.lcc with
      armed := if op = 5 then true else if op = 6 then false else s.lcc.armed,
      broken := if op = 7 then false else s.lcc.broken } }

/-- The next window of the sequence after `n` bits: polynomial x^16 + x^14 + x^13 + x^11 + 1 (R392, DEDUCED, log entry 17). -/
def lfsrSteps : Nat → BitVec 16 → BitVec 16
  | 0, w => w
  | n + 1, w =>
    let b := (w.getLsbD 15 ^^ w.getLsbD 13) ^^ (w.getLsbD 12 ^^ w.getLsbD 10)
    lfsrSteps n ((w <<< 1) ||| (if b then 1#16 else 0#16))

/-- The four failed checks declare a break (R393). Before the reset sequence has read the identity the event and the record wait for that, and in
brownout hold the record waits for its end; device time is not available until the sequence ends (R321). -/
def sealBreak (s : State) : State :=
  let early := s.pwr.boot != .opened && s.pwr.boot != .identified
  let noTime := s.pwr.seqRun
  let t : DWord := if noTime then 0 else s.lcc.firstFail
  let s1 := { s with lcc := { s.lcc with
    broken := true, breakCount := s.lcc.breakCount + 1, breakTime := t, noTime := noTime } }
  let s2 := if early then s1 else lcAlertEvent s1
  if early || s2.pwr.brownout then { s2 with lcc := { s2.lcc with sealDue := true } }
  else writeSeal (wakeAlm s2)

/-- SEAL_CHECK (R392): 16 bits are driven and the loop's answer is compared. -/
def sealCheckOp (sampled : BitVec 16) (s : State) : State :=
  if !s.lcc.armed then s
  else
    let w := lfsrSteps 16 s.lcc.lfsr
    let s1 := emit (.seal w) { s with lcc := { s.lcc with lfsr := w } }
    if sampled = w then { s1 with lcc := { s1.lcc with failRun := 0, loopBad := false } }
    else
      let n := min 15 (s.lcc.failRun + 1)
      let s2 := { s1 with lcc := { s1.lcc with
        failRun := n, failSeen := true, loopBad := decide (4 ≤ n),
        firstFail := if s.lcc.failRun = 0 then time64 s else s.lcc.firstFail } }
      if s.lcc.failRun = 3 then sealBreak s2 else s2

/-- A seal record that waited is written (R393). -/
def sealWritten (s : State) : State :=
  if s.lcc.sealDue then writeSeal { s with lcc := { s.lcc with sealDue := false } } else s

/-! Presence (R390) -/

/-- PRESENCE_ASSERT: 1,000 consecutive low samples. -/
def presenceOn (s : State) : State :=
  let s1 := { s with lcc := { s.lcc with presPin := true } }
  if s.lcc.presence || s.lcc.timedOut || s.pwr.boot == .inReset then s1
  else lcAlertEvent { s1 with lcc := { s1.lcc with presence := true } }

/-- PRESENCE_RELEASE: 20 consecutive high samples. -/
def presenceOff (s : State) : State :=
  let s1 := { s with lcc := { s.lcc with presPin := false, timedOut := false, presence := false } }
  if s.lcc.presence then lcAlertEvent s1 else s1

/-- PRESENCE_TIMEOUT: asserted without a break for 14,400 s. -/
def presenceExpire (s : State) : State :=
  if s.lcc.presence then lcAlertEvent { s with lcc := { s.lcc with presence := false, timedOut := true } } else s

/-- LC_CMD takes effect (Table 14.10): OP in [3:0], CONFIRM in [31:16]; other OPs are refused. -/
def lcCommand (r : Req) (raw : Nat) (v : Word) (s : State) : State :=
  let op := fieldOf v 3 0
  if op = 1 then lcCommissioning r raw v s
  else if op = 2 then lcService r raw v s
  else if op = 3 then lcMaintenance r raw v s
  else if op = 4 then lcRetired r raw v s
  else if 5 ≤ op ∧ op ≤ 7 then sealCmd r op raw v s
  else lcRefuse r 2 raw v s

end Sys2Proof.Machine
end

