-- ==== Sys2Proof/Machine/Check.lean ====
section
/-!
DEFINITION. The checks of a Weave: the image as it is loaded (R239, R240) and the standby check of R245, step by step, each
stage answering the first broken rule as a pair of RULE and INDEX (Table 8.8).
-/

namespace Sys2Proof.Machine

open Sys2Proof

/-- A broken rule: RULE and INDEX of CHECK_STAT. -/
abbrev Broken := Option (Nat × Nat)

/-- The least index below `n` that breaks a rule. -/
def firstBad (rule n : Nat) (bad : Nat → Bool) : Broken := ((List.range n).find? bad).map fun i => (rule, i)

/-- A rule without items. -/
def badIf (rule index : Nat) (bad : Bool) : Broken := if bad then some (rule, index) else none

/-- The first broken rule of several stages. -/
def firstOf (l : List (Unit → Broken)) : Broken := l.findSome? fun f => f ()

/-- Two ranges of bytes or times share a point. -/
def overlaps (a n b m : Nat) : Bool := decide (0 < n) && decide (0 < m) && decide (a < b + m) && decide (b < a + n)

/-! The image (R239, R240, Tables 8.4 and 8.5) -/

/-- Largest LENGTH of a section type. -/
def secLimit (t : Nat) : Nat :=
  if t = 1 then 1048576 else if t = 2 then 262208 else if t = 3 then 524288 else if t = 4 then 8192
  else if t = 5 then 524288 else if t = 6 then 786432 else if t = 7 then 131080 else if t = 8 then 4096
  else 16384

/-- A directory entry: type, zero bytes, offset, length, CRC. -/
structure DirEntry where
  typ : Nat
  zero : Nat
  off : Nat
  len : Nat
  crc : Nat
  deriving DecidableEq, Repr

/-- Directory entry `i` of an image given by its bytes. -/
def dirAt (img : Nat → Nat → List Byte) (i : Nat) : DirEntry :=
  let b := img (0x100 + 16 * i) 16
  ⟨natLE (b.take 2), natLE ((b.drop 2).take 2), natLE ((b.drop 4).take 4), natLE ((b.drop 8).take 4), natLE (b.drop 12)⟩

/-- SECT_COUNT of an image. -/
def sectCount (img : Nat → Nat → List Byte) : Nat := natLE (img 0x10 2)

/-- The header rules with code 0x02. -/
def headerBad (img : Nat → Nat → List Byte) : Bool :=
  natLE (img 0 4) != 0x57445847 || natLE (img 5 1) != 1 || natLE (img 0x18 2) != 0x4810 || natLE (img 0x1A 1) != 1 ||
    natLE (img 8 4) == 0 || decide (64 < natLE (img 0x1B 1)) || decide (3 < natLE (img 0x12 2)) ||
    natLE (img 6 2) != 0 || natLE (img 0x1C 4) != 0 || natLE (img 0x28 212) != 0

/-- Directory entry `i` breaks R240. -/
def dirBad (img : Nat → Nat → List Byte) (n : Nat) (i : Nat) : Bool :=
  let d := dirAt img i
  d.typ == 0 || decide (10 < d.typ) || d.zero != 0 || d.off % 16 != 0 || decide (secLimit d.typ < d.len) ||
    decide (natLE (img 0x14 4) < d.off + d.len) || overlaps d.off d.len 0 (0x100 + 16 * n) ||
    (List.range i).any fun j => let e := dirAt img j; e.typ == d.typ || overlaps d.off d.len e.off e.len

/-- The section types an image must hold; RING only with FLAGS.RING. -/
def requiredTypes (ring : Bool) : List Nat := [1, 2, 3, 5, 6, 7] ++ (if ring then [9] else []) ++ [10]

/-- The header, HDR_CRC and directory of an image, and its section CRCs (R243 step 2). -/
def imageBroken (img : Nat → Nat → List Byte) : Broken :=
  let n := sectCount img
  firstOf [
    fun _ => badIf 0x02 0 (headerBad img),
    fun _ => badIf 0x03 0 (natLE (img 0xFC 4) != (crc32c (img 0 0xFC)).toNat),
    fun _ => badIf 0x04 0xFFFF (decide (n < 7) || decide (10 < n) || decide (3145728 < natLE (img 0x14 4))),
    fun _ => firstBad 0x04 n (dirBad img n),
    fun _ => ((requiredTypes (bitsOf (natLE (img 0x12 2)) 0 0 == 1)).find? fun t =>
      !(List.range n).any fun i => (dirAt img i).typ == t).map fun t => (0x04, 0x8000 + t),
    fun _ => firstBad 0x05 n fun i =>
      let d := dirAt img i
      (crc32c (img d.off d.len)).toNat != d.crc]

/-- The set that an image fills (R243 steps 3 and 4): every section at its destination, the header and directory, every
other byte zero. -/
def setOfImage (img : Nat → Nat → List Byte) (src : Nat) : WSet :=
  let n := sectCount img
  let ds := (List.range n).map (dirAt img)
  { mem := ds.foldl (fun m d => msetList 0 (secBase d.typ) (img d.off d.len) m)
      (msetList 0 0 (img 0 (0x100 + 16 * n)) []),
    len := ds.foldl (fun m d => mset 0 d.typ d.len m) [],
    hasHdr := true, src := src, modified := false, check := .none, rule := 0, index := 0 }

/-! Patterns (R245 step 2, Table 3.4) -/

/-- The bytes of an image range lie in one area of Table 9.1. -/
def inOneArea (w : WSet) (a n : Nat) : Bool :=
  inRange a n (inBase w) (3 * inLen w) || inRange a n (stgBase w) 0x200000 || inRange a n (voutBase w) (voutLen w) ||
    inRange a n (retBase w) (retLen w) || inRange a n (lslBase w) (lslLen w) || inRange a n (genBase w) (genLen w)

/-- Pattern `i` breaks a rule of Table 3.4. -/
def patBad (w : WSet) (i : Nat) : Bool :=
  let e := patEntry w i
  let p := patOf e
  p.valid &&
    (patFault e (inOneArea w (p.recOff * 8) (8 + p.rlen)) (inRange (p.recOff * 8) (8 + p.rlen) (genBase w) (genLen w)) ||
      (p.safety && p.node != 0 && (hdrNode w == 0 || hdrNode w == p.node) && !(patOf (patEntry w (p.base % 65536))).safety))

/-! The Ephemeris (R245 step 3, Tables 8.6 and 8.7) -/

/-- The Ephemeris header breaks Table 8.6. -/
def ephHdrBad (w : WSet) : Bool :=
  decide (ephPeriod w < 25000) || decide (16000000 < ephPeriod w) || decide (0xFFFFFF < ephHdr w 0) ||
    decide (16384 < ephHdr w 1) || (List.range 10).any fun j => ephHdr w (6 + j) != 0

/-- Reserved bits, KIND, MKIND and DOM of an entry (R227). -/
def ephReservedBad (e : Eph) : Bool :=
  e.f 7 7 != 0 || e.f 31 16 != 0 ||
    (if e.kind = 0 then e.f 95 80 != 0 || e.f 127 120 != 0
     else if e.kind = 1 then e.f 95 89 != 0 || e.f 127 116 != 0
     else if e.kind = 2 then e.f 95 87 != 0
     else if e.kind = 3 then e.f 127 71 != 0
     else if e.kind = 4 then e.f 127 67 != 0 || e.f 65 64 == 3
     else if e.kind = 5 then e.f 71 67 != 0 || e.f 95 80 != 0 || e.f 127 110 != 0 || decide (1 < e.f 66 64)
     else true)

/-- Two entries can fall due in one Loom cycle (Table 8.7). -/
def dueTogether (a b : Eph) : Bool :=
  let m := min a.rep b.rep
  a.f 14 8 % 2 ^ m == b.f 14 8 % 2 ^ m

/-- PHASE of an entry. -/
def ephPhase (e : Eph) : Nat := e.f 14 8

/-- The valid entries below `i`, with their index. -/
def earlierEph (w : WSet) (i : Nat) : List (Nat × Eph) :=
  ((List.range i).map fun j => (j, ephAt w j)).filter fun e => e.2.valid

/-- The pattern of a LEGACY entry. -/
def ephPat (w : WSet) (e : Eph) : Pat := patOf (patEntry w (e.f 79 64))

/-- The rules of one kind of entry. -/
def ephKindBad (w : WSet) (i : Nat) (e : Eph) : Bool :=
  let t := e.time
  if e.kind = 0 then
    let p := ephPat w e
    let d := e.f 119 96
    !(p.valid && p.node == 0 && (p.kind == .read || p.kind == .write) && p.rlen != 0) || d == 0 ||
      decide (ephPeriod w < t + d) || (e.safety && !p.safety) ||
      (earlierEph w i).any fun f =>
        f.2.kind == 0 && (ephPat w f.2).seg == p.seg && dueTogether f.2 e && overlaps f.2.time (f.2.f 119 96) t d
  else if e.kind = 1 then
    !hdrRing w || decide (ringSlots w ≤ e.f 73 64) || decide (slotStartBT w (e.f 73 64) * 32 < t * 100 + 20000) ||
      e.f 85 74 == 0 || decide (2048 < e.f 85 74) || e.f 87 86 == 0 ||
      !inRange (e.f 115 96 * 8) (e.f 85 74) (voutBase w) (voutLen w)
  else if e.kind = 2 then
    !hdrRing w || decide (ringSlots w ≤ e.f 73 64) || decide (2048 < e.f 84 74 + 8 + e.f 127 116) || e.f 86 85 == 0 ||
      !inRange (e.f 115 96 * 8) (8 + e.f 127 116) (inBase w) (inLen w) ||
      !((findInit w [0] (e.f 115 96)).map fun k => (initRec w k).rlen == e.f 127 116).getD true
  else if e.kind = 3 then !hdrRing w
  else if e.kind = 5 ∧ e.f 66 64 = 1 then
    let g := ephAt w (e.f 109 96)
    !(decide (e.f 109 96 < ephCount w) && g.valid && decide (g.kind ≤ 2) && decide (g.time ≤ t) && decide (g.rep ≤ e.rep) &&
      ephPhase e % 2 ^ g.rep == ephPhase g)
  else false

/-- Entry `i` breaks a rule of Table 8.7. -/
def ephBad (w : WSet) (i : Nat) : Bool :=
  let e := ephAt w i
  if ephCount w ≤ i then ephEntry w i != 0
  else
    ephReservedBad e ||
      (e.valid &&
        (decide (2 ^ e.rep ≤ ephPhase e) || decide (ephPeriod w ≤ e.time) ||
          (earlierEph w i).any (fun f => decide (e.time < f.2.time)) || ephKindBad w i e))

/-! Image content (R245 step 4, Tables 9.1, 9.11 and 9.12, R146) -/

/-- The areas of the partition: base, length, largest length. -/
def partAreas (w : WSet) : List (Nat × Nat × Nat) :=
  [(inBase w, 3 * inLen w, 0x480000), (stgBase w, 0x200000, 0x200000), (voutBase w, voutLen w, 0x80000),
   (retBase w, retLen w, 0x40000), (lslBase w, lslLen w, 0x80000), (genBase w, genLen w, 0x40000)]

/-- Some two elements of a list satisfy a relation. -/
def anyPair {α : Type} (r : α → α → Bool) : List α → Bool
  | [] => false
  | a :: l => l.any (r a) || anyPair r l

/-- The partition breaks R258 or Table 9.1. -/
def partBad (w : WSet) (active : Option WSet) : Bool :=
  let as := partAreas w
  as.any (fun a => a.1 % 0x10000 != 0 || a.2.1 % 0x10000 != 0 || decide (a.2.2 < a.2.1) || decide (0x800000 < a.1 + a.2.1)) ||
    inLen w % 0x10000 != 0 || anyPair (fun a b => overlaps a.1 a.2.1 b.1 b.2.1) as ||
    decide (65536 < part w 11) || part w 13 != 0 || part w 14 != 0 || part w 15 != 0 ||
    (match active with
      | some a => !hdrColdOnly w && (List.range 11).any fun i => part w i != part a i
      | none => false)

/-- Bytes that a record of the INIT list occupies: from, length. -/
def initSpan (r : InitRec) : Nat × Nat := if r.area = 3 then (r.recOff * 8, r.rlen) else (r.recOff * 8, 8 + r.rlen)

/-- INIT list entry `i` breaks its rules. -/
def initBad (w : WSet) (i : Nat) : Bool :=
  let r := initRec w i
  let sp := initSpan r
  let area : Nat × Nat :=
    if r.area = 0 then (inBase w, inLen w) else if r.area = 1 then (lslBase w, lslLen w)
    else if r.area = 2 then (genBase w, genLen w) else (retBase w, retLen w)
  decide (3 < r.area) || bitsOf (wnat w 6 (64 + 8 * i) 8) 63 40 != 0 || !inRange sp.1 sp.2 area.1 area.2 ||
    (List.range i).any fun j =>
      let q := initRec w j
      q.area == r.area && overlaps (initSpan q).1 (initSpan q).2 sp.1 sp.2

/-- Bytes of initial data that the INIT list asks for. -/
def initDataLen (w : WSet) : Nat :=
  ((initList w).map fun r => if r.data then (r.rlen + 7) / 8 * 8 else 0).foldl (· + ·) 0

/-- An output record by number: REC, RLEN, RETAIN, RET_OFF. -/
def outRec (w : WSet) (i : Nat) : Nat × Nat × Bool × Nat := (outList w).getD i (0, 0, false, 0)

/-- VOTE list entry `i` breaks its rules. -/
def voteBad (w : WSet) (i : Nat) : Bool :=
  let r := outRec w i
  bitsOf (wnat w 7 (8 + 8 * i) 8) 63 55 != 0 || !inRange (r.1 * 8) (8 + r.2.1) (voutBase w) (voutLen w) ||
    (r.2.2.1 && (r.2.2.2 % 8 != 0 || decide (retLen w < r.2.2.2 + r.2.1))) ||
    (List.range i).any fun j =>
      let q := outRec w j
      overlaps (q.1 * 8) (8 + q.2.1) (r.1 * 8) (8 + r.2.1) ||
        (q.2.2.1 && r.2.2.1 && overlaps q.2.2.2 q.2.1 r.2.2.2 r.2.1)

/-- An INIT record with a given REC and RLEN in one of the areas. -/
def listedInit (w : WSet) (as : List Nat) (rec rlen : Nat) : Bool :=
  (initList w).any fun r => r.recOff == rec && r.rlen == rlen && as.contains r.area

/-- An output record with a given REC and RLEN. -/
def listedOut (w : WSet) (rec rlen : Nat) : Bool := (outList w).any fun r => r.1 == rec && r.2.1 == rlen

/-- Naming row of Table 9.12 for pattern `i`. -/
def namePatBad (w : WSet) (i : Nat) : Bool :=
  let p := patOf (patEntry w i)
  p.valid && p.rlen != 0 &&
    !(match p.kind with
      | .read => listedInit w [0, 2] p.recOff p.rlen
      | .write => listedOut w p.recOff p.rlen
      | .rmw => listedInit w [2] p.recOff p.rlen
      | .iack => false)

/-- Naming row for Ephemeris entry `i`. -/
def nameEphBad (w : WSet) (i : Nat) : Bool :=
  let e := ephAt w i
  e.valid && e.kind == 2 && !listedInit w [0] (e.f 115 96) (e.f 127 116)

/-- Naming row for image window number `n`, 16 × segment + window. -/
def nameWinBad (w : WSet) (n : Nat) : Bool :=
  let v := winAt w (if n < 16 then 0 else 1) (n % 16)
  v.valid && !v.fwd &&
    !(if v.areaOut then (outList w).any fun r => r.1 == voutBase w / 8 + v.recOff
      else (findInit w [1] (lslBase w / 8 + v.recOff)).isSome)

/-- The input record that an entry writes, if it writes one. -/
def inputOf (w : WSet) (e : Eph) : Option Nat :=
  if e.kind = 0 then
    let p := ephPat w e
    if p.kind = .read ∧ (findInit w [0] p.recOff).isSome then some p.recOff else none
  else if e.kind = 2 then some (e.f 115 96) else none

/-- Writers row for entry `i`. -/
def writersBad (w : WSet) (i : Nat) : Bool :=
  let e := ephAt w i
  e.valid &&
    (match inputOf w e with
      | some r => (earlierEph w i).any fun f => dueTogether f.2 e && inputOf w f.2 == some r
      | none => false)

/-- Signal map entry `i` breaks its rule. -/
def sigBad (w : WSet) (i : Nat) : Bool :=
  let e := sigEntry w i
  bitsOf e 47 47 == 1 &&
    (let rec8 := bitsOf e 19 0
     let need := bitsOf e 39 20 + bitsOf e 45 40 + 1
     if bitsOf e 46 46 = 1 then !(outList w).any fun r => r.1 == rec8 && decide (need ≤ 8 * r.2.1)
     else !(initList w).any fun r => r.area == 0 && r.recOff == rec8 && decide (need ≤ 8 * r.rlen))

/-- FCAP bit `i` breaks its rule. -/
def fcapBad (w : WSet) (i : Nat) : Bool := fcapBit w i && bitsOf (sigEntry w i) 47 47 == 0

/-- The image content rules in the order of Table 9.12. -/
def contentBroken (w : WSet) (active : Option WSet) : Broken :=
  firstOf [
    fun _ => badIf 0x30 0 (partBad w active),
    fun _ => firstBad 0x30 (part w 11) (initBad w),
    fun _ => badIf 0x30 0 (initDataLen w != part w 12 || decide (wlen w 6 < 64 + 8 * part w 11 + part w 12)),
    fun _ => badIf 0x30 0 (decide (16384 < wword w 7 0) || wword w 7 4 != 0 || decide (wlen w 7 < 8 + 8 * wword w 7 0)),
    fun _ => firstBad 0x30 (wword w 7 0) (voteBad w),
    fun _ => firstBad 0x31 65536 (namePatBad w),
    fun _ => firstBad 0x32 (ephCount w) (nameEphBad w),
    fun _ => firstBad 0x33 32 (nameWinBad w),
    fun _ => firstBad 0x34 (ephCount w) (writersBad w),
    fun _ => badIf 0x30 0 (wlen w 5 != voutLen w),
    fun _ => firstBad 0x30 65536 (sigBad w),
    fun _ => badIf 0x30 0 (wlen w 4 != 0 && wlen w 4 != 8192),
    fun _ => firstBad 0x30 65536 (fcapBad w)]

/-! TIMING (R245 step 5, Table 6.8) -/

/-- Reserved bits of the four words of a timing profile (Table 6.2). -/
def profMask (j : Nat) : Nat :=
  if j = 0 then 0x3F1F3F3F else if j = 1 then 0x3F3F3F07 else if j = 2 then 0x010F0F0F else 0xFF

/-- Bits outside a mask are set. -/
def outsideMask (w m : Nat) : Bool := w != (w &&& m)

/-- Reserved bits of a window's four words (Table 6.6). -/
def winMask (j : Nat) : Nat :=
  if j = 0 then 0xFFFF007F else if j = 1 then 0xFFFFFFFF else if j = 2 then 0x1F1F else 0xFFFFF

/-- The top of a window space. -/
def spaceTop (sp : Nat) : Nat := if sp = 0 then 0xFFFF else if sp = 1 then 0xFFFFFF else 0xFFFFFFFF

/-- Two windows accept a common modifier and address. -/
def winOverlap (a b : Win) : Bool :=
  a.valid && b.valid && a.space == b.space && ((a.super && b.super) || (a.user && b.user)) &&
    overlaps a.base (2 ^ a.size) b.base (2 ^ b.size)

/-- A valid window breaks its rules. -/
def winBad (w : WSet) (g : Seg) (v : Win) : Bool :=
  v.valid &&
    (v.space == 3 || decide (v.size < 4) || decide ((if v.space = 0 then 16 else 24) < v.size) || v.base % 2 ^ v.size != 0 ||
      decide (spaceTop v.space < v.base + 2 ^ v.size - 1) || !(v.super || v.user) ||
      (if v.fwd then
        let p := patOf (patEntry w v.pat)
        !p.valid || (p.node == 0 && p.seg == g) || v.rmwEn
       else v.areaOut && (v.wrEn || v.rmwEn)))

/-- A handler word breaks its rules: word 0 enables SYSFAIL*, word L serves level L. -/
def hdlBad (w : WSet) (g : Seg) (l : Nat) : Bool :=
  let x := hdlWord w g l
  if l = 0 then decide (1 < x)
  else
    bitsOf x 15 1 != 0 ||
      (bitsOf x 0 0 == 1 &&
        (let p := patOf (patEntry w (bitsOf x 31 16))
         !(p.valid && p.kind == .iack && p.seg == g && p.base % 8 == l)))

/-- The part of segment `g` breaks Table 6.8. -/
def timingBad (w : WSet) (g : Seg) : Bool :=
  let ws := (List.range 16).map (winAt w g)
  (List.range 32).any (fun i => outsideMask (profWord w g i) (profMask (i % 4))) ||
    (List.range 64).any (fun i => outsideMask (winWord w g i) (winMask (i % 4))) ||
    ws.any (winBad w g) || anyPair winOverlap ws || (List.range 8).any (hdlBad w g)

/-- The TIMING rules: the layout, then each segment. -/
def timingBroken (w : WSet) : Broken :=
  firstOf [
    fun _ => badIf 0x40 0 (decide (4096 < crLen w 0) || decide (4096 < crLen w 1) ||
      wlen w 10 != 848 + crLen w 0 + crLen w 1 || wnat w 10 8 8 != 0),
    fun _ => badIf 0x40 0 (timingBad w 0),
    fun _ => badIf 0x40 1 (timingBad w 1)]

/-! RING (R245 step 6, Table 10.9) -/

/-- Starts of the sync segments in BT: Loom time 0 and each whole millisecond below PERIOD (R298). -/
def syncStarts (w : WSet) : List Nat := (List.range ((ephPeriod w + 99999) / 100000)).map (· * 312500)
/-- The length of a sync segment in BT. -/
def syncLen (w : WSet) : Nat := 64 * (56 + guardBT w)

/-- Slot `k` breaks its rules. -/
def slotBad (w : WSet) (k : Nat) : Bool :=
  let a := slotStartBT w k
  let n := slotMaxLen w k + 24 + guardBT w
  bitsOf (ringSlot w k) 63 47 != 0 || (decide (k + 1 < ringSlots w) && decide (slotStartBT w (k + 1) < a + n)) ||
    (syncStarts w).any (fun t => overlaps a n t (syncLen w)) || decide (ephPeriod w * 25 < (a + n) * 8) ||
    !(ringOrder w).contains (slotOwner w k) || (slotCrit w k && slotRings w k != 3)

/-- Relay entry `j` breaks its rules. -/
def relayBad (w : WSet) (j : Nat) : Bool :=
  let (i, rec) := relayEntry w j
  let e := ephAt w i
  bitsOf (wnat w 9 (256 + 8 * ringSlots w + 8 * j) 8) 63 34 != 0 ||
    !(e.valid && e.kind == 2 && (outList w).any fun r => r.1 == rec && r.2.1 == e.f 127 116 && !r.2.2.1)

/-- The RING rules; without the section, and without the flag that asks for it, there is nothing to check. -/
def ringBroken (w : WSet) : Broken :=
  if wlen w 9 = 0 ∧ !hdrRing w then none
  else
    let order := (wbytes w 9 64 64).map (·.toNat)
    let standby := (wbytes w 9 128 64).map (·.toNat)
    firstOf [
      fun _ => badIf 0x50 0 (decide (wlen w 9 < 256 + 8 * ringSlots w + 8 * ringRelays w) ||
        outsideMask (ringHdr w 0) 0x03FF017F || decide (ringNodes w < 1) || decide (64 < ringNodes w) ||
        decide (ringSlots w < 1) || decide (0xFF < ringHdr w 1) || decide (ringPrec w < 1) || decide (100 < ringPrec w) ||
        decide (0xFF < ringHdr w 2) || decide (ringRemTimeout w < 3) || decide (0x3FF < ringHdr w 3) ||
        decide (1000 < ringRelays w) || (List.range 12).any (fun j => ringHdr w (4 + j) != 0) ||
        (order.take (ringNodes w)).any (fun n => n == 0 || decide (64 < n)) || (order.drop (ringNodes w)).any (· != 0) ||
        (order.take (ringNodes w)).eraseDups.length != ringNodes w || wnat w 9 192 64 != 0 ||
        (List.range 64).any fun j => let x := standby.getD j 0; x != 0 && (x == j + 1 || !order.contains x)),
      fun _ => firstBad 0x50 (ringSlots w) (slotBad w),
      fun _ => firstBad 0x50 (ringRelays w) (relayBad w)]

/-! EVR (R245 step 7, R354) -/

/-- Event numbers that a table marks reserved (R340). -/
def eventReserved (n : Nat) : Bool :=
  n == 95 || n == 111 || n == 126 || n == 127 || (decide (155 ≤ n) && decide (n ≤ 159)) ||
    (decide (171 ≤ n) && decide (n ≤ 175)) || n == 191 || (decide (205 ≤ n) && decide (n ≤ 207)) || n == 222 || n == 223 ||
    n == 246 || n == 247 || (decide (249 ≤ n) && decide (n ≤ 254))

/-- EVR entry `n` breaks a rule. -/
def evrBad (w : WSet) (n : Nat) : Bool :=
  let x := wword w 8 (16 * n)
  outsideMask x 0xFFFF || wnat w 8 (16 * n + 4) 12 != 0 || (bitsOf x 8 8 == 1 && bitsOf x 7 0 == 255) ||
    (eventReserved n && x != 0)

/-- The EVR rules. -/
def evrBroken (w : WSet) : Broken :=
  firstOf [
    fun _ => badIf 0x60 0 (wlen w 8 % 16 != 0 || decide (4096 < wlen w 8)),
    fun _ => firstBad 0x60 (wlen w 8 / 16) (evrBad w)]

/-! The safety signature (R241) and the whole check (R245) -/

/-- The bytes of the safety signature. -/
def safetyBytes (w : WSet) : List Byte :=
  wbytes w 5 0 (wlen w 5) ++ wbytes w 7 0 (wlen w 7) ++ wbytes w 4 0 (wlen w 4) ++
    (((List.range 65536).filter fun i => (patOf (patEntry w i)).safety).flatMap fun i =>
      bytesLE 2 i ++ bytesLE 16 (patEntry w i)) ++
    (((List.range 16384).filter fun i => (ephAt w i).safety).flatMap fun i => bytesLE 2 i ++ bytesLE 16 (ephEntry w i))

/-- The image header as a set holds it. -/
def setHeader (w : WSet) (a n : Nat) : List Byte := wbytes w 0 a n

/-- The standby check of R245 on a set; `active` is the active set if one exists. -/
def checkBroken (w : WSet) (active : Option WSet) : Broken :=
  firstOf [
    fun _ => badIf 0x02 0 (!w.hasHdr || headerBad (setHeader w)),
    fun _ => firstBad 0x10 65536 (patBad w),
    fun _ => badIf 0x21 0 (ephHdrBad w),
    fun _ => firstBad 0x20 16384 (ephBad w),
    fun _ => contentBroken w active,
    fun _ => timingBroken w,
    fun _ => ringBroken w,
    fun _ => evrBroken w,
    fun _ => badIf 0x70 0 ((crc32c (safetyBytes w)).toNat != hdrSafety w)]

/-- A set with the outcome of its check noted. -/
def noteCheck (w : WSet) (b : Broken) : WSet :=
  match b with
  | none => { w with check := .pass, rule := 0, index := 0 }
  | some (r, i) => { w with check := .fail, rule := r, index := i }

end Sys2Proof.Machine
end

