-- ==== Sys2Proof/Machine/Loom.lean ====
section
/-!
DEFINITION. The Loom (chapter 8): its start and stop, the entries of the Ephemeris, loading and checking a standby set, arming
and switching, and what a switch does to the image and the forces (R277, R278).
-/

namespace Sys2Proof.Machine

open Sys2Proof

/-! Node state (R301, R332) -/

/-- SYNC_STAT.SYNCED and its event. -/
def setSynced (b : Bool) (s : State) : State :=
  if s.mer.synced == b then s
  else raise (if b then 194 else 195) { s with
    mer := { s.mer with synced := b }, rng := { s.rng with everSynced := s.rng.everSynced || b } }

/-- The node state becomes `st`: STATE_CHG sets when it differs; entry into LISTEN ends synchronisation (R332). -/
def setNode (st : NodeState) (s : State) : State :=
  if s.rng.node == st then s
  else
    let s1 := raise 178 { s with rng := { s.rng with node := st, goodCycles := 0 } }
    if st == .listen then setSynced false s1 else s1

/-! Start and stop of the Loom (R226) -/

/-- The conditions of R226. -/
def loomMay (s : State) : Bool :=
  s.pwr.st == .run && !s.pwr.transit && activePresent s && !s.img.restarting &&
    (!hdrRing s.lom.act || s.mer.synced || (s.rng.everSynced && s.rng.node == .listen))

/-- A Loom cycle with number `n` begins (R224): CYCLE advances and no entry of it has been dispatched. -/
def newCycle (n : Word) (s : State) : State :=
  raise 131 { s with lom := { s.lom with
    cycle := n, everRun := true, dispatched := [], completed := [], skipped := [] } }

/-- The Loom starts (R225): with RING clear its first cycle begins at once, numbered 0 after a device reset and one higher than
the last cycle begun otherwise; with RING set the ring protocol has set the number. -/
def loomStart (s : State) : State :=
  let s1 := { s with lom := { s.lom with run := true, lastEntry := none } }
  if hdrRing s.lom.act then { s1 with lom := { s1.lom with everRun := true } }
  else newCycle (if s.lom.everRun then s.lom.cycle + 1 else 0) s1

/-- Start or stop the Loom as R226 asks. -/
def loomEval (s : State) : State :=
  if loomMay s && !s.lom.run then loomStart s else if !loomMay s && s.lom.run then loomStop s else s

/-- The node enters node state LISTEN (Table 10.5). -/
def enterListen (s : State) : State := loomEval (setNode .listen s)

/-! Skips (R231) -/

/-- LATE_CNT.SKIP and event SKIP. -/
def countSkip (i : Nat) (s : State) : State :=
  raise 134 { putFld .lom 0x064 31 16 (getFld s .lom 0x064 31 16 + 1) s with
    lom := { s.lom with skipped := s.lom.skipped ++ [i] } }

/-- An access belongs to entry `i` of the present Loom cycle. -/
def ofEntry (s : State) (i : Nat) (o : Origin) : Bool := match o with | .sched j c _ => i == j && c == cyc s | _ => false

/-- The access of entry `i` waits unstarted on a segment. -/
def legacyWaits (s : State) (g : Seg) (i : Nat) : Bool :=
  s.seg[g].sched.any (fun a => ofEntry s i a.origin) ||
    (match s.seg[g].eng with
      | some e => ofEntry s i e.acc.origin && !e.driving && isFirst e
      | none => false)

/-- Take the unstarted access of entry `i` off a segment. -/
def unqueue (g : Seg) (i : Nat) (s : State) : State :=
  modSeg g (fun x => { x with
    sched := x.sched.filter fun a => !ofEntry s i a.origin,
    eng := match x.eng with
      | some e => if ofEntry s i e.acc.origin && !e.driving && isFirst e then none else some e
      | none => none }) s

/-- The frame of entry `i` of the present Loom cycle waits for its slot. -/
def frameWaits (s : State) (i : Nat) (f : TxFrame) : Bool := f.entry == i && f.cycle == s.lom.cycle

/-- SKIP (R231, R233): entry `i` of the present cycle has not started in time, or the payload of a RING_TX is not read in time. -/
def skipOp (i : Nat) (s : State) : State :=
  let e := ephAt s.lom.act i
  if !s.lom.run || !ephDue e (cyc s) || s.lom.skipped.contains i then s
  else if e.kind = 0 then
    if legacyWaits s 0 i || legacyWaits s 1 i then countSkip i (unqueue 1 i (unqueue 0 i s)) else s
  else if e.kind = 1 then
    if s.rng.txBuf.any (frameWaits s i) then
      countSkip i { s with rng := { s.rng with txBuf := s.rng.txBuf.filter fun f => !frameWaits s i f } }
    else s
  else if s.lom.dispatched.contains i then s
  else countSkip i s

/-- The entries of the cycle that ends whose transfer has not started. -/
def unstarted (s : State) : List Nat :=
  s.lom.dispatched.filter fun i => legacyWaits s 0 i || legacyWaits s 1 i

/-! Dispatch (R228, R229) -/

/-- Entry `i` may be dispatched now: valid, due in this cycle, of the kind, once, not skipped, in ascending order (R229); in the target cycle
of an armed switch only after the switch (R253). -/
def dispatchable (s : State) (i kind : Nat) : Bool :=
  let e := ephAt s.lom.act i
  s.lom.run && ephDue e (cyc s) && e.kind == kind && s.lom.dispatched.all (fun j => decide (j < i)) && !s.lom.skipped.contains i &&
    decide (i < ephCount s.lom.act) && !(armedNow s && s.lom.cycle == s.lom.armTarget)

/-- Words of entry `i` in memory 3 of Table 15.2. -/
def ephUncorr (s : State) (i : Nat) : Bool :=
  let b := bnat s.lom.bank * 32768 + 2 * i
  uncorrIn s 3 b (b + 2)

/-- Dispatch entry `i`: an uncorrectable entry is skipped without counting (R232), any other does `f`. -/
def dispatch (i kind : Nat) (f : Eph → State → State) (s : State) : State :=
  if !dispatchable s i kind then s
  else
    let b := bnat s.lom.bank * 32768 + 2 * i
    let s1 := readEcc 3 b (b + 2) { s with lom := { s.lom with
      dispatched := s.lom.dispatched ++ [i], lastEntry := some i } }
    if ephUncorr s i then raiseD 142 (BitVec.ofNat 32 i) 0 s1 else f (ephAt s.lom.act i) s1

/-- LEGACY_ENTRY (R63, R64, R229): the entry fetches its pattern and requests the engine; in brownout hold it is skipped
(R378). -/
def legacyEntry (i : Nat) (s : State) : State :=
  dispatch i 0 (fun e s =>
    if s.pwr.brownout then countSkip i s
    else
    let pat := e.f 79 64
    let patE := patEntry s.lom.act pat
    let p := patOf patE
    let a : Acc := { origin := .sched i (cyc s) e.time, place := .scheduled, queue := 0, pat := pat, patE := patE, off := 0, len := p.rlen,
                     write := p.kind == .write, data := [], en := [], cont := false }
    let s1 := fetchOne pat s
    if patUncorr s pat || !p.valid then failOutcome a 1 (raiseIf (!patUncorr s pat) 130 s1)
    else pump (modSeg p.seg (fun x => { x with sched := x.sched ++ [a] }) s1)) s

/-- No Almanac operation, Weave load, mark write or retain save runs or waits (R236). -/
def almIdle (s : State) : Bool :=
  s.alm.op.isNone && (match s.lom.loading with | some (some _) => false | _ => true) && !s.pwr.saveRun && !s.pwr.saveDue &&
    s.lom.armState != .marking

/-- ALM_STOP (R236): a waiting stop of the ALM domain takes effect. -/
def almStopOp (s : State) : State :=
  if s.pwr.almStopWait && almIdle s && s.lom.run then
    { s with pwr := { s.pwr with almStopWait := false, almGated := true } }
  else s

/-- POWER_ON_ENTRY (R236): the clock of the domain starts; a waiting stop is cancelled. The entry starts at its dispatch, at Loom time
`t` (R230). -/
def powerOnEntry (i t : Nat) (s : State) : State :=
  dispatch i 4 (fun e s0 =>
    let s := countLate i (cyc s0) e.time t s0
    if e.f 66 66 = 0 then s
    else if e.f 65 64 = 2 then { s with pwr := { s.pwr with almGated := false, almStopWait := false } }
    else if e.f 65 64 < 2 then
      modSeg (if e.f 65 64 = 0 then 0 else 1) (fun x => { x with gated := false, stopWait := false }) s
    else s) s

/-- POWER_OFF_ENTRY (R189, R236): a stop is requested and takes effect once the domain is idle. -/
def powerOffEntry (i t : Nat) (s : State) : State :=
  dispatch i 4 (fun e s0 =>
    let s := countLate i (cyc s0) e.time t s0
    if e.f 66 66 = 1 then s
    else if e.f 65 64 = 2 then almStopOp { s with pwr := { s.pwr with almStopWait := true } }
    else if e.f 65 64 < 2 then
      let g : Seg := if e.f 65 64 = 0 then 0 else 1
      if segCfg s g 3 then modSeg g (fun x => { x with noGate := true }) s
      else segStop g (modSeg g (fun x => { x with stopWait := true }) s)
    else s) s

/-- MARK (R228): the marker number is reported. -/
def markEntry (i t : Nat) (s : State) : State :=
  dispatch i 5 (fun e s0 =>
    let s := countLate i (cyc s0) e.time t s0
    if e.f 66 64 = 0 then raiseD 132 (BitVec.ofNat 32 (e.f 79 72)) 0 s else s) s

/-- DEADLINE (R228): the target entry has completed, or DEADLINE sets. -/
def deadlineEntry (i t : Nat) (s : State) : State :=
  dispatch i 5 (fun e s0 =>
    let s := countLate i (cyc s0) e.time t s0
    if e.f 66 64 = 1 ∧ !s.lom.completed.contains (e.f 109 96) then raiseD 135 (BitVec.ofNat 32 (e.f 109 96)) 0 s else s) s

/-! Loading and the standby check (R243 to R246) -/

/-- A LOM register write is ignored and captured with cause 0x1. -/
def lomIgnore (r : Req) (off : Nat) (v : Word) (s : State) : State := capture .lom 1 r.val 0x1A off v s

/-- The standby set is locked against change (R246). -/
def stbyLocked (s : State) : Bool := s.lom.loading.isSome || s.lom.checking || armedNow s

/-- LOAD_CMD takes effect (R243, R246): OP in [1:0], SLOT in [4]. -/
def loadCmd (r : Req) (raw : Nat) (v : Word) (s : State) : State :=
  let op := fieldOf v 1 0
  if op = 0 then s
  else if op = 3 ∨ stbyLocked s then lomIgnore r raw v s
  else if op = 1 then wakeAlm { s with lom := { s.lom with loading := some (some (fieldOf v 4 4)) } }
  else { s with lom := { s.lom with loading := some none } }

/-- CHECK_STAT as a word. -/
def checkStat (w : WSet) : Nat :=
  w.index * 65536 + w.rule * 256 +
    (match w.check with | .none => 0 | .running => 1 | .pass => 2 | .fail => 3)

/-- A load ends in failure: the standby set is marked invalid and holds no header (R243, R245). -/
def loadFail (rule index : Nat) (s : State) : State :=
  raise 137 { s with lom := { s.lom with
    loading := none,
    stby := { s.lom.stby with mem := meraseRange 0 (2 ^ 20) s.lom.stby.mem, hasHdr := false, src := 0, check := .fail,
                              rule := rule, index := index } } }

/-- The image of Almanac slot `i`. -/
def slotImage (s : State) (i a n : Nat) : List Byte := almBytes s (slotBase i + a) n

/-- What a slot's image breaks before it can fill a set (R243 steps 1 and 2). -/
def slotBroken (s : State) (i : Nat) : Broken :=
  firstOf [fun _ => badIf 0x01 i (!slotValid s i || !slotCrcOk s i), fun _ => imageBroken (slotImage s i)]

/-- A slot whose content CRC fails is invalid from then on (R400). -/
def judgeSlot (i : Nat) (s : State) : State := if slotValid s i && !slotCrcOk s i then markBad i s else s

/-- LOAD_DONE (R243): a load fills the standby set and starts the check, a clear empties it. -/
def loadDone (s : State) : State :=
  match s.lom.loading with
  | none => s
  | some none => raise 137 { s with lom := { s.lom with loading := none, stby := wsetEmpty } }
  | some (some i) =>
    if !almFree s then s
    else
      let s1 := readSlot i s
      match slotBroken s i with
      | some (r, x) => loadFail r x (judgeSlot i s1)
      | none => raise 137 { s1 with lom := { s1.lom with
          loading := none, checking := true, stby := { setOfImage (slotImage s i) (i + 1) with check := .running } } }

/-- CHECK_CMD (R245, R246). -/
def checkCmd (r : Req) (raw : Nat) (v : Word) (s : State) : State :=
  if !bitAt v 0 then s
  else if s.lom.loading.isSome || s.lom.checking then lomIgnore r raw v s
  else { s with lom := { s.lom with checking := true, stby := { s.lom.stby with check := .running, rule := 0, index := 0 } } }

/-- The armed switch is abandoned with a reason; the mark is rewritten without a target. -/
def abandonArm (reason : Nat) (s : State) : State :=
  clearTarget { s with lom := { s.lom with armState := .abandoned, armReason := reason, disarmWait := false } }

/-- CHECK_DONE (R245, R246). -/
def checkDone (s : State) : State :=
  if !s.lom.checking then s
  else
    let w := noteCheck s.lom.stby (checkBroken s.lom.stby (if activePresent s then some s.lom.act else none))
    let s1 := raiseD 136 (BitVec.ofNat 32 (checkStat w)) 0 { s with lom := { s.lom with checking := false, stby := w } }
    if w.check == .fail && armedNow s then abandonArm 1 s1 else s1

/-! Forces (R273 to R277) -/

/-- A signal resolves and is force-capable in a set. -/
def forceCapable (w : WSet) (sig : Nat) : Bool := (resolveSig w sig).isSome && fcapBit w (sig % 65536)

/-- STBY_OK of force table entry `i`: it is kept while a standby set passes its check (R277). -/
def stbyOk (s : State) (i : Nat) : Bool :=
  bitAt (frcWord s i 1) 0 && s.lom.stby.check == .pass && forceCapable s.lom.stby (frcWord s i 0).toNat

/-- Report the outcome of an FRC_CMD. -/
def frcResult (i res : Nat) (s : State) : State := setReg .frc 0x044 (BitVec.ofNat 32 (i * 65536 + res)) s

/-- Put the place of a signal into the force in effect of entry `i`. -/
def placeForce (i : Nat) (p : Nat × Nat × Nat × Bool) (s : State) : State :=
  putEff i 3 (BitVec.ofNat 32 (p.2.1 + p.2.2.1 * 2 ^ 20)) (putEff i 2 (BitVec.ofNat 32 p.1) s)

/-- SET of entry `i` (R275, Table 9.8). -/
def forceSet (i : Nat) (s : State) : State :=
  let sig := frcWord s i 0
  if !s.lcc.presence then frcResult i 1 s
  else
    match resolveSig s.lom.act sig.toNat with
    | none => frcResult i 2 s
    | some p =>
      if !fcapBit s.lom.act (sig.toNat % 65536) then frcResult i 3 s
      else if (activeForces s).any fun j => j != i && frcWord s j 0 == sig then frcResult i 5 s
      else if armedNow s && !s.lom.dropOk && !forceCapable s.lom.stby sig.toNat then frcResult i 4 s
      else
        let s1 := putEff i 1 (frcWord s i 3) (putEff i 0 (frcWord s i 2) (placeForce i p s))
        let s2 := putFrc i 1 (BitVec.ofNat 32 (1 + 2 * bnat p.2.2.2)) s1
        raiseD 78 (BitVec.ofNat 32 (i + 1 * 4096)) sig (frcResult i 0 s2)

/-- Release entry `i`: ACTIVE clears, DROPPED takes a value. -/
def releaseForce (i : Nat) (dropped : Bool) (s : State) : State :=
  [0, 1, 2, 3].foldl (fun s j => putEff i j 0 s)
    (putFrc i 1 ((frcWord s i 1 &&& 0x2#32) ||| (if dropped then 4#32 else 0#32)) s)

/-- CLEAR of entry `i` (R275). -/
def forceClear (i : Nat) (s : State) : State :=
  if !s.lcc.presence then frcResult i 1 s
  else if !bitAt (frcWord s i 1) 0 then frcResult i 6 s
  else raiseD 78 (BitVec.ofNat 32 (i + 2 * 4096)) (frcWord s i 0) (frcResult i 0 (releaseForce i false s))

/-- CLEAR_ALL (R275), with the INDEX of the command. -/
def forceClearAll (i : Nat) (s : State) : State :=
  if !s.lcc.presence then frcResult i 1 s
  else
    let fs := activeForces s
    let s1 := frcResult i 0 (fs.foldl (fun s j => releaseForce j false s) s)
    if fs.isEmpty then s1 else raiseD 78 (BitVec.ofNat 32 (i + 3 * 4096)) 0 s1

/-- FRC_CMD takes effect: OP in [1:0], INDEX in [27:16]. -/
def frcCmd (v : Word) (s : State) : State :=
  let i := fieldOf v 27 16
  let op := fieldOf v 1 0
  if op = 1 then forceSet i s else if op = 2 then forceClear i s else if op = 3 then forceClearAll i s
  else frcResult i 7 s

/-- A force is dropped at a switch. -/
def dropForce (i : Nat) (s : State) : State :=
  raiseD 79 (BitVec.ofNat 32 i) (frcWord s i 0) (incReg .frc 0x04C 1 (releaseForce i true s))

/-- Force `i` is resolved again in the active set `w` (R277). -/
def forceAtSwitch (w : WSet) (i : Nat) (s : State) : State :=
  match resolveSig w (frcWord s i 0).toNat with
  | some p =>
    if fcapBit w ((frcWord s i 0).toNat % 65536) then
      putFrc i 1 (BitVec.ofNat 32 (1 + 2 * bnat p.2.2.2)) (placeForce i p s)
    else dropForce i s
  | none => dropForce i s

/-- DROPPED of every entry clears: it names the last switch (Table 9.7). -/
def clearDropped (s : State) : State :=
  (s.frc.tab.filter fun e => e.1 % 4 == 1).foldl (fun s e => putFrc (e.1 / 4) 1 (e.2 &&& ~~~4#32) s) s

/-- At a switch every active force is resolved again (R277); DROP_STAT counts those dropped. -/
def forcesAtSwitch (s : State) : State :=
  (activeForces s).foldl (fun t i => forceAtSwitch s.lom.act i t) (clearDropped (putFld .frc 0x04C 12 0 0 s))

/-! Arming (R250 to R252) -/

/-- An arm or disarm is refused with a reason. -/
def armRefuse (reason : Nat) (s : State) : State :=
  raise 140 { s with lom := { s.lom with
    armReason := reason, armState := if armedNow s then s.lom.armState else .refused } }

/-- The first failing check of Table 8.9, 0 if none. -/
def armCheck (dropOk : Bool) (target : Word) (s : State) : Nat :=
  let w := s.lom.stby
  let ahead := (target - s.lom.cycle).toNat
  if stbyLocked s then 0x7
  else if w.check != .pass then 0x1
  else if !s.lom.run then 0xB
  else if hdrNode w ≠ 0 ∧ hdrNode w ≠ localNode s then 0x2
  else if hdrColdOnly w then 0x6
  else if ahead < 8 ∨ 2 ^ 31 ≤ ahead then 0x3
  else if s.lcc.st == .service && hdrSafety w != hdrSafety s.lom.act && !s.lcc.presence then 0x4
  else if (w.src == 0 || w.modified) && !lcOpen s then 0xC
  else if !dropOk && (activeForces s).any (fun i => !forceCapable w (frcWord s i 0).toNat) then 0x5
  else 0

/-- ARM (R250): the checks, then MARKING. -/
def armOp (dropOk : Bool) (s : State) : State :=
  let target := getReg s .lom 0x054
  let res := armCheck dropOk target s
  if res ≠ 0 then armRefuse res s
  else wakeAlm { s with lom := { s.lom with
    armState := .marking, armTarget := target, dropOk := dropOk, disarmWait := false, announced := [] } }

/-- The slot a set traces to, 0xFF for none. -/
def traceSlot (w : WSet) : Nat := if w.src = 0 ∨ w.modified then 0xFF else w.src - 1

/-- ARMED (R250, R252): the mark write of the arm ends; a waiting DISARM then cancels the switch. -/
def armedOp (ok : Bool) (s : State) : State :=
  if s.lom.armState != .marking || !almFree s then s
  else if !ok then
    raise 140 { s with lom := { s.lom with armState := .refused, armReason := 8, disarmWait := false } }
  else
    let s1 := writeMark (markActive s) (traceSlot s.lom.stby) s.lom.armTarget.toNat s
    if s.lom.disarmWait then
      clearTarget { s1 with lom := { s1.lom with armState := .idle, disarmWait := false } }
    else raise 138 { s1 with lom := { s1.lom with armState := .armed } }

/-- DISARM (R252). -/
def disarmOp (s : State) : State :=
  match s.lom.armState with
  | .armed => clearTarget { s with lom := { s.lom with armState := .idle } }
  | .marking => { s with lom := { s.lom with disarmWait := true } }
  | _ => armRefuse 7 s

/-- ARM takes effect as a register: CMD in [1:0], FORCE_DROP_OK in [4] (R250). -/
def armWrite (v : Word) (s : State) : State :=
  let cmd := fieldOf v 1 0
  if cmd = 0 then s else if cmd = 1 then armOp (bitAt v 4) s else if cmd = 2 then disarmOp s else armRefuse 9 s

/-! The switch (R253, R255, R278) -/

/-- The slot states of the new INIT list: a record known to the old list keeps its slots, a new one has none frozen. -/
def switchSlots (old new : WSet) (s : State) : State :=
  let keep (e : Nat × InitRec) : Nat :=
    match (areaRecs old 0).find? fun o => o.2.recOff == e.2.recOff && o.2.rlen == e.2.rlen with
    | some o => slotOf s o.1
    | none => slotInit
  { s with img := { s.img with
    slot := (areaRecs new 0).foldl (fun m e => mset slotInit e.1 (keep e) m) [] } }

/-- Store a record's initial values: STALE and SUBSTITUTED, age 0xFFFF (R262, Table 9.4). -/
def initSlots (w : WSet) (i : Nat) (s : State) : State :=
  let r := initRec w i
  [0, 1, 2].foldl (fun s k =>
    putRec (slotAddr w r.recOff k) (mkHdr 0xFFFF (fSTALE ||| fSUBST) 0 (cyc s)) (initData w i) s) s

/-- New records of a switch take their initial values or their SAFE bytes (R278). -/
def switchRecords (old new : WSet) (s : State) : State :=
  let s1 := ((areaRecs new 0).filter fun e =>
      !(areaRecs old 0).any fun o => o.2.recOff == e.2.recOff && o.2.rlen == e.2.rlen).foldl
    (fun s e => initSlots new e.1 s) s
  ((outList new).filter fun r => !listedOut old r.1 r.2.1).foldl
    (fun s r => writeOut (r.1 * 8) (mkHdr 0 fSAFE 0 (cyc s)) (safeBytes s (r.1 * 8 + 8) r.2.1) s) s1

/-- Channel `c` has written the cycle of the last commit, and its copy waits to be compared with the digest (R145, R149). -/
def copyWaits (s : State) (c : Port) : Bool := (s.vot.last.map (·.n)).any fun n => s.ch[c].copyOf == some n

/-- The commit digest is discarded (R278): the third and observer copies that wait for it are compared no more, and their staging areas are
free (R271). -/
def dropDigest (s : State) : State :=
  let late := allPorts.filter (copyWaits s)
  late.foldl (fun s c => modCh c (fun x => { x with copyOf := none, cmpOf := (s.vot.last.map (·.n)).or x.cmpOf }) s)
    { s with vot := { s.vot with last := s.vot.last.map fun c => { c with digestValid := false, thirdDone := true } },
             img := { s.img with stgBusy := s.img.stgBusy.filter (fun p =>
               s.img.runs.any (fun r => r.reads p) || !late.any (fun c => c.val == p)) } }

/-- The active and the standby set exchange roles, with what follows for image, forces and mark (R253, R255, R278). -/
def exchangeSets (s : State) : State :=
  let old := s.lom.act
  let new := s.lom.stby
  let vol := new.src == 0 || new.modified
  let s1 := dropDigest (dropUnstarted { s with
    lom := { s.lom with
      act := new, stby := old, bank := !s.lom.bank, volatile := vol, armState := .switched, disarmWait := false, announced := [],
      dispatched := [], completed := [], skipped := [] },
    img := { s.img with relayMiss := [] }, rng := { s.rng with rxMiss := [] } })
  let s2 := forcesAtSwitch (switchRecords old new (switchSlots old new s1))
  let s3 := modSeg 1 (fun x => { x with winNext := [] }) (modSeg 0 (fun x => { x with winNext := [] }) s2)
  let s4 := writeMark (if vol then markActive s3 else traceSlot new) 0xFF 0 s3
  pinRoutes s (raiseD 139 (BitVec.ofNat 32 (hdrSched new)) (BitVec.ofNat 32 (hdrSched old)) (loomEval s4))

/-- SWITCHED (R253): in the target Loom cycle the sets exchange roles; a node that is still MARKING counts as armed (R250). -/
def switchedOp (s : State) : State :=
  if !armedNow s || !s.lom.run || s.lom.cycle != s.lom.armTarget then s else exchangeSets s

/-- R254 at the start of a Loom cycle: a conflicting announcement disarms an armed node, a foreign one sends any node to
LISTEN. -/
def mismatchAt (s : State) : State :=
  match s.lom.announced.find? fun a => a.1 == s.lom.cycle with
  | none => s
  | some a =>
    let here := BitVec.ofNat 32 (hdrSched s.lom.act)
    if armedNow s && s.lom.armTarget == s.lom.cycle && hdrRing s.lom.act then
      match s.lom.announced.find? fun a =>
        a.1 == s.lom.cycle && a.2 != BitVec.ofNat 32 (hdrSched s.lom.stby) with
      | some b => enterListen (raiseD 141 b.2 here (abandonArm 0xA s))
      | none => s
    else if armedNow s then s
    else enterListen (raiseD 141 a.2 here s)

/-- Announcements for the cycle that has begun are spent. -/
def dropAnnounced (s : State) : State :=
  { s with lom := { s.lom with announced := s.lom.announced.filter fun a => a.1 != s.lom.cycle } }

/-- The next Loom cycle is the target of an armed switch that no announcement contradicts (R253). -/
def switchNext (s : State) : Bool :=
  armedNow s && s.lom.armTarget == s.lom.cycle + 1 &&
    !(hdrRing s.lom.act && s.lom.announced.any fun a =>
      a.1 == s.lom.armTarget && a.2 != BitVec.ofNat 32 (hdrSched s.lom.stby))

/-- LOOM_CYCLE_START (R224, R231): entries of the cycle that ends and that have not started are skipped, CYCLE advances, a
waiting group-7 update applies (R38). At a switch the entries of the former Ephemeris are skipped without counting (R255). -/
def loomCycleBase (s : State) : State :=
  let s1 := if switchNext s then dropUnstarted s
    else (unstarted s).foldl (fun s i => skipOp i s) s
  pinRoutes s (dropAnnounced (mismatchAt (group7Apply (newCycle (s1.lom.cycle + 1) s1))))

end Sys2Proof.Machine
end

