-- ==== Sys2Proof/Machine/Restart.lean ====
section
/-!
DEFINITION. Restarts of the controller (R154, R249, R283, R284): what a restart begins with, the reload of the active Weave
and of an armed target, the initial values and the retained data.
-/

namespace Sys2Proof.Machine

open Sys2Proof

/-! The match table at a restart (R154) -/

/-- Discard one copy of an entry: a read ends with Completer Abort, an unissued write releases its cells. -/
def restartCopy (issued : Option MCopy) (c : MCopy) (s : State) : State :=
  if c.isRead then completeCa c.ch c.tag s
  else if issued == some c then s
  else discardPkt c.ch.val c.cells s

/-- Every channel in service becomes aligned with APSEQ.K 0, and the match table is emptied (R154). -/
def restartMatch (s : State) : State :=
  let pendingReads (e : MEntry) : List MCopy :=
    e.copies.filter fun c => !(c.isRead && e.phase == .done)
  let s1 := s.vot.openE.foldl (fun s e =>
    (pendingReads e).foldl (fun s c => restartCopy (if e.phase == .done then e.chosen else none) c s) s) s
  let s2 := s.vot.waiting.foldl (fun s c => restartCopy none c s) s1
  let s3 := (s.vot.openE ++ s.vot.closedE).foldl (fun s e => dropHeld e.k e.pat s) s2
  let s4 := { s3 with vot := { s3.vot with openE := [], closedE := [], waiting := [], kEvict := none } }
  allPorts.foldl (fun s c =>
    if s.ch[c].st.inService then modCh c (fun x => { x with k := 0, aligned := true }) s else s) s4

/-! Step 1 of Table 9.10 -/

/-- A restart begins (Table 9.10 step 1). -/
def restartBegin (cold : Bool) (s : State) : State :=
  let slots := (areaRecs s.lom.act 0).foldl (fun s e => putSlot e.1 (withBits (slotOf s e.1) 3 2 3) s) s
  let s1 := restartMatch { slots with
    img := { slots.img with
      ctl := .waiting, restarting := true, restartCold := cold, safeShown := true, frozen := 0, committed := 0,
      frozenRecs := [], heldFreeze := [], wdogRun := 0, runs := [], stgBusy := [], retainReady := false },
    vot := { slots.vot with last := none, attempts := [] } }
  settleChannels (loomStop (allPorts.foldl (fun s c => modCh c (fun x => { x with copyOf := none, cmpOf := none }) s) s1))

/-- RESTART with CMD WARM or COLD takes effect (R283). -/
def restartCmd (cold : Bool) (s : State) : State :=
  if s.img.restarting || s.img.ctl == .running then raise 74 s else restartBegin cold s

/-- RESTART with CMD STOP takes effect (R280, R283). -/
def restartStopCmd (s : State) : State :=
  if s.img.restarting then raise 74 s
  else if s.img.ctl == .stopped then s
  else pump (retryFreezes (settleChannels (stopController 4 s)))

/-- RESTART takes effect: CMD in [1:0]. -/
def restartWrite (v : Word) (s : State) : State :=
  let c := fieldOf v 1 0
  if c = 1 then restartCmd false s else if c = 2 then restartCmd true s else if c = 3 then restartStopCmd s else s

/-! Step 2: the Weave (R249) -/

/-- A set loaded from slot `i`, checked: what it breaks, and the set. -/
def loadChecked (s : State) (i : Nat) (active : Option WSet) : Broken × WSet :=
  match slotBroken s i with
  | some b => (some b, wsetEmpty)
  | none =>
    let w := setOfImage (slotImage s i) (i + 1)
    let b := checkBroken w active
    (b, noteCheck w b)

/-- CHECK_STAT as the check of R249 reports it in the log. -/
def brokenStat (b : Broken) : Nat :=
  match b with
  | some (r, i) => i * 65536 + r * 256 + 3
  | none => 2

/-- The active slot of the mark is loaded into the active set; the mark is rewritten (R247, R249). -/
def loadActive (s : State) : State :=
  let m := markActive s
  let s0 := raiseIf (recCounts s .mark).isNone 215 s
  if 1 < m then { s0 with lom := { s0.lom with act := wsetEmpty, volatile := false } }
  else
    let (b, w) := loadChecked s m none
    let s1 := raiseD 136 (BitVec.ofNat 32 (brokenStat b)) 1 (judgeSlot m (readSlot m s0))
    match b with
    | some _ => { s1 with lom := { s1.lom with act := wsetEmpty, volatile := false } }
    | none =>
      writeMark m (markTarget s1) (recField s1 .mark 12 4)
        { s1 with lom := { s1.lom with act := w, volatile := false } }

/-- An armed target of the mark is loaded into the standby set: abandoned if it fails, switched in at once with RING clear,
kept armed with RING set (R249). -/
def loadTarget (s : State) : State :=
  let t := markTarget s
  if 1 < t then { s with lom := { s.lom with armState := if armedNow s then .idle else s.lom.armState, disarmWait := false } }
  else
    let act := if activePresent s then some s.lom.act else none
    let (b, w) := loadChecked s t act
    match b with
    | some (r, i) =>
      abandonArm 1 (judgeSlot t { readSlot t s with lom := { s.lom with stby := { wsetEmpty with check := .fail, rule := r, index := i } } })
    | none =>
      let s1 := { readSlot t s with lom := { s.lom with
        stby := w, armState := .armed, armTarget := BitVec.ofNat 32 (recField s .mark 12 4), disarmWait := false,
        announced := [] } }
      if !hdrRing w && activePresent s then
        let old := s1.lom.act
        raiseD 139 (BitVec.ofNat 32 (hdrSched w)) (BitVec.ofNat 32 (hdrSched old))
          (writeMark t 0xFF 0 { s1 with lom := { s1.lom with
            act := w, stby := old, bank := !s1.lom.bank, armState := .switched } })
      else s1

/-! Steps 3 and 4: the image -/

/-- Bytes of one range become zero. -/
def zeroImg (lo n : Nat) (s : State) : State :=
  { s with img := { s.img with mem := meraseRange lo (lo + n) s.img.mem } }

/-- A legacy-slave or general record takes its initial values (R262, Table 9.4). -/
def initPlain (i : Nat) (s : State) : State :=
  let r := initRec s.lom.act i
  putRec (r.recOff * 8) (mkHdr 0xFFFF fSUBST 0 (cyc s)) (initData s.lom.act i) s

/-- Step 3: input slots, legacy-slave and general records from INIT, staging and building bank zero, forces released. -/
def restartImage (s : State) : State :=
  let w := s.lom.act
  let s1 := zeroImg (stgBase w) (if w.hasHdr then 0x200000 else 0) { s with img := { s.img with build := [], slot := [], eccErr := [] } }
  let s2 := (areaRecs w 0).foldl (fun s e => initSlots w e.1 s) s1
  let s3 := (areaRecs w 1 ++ areaRecs w 2).foldl (fun s e => initPlain e.1 s) s2
  (activeForces s3).foldl (fun s i => releaseForce i false s) s3

/-- A retain slot can be used: valid, of the right length, its content CRC holding (R402). -/
def retainUsable (s : State) (i : Nat) : Bool :=
  slotValid s i && slotLen s i == retLen s.lom.act && slotCrcOk s i

/-- The valid retain slots that RESTORE tries, in order. -/
def retainTries (s : State) : List Nat :=
  let r := getFld s .alm 0x060 2 1
  if r = 1 then [2] else if r = 2 then [3] else if r = 3 then []
  else
    let vs := [2, 3].filter (slotValid s)
    if vs = [2, 3] ∧ slotSeq s 2 < slotSeq s 3 then [3, 2] else vs

/-- Try retain slots in order: the one used, and the state with the failures reported. -/
def retainPick : List Nat → State → Option Nat × State
  | [], s => (none, s)
  | i :: is, s =>
    if retainUsable s i then (some i, readSlot i s) else retainPick is (raise 214 (judgeSlot i (if slotValid s i then readSlot i s else s)))

/-- The retain area from INIT. -/
def retainInit (s : State) : State :=
  let w := s.lom.act
  (areaRecs w 3).foldl (fun s e => putImg (e.2.recOff * 8) (initData w e.1) s) (zeroImg (retBase w) (retLen w) s)

/-- Step 4: the retain area, warm from a retain slot or cold from INIT. -/
def restartRetain (s : State) : State :=
  if s.img.restartCold then
    let s1 := retainInit s
    { s1 with img := { s1.img with fallback := false } }
  else
    match retainPick (retainTries s) s with
    | (some i, s1) =>
      let s2 := putImg (retBase s.lom.act) (almBytes s1 (slotBase i) (retLen s.lom.act)) s1
      { s2 with img := { s2.img with fallback := false } }
    | (none, s1) =>
      let s2 := retainInit s1
      { s2 with img := { s2.img with fallback := true } }

/-- A scheduled transfer still runs: on a segment, or a RING_TX or RING_RX entry whose slot has not passed (R284). -/
def schedBusy (s : State) : Bool :=
  ([(0 : Seg), 1].any fun g =>
    (match s.seg[g].eng with | some e => e.acc.place == .scheduled | none => false) ||
      s.seg[g].paused.any (fun e => e.acc.place == .scheduled)) || !s.rng.txBuf.isEmpty || !s.rng.windows.isEmpty

/-- RESTART_DONE (R284): steps 2 to 5, once the transfers in progress and the Almanac allow it. -/
def restartDone (s : State) : State :=
  if !s.img.restarting || schedBusy s || !almFree s || s.pwr.boot != .opened || s.evh.scanning then s
  else
    let s1 := loadTarget (loadActive s)
    let s2 := if activePresent s1 then restartRetain (restartImage s1) else
      (activeForces s1).foldl (fun s i => releaseForce i false s)
        { s1 with img := { s1.img with build := [], slot := [] } }
    let s3 := { s2 with
      pwr := { s2.pwr with seqRun := false },
      img := { s2.img with restarting := false, lastCold := s.img.restartCold, retainReady := activePresent s2, relayMiss := [] },
      rng := { s2.rng with rxMiss := [] } }
    raise 72 (loomEval (pump s3))

end Sys2Proof.Machine
end

