-- ==== Sys2Proof/Machine/RingPath.lean ====
section
/-!
DEFINITION. The Celuran ring, its paths and frames (R290 to R300, R309, R310): port roles, the seam, the offsets A and O of every
node, which output repeats a frame, slot owners, the membership vector and what a port does to a frame it cannot use.

Delays and offsets are counted in units of 0.25 ns. East means the port that acts as primary output and west the one that
acts as primary input (DEDUCED, log entry 18).
-/

namespace Sys2Proof.Machine

open Sys2Proof

/-! Ports -/

/-- The page of a ring port. -/
def rgPage (rp : RingPort) : PageKind := .rg rp

/-- Event bit `b` of a ring port (R318). -/
def rgEv (rp : RingPort) (b : Nat) : Nat := 144 + 16 * rp.val + b

/-- The other ring port. -/
def otherPort (rp : RingPort) : RingPort := if rp = 0 then 1 else 0

/-- Both ring ports, east first. -/
def bothPorts : List RingPort := [0, 1]

/-- The port that acts as primary input (R303): RGW as cabled, RGE with the roles swapped. -/
def westPort (s : State) : RingPort := if s.rng.port[(0 : RingPort)].swapped then 0 else 1
/-- The port that acts as primary output. -/
def eastPort (s : State) : RingPort := otherPort (westPort s)

/-- The port roles are set (R303). -/
def setRoles (swapped : Bool) (s : State) : State :=
  modRp 1 (fun p => { p with swapped := swapped }) (modRp 0 (fun p => { p with swapped := swapped }) s)

/-- PORT_CFG.EN. -/
def rgEn (s : State) (rp : RingPort) : Bool := bitAt (getReg s (rgPage rp) 0x044) 0

/-- The ring ports run: power state LISTEN or RUN, and RUN to HOLD until the segments have stopped, with the SerDes PLL locked, not stopped by GATE_CTRL.RING_OFF (Table 13.7,
R360, Table 13.18). -/
def ringOn (s : State) : Bool :=
  (s.pwr.st == .run || s.pwr.st == .listen || s.pwr.fromRun) && s.pwr.serdesLock && getFld s .clk 0x050 2 2 == 0

/-- The port receives frames: enabled, running, its link not lost (R291). -/
def rxOk (s : State) (rp : RingPort) : Bool := rgEn s rp && ringOn s && !s.rng.port[rp].lost

/-- The port sends frames: it also carries no test pattern and no loopback (Table 10.12). -/
def txOk (s : State) (rp : RingPort) : Bool := rxOk s rp && fieldOf (getReg s (rgPage rp) 0x044) 2 1 == 0

/-- Send a frame by a port. -/
def sendFrame (rp : RingPort) (f : Frame) (s : State) : State := if txOk s rp then emit (.ring rp f) s else s

/-! Identity -/

/-- UTAG of a UID (Table 10.2). -/
def utagOf (uid : DWord) : Word := crc32c (bytesLE 8 uid.toNat)

/-- The UTAG that the last RESULT frame gave for node `n`. -/
def resultTag (s : State) (n : Nat) : Option Word := (s.rng.result.find? fun m => m.num == n).map fun m => utagOf m.uid

/-- This node's own UTAG. -/
def ownTag (s : State) : Word := utagOf s.lcc.uid

/-- A frame of this node. -/
def ownFrame (s : State) (typ : Nat) (rp : RingPort) (crit carry : Bool) (slot : Nat) (payload : List Byte) : Frame :=
  { typ := BitVec.ofNat 4 typ, src := BitVec.ofNat 7 s.rng.num, sec := rp == westPort s, dst := 0, crit := crit,
    carry := carry, wrapped := (s.rng.wrapNow.any (·.2)) || s.rng.port[(0 : RingPort)].wrapped || s.rng.port[(1 : RingPort)].wrapped,
    slot := BitVec.ofNat 10 slot, cycle := s.lom.cycle, utag := ownTag s, payload := payload, crcOk := true, eed := false,
    lenOk := true }

/-! The path (R295, R310) -/

/-- The nodes in primary order: those of the last RESULT, else ORDER. -/
def ringNums (s : State) : List Nat :=
  if s.rng.result.isEmpty then ringOrder s.lom.act else s.rng.result.map (·.num)

/-- A list rotated to start at `x`. -/
def rotateTo (x : Nat) (l : List Nat) : List Nat := (l.dropWhile (· != x)) ++ l.takeWhile (· != x)

/-- Node `n` announces WRAP_E, WRAP_W. -/
def wrapEOf (m : SMap Bool) (n : Nat) : Bool := mget false m (2 * n)
def wrapWOf (m : SMap Bool) (n : Nat) : Bool := mget false m (2 * n + 1)

/-- The ring is wrapped (R310). -/
def ringWrapped (s : State) : Bool := s.rng.wrapNow.any (·.2)

/-- The offsets of one node on one ring: A and O. -/
structure Offs where
  a : Nat
  o : Nat
  links : Nat
  deriving DecidableEq, Repr

/-- A walk along a path: each step adds the delay of a link and then the repeat latency of 300 ns (R295). -/
def walk (d : Nat → Nat) (o links : Nat) : List Nat → List (Nat × Offs)
  | [] => []
  | n :: ns =>
    let a := o + d n
    (n, ⟨a, a + 1200, links + 1⟩) :: walk d (a + 1200) (links + 1) ns

/-- Delay of the link into the primary input of `n`, and into its other port. -/
def dlyW (s : State) (n : Nat) : Nat := mget 0 s.rng.delays (2 * n)
def dlyE (s : State) (n : Nat) : Nat := mget 0 s.rng.delays (2 * n + 1)

/-- The pieces of a wrapped ring: each starts at a node that announces WRAP_W and runs to one that announces WRAP_E. -/
def piecesOf (m : SMap Bool) : List Nat → List (List Nat)
  | [] => []
  | n :: ns =>
    match piecesOf m ns with
    | p :: ps => if wrapEOf m n || (p.head?.map (wrapWOf m)).getD false then [n] :: p :: ps else (n :: p) :: ps
    | [] => [[n]]

/-- The piece of the wrapped ring that holds node `n`, new seam first. -/
def pieceOf (s : State) (n : Nat) : List Nat :=
  let l := ringNums s
  let m := s.rng.wrapNow
  let start := (l.find? (wrapWOf m)).getD ((l.find? (wrapEOf m)).map (fun e => ((rotateTo e l).drop 1).headD e) |>.getD 0)
  ((piecesOf m (rotateTo start l)).find? (·.contains n)).getD [n]

/-- The primary offsets of every node on the path of node `n`. -/
def primaryOffs (s : State) (n : Nat) : List (Nat × Offs) :=
  if ringWrapped s then
    match pieceOf s n with
    | x :: xs => (x, ⟨0, 0, 0⟩) :: walk (dlyW s) 0 0 xs
    | [] => []
  else
    match rotateTo s.rng.seam (ringNums s) with
    | x :: xs =>
      let w := walk (dlyW s) 0 0 (xs ++ [x])
      (x, ⟨((w.getLast?).map (·.2.a)).getD 0, 0, 0⟩) :: w.take xs.length
    | [] => []

/-- The secondary offsets: from the seam the other way round, or from the reflecting node back (R310). -/
def secondaryOffs (s : State) (n : Nat) : List (Nat × Offs) :=
  if ringWrapped s then
    let p := primaryOffs s n
    match p.reverse with
    | (x, o) :: xs => (x, ⟨o.a, o.o, o.links⟩) :: walk (dlyE s) o.o o.links (xs.map (·.1))
    | [] => []
  else
    match rotateTo s.rng.seam (ringNums s) with
    | x :: xs =>
      let w := walk (dlyE s) 0 0 (xs.reverse ++ [x])
      (x, ⟨((w.getLast?).map (·.2.a)).getD 0, 0, 0⟩) :: w.take xs.length
    | [] => []

/-- Offsets of node `n` on a ring. -/
def offsOf (s : State) (sec : Bool) (n : Nat) : Offs :=
  (((if sec then secondaryOffs s n else primaryOffs s n).find? fun e => e.1 == n).map (·.2)).getD ⟨0, 0, 0⟩

/-- How many links a frame of node `j` has passed when it reaches node `n` on a ring; the path's end counts for the seam. -/
def linksFrom (s : State) (sec : Bool) (j n : Nat) : Nat :=
  let total := (ringNums s).length
  let a := (offsOf s sec j).links
  let b := (offsOf s sec n).links
  if ringWrapped s then
    (if sec then (offsOf s true n).links - (offsOf s false j).links else b - a)
  else (b + total - a) % total

/-- The node is the seam of its path (R295, R309). -/
def isSeam (s : State) : Bool :=
  if s.rng.port[westPort s].wrapped then true
  else s.rng.num != 0 && s.rng.num == s.rng.seam && !ringWrapped s

/-- The port by which a frame that arrived at `rp` leaves again (R295, R309, R317): none at the seam and none across a foreign
port; a reflecting node folds the primary ring back. -/
def outPort (s : State) (rp : RingPort) : Option RingPort :=
  if isSeam s || s.rng.port[rp].foreign then none
  else
    let o := otherPort rp
    if s.rng.port[o].wrapped then (if o == eastPort s then some rp else none)
    else if s.rng.port[o].foreign then none else some o

/-- Repeat a frame (R294): its copy ends with EED when its CRC failed here or before, or when it was cut. -/
def repeatFrame (rp : RingPort) (cut : Bool) (f : Frame) (s : State) : State :=
  match outPort s rp with
  | some o => sendFrame o { f with eed := f.eed || !f.crcOk || cut } s
  | none => s

/-! Frames that cannot be used (R293, R294, R305) -/

/-- A frame that ends with EED, fails its CRC or disagrees with its length is discarded and counted. -/
def frameBad (f : Frame) : Bool := f.eed || !f.crcOk || !f.lenOk

/-- Count a discarded frame (R294). -/
def countBad (rp : RingPort) (s : State) : State := raise (rgEv rp 6) (incReg (rgPage rp) 0x048 1 s)

/-- An edge reject (R305): the third in a row from one source loses its slot. -/
def edgeReject (rp : RingPort) (src : Nat) (s : State) : State :=
  let n := mget 0 s.rng.port[rp].rejects src + 1
  let s1 := raise (rgEv rp 7) (incReg (rgPage rp) 0x04C 1
    (modRp rp (fun p => { p with rejects := mset 0 src n p.rejects }) s))
  raiseIf (n == 3) (rgEv rp 8) s1

/-- An accepted frame clears the mark of its source. -/
def clearReject (rp : RingPort) (src : Nat) (s : State) : State :=
  modRp rp (fun p => { p with rejects := mset 0 src 0 p.rejects }) s

/-- A frame with a UTAG of no node of the last RESULT makes a port of a wrapped ring foreign (R317). -/
def noteForeign (rp : RingPort) (utag : Word) (s : State) : State :=
  if (ringWrapped s || s.rng.port[(0 : RingPort)].wrapped || s.rng.port[(1 : RingPort)].wrapped) && !s.rng.result.isEmpty &&
      !(s.rng.result.any fun m => utagOf m.uid == utag) && !s.rng.port[rp].foreign then
    raise (rgEv rp 9) (modRp rp (fun p => { p with foreign := true }) s)
  else s

/-- A node in LISTEN that has not yet synchronised checks nothing (R301). -/
def unguarded (s : State) : Bool := s.rng.node == .listen && !s.rng.everSynced

/-! Frames of the ring protocol and their cells (R197, R199) -/

/-- The ring protocol block processes a received frame of `bs` in cells of RNG_PROTO, which it then releases; without cells the frame is
discarded (Tables 7.3 and 7.4). -/
def withProto (bs : List Byte) (f : State → State) (s : State) : State :=
  match claim 25 (cellsFor bs.length) s with
  | some (cells, s1) => releaseCells 25 cells (f { s1 with crl := { s1.crl with cell := fillCells cells bs s1.crl.cell } })
  | none => raise 119 s

/-- A frame outside the slots leaves by a port, by way of cells of RNG_NC_TX (Table 7.3). Without cells it does not leave (DESIGN CHOICE, log
entry 59: its sender sends the next one of its kind in its turn). -/
def sendNc (rp : RingPort) (f : Frame) (s : State) : State :=
  match claim 22 (cellsFor f.payload.length) s with
  | some (cells, s1) =>
    releaseCells 22 cells (sendFrame rp f { s1 with crl := { s1.crl with cell := fillCells cells f.payload s1.crl.cell } })
  | none => s

/-! Membership and slot owners (R307) -/

/-- The lowest-numbered member, 0 when there is none. -/
def lowestMember (v : BitVec 64) : Nat :=
  match (List.range 64).find? fun i => v.getLsbD i with | some i => i + 1 | none => 0

/-- The membership vector becomes `v`; MEMBER_CHG sets when it changes and the seam follows. -/
def setMembers (v : BitVec 64) (s : State) : State :=
  if s.rng.member == v then s
  else raise 181 { s with rng := { s.rng with member := v, seam := lowestMember v } }

/-- The bit of node `n`. -/
def nodeBit (n : Nat) : BitVec 64 := if n = 0 then 0 else BitVec.ofNat 64 (2 ^ (n - 1))

/-- MEMBER_CRC of Table 10.6. -/
def memberCrc (v : BitVec 64) : Word := crc32c (bytesLE 8 v.toNat)

/-- The node that owns the slots of node `p`: its holder while they are taken over (R307). -/
def holderOf (s : State) (p : Nat) : Nat :=
  match s.rng.takenOver.find? fun t => t.1 == p with | some t => t.2.1 | none => p

/-- The current owner of slot `k`. -/
def ownerNow (s : State) (k : Nat) : Nat := holderOf s (slotOwner s.lom.act k)

/-- This node sends in slot `k`: it is ACTIVE and its owner. -/
def ownsSlot (s : State) (k : Nat) : Bool := s.rng.node == .active && s.rng.num != 0 && ownerNow s k == s.rng.num

/-- MISS_LIMIT.LIMIT in effect. -/
def missLimit (s : State) : Nat := max 1 (getFld s .rng 0x054 3 0)

/-- A TEPOCH lies above another, modulo 65,536. -/
def epochAbove (a b : BitVec 16) : Bool := let d := (a - b).toNat; decide (0 < d) && decide (d < 0x8000)

/-- The rings on which this node sends a frame of a slot that names `rings` (R299, R310): while wrapped only the primary
part. -/
def txPorts (s : State) (rings : Nat) : List RingPort :=
  if ringWrapped s then
    if rings % 2 = 1 then (if s.rng.port[eastPort s].wrapped then [westPort s] else [eastPort s]) else []
  else (if rings % 2 = 1 then [eastPort s] else []) ++ (if 2 ≤ rings then [westPort s] else [])

/-- A frame of this node on the rings `rings` reaches node `d` (R299, R312). -/
def reaches (s : State) (rings d : Nat) : Bool :=
  if ringWrapped s then true
  else
    let down (sec : Bool) : Bool := d == s.rng.seam || decide ((offsOf s sec s.rng.num).links < (offsOf s sec d).links)
    (rings % 2 == 1 && down false) || (decide (2 ≤ rings) && down true)

end Sys2Proof.Machine
end

