-- ==== Sys2Proof/Machine/Ring.lean ====
section
/-!
DEFINITION. What the ring carries (R228, R267, R298 to R300, R305, R311 to R316): the entries that send and receive slots, DATA
frames, relay records, and remote transactions as sub-blocks.
-/

namespace Sys2Proof.Machine

open Sys2Proof

/-! Sub-blocks (R311, Table 10.8) -/

/-- A sub-block header, taken apart. -/
structure SubHdr where
  kind : Nat
  first : Bool
  last : Bool
  dst : Nat
  src : Nat
  status : Nat
  tag : Nat
  pat : Nat
  off : Nat
  size : Nat
  dlen : Nat
  deriving DecidableEq, Repr

/-- The header that 16 bytes spell. -/
def subHdr (bs : List Byte) : SubHdr :=
  let b (i : Nat) : Nat := (bs.getD i 0).toNat
  let h (i : Nat) : Nat := b i + 256 * b (i + 1)
  { kind := b 0 % 16, first := bitsOf (b 0) 4 4 == 1, last := bitsOf (b 0) 5 5 == 1, dst := b 1 % 128, src := b 2 % 128,
    status := b 3, tag := h 4 % 4096, pat := h 6, off := h 8 % 4096, size := h 10 % 4096 + 1, dlen := h 12 % 8192 }

/-- The 16 bytes of a header. -/
def subBytes (h : SubHdr) : List Byte :=
  [BitVec.ofNat 8 (h.kind + 16 * bnat h.first + 32 * bnat h.last), BitVec.ofNat 8 h.dst, BitVec.ofNat 8 h.src,
    BitVec.ofNat 8 h.status] ++ bytesLE 2 h.tag ++ bytesLE 2 h.pat ++ bytesLE 2 h.off ++ bytesLE 2 (h.size - 1) ++
    bytesLE 2 h.dlen ++ [0, 0]

/-- Data padded to a multiple of 8. -/
def pad8 (bs : List Byte) : List Byte := bs ++ List.replicate ((8 - bs.length % 8) % 8) 0

/-- The note of a request of this node. -/
def remOf (s : State) (tag : Nat) : Option RemTx := s.rng.rem.find? fun r => r.tag == tag

/-- Forget a request. -/
def dropRem (tag : Nat) (s : State) : State :=
  { s with rng := { s.rng with rem := s.rng.rem.filter fun r => r.tag != tag } }

/-- Change the note of a request. -/
def modRem (tag : Nat) (f : RemTx → RemTx) (s : State) : State :=
  { s with rng := { s.rng with rem := s.rng.rem.map fun r => if r.tag == tag then f r else r } }

/-- The data bytes of the next fragment in `room` bytes of a frame: the rest when it fits, a part only as the first sub-block
of the frame (DEDUCED, log entry 19). -/
def fragLen (left room : Nat) (first : Bool) : Nat :=
  let most := min 2024 ((room - 16) / 8 * 8)
  if room < 16 then 0 else if left ≤ most then left else if first then most else 0

/-- Whether a fragment of `left` bytes can be placed. -/
def fragFits (left room : Nat) (first : Bool) : Bool :=
  decide (16 ≤ room) && (left == 0 || decide (0 < fragLen left room first))

/-- A request packet whose last fragment has left (R197, Table 7.3): a write's cells are released, a read's wait with the packet for its
response; the mailbox waits for the end of its access in both cases (R58). -/
def requestLeft (p : Pkt) (s : State) : State :=
  let s1 := setPkts 20 ((listPkts s 20).drop 1) s
  let noted (s : State) : State := modRem p.aux (fun r => { r with left := true, cycle := s.lom.cycle }) s
  if p.isRead then
    let q := match p.origin with | .fwdRead g _ => 16 + g.val | _ => 4
    noted (linkPkt q p s1)
  else
    let s2 := releaseCells p.owner p.cells s1
    if p.origin = .mailbox then noted s2 else dropRem p.aux s2

/-- The next fragment of the request at the head of RNG_REQ_TX: its bytes, and the state once it has left. A write that meets an uncorrectable
word sends nothing more: its packet is released, and the source sees nothing (R81, R214). -/
def takeRequest (s : State) (room : Nat) (first : Bool) : Option (List Byte × State) :=
  match listPkts s 20 with
  | [] => none
  | p :: _ =>
    let pt := patOf p.patE
    let left := if p.isRead then 0 else p.len - p.sent
    if !fragFits left room first then none
    else
      let n := fragLen left room first
      let done := p.isRead || p.sent + n == p.len
      let ws := pktWords p p.sent n
      let s1 := meetWords ws s
      if wordsBad s ws then
        let s2 := dropRem p.aux (releaseCells p.owner p.cells (setPkts 20 ((listPkts s1 20).drop 1) s1))
        some ([], if p.origin = .mailbox then mailDone true 6 [] s2 else s2)
      else
        let h : SubHdr := { kind := if p.isRead then 1 else 2, first := p.sent == 0, last := done, dst := pt.node,
                            src := s.rng.num, status := 0, tag := p.aux, pat := pt.base % 65536, off := p.off, size := p.len,
                            dlen := n }
        let bs := subBytes h ++ pad8 ((p.data.drop p.sent).take n)
        some (bs, if done then requestLeft p s1 else modHead 20 (fun p => { p with sent := p.sent + n }) s1)

/-- The destination of the request at the head of RNG_REQ_TX. -/
def requestDst (s : State) : Option Nat := (listPkts s 20).head?.map fun p => (patOf p.patE).node

/-- A response may leave in Loom cycle c + 2 or later of the cycle c in which its request was received (R312). -/
def responseDue (s : State) (p : Pkt) : Bool := decide (2 ≤ (cyc s % 65536 + 65536 - p.cy % 65536) % 65536)

/-- The node and tag that a response answers. -/
def responseTo (p : Pkt) : Nat × Nat := match p.origin with | .remote src tag => (src, tag) | _ => (0, 0)

/-- The next fragment of the response at the head of RNG_RSP_TX; one that meets an uncorrectable word ends the response with STATUS 0x01
(R214). -/
def takeResponse (s : State) (room : Nat) (first : Bool) : Option (List Byte × State) :=
  match listPkts s 21 with
  | [] => none
  | p :: _ =>
    let sent := p.sent / 256
    let left := p.data.length - sent
    if !responseDue s p || !fragFits left room first then none
    else
      let n := fragLen left room first
      let ws := pktWords p sent n
      let bad := wordsBad s ws
      let s1 := meetWords ws s
      let done := bad || sent + n == p.data.length
      let h : SubHdr := { kind := 3, first := sent == 0, last := done, dst := (responseTo p).1, src := s.rng.num,
                          status := if bad then 1 else p.sent % 256, tag := (responseTo p).2, pat := 0, off := 0,
                          size := max 1 p.data.length, dlen := if bad then 0 else n }
      let bs := subBytes h ++ (if bad then [] else pad8 ((p.data.drop sent).take n))
      some (bs, if done then popPkt 21 s1 else modHead 21 (fun p => { p with sent := p.sent + 256 * n }) s1)

/-- The next command or command response. -/
def takeCommand (s : State) (room : Nat) : Option (List Byte × State) :=
  match s.rng.carry with
  | b :: bs => if b.length ≤ room then some (b, { s with rng := { s.rng with carry := bs } }) else none
  | [] => none

/-- The destination of a sub-block that waits in the ring protocol. -/
def commandDst (s : State) : Option Nat := s.rng.carry.head?.map fun b => (subHdr b).dst

/-- The sources of sub-blocks in requester order with their rank of PRIO_RTX (Tables 7.6 and 7.20). -/
def txRank (s : State) (src : Nat) : Nat :=
  getFld s .arb 0x054 (if src = 0 then 2 else if src = 1 then 6 else 14) (if src = 0 then 0 else if src = 1 then 4 else 12)

/-- Round robin distance among the sources of one rank, from the one of that rank granted last (R217). -/
def txDist (s : State) (src : Nat) : Nat :=
  match s.rng.txGrants.find? fun x => txRank s x == txRank s src with
  | some last => (src + 2 - last) % 3
  | none => src

/-- A source has been granted. -/
def txGranted (src : Nat) (s : State) : State := { s with rng := { s.rng with txGrants := src :: s.rng.txGrants.filter (· != src) } }

/-- The sub-block that the transmit path's arbiter grants next: highest rank, then round robin (R217, R311). A sub-block waits for a
slot whose rings reach its node (R312). -/
def takeSub (s : State) (rings room : Nat) (first : Bool) : Option (Nat × List Byte × State) :=
  let ok (d : Option Nat) : Bool := (d.map (reaches s rings)).getD false
  let one (src : Nat) : Option (Nat × List Byte × State) :=
    (if src = 0 then (if ok (requestDst s) then takeRequest s room first else none)
     else if src = 1 then
       (if ok ((listPkts s 21).head?.map fun p => (responseTo p).1) then takeResponse s room first else none)
     else (if ok (commandDst s) then takeCommand s room else none)).map fun e => (src, e)
  ([0, 1, 2].filterMap one).foldl (fun best c =>
    match best with
    | none => some c
    | some b =>
      if txRank s b.1 < txRank s c.1 ∨ (txRank s b.1 = txRank s c.1 ∧ txDist s c.1 < txDist s b.1) then some c else some b) none

/-- Fill the rest of a slot with sub-blocks; the fuel bounds their number (each takes 16 bytes at least). -/
def fillSubs (rings : Nat) : Nat → Nat → Bool → List Byte → State → List Byte × State
  | 0, _, _, acc, s => (acc, s)
  | n + 1, room, first, acc, s =>
    match takeSub s rings room first with
    | some (src, bs, s1) => fillSubs rings n (room - bs.length) (first && bs.isEmpty) (acc ++ bs) (txGranted src s1)
    | none => (acc, s)

/-! Sending slots (R228, R298) -/

/-- RING_TX_ENTRY (R228, R233): the slot's owner reads the payload, by way of a Creel port on which the vote unit's quarter comes first (R217).
A record with an uncorrectable word leaves as its safe data with SAFE and ERROR, and takes ERROR itself (R272). -/
def ringTxEntry (i : Nat) (s : State) : State :=
  dispatch i 1 (fun e s =>
    let slot := e.f 73 64
    let len := e.f 85 74
    let off := e.f 115 96 * 8
    if !ownsSlot s slot then s
    else
      let lo (r : Nat × Nat × Bool × Nat) : Nat := max off (r.1 * 8)
      let hi (r : Nat × Nat × Bool × Nat) : Nat := min (off + len) (r.1 * 8 + 8 + r.2.1)
      let read := (outList s.lom.act).filter fun r => decide (lo r < hi r) && !safeRec s r.1
      let bad := read.filter fun r => imgBad s (lo r) (hi r - lo r)
      let v := bad.foldl (fun v r =>
        overlay off (r.1 * 8) (bytesLE 8 (mkHdr 0 (fSAFE ||| fERROR) 0 (cyc s)) ++ safeBytes s (r.1 * 8 + 8) r.2.1) v)
        (voutView s off len)
      let s1 := bad.foldl (fun s r => eccError (r.1 * 8) s) (read.foldl (fun s r => imgMeet (lo r) (hi r - lo r) s) s)
      let f : TxFrame := { entry := i, cycle := s.lom.cycle, slot := slot, rings := e.f 87 86, carry := e.f 88 88 == 1,
                           crit := slotCrit s.lom.act slot, maxLen := slotMaxLen s.lom.act slot, data := v }
      contend true { s1 with rng := { s1.rng with txBuf := s1.rng.txBuf ++ [f] } }) s

/-- One frame leaves by a port; one that is longer than its slot is cut when the guard begins (R305). -/
def sendOwn (f : TxFrame) (payload : List Byte) (carried : Bool) (s : State) (rp : RingPort) : State :=
  let cut := decide (f.maxLen < payload.length)
  sendFrame rp { ownFrame s 1 rp f.crit carried f.slot payload with
      sec := rp == westPort s && !ringWrapped s, cycle := f.cycle, eed := cut }
    (raiseIf (cut && txOk s rp) (rgEv rp 10) s)

/-- The frame of a RING_TX entry leaves at its slot's start, with the sub-blocks that fit (R228, R298, R311). -/
def sendSlot (f : TxFrame) (s : State) : State :=
  let s0 := entryDone f.entry f.cycle.toNat (contend (txMayLose s) { s with rng := { s.rng with txBuf := s.rng.txBuf.erase f } })
  match txPorts s f.rings with
  | [] => s0
  | ps =>
    if !ownsSlot s f.slot then s0
    else
      let (subs, s1) :=
        if f.carry then fillSubs f.rings 128 (f.maxLen - f.data.length) true [] (dropStale 20 s0) else ([], s0)
      ps.foldl (sendOwn f (f.data ++ subs) (!subs.isEmpty)) s1

/-- SLOT_START (R228, R233): the slot's output time; every payload read for it leaves. -/
def slotStart (slot : Nat) (s : State) : State :=
  (s.rng.txBuf.filter fun f => f.slot == slot).foldl (fun s f => sendSlot f s) s

/-! Receiving slots (R267, R299, R305, R315, R316) -/

/-- RING_RX_ENTRY (R228): the acceptance window of the slot opens. -/
def ringRxEntry (i : Nat) (s : State) : State :=
  dispatch i 2 (fun e s => { s with rng := { s.rng with
    windows := s.rng.windows.filter (fun w => !(w.entry == i && w.cycle == cyc s)) ++ [⟨i, cyc s, e.bits⟩] } }) s

/-- The entry as it was when its window opened. -/
def RxWin.eph (w : RxWin) : Eph := ephOf w.bits

/-- The entry of a window belongs to the present Ephemeris. -/
def winNow (s : State) (w : RxWin) : Bool := ephEntry s.lom.act w.entry == w.bits

/-- Rewrite an input record's newest slot with REMOTE_LOST and STALE (R267). -/
def markLost (e : Eph) (s : State) : State :=
  match findInit s.lom.act [0] (e.f 115 96) with
  | some r =>
    let (h, d) := newestSlot s r
    if hdrFlags h &&& fREMLOST ≠ 0 then s
    else
      let src := ownerNow s (e.f 73 64)
      let s1 := writeInput r d ((hdrFlags h &&& (255 - fFORCED)) ||| fREMLOST ||| fSTALE) (bitsOf h 31 24) (bitsOf h 15 0)
        (bitsOf h 63 32) s
      if s.rng.remoteLost.contains src then s1
      else raise 184 { s1 with rng := { s1.rng with remoteLost := s1.rng.remoteLost ++ [src] } }
  | none => s

/-- A window closes without acceptance (R228, R267): nothing is renewed and a miss counts, unless the entry is one of a former Ephemeris. -/
def closeWin (s : State) (w : RxWin) : State :=
  let n := mget 0 s.rng.rxMiss w.entry + 1
  let s1 := entryDone w.entry w.cycle { s with rng := { s.rng with windows := s.rng.windows.erase w } }
  if !winNow s w then s1
  else
    let s2 := { s1 with rng := { s1.rng with rxMiss := mset 0 w.entry n s1.rng.rxMiss } }
    if missLimit s ≤ n then markLost w.eph s2 else s2

/-- RING_RX_WINDOW_CLOSE (R267): the oldest open window of entry `i` closes. -/
def windowClose (i : Nat) (s : State) : State :=
  match s.rng.windows.find? fun w => w.entry == i with
  | some w => closeWin s w
  | none => s

/-- RELAY_HOLD_EXPIRE (R316): nothing accepted for more than OUT_HOLD due cycles; the relay record shows its SAFE bytes. -/
def relayHoldExpire (i : Nat) (s : State) : State :=
  if (relayList s.lom.act).any (fun e => e.1 == i) && decide (outHold s < mget 0 s.rng.rxMiss i) then
    { s with img := { s.img with relayMiss := mset 0 i 256 s.img.relayMiss } }
  else s

/-- A window accepts a frame (R267, R316): the sender's record goes to the input record and to its relay record. -/
def acceptSlot (f : Frame) (w : RxWin) (s : State) : State :=
  let e := w.eph
  let off := e.f 84 74
  let h := natLE ((f.payload.drop off).take 8)
  let data := (f.payload.drop (off + 8)).take (e.f 127 116)
  let flags := hdrFlags h &&& (255 - fREMLOST)
  let src := f.src.toNat
  let s0 := entryDone w.entry w.cycle { contend (schedMayLose s) s with
    rng := { s.rng with windows := s.rng.windows.erase w, remoteLost := s.rng.remoteLost.filter (· != src) } }
  let s1 :=
    match findInit s.lom.act [0] (e.f 115 96) with
    | some r => writeInput r data flags src (bitsOf h 15 0) (bitsOf h 63 32) s0
    | none => s0
  if !winNow s w then s1
  else
    ((relayList s.lom.act).filter fun x => x.1 == w.entry).foldl
      (fun s x => writeOut (x.2 * 8) (mkHdr (bitsOf h 15 0) flags src (bitsOf h 63 32)) data s)
      { s1 with rng := { s1.rng with rxMiss := mset 0 w.entry 0 s1.rng.rxMiss },
                img := { s1.img with relayMiss := mset 0 w.entry 0 s1.img.relayMiss } }

/-- A frame of slot `k` arrived at `rp` may be accepted by a window (R299, R310). -/
def windowTakes (s : State) (rp : RingPort) (k : Nat) (w : RxWin) : Bool :=
  w.eph.f 73 64 == k && (ringWrapped s || bitsOf (w.eph.f 86 85) (bnat (rp == eastPort s)) (bnat (rp == eastPort s)) == 1)

/-- DATA_FRAME_RECEIVE (R294, R305, R317): the guardian's rules in order. -/
def dataFrame (rp : RingPort) (inWindow : Bool) (f : Frame) (s : State) : State :=
  if !rxOk s rp || f.typ != 1 then s
  else if unguarded s then repeatFrame rp false f (if frameBad f then countBad rp s else s)
  else if !inWindow then edgeReject rp f.src.toNat (noteForeign rp f.utag s)
  else
    let k := f.slot.toNat
    let owner := ownerNow s k
    if !s.rng.result.isEmpty && resultTag s owner != some f.utag then noteForeign rp f.utag s
    else if slotMaxLen s.lom.act k < f.payload.length then
      raise (rgEv rp 10) (repeatFrame rp true f (clearReject rp f.src.toNat s))
    else
      let s1 := repeatFrame rp false f (clearReject rp f.src.toNat s)
      if frameBad f then countBad rp s1
      else ((s.rng.windows.filter (windowTakes s rp k)).foldl (fun s w => acceptSlot f w s) s1)

/-! Remote transactions (R73, R312, R313) -/

/-- The response to a request, as far as it has come, is discarded: its cells of RNG_RSP_RX are released (Table 7.3). -/
def dropAnswer (tag : Nat) (s : State) : State :=
  ((listPkts s 24).filter fun p => p.aux == tag).foldl (fun s p => discardPkt 24 p.cells s) s

/-- The outcome of a request of this node: failed, or its bytes (R81, R313, Table 3.10). -/
def remoteOutcome (r : RemTx) (failed : Bool) (bs : List Byte) (s : State) : State :=
  let store (q : Nat) (s : State) : State :=
    setPkts q ((listPkts s q).map fun p => if p.origin == r.origin then { p with data := bs } else p)
      ((listPkts s q).foldl (fun s p =>
        if p.origin == r.origin then { s with crl := { s.crl with cell := fillCells p.cells bs s.crl.cell } } else s) s)
  let s1 := dropRem r.tag (dropAnswer r.tag s)
  pump (match r.origin with
    | .vote k pat => readResult (BitVec.ofNat 32 k) pat failed bs (if failed then s1 else store 4 s1)
    | .fwdRead g id => fwdReadResult g id (failed, bs) (if failed then s1 else store (16 + g.val) s1)
    | .mailbox => mailDone failed (if failed then 6 else 0) bs s1
    | _ => s1)

/-- The fragment of a response joins what has come of it, in cells of RNG_RSP_RX for the whole that its first fragment claims; a fragment without its
first is discarded. Nothing when no cell is found. -/
def takeFragment (rp : RingPort) (h : SubHdr) (r : RemTx) (bs : List Byte) (s : State) : Option (List Byte × State) :=
  if h.first then
    let s0 := dropAnswer h.tag s
    (claim 24 (cellsFor h.size) s0).map fun e =>
      (bs, linkPkt 24 { responsePkt rp h.src h.tag 0 0 e.1 bs with owner := 24, aux := h.tag, len := h.size, eop := h.last, origin := r.origin }
        { e.2 with crl := { e.2.crl with cell := fillCells e.1 bs e.2.crl.cell } })
  else
    match (listPkts s 24).find? fun p => p.aux == h.tag with
    | some p =>
      let d := p.data ++ bs
      some (d, setPkts 24 ((listPkts s 24).map fun x => if x.aux == h.tag then { x with data := d, eop := h.last } else x)
        { s with crl := { s.crl with cell := fillCells p.cells d s.crl.cell } })
    | none => some ([], s)

/-- REMOTE_RESPONSE_RECEIVE (R313): a response with matching SRC and TAG. A read completes once all its bytes have come; bytes that are present
reach the copies that wait (R99). -/
def remoteResponse (rp : RingPort) (h : SubHdr) (data : List Byte) (s : State) : State :=
  if h.dst ≠ s.rng.num ∨ s.pwr.st ≠ .run then s
  else if h.kind = 5 then
    withProto (subBytes h) (raiseD 188 (BitVec.ofNat 32 (h.pat % 16 + h.src * 256 + h.status * 2 ^ 24)) 0) s
  else if h.kind ≠ 3 then s
  else
    match remOf s h.tag with
    | none => s
    | some r =>
      if r.dst ≠ h.src ∨ !r.left then s
      else if h.status ≠ 0 then remoteOutcome r true [] s
      else
        match takeFragment rp h r (data.take h.dlen) s with
        | none => raise 119 s
        | some (got, s1) =>
          if h.last && got.length == h.size then remoteOutcome r false got s1
          else match r.origin with
            | .vote k pat => if got.isEmpty then s1 else readPart (BitVec.ofNat 32 k) pat got s1
            | _ => s1

/-- The lists that may hold a remote request (R197). -/
def remLists : List Nat := [10, 11, 23]

/-- The list that holds the remote write whose fragments still come from a node. -/
def partOf (s : State) (src tag : Nat) : Option Nat :=
  remLists.find? fun q => (listPkts s q).any fun p => p.origin == .remote src tag && !p.eop

/-- The list on which that write is being dropped (R208). -/
def droppedOf (s : State) (src tag : Nat) : Option Nat :=
  remLists.find? fun q => (getQ s.crl q).dropping.any fun p => p.origin == .remote src tag

/-- A fragment of a packet that is being dropped arrives: each of its cells is released as it fills (R208). -/
def dropCells (q : Nat) (bs : List Byte) (last : Bool) (s : State) : State :=
  match (getQ s.crl q).dropping with
  | some p =>
    let d := p.data ++ bs
    let n := d.length / 64 - p.sent
    let e := getQ s.crl q
    let s1 := releaseCells p.owner (p.cells.take n)
      { s with crl := setQ q { e with dropping := some { p with data := d, cells := p.cells.drop n, sent := p.sent + n } } s.crl }
    if last then endDropping q s1 else s1
  | none => s

/-- A further fragment of a remote write joins its packet, which is complete once all its bytes have come. -/
def growRequest (q src tag : Nat) (bs : List Byte) (last : Bool) (s : State) : State :=
  let mine (x : Pkt) : Bool := x.origin == .remote src tag && !x.eop
  let grow (x : Pkt) : Pkt := { x with data := x.data ++ bs, eop := last && (x.data ++ bs).length == x.len }
  let s1 := ((listPkts s q).filter mine).foldl
    (fun s x => { s with crl := { s.crl with cell := fillCells x.cells (grow x).data s.crl.cell } }) s
  setPkts q ((listPkts s q).map fun x => if mine x then grow x else x) s1

/-- The first fragment of a remote request: its pattern is fetched and checked (R64, R69, R73); a read that is refused is answered, a refused write
discarded; without cells the frame is discarded (Table 7.4). A destination pattern of a forward window swaps as its own entry says
(R73 against R83; DESIGN CHOICE, log entry 54). -/
def firstRequest (rp : RingPort) (h : SubHdr) (bs : List Byte) (s0 : State) : State :=
  let write := h.kind = 2
  let e := patEntry s0.lom.act h.pat
  let p := patOf e
  let s := fetchOne h.pat s0
  let cy := cyc s % 65536
  if patUncorr s0 h.pat || !p.valid || p.node ≠ 0 || accessRefused p write h.off h.size then
    (if write then s else respondStatus rp h.src h.tag 2 cy s)
  else
    match claim 23 (if write then cellsFor h.size else 1) s with
    | none => raise 119 s
    | some (cells, s1) =>
      linkPkt 23 { owner := 23, cells := cells, eop := !write || (h.last && bs.length == h.size), epoch := 0, cy := cy,
                   src := 7 + bnat (rp == 1), pat := h.pat, off := h.off, len := h.size, aux := h.tag, data := bs, en := [],
                   isRead := !write, trunc := false, cont := false, poison := false, sent := 0, patE := e,
                   origin := .remote h.src h.tag }
        { s1 with crl := { s1.crl with cell := fillCells cells bs s1.crl.cell } }

/-- REMOTE_REQUEST_RECEIVE (R73, R312, Table 7.4): a request for this node, or a further fragment of one. -/
def remoteRequest (rp : RingPort) (h : SubHdr) (data : List Byte) (s : State) : State :=
  if h.dst ≠ s.rng.num ∨ h.dst = 0 ∨ s.pwr.st ≠ .run ∨ (h.kind ≠ 1 ∧ h.kind ≠ 2) then s
  else
    let bs := data.take h.dlen
    pump (if h.first then firstRequest rp h bs s
      else
        match partOf s h.src h.tag, droppedOf s h.src h.tag with
        | some q, _ => growRequest q h.src h.tag bs h.last s
        | none, some q => dropCells q bs h.last s
        | none, none => s)

/-- RING_RX's remote timeout of this node's active set (Table 10.9). -/
def remTimeout (s : State) : Nat := ringRemTimeout s.lom.act

/-- REM_TIMEOUT (R313): a read without response within REM_TIMEOUT Loom cycles of the cycle in which it left fails. -/
def remTimeoutOp (tag : Nat) (s : State) : State :=
  match remOf s tag with
  | some r =>
    if r.left && decide (remTimeout s ≤ (s.lom.cycle - r.cycle).toNat) then
      remoteOutcome r true [] (raiseD 185 (BitVec.ofNat 32 (r.dst + r.tag * 65536)) (BitVec.ofNat 32 r.pat) s)
    else s
  | none => s

/-- The engine of a segment transfers a packet of list `q`. -/
def engOn (s : State) (g : Seg) (q : Nat) : Bool :=
  match s.seg[g].eng with
  | some e => e.acc.queue == q
  | none => false

/-- The access at the head of list `q` ends failed: one in progress ends at its last complete beat; the logged address is that of the first byte not
transferred (R81, R208). -/
def failHead (g : Seg) (q : Nat) (s : State) : State :=
  if engOn s g q then
    match s.seg[g].eng with
    | some e => tenureEnd g (finishFail g e.acc (if isFirst e && !e.driving then engAddr e else dropAddr e) 1 (engStop g s))
    | none => s
  else
    match s.seg[g].paused.find? fun e => e.acc.queue == q with
    | some e => finishFail g e.acc (dropAddr e) 1 (modSeg g (fun x => { x with paused := x.paused.filter fun f => f != e }) s)
    | none =>
      match listPkts s q with
      | [] => s
      | p :: _ =>
        let a := accOfPkt q .remote p
        finishFail g a (if p.sent = 0 then firstAddr a else dropAddr (engOf a p.sent)) 1 s

/-- A remote write that is not at the head of its segment's list is taken off its list and fails (R207, Table 3.9). -/
def abandonQueued (q src tag : Nat) (s : State) : State :=
  let mine (x : Pkt) : Bool := x.origin == .remote src tag && !x.eop
  let ps := listPkts s q
  (ps.filter mine).foldl (fun s x => recError (patOf x.patE) (releaseCells x.owner x.cells
    (raiseD (segEv (patOf x.patE).seg 2) (BitVec.ofNat 32 (x.pat % 65536)) (BitVec.ofNat 32 (firstAddr (accOfPkt q .remote x))) s)))
    (setPkts q (ps.filter fun x => !mine x) s)

/-- REMOTE_WRITE_FRAGMENT_TIMEOUT (R207, R208, R313): the destination drops a partial write; at the head of its segment's list its access
fails, elsewhere the packet is taken off its list; of a write that is being dropped the rest will not come. -/
def fragmentTimeout (src tag : Nat) (s : State) : State :=
  match partOf s src tag, droppedOf s src tag with
  | some q, _ =>
    let head := match listPkts s q with | p :: _ => p.origin == .remote src tag | [] => false
    pump (raise 121 (if head && q != 23 then failHead (if q = 10 then 0 else 1) q s else abandonQueued q src tag s))
  | none, some q => pump (endDropping q s)
  | none, none => s

end Sys2Proof.Machine
end

