-- ==== Sys2Proof/Machine/RingNode.lean ====
section
/-!
DEFINITION. The node protocol of the ring (R297, R301 to R310, R314, R324 to R327): sync frames, membership, link calibration,
node states, takeover, cold start and inauguration, wrap and unwrap, ring commands.
-/

namespace Sys2Proof.Machine

open Sys2Proof

/-- The quotient `a / n`, rounded as the spec leaves open (DESIGN CHOICE, log entry 13). -/
def divOpen (a : Int) (n : Nat) : Int := a / n + (if a % n ≠ 0 ∧ Config.roundUp a n then 1 else 0)

/-! Sync frames (R297, R324 to R327, Table 10.6) -/

/-- The node sends sync frames: it has a number and is in INTEGRATE, ACTIVE or STANDBY. -/
def sendsSync (s : State) : Bool :=
  s.rng.num != 0 && (s.rng.node == .integrate || s.rng.node == .active || s.rng.node == .standby)

/-- STATE encoding of Table 10.17. -/
def NodeState.code : NodeState → Nat
  | .listen => 0 | .coldstart => 1 | .integrate => 2 | .active => 3 | .standby => 4

/-- HOP_DELAY as a node publishes it: 0 before VALID (R327). -/
def published (s : State) (rp : RingPort) : Nat := if s.rng.port[rp].hopValid then s.rng.port[rp].hopDelay else 0

/-- The sync frame payload that leaves by port `rp` now. -/
def syncPayload (s : State) (rp : RingPort) : List Byte :=
  let raw := match s.rng.port[rp].rawSent with | some r => r % 2 ^ 15 + 2 ^ 15 | none => 0
  let announce := armedNow s && hdrRing s.lom.act
  let n := s.rng.num
  bytesLE 4 (timeFrac s).toNat ++ bytesLE 2 (timeSec s).toNat ++ bytesLE 2 raw ++ bytesLE 4 (hdrSched s.lom.act) ++
    bytesLE 4 (if announce then s.lom.armTarget.toNat else 0) ++ bytesLE 4 (if announce then hdrSched s.lom.stby else 0) ++
    bytesLE 4 (memberCrc s.rng.member).toNat ++ bytesLE 2 s.rng.tepoch.toNat ++
    [BitVec.ofNat 8 s.rng.node.code,
     BitVec.ofNat 8 (bnat (wrapEOf s.rng.wrapE n) + 2 * bnat (wrapWOf s.rng.wrapE n) + 4 * bnat (isSeam s) + 8 * bnat s.rng.taken)] ++
    bytesLE 2 (published s (westPort s)) ++ bytesLE 2 (published s (eastPort s))

/-- This node's sync frame leaves on both ports (R297). -/
def sendSync (s : State) : State :=
  if !sendsSync s then s
  else bothPorts.foldl (fun s rp => sendFrame rp (ownFrame s 2 rp false false (s.rng.num - 1) (syncPayload s rp)) s) s

/-- SYNC_ENTRY (R228, R326): with OWN set the sync frame leaves, else the measurement point opens. -/
def syncEntry (i : Nat) (s : State) : State :=
  dispatch i 3 (fun e s =>
    if e.f 70 70 = 1 then entryDone i (cyc s) (if e.f 69 64 + 1 = s.rng.num then sendSync s else s)
    else { s with mer := { s.mer with points := s.mer.points.filter (· != e.f 69 64) ++ [e.f 69 64] } }) s

/-- LISTEN_SYNC_SEND (R369): in power state LISTEN the sync frame leaves and every point opens without the Loom. -/
def listenSync (s : State) : State :=
  if s.pwr.st == .listen then sendSync { s with mer := { s.mer with points := List.range 64 } } else s

/-- A sync frame's payload, taken apart. -/
structure SyncPl where
  frac : Nat
  sec : Nat
  raw : Nat
  rawValid : Bool
  sched : Word
  annCycle : Word
  annSched : Word
  memberCrc : Word
  tepoch : BitVec 16
  state : Nat
  flags : Nat
  dlyW : Nat
  dlyE : Nat
  deriving DecidableEq, Repr

/-- The fields of Tables 10.6 and 11.1. -/
def syncPl (bs : List Byte) : SyncPl :=
  let n (o k : Nat) : Nat := natLE ((bs.drop o).take k)
  { frac := n 0 4, sec := n 4 2, raw := n 6 2 % 2 ^ 15, rawValid := bitsOf (n 6 2) 15 15 == 1, sched := BitVec.ofNat 32 (n 8 4),
    annCycle := BitVec.ofNat 32 (n 12 4), annSched := BitVec.ofNat 32 (n 16 4), memberCrc := BitVec.ofNat 32 (n 20 4),
    tepoch := BitVec.ofNat 16 (n 24 2), state := n 26 1, flags := n 27 1, dlyW := n 28 2, dlyE := n 30 2 }

/-- The sender's time in 2^-32 s, its upper seconds chosen nearest to the stamp (R325). `stamp` is in 2^-34 s. -/
def senderTime (stamp : Nat) (p : SyncPl) : Int :=
  let own : Int := (stamp / 2 ^ 34 : Nat)
  let base : Int := own / 65536 * 65536 + p.sec
  let pick (a b : Int) : Int := if (a - own).natAbs ≤ (b - own).natAbs then a else b
  pick base (pick (base - 65536) (base + 65536)) * 2 ^ 32 + p.frac

/-- The neighbour of a port: the adjacent node of the last RESULT (R327). -/
def neighbour (s : State) (rp : RingPort) : Option Nat :=
  let l := rotateTo s.rng.num (ringNums s)
  match l with
  | _ :: x :: xs => if rp == eastPort s then some x else (x :: xs).getLast?
  | _ => none

/-- Form the raw difference and, with the neighbour's RAW of the segment before, a result of the link delay (R327). -/
def calibrate (rp : RingPort) (j stamp : Nat) (p : SyncPl) (s : State) : State :=
  if neighbour s rp != some j then s
  else
    let diff : Int := ((stamp : Int) - 4 * senderTime stamp p) * 4000000000
    let r : Nat := ((divOpen diff (2 ^ 34)) % 2 ^ 15).toNat
    let s1 := modRp rp (fun x => { x with raw := some r }) { s with mer := { s.mer with rawOk := s.mer.rawOk.filter (· != j) } }
    match s.rng.port[rp].rawSent with
    | some own =>
      if !p.rawValid then s1
      else
        let rs := (((own + p.raw) % 2 ^ 15) :: s.rng.port[rp].hopResults).take 256
        let mean := (divOpen (rs.foldl (· + ·) 0 : Nat) (2 * rs.length)).toNat
        let used := if rp == westPort s then dlyW s s.rng.num else dlyE s s.rng.num
        raiseIf (decide (mean + 4 < used) || decide (used + 4 < mean)) 200
          { modRp rp (fun x => { x with hopResults := rs, hopValid := true, hopDelay := mean }) s1 with
            mer := { s1.mer with rawOk := s1.mer.rawOk ++ [j] } }
    | none => s1

/-- The copy of node `j`'s sync frame that this node measures: the one on the ring on which it lies downstream; the seam uses
the copy that has passed fewer links (R326). -/
def measures (s : State) (rp : RingPort) (j : Nat) : Bool :=
  if ringWrapped s || !(s.rng.num != 0 && s.rng.num == s.rng.seam) then true
  else
    let p := linksFrom s false j s.rng.num
    let q := linksFrom s true j s.rng.num
    if rp == westPort s then decide (p ≤ q) else decide (q < p)

/-- The reading of node `j` in 2^-32 s (R326). -/
def reading (s : State) (rp : RingPort) (j stamp : Nat) (p : SyncPl) : Int :=
  let sec := rp != westPort s
  let a := (offsOf s sec s.rng.num).a
  let o := (offsOf s (sec && !ringWrapped s) j).o
  divOpen (((stamp : Int) - 4 * senderTime stamp p) * 1000000000 - ((a : Int) - o) * 2 ^ 32) 4000000000

/-- Take a reading at an open measurement point. -/
def takeReading (rp : RingPort) (j stamp : Nat) (p : SyncPl) (s : State) : State :=
  if s.mer.spoiled || !s.mer.points.contains (j - 1) || !measures s rp j then s
  else
    let v := reading s rp j stamp p
    { s with mer := { s.mer with
      points := s.mer.points.filter (· != j - 1), readings := minsert j v s.mer.readings,
      lastReadings := mset 0 j v s.mer.lastReadings } }

/-! Node states and ownership (R301, R307) -/

/-- The node becomes ACTIVE: it owns its slots from the TEPOCH in force; a ring of one node is synchronised at once (R332). -/
def goActive (s : State) : State :=
  let s1 := setNode .active { s with rng := { s.rng with ownEpoch := s.rng.tepoch } }
  loomEval (if ringNodes s.lom.act = 1 then setSynced true s1 else s1)

/-- R307 makes this node a standby: its own slots are taken over, or it is the standby of another node. -/
def isStandby (s : State) : Bool :=
  (s.rng.takenOver.any fun t => t.1 == s.rng.num) ||
    (ringOrder s.lom.act).any fun n => ringStandby s.lom.act n == s.rng.num

/-- The end of INTEGRATE (R301, R307). -/
def integrateDone (s : State) : State := if isStandby s then loomEval (setNode .standby s) else goActive s

/-- Another member has accepted this node's sync frame: its membership agrees with one that holds this node (R301). -/
def heardBack (s : State) : Bool :=
  s.rng.heard.any fun e => e.1 != s.rng.num && e.2 == memberCrc (s.rng.member ||| nodeBit s.rng.num)

/-- A Loom cycle of INTEGRATE ends (R301): two good ones in a row complete it. -/
def integrateCycle (s : State) : State :=
  if s.rng.node != .integrate then s
  else if ringNodes s.lom.act == 1 || (s.mer.lastInBound && !s.mer.strayed && heardBack s) then
    if 1 ≤ s.rng.goodCycles then integrateDone s
    else { s with rng := { s.rng with goodCycles := s.rng.goodCycles + 1 } }
  else { s with rng := { s.rng with goodCycles := 0 } }

/-- Clique loss (R308), judged as the Loom cycle ends: fewer than half of the accepted sync frames agree with this node's membership. -/
def cliqueCheck (s : State) : State :=
  let own := memberCrc s.rng.member
  let agree := (s.rng.heard.filter fun e => e.2 == own).length
  if (s.rng.node == .active || s.rng.node == .standby) && !s.rng.heard.isEmpty && decide (2 * agree < s.rng.heard.length) then
    enterListen (raise 186 s)
  else s

/-- A holder announces TAKEN: it holds the slots of every principal whose standby it is and that does not own them (R307). -/
def noteTaken (j : Nat) (p : SyncPl) (s : State) : State :=
  if bitsOf p.flags 3 3 = 0 then s
  else
    let ps := (ringOrder s.lom.act).filter fun n => ringStandby s.lom.act n == j && n != j &&
      (n != s.rng.num || epochAbove p.tepoch s.rng.ownEpoch) && mget 0 s.rng.states n != 3 &&
      !s.rng.takenOver.any fun t => t.1 == n
    let s1 := { s with rng := { s.rng with takenOver := s.rng.takenOver ++ ps.map fun n => (n, j, p.tepoch.toNat) } }
    if ps.contains s.rng.num && s.rng.node == .active then loomEval (setNode .standby s1) else s1

/-- Wraps announced by node `j`: a new one applies from the next Loom cycle, one taken back from the second (R310). -/
def noteWraps (j : Nat) (cy : Word) (p : SyncPl) (s : State) : State :=
  let e := bitsOf p.flags 0 0 == 1
  let w := bitsOf p.flags 1 1 == 1
  let back := (wrapEOf s.rng.wrapE j && !e) || (wrapWOf s.rng.wrapE j && !w)
  { s with rng := { s.rng with
    wrapE := mset false (2 * j) e (mset false (2 * j + 1) w s.rng.wrapE),
    unwrapAt := if back then some (cy + 2) else s.rng.unwrapAt } }

/-- Sync frames of two members, or of the only other one, have been accepted in this Loom cycle (R301). The only other member is known by a ring
of two nodes or by its MEMBER_CRC (DEDUCED, log entry 44). -/
def heardEnough (s : State) : Bool :=
  decide (2 ≤ s.rng.heard.length) || s.rng.heard.any fun e =>
    ringNodes s.lom.act == 2 || e.2 == memberCrc (nodeBit e.1) || e.2 == memberCrc (nodeBit e.1 ||| nodeBit (hdrNode s.lom.act))

/-- The node integrates with its active set, from Loom cycle `cy` of the ring on (R225, R301). -/
def integrate (cy : Word) (s : State) : State :=
  let n := if s.rng.num = 0 then hdrNode s.lom.act else s.rng.num
  if !hdrRing s.lom.act || n == 0 then s
  else setNode .integrate (setMembers (s.rng.member ||| nodeBit n)
    { s with rng := { s.rng with num := n }, lom := { s.lom with cycle := cy } })

/-- LISTEN to INTEGRATE (R249, R301): the sets exchange roles if the standby set carries the schedule ID on which the ring runs; if neither does, the
node stays in LISTEN, and SCHED_MISMATCH sets once in the Loom cycle (`before`: enough had been heard already; DESIGN CHOICE, log entry 44). -/
def listenCheck (cy : Word) (before : Bool) (p : SyncPl) (s : State) : State :=
  if s.rng.node != .listen || !heardEnough s then s
  else if hdrRing s.lom.act && p.sched == BitVec.ofNat 32 (hdrSched s.lom.act) then integrate cy s
  else if hdrRing s.lom.stby && s.lom.stby.check == .pass && p.sched == BitVec.ofNat 32 (hdrSched s.lom.stby) then
    integrate cy (exchangeSets s)
  else if hdrRing s.lom.act && !before then raiseD 141 p.sched (BitVec.ofNat 32 (hdrSched s.lom.act)) s
  else s

/-- Everything an accepted sync frame of node `j` says (R253, R305 to R310). -/
def noteSync (rp : RingPort) (j : Nat) (stamp : Nat) (f : Frame) (s : State) : State :=
  let p := syncPl f.payload
  let fresh := s.rng.node == .listen && s.lom.cycle != f.cycle && !s.lom.run
  let s0 := if fresh then { s with rng := { s.rng with heard := [] } } else s
  let s1 := setMembers (s0.rng.member ||| nodeBit j) { s0 with rng := { s0.rng with
    heard := s0.rng.heard.filter (fun e => e.1 != j) ++ [(j, p.memberCrc)], miss := mset 0 j 0 s0.rng.miss,
    states := mset 0 j p.state s0.rng.states,
    tepoch := if epochAbove p.tepoch s0.rng.tepoch then p.tepoch else s0.rng.tepoch,
    delays := mset 0 (2 * j) p.dlyW (mset 0 (2 * j + 1) p.dlyE s0.rng.delays) } }
  let s2 := if !s1.lom.run && (s1.rng.node == .listen || s1.rng.node == .integrate) then
      { s1 with lom := { s1.lom with cycle := f.cycle } } else s1
  let s3 := if p.annCycle = 0 ∧ p.annSched = 0 then s2
    else { s2 with lom := { s2.lom with announced := s2.lom.announced.filter (· != (p.annCycle, p.annSched)) ++
      [(p.annCycle, p.annSched)] } }
  listenCheck f.cycle (heardEnough s0) p (takeReading rp j stamp p (calibrate rp j stamp p (noteWraps j f.cycle p (noteTaken j p s3))))

/-- SYNC_FRAME_RECEIVE (R294, R305, R326): the guardian's rules, then what the frame says. The window is checked once the node
is synchronised. -/
def syncFrame (rp : RingPort) (inWindow : Bool) (stamp : Nat) (f : Frame) (s : State) : State :=
  let j := f.slot.toNat + 1
  if !rxOk s rp || f.typ != 2 then s
  else if unguarded s then
    let s1 := repeatFrame rp false f s
    if frameBad f then countBad rp s1 else withProto f.payload (noteSync rp j stamp f) s1
  else if s.mer.synced && !inWindow then edgeReject rp f.src.toNat (noteForeign rp f.utag s)
  else if !s.rng.result.isEmpty && resultTag s j != some f.utag then noteForeign rp f.utag s
  else
    let s1 := repeatFrame rp (decide (32 < f.payload.length)) f (clearReject rp f.src.toNat s)
    if 32 < f.payload.length then raise (rgEv rp 10) s1
    else if frameBad f then countBad rp s1
    else if j = s.rng.num then s1
    else withProto f.payload (noteSync rp j stamp f) s1

/-! Loom cycles on the ring (R224, R307, R310, R369) -/

/-- The node counts ring cycles: it has a number and follows a ring (R369). -/
def countsRing (s : State) : Bool :=
  hdrRing s.lom.act && s.rng.num != 0 && s.rng.node != .coldstart && ringOn s

/-- The ring's part of a new Loom cycle: the clique check, misses, wraps, delays, the end of INTEGRATE. -/
def ringCycle (s0 : State) : State :=
  if !countsRing s0 then s0
  else
    let s := cliqueCheck s0
    let m := (List.range 64).map (· + 1) |>.filter fun n => s.rng.member.getLsbD (n - 1) && n != s.rng.num
    let miss := m.foldl (fun a n =>
      if s.rng.heard.any (fun e => e.1 == n) then mset 0 n 0 a else mset 0 n (mget 0 a n + 1) a) s.rng.miss
    let due := s.rng.unwrapAt == some s.lom.cycle
    let now := if due || s.rng.unwrapAt.isNone then s.rng.wrapE
      else s.rng.wrapE.foldl (fun a e => mset false e.1 e.2 a) s.rng.wrapNow
    let n := s.rng.num
    let s1 := integrateCycle { s with rng := { s.rng with
      miss := miss, wrapNow := now, unwrapAt := if due then none else s.rng.unwrapAt,
      delays := mset 0 (2 * n) (published s (westPort s)) (mset 0 (2 * n + 1) (published s (eastPort s)) s.rng.delays) } }
    let s2 := { s1 with rng := { s1.rng with heard := [] }, mer := { s1.mer with strayed := false } }
    if due then
      modRp (westPort s) (fun p => { p with wrapped := wrapWOf s.rng.wrapE n })
        (modRp (eastPort s) (fun p => { p with wrapped := wrapEOf s.rng.wrapE n }) s2)
    else s2

/-- LOOM_CYCLE_START (R224, R254, R369): while the Loom is stopped the ring protocol keeps the count; a Loom that may run
again starts at a Loom cycle (Table 13.7). -/
def loomCycleOp (s : State) : State :=
  if s.lom.run then ringCycle (loomCycleBase s)
  else if countsRing s then
    let s1 := ringCycle { s with lom := { s.lom with cycle := s.lom.cycle + 1 } }
    if loomMay s1 && !s1.lom.run then
      newCycle s1.lom.cycle { s1 with lom := { s1.lom with run := true, lastEntry := none } }
    else s1
  else s

/-- MEMBER_LOSS (R307): no accepted sync frame for MISS_LIMIT Loom cycles. -/
def memberLoss (n : Nat) (s : State) : State :=
  if isMember s n && n != s.rng.num && decide (missLimit s ≤ mget 0 s.rng.miss n) then
    setMembers (s.rng.member &&& ~~~ nodeBit n)
      { s with rng := { s.rng with takenOver := s.rng.takenOver.filter fun t => t.2.1 != n } }
  else s

/-- The state of node `n` as this node knows it. -/
def stateOf (s : State) (n : Nat) : Nat := if n = s.rng.num then s.rng.node.code else mget 0 s.rng.states n

/-- TAKEOVER (R307): the standby of departed principal `n` takes its slots. -/
def takeoverOp (n : Nat) (s : State) : State :=
  let h := ringStandby s.lom.act n
  if n = 0 ∨ h = 0 ∨ isMember s n ∨ !isMember s h ∨ stateOf s h ≠ 4 ∨ (s.rng.takenOver.any fun t => t.1 == n) then s
  else
    let te := s.rng.tepoch + 1
    let s1 := { s with rng := { s.rng with
      tepoch := te, takenOver := s.rng.takenOver ++ [(n, h, te.toNat)], states := mset 0 h 3 s.rng.states,
      taken := s.rng.taken || h == s.rng.num } }
    raise 182 (if h = s.rng.num then loomEval (setNode .active s1) else s1)

/-- RELEASE (R307): the slots of principal `n` return at the second Loom cycle after the command. -/
def releaseOp (n : Nat) (s : State) : State :=
  match s.rng.takenOver.find? fun t => t.1 == n with
  | none => s
  | some t =>
    let due := t.2.1 != s.rng.num || s.rng.releaseAt.any fun r => r.1 == n && decide ((s.lom.cycle - r.2).toNat < 2 ^ 31)
    if !due then s
    else
      let rest := s.rng.takenOver.filter fun x => x.1 != n
      let s1 := { s with rng := { s.rng with
        tepoch := s.rng.tepoch + 1, takenOver := rest, releaseAt := s.rng.releaseAt.filter fun r => r.1 != n,
        taken := rest.any fun x => x.2.1 == s.rng.num } }
      let s2 := if n = s.rng.num ∧ s.rng.node = .standby then goActive s1 else s1
      raise 183 (if t.2.1 = s.rng.num ∧ s.rng.node = .active ∧ !s1.rng.taken then loomEval (setNode .standby s2) else s2)

/-! Links and wrap (R291, R309, R310, R327) -/

/-- The key under which this node announces the wrap of a port. -/
def wrapKey (s : State) (rp : RingPort) : Nat := 2 * s.rng.num + bnat (rp == westPort s)

/-- LINK_LOSS (R291, R309). -/
def linkLoss (rp : RingPort) (s : State) : State :=
  if s.rng.port[rp].lost then s
  else
    let s1 := modRp rp (fun p => { p with
      signal := false, codeSync := false, lost := true, wrapped := true, raw := none, rawSent := none }) s
    let s2 := { s1 with rng := { s1.rng with wrapE := mset false (wrapKey s rp) true s1.rng.wrapE } }
    raise (rgEv rp 4) (raise (rgEv rp 2) (incReg (rgPage rp) 0x050 1 s2))

/-- LINK_OK (R291, R327): signal and code sync return; the mean of the link delay restarts. -/
def linkOk (rp : RingPort) (s : State) : State :=
  if !rgEn s rp || !ringOn s || !s.rng.port[rp].lost then s
  else raise (rgEv rp 3) (modRp rp (fun p => { p with signal := true, codeSync := true, lost := false, hopResults := [] }) s)

/-- UNWRAP (R310): a restored link is announced; the ring unwraps at the second Loom cycle after. -/
def unwrapOp (rp : RingPort) (s : State) : State :=
  if !s.rng.port[rp].wrapped || s.rng.port[rp].lost || s.rng.port[rp].foreign then s
  else
    let s1 := { s with rng := { s.rng with
      wrapE := mset false (wrapKey s rp) false s.rng.wrapE, unwrapAt := some (s.lom.cycle + 2) } }
    raise (rgEv rp 5) (if countsRing s then s1 else modRp rp (fun p => { p with wrapped := false })
      { s1 with rng := { s1.rng with unwrapAt := none, wrapNow := s1.rng.wrapE } })

/-! Cold start (R301, R302) -/

/-- COLDSTART_ENTRY (R301): nothing heard for the node's time, cold start permitted. -/
def coldstartEntry (s : State) : State :=
  if s.rng.node == .listen && hdrRing s.lom.act && ringColdOk s.lom.act && getFld s .rng 0x004 0 0 == 1 && ringOn s then
    setNode .coldstart { s with rng := { s.rng with ownSeen := 0 } }
  else s

/-- COLDSTART_SEND (R302). -/
def coldstartSend (s : State) : State :=
  if s.rng.node != .coldstart then s
  else bothPorts.foldl (fun s rp => sendNc rp
    (ownFrame s 3 rp false false 0 (bytesLE 8 s.lcc.uid.toNat ++ bytesLE 4 (hdrSched s.lom.act) ++ bytesLE 4 0)) s) s

/-- This node's INAUG entry (R303): flags bit 0 is a port without signal. -/
def inaugEntry (s : State) : List Byte :=
  bytesLE 8 s.lcc.uid.toNat ++ [BitVec.ofNat 8 (hdrNode s.lom.act),
    BitVec.ofNat 8 (bnat (s.rng.port[(0 : RingPort)].lost || s.rng.port[(1 : RingPort)].lost))] ++
    bytesLE 4 (hdrSched s.lom.act) ++ bytesLE 2 (published s (westPort s))

/-- The entries of an INAUG payload. -/
def inaugList : Nat → List Byte → List (List Byte)
  | 0, _ => []
  | n + 1, bs => if bs.length < 16 then [] else bs.take 16 :: inaugList n (bs.drop 16)

/-- The UID, NODE, flags, SCHED_ID and delay of an entry. -/
def entUid (e : List Byte) : Nat := natLE (e.take 8)
def entNode (e : List Byte) : Nat := natLE ((e.drop 8).take 1)
def entEnd (e : List Byte) : Bool := bitsOf (natLE ((e.drop 9).take 1)) 0 0 == 1
def entSched (e : List Byte) : Nat := natLE ((e.drop 10).take 4)
def entDelay (e : List Byte) : Nat := natLE ((e.drop 14).take 2)

/-- The head sends an INAUG frame from its primary output (R303 step 1), or from the only port with a signal when it treats
the ring as wrapped (step 3, DEDUCED, log entry 20). -/
def sendInaug (s : State) : State :=
  let east := eastPort s
  let wrapped := decide (0 < s.rng.inaugTries)
  let rp := if wrapped && s.rng.port[east].lost then westPort s else east
  sendNc rp { ownFrame s 4 rp false false 0 (inaugEntry s) with wrapped := wrapped, sec := rp != east } s

/-- Inauguration starts at this node as head. -/
def startInaug (s : State) : State :=
  sendInaug (setRoles false { s with rng := { s.rng with head := true, inaugTries := 0, reversed := false } })

/-- A COLDSTART frame reaches a node in COLDSTART (R302): a lower UID wins over it, its own frame seen three times in a row wins. -/
def coldstartHeard (rp : RingPort) (f : Frame) (s : State) : State :=
  let uid := natLE (f.payload.take 8)
  let own := s.lcc.uid.toNat
  if uid < own then repeatFrame rp false f (setNode .listen { s with rng := { s.rng with ownSeen := 0, head := false } })
  else if own < uid then s
  else if s.rng.ownSeen + 1 = 3 ∧ !s.rng.head then startInaug (raise 189 { s with rng := { s.rng with ownSeen := 3 } })
  else { s with rng := { s.rng with ownSeen := min 3 (s.rng.ownSeen + 1) } }

/-- COLDSTART_FRAME_RECEIVE (R301, R302). A node in LISTEN that has been synchronised repeats the frame of a lower UID alone; nodes in other states
than LISTEN and COLDSTART drop it (DEDUCED, log entry 44). -/
def coldstartFrame (rp : RingPort) (f : Frame) (s : State) : State :=
  if !rxOk s rp || f.typ != 3 then s
  else if frameBad f then
    countBad rp (if unguarded s || s.rng.node == .coldstart then repeatFrame rp false f s else s)
  else if s.rng.node == .coldstart then withProto f.payload (coldstartHeard rp f) s
  else if unguarded s || (s.rng.node == .listen && decide (natLE (f.payload.take 8) < s.lcc.uid.toNat)) then repeatFrame rp false f s
  else s

/-! Inauguration (R303) -/

/-- Match collected NODE values against an order: a 0 takes the next number, missing members are passed over. The numbers,
or the position of the first mismatch. -/
def matchOrder : List Nat → List Nat → Nat → Sum (List Nat) Nat
  | [], _, _ => .inl []
  | _ :: _, [], pos => .inr pos
  | v :: vs, o :: os, pos =>
    if v = 0 ∨ v = o then (match matchOrder vs os (pos + 1) with | .inl l => .inl (o :: l) | .inr p => .inr p)
    else matchOrder (v :: vs) os pos

/-- Match against an order rotated to start at the head's position; a head without NODE tries every rotation. -/
def matchRot (vs order : List Nat) : Sum (List Nat) Nat :=
  match vs with
  | 0 :: _ =>
    match (order.map fun x => matchOrder vs (rotateTo x order) 0).find? fun r => r.isLeft with
    | some r => r
    | none => matchOrder vs order 0
  | v :: _ => matchOrder vs (rotateTo v order) 0
  | [] => .inr 0

/-- A NODE value is unknown or appears twice: its position. -/
def badNode (order : List Nat) : List Nat → Nat → List Nat → Option Nat
  | [], _, _ => none
  | v :: vs, pos, seen =>
    if v != 0 && (!order.contains v || seen.contains v) then some pos else badNode order vs (pos + 1) (v :: seen)

/-- TOPO_STAT. -/
def setTopo (result pos : Nat) (s : State) : State := setReg .rng 0x05C (BitVec.ofNat 32 (pos % 128 * 65536 + result)) s

/-- Delays as the RESULT gives them (R295): the link into the primary input of each node, which is also the link into the
other port of the node before it. -/
def resultDelays : List Member → List Member → SMap Nat
  | [], _ => []
  | m :: ms, all =>
    let prev := match (all.takeWhile (· != m)).getLast? with | some p => p.num | none => (all.getLast?.map (·.num)).getD 0
    mset 0 (2 * m.num) m.delay (mset 0 (2 * prev + 1) m.delay (resultDelays ms all))

/-- A RESULT with node numbers takes effect at this node (R303 step 7); a Loom that runs takes the ring's count, in which C0 lies two Loom cycles
ahead (R225). -/
def takeResult (ms : List Member) (num : Nat) (members : BitVec 64) (c0 : Word) (s : State) : State :=
  let w := s.rng.port[westPort s].lost
  let e := s.rng.port[eastPort s].lost
  let wraps := mset false (2 * num) e (mset false (2 * num + 1) w [])
  let s1 := modRp (westPort s) (fun p => { p with wrapped := w, foreign := false })
    (modRp (eastPort s) (fun p => { p with wrapped := e, foreign := false }) s)
  let s2 := setMembers members { s1 with
    rng := { s1.rng with
      num := num, result := ms, c0 := c0, wrapE := wraps, wrapNow := wraps, unwrapAt := none, takenOver := [], taken := false,
      releaseAt := [], miss := [], heard := [], states := [], head := false, delays := resultDelays ms ms },
    lom := { s1.lom with cycle := if s1.lom.run then c0 - 2 else c0 - 1 } }
  raise 179 (incReg .rng 0x064 1 (setTopo (if s.rng.reversed then 2 else 1) 0
    { s2 with rng := { s2.rng with seam := lowestMember members, reversed := false } }))

/-- The RESULT payload (DEDUCED, log entry 20): flags, C0, the Meridian time of its start, the membership, then per position UID, number,
delay and SCHED_ID. -/
def resultPayload (flags : Nat) (c0 : Word) (time : Nat) (members : BitVec 64) (ms : List (Member × Nat)) : List Byte :=
  bytesLE 4 flags ++ bytesLE 4 c0.toNat ++ bytesLE 8 time ++ bytesLE 8 members.toNat ++
    ms.flatMap fun m => bytesLE 8 m.1.uid.toNat ++ [BitVec.ofNat 8 m.1.num, 0] ++ bytesLE 2 m.1.delay ++ bytesLE 4 m.2

/-- Send a RESULT frame on both rings. -/
def sendResult (pl : List Byte) (s : State) : State :=
  bothPorts.foldl (fun s rp => sendNc rp (ownFrame s 5 rp false false 0 pl) s) s

/-- The head judges the collected entries (R303 steps 4 to 7). -/
def judgeInaug (es : List (List Byte)) (s : State) : State :=
  let vs := es.map entNode
  let order := ringOrder s.lom.act
  let fail (code pos : Nat) (s : State) : State :=
    enterListen (raise 180 (setTopo code pos { s with rng := { s.rng with head := false, reversed := false } }))
  match badNode order vs 0 [] with
  | some pos => fail 3 pos s
  | none =>
    match matchRot vs order with
    | .inl nums =>
      let members := nums.foldl (fun v n => v ||| nodeBit n) 0
      let ms := (es.zip nums).map fun e => (Member.mk (BitVec.ofNat 64 (entUid e.1)) e.2 (entDelay e.1))
      let c0 := s.lom.cycle + 2
      let t := timeN s + 2 * (ephPeriod s.lom.act * 2 ^ 32 / 100000000)
      let s1 := sendResult (resultPayload 0 c0 t members (ms.zip (es.map entSched))) s
      let was := s.rng.node
      let s2 := takeResult ms (nums.headD 0) members c0 s1
      if was == .coldstart then goActive s2 else if was == .listen then setNode .integrate s2 else s2
    | .inr pos =>
      if s.rng.reversed then fail 4 pos s
      else
        match matchRot vs order.reverse with
        | .inl _ =>
          sendInaug (setRoles (!s.rng.port[(0 : RingPort)].swapped)
            (sendResult (resultPayload 1 0 0 0 []) { s with rng := { s.rng with reversed := true } }))
        | .inr _ => fail 4 pos s

/-- Put an entry behind the first one that reports a port without signal, else at the end (DEDUCED, log entry 20). -/
def insertEntry (x : List Byte) : List (List Byte) → List (List Byte)
  | [] => [x]
  | e :: es => if entEnd e then e :: x :: es else e :: insertEntry x es

/-- The INAUG pass at a node that is not its head (R303 step 2). On a wrapped pass the frame turns round at a port without
signal. -/
def passInaug (rp : RingPort) (f : Frame) (s : State) : State :=
  let es := inaugList 64 f.payload
  let o := otherPort rp
  let turn := f.wrapped && s.rng.port[o].lost
  let out := if turn then rp else o
  let sec := if turn then !f.sec else f.sec
  if es.any fun e => entUid e == s.lcc.uid.toNat then sendNc out { f with sec := sec } s
  else
    let west := if f.sec then o else rp
    let s1 := setRoles (west == 0) (modRp rp (fun p => { p with foreign := false }) s)
    let es1 := if f.sec then insertEntry (inaugEntry s1) es else es ++ [inaugEntry s1]
    sendNc out { f with payload := es1.flatten, sec := sec } s1

/-- INAUG_FRAME_RECEIVE (R303): a frame outside COLDSTART brings the node to LISTEN; the head's own frame is judged once it
has come round. -/
def inaugFrame (rp : RingPort) (f : Frame) (s0 : State) : State :=
  if !rxOk s0 rp || f.typ != 4 then s0
  else if frameBad f then countBad rp s0
  else withProto f.payload (fun s =>
    let es := inaugList 64 f.payload
    let mine := (es.head?.map entUid) == some s.lcc.uid.toNat
    if s.rng.head then
      if !mine then s
      else if rp == westPort s || s.rng.port[westPort s].lost then judgeInaug es s
      else if f.wrapped then sendNc (westPort s) { f with sec := true } s
      else s
    else if s.rng.node == .coldstart then s
    else passInaug rp f (enterListen s)) s0

/-- INAUG_RETURN_TIMEOUT (R303 step 3). -/
def inaugTimeout (s : State) : State :=
  if s.rng.head then sendInaug { s with rng := { s.rng with inaugTries := s.rng.inaugTries + 1 } } else s

/-- The members of a RESULT payload with their SCHED_ID. -/
def resultMembers (bs : List Byte) : List (Member × Nat) :=
  (inaugList 64 (bs.drop 24)).map fun e =>
    (⟨BitVec.ofNat 64 (natLE (e.take 8)), natLE ((e.drop 8).take 1), natLE ((e.drop 10).take 2)⟩, natLE ((e.drop 12).take 4))

/-- What a RESULT frame of another node says (R303 steps 5 to 7, R325). -/
def noteResult (bs : List Byte) (s : State) : State :=
  if s.rng.node != .listen then s
  else if bitsOf (natLE (bs.take 4)) 0 0 = 1 then
    if s.rng.reversed then s
    else setRoles (!s.rng.port[(0 : RingPort)].swapped) { s with rng := { s.rng with reversed := true } }
  else
    let ms := resultMembers bs
    let c0 := BitVec.ofNat 32 (natLE ((bs.drop 4).take 4))
    if s.rng.result == ms.map (·.1) && s.rng.c0 == c0 then s
    else
      match ms.find? fun m => m.1.uid == s.lcc.uid with
      | none => s
      | some m =>
        let head := (ms.head?.map (·.2)).getD 0
        if m.2 ≠ head then
          setTopo 5 0 (raiseD 141 (BitVec.ofNat 32 head) (BitVec.ofNat 32 (hdrSched s.lom.act))
            { s with rng := { s.rng with result := ms.map (·.1), c0 := c0, reversed := false } })
        else
          let sec := natLE ((bs.drop 14).take 2)
          let s2 := takeResult (ms.map (·.1)) m.1.num (BitVec.ofNat 64 (natLE ((bs.drop 16).take 8))) c0 s
          setNode .integrate { s2 with mer := { s2.mer with time := BitVec.ofNat 96 (withBits s2.mer.time.toNat 95 80 sec) } }

/-- RESULT_FRAME_RECEIVE (R294, R303): the frame is repeated, and the ring protocol block takes it. -/
def resultFrame (rp : RingPort) (f : Frame) (s : State) : State :=
  if !rxOk s rp || f.typ != 5 then s
  else if f.utag == ownTag s then (if frameBad f then countBad rp s else s)
  else if frameBad f then countBad rp (repeatFrame rp false f s)
  else withProto f.payload (noteResult f.payload) (repeatFrame rp false f s)

/-! Ring commands (R307, R314, R317) -/

/-- A RING_CMD is refused. -/
def ringRefuse (s : State) : State := raise 187 s

/-- WITHDRAW (R301). -/
def canWithdraw (s : State) : Bool := s.rng.node == .active || s.rng.node == .standby

/-- INAUGURATE (R317): every node goes to LISTEN, this one leads. -/
def ringInaugurate (s : State) : State :=
  if hdrRing s.lom.act && activePresent s && ringOn s then
    startInaug (modRp 1 (fun p => { p with foreign := false }) (modRp 0 (fun p => { p with foreign := false }) (enterListen s)))
  else ringRefuse s

/-- WITHDRAW. -/
def ringWithdraw (s : State) : State := if canWithdraw s then enterListen s else ringRefuse s

/-- RELEASE at the holder: the slots return at the second Loom cycle after (R307). -/
def ringRelease (s : State) : State :=
  if s.rng.taken then
    let ps := (s.rng.takenOver.filter fun t => t.2.1 == s.rng.num).map (·.1)
    { s with rng := { s.rng with
      releaseAt := (s.rng.releaseAt.filter fun r => !ps.contains r.1) ++ ps.map fun p => (p, s.lom.cycle + 2) } }
  else ringRefuse s

/-- REMOTE_WITHDRAW and REMOTE_RELEASE: a command sub-block for node `dst` (R314). -/
def ringRemote (cmd dst : Nat) (s : State) : State :=
  if isMember s dst && dst != s.rng.num && s.rng.num != 0 then
    let h : SubHdr := { kind := 4, first := true, last := true, dst := dst, src := s.rng.num, status := 0, tag := s.rng.nextTag,
                        pat := cmd, off := 0, size := 1, dlen := 0 }
    { s with rng := { s.rng with carry := s.rng.carry ++ [subBytes h], nextTag := (s.rng.nextTag + 1) % 4096 } }
  else ringRefuse s

/-- RING_CMD takes effect: CMD in [3:0], DST in [14:8]. -/
def ringCmdWrite (v : Word) (s : State) : State :=
  let cmd := fieldOf v 3 0
  let dst := fieldOf v 14 8
  if cmd = 0 then s
  else if cmd = 1 then ringInaugurate s
  else if cmd = 2 then ringWithdraw s
  else if cmd = 3 then ringRelease s
  else if cmd = 4 ∨ cmd = 5 then ringRemote cmd dst s
  else ringRefuse s

/-- A command sub-block is executed with presence asserted, else refused, and answered (R314). -/
def execCommand (h : SubHdr) (s : State) : State :=
  let can := s.lcc.presence && ((h.pat == 4 && canWithdraw s) || (h.pat == 5 && s.rng.taken))
  let status := if can then 0 else 2
  let ans : SubHdr := { h with kind := 5, dst := h.src, src := s.rng.num, status := status, dlen := 0 }
  let s1 := raiseD 188 (BitVec.ofNat 32 (h.pat % 16 + h.src * 256 + 65536 + status * 2 ^ 24)) 0
    { s with rng := { s.rng with carry := s.rng.carry ++ [subBytes ans] } }
  if !can then s1 else if h.pat = 4 then ringWithdraw s1 else ringRelease s1

/-- REM_CMD (R314): a command sub-block for this node is taken by the ring protocol block. -/
def remCmdOp (h : SubHdr) (s : State) : State :=
  if h.kind ≠ 4 ∨ h.dst ≠ s.rng.num ∨ h.dst = 0 ∨ s.pwr.st ≠ .run then s
  else withProto (subBytes h) (execCommand h) s

end Sys2Proof.Machine
end

