-- ==== Sys2Proof/Machine/Meridian.lean ====
section
/-!
DEFINITION. Meridian, the time base (chapter 11): the fault-tolerant average at the end of a sync segment, step, slew and rate
correction, synchronisation, and setting the epoch.
-/

namespace Sys2Proof.Machine

open Sys2Proof

/-! Device time -/

/-- How far device time moves in one cycle of the always-on clock, 40 ns. It stands at 0 until the reset sequence ends (R321). Five addends of the MER
clock, 8 ns each, in units of 2^-64 s, trimmed by RATE in units of 2^-40 of the nominal rate (R321, DEDUCED, log entry 14): the integer
nearest to 8 ns is 147,573,952,590. -/
def tickStep (s : State) : Int :=
  if s.pwr.seqRun then 0
  else if s.pwr.st == .hold && !s.pwr.fromRun then 737869762948 else 737869762950 + 737869762950 * s.mer.rate / 2 ^ 40

/-- What a slew applies at most in 40 ns: 100 ppm of them (R330). -/
def slewRate : Int := 73786976

/-- Device time moves by `d` units of 2^-64 s. -/
def moveTime (d : Int) (s : State) : State :=
  { s with mer := { s.mer with time := s.mer.time + BitVec.ofInt 96 d } }

/-- A step or EPOCH_CMD while a point of the segment is open discards every reading of it (Table 11.3). -/
def spoil (s : State) : State :=
  if s.mer.points.isEmpty && s.mer.readings.isEmpty then s
  else { s with mer := { s.mer with spoiled := true, readings := [] } }

/-- EPOCH_CMD takes effect with GO at 1 (R323): device time becomes EPOCH_SET unless the node is synchronised. -/
def epochOp (v : Word) (s : State) : State :=
  if !bitAt v 0 then s
  else if s.mer.synced then raise 204 s
  else
    let t := (getReg s .mer 0x054).toNat + (getReg s .mer 0x058).toNat * 2 ^ 32
    let s1 := raise 201 s
    spoil { s1 with mer := { s1.mer with time := BitVec.ofNat 96 (t * 2 ^ 32) } }

/-! The average (R329) -/

/-- Put a reading in its place of an ascending list. -/
def insReading (e : Nat × Int) : List (Nat × Int) → List (Nat × Int)
  | [] => [e]
  | x :: xs => if e.2 ≤ x.2 then e :: x :: xs else x :: insReading e xs

/-- The sync set S in ascending order: the node's own 0 and the readings of members over at most 32 links. -/
def syncSet (s : State) : List (Nat × Int) :=
  let far (j : Nat) : Bool :=
    let onP := linksFrom s false j s.rng.num
    let onS := linksFrom s true j s.rng.num
    decide (32 < (if ringWrapped s then onP else if s.rng.num = s.rng.seam then min onP onS
      else if (offsOf s false j).links < (offsOf s false s.rng.num).links then onP else onS))
  ((s.mer.readings.filter fun e => isMember s e.1 && !far e.1).foldl (fun l e => insReading e l) [(0, 0)])

/-- How many readings are dropped at each end. -/
def trimOf (n : Nat) : Nat := if 4 ≤ n then 1 else 0

/-- The readings kept. -/
def keptOf (l : List (Nat × Int)) : List (Nat × Int) :=
  (l.drop (trimOf l.length)).take (l.length - 2 * trimOf l.length)

/-- m: the mean of the readings kept, in 2^-32 s. -/
def meanOf (l : List (Nat × Int)) : Int :=
  divOpen ((keptOf l).foldl (fun a e => a + e.2) 0) (keptOf l).length

/-- |m| lies within PREC/2 of the active RING section. -/
def inBound (s : State) (m : Int) : Bool := decide (m.natAbs * 2000000000 ≤ ringPrec s.lom.act * 2 ^ 32)

/-- The clamp of ±20 ppm in units of 2^-40 (R331). -/
def rateClamp : Int := 21990232

/-- R331: RATE changes by −m/4 ppm for m in ns and an interval of 1 ms, in proportion to the interval, within ±20 ppm. -/
def adjustRate (m : Int) (ms : Nat) (s : State) : State :=
  let change := -64000 * m * ms
  let r := s.mer.rate + change
  let s1 := { s with mer := { s.mer with
    rate := max (-rateClamp) (min rateClamp r), rateHist := (decide (change.natAbs < 137439) :: s.mer.rateHist).take 16 } }
  raiseIf (decide (rateClamp ≤ r) || decide (r ≤ -rateClamp)) 197 s1

/-- RATE_OK (R331). -/
def rateOk (s : State) : Bool := s.mer.rateHist.length == 16 && s.mer.rateHist.all id

/-- Device time is corrected by −m: stepped while unsynchronised and |m| is above 1 µs, else slewed (R329, R330). -/
def correct (m : Int) (s : State) : State :=
  if !s.mer.synced && decide (4295 ≤ m.natAbs) then
    moveTime (-m * 2 ^ 32) (raise 196 s)
  else { s with mer := { s.mer with slewing := true, slew := -m * 2 ^ 32 } }

/-- The measurement points of the segment close; the raw differences become those of the segment before (R326, R327). -/
def closeSegment (s : State) : State :=
  let shift (p : RingPortS) : RingPortS := { p with rawSent := p.raw, raw := none }
  let due := s.lom.dispatched.filter fun i =>
    (ephAt s.lom.act i).kind == 3 && (ephAt s.lom.act i).f 70 70 == 0 && !s.lom.completed.contains i
  let s1 := { s with
    mer := { s.mer with points := [], readings := [], spoiled := false },
    lom := { s.lom with completed := s.lom.completed ++ due } }
  modRp 1 shift (modRp 0 shift s1)

/-- Synchronisation and withdrawal by the node's own deviation (R306, R332). -/
def judgeDeviation (m : Int) (s : State) : State :=
  let ok := inBound s m
  let node := s.rng.node
  let s1 := { s with mer := { s.mer with lastInBound := ok, strayed := s.mer.strayed || !ok } }
  let s2 :=
    if ok && s.mer.lastInBound && (node == .integrate || node == .active || node == .standby) then setSynced true s1 else s1
  if ok then loomEval s2
  else
    let s3 := raise 198 s2
    if node == .active || node == .standby then enterListen (raise 190 s3) else s3

/-- RESYNC (R329 to R332, R306): the end of a sync segment. A slew that still runs is abandoned; alone in its sync set a node has m = 0. -/
def resyncOp (ms : Nat) (s : State) : State :=
  if s.rng.num = 0 ∨ !ringOn s then closeSegment s
  else
    let l := syncSet s
    let n := l.length
    let single := ringNodes s.lom.act == 1
    let m := meanOf l
    let own (e : Nat × Int) : Nat := if e.1 = 0 then s.rng.num else e.1
    let s1 := { s with mer := { s.mer with
      slewing := false, slew := 0, lastInBound := s.mer.lastInBound || decide (n < 2), n := n, trimmed := decide (4 ≤ n), holdover := decide (n < 2), inSet := l.map own,
      trimmedNodes := (l.filter fun e => !(keptOf l).contains e).map own } }
    let s2 := raiseIf (decide (n ≤ 3) && !single) 199 s1
    let s3 :=
      if n < 2 ∨ single then s2
      else
        judgeDeviation m (adjustRate m ms (correct m { s2 with mer := { s2.mer with
          offset := m, resyncs := s2.mer.resyncs + 1, devMax := max s2.mer.devMax (min m.natAbs 0xFFFFFFFF) } }))
    closeSegment s3

/-- The cycles of 40 ns in which what is left of a slew is applied, with the one in which it ends (R330). -/
def slewTicks (rest : Int) : Nat := rest.natAbs / slewRate.natAbs + 1

/-- SLEW_DONE (R330): the slew has ended within 0.5 ns of its target; where in that range is a free value. What was left of it took its time at
100 ppm, so that device time has not run backwards (DEDUCED, log entry 46). -/
def slewDone (s : State) : State :=
  if !s.mer.slewing then s
  else
    let err : Int := ((freeVal s).toNat % 18446744073 : Nat) - (9223372036 : Int)
    let k := slewTicks s.mer.slew
    tookFree (moveTime (k * tickStep s + s.mer.slew + err)
      { s with mer := { s.mer with slewing := false, slew := 0 }, pwr := { s.pwr with ticks := s.pwr.ticks + k } })

end Sys2Proof.Machine
end

