-- ==== Sys2Proof/Machine/Ports.lean ====
section
/-!
DEFINITION. The channel ports (chapter 4): configuration space, port resets, links, power management, the image push, and the
answers to requests that reach no BAR.
-/

namespace Sys2Proof.Machine

open Sys2Proof

/-! MSI-X after masking (R110) -/

/-- Send the messages whose pending bits stand once the port and the vector permit it (R110). -/
def msixFlush (p : Port) (s : State) : State :=
  (s.msix[p].pba.map (·.1)).foldl (fun s v =>
    if msixMay s p v then msixSend p v (modMsix p (fun m => { m with pba := mset false v false m.pba }) s) else s) s

/-! CORE in HOLD and LISTEN (R120, R370) -/

/-- A BAR0 or BAR2 request of a port wakes CORE. -/
def portWake (p : Port) (s : State) : State := wakeCore 1 p.val s

/-! Configuration space (R92, R93) -/

/-- The lane margining control and status registers (Table 4.3). -/
def margins (dw : Nat) : Bool := decide (0x6C ≤ dw) && decide (dw ≤ 0x6F)

/-- A configuration DWORD as a port presents it. Transactions Pending is 0, because a port issues no request. What a lane's receiver
answers to a margining command is free (DESIGN CHOICE, log entries 7 and 12). -/
def cfgRead (s : State) (p : Port) (dw : Nat) : Word :=
  let w := cfgGet s p dw
  if dw = 0x0B then BitVec.ofNat 32 (s.lcc.ssid.toNat * 65536 + s.lcc.ssvid.toNat)
  else if dw = 0x53 then BitVec.ofNat 32 s.lcc.uid.toNat
  else if dw = 0x54 then BitVec.ofNat 32 (s.lcc.uid.toNat / 2 ^ 32)
  else if dw = 0x1C then
    BitVec.ofNat 32 (withBits (withBits w.toNat 19 16 s.port[p].speed) 25 20 s.port[p].width)
  else if margins dw ∧ fieldOf w 5 3 ≠ 7 then setFieldOf w 31 16 ((freeVal s).toNat % 2 ^ 16)
  else w

/-- Writable bits of a DWORD of the configuration header and of the Power Management and MSI-X capabilities. -/
def headMask (dw : Nat) : Nat :=
  match dw with
  | 0x01 => 0x00000547
  | 0x03 => 0x000000FF
  | 0x04 => 0xFFF00000
  | 0x06 => 0xFE000000
  | 0x07 => 0xFFFFFFFF
  | 0x08 => 0xF0000000
  | 0x0F => 0x000000FF
  | 0x11 => 0x00000003
  | 0x14 => 0xC0000000
  | _ => 0

/-- Writable bits of a configuration DWORD, and the bits that a one clears; the layout is that of the PCI Express Base
Specification 4.0 (PRESUMED, log entry 7). -/
def cfgMasks (dw : Nat) : Nat × Nat :=
  if dw < 0x18 then (headMask dw, if dw = 0x01 then 0xF9000000 else 0)
  else if margins dw then (0x0000FF7F, 0)
  else if dw = 0x1A then (0x000079FF, 0x000F0000)
  else if dw = 0x1C then (0x000000C3, 0)
  else if dw = 0x24 then (0x0000000F, 0)
  else if dw = 0x41 then (0, 0x007FF030)
  else if dw = 0x42 ∨ dw = 0x43 then (0x007FF030, 0)
  else if dw = 0x44 then (0, 0x0000F1C1)
  else if dw = 0x45 then (0x0000F1C1, 0)
  else if dw = 0x46 then (0x00000140, 0)
  else (0, 0)

/-- The 32-bit mask of four byte enables. -/
def beMask (be : BitVec 4) : Word :=
  (if be.getLsbD 0 then 0xFF#32 else 0) ||| (if be.getLsbD 1 then 0xFF00#32 else 0) |||
    (if be.getLsbD 2 then 0xFF0000#32 else 0) ||| (if be.getLsbD 3 then 0xFF000000#32 else 0)

/-- A configuration write. D0 and D3hot are the only power states; a write of another is without effect. -/
def cfgWrite (p : Port) (dw : Nat) (be : BitVec 4) (d : Word) (s : State) : State :=
  let w := cfgGet s p dw
  let m := cfgMasks dw
  let en := beMask be
  let rw := BitVec.ofNat 32 m.1 &&& en
  let w1 := (w &&& ~~~ rw) ||| (d &&& rw)
  let w2 := w1 &&& ~~~ (BitVec.ofNat 32 m.2 &&& en &&& d)
  if dw = 0x11 ∧ (fieldOf w2 1 0 = 1 ∨ fieldOf w2 1 0 = 2) then s else cfgSet p dw w2 s

/-! Log records that the ports still have to accept (R348, R352) -/

/-- The EVLOG packets at the head of the queue whose records are all stored. -/
def logDone (s : State) : Nat := ((listPkts s 26).takeWhile fun p => p.eop && decide (p.data.length ≤ p.sent)).length

/-- EVLOG cells are released once their records are stored and no port still waits for one of them (R348). -/
def logRelease (s : State) : State :=
  if allPorts.any fun p => s.tx[p].waiting.any fun e => e.1 == 1 then s
  else (List.range (logDone s)).foldl (fun s _ => popPkt 26 s) s

/-! Port resets (R115 to R117, Table 4.9) -/

/-- The AER registers with sticky bits (R114). -/
def stickyCfg (dw : Nat) : Bool := decide (0x41 ≤ dw) && decide (dw ≤ 0x4A)

/-- A port reset (R115, R116): the configuration space and MSI-X first, so that no message leaves by the old table; then the
port's local state, its requester's held writes and the fence of its channel. `flag` is the
ERR_STAT bit, `fundamental` clears the sticky bits, `retrain` takes the link down. Pushes that wait are dropped with neither
PUSH_SKIP nor PUSH_ABANDON (DESIGN CHOICE, log entry 54: R108 speaks of a push that runs). -/
def portReset (p : Port) (flag : Nat) (fundamental retrain : Bool) (s : State) : State :=
  let wasUp := s.port[p].dlUp
  let s0 := modMsix p (fun _ => msixInit) (modPort p (fun q => { q with
    cfg := if fundamental then [] else q.cfg.filter fun e => stickyCfg e.1 }) (abandonPush p s))
  let s1 := fence p true s0
  let s2 := abortStream p.val (modPort p (fun q => { q with
    np := [], rx := [], bar := [], flush := [], push := none, pushWaiting := [], pseq := 0, crs := true, l1 := false, l23 := false,
    dlUp := q.dlUp && !retrain, speed := if retrain then 0 else q.speed, width := if retrain then 0 else q.width }) s1)
  let s3 := { s2 with
    tx := s2.tx.set p (if retrain then txInit else { s2.tx[p] with waiting := [] }),
    bus := { s2.bus with
      voted := s2.bus.voted.set p [],
      req := s2.bus.req.set (portReq p) { s2.bus.req[portReq p] with guards := [], indAddr := [] } } }
  let s4 := modCh p (fun c => { c with k := 0 })
    (setReg (.cp p) 0x05C 0 (setReg (.cp p) 0x058 (regDefault (regAddr (.cp p) 0x058))
      (setReg (.cp p) 0x054 0 (setReg (.cp p) 0x050 0 s3))))
  pump (logRelease (raiseIf (retrain && wasUp) (cpEv p 5) (portFlag p flag s4)))

/-- PERST: the fundamental reset of a port. -/
def perstOp (p : Port) (s : State) : State :=
  portReset p 14 true true (modPort p (fun q => { q with perst := true }) s)

/-- HOT_RESET. -/
def hotResetOp (p : Port) (s : State) : State :=
  modPort p (fun q => { q with hotReset := true }) (portReset p 13 false true s)

/-- DL_DOWN. -/
def dlDownOp (p : Port) (s : State) : State := portReset p 11 false true s

/-- FLR. -/
def flrOp (p : Port) (s : State) : State := portReset p 12 false false s

/-- PERST_RELEASE: after a fundamental reset the port is ready once the channel ports are open (R117). -/
def perstReleaseOp (p : Port) (s : State) : State :=
  modPort p (fun q => { q with perst := false, crs := q.crs && s.pwr.boot != .opened }) s

/-- PORT_READY (R117): the port answers configuration requests again. -/
def portReadyOp (p : Port) (s : State) : State :=
  if s.port[p].perst || s.pwr.boot != .opened then s
  else modPort p (fun q => { q with crs := false, hotReset := false }) s

/-! Links -/

/-- Admission of a channel whose link comes up (R123, R124, Table 5.2). -/
def admitCh (p : Port) (s : State) : State :=
  if s.ch[p].st == .absent && s.vot.admitOn && s.pwr.boot == .opened then
    let st : ChState := if p == s.pwr.spare || decide (3 ≤ (activeChs s).length) then .ready else .active
    settleChannels (setChState p st (modCh p (fun c => { c with aligned := true, k := 0 }) s))
  else s

/-- DL_UP: the data-link layer comes up; the port advertises its credits (R96) and takes the partner's. -/
def dlUpOp (p : Port) (speed width : Nat) (credits : Option (Nat × Nat)) (s : State) : State :=
  if s.port[p].dlUp || s.port[p].perst || s.pwr.boot == .inReset then s
  else
    let s1 := { modPort p (fun q => { q with dlUp := true, speed := speed, width := width, l1 := false, l23 := false }) s with
      tx := s.tx.set p ⟨credits, []⟩ }
    pump (admitCh p (raise (cpEv p 5) (emit (.initFc p 256 2048 128 128) s1)))

/-- LINK_SPEED_WIDTH_CHANGE. -/
def linkChange (p : Port) (speed width : Nat) (s : State) : State :=
  if !s.port[p].dlUp then s
  else raise (cpEv p 5) (modPort p (fun q => { q with speed := speed, width := width }) s)

/-- POSTED_CREDIT_RETURN (R98): credits of the partner let waiting TLPs leave. -/
def creditReturn (p : Port) (ph pd : Nat) (s : State) : State :=
  let s1 := { s with tx := s.tx.set p { s.tx[p] with credits := s.tx[p].credits.map fun c => (c.1 + ph, c.2 + pd) } }
  logRelease (drainTx p s1.tx[p].waiting.length s1)

/-- L1_ENTRY (R119): 8 µs have passed with no TLP to send and none received. -/
def l1EntryOp (p : Port) (s : State) : State :=
  if aspmL1 s p && s.port[p].dlUp && s.tx[p].waiting.isEmpty && s.port[p].push.isNone && s.port[p].rx.isEmpty &&
      s.port[p].bar.isEmpty then modPort p (fun q => { q with l1 := true }) s else s

/-- L1_EXIT (R119). -/
def l1ExitOp (p : Port) (s : State) : State := modPort p (fun q => { q with l1 := false }) s

/-- PME_TURN_OFF (R118): answered with PME_TO_Ack; the link goes to L2/L3 Ready. -/
def pmeTurnOffOp (p : Port) (s : State) : State :=
  if !s.port[p].dlUp then s else emit (.msg p "PME_TO_Ack") (modPort p (fun q => { q with l23 := true }) s)

/-! Errors of Table 4.8 -/

/-- LINK_LAYER_ERROR. -/
def linkLayerError (p : Port) (k : LinkErr) (s : State) : State :=
  aerCorr p (match k with
    | .receiverError => 0 | .badTlp => 6 | .badDllp => 7 | .replayTimeout => 12 | .replayRollover => 8) s

/-- MALFORMED_TLP: the TLP is discarded and reported. An ECRC that fails counts only while it is checked. -/
def malformedOp (p : Port) (k : FatalErr) (s : State) : State :=
  if k = .ecrc ∧ ecrcCheck s p = false then s else
  aerUncorr p (match k with | .malformed => 18 | .receiverOverflow => 17 | .flowControl => 13 | .dataLink => 4 | .ecrc => 19) false noHdr s

/-- UNEXPECTED_COMPLETION. -/
def unexpectedCpl (p : Port) (s : State) : State := aerUncorr p 16 true noHdr s

/-- A non-posted request that a port cannot serve: Unsupported Request and UR_RX. -/
def urRead (p : Port) (tag : Nat) (s : State) : State := portFlag p 5 (completeUr p tag s)

/-- A posted request that a port cannot serve is discarded: Unsupported Request and UR_RX. -/
def urWrite (p : Port) (h : Hdr) (s : State) : State := portFlag p 5 (aerUncorr p 20 false h s)

/-- UNSUPPORTED_REQUEST (R91, R94). -/
def unsupportedOp (p : Port) (k : UrKind) (tag : Nat) (s : State) : State :=
  match k with
  | .unsupportedNonPosted => urRead p tag s
  | .noBarNonPosted => urRead p tag s
  | .disabledNonPosted => urRead p tag s
  | .unsupportedPosted => urWrite p noHdr s
  | .noBarPosted => urWrite p noHdr s
  | .disabledPosted => urWrite p noHdr s
  | .vendorMessage0 => urWrite p noHdr s
  | .vendorMessage1 => s

/-- A configuration request is answered (R92, R93, R117, R120): with Retry Status until the port is ready; a write that sets Initiate
Function Level Reset resets the port after its completion. -/
def configTake (p : Port) (dw : Nat) (write : Bool) (be : BitVec 4) (d : Word) (tag : Nat) (s : State) : State :=
  let answer (status bc : Nat) (bs : List Byte) (s : State) : State :=
    dropTag p tag (sendOut p [.cpl p tag status false bc 0 bs] s)
  if s.port[p].crs then answer 2 0 [] s
  else if !write then
    answer 0 4 (bytesLE 4 (cfgRead s p dw).toNat) (if margins dw then tookFree s else s)
  else
    let flr := dw == 0x1A && bitAt d 15 && be.getLsbD 1
    let s1 := answer 0 4 [] (cfgWrite p dw be d s)
    if flr then flrOp p s1 else msixFlush p s1

/-! Push (R105 to R108) -/

/-- The conditions of R105. -/
def pushOk (s : State) (p : Port) : Bool :=
  s.ch[p].st.inService && getFld s (.cp p) 0x058 31 31 == 1 && bme s p && !d3hot s p && s.port[p].dlUp

/-- PUSH_CTRL.LIMIT in effect: 0 acts as 1 and values above 0x180 as 0x180. A register read returns the value written (DESIGN
CHOICE, log entry 54: Table 4.15 does not say whether "read as" holds for software too). -/
def pushLimit (s : State) (p : Port) : Nat := min 0x180 (max 1 (getFld s (.cp p) 0x058 8 0))

/-- PUSH_BASE. -/
def pushBase (s : State) (p : Port) : Nat :=
  (getReg s (.cp p) 0x050).toNat / 4096 * 4096 + (getReg s (.cp p) 0x054).toNat * 2 ^ 32

/-- Join records whose bytes are adjacent into runs (R107). -/
def joinRuns : List (Nat × List Byte) → List (Nat × List Byte)
  | [] => []
  | (o, b) :: rs =>
    match joinRuns rs with
    | (o2, b2) :: rest => if o + b.length = o2 then (o, b ++ b2) :: rest else (o, b) :: (o2, b2) :: rest
    | [] => [(o, b)]

/-- Cut a run into memory writes that end at multiples of MPS (R107); the fuel is its length. -/
def cutRun (m : Nat) : Nat → Nat → List Byte → List PTlp
  | 0, _, _ => []
  | n + 1, a, bs =>
    if bs.isEmpty then []
    else
      let k := m - a % m
      ⟨a, bs.take k⟩ :: cutRun m n (a + k) (bs.drop k)

/-- The bytes of a frozen record as a push sends them: an uncorrectable word is sent as 0xFF, and ERROR sets in the header (R272). -/
def pushBytes (s : State) (r : Nat × Nat × List Byte) : List Byte :=
  if !imgBad s r.2.1 r.2.2.length then r.2.2
  else
    let bs := (List.range ((r.2.2.length + 7) / 8)).flatMap fun i =>
      let w := (r.2.2.drop (8 * i)).take 8
      if eccOf s 0 (r.2.1 / 8 + i) = some true then w.map fun _ => 0xFF#8 else w
    bs.set 2 (bs.getD 2 0 ||| 0x80#8)

/-- PUSH_START (R105 to R107): the record bytes of the push that waits are sent. -/
def pushStartOp (p : Port) (s : State) : State :=
  match s.port[p].pushWaiting, s.port[p].push with
  | ask :: rest, none =>
    let s1 := modPort p (fun q => { q with pushWaiting := rest }) s
    if !pushOk s p then raise (cpEv p 3) (portFlag p 10 s1)
    else
      let limit := pushLimit s p
      let base := pushBase s p
      let kept := ask.recs.filter fun r => decide (r.1 + r.2.2.length ≤ limit * 4096)
      let sent := kept.map fun r => (r.1, pushBytes s r)
      let trunc := decide (sent.length < ask.recs.length)
      let bs := sent.flatMap (·.2)
      let run : Push :=
        { n := ask.n, bytes := bs.length, records := sent.length, crc := crc32c bs, truncated := trunc, epoch := s.ch[p].epoch,
          st := s.ch[p].st, ftime := ask.ftime, base := base, limit := limit }
      let s2 := kept.foldl (fun s r => imgMeet r.2.1 r.2.2.length s) (modPort p (fun q => { q with push := some run }) s1)
      let s3 := if trunc then raise (cpEv p 3) (portFlag p 8 s2) else s2
      ((joinRuns sent).flatMap fun r => cutRun (mps s p) r.2.length (base + r.1) r.2).foldl (fun s t => sendTlp p 0 t s) s3
  | _, _ => s

/-- The trailer of Table 4.6. -/
def trailerBytes (u : Push) (pseq : Word) : List Byte :=
  let b := bytesLE 4 u.n.toNat ++ bytesLE 4 pseq.toNat ++ bytesLE 8 u.ftime ++ bytesLE 4 u.bytes ++ bytesLE 4 u.records ++
    bytesLE 2 u.epoch.toNat ++ [BitVec.ofNat 8 u.st.code, BitVec.ofNat 8 (bnat u.truncated)] ++ bytesLE 4 u.crc.toNat
  b ++ List.replicate (64 - b.length) 0

/-- PUSH_DONE (R106): every record write has left; the trailer is sent. -/
def pushDoneOp (p : Port) (s : State) : State :=
  match s.port[p].push with
  | some u =>
    if s.tx[p].waiting.any fun e => e.1 == 0 then s
    else
      let t : PTlp := ⟨u.base + u.limit * 4096, trailerBytes u (s.port[p].pseq + 1)⟩
      if !creditsFor s.tx[p].credits t then s
      else
        raise (cpEv p 2) (setReg (.cp p) 0x05C u.n
          (modPort p (fun q => { q with push := none, pseq := q.pseq + 1 }) (sendTlp p 0 t s)))
  | none => s

/-! REJOIN (R152) -/

/-- CPn.REJOIN.GO takes effect, written by channel n itself or by the maintenance port. -/
def rejoinOp (p : Port) (s : State) : State :=
  if (s.ch[p].st == .absent || s.ch[p].st == .fenced) && s.port[p].dlUp && !d3hot s p && bme s p then
    let s1 := modCh p (fun c => { c with
      epoch := c.epoch + 1, aligned := false, matchCnt := 0, divergent := false, charges := [], caStamp := none, opsSince := 0, copyOf := none,
      cmpOf := none }) s
    settleChannels (raise 56 (setChState p .observer s1))
  else raise 62 s

end Sys2Proof.Machine
end

