-- ==== Sys2Proof/Machine/Power.lean ====
section
/-!
DEFINITION. Clocks, power states, resets and supply supervision (chapter 13): the device reset and the sequence of Table 13.10,
the transitions of Table 13.7, the waking and gating of CORE, brownout hold and recovery, clock faults.
-/

namespace Sys2Proof.Machine

open Sys2Proof

/-! Status words -/

/-- VMON (Table 13.20): each condition as it stands. -/
def vmonWord (s : State) : Word :=
  BitVec.ofNat 32 (8 * bnat s.pwr.vddshOk + 4 * bnat s.pwr.vddsaOk + 2 * bnat s.pwr.vddioLow + bnat s.pwr.pfwLow)

/-- Whether the restart after a reset is cold (R376): RESTART_SEL.KIND, else the strap COLD. -/
def restartIsCold (s : State) : Bool :=
  let k := getFld s .pwr 0x050 1 0
  if k = 1 then false else if k = 2 then true else bitsOf s.pwr.straps 2 2 == 1

/-! Device resets (R371, R372) -/

/-- The state of a device that has been put into reset: every register at its reset value. The commands that wait, what has
left the device, the Almanac, the fuses and the pins are no registers. LAST_RESET, BROWNOUT_CNT and RESTART_SEL are cleared
by a power-on reset alone (R372); the seal loop is checked in reset too and keeps its arming (R392). -/
def resetState (cause : Nat) (s : State) : State :=
  let r := State.reset
  let keep (k : PageKind) (off : Nat) (t : State) : State := if cause = 0 then t else setReg k off (getReg s k off) t
  let fuseOpen := match s.lcc.trans with | some t => t.fuse | none => false
  let blown := bitAt (freeVal s) 0
  let target := match s.lcc.trans with | some t => t.target | none => .blank
  let s1 : State := { r with
    pending := s.pending, out := s.out,
    freeCount := if fuseOpen then s.freeCount + 1 else s.freeCount,
    alm := { r.alm with mem := s.alm.mem, ecc := s.alm.ecc },
    port := Vector.ofFn fun i => { portInit with perst := s.port[i].perst },
    seg := Vector.ofFn fun i => { segInit with
      sysresetLow := s.seg[i].sysresetLow, gaPins := s.seg[i].gaPins, irqIn := s.seg[i].irqIn },
    tap := { r.tap with tlr := s.tap.tlr, ir := s.tap.ir, taken := s.tap.taken, boundary := s.tap.boundary },
    lcc := { r.lcc with
      presPin := s.lcc.presPin, uid := s.lcc.uid, uidLock := s.lcc.uidLock,
      commissioned := s.lcc.commissioned || (fuseOpen && target == .commissioning && blown),
      retired := s.lcc.retired || (fuseOpen && target == .retired && blown),
      armed := s.lcc.armed && cause != 0, broken := s.lcc.broken && cause != 0,
      sealDue := s.lcc.sealDue && cause != 0, lfsr := (s.lcc.uid.setWidth 16) ||| 1#16 },
    pwr := { r.pwr with
      boot := .inReset, lastReset := cause,
      causes := if cause = 5 ∨ cause = 6 then [] else cause :: (if s.pwr.boot = .inReset then s.pwr.causes.filter (· != cause) else []), aonOk := s.pwr.aonOk,
      sysLock := false, pfwLow := s.pwr.pfwLow, vddioLow := s.pwr.vddioLow, vddsaOk := s.pwr.vddsaOk,
      vddshOk := s.pwr.vddshOk } }
  keep .pwr 0x050 (keep .sup 0x048 s1)

/-- A reset cause begins (R371): outside reset, or as a power-on, it resets the device and is recorded; in reset it only
holds the reset on. -/
def deviceReset (cause : Nat) (s : State) : State :=
  if s.pwr.boot = .inReset ∧ cause ≠ 0 then
    { s with pwr := { s.pwr with
      causes := if cause = 5 ∨ cause = 6 ∨ s.pwr.causes.contains cause then s.pwr.causes else s.pwr.causes ++ [cause] } }
  else resetState cause s

/-- CLKFAIL (R360). -/
def clkfailOp (s : State) : State := deviceReset 4 { s with pwr := { s.pwr with aonOk := false } }

/-- RESET_CAUSE_END. -/
def causeEnd (c : Nat) (s : State) : State :=
  { s with pwr := { s.pwr with
    causes := s.pwr.causes.filter (· != c), aonOk := s.pwr.aonOk || c == 4 } }

/-- RESET_RELEASE (R373, R374 steps 1 and 2, R445): the straps are latched, the PLLs are enabled, a warning condition that
holds is declared. -/
def resetRelease (straps : Nat) (s : State) : State :=
  if s.pwr.boot ≠ .inReset ∨ s.pwr.causes ≠ [] then s
  else
    let sp : Port := ⟨straps % 4, by omega⟩
    let s1 := { s with pwr := { s.pwr with
      boot := .released, straps := straps % 64, spare := sp, pfwWarn := s.pwr.pfwLow, vddioWarn := s.pwr.vddioLow } }
    let s2 := putFld .vot 0x058 5 4 (straps % 4) s1
    putFld (.ls 1) 0x040 3 3 (bitsOf straps 4 4) (putFld (.ls 0) 0x040 3 3 (bitsOf straps 3 3) s2)

/-! Brownout hold (R378 to R380, R445) -/

/-- A retain save will follow the warning (R379, R402). -/
def willSave (s : State) : Bool :=
  activePresent s && s.img.retainReady && getFld s .alm 0x060 0 0 == 1

/-- Brownout hold begins: WARN with its log record, BROWNOUT_CNT, LAST_WARN; one save per episode. CORE wakes for the save
or for the event. -/
def holdBegin (s : State) : State :=
  let save := willSave s
  let s1 := wakeCore (if save then 4 else 3) (if save then 6 else 5) s
  let s2 := setReg .sup 0x054 (timeSec s) (setReg .sup 0x050 (timeFrac s) (incReg .sup 0x048 1 s1))
  raiseD 8 (vmonWord s) 0 { s2 with pwr := { s2.pwr with
    brownout := true, recovering := false, saveDue := save && !s2.pwr.saveRun } }

/-- A supply condition holds. -/
def condLow (c : Supply) (s : State) : State :=
  match c with
  | .pfw => { s with pwr := { s.pwr with pfwLow := true } }
  | .vddio => { s with pwr := { s.pwr with vddioLow := true } }

/-- A supply condition is declared as a warning. -/
def condWarn (c : Supply) (s : State) : State :=
  match c with
  | .pfw => { s with pwr := { s.pwr with pfwWarn := true } }
  | .vddio => { s with pwr := { s.pwr with vddioWarn := true } }

/-- WARN (R377, R378, R445): in reset a condition is not declared; before CORE starts brownout hold waits; a second
condition in brownout hold begins no second episode. -/
def warnOp (c : Supply) (s : State) : State :=
  let s1 := condLow c s
  if s.pwr.boot = .inReset then s1
  else
    let s2 := condWarn c s1
    if s.pwr.boot = .released then s2
    else if s.pwr.brownout then { s2 with pwr := { s2.pwr with recovering := false } }
    else holdBegin s2

/-- RECOVERY_TIME_START (R380): every condition is at its recovery level. -/
def recoveryStart (s : State) : State :=
  { s with pwr := { s.pwr with
    pfwLow := false, vddioLow := false, pfwWarn := false, vddioWarn := false, recovering := s.pwr.brownout } }

/-- WARNING_RETURN_IN_HOLD (R380): the recovery time starts again later; no second save. -/
def warningReturn (c : Supply) (s : State) : State :=
  if s.pwr.brownout then
    let s1 := condWarn c (condLow c s)
    { s1 with pwr := { s1.pwr with recovering := false } }
  else s

/-! The reset sequence (R374, R375, R386, R389, R392) -/

/-- SYS_PLL_LOCK (steps 3 and 4): CORE starts, the wipe begins; a warning declared at the release begins brownout hold. -/
def sysPllLock (s : State) : State :=
  if s.pwr.boot ≠ .released then s
  else
    let s1 := { s with pwr := { s.pwr with boot := .wiping, sysLock := true } }
    if s.pwr.pfwWarn || s.pwr.vddioWarn then holdBegin s1 else s1

/-- The seal state of the seal record, or what a break declared in reset leaves (R393). -/
def sealRead (s : State) : State :=
  let b := recField s .seal 8 1
  let n := BitVec.ofNat 32 (recField s .seal 12 4)
  let s1 := { s with lcc := { s.lcc with
    armed := bitsOf b 0 0 == 1, broken := bitsOf b 1 1 == 1 || s.lcc.sealDue,
    noTime := if s.lcc.sealDue then true else bitsOf b 2 2 == 1,
    breakCount := if s.lcc.sealDue then n + 1 else n,
    breakTime := if s.lcc.sealDue then 0 else BitVec.ofNat 64 (recField s .seal 16 8) } }
  if s.lcc.sealDue then lcAlertEvent (sealWritten s1) else s1

/-- An Almanac wipe that a reset cut short is repeated whole; with the RETIRED fuse blown every reset wipes the whole
Almanac (R389). -/
def wipeRepeat (s : State) : State :=
  if s.lcc.retired then wipeAlmanac s
  else if bitsOf (recField s .lifeCycle 9 1) 0 0 = 1 then writeLife s.lcc.st false (wipeSlots s)
  else s

/-- Step 6: UID, SUBSYS, life-cycle state and seal state are read (R386, R392, R397, R409); in SERVICE no test instruction keeps the
pins (R423). -/
def identityRead (s0 : State) : State :=
  let s := almMeet recRegion 448 s0
  let noRec := (recCounts s .identity).isNone || (recCounts s .lifeCycle).isNone
  let (st, err) := lifeAtReset s
  let s1 := { s with
    pwr := { s.pwr with boot := .identified },
    alm := { s.alm with ready := true },
    tap := { s.tap with taken := s.tap.taken && st != .service },
    lcc := { s.lcc with
      st := st, recErr := err,
      ssvid := BitVec.ofNat 16 (recField s .identity 8 2), ssid := BitVec.ofNat 16 (recField s .identity 10 2) } }
  wipeRepeat (sealRead (raiseIf noRec 220 s1))

/-- WIPE_DONE (steps 5 and 6): every memory is zero with valid ECC; in brownout hold the read of the identity waits
(R445). -/
def wipeDone (s : State) : State :=
  if s.pwr.boot ≠ .wiping then s
  else
    let s1 := { s with tap := { s.tap with ecc := [] } }
    if s.pwr.brownout then { s1 with pwr := { s1.pwr with boot := .wiped } } else identityRead s1

/-- PORTS_OPEN (steps 7 and 8): Configuration Request Retry Status ends, power state RUN, the log scan starts; SYSRESET* may be
driven for 200 ms from now (R183), and a wrong parity of the geographic pins is reported (R182). -/
def portsOpen (s : State) : State :=
  if s.pwr.boot ≠ .identified then s
  else
    let s1 := { s with pwr := { s.pwr with boot := .opened, st := .run } }
    let s2 := allPorts.foldl (fun s p => modPort p (fun q => { q with crs := q.perst }) s) s1
    let s3 := modSeg 1 (fun x => { x with sysresetTimer := true }) (modSeg 0 (fun x => { x with sysresetTimer := true }) s2)
    let s4 := [(0 : Seg), 1].foldl (fun s g => raiseIf (!gaParOk s g) (segEv g 14) s) s3
    pump (allPorts.foldl (fun s p => if s.port[p].dlUp then admitCh p s else s) s4)

/-- RECOVER (R380): brownout hold ends; suspended and queued work proceeds, the retain area has been rewritten when the save ended (R285), a seal
record that waited is written, the reset sequence goes on (R445). -/
def recoverOp (s : State) : State :=
  if !s.pwr.brownout || !s.pwr.recovering || s.pwr.saveRun || s.pwr.saveDue then s
  else
    let s1 := raiseD 9 (vmonWord s) 0 { s with pwr := { s.pwr with brownout := false, recovering := false } }
    if s1.pwr.boot = .wiped then identityRead s1
    else if s1.pwr.boot = .opened ∨ s1.pwr.boot = .identified then pump (startWaitingSave (writeDueMarks (sealWritten s1)))
    else s1

/-! Power states (R366 to R370) -/

/-- The ring ports stop transmitting and the SerDes PLL stops; the node enters node state LISTEN (Table 13.7, Table 10.5). -/
def ringSilence (s : State) : State :=
  let f (p : RingPortS) : RingPortS := { p with signal := false, codeSync := false, lost := true, raw := none, rawSent := none }
  enterListen (modRp 1 f (modRp 0 f { s with pwr := { s.pwr with serdesLock := false } }))

/-- A PCMD is refused: captured in the PWR page with cause 0x1 (R367). -/
def pcmdRefuse (r raw : Nat) (v : Word) (s : State) : State := capture .pwr 1 r 0x01 raw v s

/-- A PCMD whose target is a power state takes effect (R367, R368). -/
def pcmdTo (target : PowerState) (r raw : Nat) (v : Word) (s : State) : State :=
  if (target != .run && s.img.ctl == .running) || s.pwr.brownout || s.pwr.transit then pcmdRefuse r raw v s
  else if s.pwr.st == target || s.pwr.st == .reset then s
  else
    let s1 := { s with pwr := { s.pwr with
      st := target, transit := true, fromRun := s.pwr.st == .run,
      awake := s.pwr.awake && target != .run } }
    let s2 := if target == .hold && s.pwr.st != .run then ringSilence s1 else s1
    pump (loomEval s2)

/-- PCMD takes effect: CMD in [2:0]. -/
def pcmdWrite (r raw : Nat) (v : Word) (s : State) : State :=
  let c := fieldOf v 2 0
  if c = 0 then s
  else if c = 1 then pcmdTo .run r raw v s
  else if c = 2 then pcmdTo .listen r raw v s
  else if c = 3 then pcmdTo .hold r raw v s
  else if c = 4 then
    (if s.img.ctl == .running || s.pwr.brownout || s.pwr.transit then pcmdRefuse r raw v s else deviceReset 6 s)
  else pcmdRefuse r raw v s

/-- Nothing that the transition must wait for is in progress: legacy transfers and Almanac operations on leaving RUN, the
SerDes PLL's lock on leaving HOLD (Table 13.7). -/
def transitReady (s : State) : Bool :=
  if s.pwr.fromRun then
    !schedBusy s && s.seg[(0 : Seg)].eng.isNone && s.seg[(1 : Seg)].eng.isNone && s.alm.op.isNone && s.lom.loading.isNone &&
      s.lom.armState != .marking
  else s.pwr.st == .hold || s.pwr.serdesLock || getFld s .clk 0x050 2 2 == 1

/-- PSTATE_CHG (R367, R368): the transition ends; from RUN to HOLD the ring ports stop last (Table 13.7). On a return to RUN a Loom whose cycles the ring counts starts at its next
Loom cycle, any other at once. -/
def pstateChg (s : State) : State :=
  if !s.pwr.transit || !transitReady s then s
  else
    let s0 := if s.pwr.fromRun && s.pwr.st == .hold then ringSilence s else s
    let s1 := raise 5 { s0 with pwr := { s0.pwr with transit := false, fromRun := false } }
    if s1.pwr.st == .run && !(hdrRing s1.lom.act && countsRing s1) then loomEval s1 else s1

/-- CORE_GATE (R370). -/
def coreGate (s : State) : State :=
  if (s.pwr.st == .hold || s.pwr.st == .listen) && !s.pwr.saveRun && !s.pwr.saveDue && s.mnt.acc.isNone &&
      !s.pwr.fromRun && !(allPorts.any fun p => !s.port[p].bar.isEmpty) then
    { s with pwr := { s.pwr with awake := false } }
  else s

/-! Clock faults (R360, R364) -/

/-- SERDES_PLL_UNLOCK. -/
def serdesUnlock (s : State) : State :=
  if !s.pwr.serdesLock then s
  else raise 12 (linkLoss 1 (linkLoss 0 { s with pwr := { s.pwr with serdesLock := false } }))

/-- SERDES_PLL_LOCK: the PLL runs in LISTEN and RUN and from the release of reset on, unless RING_OFF stops it. -/
def serdesLockOp (s : State) : State :=
  if s.pwr.boot = .inReset ∨ s.pwr.st = .hold ∨ getFld s .clk 0x050 2 2 = 1 then s
  else { s with pwr := { s.pwr with serdesLock := true } }

/-- PHY_PLL_UNLOCK. -/
def phyUnlock (p : Port) (s : State) : State :=
  if !s.port[p].phyLock then s
  else raise 12 (dlDownOp p (modPort p (fun q => { q with phyLock := false }) s))

/-- PHY_PLL_LOCK. -/
def phyLockOp (p : Port) (s : State) : State :=
  if s.pwr.boot = .inReset then s else modPort p (fun q => { q with phyLock := true }) s

/-- The Almanac work that waited on pair 10 ends in error (R364): a save with RETAIN_ERR, an operation with RESULT 0x7, a load as one whose slot
cannot be read, an arm whose mark is not written with reason 0x8 (the last two DEDUCED, log entry 54). -/
def almTimeout (s : State) : State :=
  let s1 := if s.pwr.saveRun then
      raise 214 (saveOver s)
    else s
  let s2 := match s1.lom.loading with
    | some (some i) => loadFail 1 i s1
    | _ => s1
  endOp 7 (armedOp false s2)

/-- XTO (R364): the pair's bit and XFAULT set; the operation that waited ends in error. Indirect accesses have a command of their own, and no ring
frame is in transmission between two commands (log entry 54). -/
def xtoOp (i : Fin 15) (s : State) : State :=
  let s1 := raise 12 (putFld .clk 0x04C i.val i.val 1 s)
  if i.val = 4 then cycleFail 0 1 s1
  else if i.val = 5 then cycleFail 1 1 s1
  else if i.val = 10 then almTimeout s1
  else s1

/-- VMON_SUPPLY_LOW (R377). -/
def vmonLow (r : Rail) (s : State) : State :=
  match r with
  | .vddsa => if s.pwr.vddsaOk then raise 12 { s with pwr := { s.pwr with vddsaOk := false } } else s
  | .vddsh => if s.pwr.vddshOk then raise 12 { s with pwr := { s.pwr with vddshOk := false } } else s

/-- VMON_SUPPLY_OK. -/
def vmonOk (r : Rail) (s : State) : State :=
  match r with
  | .vddsa => { s with pwr := { s.pwr with vddsaOk := true } }
  | .vddsh => { s with pwr := { s.pwr with vddshOk := true } }

end Sys2Proof.Machine
end

