-- ==== Sys2Proof/Machine/RegRead.lean ====
section
/-!
DEFINITION. What a register reads as: the fields that other state fixes, the 64-bit latches (R43), the indirect spaces, the
arrays of R12, and a read of BAR0 by a requester (R9 to R13, R25, R26, R41, R47, R57).
-/

namespace Sys2Proof.Machine

open Sys2Proof

/-- What a map holds at a key, if it lists it. -/
def mfind {α : Type} (m : SMap α) (k : Nat) : Option α := (m.find? fun e => e.1 == k).map (·.2)

/-- A word of the number `n`. -/
def w32 (n : Nat) : Word := BitVec.ofNat 32 n

/-! Words of the blocks -/

/-- GATE_CTRL stops a segment: its OFF bit with SEG_CFG.EN and SYSCON at 0 (Tables 13.12 and 13.18). -/
def lsOff (s : State) (g : Seg) : Bool :=
  getFld s .clk 0x050 g.val g.val == 1 && !segCfg s g 0 && !segCfg s g 3

/-- How a domain of GATE_STAT stands (Table 13.15): 0 CORE, 1 LSA, 2 LSB, 3 ALM, 4 RXE, 5 RXW, 6 RTX, 7 MER. -/
def domGate (s : State) (i : Nat) : Nat :=
  let run := s.pwr.fromRun || s.pwr.st == .run
  let live := run || s.pwr.st == .listen
  let ringOff := getFld s .clk 0x050 2 2 == 1
  let ls (g : Seg) : Nat := if !run then 1 else if lsOff s g then 3 else if s.seg[g].gated then 2 else 0
  let rx (rp : RingPort) : Nat := if !live then 1 else if ringOff then 3 else if !s.rng.port[rp].codeSync then 2 else 0
  match i with
  | 0 => if run || s.pwr.awake then 0 else 1
  | 1 => ls 0
  | 2 => ls 1
  | 3 => if s.pwr.saveRun then 0 else if !run then 1
         else if s.pwr.almGated && getFld s .clk 0x050 3 3 == 0 then 2 else 0
  | 4 => rx 0
  | 5 => rx 1
  | 6 => if !live then 1 else if ringOff then 3 else 0
  | _ => if live then 0 else 1

/-- DOM_STAT (Table 13.17) but MNT. -/
def domStat (s : State) : Nat :=
  let r (i b : Nat) : Nat := if domGate s i = 0 then 2 ^ b else 0
  bnat s.pwr.aonOk + r 0 1 + (allPorts.map fun p => bnat s.port[p].phyLock * 2 ^ (2 + p.val)).sum + r 1 6 + r 2 7 + r 4 8 +
    r 5 9 + r 6 10 + r 7 11 + r 3 12

/-- GLB home words (Table 2.19). -/
def glbHome (s : State) (r off : Nat) : Nat :=
  if off = 0x048 then s.lcc.uid.toNat % 2 ^ 32
  else if off = 0x04C then s.lcc.uid.toNat / 2 ^ 32
  else if off = 0x050 then s.lcc.ssid.toNat * 65536 + s.lcc.ssvid.toNat
  else if off = 0x054 then s.pwr.straps
  else if off = 0x058 then r
  else 0

/-- PWR home words (Tables 13.14 and 13.15); GATE_STAT reads its reset value in power state RESET (R3). -/
def pwrHome (s : State) (off : Nat) : Nat :=
  if off = 0x040 then
    bnat s.pwr.awake * 256 + bnat s.pwr.transit * 16 + (if s.pwr.st = .reset then 3 else s.pwr.st.code)
  else if off = 0x048 then s.pwr.wakeLast * 65536 + s.pwr.wakeBits
  else if off = 0x04C then (if s.pwr.st = .reset then 0 else ((List.range 8).map fun i => domGate s i * 4 ^ i).sum)
  else 0

/-- LCC home words (Tables 14.10 to 14.12). -/
def lccHome (s : State) (off : Nat) : Nat :=
  if off = 0x040 then lcStateWord s
  else if off = 0x048 then bnat s.lcc.timedOut * 4 + bnat s.lcc.presPin * 2 + bnat s.lcc.presence
  else if off = 0x04C then sealStatWord s
  else if off = 0x050 then
    bnat (s.lcc.trans.any (·.fuse)) * 16 + bnat s.lcc.retired * 8 + bnat s.lcc.commissioned * 4 + bnat s.lcc.uidLock * 2
  else if off = 0x054 then
    bnat s.lcc.wiping * 2 ^ 31 +
      bnat ((recCounts s .lifeCycle).isSome && bitsOf (recField s .lifeCycle 9 1) 0 0 == 1) * 2 ^ 30 + s.lcc.wipeBlocks
  else 0

/-- SUP home words (Tables 13.19 and 13.20). -/
def supHome (s : State) (off : Nat) : Nat :=
  if off = 0x040 then
    s.pwr.lastReset * 2 ^ 24 + bnat s.pwr.saveRun * 16 + bnat s.pwr.recovering * 8 + bnat s.pwr.brownout * 4 +
      bnat s.pwr.vddioWarn * 2 + bnat s.pwr.pfwWarn
  else if off = 0x058 then (vmonWord s).toNat
  else 0

/-- CLK home words (Table 13.17). -/
def clkHome (s : State) (off : Nat) : Nat :=
  if off = 0x040 then
    bnat s.pwr.aonOk * 256 + (allPorts.map fun p => bnat s.port[p].phyLock * 2 ^ (2 + p.val)).sum +
      bnat s.pwr.serdesLock * 2 + bnat s.pwr.sysLock
  else if off = 0x044 then domStat s
  else 0

/-- Posted header and data credits of the received TLPs whose destination has not taken them up (R97, Table 4.17). -/
def creditsHeld (s : State) (p : Port) : Nat × Nat :=
  let ws := (s.port[p].rx ++ s.port[p].bar).filterMap fun x => x.payload.map fun n => (n + 15) / 16
  (ws.length, ws.sum)

/-- CPn home words (Tables 4.11 to 4.17). -/
def cpHome (s : State) (p : Port) (off : Nat) : Nat :=
  let q := s.port[p]
  if off = 0x008 then bnat q.l1 * 4 + bnat (d3hot s p) * 2 + bnat q.push.isSome
  else if off = 0x040 then bnat (s.pwr.spare == p) * 8 + s.ch[p].st.code
  else if off = 0x044 then s.ch[p].epoch.toNat
  else if off = 0x048 then
    bnat (msixEn s p && !msixMask s p) * 2 ^ 19 + bnat (bme s p) * 2 ^ 18 + (if d3hot s p then 3 else 0) * 2 ^ 16 +
      (if !q.dlUp then 3 else if q.l23 then 2 else if q.l1 then 1 else 0) * 2 ^ 13 + bnat q.dlUp * 2 ^ 12 +
      (if q.dlUp then q.width * 16 + q.speed else 0)
  else if off = 0x060 then s.ch[p].k.toNat
  else if off = 0x064 then (creditsHeld s p).2 * 2 ^ 20 + (creditsHeld s p).1 * 256 + q.np.length
  else 0

/-- VOT home words (Tables 5.8, 5.9 and 5.13). -/
def votHome (s : State) (off : Nat) : Nat :=
  if off = 0x008 then bnat s.vot.admitOn * 1024 + s.vot.openE.length
  else if off = 0x040 then
    (if s.vot.mode = .m1oo1 then s.vot.oneCh.val else 0) * 256 + (activeChs s).length * 16 +
      (match s.vot.mode with | .halt => 0 | .m2oo2 => 1 | .m2oo3 => 2 | .m1oo1 => 3)
  else if off = 0x05C then
    (allPorts.map fun c => (s.ch[c].matchCnt * 16 + bnat s.ch[c].divergent * 8 + s.ch[c].st.code) * 256 ^ c.val).sum
  else 0

/-- A strobe hold runs on a segment (R174). -/
def holding (s : State) (g : Seg) : Bool := s.seg[g].eng.any (·.hold)

/-- Segment home words (Tables 6.10, 6.14 and 6.16). -/
def lsHome (s : State) (g : Seg) (off : Nat) : Nat :=
  let x := s.seg[g]
  let levels (f : Nat → Bool) : Nat := ((List.range 8).map fun l => if l ≠ 0 ∧ f l then 2 ^ l else 0).sum
  if off = 0x008 then
    (x.dr.toList.filter Option.isSome).length * 32 + bnat (holding s g) * 16 + bnat (sysconAct s g) * 8 +
      bnat (!segAvail s g) * 4 + bnat x.owner * 2 + bnat (x.eng.any (·.driving))
  else if off = 0x054 then bnat (crcsrAct s g) * 64 + bnat (gaParOk s g) * 32 + gaSlot s g
  else if off = 0x064 then
    bnat (x.swPend != 0) * 2 ^ 24 + levels (fun l => x.hdlBusy.contains l) * 2 ^ 16 + levels (levelOwn s g) * 2 ^ 8 +
      levels (irqLow s g)
  else if off = 0x06C then bnat x.noGate * 8 + bnat x.stopWait * 4 + bnat (x.gated && hasWork s g) * 2 + bnat x.gated
  else 0

/-- The cells of a packet that are linked on its list: those filled, once they are (R204). -/
def linkedCells (p : Pkt) : Nat := if p.eop then p.cells.length else p.data.length / 64

/-- Cells linked on list `q`. -/
def depthOf (s : State) (q : Nat) : Nat :=
  if q = 63 then freeListLen s.crl else ((listPkts s q).map linkedCells).sum

/-- CRL home words (Tables 7.10 to 7.16); `q` is the requester's Q_SEL. -/
def crlHome (s : State) (q off : Nat) : Nat :=
  let e := getQ s.crl q
  if off = 0x008 then bnat (headroom s.crl == 0) * 2 + bnat (creelFree s.crl == 0)
  else if off = 0x040 then headroom s.crl * 65536 + creelFree s.crl
  else if off = 0x044 then q
  else if off = 0x048 then bnat e.underrun * 2 ^ 31 + bnat e.dropping.isSome * 2 ^ 30 + e.held * 2 ^ 15 + depthOf s q
  else if off = 0x04C then e.resv
  else if off = 0x050 then e.limit
  else if off = 0x054 then e.thresh
  else if off = 0x060 then
    bnat s.crl.sweep * 2 ^ 31 + bnat s.crl.sweepPending * 2 ^ 30 + s.crl.sweepQueue % 64 * 2 ^ 24 + s.crl.sweepReleased
  else if off = 0x064 then s.crl.ptrErr.toNat
  else 0

/-- The requests parked at the master engine of a segment (Table 7.22). -/
def parkedCount (s : State) (g : Seg) : Nat :=
  (s.seg[g].parked.filter fun pl => (placeNext s g pl).isSome).length

/-- ARB home words (Tables 7.19, 7.21 and 7.22), but the depths of the pending queues that no command fixes. -/
def arbHome (s : State) (off : Nat) : Nat :=
  if off = 0x008 then bnat (s.crl.prioShadow != s.crl.prioSched)
  else if off = 0x058 then s.crl.prioSched.toNat
  else if off = 0x060 then parkedCount s 0 + 32 * parkedCount s 1
  else 0

/-- PEND_STAT of the arbiters that grant within core cycles which no command orders: the Creel's write and read port, the image banks,
the transmit paths (DESIGN CHOICE, log entry 4). -/
def pendStat (f : Nat) : Nat :=
  (List.range 4).foldl (fun a i => a + pendDepth (f / 32 ^ i) * 2 ^ (10 + 5 * i)) 0

/-- LOM home words (Tables 8.12 to 8.17). -/
def lomHome (s : State) (off : Nat) : Nat :=
  let l := s.lom
  if off = 0x008 then bnat l.checking * 2 + bnat l.loading.isSome
  else if off = 0x040 then
    bnat l.volatile * 256 + l.act.src * 64 + l.stby.src * 16 + bnat l.stby.modified * 8 +
      bnat (l.armState == .marking || l.armState == .armed) * 4 + bnat l.bank * 2 + bnat l.run
  else if off = 0x044 then l.cycle.toNat
  else if off = 0x048 then hdrSched l.act
  else if off = 0x04C then (if l.stby.check = .fail then 0 else hdrSched l.stby)
  else if off = 0x058 then
    l.armReason * 256 + (match l.armState with
      | .idle => 0 | .marking => 1 | .armed => 2 | .switched => 3 | .refused => 4 | .abandoned => 5)
  else if off = 0x060 then checkStat l.stby
  else 0

/-- A third or observer comparison runs: the channel has made its commit write of the last commit and is not compared yet
(R145, R149). -/
def cmpPending (s : State) : Bool :=
  match s.vot.last with
  | some ci => ci.digestValid && allPorts.any fun c => s.ch[c].copyOf == some ci.n &&
      ((s.ch[c].st == .active && ci.three && !ci.thirdDone && c != ci.first && c != ci.second) ||
        s.ch[c].st == .ready || s.ch[c].st == .observer)
  | none => false

/-- IMG home words (Tables 9.15 to 9.17). -/
def imgHome (s : State) (off : Nat) : Nat :=
  let i := s.img
  let chans (l : List Nat) : Nat := ((List.range 4).map fun p => if l.contains p then 2 ^ p else 0).sum
  if off = 0x008 then
    bnat s.pwr.saveRun * 2048 + bnat i.restarting * 1024 + bnat (i.wdogRun != 0) * 512 +
      bnat (!i.runs.isEmpty || cmpPending s) * 256 + chans (i.heldFreeze.map (·.1)) * 16 + chans i.stgBusy
  else if off = 0x040 then
    bnat i.fallback * 512 + bnat i.lastCold * 256 + i.stopCause * 16 +
      (match i.ctl with | .waiting => 0 | .running => 1 | .stopped => 2)
  else if off = 0x048 then i.frozen.toNat
  else if off = 0x050 then i.committed.toNat
  else 0

/-- Ring port home words (Tables 10.11, 10.12 and 10.14). -/
def rgHome (s : State) (rp : RingPort) (off : Nat) : Nat :=
  let x := s.rng.port[rp]
  let low := bnat x.codeSync * 2 + bnat x.signal
  if off = 0x008 then low
  else if off = 0x040 then bnat x.foreign * 16 + bnat x.wrapped * 8 + bnat x.swapped * 4 + low
  else if off = 0x058 then (if x.hopValid then 2 ^ 31 + x.hopDelay % 65536 else 0)
  else 0

/-- RNG home words (Tables 10.16 to 10.19). -/
def rngHome (s : State) (off : Nat) : Nat :=
  let x := s.rng
  if off = 0x008 then bnat s.mer.synced * 4 + bnat (isSeam s) * 2 + bnat (ringWrapped s)
  else if off = 0x040 then x.node.code
  else if off = 0x044 then
    bnat x.port[(0 : RingPort)].swapped * 2 ^ 24 + x.seam * 2 ^ 16 +
      ((List.range 64).filter fun i => x.member.getLsbD i).length * 256 + x.num
  else if off = 0x048 then x.member.toNat % 2 ^ 32
  else if off = 0x04C then x.member.toNat / 2 ^ 32
  else if off = 0x060 then x.tepoch.toNat
  else 0

/-- MER home words (Tables 11.5 to 11.9). -/
def merHome (s : State) (off : Nat) : Nat :=
  let m := s.mer
  if off = 0x008 then bnat s.evh.capOvr * 2 + bnat m.slewing
  else if off = 0x040 then (timeFrac s).toNat
  else if off = 0x044 then (timeSec s).toNat
  else if off = 0x048 then
    bnat m.synced * 2 ^ 31 + bnat (rateOk s) * 2 ^ 30 + bnat m.trimmed * 2 ^ 29 + bnat m.holdover * 2 ^ 28 +
      m.n * 2 ^ 16 + m.resyncs.toNat
  else if off = 0x04C then (BitVec.ofInt 32 m.offset).toNat
  else if off = 0x050 then (BitVec.ofInt 32 m.rate).toNat
  else if off = 0x064 then s.evh.capTime.toNat % 2 ^ 32
  else if off = 0x068 then s.evh.capTime.toNat / 2 ^ 32
  else if off = 0x06C then min (2 ^ 32 - 1) m.devMax
  else 0

/-- EVH home words (Tables 12.7 to 12.9); `e` is the requester's ROUTE_SEL. -/
def evhHome (s : State) (e off : Nat) : Nat :=
  let h := s.evh
  let lv (g : Nat) : Nat := ((List.range 8).map fun l => if h.levels.any fun x => x.1 == g && x.2.1 == l then 2 ^ l else 0).sum
  if off = 0x008 then bnat h.scanning * 2 ^ 17 + bnat ((listPkts s 26).any fun p => decide (p.sent < p.data.length)) * 2 ^ 16 + h.lost % 65536
  else if off = 0x040 then e
  else if off = 0x044 then (mget 0 h.routes e).toNat
  else if off = 0x048 then h.logWr.toNat
  else if off = 0x04C then h.logRd.toNat
  else if off = 0x054 then lv 1 * 256 + lv 0
  else 0

/-- Low or high word of a 48-bit counter. -/
def cntWord (v : Nat) (high : Bool) : Nat := if high then v / 2 ^ 32 else v % 2 ^ 32

/-- CNT control home words (Tables 15.5 to 15.8). -/
def cntHome (s : State) (off : Nat) : Nat :=
  let h := s.evh
  if off = 0x008 then
    s.tap.scrubMem * 16 + bnat s.tap.tlr * 2 +
      bnat (getFld s .cnt 0x004 0 0 == 1 && domGate s 0 == 0 && s.pwr.boot == .opened)
  else if off = 0x044 then h.scOvf.toNat
  else if 0x050 ≤ off ∧ off < 0x070 then (mget 0 h.ecOvf ((off - 0x050) / 4)).toNat
  else if 0x0C0 ≤ off ∧ off < 0x140 then cntWord (mget 0 h.sc ((off - 0x0C0) / 8)) (decide (off % 8 = 4))
  else 0

/-- CNT user home words (Table 15.10). -/
def userHome (s : State) (off : Nat) : Nat :=
  if 0x040 ≤ off ∧ off < 0x0C0 then cntWord (mget 0 s.evh.sc ((off - 0x040) / 8)) (decide (off % 8 = 4)) else 0

/-- The newer retain slot, of those valid. -/
def newerRetain (s : State) : Nat :=
  if slotValid s 3 && (!slotValid s 2 || decide (slotSeq s 2 < slotSeq s 3)) then 1 else 0

/-- Slot `i` is being written. -/
def slotWriting (s : State) (i : Nat) : Bool :=
  (s.alm.op.any fun o => o.op == 1 && o.slot == i) || s.alm.saveSlot.map (·.1) == some i

/-- Almanac work waits for the end of brownout hold (R378): an operation, a transition's wipe, a load, a mark or a log record. -/
def almSuspended (s : State) : Bool :=
  s.pwr.brownout && (s.alm.op.isSome || s.lcc.wiping || (match s.lom.loading with | some (some _) => true | _ => false) ||
    s.lom.armState == .marking || !s.lom.markDue.isEmpty || (listPkts s 26).any fun p => decide (p.sent < p.data.length))

/-- ALM home words (Tables 14.14 to 14.16). -/
def almHome (s : State) (off : Nat) : Nat :=
  let a := s.alm
  if off = 0x040 then
    bnat s.lcc.wiping * 32 + bnat (almSuspended s) * 16 + bnat s.pwr.saveRun * 4 + bnat a.op.isSome * 2 +
      bnat a.ready
  else if off = 0x044 then
    newerRetain s * 256 + ((List.range 4).map fun i => (bnat (slotWriting s i) * 2 + bnat (slotValid s i)) * 4 ^ i).sum
  else if off = 0x054 then bnat a.op.isSome * 2 ^ 31 + a.statWords * 256 + a.statOp * 16 + a.statResult
  else if off = 0x058 then wearMax s
  else if off = 0x05C then refreshPasses s * 2 ^ 20 + refreshBlock s
  else 0

/-- The computed fields of a block register. -/
def blockHome (s : State) (r : Req) (k : PageKind) (off : Nat) : Nat :=
  match k with
  | .glb => glbHome s r.val off | .pwr => pwrHome s off | .lcc => lccHome s off | .sup => supHome s off
  | .clk => clkHome s off | .cp p => cpHome s p off | .vot => votHome s off
  | .frc => if off = 0x048 then (activeForces s).length else 0
  | .ls g => lsHome s g off | .crl => crlHome s s.bus.req[r].qSel off | .arb => arbHome s off | .lom => lomHome s off
  | .img => imgHome s off | .rg rp => rgHome s rp off | .rng => rngHome s off | .mer => merHome s off
  | .evh => evhHome s s.bus.req[r].routeSel off | .cnt => cntHome s off | .cntu => userHome s off | .alm => almHome s off
  | .mnt => 0

/-- A shadow of the page waits (UPD_GRP.PENDING). -/
def pageShadow (s : State) (k : PageKind) : Bool :=
  if k = .arb then s.crl.prioShadow != s.crl.prioSched
  else s.bus.shadow.any fun e => e.1 % 2 ^ 20 / 0x1000 == k.num

/-- The guarded write a requester holds in a page (R28). -/
def heldIn (s : State) (r : Req) (k : PageKind) : Option Held := mfind s.bus.req[r].guards k.num

/-- GUARD_STAT as a requester reads it (Table 2.8). -/
def guardStat (s : State) (r : Req) (k : PageKind) : Nat :=
  let w := (mget 0 s.bus.req[r].guardStat k.num).toNat
  match heldIn s r k with
  | some h => withBits (withBits w 15 4 h.off) 0 0 1
  | none => w

/-- The computed fields of a header register (Tables 2.2 to 2.10). -/
def headerHome (s : State) (r : Req) (k : PageKind) (off : Nat) : Nat :=
  if off = 0x000 then k.typ * 2 ^ 24 + k.inst * 2 ^ 16 + 0x0100
  else if off = 0x00C then (mget 0 s.evh.event k.num).toNat
  else if off = 0x01C then bnat (pageShadow s k) * 8
  else if off = 0x020 then (mget 0 s.bus.req[r].indAddr k.num).toNat
  else if off = 0x02C then guardStat s r k
  else if off = 0x038 then k.events.2 * 256 + k.events.1
  else 0

/-- A register as a requester reads it, without the effects of the read: stored fields and computed ones; command bits read
zero (Table 2.11). -/
def regWord (s : State) (r : Req) (k : PageKind) (off : Nat) : Word :=
  let fs := regFields k off
  let stored := fieldMask (fun f => !f.home && f.cls != .wo) fs
  (getReg s k off &&& w32 stored) ||| w32 (headerHome s r k off) ||| w32 (blockHome s r k off)

/-! Indirect spaces -/

/-- Length in words of an indirect space; nothing where the page has no such space (R26). -/
def indLen (k : PageKind) (space : Nat) : Option Nat :=
  let t : List Nat :=
    match k with
    | .ls _ => [32, 64, 8, 4096, 4]
    | .crl => [65536, 256]
    | .lom => [16, 16, 64, 64, 40, 4]
    | .img => [16, 16, 131072, 32768, 131072, 65536]
    | .frc => [16384, 2048, 2048]
    | .rng => [16, 256, 2048, 1024, 256]
    | .mer => [128]
    | .evh => [65536, 8, 256]
    | .cnt => [512, 64, 32]
    | .alm => [2097152, 786432]
    | _ => []
  t[space]?

/-- The packets whose cells stand on a list, or stood there when it was reset (R211), with the list's number. -/
def packetsAt (s : State) : List (Nat × Pkt) :=
  (List.range 63).flatMap (fun q => (listPkts s q).map fun p => (q, p)) ++ s.crl.lostPkts ++ s.crl.nextPkts

/-- A packet with its list's number, and the place of a cell in it. -/
def cellHome (s : State) (c : Nat) : Option (Nat × Pkt × Nat) :=
  (packetsAt s).findSome? fun e => (e.2.cells.idxOf? c).map fun i => (e.1, e.2, i)

/-- The queue that owns a cell which no list holds: a packet's that a DROP discards (R208), or the free list's after its reset. -/
def cellOwner (s : State) (c : Nat) : Option Nat :=
  ((List.range 63).findSome? fun q => match (getQ s.crl q).dropping with
    | some p => if p.cells.contains c then some p.owner else none
    | none => none).or
    (((s.crl.lostCells ++ s.crl.nextCells).find? fun e => e.1 == c).map (·.2))

/-- The cell that follows `c` on the free list. -/
def nextFree (s : State) (c : Nat) : Nat :=
  if s.crl.fresh ≤ c then (if c + 1 < 16384 then c + 1 else s.crl.free.headD 0)
  else (s.crl.free.dropWhile (· != c)).getD 1 0

/-- The tag of the cell at place `i` of packet `p`, linked on list `q` (Table 7.1, R206). -/
def linkedTag (q : Nat) (p : Pkt) (i f : Nat) : Nat :=
  let eop := decide (i + 1 = p.cells.length) && p.eop
  let cut := p.trunc && decide (p.sent / 64 = i)
  let fill := min 64 (p.data.length - 64 * i) - 1
  let desc := if i = 0 then p.pat % 65536 + p.off % 4096 * 2 ^ 16 + (p.len - 1) % 4096 * 2 ^ 28 + p.aux % 2 ^ 20 * 2 ^ 40 else 0
  let next := match p.cells[i + 1]? with | some n => n | none => f % 16384
  next + p.owner * 2 ^ 14 + q * 2 ^ 20 + bnat (i == 0) * 2 ^ 26 + bnat eop * 2 ^ 27 + bnat cut * 2 ^ 28 +
    bnat (cut && p.cont) * 2 ^ 29 + bnat (i == 0 && p.poison) * 2 ^ 30 + fill * 2 ^ 32 +
    (if p.src < 4 then p.epoch % 65536 else 0) * 2 ^ 48 + p.src * 2 ^ 64 + desc * 2 ^ 68

/-- The tag of a cell on no list: its owner, and what its last use has left, which is free, with the reserved bits and DESC zero. -/
def looseTag (owner f : Nat) : Nat :=
  (f &&& 0x7FF03FFF) + owner * 2 ^ 14 + bitsOf f 37 32 * 2 ^ 32 + bitsOf f 63 48 * 2 ^ 48 + bitsOf f 41 38 * 2 ^ 64

/-- Word `j` of the tag of cell `c` (Table 7.1). What the spec calls meaningless, and what a free or unlinked cell keeps, is
free: `f` (DESIGN CHOICE, log entry 12). -/
def tagWord (s : State) (c j f : Nat) : Nat :=
  let tag :=
    match cellHome s c with
    | some (q, p, i) => if i < linkedCells p then linkedTag q p i f else looseTag p.owner f
    | none =>
      match cellOwner s c with
      | some o => looseTag o f
      | none =>
        if s.crl.fresh ≤ c then nextFree s c + 63 * 2 ^ 14 + 63 * 2 ^ 20
        else looseTag 63 f / 2 ^ 32 * 2 ^ 32 + nextFree s c + 63 * 2 ^ 14 + 63 * 2 ^ 20
  bitsOf tag (32 * j + 31) (32 * j)

/-- Word `j` of the pointers of list `q` (Table 7.17); the pointers of an empty list are free. -/
def ptrWord (s : State) (q j f : Nat) : Nat :=
  let cells := if q = 63 then (List.range (16384 - s.crl.fresh)).map (s.crl.fresh + ·) ++ s.crl.free
               else (listPkts s q).flatMap (·.cells)
  let v := match (if j % 2 = 0 then cells.head? else cells.getLast?) with | some c => c | none => f % 16384
  let w := if j < 2 then v else 16383 - v % 16384
  w + (if cells.isEmpty then 2 ^ 31 else 0)

/-- A delayed-read slot as space 0x4 shows it (Table 6.17): BUSY while it is in use, so also while it holds its result (DESIGN CHOICE,
log entry 54), and the time it has been held, in ticks of 40 ns. -/
def drWord (s : State) (g : Seg) (i : Nat) : Nat :=
  match s.seg[g].dr.toList.getD i none with
  | some d =>
    1 + bnat d.result.isSome * 2 + d.win % 256 * 256 +
      (if d.result.isSome then (s.pwr.ticks - d.heldAt) * 40 / 1000 % 65536 * 65536 else 0)
  | none => 0

/-- Word `i` of the Weave mark in force (Table 8.20). -/
def markWord (s : State) (i : Nat) : Nat :=
  let slot (v : Nat) : Nat := if v = 0xFF then 0xFFFFFFFF else v
  match recCounts s .mark with
  | some off =>
    if i = 0 then slot (markActive s) else if i = 1 then slot (markTarget s)
    else if i = 2 then recField s .mark 12 4 else recSeq s off
  | none => if i < 2 then 0xFFFFFFFF else 0

/-- A word of one of the signed readings, low 32 bits. -/
def intWord (i : Int) : Nat := (BitVec.ofInt 32 i).toNat

/-- An offset in 0.25 ns as a number of ns, rounded as the spec leaves open (DESIGN CHOICE, log entry 13). -/
def nsOf (q : Nat) : Nat := (divOpen q 4).toNat

/-- Word `w` of an indirect space of a page; `f` is the free value for what the spec leaves open. -/
def indWord (s : State) (k : PageKind) (space w f : Nat) : Nat :=
  match k with
  | .ls g =>
    (match space with
     | 0 => profWord s.lom.act g w | 1 => winWord s.lom.act g w | 2 => hdlWord s.lom.act g w
     | 3 => (crByte s.lom.act g w).toNat | _ => drWord s g w)
  | .crl => if space = 0 then tagWord s (w / 4) (w % 4) f else ptrWord s (w / 4) (w % 4) f
  | .lom =>
    (match space with
     | 0 => ephHdr s.lom.act w | 1 => ephHdr s.lom.stby w
     | 2 => if s.lom.act.hasHdr then wword s.lom.act 0 (4 * w) else 0
     | 3 => if s.lom.stby.hasHdr then wword s.lom.stby 0 (4 * w) else 0
     | 4 => if s.lom.stby.hasHdr then wword s.lom.stby 0 (0x100 + 4 * w) else 0
     | _ => markWord s w)
  | .img =>
    (match space with
     | 0 => part s.lom.act w | 1 => part s.lom.stby w | 2 => if w < 2 * part s.lom.act 11 then wword s.lom.act 6 (64 + 4 * w) else 0
     | 3 => wword s.lom.act 7 (8 + 4 * w) | 4 => wword s.lom.act 5 (4 * w)
     | _ => if w < part s.lom.act 11 then slotOf s w else 0)
  | .frc =>
    (match space with
     | 0 => (mget 0 s.frc.eff w).toNat | 1 => wword s.lom.act 4 (4 * w) | _ => wword s.lom.stby 4 (4 * w))
  | .rng =>
    (match space with
     | 0 => ringHdr s.lom.act w
     | 1 => match s.rng.result[w / 4]? with
            | some m => if w % 4 = 0 then m.uid.toNat % 2 ^ 32 else if w % 4 = 1 then m.uid.toNat / 2 ^ 32
                        else if w % 4 = 2 then m.num else m.delay
            | none => 0
     | 2 => wword s.lom.act 9 (256 + 4 * w)
     | 3 => if w < ringSlots s.lom.act then
              (match s.rng.takenOver.find? fun e => e.1 == slotOwner s.lom.act w with
               | some e => e.2.1 + e.2.2 * 65536
               | none => slotOwner s.lom.act w + s.rng.tepoch.toNat * 65536)
            else 0
     | _ => let o := offsOf s (decide (2 ≤ w % 4)) (w / 4 + 1)
            nsOf (if w % 2 = 0 then o.a else o.o))
  | .mer =>
    let n := w / 2 + 1
    if w % 2 = 0 then intWord (mget 0 s.mer.lastReadings n)
    else bnat (s.mer.inSet.contains n) + bnat (s.mer.trimmedNodes.contains n) * 2 + bnat (s.mer.rawOk.contains n) * 4
  | .evh =>
    (match space with
     | 0 => natLE (almBytes s (0x680000 + 4 * w) 4) | 1 => (mget 0 s.evh.replBase w).toNat | _ => evrRoute s.lom.act w)
  | .cnt =>
    (match space with
     | 0 => cntWord (mget 0 s.evh.cnt (w / 2)) (decide (w % 2 = 1)) | 1 => (mget 0 s.evh.ovfRec w).toNat
     | _ => (mget 0 s.evh.memErr w).toNat)
  | .alm => if space = 0 then natLE (almBytes s (4 * w) 4) else 0
  | _ => 0

/-- Whether a word of an indirect space uses the free value (DESIGN CHOICE, log entry 12). -/
def indUsesFree (k : PageKind) (space : Nat) : Bool :=
  k == .crl && decide (space < 2)

/-- The space lies in the Almanac (R356, R410). -/
def almSpace (k : PageKind) (space : Nat) : Bool := (k == .alm || k == .evh) && space == 0

/-- The clock domain of the space runs, or starts for the access (R26, R237, R359). -/
def indRuns (s : State) (k : PageKind) (space : Nat) : Bool :=
  match k with
  | .ls g => decide (domGate s (1 + g.val) = 0)
  | .mer => decide (domGate s 7 = 0)
  | _ => if almSpace k space then decide (domGate s 3 ≠ 1) else true

/-- A word of a WRITE_WEAVE stream waits while brownout hold or a retain save suspends the operation (R378, Table 14.9). -/
def streamHeld (s : State) (r : Req) (k : PageKind) (space : Nat) : Bool :=
  k == .alm && space == 1 && (s.pwr.brownout || s.pwr.saveRun) && s.alm.op.any fun o => o.op == 1 && o.req == r.val && !streamFull o

/-- A live counter of CNT space 0x0 is read with a latch of its high word per requester (R412). -/
def liveCounter (r : Req) (w : Nat) (s : State) : Nat × State :=
  let key := 2 ^ 20 + w / 2
  let v := mget 0 s.evh.cnt (w / 2)
  if w % 2 = 0 then
    (v % 2 ^ 32, modReq r (fun q => { q with hiLatch := minsert key (w32 (v / 2 ^ 32)) q.hiLatch }) s)
  else
    match mfind s.bus.req[r].hiLatch key with
    | some h => (h.toNat, modReq r (fun q => { q with hiLatch := merase key q.hiLatch }) s)
    | none => (v / 2 ^ 32, s)

/-- IND_ADDR of a requester in a page. -/
def indAddr (s : State) (r : Req) (k : PageKind) : Word := mget 0 s.bus.req[r].indAddr k.num

/-- WADDR advances after an access without error while AI is 1 (R25). -/
def indAdvance (r : Req) (k : PageKind) (s : State) : State :=
  let a := indAddr s r k
  if bitAt a 31 then
    modReq r (fun q => { q with indAddr := mset 0 k.num (setFieldOf a 23 0 (fieldOf a 23 0 + 1)) q.indAddr }) s
  else s

/-- An indirect access ends in error (R26). -/
def indError (r : Req) (k : PageKind) (page off : Nat) (d : Word) (s : State) : State :=
  capture k 3 r.val page off d (putFld k 0x008 30 30 1 s)

/-- The ECC-protected word that an indirect read meets (Table 15.2): the tag of a Creel cell, or a word of an FCAP map. -/
def indEcc (s : State) (k : PageKind) (space w : Nat) : Option (Nat × Nat) :=
  match k with
  | .crl => if space = 0 then some (7, w / 4) else none
  | .frc => if space = 0 then none else some (5, 8192 + (if (space == 1) == s.lom.bank then 1024 else 0) + w / 2)
  | _ => none

/-- The Almanac address of word `w` of such a space (Tables 12.10, 14.17). -/
def almAddr (k : PageKind) (w : Nat) : Nat := (if k == .evh then 0x680000 else 0) + 4 * w

/-- An indirect read meets the error of its word: counted, and a corrected one reported by the port that reads (R419, Table 4.8); one of the
Almanac sets its events (Table 14.13). -/
def indMeet (r : Req) (k : PageKind) (space w : Nat) (s : State) : State :=
  match indEcc s k space w with
  | some (m, i) =>
    let s1 := readEcc m i (i + 1) s
    match reqPort r with
    | some p => if eccOf s m i = some false then aerCorr p 14 s1 else s1
    | none => s1
  | none => if almSpace k space then almMeet (almAddr k w) 4 s else s

/-- A read of IND_DATA (R25, R26): nothing when the access waits for a gated clock. -/
def indRead (r : Req) (k : PageKind) (page off : Nat) (s : State) : Option (Word × State) :=
  let a := indAddr s r k
  let space := fieldOf a 27 24
  let w := fieldOf a 23 0
  match indLen k space with
  | none => some (0, indError r k page off 0 s)
  | some n =>
    if !indRuns s k space then none
    else if almSpace k space && s.pwr.brownout then some (0, indError r k page off 0 s)
    else
      let s1 := if almSpace k space then wakeAlm s else s
      if n ≤ w then some (0, indAdvance r k s1)
      else if k == .cnt && space == 0 then
        let (v, s2) := liveCounter r w s1
        some (w32 v, indAdvance r k s2)
      else
        let bad := almSpace k space && almBad s1 (almAddr k w) 4
        let f := (freeVal s1).toNat
        let v := if bad then f else indWord s1 k space w f
        some (w32 v, indAdvance r k (indMeet r k space w (if bad || indUsesFree k space then tookFree s1 else s1)))

/-! Q_POP (R209) -/

/-- A read of Q_POP pops one word of the IACK queue, or underruns. -/
def qPopWord (s : State) : Word × State :=
  if getFld s .crl 0x004 0 0 = 0 then (0, s)
  else
    let s := useList 18 s
    match listPkts s 18 with
    | [] =>
      let e := getQ s.crl 18
      (s.crl.lastPop, raise 116 { s with crl := setQ 18 { e with underrun := true } s.crl })
    | p :: _ =>
      let w := wordLE (p.data.drop (4 * s.crl.popped))
      let s1 := { s with crl := { s.crl with lastPop := w, popped := (s.crl.popped + 1) % 4 } }
      (w, if s.crl.popped = 3 then popPkt 18 s1 else s1)

/-! A read of BAR0 -/

/-- The low word's offset of a 64-bit register (R43), with whether the offset is its high word. -/
def wide (k : PageKind) (off : Nat) : Option (Nat × Bool) :=
  let pair (lo : Nat) : Option (Nat × Bool) := if off = lo then some (lo, false) else if off = lo + 4 then some (lo, true) else none
  match k with
  | .glb => (pair 0x048).or (pair 0x070)
  | .sup => pair 0x050
  | .cp _ => pair 0x050
  | .rng => pair 0x048
  | .mer => (pair 0x040).or ((pair 0x054).or (pair 0x064))
  | .cnt => if 0x0C0 ≤ off ∧ off < 0x140 then some (off / 8 * 8, off % 8 = 4) else none
  | .cntu => if 0x040 ≤ off ∧ off < 0x0C0 then some (off / 8 * 8, off % 8 = 4) else none
  | .mnt => (pair 0x058).or (pair 0x060)
  | _ => none

/-- Read one word of a 64-bit register whose words now are `lo` and `hi`, with the requester's latch (R43). -/
def readWide (r : Req) (key : Nat) (high : Bool) (lo hi : Word) (s : State) : Word × State :=
  if high then
    match mfind s.bus.req[r].hiLatch key with
    | some h => (h, modReq r (fun q => { q with hiLatch := merase key q.hiLatch }) s)
    | none => (hi, s)
  else (lo, modReq r (fun q => { q with hiLatch := minsert key hi q.hiLatch }) s)

/-- The user page shows its counters to a requester (R417). -/
def userShown (s : State) (r : Req) : Bool := r.val == 4 || getFld s .cnt 0x040 r.val r.val == 1

/-- A read of the high word of CAP_TIME frees the capture for the next one (R336). -/
def readNote (k : PageKind) (off : Nat) (s : State) : State :=
  if k = .mer ∧ off = 0x068 then { s with evh := { s.evh with capUnread := false } } else s

/-- A read of a register page at a folded offset; nothing when an indirect read waits. -/
def pageRead (r : Req) (k : PageKind) (page off raw : Nat) (s : State) : Option (Word × State) :=
  if off = 0x024 then indRead r k page raw s
  else if k = .crl ∧ off = 0x058 then some (qPopWord s)
  else if k = .clk ∧ off = 0x044 then
    some (setFieldOf (regWord s r k off) 13 13 ((freeVal s).toNat % 2), tookFree s)
  else if k = .arb ∧ off = 0x060 then
    some (regWord s r k off ||| w32 (pendStat (freeVal s).toNat), tookFree s)
  else if k = .cntu ∧ 0x040 ≤ off ∧ off < 0x0C0 ∧ userShown s r = false then some (0, s)
  else
    match wide k off with
    | some (lo, high) =>
      some (readWide r (regAddr k lo) high (regWord s r k lo) (regWord s r k (lo + 4)) (readNote k off s))
    | none => some (regWord s r k off, s)

/-- A page offset folded by R9. -/
def foldOff (off : Nat) : Nat := if off < 0x400 then off else off % 0x400

/-- A read of the counter holding region (R47): snapshots stand at 0 to 255 for the event counters and at 256 on for the
sampling counters. -/
def holdRead (r : Req) (h : Nat) (s : State) : Word × State :=
  let i : Option Nat := if h < 0x800 then some (h / 8) else if h < 0x880 then some (256 + (h - 0x800) / 8) else none
  match i with
  | some i =>
    let v := mget 0 s.evh.held i
    readWide r (0x34000 + h / 8 * 8) (h % 8 = 4) (w32 (v % 2 ^ 32)) (w32 (v / 2 ^ 32)) s
  | none => (0, s)

/-- A word of the MSI-X table of a port. -/
def msixTableWord (s : State) (p : Port) (off : Nat) : Word := msixWord s p (off / 16) (off / 4 % 4)
/-- A word of the PBA of a port. -/
def msixPbaWord (s : State) (p : Port) (off : Nat) : Word :=
  w32 ((s.msix[p].pba.filter fun e => e.2 && e.1 / 32 == off / 4).map fun e => 2 ^ (e.1 % 32)).sum

/-- The MSI-X region that a page number names for a requester (R48, R57): port, and whether it is the PBA. -/
def msixPage (r : Req) (page : Nat) : Option (Port × Bool) :=
  match reqPort r with
  | some p => if page = 0x90 then some (p, false) else if page = 0x91 then some (p, true) else none
  | none => if 0x90 ≤ page ∧ page < 0x98 then some (⟨(page - 0x90) / 2 % 4, by omega⟩, page % 2 == 1) else none

/-- The header register and bit behind an alias address (R41), if its page is a register page. -/
def aliasTarget (addr : Nat) : Option (PageKind × Nat × Nat) :=
  let a := addr - 0x80000
  (pageKind (a / 0x400)).map fun k => (k, a % 0x400 / 128 * 4, a % 128 / 4)

/-- A read of BAR0 at a word address (R9 to R12, R41, R42, R47, R48, R57). Nothing when an indirect read waits. -/
def bar0Read (r : Req) (addr : Nat) (s : State) : Option (Word × State) :=
  let a := addr / 4 * 4
  let page := a / 0x1000
  let raw := a % 0x1000
  if 0x34 ≤ page ∧ page < 0x38 then some (holdRead r (a - 0x34000) s)
  else if 0x80 ≤ page ∧ page < 0x90 then
    match aliasTarget a with
    | some (k, off, b) => some (w32 (bnat (bitAt (regWord s r k off) b)), s)
    | none => some (0, s)
  else
    match msixPage r page with
    | some (p, false) => some (msixTableWord s p raw, s)
    | some (p, true) =>
      if raw < 0x20 then some (msixPbaWord s p raw, s) else pageRead r .glb page (foldOff raw) raw s
    | none =>
      match pageKind page with
      | some k => pageRead r k page (foldOff raw) raw s
      | none => pageRead r .glb page (foldOff raw) raw s

/-- Whether a channel in its state may read a BAR0 address (Table 5.3). -/
def mayRead (s : State) (p : Port) (addr : Nat) : Bool :=
  s.ch[p].st.inService ||
    [0x00, 0x0C, 0x08 + p.val, 0x90, 0x91].contains (addr / 0x1000)

/-- Requests reach a port: its link is up. -/
def portOpen (s : State) (p : Port) : Bool := s.port[p].dlUp
/-- The memory BARs of a port respond: Memory Space Enable, D0, and the channel ports open (R94, R118, Table 13.10). -/
def barOn (s : State) (p : Port) : Bool := memEn s p && !d3hot s p && s.pwr.boot == .opened

/-- A non-posted request is held (R98). -/
def holdTag (p : Port) (tag : Nat) (h : Hdr) (s : State) : State := modPort p (fun q => { q with np := ⟨tag, h⟩ :: q.np }) s
/-- A port has a credit for a further non-posted request (R96, R98). -/
def npRoom (s : State) (p : Port) : Bool := decide (s.port[p].np.length < 128)
/-- A port has the credits for a further posted request with `n` data bytes (R96). -/
def postedRoom (s : State) (p : Port) (n : Nat) : Bool :=
  decide ((creditsHeld s p).1 < 256) && decide ((creditsHeld s p).2 + (n + 15) / 16 ≤ 2048)

/-- A read the table refuses ends with Completer Abort and STALE_EPOCH (R128); a FENCED channel's port is told (R345). -/
def refusedRead (p : Port) (tag : Nat) (s : State) : State := refusedVector p (portFlag p 4 (completeCa p tag s))

end Sys2Proof.Machine
end

