-- ==== Sys2Proof/Machine/RegWrite.lean ====
section
/-!
DEFINITION. What a register write does: rights (R16, Table 5.3), guarded sequences (R28 to R31), voted writes (R32 to R36,
R142), shadows, classes (R22, R23), the 64-bit registers (R43), IND_DATA, the bit aliases (R41, R42) and the arrays of R12.
-/

namespace Sys2Proof.Machine

open Sys2Proof

/-! Vote commands (R129, R147) -/

/-- FENCE_CMD naming a channel takes effect (R147). -/
def fenceCmdOp (c : Port) (s : State) : State :=
  if s.ch[c].st.inService then pump (fence c false s) else raise 62 s

/-- FENCE_CMD as a register: GO in [8], CH in [1:0]. -/
def fenceWrite (v : Word) (s : State) : State :=
  if bitAt v 8 then fenceCmdOp ⟨fieldOf v 1 0 % 4, by omega⟩ s else s

/-- MODE_CMD AUTO takes effect (R129 rule 5). -/
def modeAuto (s : State) : State := if s.vot.mode == .m1oo1 then pump (endOne s) else s

/-- MODE_CMD SELECT_1OO1 of channel `c` takes effect, or is refused (R129 rule 4). -/
def modeSelect (c : Port) (s : State) : State :=
  if s.lcc.st == .maintenance && s.lcc.presence && s.ch[c].st == .active then
    let s1 := ((activeChs s).filter fun d => d != c).foldl (fun s d => setChState d .ready s) s
    pump (settleChannels (setMode .m1oo1 { s1 with vot := { s1.vot with oneCh := c } }))
  else raise 62 s

/-- MODE_CMD as a register: CMD in [1:0], CH in [5:4] (R129 rule 6). -/
def modeWrite (v : Word) (s : State) : State :=
  let c := fieldOf v 1 0
  if c = 0 then s else if c = 1 then modeAuto s
  else if c = 2 then modeSelect ⟨fieldOf v 5 4 % 4, by omega⟩ s else raise 62 s

/-! The maintenance mailbox (R58) -/

/-- The mailbox access is refused or fails at once. -/
def legRefuse (code : Nat) (s : State) : State := raise 245 (putFld .mnt 0x068 7 4 code (putFld .mnt 0x068 2 2 1 s))

/-- Bytes of the mailbox access, from LEG_CMD.SIZE. -/
def legSize (v : Word) : Nat := 2 ^ fieldOf v 18 16

/-- The mailbox access starts: LEG_STAT.BUSY. -/
def legBusy (write : Bool) (s : State) : State :=
  putFld .mnt 0x068 0 0 1 { s with mnt := { s.mnt with legRun := true, legRead := !write, legEnd := none } }

/-- The mailbox's access as a packet of VOT_RD, still without cells (R6, R58, R164; DESIGN CHOICE, log entry 21). -/
def legPkt (write : Bool) (idx e off n : Nat) (data : List Byte) : Pkt :=
  { owner := 4, cells := [], eop := true, epoch := 0, cy := 0, src := 4, pat := idx, off := off, len := n, aux := 0,
    data := if write then data else [], en := List.replicate n true, isRead := !write, trunc := false, cont := false, poison := false,
    sent := 0, patE := e, origin := .mailbox }

/-- LEG_CMD.GO (R58): the checks, then the access on its segment or over the ring. -/
def legGo (v : Word) (s0 : State) : State :=
  if s0.mnt.legRun then putFld .mnt 0x068 7 4 5 (putFld .mnt 0x068 2 2 1 s0)
  else
    let write := bitAt v 30
    let idx := fieldOf v 15 0
    let n := legSize v
    let off := getFld s0 .mnt 0x054 11 0
    let e := patEntry s0.lom.act idx
    let p := patOf e
    let data := (bytesLE 4 (getReg s0 .mnt 0x058).toNat ++ bytesLE 4 (getReg s0 .mnt 0x05C).toNat).take n
    let s := fetchPat idx s0
    if 3 < fieldOf v 18 16 ∨ fetchBad s0 idx = true ∨ accessRefused p write off n = true ∨ nodeRefused s0 e write off n = true then
      legRefuse 4 s
    else if !lcOpen s && (write || !p.idem) then legRefuse 3 s
    else
      match localPat s e with
      | some le =>
        let q := patOf le
        if q.kind == .rmw && !write then
          let s1 := legBusy write s
          { s1 with mnt := { s1.mnt with legEnd := some (false, 0, imgBytes s (q.recOff * 8 + 8) n) } }
        else
          let s1 := legBusy write s
          pump { s1 with mnt := { s1.mnt with leg := some (legPkt write idx le off n data) } }
      | none =>
        if isMember s p.node then
          let s1 := legBusy write s
          pump { s1 with mnt := { s1.mnt with leg := some (legPkt write idx e off n data) } }
        else legRefuse 6 s

/-- LEG_DONE (R58): the mailbox access has ended; LEG_STAT and the read data show it. -/
def legDoneOp (s : State) : State :=
  match s.mnt.legEnd with
  | some (failed, code, bs) =>
    let s1 := putFld .mnt 0x068 0 0 0 { s with mnt := { s.mnt with legRun := false, legEnd := none } }
    if failed then legRefuse code s1
    else
      let s2 := putFld .mnt 0x068 7 4 0 (putFld .mnt 0x068 1 1 1 s1)
      let s3 := if s.mnt.legRead then
          setReg .mnt 0x064 (w32 (natLE (bs.drop 4))) (setReg .mnt 0x060 (w32 (natLE (bs.take 4))) s2)
        else s2
      raise 244 s3
  | none => s

/-! Snapshot and event acknowledgement (R21, R44, R346) -/

/-- GLB.SNAP (R44). -/
def snapOp (go clear : Bool) (s : State) : State :=
  if !go then s
  else
    let held := (s.evh.cnt.filter fun e => decide (e.1 < 256)) ++ s.evh.sc.map fun e => (256 + e.1, e.2)
    let s1 := setReg .glb 0x074 (timeSec s) (setReg .glb 0x070 (timeFrac s) (incReg .glb 0x06C 1 s))
    { s1 with evh := { s1.evh with held := held, sc := if clear then [] else s1.evh.sc } }

/-- SEQ of a page as an acknowledgement compares it: an occurrence that this command has already raised advances it first (R24). -/
def ackSeq (k : PageKind) (s : State) : Nat :=
  let now := s.evh.occ.any fun o => match eventPage o.ev with | some (k2, _) => k2 == k | none => false
  (fieldOf (mget 0 s.evh.event k.num) 31 24 + bnat now) % 256

/-- EVENT_ACK (R21, R24): the masked bits clear when SEQ matches, and their pending interrupter levels end (R346). -/
def eventAckOp (k : PageKind) (w : Word) (s : State) : State :=
  let e := mget 0 s.evh.event k.num
  if ackSeq k s = fieldOf w 31 24 then
    let gone := fieldOf e 23 0 &&& fieldOf w 23 0
    { s with evh := { s.evh with
      event := mset 0 k.num (e &&& ~~~ w32 gone) s.evh.event,
      levels := s.evh.levels.filter fun l =>
        match eventPage l.2.2 with | some (k2, b) => !(k2 == k && bitsOf gone b b == 1) | none => true } }
  else putFld k 0x008 31 31 1 s

/-! Indirect writes (R25, R356, R403, R410) -/

/-- A write of IND_DATA: nothing when the access waits for a gated clock. -/
def indWrite (r : Req) (k : PageKind) (page off : Nat) (d : Word) (s : State) : State :=
  let a := indAddr s r k
  let space := fieldOf a 27 24
  let w := fieldOf a 23 0
  match indLen k space with
  | none => indError r k page off d s
  | some n =>
    if !indRuns s k space || streamHeld s r k space then s
    else if k == .evh && space == 1 then
      if decide (w < n) && (r.val == 4 || w / 2 == r.val) then
        let v := if w % 2 = 0 then d &&& 0xFFFFE001#32 else d
        indAdvance r k { s with evh := { s.evh with replBase := mset 0 w v s.evh.replBase } }
      else capture k 1 r.val page off d s
    else if k == .alm && space == 1 then
      let (ok, s1) := streamWord r w d s
      if ok then indAdvance r k s1 else capture k 1 r.val page off d s1
    else capture k 1 r.val page off d s

/-! Plain writes by class -/

/-- The bits of a register that a write of its stored fields takes. -/
def writable (k : PageKind) (off : Nat) : Nat :=
  fieldMask (fun f => !f.home && (f.cls == .rw || f.cls == .rwc || f.cls == .rws || f.cls == .ptr)) (regFields k off)

/-- Store the writable bits of a register (R17: reserved bits are ignored). -/
def storeReg (k : PageKind) (off : Nat) (d : Word) (s : State) : State :=
  let m := w32 (writable k off)
  setReg k off ((getReg s k off &&& ~~~ m) ||| (d &&& m)) s

/-- The bits of the SH fields of a register. -/
def shMask (k : PageKind) (off : Nat) : Nat := fieldMask (fun f => f.sh) (regFields k off)
/-- A register holds a G field (R28). -/
def hasG (k : PageKind) (off : Nat) : Bool := (regFields k off).any (·.g)
/-- A register holds a V field (R32). -/
def hasV (k : PageKind) (off : Nat) : Bool := (regFields k off).any (·.v)
/-- A register holds an SH field (R37). -/
def hasSH (k : PageKind) (off : Nat) : Bool := (regFields k off).any (·.sh)

/-- The low word of a 64-bit register is held; the high word applies both (R43). -/
def writeWide (r : Req) (k : PageKind) (lo : Nat) (high : Bool) (cur d : Word) (apply : DWord → State → State) (s : State) : State :=
  let key := regAddr k lo
  if high then
    let l := (mfind s.bus.req[r].loHeld key).getD cur
    apply (BitVec.ofNat 64 (l.toNat + d.toNat * 2 ^ 32)) (modReq r (fun q => { q with loHeld := merase key q.loHeld }) s)
  else modReq r (fun q => { q with loHeld := minsert key d q.loHeld }) s

/-- Both words of a stored 64-bit register. -/
def storeWide (k : PageKind) (lo : Nat) (v : DWord) (s : State) : State :=
  storeReg k (lo + 4) (w32 (v.toNat / 2 ^ 32)) (storeReg k lo (w32 (v.toNat % 2 ^ 32)) s)

/-- LOG_HIGH sets when LOG_WR − LOG_RD reaches 7,168 (R349). -/
def logHigh (was : Nat) (s : State) : State :=
  raiseIf (was != 7168 && (s.evh.logWr - s.evh.logRd).toNat == 7168) 226 s
/-- LOG_WR − LOG_RD. -/
def logGap (s : State) : Nat := (s.evh.logWr - s.evh.logRd).toNat

/-- A DROP meets a packet whose end is not linked yet: the cells that are filled stay with the packet that ends, the others wait for the
bytes still to come (R208). -/
def splitDrop (q : Nat) (p : Pkt) (s : State) : State :=
  let n := p.data.length / 64
  let e := getQ s.crl q
  { s with crl := setQ q { e with
    pkts := { p with cells := p.cells.take n } :: e.pkts.drop 1,
    dropping := some { p with cells := p.cells.drop n, sent := n } } s.crl }

/-- The operation of a request that has not left fails: a read's outcome, the mailbox's; of a write its source sees nothing (R81). -/
def failRequest (p : Pkt) (s : State) : State :=
  match remOf s p.aux with
  | some r => if p.isRead || p.origin == .mailbox then remoteOutcome r true [] s else dropRem p.aux s
  | none => s

/-- A DROP ends the head packet of a list (R208): its cells go, its access fails. -/
def dropPkt (q : Nat) (s : State) : State :=
  match listPkts s q with
  | [] => s
  | p :: _ =>
    let s1 := if p.eop then s else splitDrop q p s
    let s2 :=
      if 8 ≤ q ∧ q < 14 then failHead ⟨q % 2, by omega⟩ q s1
      else if q = 20 then failRequest p (popPkt q s1)
      else popPkt q { s1 with crl := { s1.crl with popped := 0 } }
    raiseIf p.eop 121 s2

/-- Q_CMD (R208): accepted from the maintenance port in COMMISSIONING and MAINTENANCE, for lists 8 to 13, 18 and 20. -/
def qCmdOp (r : Req) (page off : Nat) (d : Word) (s : State) : State :=
  let q := fieldOf d 5 0
  if r.val = 4 ∧ lcOpen s = true ∧ ((8 ≤ q ∧ q < 14) ∨ q = 18 ∨ q = 20) then
    (if bitAt d 8 then pump (dropPkt q (useList q s)) else s)
  else capture .crl 1 r.val page off d s

/-- A write to LOCK, of the value `bit` by a write with data `d` (R23). -/
def lockOp (r : Req) (k : PageKind) (page off : Nat) (bit : Bool) (d : Word) (s : State) : State :=
  if getFld s k 0x018 0 0 = 1 then capture k 1 r.val page off d s
  else if bit then putFld k 0x018 0 0 1 s else s

/-- With CRL.CTRL.IACK_REG at 0 the event hub takes the packets of the IACK queue, each one occurrence of IACK_DONE of its
segment (R209, R347). -/
def iackDrain (s : State) : State :=
  (listPkts s 18).foldl (fun s p =>
    raiseD (segEv ⟨(p.src - 5) % 2, by omega⟩ 10) (w32 p.aux) (wordLE p.data)
      (nextCycle (popPkt 18 { s with crl := { s.crl with popped := 0 } }))) s

/-- A header register is written. -/
def headerWrite (r : Req) (k : PageKind) (page off raw : Nat) (d : Word) (s : State) : State :=
  if off = 0x010 then eventAckOp k d s
  else if off = 0x018 then lockOp r k page raw (bitAt d 0) d s
  else if off = 0x020 then
    modReq r (fun q => { q with indAddr := mset 0 k.num (d &&& 0x8FFFFFFF#32) q.indAddr }) s
  else if off = 0x024 then indWrite r k page raw d s
  else if off = 0x02C then
    modReq r (fun q => { q with guardStat := mset 0 k.num (setFieldOf (mget 0 q.guardStat k.num) 1 1 (fieldOf d 1 1)) q.guardStat }) s
  else if off = 0x008 ∧ k = .mer then
    storeReg k off d { s with evh := { s.evh with capOvr := bitAt d 1 } }
  else if off = 0x014 then storeReg k off d (pinRoutes s s)
  else if off = 0x004 ∧ k = .lom then (if bitAt d 0 then setReg .lom 0x068 0 s else s)
  else if off = 0x004 ∧ k = .mer then (if bitAt d 0 then { s with mer := { s.mer with devMax := 0 } } else s)
  else if off = 0x004 ∧ k = .crl ∧ bitAt d 0 = false then iackDrain (storeReg k off d s)
  else storeReg k off d s

/-- SC_OVF and EC_OVF: a written 0 clears, a written 1 leaves the bit (R420). -/
def ovfWrite (off : Nat) (d : Word) (s : State) : State :=
  if off = 0x044 then { s with evh := { s.evh with scOvf := s.evh.scOvf &&& d } }
  else
    let j := (off - 0x050) / 4
    { s with evh := { s.evh with ecOvf := mset 0 j (mget 0 s.evh.ecOvf j &&& d) s.evh.ecOvf } }

/-- The selector of an SH register that stands once per queue or event (R221, R355). -/
def shIdx (s : State) (r : Req) (k : PageKind) : Nat :=
  match k with
  | .crl => s.bus.req[r].qSel
  | .evh => s.bus.req[r].routeSel
  | _ => 0

/-- A block register without G and V fields is written. -/
def blockWrite (r : Req) (k : PageKind) (page off raw : Nat) (d : Word) (s : State) : State :=
  match k with
  | .glb =>
    if off = 0x060 then updateOp d s else if off = 0x068 then snapOp (bitAt d 0) (bitAt d 1) s else s
  | .pwr => if off = 0x048 then { s with pwr := { s.pwr with wakeBits := fieldOf d 6 0 } } else s
  | .lcc => if off = 0x04C then { s with lcc := { s.lcc with failSeen := bitAt d 3 } } else s
  | .cp _ =>
    if off = 0x050 ∨ off = 0x054 then writeWide r k 0x050 (off == 0x054) (getReg s k 0x050) d (storeWide k 0x050) s
    else storeReg k off d s
  | .ls g =>
    if off = 0x068 then irqGenWrite g d s
    else if hasSH k off then writeShadow k off 0 (d &&& w32 (shMask k off)) s else storeReg k off d s
  | .crl =>
    if off = 0x044 then modReq r (fun q => { q with qSel := fieldOf d 5 0 }) s
    else if off = 0x048 then
      let q := s.bus.req[r].qSel
      { s with crl := setQ q { getQ s.crl q with underrun := bitAt d 31 } s.crl }
    else if off = 0x05C then qCmdOp r page raw d s
    else if off ≠ 0x054 ∧ !owningQueues.contains s.bus.req[r].qSel then s
    else if hasSH k off then writeShadow k off (shIdx s r k) (d &&& w32 (shMask k off)) s
    else s
  | .arb => if off = 0x058 then { s with crl := { s.crl with prioShadow := d &&& w32 (shMask k off) } } else storeReg k off d s
  | .lom => if off = 0x05C then checkCmd r raw d s else s
  | .img =>
    if off = 0x044 then
      match reqPort r with
      | some c => retryFreezes (treatFreeze c d s)
      | none => capture .img 1 4 page raw d s
    else storeReg k off d s
  | .evh =>
    if off = 0x040 then modReq r (fun q => { q with routeSel := fieldOf d 7 0 }) s
    else if off = 0x044 then writeShadow k off (shIdx s r k) (d &&& w32 (shMask k off)) s
    else if off = 0x048 then
      (if r.val = 4 ∧ lcOpen s = true then logHigh (logGap s) { s with evh := { s.evh with logWr := d } }
       else capture .evh 1 r.val page raw d s)
    else if off = 0x04C then logHigh (logGap s) { s with evh := { s.evh with logRd := d } }
    else storeReg k off d s
  | .cnt =>
    if off = 0x044 ∨ (0x050 ≤ off ∧ off < 0x070) then ovfWrite off d s
    else if 0x0C0 ≤ off ∧ off < 0x140 then
      let i := (off - 0x0C0) / 8
      writeWide r k (off / 8 * 8) (off % 8 == 4) (w32 (cntWord (mget 0 s.evh.sc i) false)) d
        (fun v s => writeSc i v.toNat s) s
    else storeReg k off d (sampleNow s)
  | .mnt =>
    if off = 0x050 then
      let s1 := storeReg k off d s
      if bitAt d 31 then legGo d s1 else s1
    else if off = 0x058 ∨ off = 0x05C then
      writeWide r k 0x058 (off == 0x05C) (getReg s k 0x058) d (storeWide k 0x058) s
    else storeReg k off d s
  | .clk | .rg _ | .rng =>
    if hasSH k off then writeShadow k off 0 (d &&& w32 (shMask k off)) s else storeReg k off d s
  | _ => storeReg k off d s

/-! Voted writes (R32 to R36, R142 to R144, R271) -/

/-- A V register takes a value in effect (R33, R36). `r` is the requester reported by a refusal. -/
def voteEffect (r : Nat) (k : PageKind) (off raw : Nat) (v : DWord) (s : State) : State :=
  let w : Word := v.setWidth 32
  match k with
  | .pwr => if off = 0x044 then pcmdWrite r raw w s else storeReg k off w s
  | .vot =>
    if off = 0x044 then modeWrite w s else if off = 0x060 then fenceWrite w s
    else if off = 0x058 then pump (settleChannels (storeReg k off w s)) else storeReg k off w s
  | .lom => if off = 0x050 then armWrite w s else storeReg k off w s
  | .img => if off = 0x058 then restartWrite w s else if off = 0x04C then raise 74 s else storeReg k off w s
  | .rng => if off = 0x050 then ringCmdWrite w s else s
  | .mer => if off = 0x054 then storeWide k 0x054 v s else if off = 0x05C then epochOp w s else s
  | _ => storeReg k off w s

/-- Key of a voted write: page and folded offset (R32). -/
def voteKey (k : PageKind) (off : Nat) : Nat := k.num * 4096 + off

/-- A commit of `n` or of a later controller cycle has taken effect (R144). -/
def commitReached (s : State) (n : Word) : Bool :=
  match s.vot.last with
  | some ci => decide (cycDist n ci.n < 2 ^ 31)
  | none => false

/-- The first write of `n` to IMG.COMMIT from an ACTIVE channel starts CWIN (R144). -/
def commitAttempt (c : Port) (n : Word) (s : State) : State :=
  if s.ch[c].st == .active && !s.vot.attempts.contains n && !commitReached s n then
    { s with vot := { s.vot with attempts := s.vot.attempts ++ [n] } }
  else s

/-- A comparison of the channel's copy of `n` is still to come (R145, R149, R278). -/
def copyCounts (s : State) (c : Port) (n : Word) : Bool :=
  match s.vot.last with
  | some ci =>
    if ci.n = n then
      ci.digestValid && !(c == ci.first || c == ci.second || (s.ch[c].st == .active && ci.thirdDone) || s.ch[c].cmpOf == some n)
    else !commitReached s n
  | none => true

/-- STG_BUSY sets (R271). -/
def stgBusySet (c : Port) (s : State) : State :=
  { s with img := { s.img with stgBusy := s.img.stgBusy.filter (· != c.val) ++ [c.val] } }

/-- A channel's write of `n` to IMG.COMMIT is noted for the comparisons and for R144 (R143, R145, R149, R153, R271). -/
def commitSeen (c : Port) (n : Word) (s : State) : State :=
  let s1 := commitAttempt c n s
  if copyCounts s c n then stgBusySet c (modCh c (fun x => { x with copyOf := some n, opsSince := 0 }) s1) else s1

/-- A write of IMG.COMMIT is held (R32, R271). -/
def commitHeld (c : Port) (n : Word) (s : State) : State := stgBusySet c (commitSeen c n s)

/-- Drop the entry of a key from a channel's table. -/
def dropEntry (c : Port) (key : Nat) (s : State) : State :=
  { s with bus := { s.bus with voted := s.bus.voted.set c (s.bus.voted[c].filter fun e => e.key != key) } }

/-- A voted write of the channels `d`, the earlier, and `c` takes effect. -/
def voteTake (d c : Port) (kd kc : Word) (k : PageKind) (off raw : Nat) (v : DWord) (s : State) : State :=
  if k = .img ∧ off = 0x04C then pump (commitOp (v.setWidth 32) d c kd kc s) else voteEffect c.val k off raw v s

/-- The value in effect while the window of R142 of a key is open. -/
def recentOf (s : State) (key : Nat) : Option DWord := (s.bus.recent.find? fun e => e.1 == key).map (·.2)

/-- A value of a V register takes effect: the window of R142 opens. -/
def noteRecent (key : Nat) (v : DWord) (s : State) : State :=
  { s with bus := { s.bus with recent := s.bus.recent.filter (fun x => x.1 != key) ++ [(key, v)] } }

/-- A write of a V field by an ACTIVE channel (R32 to R34, R142, R271). -/
def voteIn (c : Port) (k : PageKind) (off raw : Nat) (d : Word) (v : DWord) (s : State) : State :=
  let key := voteKey k off
  let kc := s.ch[c].k
  let commit := k == .img && off == 0x04C
  let seen (s : State) : State := if commit then commitSeen c (v.setWidth 32) s else s
  if s.vot.mode == .m1oo1 then voteTake c c kc kc k off raw v (seen s)
  else if recentOf s key = some v then
    let s1 := dropEntry c key (seen s)
    if commit then releaseStg s1 c else s1
  else
    let s := raiseIf (recentOf s key).isSome 60 s
    let other := (activeChs s).findSome? fun d =>
      if d == c then none else (s.bus.voted[d].find? fun e => e.key == key && e.value == v && e.epoch == s.ch[d].epoch).map fun e => (d, e)
    match other with
    | some (o, e) => voteTake o c e.k kc k off raw v (noteRecent key v (dropEntry c key (dropEntry o key (seen s))))
    | none =>
      let old := s.bus.voted[c].filter fun e => e.key != key
      if old.length < 16 then
        { (if commit then commitHeld c (v.setWidth 32) s else s) with
          bus := { s.bus with voted := s.bus.voted.set c (old ++ [⟨key, v, kc, s.ch[c].epoch⟩]) } }
      else capture k 5 c.val k.num raw d s

/-- VOTED_ENTRY_EXPIRE (R32, R142, R271): the held entry of a channel has lived VWIN, or the window after a voted write has. -/
def voteExpire (c : Port) (k : PageKind) (off : Nat) (s : State) : State :=
  let key := voteKey k off
  if s.bus.voted[c].any fun e => e.key == key then
    let s1 := dropEntry c key s
    if k = .img ∧ off = 0x04C then (if s.ch[c].copyOf = s.vot.last.map (·.n) then releaseStg s1 c else dropCopy s1 c) else s1
  else { s with bus := { s.bus with recent := s.bus.recent.filter fun e => e.1 != key } }

/-- A write of an ABSENT or FENCED channel is dropped; its port flags STALE_EPOCH (R128, R345, Table 4.8). -/
def dropWrite (c : Port) (s : State) : State := refusedVector c (portFlag c 4 (staleDrop true s))

/-- A V register has taken a value past the vote, by the maintenance port: while the window after a voted write is open, the value in effect is
this one (R35, R36, R142). -/
def overRecent (key : Nat) (v : DWord) (s : State) : State :=
  if (recentOf s key).isSome then noteRecent key v s else s

/-- A write of a V field arrives, whole and guarded if the field asks for it (R31, R35, R36, R142, R149, R323). -/
def voteArrive (r : Req) (k : PageKind) (off raw : Nat) (d : Word) (v : DWord) (s : State) : State :=
  match reqPort r with
  | none => if lcOpen s then voteEffect 4 k off raw v (overRecent (voteKey k off) v s) else capture k 4 4 k.num raw d s
  | some c =>
    match s.ch[c].st with
    | .active => voteIn c k off raw d v s
    | .ready | .observer => if k = .img ∧ off = 0x04C then commitSeen c (v.setWidth 32) s else s
    | .absent | .fenced => dropWrite c s

/-- The words of EPOCH_SET pair before they are voted (R323); any other V register is one word. -/
def voteWord (r : Req) (k : PageKind) (off raw : Nat) (d : Word) (s : State) : State :=
  if k = .mer ∧ (off = 0x054 ∨ off = 0x058) then
    writeWide r k 0x054 (off == 0x058) (getReg s k 0x054) d (fun v s => voteArrive r k 0x054 raw d v s) s
  else voteArrive r k off raw d (d.setWidth 64) s

/-! Guarded sequences (R28 to R31) -/

/-- A guarded write without V completes (R31). -/
def guardEffect (r : Req) (k : PageKind) (off raw : Nat) (d : Word) (s : State) : State :=
  match k with
  | .lcc => lcCommand r raw d s
  | .cp p => if bitAt d 0 then rejoinOp p s else s
  | .frc => frcCmd d s
  | .arb => arbCommitOp d s
  | .lom => loadCmd r raw d s
  | .alm =>
    let op := fieldOf d 3 0
    if op = 0 then s else if op = 6 then (if s.pwr.st = .run then abortOp r s else refuseOp 6 4 s) else if op < 6 then startOp r op s else refuseOp op 5 s
  | _ => if hasSH k off then writeShadow k off (shIdx s r k) (d &&& w32 (shMask k off)) s else storeReg k off d s

/-- A guarded sequence fails (R29): reason, page number and offset of the access, data. With nothing held, OFFSET stays that of the
last failed register (Table 2.8). -/
def guardFail (r : Req) (k : PageKind) (why page off : Nat) (d : Word) (s : State) : State :=
  let o := match heldIn s r k with | some h => h.off | none => fieldOf (mget 0 s.bus.req[r].guardStat k.num) 15 4
  let w := w32 (o * 16 + why * 4 + 2)
  capture k 2 r.val page off d (modReq r (fun q => { q with
    guards := merase k.num q.guards, guardStat := mset 0 k.num w q.guardStat }) s)

/-- A value write to a register with G fields is held (R28), with its offset as issued (DESIGN CHOICE, log entry 54: Table 2.8 does not
say whether GUARD_STAT.OFFSET is folded). -/
def guardHold (r : Req) (k : PageKind) (raw : Nat) (d : Word) (s : State) : State :=
  modReq r (fun q => { q with guards := minsert k.num ⟨raw, d⟩ q.guards }) s

/-- A page offset folded by R9, of a held write. -/
def Held.folded (h : Held) : Nat := foldOff h.off

/-- A write of GUARD (R28, R29). -/
def guardOp (r : Req) (k : PageKind) (page raw : Nat) (d : Word) (s : State) : State :=
  match heldIn s r k with
  | none => guardFail r k 3 page raw d s
  | some h =>
    if d = ~~~ h.value then
      let s1 := modReq r (fun q => { q with guards := merase k.num q.guards }) s
      if hasV k h.folded then voteWord r k h.folded h.off h.value s1 else guardEffect r k h.folded h.off h.value s1
    else guardFail r k 0 page raw d s

/-- GUARD_TIMEOUT (R29): 160 ns have passed. -/
def guardTimeoutOp (r : Req) (k : PageKind) (s : State) : State :=
  match heldIn s r k with
  | some h => guardFail r k 1 k.num h.off h.value s
  | none => s

/-! A write of a register page -/

/-- What Table 5.3 says of a channel's BAR0 write. -/
inductive Right where
  | yes | ignored | dropped
  deriving DecidableEq, Repr

/-- Table 5.3 for a write of channel `c` to a register (R128). -/
def writeRight (s : State) (c : Port) (k : PageKind) (off : Nat) : Right :=
  let own := k == .cp c
  match s.ch[c].st with
  | .active => .yes
  | .ready | .observer =>
    if own || off == 0x020 || (k == .img && (off == 0x044 || off == 0x04C)) then .yes else .ignored
  | .absent | .fenced => if own && [0x010, 0x014, 0x068, 0x028, 0x06C].contains off then .yes else .dropped

/-- A write other than GUARD ends a held guarded sequence of its page with a failure (R29). -/
def breakGuard (r : Req) (k : PageKind) (page off : Nat) (s : State) : State :=
  match heldIn s r k with
  | some h => if off = 0x028 then s else guardFail r k 2 page h.off h.value s
  | none => s

/-- A write to a register page, past the rights: the guard rules, then the class (R28, R30). A write of ERRLOG0 or GUARD_STAT that
breaks a sequence clears first, so that the failure it causes is kept (R20, R24). -/
def regWrite (r : Req) (k : PageKind) (page off raw : Nat) (d : Word) (s : State) : State :=
  if off = 0x030 ∨ off = 0x02C then breakGuard r k page off (headerWrite r k page off raw d s) else
  let s := breakGuard r k page off s
  if regFields k off = [] then s
  else if off = 0x028 then guardOp r k page raw d s
  else if hasG k off then guardHold r k raw d s
  else if hasV k off then voteWord r k off raw d s
  else if off < 0x040 then headerWrite r k page off raw d s
  else blockWrite r k page off raw d s

/-- R16 reserves the page's writes: another port's CP page, the MNT page, and the user page (R417). -/
def pageRefused (r : Req) (k : PageKind) : Bool :=
  k == .cntu || (match reqPort r with
    | some c => k == .mnt || (match k with | .cp n => n != c | _ => false)
    | none => false)

/-- A write of a register by a requester, with the rights of Table 5.3, R16 and the byte enables of R13. -/
def pageWrite (r : Req) (k : PageKind) (page raw : Nat) (full : Bool) (d : Word) (s : State) : State :=
  let off := foldOff raw
  let go (s : State) : State :=
    if pageRefused r k then capture k 1 r.val page raw d s
    else if !full then capture k 7 r.val page raw d s
    else regWrite r k page off raw d s
  match reqPort r with
  | none => go s
  | some c =>
    match writeRight s c k off with
    | .yes => go s
    | .ignored => s
    | .dropped => dropWrite c s

/-- A write that reaches no register page (R11, R42). -/
def unassigned (r : Req) (page raw : Nat) (d : Word) (s : State) : State :=
  capture .glb 6 r.val page raw d (raise 2 (incReg .glb 0x078 1 s))

/-- An alias write changes one bit of a header register, by the class of its field (R42). -/
def aliasOp (r : Req) (k : PageKind) (off b page raw : Nat) (bit : Bool) (d : Word) (s : State) : State :=
  let f := (regFields k off).find? fun f => decide (f.lo ≤ b) && decide (b ≤ f.hi)
  match f with
  | none => s
  | some f =>
    if f.cls == .ro || f.cls == .wo || f.cls == .ev then s
    else if f.g || f.v then capture k 1 r.val page raw d s
    else if f.cls == .w1 then lockOp r k page raw bit d s
    else headerWrite r k page off raw (setFieldOf (regWord s r k off) b b (bnat bit)) s

/-- A write of the bit-alias region: the page and offset it was made at, and the header register and bit behind it. -/
def aliasAt (r : Req) (page raw : Nat) (target : Option (PageKind × Nat × Nat)) (d : Word) (s : State) : State :=
  match target with
  | none =>
    (match reqPort r with
     | some c =>
       (match s.ch[c].st with
        | .active => unassigned r page raw d s
        | .ready | .observer => s
        | .absent | .fenced => dropWrite c s)
     | none => unassigned r page raw d s)
  | some (k, off, b) =>
    let go (s : State) : State :=
      if pageRefused r k then capture k 1 r.val page raw d s else aliasOp r k off b page raw (bitAt d 0) d s
    match reqPort r with
    | none => go s
    | some c =>
      match writeRight s c k off with
      | .yes => go s
      | .ignored => s
      | .dropped => dropWrite c s

/-- A write of the bit-alias region. -/
def aliasWrite (r : Req) (a : Nat) (d : Word) (s : State) : State :=
  aliasAt r (a / 0x1000) (a % 0x1000) (aliasTarget a) d s

/-- A word of the MSI-X table of a port is written; messages that now may leave do (R110). -/
def msixTableWrite (p : Port) (off : Nat) (d : Word) (s : State) : State :=
  let j := off / 4 % 4
  let v := if j = 0 then d &&& 0xFFFFFFFC#32 else if j = 3 then d &&& 1 else d
  msixFlush p (modMsix p (fun m => { m with table := mset (if j = 3 then 1 else 0) (off / 4) v m.table }) s)

/-- The arrays of R12 that software cannot write, and partial writes to any array (R12, R13, R47). -/
def inArray (r : Req) (page raw : Nat) : Bool :=
  (decide (0x34 ≤ page) && decide (page < 0x38)) || (decide (0x80 ≤ page) && decide (page < 0x90)) ||
    (match msixPage r page with | some (_, pba) => !pba || decide (raw < 0x20) | none => false)

/-- Table 5.3 for a channel's write to a place without a register of its own: `own` is its own MSI-X table. -/
def arrayRight (s : State) (r : Req) (own : Bool) (f : State → State) : State :=
  match reqPort r with
  | none => f s
  | some c =>
    match s.ch[c].st with
    | .active => f s
    | .ready | .observer => if own then f s else s
    | .absent | .fenced => if own then f s else dropWrite c s

/-- A write of BAR0 at a word address, past the port: every byte enabled when `full` (R9 to R13, R16). -/
def bar0Word (r : Req) (addr : Nat) (full : Bool) (d : Word) (s : State) : State :=
  let a := addr / 4 * 4
  let page := a / 0x1000
  let raw := a % 0x1000
  if inArray r page raw then
    let own := match msixPage r page with | some (_, pba) => !pba | none => false
    if !full then arrayRight s r own (capture .glb 7 r.val page raw d)
    else if 0x80 ≤ page ∧ page < 0x90 then aliasWrite r a d s
    else
      match msixPage r page with
      | some (p, false) => msixTableWrite p raw d s
      | _ => arrayRight s r false (fun s => s)
  else
    match pageKind page with
    | some k => pageWrite r k page raw full d s
    | none => arrayRight s r false (unassigned r page raw d)

end Sys2Proof.Machine
end

