-- ==== Sys2Proof/Machine/Bar.lean ====
section
/-!
DEFINITION. BAR2 and BAR4 of a channel port: the image and the tables (R49, R50, R244, R246, R259, R274, Table 2.15), and the
aperiodic operations with their keys (R69, R70, R131, R139, R203, Table 4.8).
-/

namespace Sys2Proof.Machine

open Sys2Proof

/-! BAR2: regions -/

/-- The regions of Table 2.15. -/
inductive Bar2Reg where
  | image | patStby | ephStby | force | sigStby | patAct | ephAct | sigAct | creel | outside
  deriving DecidableEq, Repr

/-- The region of a BAR2 offset and the offset within it. -/
def bar2Region (off : Nat) : Bar2Reg × Nat :=
  let at_ (base len : Nat) : Bool := decide (base ≤ off) && decide (off < base + len)
  if off < 0x800000 then (.image, off)
  else if at_ 0x800000 0x100000 then (.patStby, off - 0x800000)
  else if at_ 0x900000 0x40000 then (.ephStby, off - 0x900000)
  else if at_ 0x940000 0x10000 then (.force, off - 0x940000)
  else if at_ 0xA00000 0x80000 then (.sigStby, off - 0xA00000)
  else if at_ 0xC00000 0x100000 then (.patAct, off - 0xC00000)
  else if at_ 0xD00000 0x40000 then (.ephAct, off - 0xD00000)
  else if at_ 0xE00000 0x80000 then (.sigAct, off - 0xE00000)
  else if at_ 0x1000000 0x100000 then (.creel, off - 0x1000000)
  else (.outside, 0)

/-- The page that reports a region's errors (Table 2.15). -/
def Bar2Reg.page : Bar2Reg → PageKind
  | .image => .img | .patStby => .lom | .ephStby => .lom | .force => .frc | .sigStby => .frc | .patAct => .lom
  | .ephAct => .lom | .sigAct => .frc | .creel => .crl | .outside => .img

/-- A byte of the force table as a reader sees it; STBY_OK is computed (Table 9.7). -/
def forceByte (s : State) (o : Nat) : Byte :=
  let i := o / 16
  let j := o / 4 % 4
  let w := if j = 1 then setFieldOf (frcWord s i 1) 3 3 (bnat (stbyOk s i)) else frcWord s i j
  BitVec.ofNat 8 (w.toNat / 256 ^ (o % 4))

/-- `n` bytes of BAR2 from offset `off`, all in one region (R95 keeps a request within 4 KiB). -/
def bar2Bytes (s : State) (off n : Nat) : List Byte :=
  let (r, o) := bar2Region off
  match r with
  | .image => imgView s 2 o n
  | .patStby => wbytes s.lom.stby 1 o n
  | .ephStby => wbytes s.lom.stby 2 (64 + o) n
  | .force => (List.range n).map fun i => forceByte s (o + i)
  | .sigStby => wbytes s.lom.stby 3 o n
  | .patAct => wbytes s.lom.act 1 o n
  | .ephAct => wbytes s.lom.act 2 (64 + o) n
  | .sigAct => wbytes s.lom.act 3 o n
  | .creel => mgetList 0 s.crl.cell o n
  | .outside => List.replicate n 0

/-! BAR2: the memory words behind a read (Table 15.2) -/

/-- The stored image word that the view shows at an image offset, if one does (Table 9.2). -/
def imgWordOf (s : State) (off : Nat) : Option Nat :=
  let w := s.lom.act
  let area := areaOf w off
  if area = 11 ∨ area = 2 then none
  else if s.img.restarting then some (off / 8)
  else if area = 0 ∨ area = 1 then
    (areaRecs w 0).findSome? fun e =>
      let base := e.2.recOff * 8 + area * inLen w
      if base ≤ off ∧ off < base + 8 + e.2.rlen then
        let k := if area = 1 ∧ slotFrozen s e.1 ≠ 3 then slotFrozen s e.1 else slotNewest s e.1
        some ((slotAddr w e.2.recOff k + (off - base)) / 8)
      else none
  else if area = 7 then
    (match (outList w).find? fun r => decide (r.1 * 8 ≤ off) && decide (off < r.1 * 8 + 8 + r.2.1) with
     | some r => if safeRec s r.1 then none else some (off / 8)
     | none => if s.img.ctl == .stopped || s.img.safeShown then none else some (off / 8))
  else some (off / 8)

/-- Memory of Table 15.2 and word behind a BAR2 offset. -/
def bar2Word (s : State) (off : Nat) : Option (Nat × Nat) :=
  let (r, o) := bar2Region off
  let a := bnat s.lom.bank
  let b := bnat (!s.lom.bank)
  match r with
  | .image => (imgWordOf s o).map fun w => (0, w)
  | .patStby => some (2, b * 131072 + o / 8)
  | .ephStby => some (3, b * 32768 + o / 8)
  | .force => some (5, o / 8)
  | .sigStby => some (4, b * 65536 + o / 8)
  | .patAct => some (2, a * 131072 + o / 8)
  | .ephAct => some (3, a * 32768 + o / 8)
  | .sigAct => some (4, a * 65536 + o / 8)
  | .creel => some (6, o / 8)
  | .outside => none

/-- The error of the 8-byte word that holds a BAR2 offset. -/
def bar2Ecc (s : State) (off : Nat) : Option Bool :=
  match bar2Word s (off / 8 * 8) with
  | some (m, w) => eccOf s m w
  | none => none

/-- The bytes of a read, each affected 8-byte word as 0xFF (Table 4.8). -/
def bar2Data (s : State) (off n : Nat) : List Byte :=
  if s.tap.ecc.isEmpty then bar2Bytes s off n
  else (bar2Bytes s off n).zipIdx.map fun e => if bar2Ecc s (off + e.2) = some true then 0xFF#8 else e.1

/-- The 8-byte words of a read. -/
def bar2Words (off n : Nat) : List Nat := (List.range ((off + n + 7) / 8 - off / 8)).map fun i => (off / 8 + i) * 8

/-- The word at byte `a` of BAR2 is read; `s` is the state before the read. -/
def bar2MeetWord (s : State) (a : Nat) (t : State) : State :=
  match bar2Word s a with
  | some (m, w) =>
    let t1 := readEcc m w (w + 1) t
    match (if m = 0 then eccOf s m w else none) with
    | some uncorr => imgCapture w uncorr t1
    | none => t1
  | none => t

/-- A read meets the errors of its words: counted, corrected, captured for the image (R272, R419). -/
def bar2Meet (off n : Nat) (s : State) : State :=
  if s.tap.ecc.isEmpty then s else (bar2Words off n).foldl (fun t a => bar2MeetWord s a t) s

/-- Mark the completions that carry a bad word; `a` is the request address of the first. -/
def markEp (bad : Nat → Bool) : Nat → List Out → List Out
  | a, .cpl p tag st ep bc lo d :: os =>
    .cpl p tag st (ep || (List.range d.length).any fun i => bad (a + i)) bc lo d :: markEp bad (a + d.length) os
  | a, o :: os => o :: markEp bad a os
  | _, [] => []

/-- A BAR2 read is completed (R99, Table 4.8). -/
def bar2Complete (p : Port) (off n tag : Nat) (s : State) : State :=
  let bad (a : Nat) : Bool := bar2Ecc s a = some true
  let words := bar2Words off n
  let outs := markEp bad off (splitCpl p tag 0 off (mps s p) 0 n (bar2Data s off n))
  let s1 := bar2Meet off n (dropTag p tag (sendOut p outs s))
  let s2 := if words.any bad then portFlag p 7 s1 else s1
  if words.any fun a => bar2Ecc s a = some false then aerCorr p 14 s2 else s2

/-! BAR2 writes -/

/-- The requester may write an image area (Table 9.2). -/
def imgMay (s : State) (r : Req) (area : Nat) : Bool :=
  (decide (3 ≤ area) && decide (area < 7) && (area - 3 == r.val || (r.val == 4 && lcOpen s))) ||
    (area == 10 && r.val == 4 && lcOpen s)

/-- Store the enabled bytes from address `a` on. -/
def putEnabled (a : Nat) (bs : List Byte) (en : List Bool) (m : SMap Byte) : SMap Byte :=
  ((bs.zip en).zipIdx).foldl (fun m e => if e.1.2 then mset 0 (a + e.2) e.1.1 m else m) m

/-- The capture of a refused BAR2 write: page number and offset are those of the BAR2 offset, low bits (DEDUCED, log entry 22). -/
def bar2Refuse (r : Req) (k : PageKind) (off : Nat) (bs : List Byte) (s : State) : State :=
  capture k 1 r.val (off / 0x1000) off (wordLE bs) s

/-- A write to a standby bank (R244, R246); `t` is the section type, `a` the offset in it. -/
def stbyWrite (r : Req) (k : PageKind) (t a off : Nat) (bs : List Byte) (en : List Bool) (s : State) : State :=
  if stbyLocked s then bar2Refuse r k off bs s
  else { s with lom := { s.lom with stby := { s.lom.stby with
    mem := putEnabled (secBase t + a) bs en s.lom.stby.mem, modified := true, check := .none } } }

/-- A write to the force table, one word at a time (R274): `o` is the offset in the table, `fuel` the number of words. -/
def forceWrite (r : Req) (off : Nat) : Nat → Nat → List Byte → List Bool → State → State
  | 0, _, _, _, s => s
  | fuel + 1, o, bs, en, s =>
    if bs.isEmpty then s
    else
      let n := 4 - o % 4
      let i := o / 16
      let j := o / 4 % 4
      let old := bytesLE 4 (frcWord s i j).toNat
      let new := ((List.range 4).map fun x =>
        if x < o % 4 then old.getD x 0
        else if en.getD (x - o % 4) false then bs.getD (x - o % 4) (old.getD x 0) else old.getD x 0)
      let s1 :=
        if (en.take n).all (! ·) then s
        else if j = 1 ∨ (j = 0 ∧ bitAt (frcWord s i 1) 0) then bar2Refuse r .frc off (bs.take n) s
        else putFrc i j (wordLE new) s
      forceWrite r (off + n) fuel (o + n) (bs.drop n) (en.drop n) s1

/-- A BAR2 write of a requester past the rights of Table 5.3. -/
def bar2Store (r : Req) (off : Nat) (bs : List Byte) (en : List Bool) (s : State) : State :=
  let (g, o) := bar2Region off
  match g with
  | .image =>
    let may := en.zipIdx.map fun e => e.1 && imgMay s r (areaOf s.lom.act (o + e.2))
    let s1 := { s with img := { s.img with mem := putEnabled o bs may s.img.mem } }
    if may = en then s1 else bar2Refuse r .img off bs s1
  | .patStby => stbyWrite r .lom 1 o off bs en s
  | .ephStby => stbyWrite r .lom 2 (64 + o) off bs en s
  | .sigStby => stbyWrite r .frc 3 o off bs en s
  | .force => forceWrite r off (bs.length + 1) o bs en s
  | g => bar2Refuse r g.page off bs s

/-- A byte of BAR2 lies in the channel's own staging area. -/
def ownStaging (s : State) (p : Port) (off : Nat) : Bool :=
  match bar2Region off with
  | (.image, o) => areaOf s.lom.act o == 3 + p.val
  | _ => false

/-- A poisoned TLP (Table 4.8). -/
def poisonRx (p : Port) (h : Hdr) (s : State) : State := aerUncorr p 12 false h (portFlag p 6 s)

/-! BAR4: refusals (R69, Table 4.8) -/

/-- A BAR4 access is refused: WIN_ERR and WIN_REFUSED. -/
def winRefused (p : Port) (s : State) : State := raise (cpEv p 4) (portFlag p 0 s)
/-- A refused BAR4 read ends with Unsupported Request. -/
def winRefuseRead (p : Port) (tag : Nat) (s : State) : State := winRefused p (completeUr p tag s)
/-- A refused BAR4 write is discarded. -/
def winRefuseWrite (p : Port) (h : Hdr) (s : State) : State :=
  winRefused p (if getFld s (.cp p) 0x004 0 0 = 1 then aerUncorr p 20 false h s else s)

/-- R69 refuses an access of `n` bytes at window offset `off` of pattern `pat`: by its own entry, by the destination pattern that
runs here in its place (R74), or by a fetch that met an uncorrectable error (R64). -/
def bar4Refused (s : State) (pat off n : Nat) (write : Bool) : Bool :=
  let e := patEntry s.lom.act pat
  fetchBad s pat || accessRefused (patOf e) write off n || nodeRefused s e write off n

/-- The pattern fetches of a BAR4 access meet the errors of their entries (R64); a corrected one is this port's to report (Table
4.8). -/
def fetchMeet (p : Port) (pat : Nat) (s : State) : State :=
  let base (j : Nat) : Nat := 2 * 2 ^ 24 + bnat s.lom.bank * 131072 + 2 * j
  let corr := (fetched s pat).any fun j => s.tap.ecc.any fun e => !e.2 && decide (base j ≤ e.1) && decide (e.1 < base j + 2)
  let s1 := fetchPat pat s
  if corr then aerCorr p 14 s1 else s1

/-! BAR4: keys (R131, R139, R153) -/

/-- An accepted operation of a channel advances APSEQ.K and the count since its last commit write. -/
def takeKey (p : Port) (s : State) : State :=
  modCh p (fun c => { c with k := c.k + 1, opsSince := c.opsSince + 1 }) s

/-- The copy that a channel's operation makes. -/
def copyOfOp (s : State) (p : Port) (pat off n : Nat) (bs : List Byte) (en : List Bool) (poisoned isRead : Bool) (tag : Nat)
    (cells : List Nat) : MCopy :=
  { ch := p, k := s.ch[p].k, pat := pat, off := off, len := n, data := bs, en := en, poisoned := poisoned, isRead := isRead,
    tag := tag, cells := cells, epoch := s.ch[p].epoch, done := 0 }

/-- The packet of a write copy on its channel's list. -/
def holdPkt (s : State) (p : Port) (pat off : Nat) (bs : List Byte) (en : List Bool) (poisoned : Bool) (cells : List Nat) : Pkt :=
  { owner := p.val, cells := cells, eop := true, epoch := s.ch[p].epoch.toNat, cy := 0, src := p.val, pat := pat, off := off,
    len := bs.length, aux := s.ch[p].k.toNat % 2 ^ 20, data := bs, en := en, isRead := false, trunc := false, cont := false,
    poison := poisoned, sent := 0, patE := 0, origin := .vote s.ch[p].k.toNat pat }

/-- A BAR4 write leaves the receive buffer, or nothing when its claim is refused (R203). -/
def takeWrite (p : Port) (pat off : Nat) (bs : List Byte) (en : List Bool) (poisoned : Bool) (s : State) : Option State :=
  let h := memHdr true (barBase s p 4 + pat * 4096 + off) en 0 poisoned
  let note (s : State) : State := if poisoned then poisonRx p h s else s
  if !barOn s p then some (urWrite p h s)
  else if !s.ch[p].st.inService then some (dropWrite p (note s))
  else if s.pwr.st != .run then some (winRefuseWrite p h (note s))
  else
    let s0 := fetchMeet p pat s
    if bar4Refused s pat off bs.length true then some (winRefuseWrite p h (note s0))
    else if !s.ch[p].aligned then some (takeKey p (note s0))
    else
      match claim p.val (cellsFor bs.length) s0 with
      | none => none
      | some (cells, s1) =>
        let s2 := linkPkt p.val (holdPkt s1 p pat off bs en poisoned cells)
          { s1 with crl := { s1.crl with cell := fillCells cells bs s1.crl.cell } }
        let c := copyOfOp s2 p pat off bs.length bs en poisoned false 0 cells
        some (note (pump (presentCopy c (takeKey p s2))))

/-- A BAR4 read leaves the receive buffer; its tag is held. -/
def takeRead (p : Port) (pat off n : Nat) (en : List Bool) (tag : Nat) (s : State) : State :=
  if !barOn s p then urRead p tag s
  else if !s.ch[p].st.inService then refusedRead p tag s
  else if s.pwr.st != .run then winRefuseRead p tag s
  else
    let s0 := fetchMeet p pat s
    if bar4Refused s pat off n false then winRefuseRead p tag s0
    else if !s.ch[p].aligned then completeCa p tag (takeKey p s0)
    else
      let c := copyOfOp s0 p pat off n [] en false true tag []
      pump (presentCopy c (takeKey p s0))

/-- A flush read leaves the receive buffer (R70). -/
def takeFlush (p : Port) (tag : Nat) (s : State) : State :=
  if !barOn s p then urRead p tag s
  else if !s.ch[p].st.inService then refusedRead p tag s
  else if s.pwr.st != .run then winRefuseRead p tag s
  else modPort p (fun q => { q with flush := q.flush ++ [(tag, s.ch[p].k.toNat)] }) s

/-- Some write that the channel made before its operation number `k` is not issued, discarded or refused yet. -/
def earlierWrites (s : State) (p : Port) (k : Nat) : Bool :=
  let mine (c : MCopy) : Bool := c.ch == p && !c.isRead && decide (c.k.toNat < k)
  (s.vot.openE.any fun e => e.phase == .waiting && e.copies.any mine) || s.vot.waiting.any mine

/-- FLUSH_READ_COMPLETE (R70): every earlier BAR4 write of the channel has been issued, discarded or refused. -/
def flushDone (p : Port) (tag : Nat) (s : State) : State :=
  match s.port[p].flush.find? fun f => f.1 == tag with
  | some f =>
    if earlierWrites s p f.2 then s
    else complete p tag 0 false (bytesLE 4 0) (modPort p (fun q => { q with flush := q.flush.erase f }) s)
  | none => s

/-! A match entry's times (R135, R136) -/

/-- MATCH_ENTRY_EXPIRE (R135): VWIN has passed; the entry closes. A read that is being performed closes VWIN after its data. -/
def entryExpire (k : Word) (pat : Nat) (s : State) : State :=
  match findOpen s k pat with
  | some e => if e.phase == .started then s else pump (closeEntry e s)
  | none => s

/-- CLOSED_ENTRY_RETIRE (R136): a further VWIN has passed. -/
def closedRetire (k : Word) (pat : Nat) (s : State) : State :=
  match s.vot.closedE.find? fun e => e.k == k && e.pat == pat with
  | some e => pump (dropClosed e s)
  | none => s

end Sys2Proof.Machine
end

