-- ==== Sys2Proof/Machine/Rx.lean ====
section
/-!
DEFINITION. The receive side of a channel port: what a request finds when it arrives, what it waits for, and its turn (R94 to R100,
R103, R113, R118, R120, R203), with the register accesses of every requester (R9 to R26).
-/

namespace Sys2Proof.Machine

open Sys2Proof

/-! BAR0 and BAR2, in the order of receipt (R100, R103) -/

/-- The access is an indirect one whose space stands in a gated clock domain (R26). -/
def indWaits (s : State) (r : Req) (addr : Nat) : Bool :=
  match pageKind (addr / 0x1000) with
  | some k => foldOff (addr / 4 * 4 % 0x1000) == 0x024 && (indLen k (fieldOf (indAddr s r k) 27 24)).isSome &&
      !indRuns s k (fieldOf (indAddr s r k) 27 24)
  | none => false

/-- The access is a word of a WRITE_WEAVE stream that is suspended (R378, Table 14.9). -/
def streamWaits (s : State) (r : Req) (addr : Nat) : Bool :=
  match pageKind (addr / 0x1000) with
  | some k => foldOff (addr / 4 * 4 % 0x1000) == 0x024 && streamHeld s r k (fieldOf (indAddr s r k) 27 24)
  | none => false

/-- A write of IND_DATA that the rights of R16 and Table 5.3 let through waits for a gated clock, or behind a suspended operation. -/
def writeWaits (s : State) (r : Req) (addr : Nat) (full : Bool) : Bool :=
  full && (indWaits s r addr || streamWaits s r addr) &&
    (match pageKind (addr / 0x1000), reqPort r with
     | some k, some c => !pageRefused r k && writeRight s c k 0x024 == .yes
     | _, _ => true)

/-- Read DWs in ascending order (R13): the bytes so far, the DWs that are left when one has to wait, and the state. -/
def readDws (r : Req) : Nat → Nat → List Byte → State → List Byte × Nat × State
  | 0, _, got, s => (got, 0, s)
  | n + 1, a, got, s =>
    match bar0Read r a s with
    | some (w, s1) => readDws r n (a + 4) (got ++ bytesLE 4 w.toNat) s1
    | none => (got, n + 1, s)

/-- A BAR0 read of `n` DWs goes on at address `a` with the bytes it has; the request that still waits, if one does. -/
def bar0ReadTake (p : Port) (a n tag : Nat) (got : List Byte) (s : State) : Option RxTlp × State :=
  if !barOn s p then (none, urRead p tag s)
  else
    let s0 := portWake p s
    if !mayRead s0 p a then (none, refusedRead p tag s0)
    else
      match readDws (portReq p) n a got s0 with
      | (bs, 0, s1) => (none, complete p tag ((a - got.length) / 4 * 4) false bs s1)
      | (bs, m + 1, s1) => (some (.bar0Read (a + (bs.length - got.length)) (m + 1) tag bs), s1)

/-- A BAR0 write of one DW takes its turn. -/
def bar0WriteTake (p : Port) (a : Nat) (en : List Bool) (d : Word) (poisoned : Bool) (s : State) : Option RxTlp × State :=
  let h := memHdr true (barBase s p 0 + a) en 0 poisoned
  let full := !en.contains false
  if !barOn s p then (none, urWrite p h s)
  else
    let s0 := portWake p s
    if poisoned then (none, poisonRx p h s0)
    else if writeWaits s0 (portReq p) a full then (some (.bar0Write a en d false), s0)
    else (none, bar0Word (portReq p) a full d s0)

/-- A BAR2 write takes its turn (R50, R95, R128, Table 4.8): of a READY or OBSERVER channel only the bytes in its own staging area. -/
def bar2WriteTake (p : Port) (off : Nat) (bs : List Byte) (en : List Bool) (poisoned : Bool) (s : State) : State :=
  let h := memHdr true (barBase s p 2 + off) en 0 poisoned
  if !barOn s p then urWrite p h s
  else
    let s0 := portWake p s
    if poisoned then poisonRx p h s0
    else
      match s0.ch[p].st with
      | .active => bar2Store (portReq p) off bs en s0
      | .ready | .observer =>
        bar2Store (portReq p) off bs (en.zipIdx.map fun e => e.1 && ownStaging s0 p (off + e.2)) s0
      | .absent | .fenced => dropWrite p s0

/-- A BAR2 read takes its turn (R99, R128, R259). -/
def bar2ReadTake (p : Port) (off n tag : Nat) (s : State) : State :=
  if !barOn s p then urRead p tag s
  else
    let s0 := portWake p s
    if s0.ch[p].st.inService then bar2Complete p off n tag s0 else refusedRead p tag s0

/-- A BAR0 or BAR2 request takes its turn; the request that still waits, if one does. -/
def barTake (p : Port) (x : RxTlp) (s : State) : Option RxTlp × State :=
  match x with
  | .bar0Write a en d poisoned => bar0WriteTake p a en d poisoned s
  | .bar0Read a n tag got => bar0ReadTake p a n tag got s
  | .bar2Write off bs en poisoned => (none, bar2WriteTake p off bs en poisoned s)
  | .bar2Read off n tag => (none, bar2ReadTake p off n tag s)
  | _ => (none, s)

/-- Requests that wait behind an indirect access of their port take their turns, oldest first (R100); the fuel is their number. -/
def drainBar (p : Port) : Nat → State → State
  | 0, s => s
  | n + 1, s =>
    match s.port[p].bar with
    | [] => s
    | x :: xs =>
      match barTake p x (modPort p (fun q => { q with bar := xs }) s) with
      | (some y, s1) => modPort p (fun q => { q with bar := y :: q.bar }) s1
      | (none, s1) => drainBar p n s1

/-- A BAR0 or BAR2 request reaches its BAR: behind those that wait there, a write too, because R100 and R103 keep their order. -/
def barIn (p : Port) (x : RxTlp) (s : State) : State :=
  drainBar p (s.port[p].bar.length + 1) (modPort p (fun q => { q with bar := q.bar ++ [x] }) s)

/-! The receive buffer (R97, R203) -/

/-- A request leaves the receive buffer; nothing when it is a BAR4 write whose cells are not granted (R203). -/
def takeRx (p : Port) (x : RxTlp) (s : State) : Option State :=
  match x with
  | .config dw write be d tag => some (configTake p dw write be d tag s)
  | .flr => some (if s.port[p].crs then s else flrOp p s)
  | .unsupported kind tag => some (unsupportedOp p kind tag s)
  | .write pat off bs en poisoned => takeWrite p pat off bs en poisoned s
  | .read pat off n en tag => some (takeRead p pat off n en tag s)
  | .flush tag => some (takeFlush p tag s)
  | .bar0Write .. => some (barIn p x s)
  | .bar0Read .. => some (barIn p x s)
  | .bar2Write .. => some (barIn p x s)
  | .bar2Read .. => some (barIn p x s)

/-- A request arrives at a port; behind a stalled BAR4 write it waits its turn (R203). -/
def arrive (p : Port) (x : RxTlp) (s : State) : State :=
  if s.port[p].rx.isEmpty then
    match takeRx p x s with
    | some s1 => s1
    | none => modPort p (fun q => { q with rx := [x] }) s
  else modPort p (fun q => { q with rx := q.rx ++ [x] }) s

/-- The receive buffer drains in order until a write's claim is refused; the fuel is its length. -/
def drainRx (p : Port) : Nat → State → State
  | 0, s => s
  | n + 1, s =>
    match s.port[p].rx with
    | [] => s
    | x :: xs =>
      match takeRx p x (modPort p (fun q => { q with rx := xs }) s) with
      | some s1 => drainRx p n s1
      | none => s

/-- BAR4_TLP_CLAIM_GRANT (R203): the claim of the write at the head is granted, and what waited behind it follows. -/
def claimGrant (p : Port) (s : State) : State := drainRx p s.port[p].rx.length s

/-! Receipt (R91, R95, R96, R98, R119) -/

/-- A TLP is received: the port has left L1 (R119). -/
def receipt (p : Port) (s : State) : State := modPort p (fun q => { q with l1 := false }) s

/-- A request of `n` bytes at address `a` of its BAR crosses a 4 KiB boundary (R95). -/
def crosses (a n : Nat) : Bool := decide (4096 < a % 4096 + n)

/-- A posted memory write with header `h` is received: one without credits overflows the receiver, one that crosses 4 KiB or exceeds
Max Payload Size is malformed (R95, R96, Table 4.8). -/
def recvPosted (p : Port) (a n : Nat) (h : Hdr) (x : RxTlp) (s : State) : State :=
  if !portOpen s p then s
  else if !postedRoom s p n then aerUncorr p 17 false h (receipt p s)
  else if crosses a n || decide (mps s p < n) then aerUncorr p 18 false h (receipt p s)
  else arrive p x (receipt p s)

/-- A non-posted request of `n` bytes with header `h` is received and held (R95, R98). -/
def recvNonPosted (p : Port) (a n tag : Nat) (h : Hdr) (x : RxTlp) (s : State) : State :=
  if !portOpen s p then s
  else if !npRoom s p then aerUncorr p 17 false h (receipt p s)
  else if crosses a n then aerUncorr p 18 false h (receipt p s)
  else arrive p x (holdTag p tag h (receipt p s))

/-- A DW of a BAR0 write with its byte enables `en`. -/
def bar0WriteOp (p : Port) (a : Nat) (en : List Bool) (d : Word) (poisoned : Bool) (s : State) : State :=
  let h := memHdr true (barBase s p 0 + a) en 0 poisoned
  recvPosted p a 4 h (.bar0Write a en d poisoned) s

/-- A write of one DW of BAR0 by a requester; an indirect write of the maintenance port waits as its access (R26). -/
def bar0Write (r : Req) (addr : Nat) (full : Bool) (d : Word) (s : State) : State :=
  match reqPort r with
  | none =>
    if s.pwr.boot = .opened then
      let s1 := wakeCore 2 4 s
      if writeWaits s1 r addr full && s1.mnt.acc.isNone then
        { s1 with mnt := { s1.mnt with acc := some ⟨true, false, false, addr / 4 * 4, d⟩ } }
      else bar0Word r addr full d s1
    else s
  | some p => bar0WriteOp p (addr / 4 * 4) (List.replicate 4 full) d false s

/-- A BAR0 read of `n` DWs by a requester (R13, R43, R98, R99); the maintenance port reads one. -/
def regReadOp (r : Req) (addr n tag : Nat) (s : State) : State :=
  let a := addr / 4 * 4
  match reqPort r with
  | none =>
    if s.pwr.boot = .opened then
      match bar0Read r a (wakeCore 2 4 s) with
      | some (w, s1) => emit (.word r w) s1
      | none => if s.mnt.acc.isNone then { s with mnt := { s.mnt with acc := some ⟨false, false, false, a, 0⟩ } } else s
    else s
  | some p =>
    let h := memHdr false (barBase s p 0 + a) (List.replicate (4 * n) true) tag false
    recvNonPosted p a (4 * n) tag h (.bar0Read a n tag []) s

/-- INDIRECT_TIMEOUT (R26) for the access that stands at the head of the port's waiting requests: a read's DW is zero, a write is
discarded; what waited behind it follows. -/
def indTimeoutHead (p : Port) (k : PageKind) (page : Nat) (s : State) : Option State :=
  let go (off : Nat) (d : Word) (s : State) : State := indError (portReq p) k page off d s
  let at_ (a : Nat) : Bool := a / 0x1000 == page && foldOff (a % 0x1000) == 0x024
  match s.port[p].bar with
  | .bar0Write a _ d _ :: xs =>
    if at_ a then some (drainBar p xs.length (go (a % 0x1000) d (modPort p (fun q => { q with bar := xs }) s))) else none
  | .bar0Read a n tag got :: xs =>
    if at_ a then
      let s1 := go (a % 0x1000) 0 s
      some (drainBar p (xs.length + 1)
        (if n ≤ 1 then complete p tag (a - got.length) false (got ++ bytesLE 4 0) (modPort p (fun q => { q with bar := xs }) s1)
         else modPort p (fun q => { q with bar := .bar0Read (a + 4) (n - 1) tag (got ++ bytesLE 4 0) :: xs }) s1))
    else none
  | _ => none

/-- INDIRECT_TIMEOUT (R26): an indirect access of a page has not completed in time, or a reset has caught it: the access that waits,
or one that waits nowhere else. -/
def indTimeoutOp (r : Req) (page : Nat) (write : Bool) (d : Word) (tag : Nat) (s : State) : State :=
  match pageKind page with
  | some k =>
    let go (s : State) : State := indError r k page 0x024 (if write then d else 0) s
    match reqPort r with
    | none => if s.pwr.boot = .opened then (if write then go s else emit (.word r 0) (go s)) else s
    | some p =>
      match indTimeoutHead p k page s with
      | some s1 => s1
      | none =>
        if !portOpen s p || !barOn s p || !s.ch[p].st.inService then s
        else if write then go s
        else if !npRoom s p then s
        else complete p tag (page * 0x1000 + 0x024) false (bytesLE 4 0)
          (go (holdTag p tag (memHdr false (barBase s p 0 + page * 0x1000 + 0x024) (List.replicate 4 true) tag false) s))
  | none => s

/-- BAR2_READ. -/
def bar2ReadOp (p : Port) (off n tag : Nat) (s : State) : State :=
  recvNonPosted p off n tag (memHdr false (barBase s p 2 + off) (List.replicate n true) tag false) (.bar2Read off n tag) s

/-- BAR2_WRITE. -/
def bar2WriteOp (p : Port) (off : Nat) (bs : List Byte) (en : List Bool) (poisoned : Bool) (s : State) : State :=
  recvPosted p off bs.length (memHdr true (barBase s p 2 + off) en 0 poisoned) (.bar2Write off bs en poisoned) s

/-- BAR4_WRITE: a failed ECRC discards it while it is checked (Table 4.8). -/
def bar4WriteOp (p : Port) (pat off : Nat) (bs : List Byte) (en : List Bool) (poisoned ecrcBad : Bool) (s : State) : State :=
  let h := memHdr true (barBase s p 4 + pat * 4096 + off) en 0 poisoned
  if portOpen s p && ecrcBad && ecrcCheck s p then aerUncorr p 19 false h (receipt p s)
  else recvPosted p off bs.length h (.write pat off bs en poisoned) s

/-- BAR4_READ; one DW with no byte enabled is the flush read of R70. -/
def bar4ReadOp (p : Port) (pat off n : Nat) (en : List Bool) (tag : Nat) (s : State) : State :=
  let h := memHdr false (barBase s p 4 + pat * 4096 + off) en tag false
  recvNonPosted p off n tag h (if n ≤ 4 && en.all (! ·) then .flush tag else .read pat off n en tag) s

/-- FLUSH_READ (R70); the command does not say which pattern's page it addresses. -/
def flushReadOp (p : Port) (tag : Nat) (s : State) : State :=
  let h := memHdr false (barBase s p 4) (List.replicate 4 false) tag false
  recvNonPosted p 0 4 tag { h with known := h.known &&& ~~~ (((BitVec.ofNat 128 (2 ^ 64 - 1)) <<< 64)) } (.flush tag) s

/-- CONFIG_REQUEST: every one is non-posted and held (R98). -/
def configOp (p : Port) (dw : Nat) (write : Bool) (be : BitVec 4) (d : Word) (tag : Nat) (s : State) : State :=
  recvNonPosted p 0 4 tag noHdr (.config dw write be d tag) s

/-- The requests of Table 4.8 that are non-posted. -/
def urHeld : UrKind → Bool
  | .unsupportedNonPosted => true | .noBarNonPosted => true | .disabledNonPosted => true | _ => false

/-- UNSUPPORTED_REQUEST (R91, R94). -/
def unsupportedIn (p : Port) (k : UrKind) (tag : Nat) (s : State) : State :=
  if urHeld k then recvNonPosted p 0 0 tag noHdr (.unsupported k tag) s
  else if portOpen s p then arrive p (.unsupported k tag) (receipt p s) else s

/-- FLR as a configuration write that the port takes in its turn. -/
def flrIn (p : Port) (s : State) : State := if portOpen s p then arrive p .flr (receipt p s) else s

end Sys2Proof.Machine
end

