-- ==== Sys2Proof/Machine/Mnt.lean ====
section
/-!
DEFINITION. The maintenance port (R52 to R57, R60): the checks of a frame, the response that leaves during it, and the access that
it starts.
-/

namespace Sys2Proof.Machine

open Sys2Proof

/-! Frames (R52, R53) -/

/-- Bits [71:8] of a MOSI frame (Table 2.16). -/
def mosiBits (cmd : Nat) (space : Bool) (off : Nat) (d : Word) : DWord :=
  BitVec.ofNat 64 (cmd % 8 * 2 ^ 61 + bnat space * 2 ^ 60 + off % 2 ^ 25 * 2 ^ 32 + d.toNat)

/-- An access still runs, or the device does not take frames yet: STAT.BUSY. -/
def mntBusy (s : State) : Bool := s.mnt.acc.isSome || s.pwr.boot != .opened

/-- Bits [71:8] of the response (Table 2.18). Without a result to report, ECHO and DATA are free: `f` (DESIGN CHOICE, log entry 12). -/
def misoBits (s : State) (f : Nat) : Nat :=
  let m := s.mnt
  let shown := m.valid && !mntBusy s && !m.crcErr && !m.abort
  let low := if shown then m.echo % 2 ^ 24 * 2 ^ 32 + m.data.toNat else f % 2 ^ 56
  bnat shown * 2 ^ 63 + bnat m.crcErr * 2 ^ 62 + bnat (shown && m.accErr) * 2 ^ 61 + bnat (mntBusy s) * 2 ^ 60 +
    bnat m.abort * 2 ^ 59 + bnat (shown && m.written) * 2 ^ 58 + low

/-- The response to the frame before leaves during a frame, with its own CRC-8 (R54). -/
def respond (s : State) : State :=
  let v := misoBits s (freeVal s).toNat
  let w : BitVec 72 := BitVec.ofNat 72 (v * 256 + (crc8 (BitVec.ofNat 64 v)).toNat)
  let s1 := emit (.miso w) s
  if s.mnt.valid && !mntBusy s && !s.mnt.crcErr && !s.mnt.abort then s1 else tookFree s1

/-- The flags that the next response reports. -/
def noteFrame (crcErr abort : Bool) (s : State) : State :=
  { s with mnt := { s.mnt with crcErr := crcErr, abort := abort } }

/-- A frame arrives: the response to the one before leaves; a frame of wrong length or CRC is not executed, nor is one that finds
the port busy; any other does `f` and is counted (R52, R53, R55, Table 2.22). -/
def frame (clocks : Nat) (bits : DWord) (crc : BitVec 8) (f : State → State) (s : State) : State :=
  let busy := mntBusy s
  let s1 := noteFrame false false (respond s)
  if clocks ≠ 72 then raise 243 (incReg .mnt 0x048 1 (noteFrame false true s1))
  else if crc8 bits ≠ crc then raise 242 (incReg .mnt 0x044 1 (noteFrame true false s1))
  else if busy then s1
  else f (wakeCore 2 4 (incReg .mnt 0x040 1 s1))

/-- The result of the access that has ended. -/
def mntResult (accErr written : Bool) (off : Nat) (d : Word) (s : State) : State :=
  { s with mnt := { s.mnt with acc := none, valid := true, accErr := accErr, written := written, echo := off % 2 ^ 24, data := d } }

/-- The view refuses an offset: not a word address, or beyond the BAR0 view (R52, R57); a guarded frame has no page in SPACE 1. -/
def outsideView (space guarded : Bool) (off : Nat) : Bool :=
  decide (off % 4 ≠ 0) || (!space && decide (0x100000 ≤ off)) || (space && guarded)

/-- An access refused before it starts is answered with ACC_ERR; its DATA is free (DESIGN CHOICE, log entry 12). -/
def refuseAccess (off : Nat) (s : State) : State :=
  mntResult true false off (BitVec.ofNat 32 (freeVal s).toNat) (tookFree s)

/-- A frame starts an access (R54). -/
def startAccess (write guarded space : Bool) (off : Nat) (d : Word) (s : State) : State :=
  if outsideView space guarded off then refuseAccess off s
  else { s with mnt := { s.mnt with acc := some ⟨write, guarded, space, off, d⟩ } }

/-- MNT_READ. A read ignores the frame's DATA (Table 2.16), which the CRC covers. -/
def mntReadOp (clocks : Nat) (space : Bool) (off : Nat) (d : Word) (crc : BitVec 8) (s : State) : State :=
  frame clocks (mosiBits 0 space off d) crc (startAccess false false space off 0) s

/-- MNT_WRITE. -/
def mntWriteOp (clocks : Nat) (space : Bool) (off : Nat) (d : Word) (crc : BitVec 8) (s : State) : State :=
  frame clocks (mosiBits 1 space off d) crc (startAccess true false space off d) s

/-- MNT_GUARDED_WRITE (R56). -/
def mntGuardedOp (clocks : Nat) (space : Bool) (off : Nat) (d : Word) (crc : BitVec 8) (s : State) : State :=
  frame clocks (mosiBits 2 space off d) crc (startAccess true true space off d) s

/-- MNT_READ_STATUS (R55): no access; the result of the last one is given next. A reserved CMD is answered with ACC_ERR. -/
def mntStatusOp (clocks cmd : Nat) (space : Bool) (off : Nat) (d : Word) (crc : BitVec 8) (s : State) : State :=
  frame clocks (mosiBits cmd space off d) crc (fun s =>
    if cmd = 3 then s else if cmd < 3 then startAccess (cmd != 0) (cmd == 2) space off (if cmd = 0 then 0 else d) s
    else refuseAccess off s) s

/-! The access (R55 to R57) -/

/-- The LOCK_VIOL events of the pages: captures with cause 0x1 or 0x4 set them (R19). -/
def lockViols : List Nat := (allPages.filter fun k => k.events.2 != 0).map fun k => k.events.1

/-- LOCK_VIOL occurrences raised so far in this command. -/
def violCount (s : State) : Nat := (s.evh.occ.filter fun o => lockViols.contains o.ev).length

/-- A field that a register write can change or that starts a command: of the counters only those whose table permits writes
(Table 2.11, Table 15.7). -/
def takesWrite (k : PageKind) (off : Nat) (f : Field) : Bool :=
  f.cls != .ro && f.cls != .ev && (f.cls != .cnt || (k == .cnt && decide (0x0C0 ≤ off)))

/-- A register has a field that software can write. -/
def hasWritable (k : PageKind) (off : Nat) : Bool := (regFields k off).any (takesWrite k off)

/-- Bit `b` of a header register can be written through its alias (R42). -/
def aliasTakes (k : PageKind) (off b : Nat) : Bool :=
  (regFields k off).any fun f => decide (f.lo ≤ b) && decide (b ≤ f.hi) && takesWrite k off f && f.cls != .wo

/-- A write at a BAR0 offset can take effect there (R15, Table 2.18 WRITTEN). -/
def mntTarget (off : Nat) : Bool :=
  let page := off / 0x1000
  if 0x34 ≤ page ∧ page < 0x38 then false
  else if 0x80 ≤ page ∧ page < 0x90 then
    match aliasTarget off with | some (k, o, b) => aliasTakes k o b | none => false
  else
    match msixPage 4 page with
    | some (_, pba) => !pba
    | none => match pageKind page with | some k => hasWritable k (foldOff (off % 0x1000)) | none => false

/-- A write that raises no LOCK_VIOL takes effect or is held (R15, Table 2.18 WRITTEN): not one to an indirect space that the page
does not define (R26), a GUARD write that completes no sequence (R29), or a cell limit of a queue that owns no cells (R201). -/
def mntTakes (s : State) (a : MntAcc) : Bool :=
  a.space || (mntTarget a.offset &&
    (match pageKind (a.offset / 0x1000) with
     | some k =>
       let o := foldOff (a.offset % 0x1000)
       if o = 0x024 then (indLen k (fieldOf (indAddr s 4 k) 27 24)).isSome
       else if o = 0x028 then decide ((heldIn s 4 k).map (fun h => ~~~ h.value) = some a.data)
       else if k = .crl ∧ (o = 0x04C ∨ o = 0x050) then owningQueues.contains s.bus.req[(4 : Req)].qSel
       else true
     | none => true))

/-- The access is an indirect one whose space stands in a gated clock domain, or a stream word of a suspended operation (R26, R378). -/
def mntWaits (s : State) (a : MntAcc) : Bool := !a.space && (indWaits s 4 a.offset || (a.write && streamWaits s 4 a.offset))

/-- A guarded-write frame: the value and its complement, back to back (R56). -/
def guardedPair (off : Nat) (d : Word) (s : State) : State :=
  bar0Word 4 (off / 0x1000 * 0x1000 + 0x028) true (~~~ d) (bar0Word 4 off true d s)

/-- MNT_ACCESS_DONE (R55): the access is performed and its result held for the next response. -/
def mntDone (s : State) : State :=
  match s.mnt.acc with
  | none => s
  | some a =>
    if mntWaits s a then s
    else
      let s0 := wakeCore 2 4 s
      if a.write then
        let s1 :=
          if a.space then bar2Store 4 a.offset (bytesLE 4 a.data.toNat) (List.replicate 4 true) s0
          else if a.guarded then guardedPair a.offset a.data s0
          else bar0Word 4 a.offset true a.data s0
        let bad := decide (violCount s0 < violCount s1)
        mntResult bad (!bad && mntTakes s0 a) a.offset a.data s1
      else if a.space then
        mntResult false false a.offset (wordLE (bar2Data s0 a.offset 4)) (bar2Meet a.offset 4 s0)
      else
        match bar0Read 4 a.offset s0 with
        | some (w, s1) => mntResult false false a.offset w s1
        | none => s

/-- INDIRECT_TIMEOUT (R26) of any requester; a maintenance access that waited for it ends with it. -/
def indTimeoutAny (r : Req) (page : Nat) (write : Bool) (d : Word) (tag : Nat) (s : State) : State :=
  let s1 := indTimeoutOp r page write d tag s
  match s.mnt.acc with
  | some a =>
    if r.val = 4 ∧ a.space = false ∧ a.offset / 0x1000 = page ∧ foldOff (a.offset % 0x1000) = 0x024 then
      mntResult false false a.offset (if a.write then a.data else 0) s1
    else s1
  | none => s1

end Sys2Proof.Machine
end

