-- ==== Sys2Proof/Machine/Hub.lean ====
section
/-!
DEFINITION. The event log (R347 to R352), the ends of Creel operations (R208, R212, R213), the scrubber (R418), the test access port
(R421, R423), and the times of the vote unit (R123, R144, R145, R148, R149).
-/

namespace Sys2Proof.Machine

open Sys2Proof

/-! The event log -/

/-- Almanac address of the event-log region. -/
def logBase : Nat := 0x680000

/-- LOG_CELL_CLOSE (R347): the cell that is being filled is closed. -/
def logClose (s : State) : State :=
  match (listPkts s 26).getLast? with
  | some p => if p.eop then s else setPkts 26 ((listPkts s 26).dropLast ++ [{ p with eop := true }]) s
  | none => s

/-- Records may leave EVLOG for the Almanac: the scan has ended, the ALM domain runs, no brownout hold (R348, R351). -/
def logMay (s : State) : Bool :=
  s.pwr.boot == .opened && !s.evh.scanning && !s.pwr.brownout && domGate s 3 == 0

/-- A record as it is stored: SEQ, FLAGS, LOST and CRC are filled in (Table 12.3, R348, R350). -/
def sealRecord (seq lost : Nat) (bs : List Byte) : List Byte :=
  let b := bytesLE 4 seq ++ (bs.take 13).drop 4 ++ [if lost = 0 then 0 else 1] ++ bytesLE 2 (min 0xFFFF lost) ++
    (bs.take 28).drop 16
  b ++ bytesLE 4 (crc32c b).toNat

/-- A stored record is replicated to the eligible ports (R352); a port that cannot send skips it. -/
def replicate (seq : Nat) (bs : List Byte) (s : State) : State :=
  if getFld s .evh 0x050 8 8 = 0 then s
  else allPorts.foldl (fun s p =>
    let lo := mget 0 s.evh.replBase (2 * p.val)
    let hi := mget 0 s.evh.replBase (2 * p.val + 1)
    if s.ch[p].st.inService && bitAt lo 0 && bme s p && portAwake s p then
      sendTlp p 1 ⟨lo.toNat / 8192 * 8192 + hi.toNat * 2 ^ 32 + seq % 256 * 32, bs⟩ s
    else s) s

/-- Change the first packet of list 26 with a record still to store. -/
def markStored : List Pkt → List Pkt
  | [] => []
  | p :: ps => if p.sent < p.data.length then { p with sent := p.sent + 32 } :: ps else p :: markStored ps

/-- The wear record counts one more pass of the log region (Table 14.6). -/
def logPass (s : State) : State :=
  writeWear (wearCount s 0) (wearCount s 1) (wearCount s 2) (wearCount s 3) (recField s .wear 24 2 + 1) (refreshBlock s) false s

/-- A record that waits has been stored or lost: it leaves the packet at the front of what is still to store. -/
def loseStored (p : Pkt) (s : State) : State :=
  logRelease (loseRecord (p.data.getD (p.sent + 12) 0).toNat (setPkts 26 (markStored (listPkts s 26)) s))

/-- LOG_RECORD_STORE (R348 to R350, R352): the oldest record of a closed cell takes its SEQ from LOG_WR and is stored. In RETIRED no
record is stored, and the record is lost (R389), as is one whose cell holds an uncorrectable word (R214). -/
def logStore (s0 : State) : State :=
  if !logMay s0 then s0
  else
    let s := useList 26 s0
    match (listPkts s 26).find? fun p => decide (p.sent < p.data.length) with
    | some p =>
      let ws := pktWords p p.sent 32
      if !p.eop then s
      else if s.lcc.st == .retired then loseStored p s
      else if wordsBad s ws then loseStored p (meetWords ws s)
      else
        let seq := s.evh.logWr.toNat
        let r := sealRecord seq s.evh.lostNext ((p.data.drop p.sent).take 32)
        let s1 := putAlm (logBase + seq % 8192 * 32) r (setPkts 26 (markStored (listPkts s 26)) (meetWords ws s))
        let s2 := logHigh (logGap s1) { s1 with evh := { s1.evh with logWr := s1.evh.logWr + 1, lostNext := 0 } }
        let s3 := if seq % 8192 = 8191 then logPass s2 else s2
        logRelease (replicate seq r s3)
    | none => s

/-- REPL_SKIP (R352): the port is skipped for the records it has not accepted. -/
def replSkip (p : Port) (s : State) : State :=
  logRelease { s with tx := s.tx.set p { s.tx[p] with waiting := s.tx[p].waiting.filter fun e => e.1 != 1 } }

/-- Positions of the log region that hold a byte other than zero, ascending; a record of zeros is not valid. -/
def usedPositions : SMap Byte → List Nat
  | [] => []
  | e :: es =>
    let rest := usedPositions es
    if logBase ≤ e.1 ∧ e.1 < logBase + 0x40000 then
      let p := (e.1 - logBase) / 32
      if rest.head? = some p then rest else p :: rest
    else rest

/-- The valid records of the region: position and SEQ (R351). -/
def validRecords (s : State) : List (Nat × Nat) :=
  (usedPositions s.alm.mem).filterMap fun p =>
    let b := almBytes s (logBase + 32 * p) 32
    if (crc32c (b.take 28)).toNat = natLE (b.drop 28) ∧ !almBad s (logBase + 32 * p) 32 then some (p, natLE (b.take 4)) else none

/-- The records with no successor (R351). -/
def logCandidates (rs : List (Nat × Nat)) : List (Nat × Nat) :=
  rs.filter fun c => !(rs.any fun d => d.1 == (c.1 + 1) % 8192 && d.2 == (c.2 + 1) % 2 ^ 32)

/-- The newest record (R351). -/
def newestRecord (rs : List (Nat × Nat)) : Option (Nat × Nat) :=
  let cs := logCandidates rs
  let beaten (c : Nat × Nat) : Bool := cs.any fun d =>
    let x := (d.2 + 2 ^ 32 - c.2) % 2 ^ 32
    decide (1 ≤ x) && decide (x < 2 ^ 31)
  (cs.find? fun c => !beaten c).or cs.head?

/-- LOG_START (R351): the scan ends, LOG_WR and LOG_RD are set and a LOG_START record is queued; the restart that the reset sequence
ends with begins (Table 13.10, R376). -/
def logStart (s : State) : State :=
  if !s.evh.scanning || s.pwr.boot != .opened || s.pwr.brownout then s
  else
    let rs := validRecords s
    let w : Word := match newestRecord rs with | some r => BitVec.ofNat 32 (r.2 + 1) | none => 0
    restartBegin (restartIsCold s) (raiseD 255 (w32 rs.length) 0
      (almMeet logBase 0x40000 { s with evh := { s.evh with scanning := false, logWr := w, logRd := w } }))

/-! The Creel -/

/-- DROP_DONE (R208): the end of the packet that a DROP discards has been linked. -/
def dropDoneOp (q : Nat) (s : State) : State := endDropping q s

/-- Bare of its cells, which the sweep releases. -/
def bare (p : Pkt) : Pkt := { p with cells := [], owner := if p.owner = 21 then 23 else p.owner }

/-- The operation of a packet lost on a list of a segment has not ended by itself meanwhile. -/
def stillRuns (p : Pkt) (s : State) : Bool :=
  match p.origin with
  | .vote k pat => !p.isRead || ((findOpen s (BitVec.ofNat 32 k) pat).map (·.phase)) == some .started
  | .fwdRead g id => allSlots.any fun k => s.seg[g].dr[k].any fun d => d.id == id && d.result.isNone
  | .handler g level => s.seg[g].hdlBusy.contains level
  | _ => true

/-- The mailbox's access fails where segment `g` holds it. -/
def failMailOn (s : State) (g : Seg) : State :=
  match (s.seg[g].eng.toList ++ s.seg[g].paused).find? fun e => e.acc.origin == .mailbox, s.seg[g].mail with
  | some e, _ =>
    let run := s.seg[g].eng == some e
    let s1 := if run then engStop g s else modSeg g (fun x => { x with paused := x.paused.erase e }) s
    let s2 := finishFail g e.acc (dropAddr e) 1 s1
    if run then tenureEnd g s2 else s2
  | none, some a => finishFail g a (firstAddr a) 1 (modSeg g (fun x => { x with mail := none }) s)
  | none, none => s

/-- The mailbox's access fails wherever it stands (R58, R81). -/
def failMail (s : State) : State :=
  match s.rng.rem.find? fun r => r.origin == .mailbox with
  | some r => remoteOutcome r true [] s
  | none => [(0 : Seg), 1].foldl failMailOn s

/-- A read whose packet VOT_RD held fails: one under way, or for the copies that still come (R213). -/
def failHeldRead (k pat : Nat) (s : State) : State :=
  let w : Word := BitVec.ofNat 32 k
  let s1 := { s with rng := { s.rng with rem := s.rng.rem.filter fun r => r.origin != .vote k pat } }
  let spoil (e : MEntry) : MEntry := if e.k == w && e.pat == pat then { e with result := e.result.map fun _ => (true, []) } else e
  if ((findOpen s w pat).map (·.phase)) == some .started then readResult w pat true [] s1
  else { s1 with vot := { s1.vot with openE := s1.vot.openE.map spoil, closedE := s1.vot.closedE.map spoil } }

/-- The result of a forwarded read is lost: the slot holds a failure (R180, R213). -/
def failDelayed (g : Seg) (id : Nat) (s : State) : State :=
  let s1 := { s with rng := { s.rng with rem := s.rng.rem.filter fun r => r.origin != .fwdRead g id } }
  match allSlots.find? fun k => s.seg[g].dr[k].any fun d => d.id == id && d.result.isSome with
  | some k => modSeg g (fun x => { x with dr := x.dr.set k (x.dr[k].map fun d => { d with result := some (true, []) }) }) s1
  | none => fwdReadResult g id (true, []) s1

/-- A write that never reached its segment fails: its BUS_ERR and log record, and ERROR for a remote one (R81, Table 3.9). -/
def failUnsent (p : Pkt) (s : State) : State :=
  let pt := patOf p.patE
  let s1 := raiseD (segEv pt.seg 2) (w32 (p.pat % 65536)) (w32 (firstAddr (accOfPkt 10 .remote p))) s
  match p.origin with | .remote _ _ => recError pt s1 | _ => s1

/-- A packet lost by a reset of its list ends as a failed operation of its path (R213). -/
def losePkt (q : Nat) (p : Pkt) (s : State) : State :=
  match q with
  | 4 => (match p.origin with | .vote k pat => failHeldRead k pat s | .mailbox => failMail s | _ => s)
  | 8 | 9 | 10 | 11 | 12 | 13 =>
    if stillRuns p s then failHead ⟨q % 2, by omega⟩ q (setPkts q (bare p :: listPkts s q) s) else s
  | 14 | 15 =>
    (match p.origin with
     | .fwdRead g id => failDelayed g id s
     | _ => if (patOf p.patE).node = 0 then failUnsent p s else s)
  | 16 | 17 => (match p.origin with | .fwdRead g id => failDelayed g id s | _ => s)
  | 18 =>
    let g : Seg := ⟨(p.src - 5) % 2, by omega⟩
    raise (segEv g 11) (putFld (.ls g) 0x004 p.aux p.aux 0 s)
  | 20 => failRequest p s
  | 21 => respondStatus (pktPort p) (responseTo p).1 (responseTo p).2 1 p.cy s
  | 23 =>
    if p.isRead then respondStatus (pktPort p) (responseTo p).1 (responseTo p).2 1 p.cy s else failUnsent p s
  | 24 => (match remOf s p.aux with | some r => remoteOutcome r true [] s | none => s)
  | 26 =>
    (List.range ((p.data.length - p.sent + 31) / 32)).foldl (fun s i =>
      loseRecord (p.data.getD (p.sent + 32 * i + 12) 0).toNat (nextCycle s)) s
  | _ => s

/-- RECLAIM_DONE (R212, R213): the sweep releases the lost cells, or relinks those of the free list; a further sweep follows for
the lists that were reset meanwhile. -/
def reclaimDone (s : State) : State :=
  if !s.crl.sweep then s
  else
    let lost := s.crl.lostCells
    let c := lost.foldl (fun c e => if e.2 = 63 then c else setQ e.2 { getQ c e.2 with held := (getQ c e.2).held - 1 } c) s.crl
    let owned := (lost.filter fun e => e.2 != 63).length
    let c1 := { c with
      free := c.free ++ lost.map (·.1), uncovered := c.uncovered - owned,
      lostCells := c.nextCells, lostPkts := c.nextPkts, resets := c.nextResets, nextCells := [], nextPkts := [], nextResets := [],
      sweep := c.sweepPending, sweepPending := false, sweepReleased := lost.length }
    pump (raise 115 (s.crl.lostPkts.foldl (fun s e => losePkt e.1 e.2 (nextCycle s)) { s with crl := c1 }))

/-! The scrubber (R418, R419) -/

/-- Words of the memories of Table 15.2. -/
def memWords (m : Nat) : Nat :=
  [1048576, 65536, 262144, 65536, 131072, 10240, 131072, 16384].getD m 0

/-- SCRUB_VISIT (R418, R419): one word is read; a corrected one is written back, an uncorrectable one is reported. A pass ends with
the last word. -/
def scrubVisit (m w : Nat) (s : State) : State :=
  if getFld s .cnt 0x004 0 0 = 0 ∨ domGate s 0 ≠ 0 ∨ s.pwr.boot ≠ .opened ∨ memWords m ≤ w then s
  else
    let bad := eccOf s m w = some true
    let s1 := readEcc m w (w + 1) { s with tap := { s.tap with scrubMem := m } }
    let s2 := if bad then raiseD 231 (w32 m) (w32 w) s1 else s1
    if w + 1 = memWords m then
      { s2 with evh := { s2.evh with memErr := mset 0 (4 * m + 3) (mget 0 s2.evh.memErr (4 * m + 3) + 1) s2.evh.memErr } }
    else s2

/-! The test access port (R421, R423) -/

/-- The instructions of Table 15.3; every other opcode acts as BYPASS. -/
def tapInstr (ir : BitVec 6) : BitVec 6 :=
  if [0x00#6, 0x01#6, 0x02#6, 0x04#6, 0x05#6, 0x06#6, 0x07#6].contains ir then ir else 0x3F#6

/-- An instruction takes the pins (Table 15.3). -/
def tapTakes (ir : BitVec 6) : Bool := [0x00#6, 0x04#6, 0x05#6, 0x06#6, 0x07#6].contains ir

/-- The device identification register (R421). -/
def idcode : Word := 0x148105F7#32

/-- TAP_UPDATE_IR (R423). -/
def tapUpdate (ir : BitVec 6) (s : State) : State :=
  let i := if tapTakes ir && s.lcc.st == .service then 0x3F#6 else tapInstr ir
  raiseIf s.tap.tlr 248 { s with tap := { s.tap with tlr := false, ir := i, taken := tapTakes i } }

/-- TAP_RESET (R423): Test-Logic-Reset selects IDCODE and returns the pins. -/
def tapResetOp (s : State) : State := { s with tap := { s.tap with tlr := true, ir := 0x01, taken := false } }

/-! Times of the vote unit -/

/-- ADMISSION_END (R123): 2 s have passed since the ports opened; promotion is evaluated (R151). -/
def admissionEnd (s : State) : State :=
  if s.vot.admitOn && s.pwr.boot == .opened then pump (settleChannels { s with vot := { s.vot with admitOn := false } }) else s

/-- COMMIT (R143, R270): the writes of `n` by `first`, the earlier, and `second` meet. In 1OO1 one write is enough (R33). -/
def commitCmd (n : Word) (first second : Port) (s : State) : State :=
  let key := voteKey .img 0x04C
  let held (c : Port) : Option Word := (s.bus.voted[c].find? fun e => e.key == key && e.value == n.setWidth 64).map (·.k)
  let kOf (c : Port) : Word := (held c).getD s.ch[c].k
  let act (c : Port) : Bool := s.ch[c].st == .active
  if s.vot.mode == .m1oo1 then
    if act first && first == second then pump (commitOp n first first (kOf first) (kOf first) (commitSeen first n s)) else s
  else if act first && act second && first != second then
    let s1 := dropEntry first key (dropEntry second key (commitSeen second n (commitHeld first n s)))
    pump (commitOp n first second (kOf first) (kOf second) (noteRecent key (n.setWidth 64) s1))
  else s

/-- NO_MAJORITY (R144): CWIN has passed since the first commit write of `n`; nothing of `n` or later took effect. -/
def noMajority (n : Word) (s : State) : State :=
  if !s.vot.attempts.contains n then s
  else
    let s1 := { s with vot := { s.vot with attempts := s.vot.attempts.filter (· != n) } }
    if commitReached s n then s1 else pump (settleChannels (stopController 2 (raise 54 s1)))

/-- THIRD_COPY_MISSING (R145, R149): CWIN has passed since the commit; a third channel is charged, a READY or OBSERVER channel
misses. -/
def thirdMissingOp (t : Port) (s : State) : State :=
  match s.vot.last with
  | some ci =>
    if s.ch[t].copyOf == some ci.n || s.ch[t].cmpOf == some ci.n then s
    else if s.ch[t].st == .active then
      if ci.three && !ci.thirdDone && ci.digestValid && t != ci.first && t != ci.second && s.ch[t].aligned then
        pump (charge s.vot.mode t { s with vot := { s.vot with last := some { ci with thirdDone := true } } })
      else s
    else if ci.digestValid then pump (settleChannels (observerMiss t (modCh t (fun x => { x with cmpOf := some ci.n }) s)))
    else s
  | none => s

/-- DIVERGENT_CLEAR (R148): DIVERGE_SPAN controller cycles have passed without a charge or a Completer Abort under R138. -/
def divergentClear (c : Port) (s : State) : State :=
  let recent := (s.ch[c].charges ++ s.ch[c].caStamp.toList).any fun t => decide (cycDist t (stampNow s) < divSpan s)
  if recent then s else modCh c (fun x => { x with divergent := false }) s

end Sys2Proof.Machine
end

