-- ==== Sys2Proof/Machine/CmdBase.lean ====
section
/-!
DEFINITION. When a command finds the device able to take it: the gates that the meanings of the commands share. A command that finds
no such device changes nothing (DESIGN CHOICE, log entry 1).
-/

namespace Sys2Proof.Machine

open Sys2Proof

/-- Only while the channel ports are open (Table 13.10): registers can be reached and CORE's functions run. -/
def opened (f : State → State) (s : State) : State := if s.pwr.boot = .opened then f s else s

/-- Only outside device reset (R371). -/
def outOfReset (f : State → State) (s : State) : State := if s.pwr.boot = .inReset then s else f s

/-- Only while the data-link layer of port `p` is up. -/
def linkUp (p : Port) (f : State → State) (s : State) : State := if s.port[p].dlUp then f s else s

/-- What waits in the slaves for cells, or for earlier accesses, goes on once a command has released them (R177, R179, R180). -/
def endPump (s : State) : State := slavePumps s

/-- A write of requester `r` takes effect at once: the ports are open, its port's BARs respond, and no earlier request waits there
(R94, R100, R203). -/
def lands (s : State) (r : Req) : Bool :=
  match reqPort r with
  | none => s.pwr.boot == .opened
  | some p => portOpen s p && barOn s p && s.port[p].rx.isEmpty && s.port[p].bar.isEmpty

/-- A write of requester `r` is received: CORE wakes, a port leaves L1 (R119, R120, R370). -/
def landed (r : Req) (s : State) : State :=
  match reqPort r with
  | none => wakeCore 2 4 s
  | some p => portWake p (receipt p s)

/-- R16 and Table 5.3 let requester `r` write a register. -/
def permits (s : State) (r : Req) (k : PageKind) (off : Nat) : Bool :=
  !pageRefused r k && (match reqPort r with | none => true | some c => writeRight s c k off == .yes)

/-- The value write and the write of its complement to GUARD (R28). -/
def twoWrites (r : Req) (k : PageKind) (off : Nat) (d : Word) (s : State) : State :=
  bar0Write r (regAddr k 0x028) true (~~~ d) (bar0Write r (regAddr k off) true d s)

/-- A guarded sequence of requester `r` on a register of page `k` with value `d` (R28, R31): where both writes take effect at once it
completes; else each has its own fate. -/
def guarded (r : Req) (k : PageKind) (off : Nat) (d : Word) (s : State) : State :=
  if lands s r && permits s r k off then guardEffect r k off off d (breakGuard r k k.num off (landed r s))
  else twoWrites r k off d s

/-- A write of a V field by channel `c`, past a guarded sequence if the register has one (R31, R32). -/
def votedWriteOp (c : Port) (k : PageKind) (raw : Nat) (v : Word) (s : State) : State :=
  let r := portReq c
  if lands s r && permits s r k (foldOff raw) then
    voteWord r k (foldOff raw) raw v (breakGuard r k k.num (foldOff raw) (landed r s))
  else if hasG k (foldOff raw) then twoWrites r k raw v s else bar0Write r (regAddr k raw) true v s

end Sys2Proof.Machine
end

