-- ==== Sys2Proof/Machine/CmdsLife.lean ====
section
/-!
DEFINITION. The meanings of the commands of the life cycle, the seal, physical presence and the Almanac (chapter 14).
-/

namespace Sys2Proof.Machine

open Sys2Proof

/-- A guarded write of LC_CMD with operation `op` and CONFIRM `confirm` (R387, Table 14.10). -/
def lcRow (r : Req) (op confirm : Nat) (s : State) : State := guarded r .lcc 0x044 (w32 (op + confirm * 65536)) s

/-- LC_TO_COMMISSIONING (R387). -/
def execLcToCommissioning (r : Req) (s : State) : Host.Outcome State Fault Refusal := run (lcRow r 1 0) s

/-- LC_TO_SERVICE (R387). -/
def execLcToService (r : Req) (s : State) : Host.Outcome State Fault Refusal := run (lcRow r 2 0) s

/-- LC_TO_MAINTENANCE (R387). -/
def execLcToMaintenance (r : Req) (s : State) : Host.Outcome State Fault Refusal := run (lcRow r 3 0) s

/-- LC_TO_RETIRED (R387). -/
def execLcToRetired (r : Req) (confirm : BitVec 16) (s : State) : Host.Outcome State Fault Refusal :=
  run (lcRow r 4 confirm.toNat) s

/-- SEAL_ARM (R393). -/
def execSealArm (r : Req) (s : State) : Host.Outcome State Fault Refusal := run (lcRow r 5 0) s

/-- SEAL_DISARM (R393). -/
def execSealDisarm (r : Req) (s : State) : Host.Outcome State Fault Refusal := run (lcRow r 6 0) s

/-- SEAL_CLEAR (R393). -/
def execSealClear (r : Req) (s : State) : Host.Outcome State Fault Refusal := run (lcRow r 7 0) s

/-- FUSE_VERIFY_DONE (R394). -/
def execFuseVerifyDone (ok : Bool) (s : State) : Host.Outcome State Fault Refusal := run (opened (fuseDone ok)) s

/-- LC_ALERT (R389): the transition ends. -/
def execLcAlert (s : State) : Host.Outcome State Fault Refusal := run (opened lcFinish) s

/-- PRESENCE_ASSERT (R390). -/
def execPresenceAssert (s : State) : Host.Outcome State Fault Refusal := run presenceOn s

/-- PRESENCE_RELEASE (R390). -/
def execPresenceRelease (s : State) : Host.Outcome State Fault Refusal := run presenceOff s

/-- PRESENCE_TIMEOUT (R390). -/
def execPresenceTimeout (s : State) : Host.Outcome State Fault Refusal := run presenceExpire s

/-- SEAL_CHECK (R392): the bits the loop returns. -/
def execSealCheck (sampled : BitVec 16) (s : State) : Host.Outcome State Fault Refusal := run (sealCheckOp sampled) s

/-- A guarded write of ALM.OP_CMD with operation `op` (R403, Table 14.7). -/
def almRow (r : Req) (op : Nat) (s : State) : State := guarded r .alm 0x048 (w32 op) s

/-- WRITE_WEAVE (R403). -/
def execWriteWeave (r : Req) (s : State) : Host.Outcome State Fault Refusal := run (almRow r 1) s

/-- WEAVE_STREAM_GAP_TIMEOUT (R403). -/
def execWeaveStreamGapTimeout (s : State) : Host.Outcome State Fault Refusal := run streamTimeout s

/-- INVALIDATE_WEAVE (R403). -/
def execInvalidateWeave (r : Req) (s : State) : Host.Outcome State Fault Refusal := run (almRow r 2) s

/-- SAVE_RETAIN (R403). -/
def execSaveRetain (r : Req) (s : State) : Host.Outcome State Fault Refusal := run (almRow r 3) s

/-- INVALIDATE_RETAIN (R403). -/
def execInvalidateRetain (r : Req) (s : State) : Host.Outcome State Fault Refusal := run (almRow r 4) s

/-- WRITE_IDENT (R403). -/
def execWriteIdent (r : Req) (s : State) : Host.Outcome State Fault Refusal := run (almRow r 5) s

/-- ALM_ABORT (R403). -/
def execAlmAbort (r : Req) (s : State) : Host.Outcome State Fault Refusal := run (almRow r 6) s

/-- OP_DONE (R403). -/
def execOpDone (s : State) : Host.Outcome State Fault Refusal := run opDone s

/-- REFRESH_STEP (R407). -/
def execRefreshStep (s : State) : Host.Outcome State Fault Refusal := run refreshStep s

end Sys2Proof.Machine
end

