-- ==== Sys2Proof/Machine/CmdsLoom.lean ====
section
/-!
DEFINITION. The meanings of the Loom's commands (chapter 8): cycles, entries, skips, gaps, the standby set, arming and the switch.
-/

namespace Sys2Proof.Machine

open Sys2Proof

/-- LOOM_CYCLE_START (R224). -/
def execLoomCycleStart (s : State) : Host.Outcome State Fault Refusal := run loomCycleOp s

/-- LEGACY_ENTRY (R228). -/
def execLegacyEntry (i : BitVec 14) (s : State) : Host.Outcome State Fault Refusal := run (legacyEntry i.toNat) s

/-- RING_TX_ENTRY (R228). -/
def execRingTxEntry (i : BitVec 14) (s : State) : Host.Outcome State Fault Refusal := run (ringTxEntry i.toNat) s

/-- RING_RX_ENTRY (R228). -/
def execRingRxEntry (i : BitVec 14) (s : State) : Host.Outcome State Fault Refusal := run (ringRxEntry i.toNat) s

/-- RING_RX_WINDOW_CLOSE (R267). -/
def execRingRxWindowClose (i : BitVec 14) (s : State) : Host.Outcome State Fault Refusal := run (windowClose i.toNat) s

/-- SYNC_ENTRY (R228). -/
def execSyncEntry (i : BitVec 14) (s : State) : Host.Outcome State Fault Refusal := run (syncEntry i.toNat) s

/-- POWER_ON_ENTRY (R236). -/
def execPowerOnEntry (e : EntryAt) (s : State) : Host.Outcome State Fault Refusal := run (powerOnEntry e.entry.toNat e.time) s

/-- POWER_OFF_ENTRY (R236). -/
def execPowerOffEntry (e : EntryAt) (s : State) : Host.Outcome State Fault Refusal := run (powerOffEntry e.entry.toNat e.time) s

/-- ALM_STOP (R236). -/
def execAlmStop (s : State) : Host.Outcome State Fault Refusal := run almStopOp s

/-- MARK (R228). -/
def execMark (e : EntryAt) (s : State) : Host.Outcome State Fault Refusal := run (markEntry e.entry.toNat e.time) s

/-- DEADLINE (R228). -/
def execDeadline (e : EntryAt) (s : State) : Host.Outcome State Fault Refusal := run (deadlineEntry e.entry.toNat e.time) s

/-- SKIP (R231). -/
def execSkip (i : BitVec 14) (s : State) : Host.Outcome State Fault Refusal := run (skipOp i.toNat) s

/-- GAP_WAIT_EXPIRE (R235). -/
def execGapWaitExpire (g : Seg) (place : Place) (s : State) : Host.Outcome State Fault Refusal := run (gapWaitExpire g place) s

/-- GAP_OVERRUN (R235). -/
def execGapOverrun (g : Seg) (s : State) : Host.Outcome State Fault Refusal := run (gapOverrun g) s

/-- LOAD (R243). -/
def execLoad (r : Req) (slot : Fin 2) (s : State) : Host.Outcome State Fault Refusal :=
  run (guarded r .lom 0x06C (w32 (1 + 16 * slot.val))) s

/-- LOAD_CLEAR (R243). -/
def execLoadClear (r : Req) (s : State) : Host.Outcome State Fault Refusal := run (guarded r .lom 0x06C 2) s

/-- LOAD_DONE (R243). -/
def execLoadDone (s : State) : Host.Outcome State Fault Refusal := run loadDone s

/-- CHECK_CMD (R245). -/
def execCheckCmd (r : Req) (s : State) : Host.Outcome State Fault Refusal :=
  run (bar0Write r (regAddr .lom 0x05C) true 1) s

/-- CHECK_DONE (R245). -/
def execCheckDone (s : State) : Host.Outcome State Fault Refusal := run checkDone s

/-- ARM (R250). -/
def execArm (dropOk : Bool) (s : State) : Host.Outcome State Fault Refusal := run (opened (armOp dropOk)) s

/-- ARMED (R250). -/
def execArmed (ok : Bool) (s : State) : Host.Outcome State Fault Refusal := run (armedOp ok) s

/-- DISARM (R252). -/
def execDisarm (s : State) : Host.Outcome State Fault Refusal := run (opened disarmOp) s

/-- SWITCHED (R253). -/
def execSwitched (s : State) : Host.Outcome State Fault Refusal := run switchedOp s

end Sys2Proof.Machine
end

