-- ==== Sys2Proof/Machine/CmdsPort.lean ====
section
/-!
DEFINITION. The meanings of the channel port commands (chapters 3, 4 and 5): configuration and BAR requests, pushes, port resets,
links, and their errors.
-/

namespace Sys2Proof.Machine

open Sys2Proof

/-- CONFIG_REQUEST (R92). -/
def execConfigRequest (p : Port) (dw : BitVec 10) (write : Bool) (be : BitVec 4) (data : Word) (tag : BitVec 10) (s : State) :
    Host.Outcome State Fault Refusal :=
  run (configOp p dw.toNat write be data tag.toNat) s

/-- A request of this kind can be one that Table 4.8 answers so: those of a disabled memory space need it disabled. -/
def urApplies (s : State) (p : Port) (k : UrKind) : Bool :=
  match k with
  | .disabledNonPosted => !barOn s p
  | .disabledPosted => !barOn s p
  | .unsupportedNonPosted => true
  | .unsupportedPosted => true
  | .noBarNonPosted => true
  | .noBarPosted => true
  | .vendorMessage0 => true
  | .vendorMessage1 => true

/-- UNSUPPORTED_REQUEST (R91, R94, R113). -/
def execUnsupportedRequest (p : Port) (kind : UrKind) (tag : BitVec 10) (s : State) : Host.Outcome State Fault Refusal :=
  run (fun s => if urApplies s p kind then unsupportedIn p kind tag.toNat s else s) s

/-- MALFORMED_TLP (R95, R113). -/
def execMalformedTlp (p : Port) (kind : FatalErr) (s : State) : Host.Outcome State Fault Refusal :=
  run (linkUp p (malformedOp p kind)) s

/-- BAR2_READ (R99, R259). -/
def execBar2Read (p : Port) (off : BitVec 25) (len : Nat) (tag : BitVec 10) (s : State) : Host.Outcome State Fault Refusal :=
  run (bar2ReadOp p off.toNat len tag.toNat) s

/-- BAR2_WRITE (R50, R260). -/
def execBar2Write (p : Port) (off : BitVec 25) (data : List Byte) (be : List Bool) (poisoned : Bool) (s : State) :
    Host.Outcome State Fault Refusal :=
  run (bar2WriteOp p off.toNat data be poisoned) s

/-- BAR4_WRITE (R131). -/
def execBar4Write (p : Port) (pat : BitVec 16) (off : BitVec 12) (data : List Byte) (be : List Bool) (poisoned ecrcBad : Bool)
    (s : State) : Host.Outcome State Fault Refusal :=
  run (bar4WriteOp p pat.toNat off.toNat data be poisoned ecrcBad) s

/-- BAR4_READ (R138). -/
def execBar4Read (p : Port) (pat : BitVec 16) (off : BitVec 12) (len : BytesRead) (tag : BitVec 10) (s : State) :
    Host.Outcome State Fault Refusal :=
  run (bar4ReadOp p pat.toNat off.toNat len.len len.be tag.toNat) s

/-- FLUSH_READ (R70). -/
def execFlushRead (p : Port) (tag : BitVec 10) (s : State) : Host.Outcome State Fault Refusal :=
  run (flushReadOp p tag.toNat) s

/-- FLUSH_READ_COMPLETE (R70). -/
def execFlushReadComplete (p : Port) (tag : BitVec 10) (s : State) : Host.Outcome State Fault Refusal :=
  run (flushDone p tag.toNat) s

/-- BAR4_TLP_CLAIM_GRANT (R203). -/
def execBar4TlpClaimGrant (p : Port) (s : State) : Host.Outcome State Fault Refusal := run (claimGrant p) s

/-- PUSH_START (R105). -/
def execPushStart (p : Port) (s : State) : Host.Outcome State Fault Refusal := run (pushStartOp p) s

/-- PUSH_DONE (R106). -/
def execPushDone (p : Port) (s : State) : Host.Outcome State Fault Refusal := run (pushDoneOp p) s

/-- PERST (R115): in device reset the pin is seen, and the port is in reset with the device. -/
def execPerst (p : Port) (s : State) : Host.Outcome State Fault Refusal :=
  run (fun s => if s.pwr.boot = .inReset then modPort p (fun q => { q with perst := true }) s else perstOp p s) s

/-- HOT_RESET (R115). -/
def execHotReset (p : Port) (s : State) : Host.Outcome State Fault Refusal := run (linkUp p (hotResetOp p)) s

/-- DL_DOWN (R115). -/
def execDlDown (p : Port) (s : State) : Host.Outcome State Fault Refusal := run (linkUp p (dlDownOp p)) s

/-- FLR (R115): a configuration write, so a port that answers Retry Status takes none. -/
def execFlr (p : Port) (s : State) : Host.Outcome State Fault Refusal :=
  run (flrIn p) s

/-- DL_UP (R124). -/
def execDlUp (p : Port) (speed : BitVec 4) (width : BitVec 6) (credits : Option (Nat × Nat)) (s : State) :
    Host.Outcome State Fault Refusal :=
  run (dlUpOp p speed.toNat width.toNat credits) s

/-- PORT_READY (R117). -/
def execPortReady (p : Port) (s : State) : Host.Outcome State Fault Refusal := run (portReadyOp p) s

/-- L1_ENTRY (R119). -/
def execL1Entry (p : Port) (s : State) : Host.Outcome State Fault Refusal := run (l1EntryOp p) s

/-- L1_EXIT (R119). -/
def execL1Exit (p : Port) (s : State) : Host.Outcome State Fault Refusal := run (l1ExitOp p) s

/-- PME_TURN_OFF (R118). -/
def execPmeTurnOff (p : Port) (s : State) : Host.Outcome State Fault Refusal := run (pmeTurnOffOp p) s

/-- PERST_RELEASE (R374). -/
def execPerstRelease (p : Port) (s : State) : Host.Outcome State Fault Refusal := run (perstReleaseOp p) s

/-- UNEXPECTED_COMPLETION (R113). -/
def execUnexpectedCompletion (p : Port) (s : State) : Host.Outcome State Fault Refusal := run (linkUp p (unexpectedCpl p)) s

/-- LINK_LAYER_ERROR (R113). -/
def execLinkLayerError (p : Port) (kind : LinkErr) (s : State) : Host.Outcome State Fault Refusal :=
  run (linkUp p (linkLayerError p kind)) s

/-- LINK_SPEED_WIDTH_CHANGE (R121). -/
def execLinkSpeedWidthChange (p : Port) (speed : BitVec 4) (width : BitVec 6) (s : State) : Host.Outcome State Fault Refusal :=
  run (linkChange p speed.toNat width.toNat) s

/-- POSTED_CREDIT_RETURN (R98). -/
def execPostedCreditReturn (p : Port) (ph pd : Nat) (s : State) : Host.Outcome State Fault Refusal :=
  run (linkUp p (creditReturn p ph pd)) s

/-- REJOIN (R152). -/
def execRejoin (r : Req) (p : Port) (s : State) : Host.Outcome State Fault Refusal := run (guarded r (.cp p) 0x06C 1) s

end Sys2Proof.Machine
end

