-- ==== Sys2Proof/Machine/CmdsPower.lean ====
section
/-!
DEFINITION. The meanings of the commands of clocks, power, resets and supplies (chapter 13), of the event log (chapter 12), of the
scrubber and of the test access port (chapter 15).
-/

namespace Sys2Proof.Machine

open Sys2Proof

/-! The event log -/

/-- LOG_CELL_CLOSE (R347). -/
def execLogCellClose (s : State) : Host.Outcome State Fault Refusal := run logClose s

/-- LOG_RECORD_STORE (R348). -/
def execLogRecordStore (s : State) : Host.Outcome State Fault Refusal := run logStore s

/-- REPL_SKIP (R352). -/
def execReplSkip (p : Port) (s : State) : Host.Outcome State Fault Refusal := run (replSkip p) s

/-- LOG_START (R351). -/
def execLogStart (s : State) : Host.Outcome State Fault Refusal := run logStart s

/-! Clock faults -/

/-- CLKFAIL (R360). -/
def execClkfail (s : State) : Host.Outcome State Fault Refusal := run clkfailOp s

/-- SYS_PLL_UNLOCK (R360): a PLL that has locked loses lock; the device reset has cause PLL. -/
def execSysPllUnlock (s : State) : Host.Outcome State Fault Refusal :=
  run (fun s => if s.pwr.sysLock then deviceReset 5 s else s) s

/-- SERDES_PLL_UNLOCK (R360). -/
def execSerdesPllUnlock (s : State) : Host.Outcome State Fault Refusal := run serdesUnlock s

/-- PHY_PLL_UNLOCK (R360). -/
def execPhyPllUnlock (p : Port) (s : State) : Host.Outcome State Fault Refusal := run (phyUnlock p) s

/-- SERDES_PLL_LOCK (R360). -/
def execSerdesPllLock (s : State) : Host.Outcome State Fault Refusal := run serdesLockOp s

/-- PHY_PLL_LOCK (R374). -/
def execPhyPllLock (p : Port) (s : State) : Host.Outcome State Fault Refusal := run (phyLockOp p) s

/-- XTO (R364). -/
def execXto (pair : Fin 15) (s : State) : Host.Outcome State Fault Refusal :=
  run (outOfReset fun s => endPump (xtoOp pair s)) s

/-! Power states -/

/-- A voted PCMD as a row: which of the two writers a refusal names is not stated, and is a free value (DESIGN CHOICE, log entry 12). -/
def votedPcmd (v : Word) (s : State) : State := endPump (pcmdWrite ((freeVal s).toNat % 5) 0x044 v (tookFree s))

/-- PCMD_RUN (R367). -/
def execPcmdRun (s : State) : Host.Outcome State Fault Refusal := run (opened (votedPcmd 1)) s

/-- PCMD_LISTEN (R367). -/
def execPcmdListen (s : State) : Host.Outcome State Fault Refusal := run (opened (votedPcmd 2)) s

/-- PCMD_HOLD (R367). -/
def execPcmdHold (s : State) : Host.Outcome State Fault Refusal := run (opened (votedPcmd 3)) s

/-- PCMD_RESET (R367). -/
def execPcmdReset (s : State) : Host.Outcome State Fault Refusal := run (opened (votedPcmd 4)) s

/-- PSTATE_CHG (R368). -/
def execPstateChg (s : State) : Host.Outcome State Fault Refusal := run pstateChg s

/-- CORE_GATE (R370). -/
def execCoreGate (s : State) : Host.Outcome State Fault Refusal := run coreGate s

/-! Resets -/

/-- POWER_ON_RESET (R371). -/
def execPowerOnReset (s : State) : Host.Outcome State Fault Refusal := run (deviceReset 0) s

/-- VDDIO_RESET (R371). -/
def execVddioReset (s : State) : Host.Outcome State Fault Refusal := run (deviceReset 1) s

/-- VDD_RESET (R371). -/
def execVddReset (s : State) : Host.Outcome State Fault Refusal := run (deviceReset 2) s

/-- RESET_IN (R371). -/
def execResetIn (s : State) : Host.Outcome State Fault Refusal := run (deviceReset 3) s

/-- RESET_CAUSE_END (R371). -/
def execResetCauseEnd (cause : Fin 7) (s : State) : Host.Outcome State Fault Refusal := run (causeEnd cause.val) s

/-- RESET_RELEASE (R371, R374). -/
def execResetRelease (straps : BitVec 6) (s : State) : Host.Outcome State Fault Refusal := run (resetRelease straps.toNat) s

/-- SYS_PLL_LOCK (R374). -/
def execSysPllLock (s : State) : Host.Outcome State Fault Refusal := run sysPllLock s

/-- WIPE_DONE (R375). -/
def execWipeDone (s : State) : Host.Outcome State Fault Refusal := run wipeDone s

/-- PORTS_OPEN (R374). -/
def execPortsOpen (s : State) : Host.Outcome State Fault Refusal := run portsOpen s

/-! Supplies -/

/-- WARN (R378). -/
def execWarn (cond : Supply) (s : State) : Host.Outcome State Fault Refusal := run (warnOp cond) s

/-- RETAIN_SAVE_START (R379). -/
def execRetainSaveStart (s : State) : Host.Outcome State Fault Refusal := run retainSaveStart s

/-- RETAIN_SAVED (R379). -/
def execRetainSaved (s : State) : Host.Outcome State Fault Refusal := run retainSaved s

/-- RECOVER (R380). -/
def execRecover (s : State) : Host.Outcome State Fault Refusal := run recoverOp s

/-- RECOVERY_TIME_START (R380). -/
def execRecoveryTimeStart (s : State) : Host.Outcome State Fault Refusal := run recoveryStart s

/-- WARNING_RETURN_IN_HOLD (R380). -/
def execWarningReturnInHold (cond : Supply) (s : State) : Host.Outcome State Fault Refusal := run (warningReturn cond) s

/-- VMON_SUPPLY_LOW (R377). -/
def execVmonSupplyLow (rail : Rail) (s : State) : Host.Outcome State Fault Refusal := run (vmonLow rail) s

/-- VMON_SUPPLY_OK (R377). -/
def execVmonSupplyOk (rail : Rail) (s : State) : Host.Outcome State Fault Refusal := run (vmonOk rail) s

/-! Scrubber and test access port -/

/-- SCRUB_VISIT (R418). -/
def execScrubVisit (memory : Fin 8) (word : Nat) (s : State) : Host.Outcome State Fault Refusal := run (scrubVisit memory.val word) s

/-- TAP_UPDATE_IR (R423). -/
def execTapUpdateIr (ir : BitVec 6) (s : State) : Host.Outcome State Fault Refusal := run (tapUpdate ir) s

/-- TAP_RESET (R423). -/
def execTapReset (s : State) : Host.Outcome State Fault Refusal := run tapResetOp s

end Sys2Proof.Machine
end

