-- ==== Sys2Proof/Machine/CmdsReg.lean ====
section
/-!
DEFINITION. The meanings of the register commands (chapter 2): writes and reads of BAR0, guarded and voted writes, updates, snapshots,
and the maintenance port.
-/

namespace Sys2Proof.Machine

open Sys2Proof

/-- Address of the register at offset `off` of page number `page`. -/
def pageAddr (page : BitVec 8) (off : Nat) : Nat := page.toNat * 0x1000 + off

/-- `page` is a register page. -/
def isPage (page : BitVec 8) : Bool := (pageKind page.toNat).isSome

/-- REGISTER_WRITE (R9 to R24). -/
def execRegisterWrite (r : Req) (addr : BitVec 20) (be : BitVec 4) (data : PostedDw) (s : State) :
    Host.Outcome State Fault Refusal :=
  run (match reqPort r with
    | some p => bar0WriteOp p (addr.toNat / 4 * 4) ((List.range 4).map be.getLsbD) data.word data.poisoned
    | none => bar0Write r addr.toNat (be == 0xF) data.word) s

/-- Address `a` of requester `r` names no register and no array (R11, R41). -/
def unassignedAt (r : Req) (a : Nat) : Bool :=
  if 0x80000 ≤ a ∧ a < 0x90000 then (aliasTarget (a / 4 * 4)).isNone
  else (pageKind (a / 0x1000)).isNone && !inArray r (a / 0x1000) (a / 4 * 4 % 0x1000)

/-- UNASSIGNED_PAGE_WRITE (R11). -/
def execUnassignedPageWrite (r : Req) (addr : BitVec 20) (data : Word) (s : State) : Host.Outcome State Fault Refusal :=
  run (fun s => if unassignedAt r addr.toNat then bar0Write r addr.toNat true data s else s) s

/-- EVENT_ACK (R21). -/
def execEventAck (r : Req) (page : BitVec 8) (seq : BitVec 8) (mask : BitVec 24) (s : State) : Host.Outcome State Fault Refusal :=
  run (fun s => if isPage page then bar0Write r (pageAddr page 0x010) true (seq ++ mask) s else s) s

/-- LOCK_WRITE (R23). -/
def execLockWrite (r : Req) (page : BitVec 8) (data : Word) (s : State) : Host.Outcome State Fault Refusal :=
  run (fun s => if isPage page then bar0Write r (pageAddr page 0x018) true data s else s) s

/-- IND_DATA_READ (R25). -/
def execIndDataRead (r : Req) (page : BitVec 8) (tag : BitVec 10) (s : State) : Host.Outcome State Fault Refusal :=
  run (fun s => if isPage page then regReadOp r (pageAddr page 0x024) 1 tag.toNat s else s) s

/-- IND_DATA_WRITE (R25). -/
def execIndDataWrite (r : Req) (page : BitVec 8) (data : Word) (s : State) : Host.Outcome State Fault Refusal :=
  run (fun s => if isPage page then bar0Write r (pageAddr page 0x024) true data s else s) s

/-- INDIRECT_TIMEOUT (R26). -/
def execIndirectTimeout (r : Req) (page : BitVec 8) (write : Bool) (data : Word) (tag : BitVec 10) (s : State) :
    Host.Outcome State Fault Refusal :=
  run (indTimeoutAny r page.toNat write data tag.toNat) s

/-- Page `page` has a register with a G field at offset `off` (R28). -/
def guardedAt (page : BitVec 8) (off : BitVec 12) : Bool :=
  match pageKind page.toNat with | some k => hasG k (foldOff (off.toNat / 4 * 4)) | none => false

/-- GUARDED_VALUE_WRITE (R28). -/
def execGuardedValueWrite (r : Req) (page : BitVec 8) (off : BitVec 12) (value : Word) (s : State) :
    Host.Outcome State Fault Refusal :=
  run (fun s => if guardedAt page off then bar0Write r (pageAddr page off.toNat) true value s else s) s

/-- GUARD_WRITE (R28, R29). -/
def execGuardWrite (r : Req) (page : BitVec 8) (value : Word) (s : State) : Host.Outcome State Fault Refusal :=
  run (fun s => if isPage page then bar0Write r (pageAddr page 0x028) true value s else s) s

/-- GUARD_TIMEOUT (R29). -/
def execGuardTimeout (r : Req) (page : BitVec 8) (s : State) : Host.Outcome State Fault Refusal :=
  run (opened fun s => match pageKind page.toNat with | some k => guardTimeoutOp r k s | none => s) s

/-- VOTED_WRITE (R32 to R36): a write of a V field, past a guarded sequence if the register has one. -/
def execVotedWrite (c : Port) (page : BitVec 8) (off : BitVec 12) (value : Word) (s : State) : Host.Outcome State Fault Refusal :=
  run (fun s =>
    match pageKind page.toNat with
    | some k =>
      if hasV k (foldOff (off.toNat / 4 * 4)) then votedWriteOp c k (off.toNat / 4 * 4) value s else s
    | none => s) s

/-- VOTED_ENTRY_EXPIRE (R32, R142). -/
def execVotedEntryExpire (c : Port) (page : BitVec 8) (off : BitVec 12) (s : State) : Host.Outcome State Fault Refusal :=
  run (opened fun s =>
    match pageKind page.toNat with | some k => voteExpire c k (foldOff (off.toNat / 4 * 4)) s | none => s) s

/-- UPDATE (R38). -/
def execUpdate (r : Req) (strobe : Word) (s : State) : Host.Outcome State Fault Refusal :=
  run (bar0Write r (regAddr .glb 0x060) true strobe) s

/-- GROUP7_UPDATE_APPLY (R38). -/
def execGroup7UpdateApply (s : State) : Host.Outcome State Fault Refusal := run (opened group7Apply) s

/-- BIT_ALIAS_WRITE (R42) at an offset of the alias region. -/
def execBitAliasWrite (r : Req) (addr : BitVec 16) (data : Word) (s : State) : Host.Outcome State Fault Refusal :=
  run (bar0Write r (0x80000 + addr.toNat) true data) s

/-- SNAP (R44). -/
def execSnap (r : Req) (go clear : Bool) (s : State) : Host.Outcome State Fault Refusal :=
  run (bar0Write r (regAddr .glb 0x068) true (w32 (bnat go + 2 * bnat clear))) s

/-- REGISTER_READ (R43). -/
def execRegisterRead (r : Req) (addr : BitVec 20) (tag : DwRead) (s : State) : Host.Outcome State Fault Refusal :=
  run (regReadOp r addr.toNat tag.dws tag.tag.toNat) s

/-- USER_PAGE_READ (R417). -/
def execUserPageRead (r : Req) (off : BitVec 12) (tag : BitVec 10) (s : State) : Host.Outcome State Fault Refusal :=
  run (regReadOp r (regAddr .cntu off.toNat) 1 tag.toNat) s

/-- A counter overflow register (R420). -/
def isOvf (addr : Nat) : Bool :=
  let off := foldOff (addr / 4 * 4 % 0x1000)
  addr / 0x1000 == 0x31 && (off == 0x044 || (decide (0x050 ≤ off) && decide (off < 0x070)))

/-- OVF_CLEAR (R420). -/
def execOvfClear (r : Req) (addr : BitVec 20) (data : Word) (s : State) : Host.Outcome State Fault Refusal :=
  run (fun s => if isOvf addr.toNat then bar0Write r addr.toNat true data s else s) s

/-! The maintenance port (R52 to R58) -/

/-- MNT_READ. -/
def execMntRead (clocks : Nat) (space : Bool) (offset : MntField) (crc : BitVec 8) (s : State) : Host.Outcome State Fault Refusal :=
  run (outOfReset (mntReadOp clocks space offset.offset.toNat offset.data crc)) s

/-- MNT_WRITE. -/
def execMntWrite (clocks : Nat) (space : Bool) (offset : BitVec 25) (data : Word) (crc : BitVec 8) (s : State) :
    Host.Outcome State Fault Refusal :=
  run (outOfReset (mntWriteOp clocks space offset.toNat data crc)) s

/-- MNT_GUARDED_WRITE (R56). -/
def execMntGuardedWrite (clocks : Nat) (space : Bool) (offset : BitVec 25) (data : Word) (crc : BitVec 8) (s : State) :
    Host.Outcome State Fault Refusal :=
  run (outOfReset (mntGuardedOp clocks space offset.toNat data crc)) s

/-- MNT_READ_STATUS (R55). -/
def execMntReadStatus (clocks : Nat) (cmd : MntIdle) (crc : BitVec 8) (s : State) : Host.Outcome State Fault Refusal :=
  run (outOfReset (mntStatusOp clocks cmd.cmd.toNat cmd.space cmd.offset.toNat cmd.data crc)) s

/-- MNT_ACCESS_DONE (R55). -/
def execMntAccessDone (s : State) : Host.Outcome State Fault Refusal := run (opened mntDone) s

/-- LEG_CMD_GO (R58): a write of LEG_CMD with GO at 1. -/
def execLegCmdGo (data : Word) (s : State) : Host.Outcome State Fault Refusal :=
  run (bar0Write 4 (regAddr .mnt 0x050) true (data ||| 0x80000000)) s

/-- LEG_DONE (R58). -/
def execLegDone (s : State) : Host.Outcome State Fault Refusal := run (opened legDoneOp) s

end Sys2Proof.Machine
end

