-- ==== Sys2Proof/Machine/CmdsRing.lean ====
section
/-!
DEFINITION. The meanings of the commands of the ring and of Meridian (chapters 10 and 11).
-/

namespace Sys2Proof.Machine

open Sys2Proof

/-- LINK_LOSS (R291). -/
def execLinkLoss (rp : RingPort) (s : State) : Host.Outcome State Fault Refusal := run (outOfReset (linkLoss rp)) s

/-- LINK_OK (R291). -/
def execLinkOk (rp : RingPort) (s : State) : Host.Outcome State Fault Refusal := run (outOfReset (linkOk rp)) s

/-- DATA_FRAME_RECEIVE (R305). -/
def execDataFrameReceive (rp : RingPort) (inWindow : Bool) (f : Frame) (s : State) : Host.Outcome State Fault Refusal :=
  run (dataFrame rp inWindow f) s

/-- SYNC_FRAME_RECEIVE (R326); the arrival time is in units of 2^-34 s. -/
def execSyncFrameReceive (rp : RingPort) (inWindow : Bool) (stamp : BitVec 66) (f : Frame) (s : State) :
    Host.Outcome State Fault Refusal :=
  run (syncFrame rp inWindow stamp.toNat f) s

/-- COLDSTART_ENTRY (R301). -/
def execColdstartEntry (s : State) : Host.Outcome State Fault Refusal := run coldstartEntry s

/-- COLDSTART_SEND (R302). -/
def execColdstartSend (s : State) : Host.Outcome State Fault Refusal := run coldstartSend s

/-- COLDSTART_FRAME_RECEIVE (R302). -/
def execColdstartFrameReceive (rp : RingPort) (f : Frame) (s : State) : Host.Outcome State Fault Refusal :=
  run (coldstartFrame rp f) s

/-- INAUG_FRAME_RECEIVE (R303). -/
def execInaugFrameReceive (rp : RingPort) (f : Frame) (s : State) : Host.Outcome State Fault Refusal := run (inaugFrame rp f) s

/-- INAUG_RETURN_TIMEOUT (R303). -/
def execInaugReturnTimeout (s : State) : Host.Outcome State Fault Refusal := run inaugTimeout s

/-- RESULT_FRAME_RECEIVE (R303). -/
def execResultFrameReceive (rp : RingPort) (f : Frame) (s : State) : Host.Outcome State Fault Refusal := run (resultFrame rp f) s

/-- UNWRAP (R310). -/
def execUnwrap (rp : RingPort) (s : State) : Host.Outcome State Fault Refusal := run (unwrapOp rp) s

/-- MEMBER_LOSS (R307). -/
def execMemberLoss (n : BitVec 7) (s : State) : Host.Outcome State Fault Refusal := run (memberLoss n.toNat) s

/-- TAKEOVER (R307). -/
def execTakeover (n : BitVec 7) (s : State) : Host.Outcome State Fault Refusal := run (takeoverOp n.toNat) s

/-- RELEASE (R307). -/
def execRelease (n : BitVec 7) (s : State) : Host.Outcome State Fault Refusal := run (releaseOp n.toNat) s

/-- RING_CMD_INAUGURATE (R317). -/
def execRingCmdInaugurate (s : State) : Host.Outcome State Fault Refusal := run (opened ringInaugurate) s

/-- RING_CMD_WITHDRAW (R301). -/
def execRingCmdWithdraw (s : State) : Host.Outcome State Fault Refusal := run (opened ringWithdraw) s

/-- RING_CMD_RELEASE (R307). -/
def execRingCmdRelease (s : State) : Host.Outcome State Fault Refusal := run (opened ringRelease) s

/-- RING_CMD_REMOTE_WITHDRAW (R314): CMD 4 of Table 10.9. -/
def execRingCmdRemoteWithdraw (dst : BitVec 7) (s : State) : Host.Outcome State Fault Refusal :=
  run (opened (ringRemote 4 dst.toNat)) s

/-- RING_CMD_REMOTE_RELEASE (R314): CMD 5. -/
def execRingCmdRemoteRelease (dst : BitVec 7) (s : State) : Host.Outcome State Fault Refusal :=
  run (opened (ringRemote 5 dst.toNat)) s

/-- REMOTE_REQUEST_RECEIVE (R312). -/
def execRemoteRequestReceive (hdr : SubFrom) (data : List Byte) (s : State) : Host.Outcome State Fault Refusal :=
  run (fun s => endPump (remoteRequest hdr.port (subHdr hdr.hdr) data s)) s

/-- REMOTE_RESPONSE_RECEIVE (R313). -/
def execRemoteResponseReceive (hdr : SubFrom) (data : List Byte) (s : State) : Host.Outcome State Fault Refusal :=
  run (fun s => endPump (remoteResponse hdr.port (subHdr hdr.hdr) data s)) s

/-- REM_CMD (R314). -/
def execRemCmd (hdr : List Byte) (s : State) : Host.Outcome State Fault Refusal := run (remCmdOp (subHdr hdr)) s

/-- REM_TIMEOUT (R313). -/
def execRemTimeout (tag : BitVec 12) (s : State) : Host.Outcome State Fault Refusal := 
  run (fun s => endPump (remTimeoutOp tag.toNat s)) s

/-- REMOTE_WRITE_FRAGMENT_TIMEOUT (R313). -/
def execRemoteWriteFragmentTimeout (src : BitVec 7) (tag : BitVec 12) (s : State) : Host.Outcome State Fault Refusal :=
  
  run (fun s => endPump (fragmentTimeout src.toNat tag.toNat s)) s

/-- RELAY_HOLD_EXPIRE (R316). -/
def execRelayHoldExpire (i : BitVec 14) (s : State) : Host.Outcome State Fault Refusal := run (relayHoldExpire i.toNat) s

/-- LISTEN_SYNC_SEND (R369). -/
def execListenSyncSend (s : State) : Host.Outcome State Fault Refusal := run listenSync s

/-- SLOT_START (R298). -/
def execSlotStart (slot : BitVec 10) (s : State) : Host.Outcome State Fault Refusal := 
  run (fun s => endPump (slotStart slot.toNat s)) s

/-- RESYNC (R329), with the interval since the resync before. -/
def execResync (intervalMs : Nat) (s : State) : Host.Outcome State Fault Refusal := run (opened (resyncOp intervalMs)) s

/-- SLEW_DONE (R330). -/
def execSlewDone (s : State) : Host.Outcome State Fault Refusal := run slewDone s

/-- EPOCH_CMD (R323): a voted EPOCH_CMD with GO at 1. -/
def execEpochCmd (s : State) : Host.Outcome State Fault Refusal := run (opened (epochOp 1)) s

end Sys2Proof.Machine
end

