-- ==== Sys2Proof/Machine/CmdsSeg.lean ====
section
/-!
DEFINITION. The meanings of the commands of the legacy segments and the Creel (chapters 6 and 7).
-/

namespace Sys2Proof.Machine

open Sys2Proof

/-- SYSRESET_IN (R159). -/
def execSysresetIn (g : Seg) (low : Bool) (s : State) : Host.Outcome State Fault Refusal :=
  run (fun s => endPump (sysresetOp g low s)) s

/-- BUS_GRANT (R162). -/
def execBusGrant (g : Seg) (t : GrantIn) (s : State) : Host.Outcome State Fault Refusal :=
  run (fun s => endPump (busGrant g t.level.val t.time s)) s

/-- BUS_RELEASE_REQUEST (R162). -/
def execBusReleaseRequest (g : Seg) (s : State) : Host.Outcome State Fault Refusal := run (busReleaseRequest g) s

/-- LEGACY_TRANSFER_START (R215) at Loom time `t`. -/
def execLegacyTransferStart (g : Seg) (t : Nat) (s : State) : Host.Outcome State Fault Refusal :=
  run (fun s => endPump (transferStart g t s)) s

/-- DTACK_SEEN (R167). -/
def execDtackSeen (g : Seg) (data : DWord) (s : State) : Host.Outcome State Fault Refusal :=
  run (fun s => endPump (dtackSeen g data s)) s

/-- BERR_SEEN (R172): the access fails with code 1. -/
def execBerrSeen (g : Seg) (s : State) : Host.Outcome State Fault Refusal := run (fun s => endPump (berrSeen g 1 s)) s

/-- RETRY_SEEN (R172). -/
def execRetrySeen (g : Seg) (s : State) : Host.Outcome State Fault Refusal := run (fun s => endPump (retrySeen g s)) s

/-- RETRY_GAP_EXPIRE (R172). -/
def execRetryGapExpire (g : Seg) (s : State) : Host.Outcome State Fault Refusal := run (retryGapExpire g) s

/-- BTO (R184). -/
def execBto (g : Seg) (s : State) : Host.Outcome State Fault Refusal := run (fun s => endPump (btoOp g s)) s

/-- STROBE_HOLD_RESUME (R174). -/
def execStrobeHoldResume (g : Seg) (s : State) : Host.Outcome State Fault Refusal := run (fun s => endPump (strobeHoldResume g s)) s

/-- TRUNC (R174). -/
def execTrunc (g : Seg) (s : State) : Host.Outcome State Fault Refusal := run (fun s => endPump (truncOp g s)) s

/-- CONTINUED_ISSUE (R175). -/
def execContinuedIssue (g : Seg) (s : State) : Host.Outcome State Fault Refusal := run (continuedIssue g) s

/-- IMAGE_WINDOW_WRITE (R177). -/
def execImageWindowWrite (g : Seg) (cyc : SlaveCyc) (data : List Byte) (s : State) : Host.Outcome State Fault Refusal :=
  run (imageWrite g cyc data) s

/-- SLAVE_CLAIM_TIMEOUT (R177). -/
def execSlaveClaimTimeout (g : Seg) (cyc : SlaveCyc) (s : State) : Host.Outcome State Fault Refusal :=
  run (fun s => endPump (slaveClaimTimeout g cyc s)) s

/-- IMAGE_WINDOW_READ (R177). -/
def execImageWindowRead (g : Seg) (cyc : SlaveCyc) (s : State) : Host.Outcome State Fault Refusal := run (imageRead g cyc) s

/-- FORWARD_WINDOW_WRITE (R179). -/
def execForwardWindowWrite (g : Seg) (cyc : SlaveCyc) (data : List Byte) (s : State) : Host.Outcome State Fault Refusal :=
  run (fun s => endPump (forwardWrite g cyc data s)) s

/-- FORWARDED_READ (R180). -/
def execForwardedRead (g : Seg) (cyc : SlaveCyc) (s : State) : Host.Outcome State Fault Refusal := 
  run (fun s => endPump (forwardedRead g cyc s)) s

/-- FORWARDED_READ_TIMEOUT (R180). -/
def execForwardedReadTimeout (g : Seg) (s : State) : Host.Outcome State Fault Refusal := 
  run (fun s => endPump (forwardedTimeout g s)) s

/-- DELAYED_READ_REPEAT (R180). -/
def execDelayedReadRepeat (g : Seg) (cyc : SlaveCyc) (s : State) : Host.Outcome State Fault Refusal :=
  run (fun s => endPump (delayedRepeat g cyc s)) s

/-- DR_DISCARD (R180). -/
def execDrDiscard (g : Seg) (slot : Fin 4) (s : State) : Host.Outcome State Fault Refusal := 
  run (fun s => endPump (drDiscardOp g slot s)) s

/-- CRCSR_ACCESS (R182). -/
def execCrcsrAccess (g : Seg) (write : Bool) (off : BitVec 19) (s : State) : Host.Outcome State Fault Refusal :=
  run (crcsrOp g write off.toNat) s

/-- GA_ERR (R182): the pins GA4* to GA0* in bits 4 to 0, GAP* in bit 5. -/
def execGaErr (g : Seg) (pins : BitVec 6) (s : State) : Host.Outcome State Fault Refusal := run (gaOp g pins.toNat) s

/-- IACK_CYCLE (R186). -/
def execIackCycle (g : Seg) (level : BitVec 3) (width : Fin 3) (s : State) : Host.Outcome State Fault Refusal :=
  run (iackOp g level.toNat width.val) s

/-- IRQ_GEN_ASSERT (R186). -/
def execIrqGenAssert (r : Req) (g : Seg) (data : Word) (s : State) : Host.Outcome State Fault Refusal :=
  run (bar0Write r (regAddr (.ls g) 0x068) true data) s

/-- HANDLER_SERVE (R187). -/
def execHandlerServe (g : Seg) (level : BitVec 3) (s : State) : Host.Outcome State Fault Refusal :=
  run (fun s => endPump (handlerServe g level.toNat s)) s

/-- BUS_REQUEST_ARBITRATE (R183). -/
def execBusRequestArbitrate (g : Seg) (lines : ReqLines) (s : State) : Host.Outcome State Fault Refusal :=
  run (arbitrateBus g lines.lines.toNat lines.bbsy) s

/-- SYSRESET_DRIVE_END (R183). -/
def execSysresetDriveEnd (s : State) : Host.Outcome State Fault Refusal := run sysresetDriveEnd s

/-- SYSFAIL_IN (R185). -/
def execSysfailIn (g : Seg) (s : State) : Host.Outcome State Fault Refusal := run (outOfReset (sysfailInOp g)) s

/-- ACFAIL (R185). -/
def execAcfail (g : Seg) (s : State) : Host.Outcome State Fault Refusal := run (outOfReset (raise (segEv g 8))) s

/-- WAKE (R190). -/
def execWake (g : Seg) (cause : WakeCause) (s : State) : Host.Outcome State Fault Refusal := run (wakeSeg g cause) s

/-- SEGMENT_STOP (R189). -/
def execSegmentStop (g : Seg) (s : State) : Host.Outcome State Fault Refusal := run (segStop g) s

/-- SLAVE_STROBE_RELEASE (R181, R188). -/
def execSlaveStrobeRelease (g : Seg) (s : State) : Host.Outcome State Fault Refusal := run (strobeRelease g) s

/-- Q_POP (R209). -/
def execQPop (r : Req) (tag : BitVec 10) (s : State) : Host.Outcome State Fault Refusal :=
  run (fun s => endPump (regReadOp r (regAddr .crl 0x058) 1 tag.toNat s)) s

/-- Q_CMD_DROP (R208): a write of Q_CMD with DROP at 1. -/
def execQCmdDrop (r : Req) (data : Word) (s : State) : Host.Outcome State Fault Refusal :=
  run (fun s => endPump (bar0Write r (regAddr .crl 0x05C) true (data ||| 0x100) s)) s

/-- DROP_DONE (R208). -/
def execDropDone (queue : Fin 64) (s : State) : Host.Outcome State Fault Refusal := 
  run (fun s => endPump (dropDoneOp queue.val s)) s

/-- RECLAIM_DONE (R212). -/
def execReclaimDone (s : State) : Host.Outcome State Fault Refusal := run (fun s => endPump (reclaimDone s)) s

/-- ARB_COMMIT (R219). -/
def execArbCommit (r : Req) (s : State) : Host.Outcome State Fault Refusal := run (guarded r .arb 0x05C 1) s

end Sys2Proof.Machine
end

