-- ==== Sys2Proof/Machine/CmdsVote.lean ====
section
/-!
DEFINITION. The meanings of the commands of the vote unit and of the controller cycle (chapters 5 and 9): match table, fences, vote
mode, commits, freezes, the watchdog, restarts and forces.
-/

namespace Sys2Proof.Machine

open Sys2Proof

/-- MATCH_ENTRY_EXPIRE (R135). -/
def execMatchEntryExpire (k : Word) (pat : BitVec 16) (s : State) : Host.Outcome State Fault Refusal :=
  run (fun s => endPump (entryExpire k pat.toNat s)) s

/-- CLOSED_ENTRY_RETIRE (R136). -/
def execClosedEntryRetire (k : Word) (pat : BitVec 16) (s : State) : Host.Outcome State Fault Refusal :=
  run (fun s => endPump (closedRetire k pat.toNat s)) s

/-- FENCE_CMD (R147). -/
def execFenceCmd (ch : Port) (s : State) : Host.Outcome State Fault Refusal := 
  run (opened fun s => endPump (fenceCmdOp ch s)) s

/-- MODE_CMD_AUTO (R129). -/
def execModeCmdAuto (s : State) : Host.Outcome State Fault Refusal := run (opened modeAuto) s

/-- MODE_CMD_SELECT_1OO1 (R129). -/
def execModeCmdSelect1oo1 (ch : Port) (s : State) : Host.Outcome State Fault Refusal := run (opened (modeSelect ch)) s

/-- ADMISSION_END (R123). -/
def execAdmissionEnd (s : State) : Host.Outcome State Fault Refusal := run admissionEnd s

/-- COMMIT (R143, R270). -/
def execCommit (n : Word) (first second : Port) (s : State) : Host.Outcome State Fault Refusal :=
  run (commitCmd n first second) s

/-- NO_MAJORITY (R144). -/
def execNoMajority (n : Word) (s : State) : Host.Outcome State Fault Refusal := run (noMajority n) s

/-- THIRD_COPY_COMPARE_DONE (R145). -/
def execThirdCopyCompareDone (t : Port) (s : State) : Host.Outcome State Fault Refusal :=
  run (fun s => pump (thirdCompare t s)) s

/-- THIRD_COPY_MISSING (R145). -/
def execThirdCopyMissing (t : Port) (s : State) : Host.Outcome State Fault Refusal := run (thirdMissingOp t) s

/-- OBSERVER_COMPARE_DONE (R149). -/
def execObserverCompareDone (c : Port) (s : State) : Host.Outcome State Fault Refusal :=
  run (fun s => pump (observerCompare c s)) s

/-- DIVERGENT_CLEAR (R148). -/
def execDivergentClear (c : Port) (s : State) : Host.Outcome State Fault Refusal := run (divergentClear c) s

/-- FREEZE (R264). -/
def execFreeze (r : Req) (n : Word) (s : State) : Host.Outcome State Fault Refusal :=
  run (bar0Write r (regAddr .img 0x044) true n) s

/-- COMMIT_RUN_DONE (R269): the oldest run ends. -/
def commitRunOp (s : State) : State :=
  match s.img.runs with
  | r :: rs => finishRun r { s with img := { s.img with runs := rs } }
  | [] => s

/-- COMMIT_RUN_DONE. -/
def execCommitRunDone (s : State) : Host.Outcome State Fault Refusal := run commitRunOp s

/-- WDOG (R279): a count that runs has reached WDOG.TIME. -/
def wdogOp (s : State) : State :=
  if s.img.wdogRun = 0 ∨ s.img.ctl = .stopped ∨ s.img.restarting = true then s
  else pump (settleChannels (stopController 1 (raise 69 s)))

/-- WDOG. -/
def execWdog (s : State) : Host.Outcome State Fault Refusal := run wdogOp s

/-- RESTART_WARM (R283). -/
def execRestartWarm (s : State) : Host.Outcome State Fault Refusal := run (opened (restartCmd false)) s

/-- RESTART_COLD (R283). -/
def execRestartCold (s : State) : Host.Outcome State Fault Refusal := run (opened (restartCmd true)) s

/-- RESTART_STOP (R280). -/
def execRestartStop (s : State) : Host.Outcome State Fault Refusal := run (opened restartStopCmd) s

/-- RESTART_DONE (R284). -/
def execRestartDone (s : State) : Host.Outcome State Fault Refusal := run restartDone s

/-- FORCE_SET (R275). -/
def execForceSet (i : BitVec 12) (s : State) : Host.Outcome State Fault Refusal := run (opened (forceSet i.toNat)) s

/-- FORCE_CLEAR (R275). -/
def execForceClear (i : BitVec 12) (s : State) : Host.Outcome State Fault Refusal := run (opened (forceClear i.toNat)) s

/-- FORCE_CLEAR_ALL (R275). -/
def execForceClearAll (s : State) : Host.Outcome State Fault Refusal := run (opened (forceClearAll 0)) s

end Sys2Proof.Machine
end

