-- ==== Sys2Proof/Machine/Dispatch.lean ====
section
/-!
DEFINITION. The dispatcher: one arm per command, each a direct call of its meaning.
-/

namespace Sys2Proof.Machine

open Sys2Proof

/-- The effect of a command on everything but the queue. -/
def exec (i : Instr) (s : State) : Host.Outcome State Fault Refusal :=
  match i with
  | .registerWrite r addr be data => Sys2Proof.Machine.execRegisterWrite r addr be data s
  | .unassignedPageWrite r addr data => Sys2Proof.Machine.execUnassignedPageWrite r addr data s
  | .eventAck r page seq mask => Sys2Proof.Machine.execEventAck r page seq mask s
  | .lockWrite r page data => Sys2Proof.Machine.execLockWrite r page data s
  | .indDataRead r page tag => Sys2Proof.Machine.execIndDataRead r page tag s
  | .indDataWrite r page data => Sys2Proof.Machine.execIndDataWrite r page data s
  | .indirectTimeout r page write data tag => Sys2Proof.Machine.execIndirectTimeout r page write data tag s
  | .guardedValueWrite r page off value => Sys2Proof.Machine.execGuardedValueWrite r page off value s
  | .guardWrite r page value => Sys2Proof.Machine.execGuardWrite r page value s
  | .guardTimeout r page => Sys2Proof.Machine.execGuardTimeout r page s
  | .votedWrite c page off value => Sys2Proof.Machine.execVotedWrite c page off value s
  | .votedEntryExpire c page off => Sys2Proof.Machine.execVotedEntryExpire c page off s
  | .update r strobe => Sys2Proof.Machine.execUpdate r strobe s
  | .group7UpdateApply => Sys2Proof.Machine.execGroup7UpdateApply s
  | .bitAliasWrite r addr data => Sys2Proof.Machine.execBitAliasWrite r addr data s
  | .snap r go clear => Sys2Proof.Machine.execSnap r go clear s
  | .mntRead clocks space offset crc => Sys2Proof.Machine.execMntRead clocks space offset crc s
  | .mntWrite clocks space offset data crc => Sys2Proof.Machine.execMntWrite clocks space offset data crc s
  | .mntGuardedWrite clocks space offset data crc => Sys2Proof.Machine.execMntGuardedWrite clocks space offset data crc s
  | .mntReadStatus clocks cmd crc => Sys2Proof.Machine.execMntReadStatus clocks cmd crc s
  | .mntAccessDone => Sys2Proof.Machine.execMntAccessDone s
  | .legCmdGo data => Sys2Proof.Machine.execLegCmdGo data s
  | .legDone => Sys2Proof.Machine.execLegDone s
  | .configRequest p dw write be data tag => Sys2Proof.Machine.execConfigRequest p dw write be data tag s
  | .unsupportedRequest p kind tag => Sys2Proof.Machine.execUnsupportedRequest p kind tag s
  | .malformedTlp p kind => Sys2Proof.Machine.execMalformedTlp p kind s
  | .bar2Read p off len tag => Sys2Proof.Machine.execBar2Read p off len tag s
  | .bar2Write p off data be poisoned => Sys2Proof.Machine.execBar2Write p off data be poisoned s
  | .bar4Write p pat off data be poisoned ecrcBad => Sys2Proof.Machine.execBar4Write p pat off data be poisoned ecrcBad s
  | .bar4Read p pat off len tag => Sys2Proof.Machine.execBar4Read p pat off len tag s
  | .flushRead p tag => Sys2Proof.Machine.execFlushRead p tag s
  | .flushReadComplete p tag => Sys2Proof.Machine.execFlushReadComplete p tag s
  | .bar4TlpClaimGrant p => Sys2Proof.Machine.execBar4TlpClaimGrant p s
  | .pushStart p => Sys2Proof.Machine.execPushStart p s
  | .pushDone p => Sys2Proof.Machine.execPushDone p s
  | .perst p => Sys2Proof.Machine.execPerst p s
  | .hotReset p => Sys2Proof.Machine.execHotReset p s
  | .dlDown p => Sys2Proof.Machine.execDlDown p s
  | .flr p => Sys2Proof.Machine.execFlr p s
  | .dlUp p speed width credits => Sys2Proof.Machine.execDlUp p speed width credits s
  | .portReady p => Sys2Proof.Machine.execPortReady p s
  | .l1Entry p => Sys2Proof.Machine.execL1Entry p s
  | .l1Exit p => Sys2Proof.Machine.execL1Exit p s
  | .pmeTurnOff p => Sys2Proof.Machine.execPmeTurnOff p s
  | .rejoin r p => Sys2Proof.Machine.execRejoin r p s
  | .matchEntryExpire k pat => Sys2Proof.Machine.execMatchEntryExpire k pat s
  | .closedEntryRetire k pat => Sys2Proof.Machine.execClosedEntryRetire k pat s
  | .fenceCmd ch => Sys2Proof.Machine.execFenceCmd ch s
  | .modeCmdAuto => Sys2Proof.Machine.execModeCmdAuto s
  | .modeCmdSelect1oo1 ch => Sys2Proof.Machine.execModeCmdSelect1oo1 ch s
  | .admissionEnd => Sys2Proof.Machine.execAdmissionEnd s
  | .commit n first second => Sys2Proof.Machine.execCommit n first second s
  | .noMajority n => Sys2Proof.Machine.execNoMajority n s
  | .thirdCopyCompareDone t => Sys2Proof.Machine.execThirdCopyCompareDone t s
  | .thirdCopyMissing t => Sys2Proof.Machine.execThirdCopyMissing t s
  | .observerCompareDone c => Sys2Proof.Machine.execObserverCompareDone c s
  | .divergentClear c => Sys2Proof.Machine.execDivergentClear c s
  | .sysresetIn g low => Sys2Proof.Machine.execSysresetIn g low s
  | .busGrant g t => Sys2Proof.Machine.execBusGrant g t s
  | .busReleaseRequest g => Sys2Proof.Machine.execBusReleaseRequest g s
  | .legacyTransferStart g t => Sys2Proof.Machine.execLegacyTransferStart g t s
  | .dtackSeen g data => Sys2Proof.Machine.execDtackSeen g data s
  | .berrSeen g => Sys2Proof.Machine.execBerrSeen g s
  | .retrySeen g => Sys2Proof.Machine.execRetrySeen g s
  | .retryGapExpire g => Sys2Proof.Machine.execRetryGapExpire g s
  | .bto g => Sys2Proof.Machine.execBto g s
  | .strobeHoldResume g => Sys2Proof.Machine.execStrobeHoldResume g s
  | .trunc g => Sys2Proof.Machine.execTrunc g s
  | .continuedIssue g => Sys2Proof.Machine.execContinuedIssue g s
  | .imageWindowWrite g cyc data => Sys2Proof.Machine.execImageWindowWrite g cyc data s
  | .slaveClaimTimeout g cyc => Sys2Proof.Machine.execSlaveClaimTimeout g cyc s
  | .imageWindowRead g cyc => Sys2Proof.Machine.execImageWindowRead g cyc s
  | .forwardWindowWrite g cyc data => Sys2Proof.Machine.execForwardWindowWrite g cyc data s
  | .forwardedRead g cyc => Sys2Proof.Machine.execForwardedRead g cyc s
  | .forwardedReadTimeout g => Sys2Proof.Machine.execForwardedReadTimeout g s
  | .delayedReadRepeat g cyc => Sys2Proof.Machine.execDelayedReadRepeat g cyc s
  | .drDiscard g slot => Sys2Proof.Machine.execDrDiscard g slot s
  | .crcsrAccess g write off => Sys2Proof.Machine.execCrcsrAccess g write off s
  | .gaErr g pins => Sys2Proof.Machine.execGaErr g pins s
  | .iackCycle g level width => Sys2Proof.Machine.execIackCycle g level width s
  | .irqGenAssert r g data => Sys2Proof.Machine.execIrqGenAssert r g data s
  | .handlerServe g level => Sys2Proof.Machine.execHandlerServe g level s
  | .busRequestArbitrate g lines => Sys2Proof.Machine.execBusRequestArbitrate g lines s
  | .sysresetDriveEnd => Sys2Proof.Machine.execSysresetDriveEnd s
  | .sysfailIn g => Sys2Proof.Machine.execSysfailIn g s
  | .acfail g => Sys2Proof.Machine.execAcfail g s
  | .wake g cause => Sys2Proof.Machine.execWake g cause s
  | .segmentStop g => Sys2Proof.Machine.execSegmentStop g s
  | .qPop r tag => Sys2Proof.Machine.execQPop r tag s
  | .qCmdDrop r data => Sys2Proof.Machine.execQCmdDrop r data s
  | .dropDone queue => Sys2Proof.Machine.execDropDone queue s
  | .reclaimDone => Sys2Proof.Machine.execReclaimDone s
  | .arbCommit r => Sys2Proof.Machine.execArbCommit r s
  | .loomCycleStart => Sys2Proof.Machine.execLoomCycleStart s
  | .legacyEntry entry => Sys2Proof.Machine.execLegacyEntry entry s
  | .ringTxEntry entry => Sys2Proof.Machine.execRingTxEntry entry s
  | .ringRxEntry entry => Sys2Proof.Machine.execRingRxEntry entry s
  | .ringRxWindowClose entry => Sys2Proof.Machine.execRingRxWindowClose entry s
  | .syncEntry entry => Sys2Proof.Machine.execSyncEntry entry s
  | .powerOnEntry entry => Sys2Proof.Machine.execPowerOnEntry entry s
  | .powerOffEntry entry => Sys2Proof.Machine.execPowerOffEntry entry s
  | .almStop => Sys2Proof.Machine.execAlmStop s
  | .mark entry => Sys2Proof.Machine.execMark entry s
  | .deadline entry => Sys2Proof.Machine.execDeadline entry s
  | .skip entry => Sys2Proof.Machine.execSkip entry s
  | .gapWaitExpire g place => Sys2Proof.Machine.execGapWaitExpire g place s
  | .gapOverrun g => Sys2Proof.Machine.execGapOverrun g s
  | .load r slot => Sys2Proof.Machine.execLoad r slot s
  | .loadClear r => Sys2Proof.Machine.execLoadClear r s
  | .loadDone => Sys2Proof.Machine.execLoadDone s
  | .checkCmd r => Sys2Proof.Machine.execCheckCmd r s
  | .checkDone => Sys2Proof.Machine.execCheckDone s
  | .arm dropOk => Sys2Proof.Machine.execArm dropOk s
  | .armed ok => Sys2Proof.Machine.execArmed ok s
  | .disarm => Sys2Proof.Machine.execDisarm s
  | .switched => Sys2Proof.Machine.execSwitched s
  | .freeze r n => Sys2Proof.Machine.execFreeze r n s
  | .commitRunDone => Sys2Proof.Machine.execCommitRunDone s
  | .wdog => Sys2Proof.Machine.execWdog s
  | .restartWarm => Sys2Proof.Machine.execRestartWarm s
  | .restartCold => Sys2Proof.Machine.execRestartCold s
  | .restartStop => Sys2Proof.Machine.execRestartStop s
  | .restartDone => Sys2Proof.Machine.execRestartDone s
  | .forceSet index => Sys2Proof.Machine.execForceSet index s
  | .forceClear index => Sys2Proof.Machine.execForceClear index s
  | .forceClearAll => Sys2Proof.Machine.execForceClearAll s
  | .linkLoss rp => Sys2Proof.Machine.execLinkLoss rp s
  | .linkOk rp => Sys2Proof.Machine.execLinkOk rp s
  | .dataFrameReceive rp inWindow f => Sys2Proof.Machine.execDataFrameReceive rp inWindow f s
  | .syncFrameReceive rp inWindow stamp f => Sys2Proof.Machine.execSyncFrameReceive rp inWindow stamp f s
  | .coldstartEntry => Sys2Proof.Machine.execColdstartEntry s
  | .coldstartSend => Sys2Proof.Machine.execColdstartSend s
  | .coldstartFrameReceive rp f => Sys2Proof.Machine.execColdstartFrameReceive rp f s
  | .inaugFrameReceive rp f => Sys2Proof.Machine.execInaugFrameReceive rp f s
  | .inaugReturnTimeout => Sys2Proof.Machine.execInaugReturnTimeout s
  | .resultFrameReceive rp f => Sys2Proof.Machine.execResultFrameReceive rp f s
  | .unwrap rp => Sys2Proof.Machine.execUnwrap rp s
  | .memberLoss n => Sys2Proof.Machine.execMemberLoss n s
  | .takeover n => Sys2Proof.Machine.execTakeover n s
  | .release n => Sys2Proof.Machine.execRelease n s
  | .ringCmdInaugurate => Sys2Proof.Machine.execRingCmdInaugurate s
  | .ringCmdWithdraw => Sys2Proof.Machine.execRingCmdWithdraw s
  | .ringCmdRelease => Sys2Proof.Machine.execRingCmdRelease s
  | .ringCmdRemoteWithdraw dst => Sys2Proof.Machine.execRingCmdRemoteWithdraw dst s
  | .ringCmdRemoteRelease dst => Sys2Proof.Machine.execRingCmdRemoteRelease dst s
  | .remoteRequestReceive hdr data => Sys2Proof.Machine.execRemoteRequestReceive hdr data s
  | .remoteResponseReceive hdr data => Sys2Proof.Machine.execRemoteResponseReceive hdr data s
  | .remCmd hdr => Sys2Proof.Machine.execRemCmd hdr s
  | .remTimeout tag => Sys2Proof.Machine.execRemTimeout tag s
  | .remoteWriteFragmentTimeout src tag => Sys2Proof.Machine.execRemoteWriteFragmentTimeout src tag s
  | .relayHoldExpire relay => Sys2Proof.Machine.execRelayHoldExpire relay s
  | .listenSyncSend => Sys2Proof.Machine.execListenSyncSend s
  | .resync intervalMs => Sys2Proof.Machine.execResync intervalMs s
  | .slewDone => Sys2Proof.Machine.execSlewDone s
  | .epochCmd => Sys2Proof.Machine.execEpochCmd s
  | .logCellClose => Sys2Proof.Machine.execLogCellClose s
  | .logRecordStore => Sys2Proof.Machine.execLogRecordStore s
  | .replSkip p => Sys2Proof.Machine.execReplSkip p s
  | .logStart => Sys2Proof.Machine.execLogStart s
  | .clkfail => Sys2Proof.Machine.execClkfail s
  | .sysPllUnlock => Sys2Proof.Machine.execSysPllUnlock s
  | .serdesPllUnlock => Sys2Proof.Machine.execSerdesPllUnlock s
  | .phyPllUnlock p => Sys2Proof.Machine.execPhyPllUnlock p s
  | .xto pair => Sys2Proof.Machine.execXto pair s
  | .pcmdRun => Sys2Proof.Machine.execPcmdRun s
  | .pcmdListen => Sys2Proof.Machine.execPcmdListen s
  | .pcmdHold => Sys2Proof.Machine.execPcmdHold s
  | .pcmdReset => Sys2Proof.Machine.execPcmdReset s
  | .pstateChg => Sys2Proof.Machine.execPstateChg s
  | .coreGate => Sys2Proof.Machine.execCoreGate s
  | .powerOnReset => Sys2Proof.Machine.execPowerOnReset s
  | .vddioReset => Sys2Proof.Machine.execVddioReset s
  | .vddReset => Sys2Proof.Machine.execVddReset s
  | .resetIn => Sys2Proof.Machine.execResetIn s
  | .resetRelease straps => Sys2Proof.Machine.execResetRelease straps s
  | .sysPllLock => Sys2Proof.Machine.execSysPllLock s
  | .wipeDone => Sys2Proof.Machine.execWipeDone s
  | .portsOpen => Sys2Proof.Machine.execPortsOpen s
  | .warn cond => Sys2Proof.Machine.execWarn cond s
  | .retainSaveStart => Sys2Proof.Machine.execRetainSaveStart s
  | .retainSaved => Sys2Proof.Machine.execRetainSaved s
  | .recover => Sys2Proof.Machine.execRecover s
  | .lcToCommissioning r => Sys2Proof.Machine.execLcToCommissioning r s
  | .lcToService r => Sys2Proof.Machine.execLcToService r s
  | .lcToMaintenance r => Sys2Proof.Machine.execLcToMaintenance r s
  | .lcToRetired r confirm => Sys2Proof.Machine.execLcToRetired r confirm s
  | .sealArm r => Sys2Proof.Machine.execSealArm r s
  | .sealDisarm r => Sys2Proof.Machine.execSealDisarm r s
  | .sealClear r => Sys2Proof.Machine.execSealClear r s
  | .fuseVerifyDone ok => Sys2Proof.Machine.execFuseVerifyDone ok s
  | .lcAlert => Sys2Proof.Machine.execLcAlert s
  | .presenceAssert => Sys2Proof.Machine.execPresenceAssert s
  | .presenceRelease => Sys2Proof.Machine.execPresenceRelease s
  | .presenceTimeout => Sys2Proof.Machine.execPresenceTimeout s
  | .sealCheck sampled => Sys2Proof.Machine.execSealCheck sampled s
  | .writeWeave r => Sys2Proof.Machine.execWriteWeave r s
  | .weaveStreamGapTimeout => Sys2Proof.Machine.execWeaveStreamGapTimeout s
  | .invalidateWeave r => Sys2Proof.Machine.execInvalidateWeave r s
  | .saveRetain r => Sys2Proof.Machine.execSaveRetain r s
  | .invalidateRetain r => Sys2Proof.Machine.execInvalidateRetain r s
  | .writeIdent r => Sys2Proof.Machine.execWriteIdent r s
  | .almAbort r => Sys2Proof.Machine.execAlmAbort r s
  | .opDone => Sys2Proof.Machine.execOpDone s
  | .refreshStep => Sys2Proof.Machine.execRefreshStep s
  | .ovfClear r addr data => Sys2Proof.Machine.execOvfClear r addr data s
  | .userPageRead r off tag => Sys2Proof.Machine.execUserPageRead r off tag s
  | .scrubVisit memory word => Sys2Proof.Machine.execScrubVisit memory word s
  | .tapUpdateIr ir => Sys2Proof.Machine.execTapUpdateIr ir s
  | .tapReset => Sys2Proof.Machine.execTapReset s
  | .resetCauseEnd cause => Sys2Proof.Machine.execResetCauseEnd cause s
  | .serdesPllLock => Sys2Proof.Machine.execSerdesPllLock s
  | .phyPllLock p => Sys2Proof.Machine.execPhyPllLock p s
  | .perstRelease p => Sys2Proof.Machine.execPerstRelease p s
  | .recoveryTimeStart => Sys2Proof.Machine.execRecoveryTimeStart s
  | .warningReturnInHold cond => Sys2Proof.Machine.execWarningReturnInHold cond s
  | .vmonSupplyLow rail => Sys2Proof.Machine.execVmonSupplyLow rail s
  | .vmonSupplyOk rail => Sys2Proof.Machine.execVmonSupplyOk rail s
  | .registerRead r addr tag => Sys2Proof.Machine.execRegisterRead r addr tag s
  | .unexpectedCompletion p => Sys2Proof.Machine.execUnexpectedCompletion p s
  | .linkLayerError p kind => Sys2Proof.Machine.execLinkLayerError p kind s
  | .linkSpeedWidthChange p speed width => Sys2Proof.Machine.execLinkSpeedWidthChange p speed width s
  | .postedCreditReturn p ph pd => Sys2Proof.Machine.execPostedCreditReturn p ph pd s
  | .slotStart slot => Sys2Proof.Machine.execSlotStart slot s
  | .slaveStrobeRelease g => Sys2Proof.Machine.execSlaveStrobeRelease g s

end Sys2Proof.Machine
end

