-- ==== Sys2Proof/Machine/Tick.lean ====
section
/-!
DEFINITION. What happens when no command waits: one cycle of the always-on clock, 40 ns, passes (DESIGN CHOICE, log entry 2), and
device time advances (R321, R322, R330).
-/

namespace Sys2Proof.Machine

open Sys2Proof

/-- The part of a slew that 40 ns apply: 100 ppm of them at most (R330). -/
def slewStep (s : State) : Int :=
  if s.mer.slewing && (s.pwr.st != .hold || s.pwr.fromRun) && !s.pwr.seqRun then max (-slewRate) (min slewRate s.mer.slew) else 0

/-- One cycle of the always-on clock: device time and the always-on count advance. -/
def timePasses (s : State) : State :=
  { s with
    mer := { s.mer with time := s.mer.time + BitVec.ofInt 96 (tickStep s + slewStep s), slew := s.mer.slew - slewStep s },
    pwr := { s.pwr with ticks := s.pwr.ticks + 1 } }

/-- A request waits in some port for the clock of an indirect access (R26). -/
def barWaits (s : State) : Bool := allPorts.any fun p => !s.port[p].bar.isEmpty

/-- The requests that wait for a clock which runs by now take their turns. -/
def drainBars (s : State) : State := allPorts.foldl (fun s p => drainBar p s.port[p].bar.length s) s

/-- An access waits in the slave of some segment for a cell (R177, R179). -/
def slaveWaits (s : State) : Bool := s.seg[(0 : Seg)].slvWait.isSome || s.seg[(1 : Seg)].slvWait.isSome

/-- One cycle of the always-on clock passes while nothing is commanded; what waited for a clock that runs again, or for cells that are free
by now, goes on in it. -/
def idleTick (s : State) : Host.Outcome State Fault Refusal :=
  if barWaits s || slaveWaits s then run (fun s => slavePumps (drainBars s)) (timePasses s) else .next { timePasses s with out := [] }

end Sys2Proof.Machine
end

