-- ==== Sys2Proof/Machine/Outputs.lean ====
section
/-!
DEFINITION. The output and open-drain balls between two commands, as a function of the state: Table 16.6 in reset and outside power
state RUN, the idle states of R188 and what the device drives in RUN, and the test instructions that take the pins (R423).
-/

namespace Sys2Proof.Machine

open Sys2Proof

/-- What a ball does: `hiZ` high-impedance, `released` open-drain not pulled low, `idle` electrical idle, `active` carries a value, a
clock or traffic, `boundary` driven from the boundary register. -/
inductive Level where
  | hiZ | low | high | released | idle | active | boundary
  deriving DecidableEq, Repr

/-- Output and open-drain balls (Tables 16.2 to 16.4). -/
inductive Ball where
  | aoeN (g : Seg) | coeN (g : Seg) | doeN (g : Seg) | roeN (g : Seg)
  | adir (g : Seg) | cdir (g : Seg) | ddir (g : Seg)
  /-- A[31:1], LWORD_N. -/
  | groupA (g : Seg)
  /-- AM[5:0], WRITE_N, IACK_N. -/
  | groupC (g : Seg)
  /-- D[31:0]. -/
  | groupD (g : Seg)
  | asN (g : Seg) | ds0N (g : Seg) | ds1N (g : Seg) | dtackN (g : Seg) | berrN (g : Seg) | retryN (g : Seg)
  | brN (g : Seg) (level : Fin 4) | bbsyN (g : Seg) | bclrN (g : Seg) | bgOutN (g : Seg) (level : Fin 4) | iackOutN (g : Seg)
  | irqN (g : Seg) (level : Fin 8) | sysfailN (g : Seg) | sysresetN (g : Seg) | sysclk (g : Seg)
  | safeN | sealA | mntMiso | tdo
  | txdis (rp : RingPort) | ringTx (rp : RingPort) | cpTx (p : Port)
  deriving DecidableEq, Repr

/-- An open-drain ball pulled low when `b` holds. -/
def pulled (b : Bool) : Level := if b then .low else .released
/-- A driven ball, high when `b` holds. -/
def driven (b : Bool) : Level := if b then .high else .low
/-- A strobe of a transceiver group: driven while the group points toward the bus, low when asserted. -/
def strobe (toBus asserted : Bool) : Level := if toBus then driven !asserted else .hiZ

/-- SYSRESET* is driven for 200 ms from the first entry to RUN, by a system controller with SYSRST_OUT at 1 (R183). -/
def sysresetDriven (s : State) (g : Seg) : Bool :=
  sysconAct s g && bitAt (getReg s (.ls g) 0x044) 3 && s.seg[g].sysresetTimer

/-- The device requests the bus at its level: an engine waits for a grant (R162). -/
def busRequested (s : State) (g : Seg) : Bool := busAsked s g

/-- SAFE_N is released only while the controller runs and no restart does (R282). -/
def safeReleased (s : State) : Bool := s.img.ctl == .running && !s.img.restarting && s.pwr.boot == .opened

/-- The response group is enabled: the slave answers, or the bus timer ends a cycle (R184, R188). -/
def respondOn (s : State) (g : Seg) : Bool := s.seg[g].pins.groupR || s.seg[g].pins.berr

/-- A ring port's transmitter sends (Table 16.6, the note on RGx_TXDIS). -/
def ringSends (s : State) (rp : RingPort) : Bool := rgEn s rp && ringOn s

/-- The balls in reset (Table 16.6); SEAL_A is low between two checks (R392). -/
def resetLevel : Ball → Level
  | .brN .. | .bbsyN .. | .bclrN .. | .bgOutN .. | .iackOutN .. | .irqN .. | .sysfailN .. | .sysresetN .. => .released
  | .safeN => .low
  | .sealA => .low
  | .ringTx _ | .cpTx _ => .idle
  | _ => .hiZ

/-- The balls under functional control, outside reset; leaving RUN the segments stop once the transfers in progress have ended (Table 13.7). -/
def functionalLevel (s : State) (b : Ball) : Level :=
  let on := (s.pwr.st == .run || s.pwr.fromRun) && s.pwr.boot == .opened
  match b with
  | .aoeN _ | .coeN _ | .doeN _ => driven !on
  | .roeN g => driven !(on && respondOn s g)
  | .adir g => driven (on && s.seg[g].pins.groupA)
  | .cdir g => driven (on && s.seg[g].pins.groupC)
  | .ddir g => driven (on && s.seg[g].pins.groupD)
  | .groupA g => if on && s.seg[g].pins.groupA then .active else .hiZ
  | .groupC g => if on && s.seg[g].pins.groupC then .active else .hiZ
  | .groupD g => if on && s.seg[g].pins.groupD then .active else .hiZ
  | .asN g => strobe (on && s.seg[g].pins.groupC) s.seg[g].pins.as_
  | .ds0N g => strobe (on && s.seg[g].pins.groupC) s.seg[g].pins.ds0
  | .ds1N g => strobe (on && s.seg[g].pins.groupC) s.seg[g].pins.ds1
  | .dtackN g => strobe (on && respondOn s g) s.seg[g].pins.dtack
  | .berrN g => strobe (on && respondOn s g) s.seg[g].pins.berr
  | .retryN g => strobe (on && respondOn s g) s.seg[g].pins.retry
  | .brN g l => pulled (on && busRequested s g && getFld s (.ls g) 0x040 7 6 == l.val)
  | .bbsyN g => pulled (on && s.seg[g].owner)
  | .bclrN g => pulled (on && s.seg[g].pins.bclr)
  | .bgOutN g l => pulled (on && bitsOf s.seg[g].pins.bgOut l.val l.val == 1)
  | .iackOutN _ => .released
  | .irqN g l => pulled (on && levelOwn s g l.val && l != 0)
  | .sysfailN g => pulled (sysfailOut s g)
  | .sysresetN g => pulled (on && sysresetDriven s g)
  | .sysclk g =>
    if !on then .low else if sysconAct s g && bitAt (getReg s (.ls g) 0x044) 1 then .active else .hiZ
  | .safeN => pulled !(safeReleased s)
  | .sealA => .low
  | .mntMiso | .tdo => .hiZ
  | .txdis rp => driven !(ringSends s rp)
  | .ringTx rp => if ringSends s rp then .active else .idle
  | .cpTx p => if s.port[p].dlUp && !s.port[p].l1 && !s.port[p].l23 then .active else .idle

/-- Whether the boundary register reaches a ball: every ball but the test balls (R422). -/
def inBoundary : Ball → Bool
  | .tdo => false
  | _ => true

/-- The level of a ball between two commands: a test instruction that takes the pins keeps them, in reset too (R423, R428). -/
def ballLevel (s : State) (b : Ball) : Level :=
  if s.tap.taken && inBoundary b then (if s.tap.ir = 0x04#6 then .hiZ else .boundary)
  else if s.pwr.boot == .inReset then resetLevel b
  else functionalLevel s b

end Sys2Proof.Machine
end

