-- ==== Sys2Proof/Safety.lean ====
section
/-!
DEFINITION. The words the statements use: that a command completes, when a requester's write reaches the registers, when an EVENT bit
is set, and what the machine keeps true between commands.
-/

namespace Sys2Proof.Machine

open Sys2Proof

/-- The command `c` completes from state `s`: `exec` answers a next state (no fault, no refusal), and `P` holds of it. -/
def Completes (c : Instr) (s : State) (P : State → Prop) : Prop := ∃ t, exec c s = .next t ∧ P t

/-- Requests reach port `p` and none waits there. -/
abbrev PortFree (p : Port) (s : State) : Prop := portOpen s p = true ∧ s.port[p].rx = [] ∧ s.port[p].bar = []

/-- A write of requester `r` reaches the registers with every right (R9, R16, R128): the maintenance port while the ports are open; a
channel port at which none waits, whose BARs respond and whose channel is ACTIVE. -/
abbrev Writer (r : Req) (s : State) : Prop :=
  (reqPort r = none → s.pwr.boot = .opened) ∧
    ∀ p : Port, reqPort r = some p → PortFree p s ∧ barOn s p = true ∧ s.ch[p].st = .active

/-- The write of requester `r` to page `k` meets no refusal of R16 and ends no guarded sequence (R28). -/
abbrev FreePage (r : Req) (k : PageKind) (s : State) : Prop := pageRefused r k = false ∧ heldIn s r k = none

/-- The EVENT bit of event `ev` is set in its page (Table 2.4). -/
def EventSet (s : State) (ev : Nat) : Prop :=
  ∃ k b, eventPage ev = some (k, b) ∧ bitAt (mget 0 s.evh.event k.num) b = true

/-- The address a command gives for the register at offset `off` of page `k`. -/
def addrOf (k : PageKind) (off : Nat) : BitVec 20 := BitVec.ofNat 20 (regAddr k off)

/-- The queue of waiting commands is the one before. -/
def KeepsQueue (s t : State) : Prop := t.pending = s.pending

/-- A blown fuse stays blown, and the unique ID stays (R394). -/
@[simp] abbrev FusesKept (s t : State) : Prop :=
  (s.lcc.commissioned = true → t.lcc.commissioned = true) ∧ (s.lcc.retired = true → t.lcc.retired = true) ∧
  t.lcc.uid = s.lcc.uid ∧ t.lcc.uidLock = s.lcc.uidLock

/-- Between commands every event that has occurred has been delivered (R342). -/
abbrev Delivered (s : State) : Prop := s.evh.occ = [] ∧ s.evh.sub = 0

/-- CORE runs, so that a request does not wake it (R370). -/
abbrev CoreRuns (s : State) : Prop := ((s.pwr.st == .hold || s.pwr.st == .listen) && !s.pwr.awake && !s.pwr.fromRun) = false

/-- The state as a command finds it: what left the device during the step before is gone. -/
def cleared (s : State) : State := { s with out := [] }

/-- The state as an access of requester `r` finds it: a channel port has left L1 for it (R119). -/
def reached (r : Req) (s : State) : State :=
  match reqPort r with
  | none => cleared s
  | some p => receipt p (cleared s)

/-- A command finds the machine between two steps, with CORE running: every event delivered, no request wakes CORE. -/
abbrev Calm (s : State) : Prop := Delivered s ∧ CoreRuns s

/-- The bus of segment `g` needs nothing done: an owner has work, and only a system controller drives a grant or BCLR*. -/
abbrev BusSettled (s : State) (g : Seg) : Prop :=
  (s.seg[g].owner = true → hasWork s g = true) ∧
    (sysconAct s g = true ∨ (s.seg[g].pins.bgOut = 0 ∧ s.seg[g].pins.bclr = false))

/-- No access waits in a slave for a cell or for the accesses before it. -/
abbrev SlavesFree (s : State) : Prop := ∀ h : Seg, s.seg[h].slvWait = none ∧ slaveList s h = []

/-- No work waits that a command's end would move on: nothing is in the match table, no access waits for cells in the mailbox, in a slave
or in RNG_RX, no answer of the ring waits, and a segment that masters nothing has no work. -/
abbrev NothingQueued (s : State) : Prop :=
  s.vot.openE = [] ∧ s.vot.waiting = [] ∧ s.mnt.leg = none ∧ listPkts s 23 = [] ∧ s.rng.answers = [] ∧ SlavesFree s ∧
    ∀ g : Seg, (masterOk s g = true ∨ (s.seg[g].eng = none ∧ workCount s g = 0)) ∧ BusSettled s g

/-- A register error is captured (R19, R20): cause, requester, page number and offset of the access, data; a second error while
VALID is 1 only sets OVERFLOW. -/
def Captured (k : PageKind) (cause : Nat) (r : Req) (page off : Nat) (d : Word) (s t : State) : Prop :=
  if getFld s (errPage k) 0x030 31 31 = 1 then
    getReg t (errPage k) 0x030 = setFieldOf (getReg s (errPage k) 0x030) 30 30 1 ∧
      getReg t (errPage k) 0x034 = getReg s (errPage k) 0x034
  else
    getReg t (errPage k) 0x030 =
      BitVec.ofNat 32 (2 ^ 31 + cause * 2 ^ 26 + r.val * 2 ^ 23 + page % 256 * 2 ^ 12 + off % 4096) |||
        (getReg s (errPage k) 0x030 &&& 0x40000000#32) ∧
      getReg t (errPage k) 0x034 = d

/-- A read of requester `r` reaches the registers (R9, R98, R128): the maintenance port while the ports are open; a channel port at which
none waits, which has room for a non-posted request, whose BARs respond and whose channel may read the page. -/
abbrev Reader (r : Req) (a : Nat) (s : State) : Prop :=
  (reqPort r = none → s.pwr.boot = .opened) ∧
    ∀ p : Port, reqPort r = some p → PortFree p s ∧ npRoom s p = true ∧ barOn s p = true ∧ mayRead s p a = true

/-- What leaves a port, with an ECRC behind each TLP while its generation is enabled (R91, Table 4.2). -/
def sentBy (s : State) (p : Port) (os : List Out) : List Out := if ecrcGen s p then os.flatMap fun o => [o, .digest p] else os

/-- What answers a read of a BAR0 word: a completion at a channel port, the word itself at the maintenance port. -/
def answer (s : State) (r : Req) (a tag : Nat) (w : Word) : List Out :=
  match reqPort r with
  | none => [.word r w]
  | some p => sentBy s p [.cpl p tag 0 false 4 (a % 128) (bytesLE 4 w.toNat)]

/-- The registers but one are those before. -/
def OtherRegs (k : PageKind) (off : Nat) (s t : State) : Prop :=
  ∀ k2 off2, regAddr k2 off2 ≠ regAddr k off → getReg t k2 off2 = getReg s k2 off2

/-- The ports of `s`, each in or out of L1 as in `t`: a port that sends leaves L1 (R119). -/
def portsBut (s t : State) : Vector PortS 4 := Vector.ofFn fun p => { s.port[p] with l1 := t.port[p].l1 }

/-- Whatever is neither a register, nor the event hub, nor an output is as before. -/
def RestSame (s t : State) : Prop :=
  t = { s with
    regs := t.regs, evh := t.evh, out := t.out, crl := t.crl, pwr := t.pwr, msix := t.msix, tx := t.tx, port := portsBut s t }

/-- Of what `RestSame` fixes, only channel port `p` may differ. -/
def PortOnly (p : Port) (s t : State) : Prop :=
  RestSame { s with port := t.port, freeCount := t.freeCount } t ∧
    ∀ q, q ≠ p → t.port[q] = { s.port[q] with l1 := t.port[q].l1 }

/-- Of what `RestSame` fixes, only segment `g` may differ. -/
def SegOnly (g : Seg) (s t : State) : Prop := RestSame { s with seg := t.seg } t ∧ ∀ h, h ≠ g → t.seg[h] = s.seg[h]

/-- Of the whole machine, only segment `g` may differ: no event, no output, no register changes. -/
def SegAlone (g : Seg) (s t : State) : Prop := t = { cleared s with seg := t.seg } ∧ ∀ h, h ≠ g → t.seg[h] = s.seg[h]

/-- No list of the Creel has lost its pointers, and none is being recovered (R211). -/
abbrev ListsGood (s : State) : Prop := (∀ e ∈ s.crl.q, e.2.ptrBad = false) ∧ s.crl.resets = [] ∧ s.crl.nextResets = []

/-- Between two commands, with the ports open and both segments mastering, no operation waits to be moved on, and no memory word and no
list is in error. -/
abbrev Quiet (s : State) : Prop :=
  Delivered s ∧ s.pwr.boot = .opened ∧ NothingQueued s ∧ (∀ g : Seg, masterOk s g = true) ∧ s.tap.ecc = [] ∧ ListsGood s

/-- Of what `RestSame` fixes, only channel `c` may differ. -/
def ChOnly (c : Port) (s t : State) : Prop := RestSame { s with ch := t.ch } t ∧ ∀ d, d ≠ c → t.ch[d] = s.ch[d]

/-- The device has been put into reset by cause `n` (R371, R372): registers, channels, segments' work and every other part stand at
their reset values; the Almanac, the fuses, the pins and the commands that wait are as before, and so are BROWNOUT_CNT and RESTART_SEL
unless the cause is power-on. Every output ball stands as Table 16.6 gives for reset. -/
def HeldInReset (n : Nat) (s t : State) : Prop :=
  t.pwr.boot = .inReset ∧ t.pwr.lastReset = n ∧ t.pwr.st = .reset ∧
  t.pwr.causes = (if n = 5 ∨ n = 6 then [] else n :: if s.pwr.boot = .inReset then s.pwr.causes.filter (· != n) else []) ∧
  t.pwr.brownout = false ∧ t.pwr.aonOk = (s.pwr.aonOk && decide (n ≠ 4)) ∧ t.pwr.pfwLow = s.pwr.pfwLow ∧
  t.pwr.vddioLow = s.pwr.vddioLow ∧
  getReg t .pwr 0x050 = (if n = 0 then regDefault (regAddr .pwr 0x050) else getReg s .pwr 0x050) ∧
  getReg t .sup 0x048 = (if n = 0 then regDefault (regAddr .sup 0x048) else getReg s .sup 0x048) ∧
  (∀ k off, regAddr k off ≠ regAddr .pwr 0x050 → regAddr k off ≠ regAddr .sup 0x048 →
    getReg t k off = regDefault (regAddr k off)) ∧
  t.pending = s.pending ∧ t.alm = { State.reset.alm with mem := s.alm.mem, ecc := s.alm.ecc } ∧
  (t.bus, t.ch, t.vot, t.img, t.frc, t.crl) =
    (State.reset.bus, State.reset.ch, State.reset.vot, State.reset.img, State.reset.frc, State.reset.crl) ∧
  (t.lom, t.rng, t.mer, t.evh, t.mnt) = (State.reset.lom, State.reset.rng, State.reset.mer, State.reset.evh, State.reset.mnt) ∧
  (∀ g : Seg, t.seg[g].eng = none ∧ t.seg[g].sched = [] ∧ t.seg[g].gaPins = s.seg[g].gaPins) ∧
  (s.tap.taken = false → ∀ b : Ball, ballLevel t b = resetLevel b) ∧
  t.lcc.uid = s.lcc.uid ∧ t.lcc.presPin = s.lcc.presPin ∧ t.lcc.presence = false ∧
  (s.lcc.trans = none → t.lcc.commissioned = s.lcc.commissioned ∧ t.lcc.retired = s.lcc.retired)

/-- Only the Almanac bytes from `lo` to `hi − 1` may differ. -/
def AlmOnly (lo hi : Nat) (s t : State) : Prop := ∀ a, a < lo ∨ hi ≤ a → mget 0 t.alm.mem a = mget 0 s.alm.mem a

/-- The SEQ of a record pair has room for one more (R398 gives no order beyond). -/
def RecordRoom (s : State) (k : RecKind) : Prop := ∀ a, recCounts s k = some a → recSeq s a + 1 < 2 ^ 32

/-- The 16 bits that the next seal check drives (R392). -/
def sealNext (s : State) : BitVec 16 := lfsrSteps 16 s.lcc.lfsr

/-- The byte memories of the block are in canonical form. -/
abbrev MemoriesWf (s : State) : Prop :=
  Memory.wf s.img.mem = true ∧ Memory.wf s.img.build = true ∧ Memory.wf s.alm.mem = true ∧ Memory.wf s.crl.cell = true ∧
  Memory.wf s.lom.act.mem = true ∧ Memory.wf s.lom.stby.mem = true

end Sys2Proof.Machine
end

