-- ==== Sys2Proof/Certificates/Slice0/Obligations.lean ====
section
/-!
DEFINITION. The statements about the machine, one `Prop` each; OBLIGATIONS.json says which rule each formalises.
-/

open Sys2Proof Sys2Proof.Machine

/-! The machine as a whole -/

/-- A step takes the command at the front of the queue and runs it with the queue's rest. -/
def Obligations.StepRunsFront : Prop :=
  ∀ (c : Instr) (cs : List Instr) (s : State), s.pending = c :: cs → step s = exec c { s with pending := cs }

/-- With no command waiting, one cycle of the always-on clock passes (the model's choice, log entry 2): device time and the count of the
clock's cycles advance and, where no request waits for a clock and no slave access for a cell, nothing else changes; a slave access that waits
tries again. -/
def Obligations.IdleStepPassesTime : Prop :=
  ∀ s : State, s.pending = [] →
    let t0 : State := { s with
      out := [],
      mer := { s.mer with time := s.mer.time + BitVec.ofInt 96 (tickStep s + slewStep s), slew := s.mer.slew - slewStep s },
      pwr := { s.pwr with ticks := s.pwr.ticks + 1 } }
    (barWaits s = false → slaveWaits s = false → step s = .next t0) ∧
    (barWaits s = false → ∃ t, step s = .next t ∧ t.mer = t0.mer ∧ t.pwr.ticks = s.pwr.ticks + 1 ∧ t.lcc = s.lcc ∧ t.rng.node = s.rng.node ∧
      t.pending = []) ∧
    (s.pwr.seqRun = true → tickStep s + slewStep s = 0)

/-- Every command of the table is answered with a next state, in every state, and no command changes the queue of those that wait. The
model's own choice in it: log entry 1. -/
def Obligations.EveryCommandCompletes : Prop := ∀ (c : Instr) (s : State), Completes c s (KeepsQueue s)

/-- After every step every event that has occurred has been delivered. -/
def Obligations.EventsDelivered : Prop := ∀ s t : State, Delivered s → step s = .next t → Delivered t

/-- A blown fuse stays blown and the unique ID never changes, whatever a step does. -/
def Obligations.FusesNeverUnblown : Prop := ∀ s t : State, step s = .next t → FusesKept s t

/-- What the release of a power-on reset leaves, and that the invariants hold there. The model's own choices in it: log entries 4, 5, 6, 25. -/
def Obligations.ResetState : Prop :=
  let s := State.reset
  s.pending = [] ∧ Delivered s ∧ MemoriesWf s ∧ (∀ p : Port, s.ch[p].st = .absent ∧ s.ch[p].epoch = 0 ∧ s.port[p].dlUp = false ∧ s.port[p].crs = true) ∧
  s.vot.mode = .halt ∧ s.lom.run = false ∧ s.lom.act.src = 0 ∧ s.rng.node = .listen ∧ s.mer.time = 0 ∧ s.mer.holdover = true ∧
  s.mnt.acc = none ∧ s.pwr.st = .reset ∧ s.tap.ir = 0x01 ∧ ballLevel s .safeN = .low ∧
  (∀ k off, getReg s k off = regDefault (regAddr k off)) ∧ getReg s .vot 0x048 = 0xC8 ∧ getReg s .img 0x054 = 0x186A0

/-- Every step keeps the byte memories of the block (process image, building bank, Almanac, Creel cells, both Weave sets) in canonical
form. -/
def Obligations.CanonicalMemories : Prop := ∀ s t : State, MemoriesWf s → step s = .next t → MemoriesWf t

/-! Registers (chapter 2) -/

/-- R17: a full write of EVENT_EN stores the bits of the register and ignores the reserved ones; no other register and no other part
changes. A partial write is captured with cause 0x7 and stores nothing. R11: a write to an address with no register behind it counts in
GLB.UNASG_CNT, sets GLB event UNASG_WR and is captured with cause 0x6. -/
def Obligations.RegisterWrites : Prop :=
  (∀ (r : Req) (k : PageKind) (d : Word) (be : BitVec 4) (s : State), Calm s → Writer r s → FreePage r k s →
     (be = 0xF → Completes (.registerWrite r (addrOf k 0x014) be ⟨d, false⟩) s fun t =>
       t = { reached r s with regs := t.regs } ∧ OtherRegs k 0x014 s t ∧
       getReg t k 0x014 = (getReg s k 0x014 &&& 0xFF000000#32) ||| (d &&& 0x00FFFFFF#32)) ∧
     (be ≠ 0xF → Completes (.registerWrite r (addrOf k 0x014) be ⟨d, false⟩) s fun t =>
       RestSame s t ∧ Captured k 7 r k.num 0x014 d s t ∧ getReg t k 0x014 = getReg s k 0x014 ∧ EventSet t k.events.1)) ∧
  (∀ (r : Req) (addr : BitVec 20) (d : Word) (s : State), Writer r s → unassignedAt r addr.toNat = true →
     Completes (.unassignedPageWrite r addr d) s fun t =>
       RestSame s t ∧ getReg t .glb 0x078 = getReg s .glb 0x078 + 1 ∧ EventSet t 2 ∧
       Captured .glb 6 r (addr.toNat / 4 * 4 / 0x1000) (addr.toNat / 4 * 4 % 0x1000) d s t)

/-- R21: EVENT_ACK. -/
def Obligations.EventAcknowledged : Prop :=
  ∀ (r : Req) (k : PageKind) (page seq : BitVec 8) (mask : BitVec 24) (s : State), Calm s → Writer r s → FreePage r k s →
    page.toNat = k.num →
    Completes (.eventAck r page seq mask) s fun t =>
      if seq.toNat = fieldOf (mget 0 s.evh.event k.num) 31 24 then
        t = { reached r s with evh := { s.evh with event := t.evh.event, levels := t.evh.levels } } ∧
        mget 0 t.evh.event k.num = mget 0 s.evh.event k.num &&& ~~~ (mask.setWidth 32) ∧
        ∀ n, n ≠ k.num → mget 0 t.evh.event n = mget 0 s.evh.event n
      else
        t = { reached r s with regs := t.regs } ∧ OtherRegs k 0x008 s t ∧ getReg t k 0x008 = setFieldOf (getReg s k 0x008) 31 31 1

/-- R22 and R23: LOCK takes one write of 1, then refuses every write. -/
def Obligations.LockWrittenOnce : Prop :=
  ∀ (r : Req) (k : PageKind) (page : BitVec 8) (d : Word) (s : State), Calm s → Writer r s → FreePage r k s →
    page.toNat = k.num →
    Completes (.lockWrite r page d) s fun t =>
      if getFld s k 0x018 0 0 = 1 then
        RestSame s t ∧ Captured k 1 r k.num 0x018 d s t ∧ EventSet t k.events.1 ∧ getReg t k 0x018 = getReg s k 0x018
      else
        t = { reached r s with regs := t.regs } ∧ OtherRegs k 0x018 s t ∧
        getReg t k 0x018 = if bitAt d 0 then setFieldOf (getReg s k 0x018) 0 0 1 else getReg s k 0x018

/-- R25, R26, R356: an indirect read beyond the length of its space returns zero, and WADDR then advances while AI is 1; a space that the
page does not have ends in error at once: zero, IND_ERR, cause 0x3, and WADDR stays. A requester writes its own replication base through
IND_DATA. An access that has not completed in time ends in error: a write is discarded, a read returns zero, IND_ERR sets, the access is
captured with cause 0x3 and WADDR does not advance. The model's own choices in it: log entries 3, 29. -/
def Obligations.IndirectAccesses : Prop :=
  (∀ (r : Req) (k : PageKind) (page : BitVec 8) (tag : BitVec 10) (s : State), CoreRuns s → Reader r (regAddr k 0x024) s →
     page.toNat = k.num →
     (∀ n, indLen k (fieldOf (indAddr s r k) 27 24) = some n → indRuns s k (fieldOf (indAddr s r k) 27 24) = true →
       almSpace k (fieldOf (indAddr s r k) 27 24) = false → n ≤ fieldOf (indAddr s r k) 23 0 →
       Completes (.indDataRead r page tag) s fun t =>
         answer s r (regAddr k 0x024) tag.toNat 0 <+: t.out ∧ t.regs = s.regs ∧
         indAddr t r k = if bitAt (indAddr s r k) 31 then setFieldOf (indAddr s r k) 23 0 (fieldOf (indAddr s r k) 23 0 + 1)
           else indAddr s r k) ∧
     (indLen k (fieldOf (indAddr s r k) 27 24) = none →
       Completes (.indDataRead r page tag) s fun t =>
         answer s r (regAddr k 0x024) tag.toNat 0 <+: t.out ∧ getFld t k 0x008 30 30 = 1 ∧ indAddr t r k = indAddr s r k ∧
         Captured k 3 r k.num 0x024 0 s t)) ∧
  (∀ (r : Req) (d : Word) (s : State), Calm s → Writer r s → FreePage r .evh s →
     fieldOf (indAddr s r .evh) 27 24 = 1 → fieldOf (indAddr s r .evh) 23 0 < 8 → indRuns s .evh 1 = true →
     (r.val = 4 ∨ fieldOf (indAddr s r .evh) 23 0 / 2 = r.val) →
     Completes (.indDataWrite r 0x30 d) s fun t =>
       t = { reached r s with bus := t.bus, evh := { s.evh with replBase := t.evh.replBase } } ∧
       mget 0 t.evh.replBase (fieldOf (indAddr s r .evh) 23 0) =
         (if fieldOf (indAddr s r .evh) 23 0 % 2 = 0 then d &&& 0xFFFFE001#32 else d) ∧
       indAddr t r .evh = if bitAt (indAddr s r .evh) 31 then
           setFieldOf (indAddr s r .evh) 23 0 (fieldOf (indAddr s r .evh) 23 0 + 1) else indAddr s r .evh) ∧
  (∀ (r : Req) (k : PageKind) (page : BitVec 8) (write : Bool) (d : Word) (tag : BitVec 10) (s : State),
     Reader r (regAddr k 0x024) s → (∀ p, reqPort r = some p → s.ch[p].st.inService = true) → page.toNat = k.num →
     Completes (.indirectTimeout r page write d tag) s fun t =>
       getFld t k 0x008 30 30 = 1 ∧ indAddr t r k = indAddr s r k ∧ Captured k 3 r k.num 0x024 (if write then d else 0) s t ∧
       (write = false → answer s r (regAddr k 0x024) tag.toNat 0 <+: t.out) ∧ t.ch = s.ch ∧ t.img = s.img ∧ t.lom = s.lom)

/-- R28 and R29: a value written to a register with a G field is held, and no register changes; GUARD with the complement lets it take
effect (CNT.USER_EN), any other GUARD value or the passing of 160 ns discards it with GUARD_FAIL and cause 0x2. The model's own choices
in it: log entries 3, 29. -/
def Obligations.GuardedSequence : Prop :=
  ∀ (r : Req) (k : PageKind) (page : BitVec 8) (s : State), Calm s → Writer r s → pageRefused r k = false → page.toNat = k.num →
    (∀ (off : BitVec 12) (v : Word), heldIn s r k = none → off.toNat < 0x400 → off.toNat % 4 = 0 → guardedAt page off = true →
      Completes (.guardedValueWrite r page off v) s fun t =>
        t = { reached r s with bus := t.bus } ∧ heldIn t r k = some ⟨off.toNat, v⟩ ∧
        ∀ q : Req, q ≠ r → t.bus.req[q] = s.bus.req[q]) ∧
    (∀ v : Word, heldIn s r .cnt = some ⟨0x040, v⟩ → k = .cnt →
      Completes (.guardWrite r page (~~~ v)) s fun t =>
        t = { reached r s with bus := t.bus, regs := t.regs } ∧ heldIn t r .cnt = none ∧
        getReg t .cnt 0x040 = (getReg s .cnt 0x040 &&& 0xFFFFFFF0#32) ||| (v &&& 0xF#32)) ∧
    (∀ (h : Held) (v : Word), heldIn s r k = some h → v ≠ ~~~ h.value →
      Completes (.guardWrite r page v) s fun t =>
        RestSame { s with bus := t.bus } t ∧ heldIn t r k = none ∧ EventSet t (k.events.1 + 1) ∧ Captured k 2 r k.num 0x028 v s t) ∧
    (∀ h : Held, heldIn s r k = some h →
      Completes (.guardTimeout r page) s fun t =>
        RestSame { s with bus := t.bus } t ∧ heldIn t r k = none ∧ EventSet t (k.events.1 + 1) ∧
        Captured k 2 r k.num h.off h.value s t)

/-- R32 to R34, R125, R142: the first write of a V field by a channel is held, in any V register but EPOCH_SET and IMG.COMMIT, and changes
no register; it carries the channel's APSEQ.K and epoch. For LOM.ARM_CYCLE, the second channel's equal write in its present epoch lets
it take effect, ends both entries and opens the window of R142, and in 1OO1 the one channel's write takes effect at once. A held entry
that expires is gone without effect; with none, the window ends. The model's own choices in it: log entries 3, 29. -/
def Obligations.VotedWrite : Prop :=
  ∀ (c : Port) (k : PageKind) (page : BitVec 8) (off : BitVec 12) (v : Word) (s : State), Calm s → Writer (portReq c) s →
    FreePage (portReq c) k s → page.toNat = k.num → off.toNat < 0x400 → off.toNat % 4 = 0 → hasV k off.toNat = true →
    ¬ (k = .mer ∧ (off.toNat = 0x054 ∨ off.toNat = 0x058)) → ¬ (k = .img ∧ off.toNat = 0x04C) →
    let key := voteKey k off.toNat
    let mine := s.bus.voted[c].filter fun x => x.key != key
    (s.vot.mode ≠ .m1oo1 → recentOf s key = none →
      (∀ e : Port, e ≠ c → s.ch[e].st = .active → ∀ x ∈ s.bus.voted[e], ¬ (x.key = key ∧ x.value = v.setWidth 64 ∧ x.epoch = s.ch[e].epoch)) →
      mine.length < 16 → Completes (.votedWrite c page off v) s fun t =>
        t = { reached (portReq c) s with bus := t.bus } ∧
        t.bus.voted[c] = mine ++ [⟨key, v.setWidth 64, s.ch[c].k, s.ch[c].epoch⟩] ∧
        ∀ e : Port, e ≠ c → t.bus.voted[e] = s.bus.voted[e]) ∧
    (k = .lom → off.toNat = 0x054 → s.vot.mode ≠ .m1oo1 → recentOf s key = none → ∀ d : Port, d ≠ c → s.ch[d].st = .active →
      (∃ x ∈ s.bus.voted[d], x.key = key ∧ x.value = v.setWidth 64 ∧ x.epoch = s.ch[d].epoch) →
      Completes (.votedWrite c page off v) s fun t =>
        t = { reached (portReq c) s with bus := t.bus, regs := t.regs } ∧ OtherRegs .lom 0x054 s t ∧ getReg t .lom 0x054 = v ∧
        (∀ x ∈ t.bus.voted[c], x.key ≠ key) ∧ recentOf t key = some (v.setWidth 64)) ∧
    (k = .lom → off.toNat = 0x054 → s.vot.mode = .m1oo1 → Completes (.votedWrite c page off v) s fun t =>
      t = { reached (portReq c) s with regs := t.regs } ∧ OtherRegs .lom 0x054 s t ∧ getReg t .lom 0x054 = v) ∧
    ((∃ x ∈ s.bus.voted[c], x.key = key) → Completes (.votedEntryExpire c page off) s fun t =>
      t = { cleared s with bus := { s.bus with voted := t.bus.voted } } ∧ t.bus.voted[c] = mine ∧
      ∀ e : Port, e ≠ c → t.bus.voted[e] = s.bus.voted[e]) ∧
    ((∀ x ∈ s.bus.voted[c], x.key ≠ key) → Completes (.votedEntryExpire c page off) s fun t =>
      t = { cleared s with bus := { s.bus with recent := s.bus.recent.filter fun x => x.1 != key } })

/-- R38: an update of group 7 waits while the Loom runs and applies at the boundary; a shadow of a page of group `g` applies with the
strobe's bit `g` (RNG.MISS_LIMIT and RNG.OUT_HOLD). -/
def Obligations.ShadowUpdates : Prop :=
  ∀ (r : Req) (s : State), Calm s → Writer r s → FreePage r .glb s →
    (s.lom.run = true →
      Completes (.update r 0x80) s fun t =>
        t = { reached r s with regs := t.regs } ∧ OtherRegs .glb 0x064 s t ∧ getFld t .glb 0x064 7 7 = 1) ∧
    (∀ (off : Nat) (w : Word), off = 0x054 ∨ off = 0x058 → NothingQueued s → s.bus.shadow = [(regAddr .rng off, w)] →
      (∀ g, 1 ≤ g → g ≤ 6 → pageGroup s .rng = g →
        Completes (.update r (BitVec.ofNat 32 (2 ^ g))) s fun t => t.bus.shadow = [] ∧ getReg t .rng off = w ∧ OtherRegs .rng off s t) ∧
      (getFld s .glb 0x064 7 7 = 1 → pageGroup s .rng = 7 →
        Completes .group7UpdateApply s fun t => t.bus.shadow = [] ∧ getReg t .rng off = w ∧ getFld t .glb 0x064 7 7 = 0))

/-- R42: an alias write changes the one bit behind it (EVENT_EN). The model's own choice in it: log entry 29. -/
def Obligations.AliasWritesOneBit : Prop :=
  ∀ (r : Req) (k : PageKind) (b : Nat) (d : Word) (s : State), Calm s → Writer r s → FreePage r k s → k.num < 0x40 → b < 24 →
    Completes (.bitAliasWrite r (BitVec.ofNat 16 (k.num * 0x400 + (5 * 32 + b) * 4)) d) s fun t =>
      t = { reached r s with regs := t.regs } ∧ OtherRegs k 0x014 s t ∧
      ∀ j, j < 24 → bitAt (getReg t k 0x014) j = if j = b then bitAt d 0 else bitAt (getReg s k 0x014) j

/-- R44: SNAP.GO copies the counters, counts SNAP_SEQ and captures Meridian time; CLEAR clears the sampling counters and never the event
counters. Without GO nothing happens. R420: a written 0 clears an overflow bit, a written 1 leaves it. -/
def Obligations.Counters : Prop :=
  (∀ (r : Req) (go clear : Bool) (s : State), Calm s → Writer r s → FreePage r .glb s →
     Completes (.snap r go clear) s fun t =>
       if go then
         t = { reached r s with regs := t.regs, evh := { s.evh with held := t.evh.held, sc := t.evh.sc } } ∧
         getReg t .glb 0x06C = getReg s .glb 0x06C + 1 ∧ getReg t .glb 0x070 = timeFrac s ∧ getReg t .glb 0x074 = timeSec s ∧
         t.evh.sc = (if clear then [] else s.evh.sc) ∧
         (∀ i, i < 256 → mget 0 t.evh.held i = mget 0 s.evh.cnt i) ∧
         (∀ i, mget 0 t.evh.held (256 + i) = mget 0 s.evh.sc i)
       else t = reached r s) ∧
  (∀ (r : Req) (d : Word) (s : State), Calm s → Writer r s → FreePage r .cnt s →
     Completes (.ovfClear r (addrOf .cnt 0x044) d) s (fun t => t = { reached r s with evh := { s.evh with scOvf := s.evh.scOvf &&& d } }) ∧
     ∀ j, j < 8 → Completes (.ovfClear r (addrOf .cnt (0x050 + 4 * j)) d) s fun t =>
       t = { reached r s with evh := { s.evh with ecOvf := t.evh.ecOvf } } ∧
       mget 0 t.evh.ecOvf j = mget 0 s.evh.ecOvf j &&& d ∧ ∀ i, i ≠ j → mget 0 t.evh.ecOvf i = mget 0 s.evh.ecOvf i)

/-- R43 and R45: a read of the ID register returns its page's TYPE and INST, a read of EVENT its SEQ and bits, and nothing else changes; a
read of the CNT user page returns zero to a channel it is not shown to, else the counter's low word. The model's own choice in it: log
entry 29. -/
def Obligations.RegisterReads : Prop :=
  ∀ (r : Req) (tag : BitVec 10) (s : State), Calm s →
    (∀ k : PageKind, Reader r (regAddr k 0x000) s →
      Completes (.registerRead r (addrOf k 0x000) ⟨1, tag⟩) s fun t =>
        t = { reached r s with
          out := answer s r (regAddr k 0x000) tag.toNat (BitVec.ofNat 32 (k.typ * 2 ^ 24 + k.inst * 2 ^ 16 + 0x0100)) }) ∧
    (∀ k : PageKind, Reader r (regAddr k 0x00C) s →
      Completes (.registerRead r (addrOf k 0x00C) ⟨1, tag⟩) s fun t =>
        t = { reached r s with out := answer s r (regAddr k 0x00C) tag.toNat (mget 0 s.evh.event k.num) }) ∧
    (∀ i, i < 16 → Reader r (regAddr .cntu (0x040 + 8 * i)) s →
      Completes (.userPageRead r (BitVec.ofNat 12 (0x040 + 8 * i)) tag) s fun t =>
        t.regs = s.regs ∧ t.evh = s.evh ∧
        t.out = answer s r (regAddr .cntu (0x040 + 8 * i)) tag.toNat
          (if userShown s r then BitVec.ofNat 32 (mget 0 s.evh.sc i) else 0))
/-! Channel ports (chapter 4) -/

/-- R92, R93, R96, R98, R117: a configuration request is answered, with Retry Status until the port is ready; a write of the byte
Interrupt Line stores it (the layout of the configuration space is the model's, log entry 7). -/
def Obligations.ConfigurationRequests : Prop :=
  ∀ (p : Port) (dw : BitVec 10) (be : BitVec 4) (d : Word) (tag : BitVec 10) (s : State),
    Delivered s → s.port[p].dlUp = true → s.port[p].rx = [] → npRoom s p = true →
    (s.port[p].crs = true → ∀ w : Bool, Completes (.configRequest p dw w be d tag) s fun t =>
      t = { receipt p (cleared s) with out := sentBy s p [.cpl p tag.toNat 2 false 0 0 []] }) ∧
    (s.port[p].crs = false → Completes (.configRequest p dw false be d tag) s fun t =>
      t = { receipt p (cleared s) with
        freeCount := t.freeCount,
        out := sentBy s p [.cpl p tag.toNat 0 false 4 0 (bytesLE 4 (cfgRead s p dw.toNat).toNat)] }) ∧
    (s.port[p].crs = false → s.msix[p].pba = [] → Completes (.configRequest p 0x0F true 0xF d tag) s fun t =>
      t = { cleared s with out := sentBy s p [.cpl p tag.toNat 0 false 4 0 []], port := t.port } ∧
      (∀ q, q ≠ p → t.port[q] = s.port[q]) ∧
      t.port[p] = { s.port[p] with l1 := false, cfg := t.port[p].cfg } ∧
      cfgGet t p 0x0F = (cfgGet s p 0x0F &&& 0xFFFFFF00#32) ||| (d &&& 0xFF#32) ∧
      ∀ n, n ≠ 0x0F → cfgGet t p n = cfgGet s p n)

/-- Table 4.8: a request that reaches no BAR is answered with Unsupported Request when it is non-posted, and sets UR_RX; a malformed TLP, an
unexpected completion and a link-layer error set their AER status bit and the port event. A vendor message of type 1 is ignored. The
model's own choices in it: log entries 1, 7. -/
def Obligations.RequestErrors : Prop :=
  ∀ (p : Port) (s : State), Delivered s → s.pwr.boot ≠ .inReset → s.port[p].dlUp = true → s.port[p].rx = [] →
    (∀ (kind : UrKind) (tag : BitVec 10), urApplies s p kind = true → kind ≠ .vendorMessage1 →
      (urHeld kind = true → npRoom s p = true) →
      Completes (.unsupportedRequest p kind tag) s fun t =>
        PortOnly p s t ∧ OtherRegs (.cp p) 0x068 s t ∧ getFld t (.cp p) 0x068 5 5 = 1 ∧ EventSet t (cpEv p 6) ∧
        (urHeld kind = true → sentBy s p [Out.cpl p tag.toNat 1 false 0 0 []] <+: t.out)) ∧
    (∀ tag : BitVec 10, Completes (.unsupportedRequest p .vendorMessage1 tag) s fun t => t = receipt p (cleared s)) ∧
    (∀ kind : FatalErr, (kind = .ecrc → ecrcCheck s p = true) → Completes (.malformedTlp p kind) s fun t =>
      PortOnly p s t ∧ t.regs = s.regs ∧ EventSet t (cpEv p 6) ∧
      bitAt (cfgGet t p 0x41)
        (match kind with
         | .malformed => 18 | .receiverOverflow => 17 | .flowControl => 13 | .dataLink => 4 | .ecrc => 19) = true) ∧
    Completes (.unexpectedCompletion p) s (fun t =>
      PortOnly p s t ∧ t.regs = s.regs ∧ EventSet t (cpEv p 6) ∧ bitAt (cfgGet t p 0x41) 16 = true) ∧
    ∀ kind : LinkErr, Completes (.linkLayerError p kind) s fun t =>
      PortOnly p s t ∧ t.regs = s.regs ∧ EventSet t (cpEv p 6) ∧
      bitAt (cfgGet t p 0x44)
        (match kind with
         | .receiverError => 0 | .badTlp => 6 | .badDllp => 7 | .replayTimeout => 12 | .replayRollover => 8) = true

/-- R95, R99, R259, R260: a BAR2 read returns the bytes of its region, cut at the boundaries of R99, and changes nothing; a write to the
channel's own staging area stores exactly the enabled bytes; a write to an active bank is captured with cause 0x1; a poisoned write is
flagged and stores nothing; a write beyond Max Payload Size is malformed and stores nothing. The model's own choice in it: log entry 22. -/
def Obligations.ImageThroughBar2 : Prop :=
  ∀ (p : Port) (off : BitVec 25) (s : State), Calm s → PortFree p s → barOn s p = true → s.ch[p].st.inService = true →
    (∀ (len : Nat) (tag : BitVec 10), npRoom s p = true → crosses off.toNat len = false → s.tap.ecc = [] →
      Completes (.bar2Read p off len tag) s fun t =>
        t = { receipt p (cleared s) with
          out := sentBy s p (splitCpl p tag.toNat 0 off.toNat (mps s p) 0 len (bar2Bytes s off.toNat len)) }) ∧
    ∀ (data : List Byte) (be : List Bool), be.length = data.length → postedRoom s p data.length = true →
      crosses off.toNat data.length = false →
      (mps s p < data.length → ∀ poisoned : Bool, Completes (.bar2Write p off data be poisoned) s fun t =>
        PortOnly p s t ∧ t.regs = s.regs ∧ EventSet t (cpEv p 6) ∧ bitAt (cfgGet t p 0x41) 18 = true) ∧
      (data.length ≤ mps s p →
        (off.toNat < 0x800000 → (∀ i, i < data.length → areaOf s.lom.act (off.toNat + i) = 3 + p.val) →
          Completes (.bar2Write p off data be false) s fun t =>
            t = { receipt p (cleared s) with img := { s.img with mem := t.img.mem } } ∧
            ∀ a, mget 0 t.img.mem a =
              if off.toNat ≤ a ∧ a < off.toNat + data.length ∧ be.getD (a - off.toNat) false = true
              then data.getD (a - off.toNat) 0 else mget 0 s.img.mem a) ∧
        (0xC00000 ≤ off.toNat → off.toNat < 0xD40000 → s.ch[p].st = .active → Completes (.bar2Write p off data be false) s fun t =>
          RestSame s t ∧ EventSet t PageKind.lom.events.1 ∧
          Captured .lom 1 (portReq p) (off.toNat / 0x1000) off.toNat (wordLE data) s t) ∧
        Completes (.bar2Write p off data be true) s fun t =>
          PortOnly p s t ∧ OtherRegs (.cp p) 0x068 s t ∧ getFld t (.cp p) 0x068 6 6 = 1 ∧ EventSet t (cpEv p 6))

/-- R105 to R107: a push whose conditions hold sends the records frozen for it, joined and cut as R107 says; one whose conditions fail is
skipped with PUSH_SKIP; the trailer ends it: PUSH_STAT shows its controller cycle and the event sets. The model's own choices in it: log
entries 4, 33. -/
def Obligations.Pushes : Prop :=
  ∀ (p : Port) (s : State), Delivered s → s.pwr.boot ≠ .inReset →
    (∀ (ask : PushAsk) (rest : List PushAsk), s.port[p].pushWaiting = ask :: rest → s.port[p].push = none →
      (pushOk s p = false → Completes (.pushStart p) s fun t =>
        PortOnly p s t ∧ t.port[p] = { s.port[p] with pushWaiting := rest, l1 := t.port[p].l1 } ∧ OtherRegs (.cp p) 0x068 s t ∧
        getFld t (.cp p) 0x068 10 10 = 1 ∧ EventSet t (cpEv p 3)) ∧
      (pushOk s p = true → (∀ r ∈ ask.recs, r.1 + r.2.2.length ≤ pushLimit s p * 4096) → s.tap.ecc = [] →
        Completes (.pushStart p) s fun t =>
          PortOnly p s t ∧ t.regs = s.regs ∧ t.port[p] = { s.port[p] with
            l1 := t.port[p].l1, pushWaiting := rest,
            push := some { n := ask.n, bytes := (ask.recs.flatMap (·.2.2)).length, records := ask.recs.length,
                           crc := crc32c (ask.recs.flatMap (·.2.2)), truncated := false, epoch := s.ch[p].epoch, st := s.ch[p].st,
                           ftime := ask.ftime, base := pushBase s p, limit := pushLimit s p } } ∧
          (s.tx[p].credits = none → s.tx[p].waiting = [] →
            t.out = sentBy s p ((joinRuns (ask.recs.map fun r => (r.1, r.2.2))).flatMap fun r =>
              (cutRun (mps s p) r.2.length (pushBase s p + r.1) r.2).map fun x => .mwr p (decide (2 ^ 32 ≤ x.addr)) x)))) ∧
    ∀ u : Push, s.port[p].push = some u → (∀ e ∈ s.tx[p].waiting, e.1 ≠ 0) →
      creditsFor s.tx[p].credits ⟨u.base + u.limit * 4096, trailerBytes u (s.port[p].pseq + 1)⟩ = true →
      Completes (.pushDone p) s fun t =>
        PortOnly p s t ∧ t.port[p] = { s.port[p] with push := none, pseq := s.port[p].pseq + 1, l1 := t.port[p].l1 } ∧
        OtherRegs (.cp p) 0x05C s t ∧ getReg t (.cp p) 0x05C = u.n ∧ EventSet t (cpEv p 2)

/-- R115 to R117, Table 4.9: each port reset clears what the port holds, answers with Retry Status until the port is ready again, sets its
bit in ERR_STAT, restarts APSEQ.K at 0 and fences a channel in service; all but FLR take the link down. PERST_RELEASE and PORT_READY end
it. The model's own choices in it: log entries 7, 33. -/
def Obligations.PortResets : Prop :=
  ∀ (p : Port) (s : State), Delivered s → NothingQueued s → s.pwr.boot = .opened → s.port[p].dlUp = true →
    (∀ (c : Instr) (flag : Nat) (retrain : Bool),
      (c = .perst p ∧ flag = 14 ∧ retrain = true) ∨ (c = .hotReset p ∧ flag = 13 ∧ retrain = true) ∨
        (c = .dlDown p ∧ flag = 11 ∧ retrain = true) ∨
        (c = .flr p ∧ flag = 12 ∧ retrain = false ∧ s.port[p].crs = false ∧ s.port[p].rx = []) →
      Completes c s fun t =>
        t.port[p].np = [] ∧ t.port[p].rx = [] ∧ t.port[p].bar = [] ∧ t.port[p].flush = [] ∧ t.port[p].push = none ∧
        t.port[p].pushWaiting = [] ∧ t.msix[p].table = [] ∧ t.port[p].crs = true ∧ t.port[p].dlUp = !retrain ∧ t.ch[p].k = 0 ∧
        getFld t (.cp p) 0x068 flag flag = 1 ∧ getReg t (.cp p) 0x05C = 0 ∧ t.lcc = s.lcc ∧ t.alm.mem = s.alm.mem ∧
        (s.ch[p].st.inService = true → t.ch[p].st = .fenced ∧ t.ch[p].epoch = s.ch[p].epoch + 1)) ∧
    Completes (.perstRelease p) s (fun t => t = { cleared s with port := t.port } ∧
      t.port[p] = { s.port[p] with perst := false, crs := false } ∧ ∀ q, q ≠ p → t.port[q] = s.port[q]) ∧
    (s.port[p].perst = false → Completes (.portReady p) s fun t => t = { cleared s with port := t.port } ∧
      t.port[p] = { s.port[p] with crs := false, hotReset := false } ∧ ∀ q, q ≠ p → t.port[q] = s.port[q])

/-- R96, R98, R118, R119, R121: the link states of a port, its credits and those of its partner. R123, R124: a link that comes up sets the
port's event; while admission is open it admits an ABSENT channel, ACTIVE or READY. The model's own choice in it: log entry 33. -/
def Obligations.Links : Prop :=
  (∀ (p : Port) (s : State), Delivered s → s.pwr.boot ≠ .inReset → s.port[p].dlUp = true →
     (aspmL1 s p = true → s.tx[p].waiting = [] → s.port[p].push = none → s.port[p].rx = [] → s.port[p].bar = [] →
       Completes (.l1Entry p) s fun t =>
         t = { cleared s with port := t.port } ∧ t.port[p] = { s.port[p] with l1 := true } ∧ ∀ q, q ≠ p → t.port[q] = s.port[q]) ∧
     Completes (.l1Exit p) s (fun t => t = receipt p (cleared s)) ∧
     Completes (.pmeTurnOff p) s (fun t =>
       t = { s with port := t.port, out := [.msg p "PME_TO_Ack"] } ∧ t.port[p] = { s.port[p] with l23 := true } ∧
       ∀ q, q ≠ p → t.port[q] = s.port[q]) ∧
     (∀ (speed : BitVec 4) (width : BitVec 6), Completes (.linkSpeedWidthChange p speed width) s fun t =>
       PortOnly p s t ∧ t.regs = s.regs ∧ EventSet t (cpEv p 5) ∧
       t.port[p] = { s.port[p] with speed := speed.toNat, width := width.toNat, l1 := t.port[p].l1 }) ∧
     ∀ (h d ph pd : Nat), s.tx[p].credits = some (h, d) →
       (s.tx[p].waiting = [] → Completes (.postedCreditReturn p ph pd) s fun t =>
         t.tx[p] = ⟨some (h + ph, d + pd), []⟩ ∧ t.ch = s.ch ∧ t.port = s.port ∧ t.out = []) ∧
       ∀ x : PTlp, s.tx[p].waiting = [(0, x)] → creditsFor (some (h + ph, d + pd)) x = true →
         Completes (.postedCreditReturn p ph pd) s fun t =>
           t.tx[p] = ⟨some (h + ph - 1, d + pd - pdOf x), []⟩ ∧ t.ch = s.ch ∧ t.port[p] = { s.port[p] with l1 := false } ∧
           t.out = sentBy s p [.mwr p (decide (2 ^ 32 ≤ x.addr)) x]) ∧
  (∀ (p : Port) (speed : BitVec 4) (width : BitVec 6) (credits : Option (Nat × Nat)) (s : State),
     Delivered s → NothingQueued s → s.pwr.boot = .opened → s.port[p].dlUp = false → s.port[p].perst = false →
     (s.ch[p].st ≠ .absent ∨ s.vot.admitOn = false → Completes (.dlUp p speed width credits) s fun t =>
       PortOnly p s t ∧ t.regs = s.regs ∧ EventSet t (cpEv p 5) ∧ [.initFc p 256 2048 128 128] <+: t.out ∧
       t.port[p] = { s.port[p] with
         dlUp := true, speed := speed.toNat, width := width.toNat, l1 := false, l23 := false }) ∧
     (s.ch[p].st = .absent → s.vot.admitOn = true → Completes (.dlUp p speed width credits) s fun t =>
       t.port[p].dlUp = true ∧ EventSet t (cpEv p 5) ∧ t.ch[p].aligned = true ∧ t.ch[p].k = 0 ∧ t.ch[p].epoch = s.ch[p].epoch ∧
       t.ch[p].st = if p = s.pwr.spare ∨ 3 ≤ (activeChs s).length then .ready else .active))
/-! Aperiodic accesses (chapters 3, 5 and 7) -/

/-- R69, R131, R139, Table 4.8: a refused BAR4 access changes no APSEQ.K and takes no part in matching, its port reports it, and a read ends
with Unsupported Request. An operation of a channel that is not aligned only advances APSEQ.K, and a read ends with Completer Abort. The
model's own choices in it: log entries 34, 35. -/
def Obligations.AperiodicRefusals : Prop :=
  ∀ (p : Port) (pat : BitVec 16) (off : BitVec 12) (s : State), Delivered s → s.pwr.boot = .opened → portOpen s p = true →
    barOn s p = true → s.port[p].rx = [] → s.ch[p].st.inService = true → s.pwr.st = .run → s.tap.ecc = [] →
    (∀ (data : List Byte) (be : List Bool),
      postedRoom s p data.length = true → crosses off.toNat data.length = false → data.length ≤ mps s p →
      (bar4Refused s pat.toNat off.toNat data.length true = true → Completes (.bar4Write p pat off data be false false) s fun t =>
        PortOnly p s t ∧ OtherRegs (.cp p) 0x068 s t ∧ getFld t (.cp p) 0x068 0 0 = 1 ∧ EventSet t (cpEv p 4)) ∧
      (bar4Refused s pat.toNat off.toNat data.length true = false → s.ch[p].aligned = false →
        Completes (.bar4Write p pat off data be false false) s fun t =>
          t = { receipt p (cleared s) with ch := t.ch } ∧ (∀ d, d ≠ p → t.ch[d] = s.ch[d]) ∧
          t.ch[p] = { s.ch[p] with k := s.ch[p].k + 1, opsSince := s.ch[p].opsSince + 1 })) ∧
    ∀ (len : Nat) (be : List Bool) (tag : BitVec 10), npRoom s p = true → crosses off.toNat len = false →
      (4 < len ∨ true ∈ be) →
      (bar4Refused s pat.toNat off.toNat len false = true → Completes (.bar4Read p pat off ⟨len, be⟩ tag) s fun t =>
        PortOnly p s t ∧ OtherRegs (.cp p) 0x068 s t ∧ getFld t (.cp p) 0x068 0 0 = 1 ∧ EventSet t (cpEv p 4) ∧
        t.port[p].np = s.port[p].np ∧ .cpl p tag.toNat 1 false 0 0 [] ∈ t.out) ∧
      (bar4Refused s pat.toNat off.toNat len false = false → s.ch[p].aligned = false →
        Completes (.bar4Read p pat off ⟨len, be⟩ tag) s fun t =>
          PortOnly p { s with ch := t.ch } t ∧ t.regs = s.regs ∧ t.port[p].np = s.port[p].np ∧
          (∀ d, d ≠ p → t.ch[d] = s.ch[d]) ∧
          t.ch[p] = { s.ch[p] with k := s.ch[p].k + 1, opsSince := s.ch[p].opsSince + 1 } ∧
          .cpl p tag.toNat 4 false 0 0 [] ∈ t.out)

/-- R131, R132, R203: the first copy of a key opens an entry and advances APSEQ.K; a write waits at the head of the receive buffer until its
claim is granted. R134: the second equal copy issues the write, once, with the agreed payload, to the list of its segment. The model's
own choices in it: log entries 34, 35, 54. -/
def Obligations.AperiodicMatching : Prop :=
  ∀ (p : Port) (pat : BitVec 16) (off : BitVec 12) (s : State), Delivered s → s.pwr.boot = .opened → portOpen s p = true →
    barOn s p = true → s.ch[p].st.inService = true → s.pwr.st = .run → s.tap.ecc = [] → s.ch[p].aligned = true →
    s.vot.closedE = [] → s.vot.kEvict = none → s.vot.mode ≠ .m1oo1 → (∀ g, masterOk s g = true) → ListsGood s →
    NothingQueued { s with vot := { s.vot with openE := [] } } →
    (∀ (data : List Byte) (be : List Bool), bar4Refused s pat.toNat off.toNat data.length true = false →
      ∀ c : Instr,
        (c = .bar4Write p pat off data be false false ∧ s.port[p].rx = [] ∧ postedRoom s p data.length = true ∧
            crosses off.toNat data.length = false ∧ data.length ≤ mps s p) ∨
          (c = .bar4TlpClaimGrant p ∧ s.port[p].rx = [.write pat.toNat off.toNat data be false]) →
        (claimOk s.crl p.val (cellsFor data.length) = false → Completes c s fun t =>
          t.port[p].rx = [.write pat.toNat off.toNat data be false] ∧ t.vot = s.vot ∧ t.ch = s.ch ∧ t.regs = s.regs) ∧
        (claimOk s.crl p.val (cellsFor data.length) = true → s.vot.openE = [] →
          (∃ d : Port, d ≠ p ∧ s.ch[d].st = .active ∧ s.ch[d].aligned = true) → Completes c s fun t =>
            t.port[p].rx = [] ∧ t.ch[p] = { s.ch[p] with k := s.ch[p].k + 1, opsSince := s.ch[p].opsSince + 1 } ∧
            (∃ x : MCopy, x.ch = p ∧ x.k = s.ch[p].k ∧ x.off = off.toNat ∧ x.len = data.length ∧ x.data = data ∧ x.en = be ∧
              t.vot = { s.vot with openE := [⟨s.ch[p].k, pat.toNat, patEntry s.lom.act pat.toNat,
                localPat s (patEntry s.lom.act pat.toNat), false, [x], .waiting, none, none, []⟩] }) ∧
            (∀ d, d ≠ p → t.ch[d] = s.ch[d]) ∧ t.regs = s.regs ∧ t.seg = s.seg ∧ t.img = s.img ∧ t.lom = s.lom ∧ t.lcc = s.lcc) ∧
        (claimOk s.crl p.val (cellsFor data.length) = true → s.ch[p].st = .active → s.vot.mode ≠ .halt →
          ∀ (x : MCopy) (patE : Nat),
            s.vot.openE = [⟨s.ch[p].k, pat.toNat, patE, some patE, false, [x], .waiting, none, none, []⟩] → x.ch ≠ p →
            s.ch[x.ch].st = .active → s.ch[x.ch].aligned = true → x.isRead = false → x.poisoned = false → x.off = off.toNat →
            x.len = data.length → x.data = data → x.en = be → (patOf patE).vclass = 0 →
            Completes c s fun t =>
              (∃ e ∈ t.vot.openE ++ t.vot.closedE, e.k = s.ch[p].k ∧ e.pat = pat.toNat ∧ e.phase = .done ∧ e.chosen = some x) ∧
              (∃ y ∈ listPkts t (8 + (patOf patE).seg.val), y.pat = pat.toNat ∧ y.off = off.toNat ∧ y.data = data ∧ y.en = be ∧
                y.isRead = false ∧ y.cells = x.cells) ∧
              t.ch[p].k = s.ch[p].k + 1 ∧ t.regs = s.regs ∧ t.lom = s.lom ∧ t.lcc = s.lcc)) ∧
    ∀ (len : Nat) (be : List Bool) (tag : BitVec 10), npRoom s p = true → crosses off.toNat len = false →
      (4 < len ∨ true ∈ be) → s.port[p].rx = [] → s.vot.openE = [] → bar4Refused s pat.toNat off.toNat len false = false →
      (patOf (patEntry s.lom.act pat.toNat)).idem = false → (patOf (patEntry s.lom.act pat.toNat)).kind ≠ .rmw →
      (∃ d : Port, d ≠ p ∧ s.ch[d].st = .active ∧ s.ch[d].aligned = true) →
      Completes (.bar4Read p pat off ⟨len, be⟩ tag) s fun t =>
        (∃ h, t.port[p].np = ⟨tag.toNat, h⟩ :: s.port[p].np) ∧
        t.ch[p] = { s.ch[p] with k := s.ch[p].k + 1, opsSince := s.ch[p].opsSince + 1 } ∧
        (∃ x : MCopy, x.ch = p ∧ x.k = s.ch[p].k ∧ x.off = off.toNat ∧ x.len = len ∧ x.en = be ∧ x.isRead = true ∧
          x.tag = tag.toNat ∧
          t.vot = { s.vot with openE := [⟨s.ch[p].k, pat.toNat, patEntry s.lom.act pat.toNat,
            localPat s (patEntry s.lom.act pat.toNat), true, [x], .waiting, none, none, []⟩] }) ∧
        t.regs = s.regs ∧ t.seg = s.seg ∧ t.lom = s.lom

/-- R70: a flush read performs nothing and leaves APSEQ.K; it completes with zero once every earlier write of its channel has been issued,
discarded or refused. R135, R136: an entry that reaches its time moves to the closed part of the match table, NO_MAJORITY or the
divergences of R135 are reported, and a closed entry is retired. The model's own choices in it: log entries 1, 3, 35. -/
def Obligations.MatchTimes : Prop :=
  ∀ (p : Port) (s : State), Delivered s → s.pwr.boot = .opened →
    (∀ tag : BitVec 10, portOpen s p = true →
      (barOn s p = true → s.port[p].rx = [] → s.ch[p].st.inService = true → s.pwr.st = .run → npRoom s p = true →
        ∀ c : Instr, c = .flushRead p tag ∨ (∃ pat, c = .bar4Read p pat 0 ⟨4, [false, false, false, false]⟩ tag) →
        Completes c s fun t =>
          t = { cleared s with port := t.port } ∧ (∀ q, q ≠ p → t.port[q] = s.port[q]) ∧
          ∃ h, t.port[p] = { s.port[p] with
            l1 := false, np := ⟨tag.toNat, h⟩ :: s.port[p].np, flush := s.port[p].flush ++ [(tag.toNat, s.ch[p].k.toNat)] }) ∧
      ∀ k : Nat, s.port[p].flush = [(tag.toNat, k)] →
        (earlierWrites s p k = false → Completes (.flushReadComplete p tag) s fun t =>
          t = { cleared s with port := t.port, out := sentBy s p [.cpl p tag.toNat 0 false 4 0 [0, 0, 0, 0]] } ∧
          (∀ q, q ≠ p → t.port[q] = s.port[q]) ∧
          t.port[p] = { s.port[p] with l1 := false, flush := [], np := s.port[p].np.eraseP fun x => x.tag == tag.toNat }) ∧
        (earlierWrites s p k = true → Completes (.flushReadComplete p tag) s fun t => t = cleared s)) ∧
    (∀ (k : Word) (pat : BitVec 16) (e : MEntry), e.k = k → e.pat = pat.toNat →
      NothingQueued { s with vot := { s.vot with openE := [] } } → ListsGood s → s.tap.ecc = [] →
      (s.vot.openE = [e] → e.phase ≠ .started →
        Completes (.matchEntryExpire k pat) s fun t =>
          t.vot.openE = [] ∧ (∃ f ∈ t.vot.closedE, f.k = k ∧ f.pat = pat.toNat) ∧ t.lcc = s.lcc ∧
          (majority s e = none → s.vot.mode ≠ .m1oo1 → EventSet t 54 ∧ (e.isRead = false → t.ch = s.ch ∧ t.regs = s.regs)) ∧
          (∀ m, majority s e = some m → s.vot.mode = .m2oo3 →
            (∃ c : Port, s.ch[c].st = .active ∧ s.ch[c].aligned = true ∧ outside e m c = true) → EventSet t 50)) ∧
      (s.vot.openE = [] → s.vot.closedE = [e] → Completes (.closedEntryRetire k pat) s fun t =>
        t.vot = { s.vot with closedE := [] } ∧ t.ch = s.ch ∧ t.regs = s.regs ∧ t.seg = s.seg ∧ t.lom = s.lom ∧ t.lcc = s.lcc))
/-! Vote unit and controller (chapters 5 and 9) -/

/-- R126, R127, R147: a fence command puts a channel in service into FENCED, its epoch counts on and what it held in the voted-write table
is gone; one of a channel out of service is refused. R152: REJOIN makes an ABSENT or FENCED channel an OBSERVER that is not aligned, in
a new epoch; any other is refused. The model's own choice in it: log entry 36. -/
def Obligations.FenceAndRejoin : Prop :=
  ∀ (c : Port) (s : State), Calm s → NothingQueued s → s.pwr.boot = .opened →
    (s.ch[c].st.inService = true → Completes (.fenceCmd c) s fun t =>
      t.ch[c].st = .fenced ∧ t.ch[c].epoch = s.ch[c].epoch + 1 ∧ t.bus.voted[c] = [] ∧ t.port[c].rx = [] ∧ EventSet t 51 ∧
      t.seg = s.seg ∧ t.lom = s.lom ∧ t.lcc = s.lcc ∧ t.rng = s.rng) ∧
    (s.ch[c].st.inService = false → Completes (.fenceCmd c) s fun t => RestSame s t ∧ t.regs = s.regs ∧ EventSet t 62) ∧
    ∀ r : Req, reqPort r = none ∨ (reqPort r = some c ∧ PortFree c s ∧ barOn s c = true) → heldIn s r (.cp c) = none →
      (s.ch[c].st = .absent ∨ s.ch[c].st = .fenced → s.port[c].dlUp = true → d3hot s c = false → bme s c = true →
        Completes (.rejoin r c) s fun t =>
          t.ch[c].st.inService = true ∧ t.ch[c].epoch = s.ch[c].epoch + 1 ∧ t.ch[c].aligned = false ∧ EventSet t 56 ∧
          t.seg = s.seg ∧ t.lom = s.lom ∧ t.lcc = s.lcc ∧ t.rng = s.rng) ∧
      (s.ch[c].st.inService = true → Completes (.rejoin r c) s fun t => RestSame s t ∧ t.regs = s.regs ∧ EventSet t 62)

/-- R129: SELECT_1OO1 leaves the named channel as the one ACTIVE channel where the device is in MAINTENANCE with presence, and is refused
elsewhere; AUTO ends 1OO1 and has no effect in another mode. R123: the end of admission. The model's own choice in it: log entry 1. -/
def Obligations.VoteModes : Prop :=
  ∀ (c : Port) (s : State), Delivered s → NothingQueued s → s.pwr.boot = .opened →
    (s.lcc.st = .maintenance → s.lcc.presence = true → s.ch[c].st = .active → Completes (.modeCmdSelect1oo1 c) s fun t =>
      t.vot.mode = .m1oo1 ∧ t.vot.oneCh = c ∧ t.ch[c].st = .active ∧ (∀ d, d ≠ c → t.ch[d].st ≠ .active) ∧ t.seg = s.seg ∧
      t.lom = s.lom ∧ t.lcc = s.lcc) ∧
    (s.lcc.st ≠ .maintenance ∨ s.lcc.presence = false ∨ s.ch[c].st ≠ .active → Completes (.modeCmdSelect1oo1 c) s fun t =>
      RestSame s t ∧ t.regs = s.regs ∧ EventSet t 62) ∧
    (s.vot.mode = .m1oo1 → Completes .modeCmdAuto s fun t => t.vot.mode ≠ .m1oo1 ∧ t.seg = s.seg ∧ t.lom = s.lom ∧ t.lcc = s.lcc) ∧
    (s.vot.mode ≠ .m1oo1 → Completes .modeCmdAuto s fun t => t = cleared s) ∧
    (s.vot.admitOn = true → Completes .admissionEnd s fun t => t.vot.admitOn = false ∧ t.seg = s.seg ∧ t.lom = s.lom ∧ t.lcc = s.lcc)

/-- R143, R144, R270: a commit of the frozen controller cycle by two ACTIVE channels, or by the one of 1OO1, is carried out: COMMITTED takes
the cycle, the controller runs, a commit run starts and admission ends; a commit of another cycle is refused. Without a majority the
controller stops, and SAFE_N is low (R282). The model's own choices in it: log entries 31, 37. -/
def Obligations.CommitsAndMajority : Prop :=
  ∀ (n : Word) (p q : Port) (s : State), Delivered s → NothingQueued s → s.pwr.boot = .opened →
    (s.ch[p].st = .active → s.ch[q].st = .active → (s.vot.mode = .m1oo1 ↔ p = q) →
      (s.img.ctl ≠ .stopped → s.img.restarting = false → n = s.img.frozen → n ≠ 0 → s.img.committed ≠ n →
        (∀ ci, s.vot.last = some ci → ci.three = false ∨ ci.thirdDone = true) →
        Completes (.commit n p q) s fun t =>
          t.img.committed = n ∧ t.img.ctl = .running ∧ (∃ r ∈ t.img.runs, r.n = n ∧ r.first = p ∧ r.second = q) ∧
          (t.vot.last.map (·.n)) = some n ∧ t.vot.admitOn = false ∧ (s.img.ctl = .waiting → EventSet t 71) ∧ t.seg = s.seg ∧
          t.lom = s.lom ∧ t.lcc = s.lcc) ∧
      (n ≠ s.img.frozen → Completes (.commit n p q) s fun t =>
        EventSet t 74 ∧ t.img.committed = s.img.committed ∧ t.img.ctl = s.img.ctl ∧ t.img.runs = s.img.runs ∧
        t.img.mem = s.img.mem ∧ t.seg = s.seg ∧ t.lom = s.lom ∧ t.lcc = s.lcc)) ∧
    (s.vot.attempts.contains n = true → commitReached s n = false → s.img.ctl ≠ .stopped → s.img.restarting = false →
      Completes (.noMajority n) s fun t =>
        t.img.ctl = .stopped ∧ t.img.stopCause = 2 ∧ t.vot.attempts.contains n = false ∧ EventSet t 54 ∧ EventSet t 70 ∧
        (s.tap.taken = false → ballLevel t .safeN = .low))

/-- R145, R148, R149: the comparison of the third channel's copy charges it with a divergence exactly when an agreed record differs; a
missing copy is charged. A READY or OBSERVER channel counts a match, or starts again at 0. DIVERGENT clears once the charges are old.
The model's own choices in it: log entries 1, 36. -/
def Obligations.CopiesCompared : Prop :=
  ∀ (c : Port) (ci : CommitInfo) (s : State), Delivered s → NothingQueued s → s.pwr.boot = .opened → s.vot.last = some ci →
    ci.digestValid = true →
    (s.ch[c].st = .active → s.ch[c].aligned = true → s.vot.mode = .m2oo3 → ci.three = true → ci.thirdDone = false →
      c ≠ ci.first → c ≠ ci.second →
      (s.ch[c].copyOf = some ci.n → (compareDigest s c ci.digest).1 = true → (∀ d ∈ ci.digest, d.agreed = true) →
        Completes (.thirdCopyCompareDone c) s fun t =>
          t.ch[c] = { s.ch[c] with copyOf := none, cmpOf := some ci.n } ∧ ChOnly c { s with vot := t.vot, img := t.img } t ∧
          t.regs = s.regs ∧ t.vot.last = some { ci with thirdDone := true }) ∧
      (s.ch[c].copyOf = some ci.n → (compareDigest s c ci.digest).1 = false → Completes (.thirdCopyCompareDone c) s fun t =>
        getReg t .vot (0x064 + 4 * c.val) = getReg s .vot (0x064 + 4 * c.val) + 1 ∧ EventSet t 50) ∧
      (s.ch[c].copyOf ≠ some ci.n → s.ch[c].cmpOf ≠ some ci.n → Completes (.thirdCopyMissing c) s fun t =>
        getReg t .vot (0x064 + 4 * c.val) = getReg s .vot (0x064 + 4 * c.val) + 1 ∧ EventSet t 50)) ∧
    (s.ch[c].st = .ready ∨ s.ch[c].st = .observer → s.ch[c].copyOf = some ci.n → s.ch[c].aligned = true →
      ((compareDigest s c ci.digest).1 = true → s.ch[c].matchCnt < 15 → Completes (.observerCompareDone c) s fun t =>
        t.ch[c] = { s.ch[c] with copyOf := none, cmpOf := some ci.n, matchCnt := s.ch[c].matchCnt + 1 } ∧
        ChOnly c { s with img := t.img } t ∧ t.regs = s.regs) ∧
      ((compareDigest s c ci.digest).1 = false → Completes (.observerCompareDone c) s fun t =>
        t.ch[c].matchCnt = 0 ∧ t.ch[c].cmpOf = some ci.n ∧ ChOnly c { s with img := t.img } t ∧ t.regs = s.regs ∧
        t.ch[c].st = if s.ch[c].st = .ready ∧ s.img.ctl = .running then .observer else s.ch[c].st)) ∧
    ((∀ x ∈ s.ch[c].charges ++ s.ch[c].caStamp.toList, divSpan s ≤ cycDist x (stampNow s)) → Completes (.divergentClear c) s fun t =>
      t = { cleared s with ch := t.ch } ∧ (∀ d, d ≠ c → t.ch[d] = s.ch[d]) ∧ t.ch[c] = { s.ch[c] with divergent := false }) ∧
    ((∃ x ∈ s.ch[c].charges ++ s.ch[c].caStamp.toList, cycDist x (stampNow s) < divSpan s) → Completes (.divergentClear c) s fun t => t = cleared s)

/-- R264, R269, R279: a freeze of the next controller cycle is taken and every input record is frozen as it stands; another is refused. The
end of a commit run shows the voted records: an agreed record holds the channels' bytes. The watchdog stops the controller, and SAFE_N
is low (R282). The model's own choices in it: log entries 3, 37. -/
def Obligations.ControllerCycle : Prop :=
  ∀ (s : State), Calm s → NothingQueued s → s.pwr.boot = .opened →
    (∀ (r : Req) (c : Port) (n : Word), reqPort r = some c → Writer r s → FreePage r .img s → s.img.heldFreeze = [] →
      s.img.restarting = false →
      ((if s.img.frozen = 0 then n ≠ 0 else n = cycSucc s.img.frozen) →
        s.img.ctl ≠ .running ∨ s.img.committed = s.img.frozen → Completes (.freeze r n) s fun t =>
          t.img.frozen = n ∧ t.img.freezeCycle = s.lom.cycle ∧ t.img.mem = s.img.mem ∧ EventSet t 66 ∧
          (t.img.wdogRun = if s.img.ctl = .stopped then 0 else 1) ∧
          (s.img.ctl = .running → t.img.committed = s.img.committed) ∧ t.ch = s.ch ∧ t.vot = s.vot ∧ t.lom = s.lom) ∧
      ((if s.img.frozen = 0 then n = 0 else n ≠ s.img.frozen ∧ n ≠ cycSucc s.img.frozen) → Completes (.freeze r n) s fun t =>
        RestSame s t ∧ t.regs = s.regs ∧ EventSet t 73)) ∧
    (∀ (x : CommitRun) (xs : List CommitRun), s.img.runs = x :: xs → Completes .commitRunDone s fun t =>
      t.img.runs = (xs.take 1).map (fun y => { y with frc := s.frc }) ++ xs.drop 1 ∧ t.img.safeShown = false ∧ EventSet t 67 ∧ t.ch = s.ch ∧ t.lom = s.lom ∧
      ∀ o, x.outs = [o] → outList s.lom.act = [o] → relayOf s o.1 = none → activeForces { s with frc := x.frc } = [] → s.pwr.saveRun = true →
        x.one = true ∨ (digestOf s x.one x.first x.second o.1 o.2.1).agreed = true →
        imgBytes t (o.1 * 8 + 8) o.2.1 = stagingData s x.first o.1 o.2.1 ∧
        ∀ a, a < o.1 * 8 ∨ o.1 * 8 + 8 + o.2.1 ≤ a → mget 0 t.img.mem a = mget 0 s.img.mem a) ∧
    (s.img.wdogRun ≠ 0 → s.img.ctl ≠ .stopped → s.img.restarting = false → Completes .wdog s fun t =>
      t.img.ctl = .stopped ∧ t.img.stopCause = 1 ∧ t.img.safeShown = true ∧ EventSet t 69 ∧ EventSet t 70 ∧
      (s.tap.taken = false → ballLevel t .safeN = .low))

/-- R154, R280, R283, R284: a warm or cold restart begins where the controller does not run and aligns every channel in service; elsewhere
it is refused. STOP stops the controller. A restart ends with RESTART_DONE. The model's own choices in it: log entries 4, 38. -/
def Obligations.Restarts : Prop :=
  ∀ s : State, Delivered s → NothingQueued s → s.pwr.boot = .opened → s.vot.mode = .m1oo1 ∨ s.vot.mode = modeByCount s →
    (∀ (c : Instr) (cold : Bool), (c = .restartWarm ∧ cold = false) ∨ (c = .restartCold ∧ cold = true) →
      (s.img.restarting = false → s.img.ctl ≠ .running → getFld s .glb 0x064 7 7 = 0 → Completes c s fun t =>
        t.img.restarting = true ∧ t.img.restartCold = cold ∧ t.img.ctl = .waiting ∧ t.img.frozen = 0 ∧ t.img.committed = 0 ∧
        t.vot.openE = [] ∧ t.vot.closedE = [] ∧ t.vot.last = none ∧ t.lom.run = false ∧
        (∀ p : Port, s.ch[p].st.inService = true → t.ch[p].k = 0 ∧ t.ch[p].aligned = true) ∧ t.img.mem = s.img.mem ∧
        t.lcc = s.lcc ∧ t.rng.node = s.rng.node) ∧
      (s.img.restarting = true ∨ s.img.ctl = .running → Completes c s fun t =>
        RestSame s t ∧ t.regs = s.regs ∧ EventSet t 74)) ∧
    (s.img.restarting = false → s.img.ctl ≠ .stopped → Completes .restartStop s fun t =>
      t.img.ctl = .stopped ∧ t.img.stopCause = 4 ∧ t.img.safeShown = true ∧ EventSet t 70 ∧ t.img.mem = s.img.mem) ∧
    (s.img.restarting = true → schedBusy s = false → almFree s = true → s.evh.scanning = false → Completes .restartDone s fun t =>
      t.img.restarting = false ∧ t.img.lastCold = s.img.restartCold ∧ t.pwr.seqRun = false ∧ EventSet t 72)

/-- R273, R275: a force is set with presence on a signal that resolves and may be forced; without presence nothing changes but FRC_STAT.
CLEAR releases one entry, CLEAR_ALL every entry. The model's own choices in it: log entries 39, 52. -/
def Obligations.Forces : Prop :=
  ∀ (i : BitVec 12) (s : State), Delivered s → s.pwr.boot = .opened →
    (s.lcc.presence = false → ∀ c : Instr, c = .forceSet i ∨ c = .forceClear i → Completes c s fun t =>
      t = { cleared s with regs := t.regs } ∧ OtherRegs .frc 0x044 s t ∧
      getReg t .frc 0x044 = BitVec.ofNat 32 (i.toNat * 65536 + 1)) ∧
    (s.lcc.presence = true →
      (∀ p, resolveSig s.lom.act (frcWord s i.toNat 0).toNat = some p →
        fcapBit s.lom.act ((frcWord s i.toNat 0).toNat % 65536) = true →
        (∀ j ∈ activeForces s, j ≠ i.toNat → frcWord s j 0 ≠ frcWord s i.toNat 0) → armedNow s = false →
        Completes (.forceSet i) s fun t =>
          RestSame { s with frc := t.frc } t ∧ OtherRegs .frc 0x044 s t ∧
          getReg t .frc 0x044 = BitVec.ofNat 32 (i.toNat * 65536) ∧ bitAt (frcWord t i.toNat 1) 0 = true ∧
          bitAt (frcWord t i.toNat 1) 1 = p.2.2.2 ∧ frcEff t i.toNat 0 = (frcWord s i.toNat 2).toNat ∧
          frcEff t i.toNat 1 = (frcWord s i.toNat 3).toNat ∧ frcEff t i.toNat 2 = p.1 % 2 ^ 32 ∧
          (∀ j, j ≠ i.toNat → frcWord t j 1 = frcWord s j 1) ∧ EventSet t 78) ∧
      (bitAt (frcWord s i.toNat 1) 0 = true → Completes (.forceClear i) s fun t =>
        RestSame { s with frc := t.frc } t ∧ OtherRegs .frc 0x044 s t ∧ bitAt (frcWord t i.toNat 1) 0 = false ∧
        (∀ j, j ≠ i.toNat → frcWord t j 1 = frcWord s j 1) ∧ EventSet t 78) ∧
      Completes .forceClearAll s fun t =>
        RestSame { s with frc := t.frc } t ∧ OtherRegs .frc 0x044 s t ∧ getReg t .frc 0x044 = 0 ∧
        (∀ j, bitAt (frcWord t j 1) 0 = false) ∧ (activeForces s ≠ [] → EventSet t 78))
/-! Legacy segments (chapter 6) -/

/-- R162, R183, R159, R189, R190: a granted engine owns the bus and drives its first cycle, a grant that it does not ask for is passed on, a
release-on-request owner lets the bus go once idle, the system controller grants the highest requesting level. SYSRESET* takes the bus
and the delayed reads away and fails the transfer in progress. A gated segment wakes, an idle one stops. The model's own choices in it:
log entries 1, 40. -/
def Obligations.BusTenure : Prop :=
  ∀ (g : Seg) (s : State), Delivered s → s.pwr.boot ≠ .inReset → SlavesFree s →
    (∀ (l : Fin 4) (t : Nat) (e : Eng) (c : CycS) (cs : List CycS), s.seg[g].eng = some e → e.driving = false → e.todo = c :: cs →
      s.seg[g].owner = false → masterOk s g = true → s.pwr.brownout = false → s.tap.ecc = [] →
      l.val = getFld s (.ls g) 0x040 7 6 → Completes (.busGrant g ⟨l, t⟩) s fun u =>
        SegOnly g { s with freeCount := u.freeCount } u ∧ u.seg[g] = { s.seg[g] with
          owner := true, mcfg := getReg s (.ls g) 0x040, eng := some { e with driving := true },
          pins := drivePins (patOf e.acc.patE) { e with driving := true } c (freeVal s).toNat { s.seg[g].pins with bgOut := 0 } }) ∧
    (∀ (l : Fin 4) (t : Nat), busAsked s g = false ∨ l.val ≠ getFld s (.ls g) 0x040 7 6 → s.pwr.st = .run →
      Completes (.busGrant g ⟨l, t⟩) s fun u => u = { s with out := [.grantOut g l.val] }) ∧
    (s.seg[g].owner = true → tenureCfg s g 5 = true →
      (s.seg[g].eng = none → s.seg[g].paused = [] →
        Completes (.busReleaseRequest g) s fun u => SegAlone g s u ∧ u.seg[g] = { s.seg[g] with owner := false }) ∧
      (s.seg[g].eng ≠ none → Completes (.busReleaseRequest g) s fun u =>
        SegAlone g s u ∧ u.seg[g] = { s.seg[g] with busLines := s.seg[g].busLines % 16 + 16 })) ∧
    (∀ (lines : BitVec 4) (l : Fin 4), sysconAct s g = true → s.seg[g].owner = false → s.seg[g].pins.bgOut = 0 →
      s.seg[g].eng = none → bitAt (getReg s (.ls g) 0x044) 0 = false → lines.getLsbD l = true →
      (∀ m : Fin 4, l < m → lines.getLsbD m = false) → Completes (.busRequestArbitrate g ⟨lines, false⟩) s fun u =>
        SegAlone g s u ∧ u.seg[g].busLast = l ∧ u.seg[g].pins = { s.seg[g].pins with bclr := false, bgOut := 2 ^ l.val }) ∧
    Completes .sysresetDriveEnd s (fun u =>
      u = { cleared s with seg := u.seg } ∧ ∀ h : Seg, u.seg[h] = { s.seg[h] with sysresetTimer := false }) ∧
    (s.seg[g].sysresetLow = true → Completes (.sysresetIn g false) s fun u =>
      SegOnly g s u ∧ u.regs = s.regs ∧ u.seg[g] = { s.seg[g] with sysresetLow := false } ∧ EventSet u (segEv g 9)) ∧
    (s.seg[g].sysresetLow = false → NothingQueued s →
      (s.seg[g].eng = none → s.seg[g].paused = [] → workCount s g = 0 → Completes (.sysresetIn g true) s fun u =>
        SegOnly g s u ∧ u.regs = s.regs ∧ u.seg[g].sysresetLow = true ∧ u.seg[g].owner = false ∧
        (∀ k : Fin 4, u.seg[g].dr[k] = none) ∧ EventSet u (segEv g 9)) ∧
      (s.seg[g].eng ≠ none → Completes (.sysresetIn g true) s fun u =>
        u.seg[g].sysresetLow = true ∧ u.seg[g].owner = false ∧ u.seg[g].eng = none ∧ EventSet u (segEv g 9) ∧
        EventSet u (segEv g 2))) ∧
    (∀ cause : WakeCause, s.seg[g].gated = true →
      (cause = .asFall ∨ hasWork s g = true → Completes (.wake g cause) s fun u =>
        SegOnly g s u ∧ u.regs = s.regs ∧ u.seg[g] = { s.seg[g] with gated := false } ∧ EventSet u (segEv g 12)) ∧
      (cause = .masterWork → hasWork s g = false → Completes (.wake g cause) s fun u => u = cleared s)) ∧
    (s.seg[g].stopWait = true →
      (segIdle s g = true → Completes (.segmentStop g) s fun u =>
        SegAlone g s u ∧ u.seg[g] = { s.seg[g] with stopWait := false, gated := true }) ∧
      (segIdle s g = false → Completes (.segmentStop g) s fun u => u = cleared s))

/-- R215, R217, R162: the arbiter's winner becomes the transfer in progress; it drives its cycle at once where the segment owns the bus, and
waits for a grant otherwise. Without a candidate no transfer starts. What the lines that carry nothing show is free. The model's own
choices in it: log entries 4, 57. -/
def Obligations.TransferStarts : Prop :=
  ∀ (g : Seg) (t : Nat) (s : State), Quiet s → s.seg[g].eng = none → s.seg[g].gated = false → s.pwr.brownout = false →
    (∀ p ∈ listPkts s (vapQ g), pktStale s p = false) →
    (∀ (pl : Place) (e : Eng) (c : CycS) (cs : List CycS), winner s g (candidates s g t false) = some (pl, e) → e.todo = c :: cs →
      Completes (.legacyTransferStart g t) s fun u =>
        SegOnly g { s with freeCount := u.freeCount } u ∧ u.seg[g].owner = s.seg[g].owner ∧ u.seg[g].grants.head? = some pl ∧
        ∃ e1, u.seg[g].eng = some e1 ∧ e1.todo = e.todo ∧ e1.acc.origin = e.acc.origin ∧ e1.acc.patE = e.acc.patE ∧
          (s.seg[g].owner = true → e1.driving = true ∧
            ∃ n, u.seg[g].pins = drivePins (patOf e.acc.patE) e1 c (Config.freeValue n).toNat s.seg[g].pins) ∧
          (s.seg[g].owner = false → e1.driving = e.driving ∧ u.seg[g].pins = s.seg[g].pins)) ∧
    (winner s g (candidates s g t false) = none → Completes (.legacyTransferStart g t) s fun u =>
      SegOnly g s u ∧ u.regs = s.regs ∧ u.seg[g] = { s.seg[g] with parked := u.seg[g].parked })

/-- R167, R84, R174, R80: what an acknowledge completes: an address phase, the read phase of a read-modify-write, a beat, a cycle, an
access. The model's own choices in it: log entries 3, 40. -/
def Obligations.CycleProgress : Prop :=
  ∀ (g : Seg) (data : DWord) (e : Eng) (c : CycS) (cs : List CycS) (s : State), Quiet s → s.seg[g].eng = some e →
    e.driving = true → e.hold = false → e.todo = c :: cs → s.seg[g].ahead = none →
    (0 < e.phases → Completes (.dtackSeen g data) s fun u =>
      SegAlone g { s with freeCount := u.freeCount } u ∧ u.seg[g].eng = some { e with phases := e.phases - 1 }) ∧
    (e.phases = 0 → (patOf e.acc.patE).kind = .rmw → e.rmwWrite = false → Completes (.dtackSeen g data) s fun u =>
      SegAlone g s u ∧ u.seg[g].eng = some { e with
        rmwWrite := true, got := (c.bytes.map (·.2)).zip (beatIn (patOf e.acc.patE) c c.bytes.length data.toNat) }) ∧
    (e.phases = 0 → (patOf e.acc.patE).kind ≠ .rmw →
      let xs := beatBytes (patOf e.acc.patE) c e.beat
      let got := e.got ++ (xs.map (·.2)).zip (beatIn (patOf e.acc.patE) c xs.length data.toNat)
      (e.beat + 1 < c.beats → e.acc.write = false → Completes (.dtackSeen g data) s fun u =>
        SegAlone g s u ∧ u.seg[g].eng = some { e with
          beat := e.beat + 1, got := got, acc := { e.acc with data := present s e.acc } }) ∧
      (e.beat + 1 < c.beats → e.acc.write = true → Completes (.dtackSeen g data) s fun u =>
        SegAlone g s u ∧ u.seg[g].eng = some { e with
          beat := e.beat + 1, acc := { e.acc with data := present s e.acc },
          hold := !beatPresent s { e with beat := e.beat + 1, acc := { e.acc with data := present s e.acc } } c (e.beat + 1) }) ∧
      (∀ (d : CycS) (ds : List CycS), c.beats ≤ e.beat + 1 → cs = d :: ds → Completes (.dtackSeen g data) s fun u =>
        SegAlone g s u ∧ u.seg[g] = { s.seg[g] with
          eng := none, pins := idlePins s.seg[g].pins,
          paused := s.seg[g].paused ++ [{ e with
            got := if e.acc.write then e.got else got, todo := d :: ds, beat := 0, retries := 0,
            phases := phasesOf (patOf e.acc.patE) d, driving := false, hold := false, rmwWrite := false }] }) ∧
      (c.beats ≤ e.beat + 1 → cs = [] →
        (e.acc.write = false → e.acc.origin = .mailbox → Completes (.dtackSeen g data) s fun u =>
          SegOnly g { s with mnt := u.mnt } u ∧ u.regs = s.regs ∧ u.seg[g].eng = none ∧
          u.mnt = { s.mnt with legEnd := some (false, 0, readBytes { e with got := got }) }) ∧
        (∀ i n due : Nat, e.acc.origin = .sched i n due → Completes (.dtackSeen g data) s fun u =>
          SegOnly g { s with img := u.img, lom := u.lom, freeCount := u.freeCount } u ∧ u.seg[g].eng = none ∧
          u.lom = { s.lom with completed := s.lom.completed ++ (if n = cyc s then [i] else []) }) ∧
        (∀ k pat : Nat, e.acc.origin = .vote k pat → e.acc.write = true → Completes (.dtackSeen g data) s fun u =>
          SegOnly g { s with img := u.img } u ∧ u.regs = s.regs ∧ u.seg[g].eng = none ∧
          listPkts u e.acc.queue = (listPkts s e.acc.queue).tail)))

/-- R174, R175, R206: a held burst goes on once its next beat has arrived, or is truncated: TRUNC_CNT counts, the packet stays at the head
of its list, marked, and its remainder is issued with CONTINUED. The model's own choices in it: log entries 1, 40. -/
def Obligations.StrobeHold : Prop :=
  ∀ (g : Seg) (s : State), Quiet s →
    (∀ (e : Eng) (c : CycS) (cs : List CycS), s.seg[g].eng = some e → e.hold = true → e.todo = c :: cs →
      (beatPresent s { e with acc := { e.acc with data := present s e.acc }, hold := false } c e.beat = true →
        Completes (.strobeHoldResume g) s fun u =>
          SegAlone g { s with freeCount := u.freeCount } u ∧
          u.seg[g].eng = some { e with acc := { e.acc with data := present s e.acc }, hold := false }) ∧
      (beatPresent s { e with acc := { e.acc with data := present s e.acc }, hold := false } c e.beat = false →
        Completes (.strobeHoldResume g) s fun u => u = cleared s) ∧
      Completes (.trunc g) s fun u =>
        SegOnly g s u ∧ OtherRegs (.ls g) 0x060 s u ∧ getReg u (.ls g) 0x060 = getReg s (.ls g) 0x060 + 1 ∧
        EventSet u (segEv g 3) ∧ u.seg[g].eng = none ∧ u.seg[g].pins = idlePins s.seg[g].pins ∧
        (e.acc.queue < 26 → ∀ (x : Pkt) (xs : List Pkt), listPkts s e.acc.queue = x :: xs →
          listPkts u e.acc.queue = { x with trunc := true, cont := false, sent := sentSoFar e } :: xs)) ∧
    ∀ (x : Pkt) (xs : List Pkt), listPkts s (fwdQ g) = [] → listPkts s (remQ g) = x :: xs → x.trunc = true → x.cont = false →
      (x.eop = true → Completes (.continuedIssue g) s fun u =>
        listPkts u (remQ g) = { x with cont := true } :: xs ∧ u.seg = s.seg ∧ u.regs = s.regs ∧ u.lom = s.lom ∧ u.vot = s.vot) ∧
      (x.eop = false → (getQ s.crl (remQ g)).thresh = 0 → Completes (.continuedIssue g) s fun u => u = cleared s)

/-- R80, R81, R172, R184, Table 3.9: BERR* and the bus timer end the access in progress as failed, for the mailbox with its code; RETRY*
starts the retry gap while ERRPOL allows a further one, and fails the access beyond. The model's own choices in it: log entries 3, 40. -/
def Obligations.CycleFailures : Prop :=
  ∀ (g : Seg) (e : Eng) (c : CycS) (cs : List CycS) (s : State), Quiet s → s.seg[g].eng = some e → e.driving = true →
    e.todo = c :: cs →
    (Completes (.berrSeen g) s fun u =>
      getReg u (.ls g) 0x058 = getReg s (.ls g) 0x058 + 1 ∧ EventSet u (segEv g 2) ∧ u.seg[g].eng = none ∧
      (e.acc.origin = .mailbox → u.mnt = { s.mnt with legEnd := some (true, 1, []) } ∧ u.img = s.img) ∧
      (∀ i n due, e.acc.origin = .sched i n due →
        u.lom = { s.lom with completed := s.lom.completed ++ (if n = cyc s then [i] else []) } ∧ u.mnt = s.mnt)) ∧
    (segCfg s g 3 = true → bitAt (getReg s (.ls g) 0x044) 2 = true → Completes (.bto g) s fun u =>
      getReg u (.ls g) 0x058 = getReg s (.ls g) 0x058 + 1 ∧ EventSet u (segEv g 2) ∧ EventSet u (segEv g 6) ∧
      u.seg[g].eng = none ∧ (e.acc.origin = .mailbox → u.mnt = { s.mnt with legEnd := some (true, 2, []) })) ∧
    (tenureCfg s g 4 = true →
      (e.retries < (patOf e.acc.patE).rtry → Completes (.retrySeen g) s fun u =>
        SegAlone g s u ∧ u.seg[g].eng = none ∧ u.seg[g].pins = idlePins s.seg[g].pins ∧
        u.seg[g].owner = (s.seg[g].owner && (patOf e.acc.patE).atomic) ∧
        u.seg[g].paused = s.seg[g].paused ++ [{ e with
          todo := retryCycle (patOf e.acc.patE) e c :: cs, beat := 0, retries := e.retries + 1,
          phases := phasesOf (patOf e.acc.patE) (retryCycle (patOf e.acc.patE) e c), rmwWrite := false, gap := true,
          hold := false, driving := false }]) ∧
      ((patOf e.acc.patE).rtry ≤ e.retries → Completes (.retrySeen g) s fun u =>
        getReg u (.ls g) 0x05C = getReg s (.ls g) 0x05C + 1 ∧ EventSet u (segEv g 2) ∧ u.seg[g].eng = none ∧
        (e.acc.origin = .mailbox → u.mnt = { s.mnt with legEnd := some (true, 2, []) }))) ∧
    ∀ f : Eng, s.seg[g].paused = [f] → f.gap = true → Completes (.retryGapExpire g) s fun u =>
      SegAlone g s u ∧ u.seg[g] = { s.seg[g] with paused := [{ f with gap := false }] }

/-- R177, R178, R181, R182, R188: an image window takes a write into its record and answers reads from it, and answers an access outside the
record with BERR*. A beat that finds no cell waits, and is answered RETRY* or BERR* when its time has passed. The CR/CSR space reads its
bytes and refuses writes. The geographic pins are taken, with GA_ERR for a wrong parity. The model's own choices in it: log entries 15,
40. -/
def Obligations.SlaveAccesses : Prop :=
  ∀ (g : Seg) (cyc : SlaveCyc) (s : State), Delivered s → s.pwr.boot = .opened → s.pwr.brownout = false → s.tap.ecc = [] →
    ListsGood s →
    (∀ (j : Nat) (v : Win) (h rlen : Nat), winFind s g cyc = some (j, v) → winRecord s v = some (h, rlen) → v.fwd = false →
      (∀ data : List Byte, v.areaOut = false → cyc.addr.toNat - v.base + data.length ≤ rlen →
        (claimOk s.crl (14 + g.val) 1 = true → Completes (.imageWindowWrite g cyc data) s fun u =>
          SegOnly g { s with img := u.img } u ∧ u.regs = s.regs ∧ .slave g 0 [] ∈ u.out ∧ u.seg[g].pins.dtack = true ∧
          imgBytes u (h + 8 + (cyc.addr.toNat - v.base)) data.length = data ∧
          ∀ a, (a < h ∨ h + 8 ≤ a) →
            (a < h + 8 + (cyc.addr.toNat - v.base) ∨ h + 8 + (cyc.addr.toNat - v.base) + data.length ≤ a) →
            mget 0 u.img.mem a = mget 0 s.img.mem a) ∧
        (claimOk s.crl (14 + g.val) 1 = false → Completes (.imageWindowWrite g cyc data) s fun u =>
          SegAlone g s u ∧ u.seg[g] = { s.seg[g] with
            slvWait := some ⟨cyc, data, false⟩, slvCfg := getReg s (.ls g) 0x040 })) ∧
      (∀ data : List Byte, v.areaOut = true ∨ rlen < cyc.addr.toNat - v.base + data.length →
        Completes (.imageWindowWrite g cyc data) s fun u =>
          SegOnly g s u ∧ u.regs = s.regs ∧ .slave g 1 [] ∈ u.out ∧ EventSet u (segEv g 4)) ∧
      (cyc.addr.toNat - v.base + cyc.size ≤ rlen → v.areaOut = false → Completes (.imageWindowRead g cyc) s fun u =>
        SegAlone g s { u with out := [] } ∧
        u.out = [.slave g 0 (imgBytes s (h + 8 + (cyc.addr.toNat - v.base)) cyc.size)] ∧ u.seg[g].pins.dtack = true ∧
        u.seg[g].pins.groupD = true) ∧
      (rlen < cyc.addr.toNat - v.base + cyc.size → Completes (.imageWindowRead g cyc) s fun u =>
        SegOnly g s u ∧ u.regs = s.regs ∧ .slave g 1 [] ∈ u.out ∧ EventSet u (segEv g 4))) ∧
    (∀ w : SlvWait, s.seg[g].slvWait = some w → w.begun = false → SlavesFree { s with seg := s.seg.set g segInit } →
      slaveList s g = [] → Completes (.slaveClaimTimeout g w.cyc) s fun u =>
        SegOnly g s u ∧ u.regs = s.regs ∧ u.seg[g].slvWait = none ∧
        if bitAt s.seg[g].slvCfg 4 then .slave g 2 [] ∈ u.out ∧ EventSet u (segEv g 5)
        else .slave g 1 [] ∈ u.out ∧ EventSet u (segEv g 4)) ∧
    Completes (.slaveStrobeRelease g) s (fun u =>
      SegAlone g s u ∧ u.seg[g].pins.dtack = false ∧ u.seg[g].pins.berr = false ∧ u.seg[g].pins.retry = false ∧
      u.seg[g].pins.groupR = false) ∧
    (∀ off : BitVec 19, slaveOn s g = true → crcsrAct s g = true →
      (Completes (.crcsrAccess g false off) s fun u =>
        SegAlone g s { u with out := [] } ∧
        u.out = [.slave g 0 [if off.toNat < 0x4000 ∧ off.toNat % 4 = 3 then crByte s.lom.act g (off.toNat / 4) else 0]]) ∧
      (Completes (.crcsrAccess g true off) s fun u =>
        SegOnly g s u ∧ u.regs = s.regs ∧ .slave g 1 [] ∈ u.out ∧ EventSet u (segEv g 4))) ∧
    ∀ pins : BitVec 6,
      (((List.range 6).filter fun i => pins.getLsbD i == false).length % 2 = 1 → Completes (.gaErr g pins) s fun u =>
        SegAlone g s u ∧ u.seg[g] = { s.seg[g] with gaPins := pins.toNat }) ∧
      (((List.range 6).filter fun i => pins.getLsbD i == false).length % 2 = 0 → Completes (.gaErr g pins) s fun u =>
        SegOnly g s u ∧ u.regs = s.regs ∧ u.seg[g] = { s.seg[g] with gaPins := pins.toNat } ∧ EventSet u (segEv g 14))

/-- R179, R180, Table 3.10: a forwarded write is acknowledged beat by beat and queued for its target segment; a pattern that does not permit
it is answered BERR*, an unavailable target as LMPOL says. A new forwarded read takes a slot and is queued; its repeat gets the held
result and empties the slot; a read that waits 2 µs is answered RETRY*, keeping its slot, or BERR*; a result nobody collects is
discarded. The model's own choices in it: log entries 1, 3, 40, 58. -/
def Obligations.ForwardedAccesses : Prop :=
  ∀ (g : Seg) (cyc : SlaveCyc) (j : Nat) (v : Win) (s : State), Quiet s → s.pwr.brownout = false →
    winFind s g cyc = some (j, v) → v.fwd = true →
    (∀ (data : List Byte), openSlave s g = none →
      (∀ (le : Nat) (h : Seg), cyc.rmw = false → fwdTarget s v.pat = .segment le h →
        fwdBad s v.pat true (cyc.addr.toNat - v.base) data.length = false → data ≠ [] → 0 < cyc.size →
        claimOk s.crl (14 + g.val) (cellsFor data.length) = true → Completes (.forwardWindowWrite g cyc data) s fun u =>
          SegOnly g s u ∧ u.regs = s.regs ∧ .slave g 0 [] ∈ u.out ∧
          ∃ y ∈ listPkts u (fwdQ h), y.data = data ∧ y.off = cyc.addr.toNat - v.base ∧ y.patE = le ∧ y.isRead = false ∧
            y.eop = true ∧ y.origin = .fwdWrite g) ∧
      (cyc.rmw = true ∨ fwdBad s v.pat true (cyc.addr.toNat - v.base) data.length = true →
        Completes (.forwardWindowWrite g cyc data) s fun u =>
          SegOnly g s u ∧ u.regs = s.regs ∧ .slave g 1 [] ∈ u.out ∧ EventSet u (segEv g 4)) ∧
      (cyc.rmw = false → fwdBad s v.pat true (cyc.addr.toNat - v.base) data.length = false → fwdGone s v.pat = true →
        Completes (.forwardWindowWrite g cyc data) s fun u =>
          SegOnly g s u ∧ u.regs = s.regs ∧
          .slave g (if (patOf (patEntry s.lom.act v.pat)).lmpol && segCfg s g 4 then 2 else 1) [] ∈ u.out)) ∧
    (∀ (le : Nat) (h : Seg) (k : Fin 4), cyc.write = false → cyc.rmw = false → isBlock cyc = false → slotOfRead s g j cyc = none →
      fwdTarget s v.pat = .segment le h → fwdBad s v.pat false (cyc.addr.toNat - v.base) cyc.size = false →
      (allSlots.find? fun k => s.seg[g].dr[k].isNone) = some k → writesWaiting s g = false →
      claimOk s.crl (16 + g.val) 1 = true → Completes (.forwardedRead g cyc) s fun u =>
        SegOnly g s u ∧ u.regs = s.regs ∧ u.seg[g].waitRead = some k.val ∧
        u.seg[g].dr[k] = some ⟨j, cyc, s.seg[g].drNext, none, 0⟩ ∧
        ∃ y ∈ listPkts u (fwdQ h), y.isRead = true ∧ y.off = cyc.addr.toNat - v.base ∧ y.len = cyc.size ∧ y.patE = le ∧
          y.origin = .fwdRead g s.seg[g].drNext) ∧
    (∀ (k : Fin 4) (d : DrSlot) (bs : List Byte), slotOfRead s g j cyc = some k → s.seg[g].dr[k] = some d →
      d.result = some (false, bs) → Completes (.delayedReadRepeat g cyc) s fun u =>
        SegOnly g s u ∧ u.regs = s.regs ∧ .slave g 0 bs ∈ u.out ∧ u.seg[g].dr[k] = none) ∧
    (∀ k : Fin 4, s.seg[g].waitRead = some k.val →
      let kept := bitAt s.seg[g].slvCfg 4 && !((s.seg[g].dr[k].map fun d => notGranted s g d.id).getD false)
      (kept = true → Completes (.forwardedReadTimeout g) s fun u =>
        SegOnly g s u ∧ u.regs = s.regs ∧ u.seg[g].waitRead = none ∧ u.seg[g].dr = s.seg[g].dr ∧ .slave g 2 [] ∈ u.out ∧
        EventSet u (segEv g 5)) ∧
      (kept = false → Completes (.forwardedReadTimeout g) s fun u =>
        SegOnly g s u ∧ u.regs = s.regs ∧ u.seg[g].waitRead = none ∧ u.seg[g].dr[k] = none ∧ .slave g 1 [] ∈ u.out ∧
        EventSet u (segEv g 4))) ∧
    ∀ (k : Fin 4) (d : DrSlot), s.seg[g].dr[k] = some d →
      (d.result ≠ none → Completes (.drDiscard g k) s fun u =>
        SegOnly g s u ∧ u.regs = s.regs ∧ u.seg[g].dr[k] = none ∧ EventSet u (segEv g 13)) ∧
      (d.result = none → Completes (.drDiscard g k) s fun u => u = cleared s)

/-- R185, R186, R187: an interrupt acknowledge cycle at a level the segment asserts gets the status/ID of the lowest pending event, or of
IRQ_GEN, and ends that request; at another level it is passed on. A software request is pending once ASSERT rises. The handler queues an
acknowledge access for the highest level that may be served. SYSFAIL* and ACFAIL* set their events. The model's own choices in it: log
entries 1, 40. -/
def Obligations.Interrupts : Prop :=
  ∀ (g : Seg) (level : BitVec 3) (s : State), Quiet s → s.seg[g].eng = none →
    (∀ (width : Fin 3) (ev : Nat), (g.val, level.toNat, ev) ∈ s.evh.levels →
      (∀ x ∈ s.evh.levels, x.1 = g.val → x.2.1 = level.toNat → ev ≤ x.2.2) → Completes (.iackCycle g level width) s fun u =>
        SegOnly g s u ∧ u.regs = s.regs ∧ u.out = [.slave g 0 (bytesLE (2 ^ width.val) ev).reverse] ∧
        u.evh.levels = s.evh.levels.filter fun l => !(l == (g.val, level.toNat, ev))) ∧
    (∀ width : Fin 3, (∀ x ∈ s.evh.levels, x.1 = g.val → x.2.1 ≠ level.toNat) →
      (swAt s g level.toNat = true → Completes (.iackCycle g level width) s fun u =>
        SegAlone g s { u with out := [] } ∧
        u.out = [.slave g 0 (bytesLE (2 ^ width.val) (getFld s (.ls g) 0x068 7 0)).reverse] ∧ swAt u g level.toNat = false) ∧
      (swAt s g level.toNat = false → Completes (.iackCycle g level width) s fun u =>
        u = { s with out := [.iackOut g level.toNat] })) ∧
    (∀ (r : Req) (data : Word), CoreRuns s → Writer r s → FreePage r (.ls g) s → Completes (.irqGenAssert r g data) s fun u =>
      SegOnly g s u ∧ OtherRegs (.ls g) 0x068 s u ∧ getReg u (.ls g) 0x068 = data &&& 0x800700FF#32 ∧
      u.seg[g].swPend =
        if !bitAt (getReg s (.ls g) 0x068) 31 && bitAt data 31 && decide (fieldOf data 18 16 ≠ 0)
        then s.seg[g].swPend ||| 2 ^ fieldOf data 18 16 else s.seg[g].swPend) ∧
    (∀ pat : Nat, handlerPat s g level.toNat = some pat → bitAt (getReg s (.ls g) 0x004) level.toNat = true →
      s.seg[g].hdlBusy = [] → (∀ l, level.toNat < l → l < 8 → servable s g l = false) → claimOk s.crl 18 1 = true →
      Completes (.handlerServe g level) s fun u =>
        SegOnly g s u ∧ u.regs = s.regs ∧ u.seg[g].hdlBusy = [level.toNat] ∧
        ∃ y ∈ listPkts u (vapQ g), y.origin = .handler g level.toNat ∧ y.isRead = true ∧ y.patE = patEntry s.lom.act pat) ∧
    (sysfailOut s g = false → Completes (.sysfailIn g) s fun u => RestSame s u ∧ u.regs = s.regs ∧ EventSet u (segEv g 7)) ∧
    (sysfailOut s g = true → Completes (.sysfailIn g) s fun u => u = cleared s) ∧
    Completes (.acfail g) s fun u => RestSame s u ∧ u.regs = s.regs ∧ EventSet u (segEv g 8)

/-! Creel (chapter 7) -/

/-- R208, R209, R212, R219: Q_POP returns the words of the head packet of the IACK queue one after the other and releases the packet with
the last; an empty queue returns the word before. A DROP ends the head packet of its list; DROP_DONE ends the dropping. A sweep puts the
lost cells back on the free list. ARB.COMMIT applies PRIO_SCHED whole. The model's own choice in it: log entry 41. -/
def Obligations.QueueCommands : Prop :=
  ∀ s : State, Quiet s → CoreRuns s →
    (∀ (r : Req) (tag : BitVec 10), Reader r (regAddr .crl 0x058) s → getFld s .crl 0x004 0 0 = 1 →
      (∀ (x : Pkt) (xs : List Pkt), listPkts s 18 = x :: xs → s.crl.popped < 4 → Completes (.qPop r tag) s fun u =>
        RestSame s u ∧ u.regs = s.regs ∧
        u.out = answer s r (regAddr .crl 0x058) tag.toNat (wordLE (x.data.drop (4 * s.crl.popped))) ∧
        u.crl.popped = (s.crl.popped + 1) % 4 ∧ listPkts u 18 = if s.crl.popped = 3 then xs else x :: xs) ∧
      (listPkts s 18 = [] → Completes (.qPop r tag) s fun u =>
        RestSame s u ∧ u.regs = s.regs ∧ answer s r (regAddr .crl 0x058) tag.toNat s.crl.lastPop ⊆ u.out ∧
        (getQ u.crl 18).underrun = true ∧ EventSet u 116)) ∧
    (∀ (r : Req) (data : Word), Writer r s → FreePage r .crl s →
      (r.val = 4 → lcOpen s = true → fieldOf data 5 0 = 18 →
        ∀ (x : Pkt) (xs : List Pkt), listPkts s 18 = x :: xs → x.eop = true → Completes (.qCmdDrop r data) s fun u =>
          RestSame s u ∧ u.regs = s.regs ∧ listPkts u 18 = xs ∧ u.crl.popped = 0 ∧ EventSet u 121) ∧
      (r.val ≠ 4 ∨ lcOpen s = false → Completes (.qCmdDrop r data) s fun u =>
        RestSame s u ∧ Captured .crl 1 r PageKind.crl.num 0x05C (data ||| 0x100) s u ∧ listPkts u 18 = listPkts s 18)) ∧
    (∀ (q : Fin 64) (p : Pkt), q ≠ 26 → (getQ s.crl q).dropping = some p → Completes (.dropDone q) s fun u =>
      RestSame s u ∧ u.regs = s.regs ∧ (getQ u.crl q).dropping = none ∧ EventSet u 121) ∧
    (s.crl.sweep = true → s.crl.lostPkts = [] → s.crl.sweepPending = false → Completes .reclaimDone s fun u =>
      RestSame s u ∧ u.regs = s.regs ∧ u.crl.sweep = false ∧ u.crl.lostCells = s.crl.nextCells ∧
      u.crl.sweepReleased = s.crl.lostCells.length ∧ EventSet u 115) ∧
    ∀ r : Req, Writer r s → FreePage r .arb s → Completes (.arbCommit r) s fun u =>
      RestSame s u ∧ u.regs = s.regs ∧ u.crl.prioSched = s.crl.prioShadow ∧ EventSet u 124
/-! The Loom (chapter 8) -/

/-- R224, R228, R231, R235, R236, R267: a new Loom cycle counts on and forgets the entries of the one before. Each kind of entry, dispatched
once in the cycle in which it is due, does what Table 8.3 says; an entry that has not started is skipped with SKIP. The model's own
choices in it: log entries 1, 3. -/
def Obligations.LoomEntries : Prop :=
  ∀ (i : BitVec 14) (t : Nat) (s : State), Delivered s → s.pwr.boot ≠ .inReset → s.tap.ecc = [] →
    let e := ephAt s.lom.act i.toNat
    let d := { cleared s with lom := { s.lom with dispatched := s.lom.dispatched ++ [i.toNat], lastEntry := some i.toNat } }
    (s.lom.run = true → unstarted s = [] → switchNext s = false → getFld s .glb 0x064 7 7 = 0 → s.lom.announced = [] →
      hdrRing s.lom.act = false → Completes .loomCycleStart s fun u =>
        RestSame { s with lom := u.lom } u ∧ u.regs = s.regs ∧ EventSet u 131 ∧
        u.lom = { s.lom with cycle := s.lom.cycle + 1, everRun := true, dispatched := [], completed := [], skipped := [] }) ∧
    (s.lom.run = false → hdrRing s.lom.act = false → Completes .loomCycleStart s fun u => u = cleared s) ∧
    (dispatchable s i.toNat 0 = true →
      let p := patOf (patEntry s.lom.act (e.f 79 64))
      (p.valid = true → Quiet s → s.pwr.brownout = false → Completes (.legacyEntry i) s fun u =>
        ∃ a : Acc, a.origin = .sched i.toNat (cyc s) e.time ∧ a.place = .scheduled ∧ a.patE = patEntry s.lom.act (e.f 79 64) ∧
          a.len = p.rlen ∧ a.write = (p.kind == .write) ∧ u = modSeg p.seg (fun x => { x with sched := x.sched ++ [a] }) d) ∧
      (p.valid = false → p.rlen = 0 → p.kind ≠ .write → s.pwr.brownout = false → Completes (.legacyEntry i) s fun u =>
        EventSet u 130 ∧ u.seg = s.seg ∧ u.regs = s.regs ∧ u.lom = { d.lom with completed := s.lom.completed ++ [i.toNat] }) ∧
      (s.pwr.brownout = true → Completes (.legacyEntry i) s fun u =>
        RestSame { s with lom := u.lom } u ∧ u.lom = { d.lom with skipped := s.lom.skipped ++ [i.toNat] } ∧ EventSet u 134 ∧
        OtherRegs .lom 0x064 s u ∧ getFld u .lom 0x064 31 16 = (getFld s .lom 0x064 31 16 + 1) % 65536)) ∧
    (dispatchable s i.toNat 1 = true →
      (ownsSlot s (e.f 73 64) = true → Completes (.ringTxEntry i) s fun u =>
        RestSame { d with rng := u.rng, freeCount := s.freeCount + 1 } u ∧ u.regs = s.regs ∧
        u.rng = { s.rng with txBuf := s.rng.txBuf ++
          [⟨i.toNat, s.lom.cycle, e.f 73 64, e.f 87 86, e.f 88 88 == 1, slotCrit s.lom.act (e.f 73 64),
            slotMaxLen s.lom.act (e.f 73 64), voutView s (e.f 115 96 * 8) (e.f 85 74)⟩] }) ∧
      (ownsSlot s (e.f 73 64) = false → Completes (.ringTxEntry i) s fun u => u = d)) ∧
    (dispatchable s i.toNat 2 = true → s.rng.windows = [] → Completes (.ringRxEntry i) s fun u =>
      u = { d with rng := { s.rng with windows := [⟨i.toNat, cyc s, e.bits⟩] } }) ∧
    (∀ w : RxWin, s.rng.windows = [w] → w.entry = i.toNat → w.cycle = cyc s → w.bits = e.bits →
      mget 0 s.rng.rxMiss i.toNat + 1 < missLimit s → Completes (.ringRxWindowClose i) s fun u =>
        u = { cleared s with
          rng := { s.rng with windows := [], rxMiss := mset 0 i.toNat (mget 0 s.rng.rxMiss i.toNat + 1) s.rng.rxMiss },
          lom := { s.lom with completed := s.lom.completed ++ [i.toNat] } }) ∧
    (dispatchable s i.toNat 3 = true →
      (e.f 70 70 = 0 → Completes (.syncEntry i) s fun u =>
        u = { d with mer := { s.mer with points := s.mer.points.filter (· != e.f 69 64) ++ [e.f 69 64] } }) ∧
      (e.f 70 70 = 1 → e.f 69 64 + 1 = s.rng.num → sendsSync s = true → txOk s 0 = true → txOk s 1 = true →
        Completes (.syncEntry i) s fun u =>
          u = { d with lom := { d.lom with completed := s.lom.completed ++ [i.toNat] }, out := u.out } ∧
          ∃ f0 f1 : Frame, u.out = [.ring 0 f0, .ring 1 f1] ∧ f0.typ = 2 ∧ f1.typ = 2 ∧
            f0.slot.toNat = s.rng.num - 1 ∧ f1.slot.toNat = s.rng.num - 1)) ∧
    (dispatchable s i.toNat 4 = true → t ≤ e.time →
      (e.f 66 66 = 1 → e.f 65 64 < 2 → Completes (.powerOnEntry ⟨i, t⟩) s fun u =>
        u = modSeg (if e.f 65 64 = 0 then 0 else 1) (fun x => { x with gated := false, stopWait := false }) d) ∧
      (e.f 66 66 = 1 → e.f 65 64 = 2 → Completes (.powerOnEntry ⟨i, t⟩) s fun u =>
        u = { d with pwr := { s.pwr with almGated := false, almStopWait := false } }) ∧
      (∀ g : Seg, e.f 66 66 = 0 → e.f 65 64 = g.val →
        (segCfg s g 3 = true → Completes (.powerOffEntry ⟨i, t⟩) s fun u => u = modSeg g (fun x => { x with noGate := true }) d) ∧
        (segCfg s g 3 = false → segIdle s g = true → Completes (.powerOffEntry ⟨i, t⟩) s fun u =>
          u = modSeg g (fun x => { x with stopWait := false, gated := true }) d) ∧
        (segCfg s g 3 = false → segIdle s g = false → Completes (.powerOffEntry ⟨i, t⟩) s fun u =>
          u = modSeg g (fun x => { x with stopWait := true }) d)) ∧
      (e.f 66 66 = 0 → e.f 65 64 = 2 →
        (almIdle s = true → Completes (.powerOffEntry ⟨i, t⟩) s fun u =>
          u = { d with pwr := { s.pwr with almStopWait := false, almGated := true } }) ∧
        (almIdle s = false → Completes (.powerOffEntry ⟨i, t⟩) s fun u => u = { d with pwr := { s.pwr with almStopWait := true } }))) ∧
    (s.pwr.almStopWait = true → s.lom.run = true → almIdle s = true → Completes .almStop s fun u =>
      u = { cleared s with pwr := { s.pwr with almStopWait := false, almGated := true } }) ∧
    (dispatchable s i.toNat 5 = true →
      (t ≤ e.time → e.f 66 64 = 0 → Completes (.mark ⟨i, t⟩) s fun u =>
        RestSame { s with lom := d.lom } u ∧ u.regs = s.regs ∧ EventSet u 132) ∧
      (e.time + 10 < t → Completes (.mark ⟨i, t⟩) s fun u =>
        RestSame { s with lom := d.lom } u ∧ EventSet u 133 ∧
        getFld u .lom 0x064 15 0 = (getFld s .lom 0x064 15 0 + 1) % 65536) ∧
      (t ≤ e.time → e.f 66 64 = 1 →
        (s.lom.completed.contains (e.f 109 96) = true → Completes (.deadline ⟨i, t⟩) s fun u => u = d) ∧
        (s.lom.completed.contains (e.f 109 96) = false → Completes (.deadline ⟨i, t⟩) s fun u =>
          RestSame { s with lom := d.lom } u ∧ u.regs = s.regs ∧ EventSet u 135))) ∧
    (s.lom.run = true → ephDue e (cyc s) = true → s.lom.skipped.contains i.toNat = false →
      (e.kind = 0 → legacyWaits s 0 i.toNat = true ∨ legacyWaits s 1 i.toNat = true → Completes (.skip i) s fun u =>
        EventSet u 134 ∧ u.lom = { s.lom with skipped := s.lom.skipped ++ [i.toNat] } ∧ OtherRegs .lom 0x064 s u ∧
        getFld u .lom 0x064 31 16 = (getFld s .lom 0x064 31 16 + 1) % 65536 ∧ legacyWaits u 0 i.toNat = false ∧
        legacyWaits u 1 i.toNat = false ∧ RestSame { s with lom := u.lom, seg := u.seg } u) ∧
      (e.kind = 0 → legacyWaits s 0 i.toNat = false → legacyWaits s 1 i.toNat = false → Completes (.skip i) s fun u =>
        u = cleared s)) ∧
    (∀ (g : Seg) (pl : Place) (x : Eng), pl ≠ .scheduled → placeNext s g pl = some x → Completes (.gapWaitExpire g pl) s fun u =>
      SegAlone g s u ∧ u.seg[g] = { s.seg[g] with waived := s.seg[g].waived.filter (· != xferKey x) ++ [xferKey x] }) ∧
    ∀ (g : Seg) (x : Eng), s.seg[g].eng = some x → x.acc.place ≠ .scheduled → s.lom.run = true →
      Completes (.gapOverrun g) s fun u => RestSame s u ∧ u.regs = s.regs ∧ EventSet u 143

/-- R243, R245, R246: LOAD and CLEAR begin where the standby set is not locked and are captured elsewhere. A load that ends fills the
standby set and starts the check, or marks the set invalid with the rule it broke; a clear empties it. The check reports PASS exactly
when no rule is broken, and a failure while a switch is armed abandons the switch. The model's own choices in it: log entries 3, 42, 43. -/
def Obligations.StandbySet : Prop :=
  ∀ (r : Req) (s : State), Delivered s → CoreRuns s →
    (Writer r s → FreePage r .lom s →
      (∀ slot : Fin 2, stbyLocked s = false → Completes (.load r slot) s fun t =>
        RestSame { s with lom := t.lom } t ∧ t.regs = s.regs ∧ t.lom = { s.lom with loading := some (some slot.val) }) ∧
      (∀ slot : Fin 2, stbyLocked s = true → Completes (.load r slot) s fun t =>
        RestSame s t ∧ Captured .lom 1 r 0x1A 0x06C (BitVec.ofNat 32 (1 + 16 * slot.val)) s t) ∧
      (stbyLocked s = false → Completes (.loadClear r) s fun t =>
        RestSame { s with lom := t.lom } t ∧ t.regs = s.regs ∧ t.lom = { s.lom with loading := some none }) ∧
      (stbyLocked s = true → Completes (.loadClear r) s fun t => RestSame s t ∧ Captured .lom 1 r 0x1A 0x06C 2 s t)) ∧
    (Writer r s → FreePage r .lom s →
      (s.lom.loading = none → s.lom.checking = false → Completes (.checkCmd r) s fun t =>
        RestSame { s with lom := t.lom } t ∧ t.regs = s.regs ∧ t.lom = { s.lom with
          checking := true, stby := { s.lom.stby with check := .running, rule := 0, index := 0 } }) ∧
      (s.lom.loading ≠ none ∨ s.lom.checking = true → Completes (.checkCmd r) s fun t =>
        RestSame s t ∧ Captured .lom 1 r 0x1A 0x05C 1 s t)) ∧
    (s.pwr.boot ≠ .inReset → s.lom.loading = some none → Completes .loadDone s fun t =>
      RestSame { s with lom := t.lom } t ∧ t.regs = s.regs ∧ t.lom = { s.lom with loading := none, stby := wsetEmpty } ∧
      EventSet t 137) ∧
    (∀ i : Nat, s.pwr.boot ≠ .inReset → s.lom.loading = some (some i) → s.pwr.brownout = false →
      (slotBroken s i = none → Completes .loadDone s fun t =>
        RestSame { s with lom := t.lom } t ∧ t.regs = s.regs ∧ EventSet t 137 ∧ t.lom = { s.lom with
          loading := none, checking := true, stby := { setOfImage (slotImage s i) (i + 1) with check := .running } }) ∧
      (∀ x : Nat × Nat, slotBroken s i = some x → Completes .loadDone s fun t =>
        RestSame { s with lom := t.lom, alm := t.alm } t ∧ t.regs = s.regs ∧ EventSet t 137 ∧ t.lom.loading = none ∧
        t.lom.stby.hasHdr = false ∧ t.lom.stby.src = 0 ∧ t.lom.stby.check = .fail ∧ t.lom.stby.rule = x.1 ∧
        t.lom.stby.index = x.2 ∧ t.lom.act = s.lom.act ∧ t.alm.mem = s.alm.mem)) ∧
    (s.pwr.boot ≠ .inReset → s.lom.checking = true →
      let b := checkBroken s.lom.stby (if activePresent s then some s.lom.act else none)
      (b = none ∨ armedNow s = false → Completes .checkDone s fun t =>
        RestSame { s with lom := t.lom } t ∧ t.regs = s.regs ∧ EventSet t 136 ∧
        t.lom = { s.lom with checking := false, stby := noteCheck s.lom.stby b } ∧ (t.lom.stby.check = .pass ↔ b = none)) ∧
      (b ≠ none → armedNow s = true → Completes .checkDone s fun t =>
        EventSet t 136 ∧ t.lom = { s.lom with
          checking := false, stby := noteCheck s.lom.stby b, armState := .abandoned, armReason := 1, disarmWait := false,
          markDue := t.lom.markDue } ∧
        t.img = s.img ∧ t.seg = s.seg ∧ t.lcc = s.lcc))

/-- R250, R252, R253: an arm whose checks pass goes to MARKING with its target, one that fails them is refused with the reason of the first;
the mark's end arms the switch, or refuses it with reason 0x8, or cancels it where a DISARM waits. DISARM cancels an armed switch. In
the target Loom cycle the sets exchange roles, also at a node that still marks. The model's own choices in it: log entries 1, 9, 43. -/
def Obligations.ArmAndSwitch : Prop :=
  ∀ s : State, Delivered s → s.pwr.boot = .opened →
    (∀ dropOk : Bool,
      (armCheck dropOk (getReg s .lom 0x054) s = 0 → Completes (.arm dropOk) s fun t =>
        RestSame { s with lom := t.lom } t ∧ t.regs = s.regs ∧ t.lom = { s.lom with
          armState := .marking, armTarget := getReg s .lom 0x054, dropOk := dropOk, disarmWait := false, announced := [] }) ∧
      (armCheck dropOk (getReg s .lom 0x054) s ≠ 0 → Completes (.arm dropOk) s fun t =>
        RestSame { s with lom := t.lom } t ∧ t.regs = s.regs ∧ EventSet t 140 ∧ t.lom = { s.lom with
          armReason := armCheck dropOk (getReg s .lom 0x054) s,
          armState := if armedNow s then s.lom.armState else .refused }) ∧
      (stbyLocked s = true → armCheck dropOk (getReg s .lom 0x054) s = 0x7) ∧
      (stbyLocked s = false → s.lom.stby.check ≠ .pass → armCheck dropOk (getReg s .lom 0x054) s = 0x1) ∧
      (stbyLocked s = false → s.lom.stby.check = .pass → s.lom.run = false → armCheck dropOk (getReg s .lom 0x054) s = 0xB)) ∧
    (s.lom.armState = .marking → s.pwr.brownout = false →
      (Completes (.armed false) s fun t =>
        RestSame { s with lom := t.lom } t ∧ t.regs = s.regs ∧ EventSet t 140 ∧
        t.lom = { s.lom with armState := .refused, armReason := 8, disarmWait := false }) ∧
      (s.lom.disarmWait = false → Completes (.armed true) s fun t =>
        EventSet t 138 ∧ t.lom = { s.lom with armState := .armed } ∧ t.img = s.img ∧ t.seg = s.seg ∧ t.lcc = s.lcc) ∧
      (s.lom.disarmWait = true → Completes (.armed true) s fun t =>
        t.lom = { s.lom with armState := .idle, disarmWait := false } ∧ t.img = s.img ∧ t.seg = s.seg ∧ t.lcc = s.lcc)) ∧
    (s.lom.armState = .armed → Completes .disarm s fun t =>
      t.lom = { s.lom with armState := .idle, markDue := t.lom.markDue } ∧ t.img = s.img ∧ t.seg = s.seg ∧ t.lcc = s.lcc) ∧
    (s.lom.armState = .marking → Completes .disarm s fun t => t = { cleared s with lom := { s.lom with disarmWait := true } }) ∧
    (armedNow s = false → Completes .disarm s fun t =>
      RestSame { s with lom := t.lom } t ∧ t.regs = s.regs ∧ EventSet t 140 ∧
      t.lom = { s.lom with armReason := 7, armState := .refused }) ∧
    (armedNow s = true → s.lom.run = true → s.lom.cycle = s.lom.armTarget → Completes .switched s fun t =>
      t.lom.act = s.lom.stby ∧ t.lom.stby = s.lom.act ∧ t.lom.bank = !s.lom.bank ∧ t.lom.armState = .switched ∧
      t.lom.cycle = s.lom.cycle ∧ EventSet t 139 ∧ t.lcc = s.lcc ∧ t.rng.node = s.rng.node) ∧
    (armedNow s = false ∨ s.lom.run = false ∨ s.lom.cycle ≠ s.lom.armTarget → Completes .switched s fun t => t = cleared s)
/-! The ring (chapter 10) -/

/-- R291, R309, R310: a lost link is counted and its port wraps; a restored one receives again and, once held, is announced. R307: a silent
member leaves the membership, the standby of a departed principal takes its slots, a release gives them back. R314, R317: the ring
commands, refused where their conditions fail. The model's own choices in it: log entries 1, 18, 44. -/
def Obligations.RingMembership : Prop :=
  ∀ (rp : RingPort) (s : State), Delivered s → s.pwr.boot = .opened → getFld s .glb 0x064 7 7 = 0 →
    (s.rng.port[rp].lost = false → Completes (.linkLoss rp) s fun t =>
      RestSame { s with rng := t.rng } t ∧ t.rng = { s.rng with port := t.rng.port, wrapE := t.rng.wrapE } ∧
      t.rng.port[rp] = { s.rng.port[rp] with
        signal := false, codeSync := false, lost := true, wrapped := true, raw := none, rawSent := none } ∧
      (∀ q, q ≠ rp → t.rng.port[q] = s.rng.port[q]) ∧ mget false t.rng.wrapE (wrapKey s rp) = true ∧
      OtherRegs (.rg rp) 0x050 s t ∧ getReg t (.rg rp) 0x050 = getReg s (.rg rp) 0x050 + 1 ∧ EventSet t (rgEv rp 2) ∧
      EventSet t (rgEv rp 4)) ∧
    (s.rng.port[rp].lost = true → rgEn s rp = true → ringOn s = true → Completes (.linkOk rp) s fun t =>
      RestSame { s with rng := t.rng } t ∧ t.regs = s.regs ∧ t.rng = { s.rng with port := t.rng.port } ∧
      t.rng.port[rp] = { s.rng.port[rp] with signal := true, codeSync := true, lost := false, hopResults := [] } ∧
      (∀ q, q ≠ rp → t.rng.port[q] = s.rng.port[q]) ∧ EventSet t (rgEv rp 3)) ∧
    (s.rng.port[rp].wrapped = true → s.rng.port[rp].lost = false → s.rng.port[rp].foreign = false → countsRing s = true →
      Completes (.unwrap rp) s fun t =>
        RestSame { s with rng := t.rng } t ∧ t.regs = s.regs ∧ EventSet t (rgEv rp 5) ∧ t.rng = { s.rng with
          wrapE := mset false (wrapKey s rp) false s.rng.wrapE, unwrapAt := some (s.lom.cycle + 2) }) ∧
    (∀ n : BitVec 7,
      (isMember s n.toNat = true → n.toNat ≠ s.rng.num →
        (missLimit s ≤ mget 0 s.rng.miss n.toNat → Completes (.memberLoss n) s fun t =>
          RestSame { s with rng := t.rng } t ∧ t.regs = s.regs ∧ t.rng.member = s.rng.member &&& ~~~ nodeBit n.toNat ∧
          t.rng.node = s.rng.node ∧ EventSet t 181) ∧
        (mget 0 s.rng.miss n.toNat < missLimit s → Completes (.memberLoss n) s fun t => t = cleared s)) ∧
      (∀ h : Nat, n.toNat ≠ 0 → h = ringStandby s.lom.act n.toNat → h ≠ 0 → isMember s n.toNat = false → isMember s h = true →
        stateOf s h = 4 → (∀ x ∈ s.rng.takenOver, x.1 ≠ n.toNat) → Completes (.takeover n) s fun t =>
          t.rng.tepoch = s.rng.tepoch + 1 ∧ t.rng.takenOver = s.rng.takenOver ++ [(n.toNat, h, (s.rng.tepoch + 1).toNat)] ∧
          EventSet t 182 ∧ t.rng.node = (if h = s.rng.num then .active else s.rng.node) ∧ t.lcc = s.lcc ∧ t.ch = s.ch) ∧
      (∀ x : Nat × Nat × Nat, s.rng.takenOver.find? (fun t => t.1 == n.toNat) = some x → x.2.1 ≠ s.rng.num →
        Completes (.release n) s fun t =>
          t.rng.tepoch = s.rng.tepoch + 1 ∧ t.rng.takenOver = s.rng.takenOver.filter (fun x => x.1 != n.toNat) ∧ EventSet t 183 ∧
          (n.toNat = s.rng.num → s.rng.node = .standby → t.rng.node = .active ∧ t.rng.ownEpoch = s.rng.tepoch + 1) ∧
          (n.toNat ≠ s.rng.num → t.rng.node = s.rng.node) ∧ t.lcc = s.lcc ∧ t.ch = s.ch) ∧
      ((∀ x ∈ s.rng.takenOver, x.1 ≠ n.toNat) → Completes (.release n) s fun t => t = cleared s)) ∧
    (canWithdraw s = true → Completes .ringCmdWithdraw s fun t =>
      t.rng.node = .listen ∧ EventSet t 178 ∧ t.rng.member = s.rng.member ∧ t.mer.synced = false ∧ t.lcc = s.lcc ∧ t.ch = s.ch) ∧
    (canWithdraw s = false → Completes .ringCmdWithdraw s fun t => RestSame s t ∧ t.regs = s.regs ∧ EventSet t 187) ∧
    (s.rng.taken = true → Completes .ringCmdRelease s fun t =>
      t = { cleared s with rng := { s.rng with releaseAt := t.rng.releaseAt } } ∧
      ∀ x ∈ s.rng.takenOver, x.2.1 = s.rng.num → (x.1, s.lom.cycle + 2) ∈ t.rng.releaseAt) ∧
    (s.rng.taken = false → Completes .ringCmdRelease s fun t => RestSame s t ∧ t.regs = s.regs ∧ EventSet t 187) ∧
    ∀ (dst : BitVec 7) (c : Instr) (cmd : Nat), (c = .ringCmdRemoteWithdraw dst ∧ cmd = 4) ∨ (c = .ringCmdRemoteRelease dst ∧ cmd = 5) →
      (isMember s dst.toNat = true → dst.toNat ≠ s.rng.num → s.rng.num ≠ 0 → Completes c s fun t =>
        t = { cleared s with rng := { s.rng with carry := t.rng.carry, nextTag := (s.rng.nextTag + 1) % 4096 } } ∧
        ∃ b : List Byte, t.rng.carry = s.rng.carry ++ [b] ∧ (subHdr b).kind = 4 ∧ (subHdr b).dst = dst.toNat ∧
          (subHdr b).pat = cmd) ∧
      (isMember s dst.toNat = false ∨ dst.toNat = s.rng.num → Completes c s fun t =>
        RestSame s t ∧ t.regs = s.regs ∧ EventSet t 187)

/-- R294, R299, R305, R267, R298, R316: a frame outside its window is an edge reject, one of another sender is not accepted, a bad one is
counted, an oversize one is cut. A good DATA frame writes the sender's record into a free slot of the input record, which becomes the
newest. A good sync frame makes its sender a member. At its slot's start a payload leaves on the ring. The model's own choices in it:
log entries 1, 18, 44. -/
def Obligations.RingFrames : Prop :=
  ∀ (rp : RingPort) (inWindow : Bool) (f : Frame) (s : State), Delivered s → s.pwr.boot = .opened → s.tap.ecc = [] →
    ListsGood s → SlavesFree s → rxOk s rp = true → unguarded s = false →
    (∀ (c : Instr) (stamp : BitVec 66),
      (c = .dataFrameReceive rp inWindow f ∧ f.typ = 1) ∨
        (c = .syncFrameReceive rp inWindow stamp f ∧ f.typ = 2 ∧ s.mer.synced = true) →
      inWindow = false → Completes c s fun t =>
        RestSame { s with rng := t.rng } t ∧ OtherRegs (.rg rp) 0x04C s t ∧
        getReg t (.rg rp) 0x04C = getReg s (.rg rp) 0x04C + 1 ∧ EventSet t (rgEv rp 7) ∧ t.rng.windows = s.rng.windows ∧
        t.rng.member = s.rng.member ∧ t.rng.heard = s.rng.heard) ∧
    (f.typ = 1 → inWindow = true →
      let owner := resultTag s (ownerNow s f.slot.toNat)
      (owner ≠ none → owner ≠ some f.utag → Completes (.dataFrameReceive rp inWindow f) s fun t =>
        RestSame { s with rng := t.rng } t ∧ t.regs = s.regs ∧ t.rng.windows = s.rng.windows) ∧
      (owner = some f.utag →
        (slotMaxLen s.lom.act f.slot.toNat < f.payload.length → Completes (.dataFrameReceive rp inWindow f) s fun t =>
          RestSame { s with rng := t.rng } t ∧ t.regs = s.regs ∧ t.rng.windows = s.rng.windows ∧ EventSet t (rgEv rp 10)) ∧
        (f.payload.length ≤ slotMaxLen s.lom.act f.slot.toNat →
          (frameBad f = true → Completes (.dataFrameReceive rp inWindow f) s fun t =>
            RestSame { s with rng := t.rng } t ∧ OtherRegs (.rg rp) 0x048 s t ∧
            getReg t (.rg rp) 0x048 = getReg s (.rg rp) 0x048 + 1 ∧ t.rng.windows = s.rng.windows ∧ EventSet t (rgEv rp 6)) ∧
          (∀ (w : RxWin) (r : Nat), frameBad f = false → s.rng.windows = [w] → windowTakes s rp f.slot.toNat w = true →
            winNow s w = true → w.cycle = cyc s → findInit s.lom.act [0] (w.eph.f 115 96) = some r → activeForces s = [] →
            relayList s.lom.act = [] → Completes (.dataFrameReceive rp inWindow f) s fun t =>
              let data := (f.payload.drop (w.eph.f 84 74 + 8)).take (w.eph.f 127 116)
              RestSame { s with rng := t.rng, img := t.img, lom := t.lom, freeCount := t.freeCount } t ∧ t.regs = s.regs ∧
              t.rng.windows = [] ∧ mget 0 t.rng.rxMiss w.entry = 0 ∧
              t.lom = { s.lom with completed := s.lom.completed ++ [w.entry] } ∧ slotNewest t r = slotFree s r ∧
              imgBytes t (slotAddr s.lom.act (initRec s.lom.act r).recOff (slotFree s r) + 8) data.length = data)))) ∧
    (∀ stamp : BitVec 66, f.typ = 2 → inWindow = true →
      (s.rng.result ≠ [] → resultTag s (f.slot.toNat + 1) ≠ some f.utag → Completes (.syncFrameReceive rp inWindow stamp f) s fun t =>
        RestSame { s with rng := t.rng } t ∧ t.regs = s.regs ∧ t.rng.member = s.rng.member ∧ t.rng.heard = s.rng.heard) ∧
      (resultTag s (f.slot.toNat + 1) = some f.utag → f.payload.length ≤ 32 →
        (frameBad f = true → Completes (.syncFrameReceive rp inWindow stamp f) s fun t =>
          RestSame { s with rng := t.rng } t ∧ OtherRegs (.rg rp) 0x048 s t ∧
          getReg t (.rg rp) 0x048 = getReg s (.rg rp) 0x048 + 1 ∧ t.rng.member = s.rng.member ∧ EventSet t (rgEv rp 6)) ∧
        (frameBad f = false → f.slot.toNat < 64 → f.slot.toNat + 1 ≠ s.rng.num → bitsOf (syncPl f.payload).flags 3 3 = 0 →
          claimOk s.crl 25 (cellsFor f.payload.length) = true → s.rng.node ≠ .listen → Completes (.syncFrameReceive rp inWindow stamp f) s fun t =>
            isMember t (f.slot.toNat + 1) = true ∧ mget 0 t.rng.miss (f.slot.toNat + 1) = 0 ∧
            (∃ e ∈ t.rng.heard, e.1 = f.slot.toNat + 1) ∧ t.regs = s.regs ∧ t.lcc = s.lcc ∧ t.ch = s.ch))) ∧
    (∀ (slot : BitVec 10) (x : TxFrame) (q : RingPort), s.rng.txBuf = [x] → x.slot = slot.toNat → x.carry = false →
      x.data.length ≤ x.maxLen → txPorts s x.rings = [q] → txOk s q = true → Completes (.slotStart slot) s fun t =>
        RestSame { s with
          rng := { s.rng with txBuf := [] }, freeCount := t.freeCount,
          lom := { s.lom with completed := s.lom.completed ++ (if x.cycle.toNat = cyc s then [x.entry] else []) } } t ∧
        t.regs = s.regs ∧ (ownsSlot s slot.toNat = false → ∀ g : Frame, .ring q g ∉ t.out) ∧
        (ownsSlot s slot.toNat = true → ∃ g : Frame, .ring q g ∈ t.out ∧ g.typ = 1 ∧ g.payload = x.data ∧ g.slot = slot ∧
          g.cycle = x.cycle ∧ g.src = BitVec.ofNat 7 s.rng.num)) ∧
    (∀ i : BitVec 14, (relayList s.lom.act).any (fun e => e.1 == i.toNat) = true →
      (outHold s < mget 0 s.rng.rxMiss i.toNat → Completes (.relayHoldExpire i) s fun t =>
        t = { cleared s with img := { s.img with relayMiss := mset 0 i.toNat 256 s.img.relayMiss } }) ∧
      (mget 0 s.rng.rxMiss i.toNat ≤ outHold s → Completes (.relayHoldExpire i) s fun t => t = cleared s)) ∧
    (s.pwr.st = .listen → Completes .listenSyncSend s fun t =>
      t = { cleared s with mer := { s.mer with points := List.range 64 }, out := t.out }) ∧
    (s.pwr.st ≠ .listen → Completes .listenSyncSend s fun t => t = cleared s)

/-- R301 to R303: cold start, the three COLDSTART frames that make a head, the INAUG pass, the head's judgement, the RESULT that gives a
node its number. The model's own choices in it: log entries 1, 20, 44. -/
def Obligations.RingStartup : Prop :=
  ∀ (rp : RingPort) (f : Frame) (s : State), Delivered s → s.pwr.boot = .opened → getFld s .glb 0x064 7 7 = 0 → ListsGood s →
    (s.rng.node = .listen → hdrRing s.lom.act = true → ringColdOk s.lom.act = true → getFld s .rng 0x004 0 0 = 1 →
      ringOn s = true → Completes .coldstartEntry s fun t =>
        RestSame { s with rng := t.rng } t ∧ t.regs = s.regs ∧ t.rng.node = .coldstart ∧ EventSet t 178) ∧
    (s.rng.node ≠ .listen ∨ getFld s .rng 0x004 0 0 = 0 → Completes .coldstartEntry s fun t => t = cleared s) ∧
    (s.rng.node = .coldstart → txOk s 0 = true → txOk s 1 = true → claimOk s.crl 22 1 = true → Completes .coldstartSend s fun t =>
      RestSame s t ∧ t.regs = s.regs ∧ ∃ (f0 f1 : Frame) (os : List Out), t.out = .ring 0 f0 :: .ring 1 f1 :: os ∧ f0.typ = 3 ∧ f1.typ = 3 ∧
        f0.payload = bytesLE 8 s.lcc.uid.toNat ++ bytesLE 4 (hdrSched s.lom.act) ++ bytesLE 4 0 ∧ f1.payload = f0.payload) ∧
    (s.rng.node ≠ .coldstart → Completes .coldstartSend s fun t => t = cleared s) ∧
    (rxOk s rp = true → frameBad f = false → f.typ = 3 → s.rng.node = .coldstart →
      claimOk s.crl 25 (cellsFor f.payload.length) = true →
      let uid := natLE (f.payload.take 8)
      (uid < s.lcc.uid.toNat → Completes (.coldstartFrameReceive rp f) s fun t =>
        RestSame { s with rng := t.rng, mer := t.mer } t ∧ t.regs = s.regs ∧ t.rng.node = .listen ∧ EventSet t 178) ∧
      (s.lcc.uid.toNat < uid → Completes (.coldstartFrameReceive rp f) s fun t => RestSame s t ∧ t.regs = s.regs) ∧
      (uid = s.lcc.uid.toNat → s.rng.ownSeen < 2 → Completes (.coldstartFrameReceive rp f) s fun t =>
        RestSame { s with rng := { s.rng with ownSeen := s.rng.ownSeen + 1 } } t ∧ t.regs = s.regs) ∧
      (uid = s.lcc.uid.toNat → s.rng.ownSeen = 2 → s.rng.head = false → Completes (.coldstartFrameReceive rp f) s fun t =>
        RestSame { s with rng := t.rng } t ∧ t.regs = s.regs ∧ t.rng.head = true ∧ t.rng.node = .coldstart ∧ EventSet t 189)) ∧
    (rxOk s rp = true → frameBad f = false → f.typ = 4 →
      let es := inaugList 64 f.payload
      let n := cellsFor f.payload.length
      (claimOk s.crl 25 n = false → Completes (.inaugFrameReceive rp f) s fun t =>
        RestSame s t ∧ t.regs = s.regs ∧ EventSet t 119) ∧
      (∀ (cells : List Nat) (s1 : State), claim 25 n s = some (cells, s1) → claimOk s1.crl 22 (cellsFor (16 * es.length + 16)) = true →
        s.rng.head = false → s.rng.node ≠ .coldstart → f.sec = false → f.wrapped = false →
        (∀ e ∈ es, entUid e ≠ s.lcc.uid.toNat) → txOk s (otherPort rp) = true → Completes (.inaugFrameReceive rp f) s fun t =>
          t.rng.node = .listen ∧ (∀ q : RingPort, t.rng.port[q].swapped = decide (rp = 0)) ∧
          ∃ (g : Frame) (e : List Byte), .ring (otherPort rp) g ∈ t.out ∧ g.typ = 4 ∧ g.payload = es.flatten ++ e ∧
            e.take 8 = bytesLE 8 s.lcc.uid.toNat) ∧
      (claimOk s.crl 25 n = true → s.rng.head = true → es.head?.map entUid = some s.lcc.uid.toNat → rp = westPort s →
        (∀ pos : Nat, badNode (ringOrder s.lom.act) (es.map entNode) 0 [] = some pos → Completes (.inaugFrameReceive rp f) s fun t =>
          t.rng.node = .listen ∧ t.rng.head = false ∧ EventSet t 180 ∧
          getReg t .rng 0x05C = BitVec.ofNat 32 (pos % 128 * 65536 + 3)) ∧
        (∀ nums : List Nat, badNode (ringOrder s.lom.act) (es.map entNode) 0 [] = none →
          matchRot (es.map entNode) (ringOrder s.lom.act) = .inl nums → s.rng.node = .coldstart →
          Completes (.inaugFrameReceive rp f) s fun t =>
            t.rng.num = nums.headD 0 ∧ t.rng.node = .active ∧ t.rng.head = false ∧ EventSet t 179))) ∧
    (s.rng.head = true → Completes .inaugReturnTimeout s fun t =>
      RestSame { s with rng := { s.rng with inaugTries := s.rng.inaugTries + 1 } } t ∧ t.regs = s.regs) ∧
    (s.rng.head = false → Completes .inaugReturnTimeout s fun t => t = cleared s) ∧
    (rxOk s rp = true → frameBad f = false → f.typ = 5 → claimOk s.crl 25 (cellsFor f.payload.length) = true →
      f.utag ≠ ownTag s → s.rng.node = .listen → bitsOf (natLE (f.payload.take 4)) 0 0 = 0 →
      let ms := resultMembers f.payload
      s.rng.result ≠ ms.map (·.1) → ∀ m : Member × Nat, ms.find? (fun m => m.1.uid == s.lcc.uid) = some m →
        (m.2 = (ms.head?.map (·.2)).getD 0 → Completes (.resultFrameReceive rp f) s fun t =>
          RestSame { s with rng := t.rng, lom := t.lom, mer := t.mer } t ∧ t.rng.num = m.1.num ∧ t.rng.node = .integrate ∧
          t.rng.result = ms.map (·.1) ∧ getReg t .rng 0x064 = getReg s .rng 0x064 + 1 ∧ EventSet t 179 ∧ EventSet t 178) ∧
        (m.2 ≠ (ms.head?.map (·.2)).getD 0 → Completes (.resultFrameReceive rp f) s fun t =>
          RestSame { s with rng := t.rng } t ∧ t.rng.num = s.rng.num ∧ t.rng.node = .listen ∧
          getReg t .rng 0x05C = 5 ∧ EventSet t 141)) ∧
    (hdrRing s.lom.act = true → activePresent s = true → ringOn s = true → Completes .ringCmdInaugurate s fun t =>
      t.rng.node = .listen ∧ t.rng.head = true ∧ t.rng.inaugTries = 0) ∧
    (hdrRing s.lom.act = false ∨ activePresent s = false ∨ ringOn s = false → Completes .ringCmdInaugurate s fun t =>
      RestSame s t ∧ t.regs = s.regs ∧ EventSet t 187)

/-- R73, R312, R313, R314, R207: a request for this node is queued on its segment, a refused read answered with STATUS 0x02 and a refused
write discarded; a response, a refusal and a timeout end the request they answer, here the mailbox's; a partial write is dropped; a ring
command of another node is executed with presence and answered. The model's own choices in it: log entries 1, 19, 45. -/
def Obligations.RemoteAccesses : Prop :=
  ∀ (rp : RingPort) (hdr data : List Byte) (s : State), Quiet s → s.pwr.st = .run → getFld s .glb 0x064 7 7 = 0 → s.rng.num ≠ 0 → (subHdr hdr).dst = s.rng.num →
    let h := subHdr hdr
    let p := patOf (patEntry s.lom.act h.pat)
    (h.first = true →
      (p.valid = true → p.node = 0 → accessRefused p (decide (h.kind = 2)) h.off h.size = false →
        (h.kind = 2 → h.last = true → (data.take h.dlen).length = h.size → claimOk s.crl 23 (cellsFor h.size) = true → Completes (.remoteRequestReceive ⟨rp, hdr⟩ data) s fun t =>
          RestSame s t ∧ t.regs = s.regs ∧ ∃ y ∈ listPkts t (remQ p.seg), y.origin = .remote h.src h.tag ∧ y.isRead = false ∧
            y.eop = true ∧ y.off = h.off ∧ y.data = data.take h.dlen) ∧
        (h.kind = 1 → p.kind ≠ .rmw → claimOk s.crl 23 1 = true → Completes (.remoteRequestReceive ⟨rp, hdr⟩ data) s fun t =>
          RestSame s t ∧ t.regs = s.regs ∧ ∃ y ∈ listPkts t (remQ p.seg), y.origin = .remote h.src h.tag ∧ y.isRead = true ∧
            y.off = h.off ∧ y.len = h.size) ∧
        (h.kind = 2 → claimOk s.crl 23 (cellsFor h.size) = false → Completes (.remoteRequestReceive ⟨rp, hdr⟩ data) s fun t =>
          RestSame s t ∧ t.regs = s.regs ∧ EventSet t 119)) ∧
      (p.valid = false ∨ p.node ≠ 0 ∨ accessRefused p (decide (h.kind = 2)) h.off h.size = true →
        (h.kind = 2 → Completes (.remoteRequestReceive ⟨rp, hdr⟩ data) s fun t => t = cleared s) ∧
        (h.kind = 1 → claimOk s.crl 21 1 = true → Completes (.remoteRequestReceive ⟨rp, hdr⟩ data) s fun t =>
          RestSame s t ∧ t.regs = s.regs ∧ ∃ y ∈ listPkts t 21, y.origin = .remote h.src h.tag ∧ y.sent = 2 ∧ y.data = []))) ∧
    (∀ r : RemTx, remOf s h.tag = some r → r.origin = .mailbox → r.left = true →
      (h.kind = 3 → r.dst = h.src →
        (h.status ≠ 0 → Completes (.remoteResponseReceive ⟨rp, hdr⟩ data) s fun t =>
          RestSame { s with rng := t.rng, mnt := t.mnt } t ∧ t.regs = s.regs ∧ remOf t h.tag = none ∧
          t.mnt = { s.mnt with legEnd := some (true, 6, []) }) ∧
        (h.status = 0 → h.first = true → h.last = true → (data.take h.dlen).length = h.size → claimOk s.crl 24 (cellsFor h.size) = true →
          Completes (.remoteResponseReceive ⟨rp, hdr⟩ data) s fun t =>
            RestSame { s with rng := t.rng, mnt := t.mnt } t ∧ t.regs = s.regs ∧ remOf t h.tag = none ∧
            t.mnt = { s.mnt with legEnd := some (false, 0, data.take h.dlen) })) ∧
      (h.kind = 3 → r.dst ≠ h.src → Completes (.remoteResponseReceive ⟨rp, hdr⟩ data) s fun t => t = cleared s)) ∧
    (∀ (tag : BitVec 12) (r : RemTx), remOf s tag.toNat = some r → r.origin = .mailbox → r.left = true →
      (remTimeout s ≤ (s.lom.cycle - r.cycle).toNat → Completes (.remTimeout tag) s fun t =>
        RestSame { s with rng := t.rng, mnt := t.mnt } t ∧ t.regs = s.regs ∧ remOf t tag.toNat = none ∧ EventSet t 185 ∧
        t.mnt = { s.mnt with legEnd := some (true, 6, []) }) ∧
      ((s.lom.cycle - r.cycle).toNat < remTimeout s → Completes (.remTimeout tag) s fun t => t = cleared s)) ∧
    (∀ (src : BitVec 7) (tag : BitVec 12) (g : Seg) (x : Pkt), partOf s src.toNat tag.toNat = some (remQ g) →
      listPkts s (remQ g) = [x] → x.isRead = false → s.seg[g].eng = none → s.seg[g].paused = [] →
      Completes (.remoteWriteFragmentTimeout src tag) s fun t =>
        listPkts t (remQ g) = [] ∧ EventSet t 121 ∧ EventSet t (segEv g 2) ∧ t.regs = s.regs ∧
        SegOnly g { s with img := t.img } t) ∧
    (∀ (src : BitVec 7) (tag : BitVec 12), partOf s src.toNat tag.toNat = none → droppedOf s src.toNat tag.toNat = none →
      Completes (.remoteWriteFragmentTimeout src tag) s fun t => t = cleared s) ∧
    (h.kind = 4 → claimOk s.crl 25 1 = true →
      (s.lcc.presence = false → Completes (.remCmd hdr) s fun t =>
        RestSame { s with rng := t.rng } t ∧ t.regs = s.regs ∧ t.rng.node = s.rng.node ∧ EventSet t 188 ∧
        ∃ b, t.rng.carry = s.rng.carry ++ [b] ∧ (subHdr b).kind = 5 ∧ (subHdr b).dst = h.src ∧ (subHdr b).status = 2) ∧
      (s.lcc.presence = true → h.pat = 4 → canWithdraw s = true → Completes (.remCmd hdr) s fun t =>
        t.rng.node = .listen ∧ EventSet t 188 ∧
        ∃ b, t.rng.carry = s.rng.carry ++ [b] ∧ (subHdr b).kind = 5 ∧ (subHdr b).dst = h.src ∧ (subHdr b).status = 0))

/-! Meridian (chapter 11) -/

/-- R323, R329, R330, R331, R332: EPOCH_CMD sets the time of a node that is not synchronised, and is refused at one that is. A resync takes
the average of the sync set, steps or slews by its negative, adjusts RATE within its clamp, and out of bound sends an ACTIVE or STANDBY
node to LISTEN. A slew ends within 0.5 ns of its target, and device time has not run backwards. The model's own choices in it: log
entries 1, 12, 13, 46. -/
def Obligations.TimeBase : Prop :=
  ∀ s : State, Delivered s → s.pwr.boot = .opened → getFld s .glb 0x064 7 7 = 0 →
    (s.mer.synced = false → Completes .epochCmd s fun t =>
      RestSame { s with mer := t.mer } t ∧ t.regs = s.regs ∧ EventSet t 201 ∧ t.mer.synced = false ∧
      t.mer.time = BitVec.ofNat 96 (((getReg s .mer 0x054).toNat + (getReg s .mer 0x058).toNat * 2 ^ 32) * 2 ^ 32)) ∧
    (s.mer.synced = true → Completes .epochCmd s fun t => RestSame s t ∧ t.regs = s.regs ∧ EventSet t 204) ∧
    (s.mer.slewing = true → Completes .slewDone s fun t =>
      t = { cleared s with mer := t.mer, freeCount := s.freeCount + 1, pwr := { s.pwr with ticks := s.pwr.ticks + slewTicks s.mer.slew } } ∧
      ∃ err : Int, err.natAbs ≤ 9223372036 ∧ t.mer = { s.mer with
        time := s.mer.time + BitVec.ofInt 96 (slewTicks s.mer.slew * tickStep s + s.mer.slew + err), slewing := false, slew := 0 }) ∧
    (s.pwr.seqRun = false → s.mer.rate.natAbs ≤ rateClamp.natAbs → ∀ err : Int, err.natAbs ≤ 9223372036 →
      0 < slewTicks s.mer.slew * tickStep s + s.mer.slew + err) ∧
    (s.mer.slewing = false → Completes .slewDone s fun t => t = cleared s) ∧
    ∀ ms : Nat, s.rng.num ≠ 0 → ringOn s = true → ringNodes s.lom.act ≠ 1 →
      let m := meanOf (syncSet s)
      (2 ≤ (syncSet s).length → Completes (.resync ms) s fun t =>
        t.mer.n = (syncSet s).length ∧ t.mer.offset = m ∧ t.mer.resyncs = s.mer.resyncs + 1 ∧ t.mer.holdover = false ∧
        t.mer.trimmed = decide (4 ≤ (syncSet s).length) ∧ t.mer.points = [] ∧ t.mer.readings = [] ∧
        t.mer.rate = max (-rateClamp) (min rateClamp (s.mer.rate + -64000 * m * ms)) ∧
        (s.mer.synced = false → 4295 ≤ m.natAbs →
          t.mer.time = s.mer.time + BitVec.ofInt 96 (-m * 2 ^ 32) ∧ t.mer.slewing = false ∧ EventSet t 196) ∧
        (s.mer.synced = true ∨ m.natAbs < 4295 → t.mer.time = s.mer.time ∧ t.mer.slewing = true ∧ t.mer.slew = -m * 2 ^ 32) ∧
        (inBound s m = false → EventSet t 198 ∧ (s.rng.node = .active ∨ s.rng.node = .standby → t.rng.node = .listen)) ∧
        t.ch = s.ch ∧ t.lcc = s.lcc) ∧
      ((syncSet s).length < 2 → Completes (.resync ms) s fun t =>
        t.mer.holdover = true ∧ t.mer.time = s.mer.time ∧ t.mer.rate = s.mer.rate ∧ t.mer.resyncs = s.mer.resyncs ∧
        t.mer.points = [] ∧ t.rng.node = s.rng.node ∧ EventSet t 199)
/-! Clocks, power states, resets, supplies (chapter 13) -/

/-- R371, R372, R374, R375, R386, R445: a reset cause puts the device into reset, every register at its reset value but those that a power-
on reset alone clears, and every output ball as Table 16.6 gives for reset unless a test instruction holds the pins (R423, R428); in
reset a further cause only holds it on. The reset ends when no cause is left, with the straps latched; then the system PLL locks, the
wipe ends, the identity is read and the ports open. A warning declared at the release begins brownout hold when CORE starts. The model's
own choices in it: log entries 1, 24. -/
def Obligations.Resets : Prop :=
  ∀ s : State, Delivered s →
    (∀ (c : Instr) (n : Nat), (c, n) ∈ [(Instr.powerOnReset, 0), (.vddioReset, 1), (.vddReset, 2), (.resetIn, 3), (.clkfail, 4),
        (.sysPllUnlock, 5)] →
      (s.pwr.boot ≠ .inReset ∨ n = 0 → n = 5 → s.pwr.sysLock = true → Completes c s (HeldInReset n s)) ∧
      (s.pwr.boot ≠ .inReset ∨ n = 0 → n ≠ 5 → Completes c s (HeldInReset n s)) ∧
      (s.pwr.boot = .inReset → 1 ≤ n → n ≤ 4 → Completes c s fun t => t = { cleared s with pwr := { s.pwr with
        causes := if s.pwr.causes.contains n then s.pwr.causes else s.pwr.causes ++ [n],
        aonOk := s.pwr.aonOk && decide (n ≠ 4) } }) ∧
      (n = 5 → s.pwr.sysLock = false → Completes c s fun t => t = cleared s)) ∧
    (∀ c : Fin 7, Completes (.resetCauseEnd c) s fun t => t = { cleared s with pwr := { s.pwr with
      causes := s.pwr.causes.filter (· != c.val), aonOk := s.pwr.aonOk || decide (c.val = 4) } }) ∧
    (∀ straps : BitVec 6,
      (s.pwr.boot = .inReset → s.pwr.causes = [] → Completes (.resetRelease straps) s fun t =>
        t = { cleared s with regs := t.regs, pwr := { s.pwr with
          boot := .released, straps := straps.toNat, spare := t.pwr.spare, pfwWarn := s.pwr.pfwLow, vddioWarn := s.pwr.vddioLow } } ∧
        t.pwr.spare.val = straps.toNat % 4 ∧ getFld t .vot 0x058 5 4 = straps.toNat % 4 ∧
        getFld t (.ls 0) 0x040 3 3 = straps.toNat / 8 % 2 ∧ getFld t (.ls 1) 0x040 3 3 = straps.toNat / 16 % 2) ∧
      (s.pwr.boot ≠ .inReset ∨ s.pwr.causes ≠ [] → Completes (.resetRelease straps) s fun t => t = cleared s)) ∧
    (s.pwr.boot = .released →
      (s.pwr.pfwWarn = false → s.pwr.vddioWarn = false → Completes .sysPllLock s fun t =>
        t = { cleared s with pwr := { s.pwr with boot := .wiping, sysLock := true } }) ∧
      (s.pwr.pfwWarn = true ∨ s.pwr.vddioWarn = true → Completes .sysPllLock s fun t =>
        RestSame s t ∧ t.pwr.boot = .wiping ∧ t.pwr.sysLock = true ∧ t.pwr.brownout = true ∧ EventSet t 8)) ∧
    (s.pwr.boot ≠ .released → Completes .sysPllLock s fun t => t = cleared s) ∧
    (s.pwr.boot = .wiping →
      (s.pwr.brownout = true → Completes .wipeDone s fun t =>
        t = { cleared s with pwr := { s.pwr with boot := .wiped }, tap := { s.tap with ecc := [] } }) ∧
      (s.pwr.brownout = false → Completes .wipeDone s fun t =>
        t.pwr.boot = .identified ∧ t.tap.ecc = [] ∧ t.alm.ready = true ∧ t.regs = s.regs ∧
        (t.lcc.st, t.lcc.recErr) = lifeAtReset s ∧
        ((recCounts s .identity).isNone = true ∨ (recCounts s .lifeCycle).isNone = true → EventSet t 220) ∧
        (s.lcc.sealDue = false → t.lcc.armed = decide (recField s .seal 8 1 % 2 = 1) ∧
          t.lcc.broken = decide (recField s .seal 8 1 / 2 % 2 = 1)) ∧
        (s.lcc.retired = true → ∀ a, a < 0x800000 → mget 0 t.alm.mem a = 0) ∧
        (s.lcc.retired = false → s.lcc.sealDue = false → recField s .lifeCycle 9 1 % 2 = 0 → t.alm.mem = s.alm.mem))) ∧
    (s.pwr.boot ≠ .wiping → Completes .wipeDone s fun t => t = cleared s) ∧
    (s.pwr.boot = .identified → NothingQueued s →
      Completes .portsOpen s fun t =>
        t.pwr.boot = .opened ∧ t.pwr.st = .run ∧ t.alm = s.alm ∧ t.lcc = s.lcc ∧ t.rng = s.rng ∧ t.mer = s.mer ∧
        (∀ g : Seg, t.seg[g].sysresetTimer = true) ∧ (∀ g : Seg, gaParOk s g = false → EventSet t (segEv g 14)) ∧
        ((∀ p : Port, s.port[p].dlUp = false) →
          RestSame { s with port := t.port, seg := t.seg } t ∧ t.regs = s.regs ∧ ∀ p : Port, t.port[p] = { s.port[p] with crs := s.port[p].perst })) ∧
    (s.pwr.boot ≠ .identified → Completes .portsOpen s fun t => t = cleared s)

/-- R360, R364, R377: a PLL that loses lock takes its links with it and raises XFAULT; a lock is noted. A crossing that times out sets its
bit, and the operation that waited ends in error. A supply that falls below its level is shown and raises XFAULT once. The model's own
choices in it: log entries 1, 27. -/
def Obligations.ClockFaults : Prop :=
  ∀ s : State, Delivered s → s.pwr.boot = .opened →
    (s.pwr.serdesLock = true → Completes .serdesPllUnlock s fun t =>
      RestSame { s with rng := t.rng } t ∧ t.pwr.serdesLock = false ∧ (∀ rp : RingPort, t.rng.port[rp].lost = true) ∧ EventSet t 12 ∧
      ∀ rp : RingPort, s.rng.port[rp].lost = false → EventSet t (rgEv rp 2) ∧ EventSet t (rgEv rp 4)) ∧
    (s.pwr.serdesLock = false → Completes .serdesPllUnlock s fun t => t = cleared s) ∧
    (Completes .serdesPllLock s fun t =>
      t = if s.pwr.st = .hold ∨ getFld s .clk 0x050 2 2 = 1 then cleared s
        else { cleared s with pwr := { s.pwr with serdesLock := true } }) ∧
    (∀ p : Port,
      (s.port[p].phyLock = true → NothingQueued s → Completes (.phyPllUnlock p) s fun t =>
        t.port[p].phyLock = false ∧ t.port[p].dlUp = false ∧ t.ch[p].st.inService = false ∧ EventSet t 12 ∧ t.lom = s.lom ∧
        t.lcc = s.lcc ∧ t.rng = s.rng) ∧
      (s.port[p].phyLock = false → Completes (.phyPllUnlock p) s fun t => t = cleared s) ∧
      Completes (.phyPllLock p) s fun t =>
        t = { cleared s with port := t.port } ∧ t.port[p] = { s.port[p] with phyLock := true } ∧
        ∀ q, q ≠ p → t.port[q] = s.port[q]) ∧
    (∀ i : Fin 15, SlavesFree s →
      (i.val ≠ 4 → i.val ≠ 5 → i.val ≠ 10 → Completes (.xto i) s fun t =>
        RestSame s t ∧ OtherRegs .clk 0x04C s t ∧ getFld t .clk 0x04C i.val i.val = 1 ∧ EventSet t 12) ∧
      (∀ o : AlmOp, i.val = 10 → s.alm.op = some o → s.pwr.saveRun = false → s.lom.loading = none →
        s.lom.armState ≠ .marking → Completes (.xto i) s fun t =>
        RestSame { s with alm := t.alm } t ∧ OtherRegs .clk 0x04C s t ∧ getFld t .clk 0x04C 10 10 = 1 ∧ EventSet t 12 ∧
        EventSet t 211 ∧ t.alm.op = none ∧ t.alm.statOp = o.op ∧ t.alm.statResult = 7) ∧
      (∀ (g : Seg) (e : Eng), i.val = 4 + g.val → Quiet s → s.seg[g].eng = some e → e.driving = true → e.acc.origin = .mailbox →
        Completes (.xto i) s fun t =>
          getFld t .clk 0x04C i.val i.val = 1 ∧ t.seg[g].eng = none ∧ t.mnt = { s.mnt with legEnd := some (true, 1, []) } ∧
          EventSet t 12 ∧ EventSet t (segEv g 2))) ∧
    (∀ rail : Rail,
      (Completes (.vmonSupplyOk rail) s fun t => t = { cleared s with pwr := match rail with
        | .vddsa => { s.pwr with vddsaOk := true }
        | .vddsh => { s.pwr with vddshOk := true } }) ∧
      ((match rail with
        | .vddsa => s.pwr.vddsaOk
        | .vddsh => s.pwr.vddshOk) = true → Completes (.vmonSupplyLow rail) s fun t =>
        RestSame s t ∧ t.regs = s.regs ∧ EventSet t 12 ∧ (match rail with
          | .vddsa => t.pwr.vddsaOk
          | .vddsh => t.pwr.vddshOk) = false))

/-- R367, R368, R370: a power command is refused while the controller runs and its target is not RUN, in brownout hold and during a
transition; one that names the present state does nothing; any other makes its target the power state at once and begins the transition,
which ends with PSTATE_CHG; on the way to HOLD the ring falls silent, from RUN at the end of the transition. RESET resets the device.
CORE is gated again in HOLD and LISTEN. The model's own choices in it: log entries 1, 12, 26. -/
def Obligations.PowerCommands : Prop :=
  ∀ s : State, Calm s → s.pwr.boot = .opened → NothingQueued s → getFld s .glb 0x064 7 7 = 0 →
    (∀ (c : Instr) (n : Nat) (st : PowerState), (c, n, st) ∈ [(Instr.pcmdRun, 1, PowerState.run), (.pcmdListen, 2, .listen),
        (.pcmdHold, 3, .hold), (.pcmdReset, 4, .reset)] →
      ((st ≠ .run ∧ s.img.ctl = .running) ∨ s.pwr.brownout = true ∨ s.pwr.transit = true → Completes c s fun t =>
        RestSame { s with freeCount := s.freeCount + 1 } t ∧ EventSet t 3 ∧ t.pwr.st = s.pwr.st ∧
        ∃ r : Req, Captured .pwr 1 r 0x01 0x044 (BitVec.ofNat 32 n) s t) ∧
      (st = .run ∨ s.img.ctl ≠ .running → s.pwr.brownout = false → s.pwr.transit = false →
        (st = s.pwr.st → st ≠ .reset → Completes c s fun t => t = { cleared s with freeCount := s.freeCount + 1 }) ∧
        (st ≠ s.pwr.st → st ≠ .reset → s.pwr.st ≠ .reset → Completes c s fun t =>
          t.pwr.st = st ∧ t.pwr.transit = true ∧ t.pwr.fromRun = decide (s.pwr.st = .run) ∧ t.lcc = s.lcc ∧ t.alm = s.alm ∧
          (st = .hold → s.pwr.st ≠ .run → t.pwr.serdesLock = false ∧ t.rng.node = .listen ∧ ∀ rp : RingPort, t.rng.port[rp].signal = false)) ∧
        (st = .reset → Completes c s (HeldInReset 6 s)))) ∧
    (s.pwr.transit = true → transitReady s = true → Completes .pstateChg s fun t =>
      t.pwr.st = s.pwr.st ∧ t.pwr.transit = false ∧ t.pwr.fromRun = false ∧ t.lcc = s.lcc ∧ t.alm = s.alm ∧ t.ch = s.ch ∧ EventSet t 5 ∧
      (s.pwr.st = .hold → s.pwr.fromRun = true → t.pwr.serdesLock = false ∧ t.rng.node = .listen ∧
        ∀ rp : RingPort, t.rng.port[rp].signal = false)) ∧
    (s.pwr.transit = false ∨ transitReady s = false → Completes .pstateChg s fun t => t = cleared s) ∧
    (s.pwr.st = .hold ∨ s.pwr.st = .listen → s.pwr.fromRun = false → s.pwr.saveRun = false → s.pwr.saveDue = false →
      s.mnt.acc = none → (∀ p : Port, s.port[p].bar = []) → Completes .coreGate s fun t => t = { cleared s with pwr := { s.pwr with awake := false } }) ∧
    (s.pwr.st = .run ∨ s.pwr.saveRun = true ∨ s.mnt.acc ≠ none → Completes .coreGate s fun t => t = cleared s)

/-- R378, R379, R380, R402, R445: a warning begins one brownout episode, counted and timed; in reset it is only noted, and before CORE
starts the hold waits. The retain save that it asks for writes the retain area into its slot, with a valid trailer, or ends in error
where the image holds an uncorrectable word. The hold ends when the conditions have recovered and no save runs. The model's own choices
in it: log entries 1, 3, 25. -/
def Obligations.Warnings : Prop :=
  ∀ s : State, Delivered s →
    (∀ c : Supply,
      let low : Pwr := match c with
        | .pfw => { s.pwr with pfwLow := true }
        | .vddio => { s.pwr with vddioLow := true }
      let warned : Pwr := match c with
        | .pfw => { low with pfwWarn := true }
        | .vddio => { low with vddioWarn := true }
      (s.pwr.boot = .inReset → Completes (.warn c) s fun t => t = { cleared s with pwr := low }) ∧
      (s.pwr.boot = .released → Completes (.warn c) s fun t => t = { cleared s with pwr := warned }) ∧
      (s.pwr.boot = .opened → s.pwr.brownout = true → Completes (.warn c) s fun t =>
        t = { cleared s with pwr := { warned with recovering := false } }) ∧
      (s.pwr.boot = .opened → s.pwr.brownout = false → Completes (.warn c) s fun t =>
        RestSame s t ∧ t.pwr.brownout = true ∧ t.pwr.recovering = false ∧ t.pwr.saveDue = (willSave s && !s.pwr.saveRun) ∧
        EventSet t 8 ∧ getReg t .sup 0x048 = getReg s .sup 0x048 + 1 ∧ getReg t .sup 0x050 = timeFrac s ∧
        getReg t .sup 0x054 = timeSec s ∧ (CoreRuns s ∨ t.pwr.awake = true)) ∧
      (s.pwr.brownout = true → Completes (.warningReturnInHold c) s fun t =>
        t = { cleared s with pwr := { warned with recovering := false } }) ∧
      (s.pwr.brownout = false → Completes (.warningReturnInHold c) s fun t => t = cleared s)) ∧
    (Completes .recoveryTimeStart s fun t => t = { cleared s with pwr := { s.pwr with
      pfwLow := false, vddioLow := false, pfwWarn := false, vddioWarn := false, recovering := s.pwr.brownout } }) ∧
    (s.pwr.saveDue = true → s.img.runs = [] → s.pwr.saveRun = false → Completes .retainSaveStart s fun t =>
      t.pwr.saveRun = true ∧ t.pwr.saveDue = false ∧ (∃ i q, t.alm.saveSlot = some (i, q) ∧ (i = 2 ∨ i = 3) ∧
        slotValid t i = false ∧ AlmOnly (recRegion + trailerOff i) (recRegion + trailerOff i + 32) s t) ∧
      t.regs = s.regs ∧ t.img = s.img ∧ t.lcc = s.lcc) ∧
    (s.pwr.saveDue = false ∨ s.img.runs ≠ [] ∨ s.pwr.saveRun = true → Completes .retainSaveStart s fun t => t = cleared s) ∧
    (∀ (i : Nat) (q : Word), s.alm.saveSlot = some (i, q) → i = 2 ∨ i = 3 → 0 < retLen s.lom.act → retLen s.lom.act ≤ 0x40000 →
      s.pwr.boot = .opened → s.tap.ecc = [] → Completes .retainSaved s fun t =>
        t.pwr.saveRun = false ∧ t.alm.saveSlot = none ∧ EventSet t 213 ∧ slotValid t i = true ∧ slotSeq t i = q.toNat ∧
        almBytes t (slotBase i) (retLen s.lom.act) = imgBytes s (retBase s.lom.act) (retLen s.lom.act) ∧ t.regs = s.regs ∧
        t.lcc = s.lcc) ∧
    (∀ (i : Nat) (q : Word), s.alm.saveSlot = some (i, q) → imgBad s (retBase s.lom.act) (retLen s.lom.act) = true →
      s.pwr.boot = .opened → Completes .retainSaved s fun t =>
        t.pwr.saveRun = false ∧ t.alm.saveSlot = none ∧ EventSet t 214 ∧ t.lcc = s.lcc ∧
        AlmOnly (slotBase i) (slotBase i + retLen s.lom.act) s t ∧
        (∀ o : AlmOp, s.alm.op = some o → s.alm.saveByOp = true →
          t.alm.op = none ∧ t.alm.statResult = 7 ∧ EventSet t 211)) ∧
    (s.alm.saveSlot = none → Completes .retainSaved s fun t => t = cleared s) ∧
    (s.pwr.brownout = true → s.pwr.recovering = true → s.pwr.saveRun = false → s.pwr.saveDue = false → NothingQueued s →
      s.pwr.boot = .opened → Completes .recover s fun t =>
        t.pwr.brownout = false ∧ t.pwr.recovering = false ∧ EventSet t 9 ∧ t.regs = s.regs ∧ t.img = s.img ∧
        (s.lcc.sealDue = false → s.lom.markDue = [] → s.alm.op = none → t.lcc = s.lcc ∧ t.alm = s.alm)) ∧
    (s.pwr.brownout = false ∨ s.pwr.recovering = false ∨ s.pwr.saveRun = true ∨ s.pwr.saveDue = true →
      Completes .recover s fun t => t = cleared s)
/-! Life cycle, presence, seal, Almanac (chapter 14) -/

/-- R387, R388, R389, R393, R394: a life-cycle or seal command is refused by the first reason that holds, with REFUSE, LOCK_VIOL and the
capture, and changes nothing else. One that is accepted writes its record, takes its state, wipes its memories and starts its
transition. The fuse's verification goes on with the transition or ends it with REFUSE 0xB; the transition's end wipes the Almanac that
its row names, rewrites the record and sets LC_ALERT. The model's own choices in it: log entries 1, 47, 54. -/
def Obligations.LifeCycle : Prop :=
  ∀ (r : Req) (conf : BitVec 16) (s : State), Calm s → Writer r s → FreePage r .lcc s →
    let open_ := s.lcc.st == .commissioning || s.lcc.st == .maintenance
    let shared (row : Bool) (no : Nat) : Nat :=
      if s.lcc.presence = false then 1 else if row = false then no else if s.lcc.trans.isSome = true ∨ s.lcc.wiping = true then 3
      else if s.lom.armState = .marking ∨ s.lom.armState = .armed then 4 else if s.pwr.brownout = true then 0xA else 0
    let first (a : Nat) (bs : List (Bool × Nat)) : Nat := if a = 0 then ((bs.find? (·.1)).map (·.2)).getD 0 else a
    let refused (op code c : Nat) (t : State) : Prop :=
      RestSame { s with lcc := { s.lcc with refuse := code } } t ∧ EventSet t 13 ∧
        Captured .lcc 1 r 0x02 0x044 (BitVec.ofNat 32 (op + c * 65536)) s t
    let record (st wipe : Nat) (t : State) : Prop :=
      AlmOnly (recRegion + 0x40) (recRegion + 0x80) s t ∧
        (RecordRoom s .lifeCycle → recField t .lifeCycle 8 1 = st ∧ recField t .lifeCycle 9 1 = wipe)
    let wiped (t : State) : Prop :=
      t.img.mem = [] ∧ t.img.build = [] ∧ t.frc = ⟨[], []⟩ ∧ t.lom.act = wsetEmpty ∧ t.lom.stby = wsetEmpty ∧ t.lom.run = false
    let c1 := shared (s.lcc.st == .blank || s.lcc.st == .maintenance) 2
    let n1 := first c1 [(s.lcc.st == .maintenance && s.img.ctl != .stopped, 5)]
    let c2 := shared open_ 2
    let n2 := first c2 [(s.lom.act.src == 0 || s.lom.volatile, 6), ((recCounts s .identity).isNone, 7),
      (s.lcc.armed && s.lcc.broken, 8)]
    let n3 := shared (s.lcc.st == .service) 2
    let n4 := first c2 [(s.img.ctl != .stopped, 5), (conf.toNat != s.lcc.uid.toNat % 65536, 9)]
    let n5 (op : Nat) := first (shared open_ 0xC) [(op == 7 && s.lcc.loopBad, 8)]
    (n1 ≠ 0 → Completes (.lcToCommissioning r) s (refused 1 n1 0)) ∧
    (n1 = 0 →
      (s.lcc.st = .blank → Completes (.lcToCommissioning r) s fun t =>
        t = { reached r s with alm := t.alm, lcc := { s.lcc with st := .commissioning, trans := some ⟨1, .commissioning, true⟩ } } ∧
        record 1 0 t) ∧
      (s.lcc.st = .maintenance → Completes (.lcToCommissioning r) s fun t =>
        t.lcc = { s.lcc with
          st := .commissioning, trans := some ⟨1, .commissioning, false⟩, wiping := true, wipeBlocks := 1664 } ∧
        wiped t ∧ record 1 1 t ∧ t.vot.mode ≠ .m1oo1)) ∧
    (n2 ≠ 0 → Completes (.lcToService r) s (refused 2 n2 0)) ∧
    (n2 = 0 → Completes (.lcToService r) s fun t =>
      t.lcc = { s.lcc with st := .service, trans := some ⟨2, .service, false⟩ } ∧ record 2 0 t ∧ t.vot.mode ≠ .m1oo1 ∧
      t.tap.taken = false ∧ t.lom.act = s.lom.act ∧ t.lom.stby = (if s.lom.stby.modified then wsetEmpty else s.lom.stby) ∧
      ∀ off ∈ [0x058, 0x05C, 0x060, 0x064], getReg t .mnt off = 0) ∧
    (n3 ≠ 0 → Completes (.lcToMaintenance r) s (refused 3 n3 0)) ∧
    (n3 = 0 → Completes (.lcToMaintenance r) s fun t =>
      t = { reached r s with
        alm := t.alm, regs := t.regs, lcc := { s.lcc with st := .maintenance, trans := some ⟨3, .maintenance, false⟩ } } ∧
      record 3 0 t ∧ ∀ off ∈ [0x058, 0x05C, 0x060, 0x064], getReg t .mnt off = 0) ∧
    (n4 ≠ 0 → Completes (.lcToRetired r conf) s (refused 4 n4 conf.toNat)) ∧
    (n4 = 0 → Completes (.lcToRetired r conf) s fun t =>
      t = { reached r s with lcc := { s.lcc with trans := some ⟨4, .retired, true⟩ } }) ∧
    (∀ (c : Instr) (op : Nat), (c, op) ∈ [(Instr.sealArm r, 5), (.sealDisarm r, 6), (.sealClear r, 7)] →
      (n5 op ≠ 0 → Completes c s (refused op (n5 op) 0)) ∧
      (n5 op = 0 → Completes c s fun t =>
        t = { reached r s with alm := t.alm, lcc := { s.lcc with
          armed := if op = 5 then true else if op = 6 then false else s.lcc.armed,
          broken := if op = 7 then false else s.lcc.broken } } ∧
        AlmOnly (recRegion + 0x80) (recRegion + 0xC0) s t ∧
        (RecordRoom s .seal → recField t .seal 8 1 = bnat t.lcc.armed + 2 * bnat t.lcc.broken + 4 * bnat t.lcc.noTime))) ∧
    (∀ (ok : Bool) (x : LcTrans), s.lcc.trans = some x → x.fuse = true →
      (x.target = .retired → ok = true → Completes (.fuseVerifyDone ok) s fun t =>
        t.lcc = { s.lcc with
          st := .retired, retired := true, trans := some { x with fuse := false }, wiping := true, wipeBlocks := 1792 } ∧ wiped t) ∧
      (x.target = .commissioning → ok = true → Completes (.fuseVerifyDone ok) s fun t =>
        t = { cleared s with lcc := { s.lcc with commissioned := true, trans := some { x with fuse := false } } }) ∧
      (x.target = .retired ∨ x.target = .commissioning → ok = false → Completes (.fuseVerifyDone ok) s fun t =>
        t = { cleared s with lcc := { s.lcc with
          refuse := 0xB, trans := none, st := if x.target = .retired then s.lcc.st else .blank } })) ∧
    (∀ x : LcTrans, s.lcc.trans = some x → x.fuse = false → s.pwr.brownout = false → Completes .lcAlert s fun t =>
      RestSame { s with alm := t.alm, lcc := { s.lcc with trans := none, wiping := false, wipeBlocks := 0 } } t ∧ t.regs = s.regs ∧
      EventSet t 15 ∧ (x.target = .retired → ∀ a, a < 0x800000 → mget 0 t.alm.mem a = 0) ∧
      (x.target ≠ .retired → s.lcc.wiping = true → ∀ a, a < 0x680000 → mget 0 t.alm.mem a = 0) ∧
      (x.target ≠ .retired → s.lcc.wiping = false → record x.target.code 0 t)) ∧
    (s.lcc.trans = none → (∀ ok : Bool, Completes (.fuseVerifyDone ok) s fun t => t = cleared s) ∧
      Completes .lcAlert s fun t => t = cleared s)

/-- R390, R392, R393: presence is asserted, released and times out, each change with LC_ALERT; after a time-out it stays released until the
pin is released. A seal check drives the next 16 bits of the sequence and compares what the loop returns; the fourth failure in a row
breaks the seal. The model's own choices in it: log entries 1, 17, 52. -/
def Obligations.PresenceAndSeal : Prop :=
  ∀ s : State, Delivered s → s.pwr.boot = .opened → s.pwr.seqRun = false →
    (s.lcc.presence = false → s.lcc.timedOut = false → Completes .presenceAssert s fun t =>
      RestSame { s with lcc := { s.lcc with presPin := true, presence := true } } t ∧ t.regs = s.regs ∧ EventSet t 15) ∧
    (s.lcc.presence = true ∨ s.lcc.timedOut = true → Completes .presenceAssert s fun t =>
      t = { cleared s with lcc := { s.lcc with presPin := true } }) ∧
    (s.lcc.presence = true → Completes .presenceRelease s fun t =>
      RestSame { s with lcc := { s.lcc with presPin := false, timedOut := false, presence := false } } t ∧ t.regs = s.regs ∧
      EventSet t 15) ∧
    (s.lcc.presence = false → Completes .presenceRelease s fun t =>
      t = { cleared s with lcc := { s.lcc with presPin := false, timedOut := false } }) ∧
    (s.lcc.presence = true → Completes .presenceTimeout s fun t =>
      RestSame { s with lcc := { s.lcc with presence := false, timedOut := true } } t ∧ t.regs = s.regs ∧ EventSet t 15) ∧
    (s.lcc.presence = false → Completes .presenceTimeout s fun t => t = cleared s) ∧
    ∀ sampled : BitVec 16,
      (s.lcc.armed = false → Completes (.sealCheck sampled) s fun t => t = cleared s) ∧
      (s.lcc.armed = true →
        (sampled = sealNext s → Completes (.sealCheck sampled) s fun t =>
          t = { s with out := [.seal (sealNext s)], lcc := { s.lcc with lfsr := sealNext s, failRun := 0, loopBad := false } }) ∧
        (sampled ≠ sealNext s →
          (s.lcc.failRun ≠ 3 → Completes (.sealCheck sampled) s fun t =>
            t = { s with out := [.seal (sealNext s)], lcc := { s.lcc with
              lfsr := sealNext s, failRun := min 15 (s.lcc.failRun + 1), failSeen := true, loopBad := decide (3 ≤ s.lcc.failRun),
              firstFail := if s.lcc.failRun = 0 then time64 s else s.lcc.firstFail } }) ∧
          (s.lcc.failRun = 3 → Completes (.sealCheck sampled) s fun t =>
            [.seal (sealNext s)] <+: t.out ∧ t.lcc.broken = true ∧ t.lcc.loopBad = true ∧ t.lcc.failRun = 4 ∧
            t.lcc.breakCount = s.lcc.breakCount + 1 ∧ t.lcc.breakTime = s.lcc.firstFail ∧ t.lcc.noTime = false ∧ EventSet t 15 ∧
            (if s.pwr.brownout then t.lcc.sealDue = true ∧ t.alm = s.alm
             else t.lcc.sealDue = s.lcc.sealDue ∧ AlmOnly (recRegion + 0x80) (recRegion + 0xC0) s t ∧
              (RecordRoom s .seal → recField t .seal 8 1 / 2 % 2 = 1)) ∧
            t.regs = s.regs ∧ t.seg = s.seg ∧ t.lom = s.lom)))

/-- R248, R398, R400, R401, R403, R407: an Almanac operation is refused by the first reason that holds, with its RESULT and event; else it
starts. A write or an invalidation leaves its slot invalid until its end; a write that has its data ends with a valid trailer over them.
ABORT and a gap in the stream end a write with RESULT 0x6. A refresh step counts on, corrects the words of its block, reports those that
it cannot correct, and waits while its block is being written. The model's own choices in it: log entries 1, 47, 48. -/
def Obligations.AlmanacOperations : Prop :=
  ∀ (r : Req) (s : State), Calm s → Writer r s → FreePage r .alm s →
    let slot := (getReg s .alm 0x04C).toNat % 2
    let len := getFld s .alm 0x050 21 0
    let ops := [(Instr.writeWeave r, 1), (.invalidateWeave r, 2), (.saveRetain r, 3), (.invalidateRetain r, 4), (.writeIdent r, 5)]
    let cms := s.lcc.st = .commissioning ∨ s.lcc.st = .service ∨ s.lcc.st = .maintenance
    let may (op : Nat) : Prop :=
      (op ≤ 3 ∧ cms) ∨ (op = 4 ∧ (s.lcc.st = .commissioning ∨ s.lcc.st = .maintenance)) ∨
        (op = 5 ∧ s.lcc.st = .commissioning ∧ s.lcc.presence = true)
    let refused (op res : Nat) (t : State) : Prop :=
      RestSame { s with alm := { s.alm with statOp := op, statResult := res, statWords := 0 } } t ∧ t.regs = s.regs ∧
        EventSet t (if res = 2 then 221 else 211)
    let badLen := len % 8 ≠ 0 ∨ len < 8 ∨ 3145728 < len
    let idle := s.pwr.st = .run ∧ s.alm.op = none
    let accepted (op : Nat) (t : State) : Prop :=
      (∃ q, t.alm.op = some ⟨op, slot, len, r.val, 0, none, q⟩) ∧ t.alm.statOp = op ∧ t.alm.statResult = 0 ∧ t.alm.statWords = 0 ∧
        t.pwr.almGated = false ∧ t.regs = s.regs ∧ t.img = s.img ∧ t.lcc = s.lcc ∧ t.lom = s.lom
    let ended (o : AlmOp) (res : Nat) (t : State) : Prop :=
      t.alm.op = none ∧ t.alm.statOp = o.op ∧ t.alm.statResult = res ∧ EventSet t (if res = 1 then 210 else 211) ∧ t.regs = s.regs ∧
        t.img = s.img ∧ t.lcc = s.lcc
    (∀ (c : Instr) (op : Nat), (c, op) ∈ ops →
      (s.pwr.st ≠ .run ∨ s.alm.op ≠ none → Completes c s (refused op 4)) ∧
      (idle → ¬ may op → Completes c s (refused op 3)) ∧
      (idle → may op →
        (op = 3 → activePresent s = false ∨ getFld s .alm 0x060 0 0 ≠ 1 → Completes c s (refused op 8)) ∧
        (op = 1 → badLen → Completes c s (refused op 5)) ∧
        (op = 1 ∧ ¬ badLen ∨ op = 2 →
          (protectedSlot s slot = true → Completes c s (refused op 2)) ∧
          (protectedSlot s slot = false → s.lom.loading = some (some slot) → Completes c s (refused op 4)) ∧
          (protectedSlot s slot = false → s.lom.loading ≠ some (some slot) →
            (op = 1 → Completes c s fun t => accepted op t ∧ slotValid t slot = false ∧
              AlmOnly (recRegion + trailerOff slot) (recRegion + trailerOff slot + 32) s t) ∧
            (op = 2 → Completes c s fun t => accepted op t ∧ t.alm.mem = s.alm.mem))) ∧
        (op = 3 → activePresent s = true → getFld s .alm 0x060 0 0 = 1 → Completes c s fun t => accepted op t ∧
          (s.pwr.saveRun = false → s.pwr.brownout = false → t.pwr.saveRun = true ∧ t.alm.saveByOp = true ∧
            ∃ i q, t.alm.saveSlot = some (i, q) ∧ (i = 2 ∨ i = 3) ∧ slotValid t i = false)) ∧
        (op = 4 ∨ op = 5 → Completes c s fun t => accepted op t ∧ t.alm.mem = s.alm.mem))) ∧
    (s.pwr.st ≠ .run → Completes (.almAbort r) s (refused 6 4)) ∧
    (∀ o : AlmOp, s.alm.op = some o → o.op = 1 → s.pwr.st = .run →
      (r.val = 4 ∨ o.req = r.val → Completes (.almAbort r) s fun t => ended o 6 t ∧ t.alm.mem = s.alm.mem) ∧
      (r.val ≠ 4 → o.req ≠ r.val → Completes (.almAbort r) s fun t => t = reached r s) ∧
      (8 * o.words < o.len → Completes .weaveStreamGapTimeout s fun t => ended o 6 t ∧ t.alm.mem = s.alm.mem) ∧
      (o.len ≤ 8 * o.words → Completes .weaveStreamGapTimeout s fun t => t = cleared s)) ∧
    (s.alm.op = none → (s.pwr.st = .run → Completes (.almAbort r) s fun t => t = reached r s) ∧
      (Completes .weaveStreamGapTimeout s fun t => t = cleared s) ∧ Completes .opDone s fun t => t = cleared s) ∧
    (∀ o : AlmOp, s.alm.op = some o → s.pwr.brownout = false →
      (o.op = 1 → o.slot < 2 → 0 < o.len → o.len ≤ 3145728 → o.len ≤ 8 * o.words → Completes .opDone s fun t =>
        ended o 1 t ∧ slotValid t o.slot = true ∧ slotLen t o.slot = o.len ∧ slotSeq t o.slot = o.seq.toNat ∧
        almBytes t (slotBase o.slot) o.len = almBytes s (slotBase o.slot) o.len ∧
        (s.lom.act.src = o.slot + 1 → t.lom.act.src = 0 ∧ t.lom.volatile = true) ∧
        (s.lom.stby.src = o.slot + 1 → t.lom.stby.src = 0)) ∧
      (o.op = 1 → 8 * o.words < o.len → Completes .opDone s fun t => t = cleared s) ∧
      (o.op = 2 → o.slot < 2 → Completes .opDone s fun t => ended o 1 t ∧ slotValid t o.slot = false ∧
        AlmOnly (recRegion + trailerOff o.slot) (recRegion + trailerOff o.slot + 32) s t) ∧
      (o.op = 3 → s.pwr.saveRun = false → s.alm.saveByOp = false → Completes .opDone s fun t => ended o 1 t ∧
        t.alm.mem = s.alm.mem ∧ t.alm.statWords = retLen s.lom.act / 8) ∧
      (o.op = 4 → Completes .opDone s fun t => ended o 1 t ∧ slotValid t 2 = false ∧ slotValid t 3 = false ∧
        AlmOnly (recRegion + 0x140) (recRegion + 0x180) s t) ∧
      (o.op = 5 → Completes .opDone s fun t => ended o 1 t ∧ AlmOnly recRegion (recRegion + 0x40) s t ∧
        (RecordRoom s .identity → recField t .identity 8 2 = (getReg s .alm 0x04C).toNat % 65536 ∧
          recField t .identity 10 2 = (getReg s .alm 0x04C).toNat / 65536))) ∧
    (s.pwr.brownout = true → Completes .opDone s fun t => t = cleared s) ∧
    (s.lcc.st ≠ .retired → s.pwr.brownout = false → blockWritten s (refreshBlock s) = false → Completes .refreshStep s fun t =>
      RestSame { s with alm := { s.alm with mem := t.alm.mem, ecc := t.alm.ecc } } t ∧ t.regs = s.regs ∧
      AlmOnly (recRegion + 0x180) (recRegion + 0x1C0) s t ∧ (∀ e ∈ t.alm.ecc, e ∈ s.alm.ecc) ∧
      (∀ e ∈ s.alm.ecc, e.1 / 512 = refreshBlock s →
        (e.2 = true → EventSet t 219) ∧ (e.2 = false → EventSet t 218 ∧ e ∉ t.alm.ecc)) ∧ (refreshBlock s = 1791 → EventSet t 216) ∧
      ((∀ a, recCounts s .wear = some a → recSeq s a + 2 ^ 20 < 2 ^ 32) →
        refreshBlock t = if refreshBlock s = 1791 then 0 else (refreshBlock s + 1) % 65536)) ∧
    (s.lcc.st = .retired ∨ s.pwr.brownout = true ∨ blockWritten s (refreshBlock s) = true → Completes .refreshStep s fun t => t = cleared s)

/-! The event log, the scrubber, the test access port (chapters 12 and 15) -/

/-- R347, R348, R350, R351, R352, R389, R418, R423: a cell that is being filled is closed; the oldest record of a closed cell takes its SEQ
and is stored with its CRC, and in RETIRED it is lost; a port that is slow is skipped; the scan after a reset sets LOG_WR and begins the
restart. A scrub visit reports an uncorrectable word and corrects a correctable one. The test access port loads its instructions. The
model's own choices in it: log entries 1, 28, 49, 50. -/
def Obligations.LogAndTest : Prop :=
  ∀ s : State, Delivered s → s.pwr.boot = .opened → ListsGood s →
    (∀ (p : Pkt) (ps : List Pkt), listPkts s 26 = ps ++ [p] → p.eop = false → Completes .logCellClose s fun t =>
      t = { cleared s with crl := t.crl } ∧ listPkts t 26 = ps ++ [{ p with eop := true }]) ∧
    (listPkts s 26 = [] → (Completes .logCellClose s fun t => t = cleared s) ∧ Completes .logRecordStore s fun t => t = cleared s) ∧
    (∀ (p : Pkt) (ps : List Pkt), listPkts s 26 = p :: ps → p.sent + 32 ≤ p.data.length → p.eop = true → s.evh.scanning = false →
      s.pwr.brownout = false → domGate s 3 = 0 → s.tap.ecc = [] →
      let seq := s.evh.logWr.toNat
      let b (t : State) : List Byte := almBytes t (0x680000 + seq % 8192 * 32) 32
      (s.lcc.st ≠ .retired → Completes .logRecordStore s fun t =>
        t.evh.logWr = s.evh.logWr + 1 ∧ natLE ((b t).take 4) = seq ∧ ((b t).drop 4).take 9 = (p.data.drop (p.sent + 4)).take 9 ∧
        (((b t).drop 13).take 1 = [if s.evh.lostNext = 0 then 0#8 else 1#8]) ∧ natLE (((b t).drop 14).take 2) = min 0xFFFF s.evh.lostNext ∧
        ((b t).drop 16).take 12 = (p.data.drop (p.sent + 16)).take 12 ∧ natLE ((b t).drop 28) = (crc32c ((b t).take 28)).toNat ∧
        t.regs = s.regs ∧ (seq % 8192 ≠ 8191 → AlmOnly (0x680000 + seq % 8192 * 32) (0x680000 + seq % 8192 * 32 + 32) s t)) ∧
      (s.lcc.st = .retired → (p.data.getD (p.sent + 12) 0).toNat ≠ 227 → Completes .logRecordStore s fun t =>
        RestSame s t ∧ t.regs = s.regs ∧ t.evh.logWr = s.evh.logWr ∧ EventSet t 227)) ∧
    (s.evh.scanning = true ∨ s.pwr.brownout = true ∨ domGate s 3 ≠ 0 → Completes .logRecordStore s fun t => t = cleared s) ∧
    (∀ p : Port, (∃ q : Port, q ≠ p ∧ ∃ e ∈ s.tx[q].waiting, e.1 = 1) → Completes (.replSkip p) s fun t =>
      t = { cleared s with tx := t.tx } ∧ t.tx[p] = { s.tx[p] with waiting := s.tx[p].waiting.filter fun e => e.1 != 1 } ∧
      ∀ q, q ≠ p → t.tx[q] = s.tx[q]) ∧
    (s.evh.scanning = true → s.pwr.brownout = false → getFld s .glb 0x064 7 7 = 0 → Completes .logStart s fun t =>
      t.evh.scanning = false ∧ t.evh.logRd = t.evh.logWr ∧ t.img.restarting = true ∧ t.img.ctl = .waiting ∧
      t.img.restartCold = restartIsCold s ∧
      t.evh.logWr = (match newestRecord (validRecords s) with
        | some x => BitVec.ofNat 32 (x.2 + 1)
        | none => 0)) ∧
    (s.evh.scanning = false ∨ s.pwr.brownout = true → Completes .logStart s fun t => t = cleared s) ∧
    (∀ (m : Fin 8) (w : Nat), getFld s .cnt 0x004 0 0 = 1 → domGate s 0 = 0 → w < memWords m.val →
      let passes (t : State) : Prop := mget 0 t.evh.memErr (4 * m.val + 3) =
        mget 0 s.evh.memErr (4 * m.val + 3) + if w + 1 = memWords m.val then 1 else 0
      (s.tap.ecc = [] → Completes (.scrubVisit m w) s fun t =>
        t = { cleared s with tap := { s.tap with scrubMem := m.val }, evh := { s.evh with memErr := t.evh.memErr } } ∧ passes t) ∧
      (s.tap.ecc = [(m.val * 2 ^ 24 + w, true)] → Completes (.scrubVisit m w) s fun t =>
        RestSame { s with tap := { s.tap with scrubMem := m.val } } t ∧ EventSet t 231 ∧ t.regs = s.regs ∧ passes t) ∧
      (s.tap.ecc = [(m.val * 2 ^ 24 + w, false)] → Completes (.scrubVisit m w) s fun t =>
        RestSame { s with tap := { s.tap with scrubMem := m.val, ecc := [] } } t ∧ passes t ∧
        if m.val = 0 then OtherRegs .img 0x060 s t ∧ getReg t .img 0x060 = getReg s .img 0x060 + 1 else t.regs = s.regs)) ∧
    (∀ (m : Fin 8) (w : Nat), getFld s .cnt 0x004 0 0 = 0 ∨ domGate s 0 ≠ 0 ∨ memWords m.val ≤ w →
      Completes (.scrubVisit m w) s fun t => t = cleared s) ∧
    (∀ ir : BitVec 6, Completes (.tapUpdateIr ir) s fun t =>
      (∃ i k : Bool, RestSame { s with tap := { s.tap with tlr := i, ir := t.tap.ir, taken := k } } t ∧ i = false ∧ k = t.tap.taken) ∧
      t.regs = s.regs ∧
      (ir ∈ [0x00#6, 0x04#6, 0x05#6, 0x06#6, 0x07#6] →
        (s.lcc.st ≠ .service → t.tap.ir = ir ∧ t.tap.taken = true) ∧
        (s.lcc.st = .service → t.tap.ir = 0x3F#6 ∧ t.tap.taken = false)) ∧
      (ir = 0x01 ∨ ir = 0x02 → t.tap.ir = ir ∧ t.tap.taken = false) ∧
      (ir ∉ [0x00#6, 0x01#6, 0x02#6, 0x04#6, 0x05#6, 0x06#6, 0x07#6] → t.tap.ir = 0x3F#6 ∧ t.tap.taken = false)) ∧
    Completes .tapReset s fun t => t = { cleared s with tap := { s.tap with tlr := true, ir := 0x01, taken := false } }
/-! The maintenance port (chapter 2) -/

/-- R52, R53, R54, R55, R57: a frame of wrong length is counted in ABORTS, one of wrong CRC in CRC_ERRS, and neither is executed; nor is a
frame that finds the port busy; the response that leaves meanwhile says what became of the frame before. Any other frame is counted and
starts its access, or is answered with ACC_ERR outside the view. The model's own choices in it: log entries 8, 12. -/
def Obligations.MaintenanceFrames : Prop :=
  ∀ (clocks : Nat) (space : Bool) (off : BitVec 25) (d : Word) (cmd : BitVec 3) (crc : BitVec 8) (s : State), Calm s →
    s.pwr.boot ≠ .inReset →
    let bits (c : Nat) (d : Word) : DWord :=
      BitVec.ofNat 64 (c * 2 ^ 61 + bnat space * 2 ^ 60 + off.toNat * 2 ^ 32 + d.toNat)
    let busy := s.mnt.acc.isSome || s.pwr.boot != .opened
    let shown := s.mnt.valid && !busy && !s.mnt.crcErr && !s.mnt.abort
    let response (t : State) : Prop := ∃ w : BitVec 72, [.miso w] <+: t.out ∧ w.extractLsb' 0 8 = crc8 (w.extractLsb' 8 64) ∧
      w.getLsbD 71 = shown ∧ w.getLsbD 70 = s.mnt.crcErr ∧ w.getLsbD 69 = (shown && s.mnt.accErr) ∧ w.getLsbD 68 = busy ∧
      w.getLsbD 67 = s.mnt.abort ∧ w.getLsbD 66 = (shown && s.mnt.written) ∧
      (shown = true → w.extractLsb' 8 32 = s.mnt.data ∧ (w.extractLsb' 40 24).toNat = s.mnt.echo % 2 ^ 24)
    let noted (crcErr abort : Bool) (t : State) : Prop :=
      RestSame { s with freeCount := t.freeCount, mnt := { s.mnt with crcErr := crcErr, abort := abort } } t ∧ response t
    let rows : List (Instr × Nat × Word × Option MntAcc) :=
      [(.mntRead clocks space ⟨off, d⟩ crc, 0, d, some ⟨false, false, space, off.toNat, 0⟩),
       (.mntWrite clocks space off d crc, 1, d, some ⟨true, false, space, off.toNat, d⟩),
       (.mntGuardedWrite clocks space off d crc, 2, d, some ⟨true, true, space, off.toNat, d⟩)]
    (∀ x ∈ rows,
      (clocks ≠ 72 → Completes x.1 s fun t => noted false true t ∧ OtherRegs .mnt 0x048 s t ∧
        getReg t .mnt 0x048 = getReg s .mnt 0x048 + 1 ∧ EventSet t 243) ∧
      (clocks = 72 → crc8 (bits x.2.1 x.2.2.1) ≠ crc → Completes x.1 s fun t => noted true false t ∧ OtherRegs .mnt 0x044 s t ∧
        getReg t .mnt 0x044 = getReg s .mnt 0x044 + 1 ∧ EventSet t 242) ∧
      (clocks = 72 → crc8 (bits x.2.1 x.2.2.1) = crc →
        (busy = true → Completes x.1 s fun t => noted false false t ∧ t.regs = s.regs) ∧
        (busy = false → Completes x.1 s fun t => response t ∧ OtherRegs .mnt 0x040 s t ∧
          getReg t .mnt 0x040 = getReg s .mnt 0x040 + 1 ∧ RestSame { s with freeCount := t.freeCount, mnt := t.mnt } t ∧
          (if off.toNat % 4 ≠ 0 ∨ (space = false ∧ 0x100000 ≤ off.toNat) ∨ (space = true ∧ x.2.1 = 2) then
            t.mnt.acc = none ∧ t.mnt.valid = true ∧ t.mnt.accErr = true ∧ t.mnt.written = false
          else t.mnt = { s.mnt with crcErr := false, abort := false, acc := x.2.2.2 })))) ∧
    (clocks ≠ 72 → Completes (.mntReadStatus clocks ⟨cmd, space, off, d⟩ crc) s fun t => noted false true t ∧ OtherRegs .mnt 0x048 s t ∧
      getReg t .mnt 0x048 = getReg s .mnt 0x048 + 1 ∧ EventSet t 243) ∧
    (clocks = 72 → crc8 (bits cmd.toNat d) ≠ crc → Completes (.mntReadStatus clocks ⟨cmd, space, off, d⟩ crc) s fun t =>
      noted true false t ∧ OtherRegs .mnt 0x044 s t ∧ getReg t .mnt 0x044 = getReg s .mnt 0x044 + 1 ∧ EventSet t 242) ∧
    (clocks = 72 → crc8 (bits cmd.toNat d) = crc →
      (busy = true → Completes (.mntReadStatus clocks ⟨cmd, space, off, d⟩ crc) s fun t => noted false false t ∧ t.regs = s.regs) ∧
      (busy = false → Completes (.mntReadStatus clocks ⟨cmd, space, off, d⟩ crc) s fun t => response t ∧ OtherRegs .mnt 0x040 s t ∧
        getReg t .mnt 0x040 = getReg s .mnt 0x040 + 1 ∧ RestSame { s with freeCount := t.freeCount, mnt := t.mnt } t ∧
        (cmd.toNat = 3 → t.mnt = { s.mnt with crcErr := false, abort := false }) ∧
        (3 < cmd.toNat → t.mnt.acc = none ∧ t.mnt.valid = true ∧ t.mnt.accErr = true)))

/-- R55, R56, R57, R58: the access of a frame is performed with requester 4's rights and its result held: reads of ID and of BAR2, writes of
EVENT_EN and of a guarded register, a write that LOCK refuses. The mailbox refuses an access that the life cycle or the pattern forbids,
starts any other, and shows its end. The model's own choices in it: log entries 1, 8, 12, 21, 30. -/
def Obligations.MaintenanceAccesses : Prop :=
  ∀ s : State, Calm s → s.pwr.boot = .opened →
    (s.mnt.acc = none → Completes .mntAccessDone s fun t => t = cleared s) ∧
    (∀ k : PageKind, s.mnt.acc = some ⟨false, false, false, regAddr k 0x000, 0⟩ → Completes .mntAccessDone s fun t =>
      t = { cleared s with mnt := { s.mnt with
        acc := none, valid := true, accErr := false, written := false, echo := regAddr k 0x000,
        data := BitVec.ofNat 32 (k.typ * 2 ^ 24 + k.inst * 2 ^ 16 + 0x0100) } }) ∧
    (∀ off, off < 2 ^ 24 → s.tap.ecc = [] → s.mnt.acc = some ⟨false, false, true, off, 0⟩ → Completes .mntAccessDone s fun t =>
      t = { cleared s with mnt := { s.mnt with
        acc := none, valid := true, accErr := false, written := false, echo := off, data := wordLE (bar2Bytes s off 4) } }) ∧
    (∀ (k : PageKind) (d : Word), k ≠ .cntu → heldIn s 4 k = none →
      (s.mnt.acc = some ⟨true, false, false, regAddr k 0x014, d⟩ → Completes .mntAccessDone s fun t =>
        t = { cleared s with regs := t.regs, mnt := { s.mnt with
          acc := none, valid := true, accErr := false, written := true, echo := regAddr k 0x014, data := d } } ∧
        OtherRegs k 0x014 s t ∧ getReg t k 0x014 = (getReg s k 0x014 &&& 0xFF000000#32) ||| (d &&& 0x00FFFFFF#32)) ∧
      (s.mnt.acc = some ⟨true, false, false, regAddr k 0x018, d⟩ → getFld s k 0x018 0 0 = 1 → Completes .mntAccessDone s fun t =>
        RestSame { s with mnt := { s.mnt with
          acc := none, valid := true, accErr := true, written := false, echo := regAddr k 0x018, data := d } } t ∧
        Captured k 1 4 k.num 0x018 d s t ∧ EventSet t k.events.1) ∧
      (s.mnt.acc = some ⟨true, true, false, regAddr .cnt 0x040, d⟩ → k = .cnt → Completes .mntAccessDone s fun t =>
        t = { cleared s with bus := t.bus, regs := t.regs, mnt := { s.mnt with
          acc := none, valid := true, accErr := false, written := true, echo := regAddr .cnt 0x040, data := d } } ∧
        heldIn t 4 .cnt = none ∧ OtherRegs .cnt 0x040 s t ∧
        getReg t .cnt 0x040 = (getReg s .cnt 0x040 &&& 0xFFFFFFF0#32) ||| (d &&& 0xF#32))) ∧
    (∀ d : Word,
      let idx := fieldOf d 15 0
      let e := patEntry s.lom.act idx
      let p := patOf e
      let off := getFld s .mnt 0x054 11 0
      let n := 2 ^ fieldOf d 18 16
      let write := bitAt d 30
      let a : Acc := {
        origin := .mailbox, place := .mailbox, queue := 64, pat := idx, patE := e, off := off, len := n, write := write,
        data := if write then (bytesLE 4 (getReg s .mnt 0x058).toNat ++ bytesLE 4 (getReg s .mnt 0x05C).toNat).take n else [],
        en := List.replicate n true, cont := false }
      let err (code : Nat) (t : State) : Prop := getFld t .mnt 0x068 7 4 = code ∧ getFld t .mnt 0x068 2 2 = 1 ∧ t.mnt = s.mnt ∧ t.seg = s.seg
      heldIn s 4 .mnt = none →
      (s.mnt.legRun = true → Completes (.legCmdGo d) s (err 5)) ∧
      (s.mnt.legRun = false →
        (3 < fieldOf d 18 16 ∨ accessRefused p write off n = true ∨ (write = true ∧ p.kind = .iack) → Completes (.legCmdGo d) s fun t =>
          err 4 t ∧ EventSet t 245) ∧
        (fieldOf d 18 16 ≤ 3 → accessRefused p write off n = false → (write = true → p.kind ≠ .iack) → p.node = 0 → s.tap.ecc = [] →
          (lcOpen s = false → write = true ∨ p.idem = false → Completes (.legCmdGo d) s fun t => err 3 t ∧ EventSet t 245) ∧
          (lcOpen s = true ∨ (write = false ∧ p.idem = true) → p.kind ≠ .rmw ∨ write = true → NothingQueued s → masterOk s p.seg = true → ListsGood s →
            claimOk s.crl 4 1 = true →
            Completes (.legCmdGo d) s fun t =>
              t.mnt = { s.mnt with legRun := true, legRead := !write, legEnd := none } ∧ getFld t .mnt 0x068 0 0 = 1 ∧
              t.seg[p.seg] = { s.seg[p.seg] with mail := some a } ∧
              t.lom = s.lom ∧ t.img = s.img ∧ t.lcc = s.lcc)) ∧
        (fieldOf d 18 16 ≤ 3 → accessRefused p write off n = false → (write = true → p.kind ≠ .iack) → p.node ≠ 0 →
          p.node ≠ s.rng.num → s.rng.num ≠ 0 → s.tap.ecc = [] → lcOpen s = true → isMember s p.node = false → Completes (.legCmdGo d) s fun t => err 6 t ∧ EventSet t 245))) ∧
    (∀ (code : Nat) (bs : List Byte), s.mnt.legEnd = some (true, code, bs) → code < 16 → Completes .legDone s fun t =>
      RestSame { s with mnt := { s.mnt with legRun := false, legEnd := none } } t ∧ OtherRegs .mnt 0x068 s t ∧ EventSet t 245 ∧
      getFld t .mnt 0x068 0 0 = 0 ∧ getFld t .mnt 0x068 2 2 = 1 ∧ getFld t .mnt 0x068 7 4 = code) ∧
    (∀ (code : Nat) (bs : List Byte), s.mnt.legEnd = some (false, code, bs) → Completes .legDone s fun t =>
      RestSame { s with mnt := { s.mnt with legRun := false, legEnd := none } } t ∧ EventSet t 244 ∧
      getFld t .mnt 0x068 0 0 = 0 ∧ getFld t .mnt 0x068 1 1 = 1 ∧ getFld t .mnt 0x068 7 4 = 0 ∧
      (s.mnt.legRead = true → bs.length ≤ 8 → getReg t .mnt 0x060 = BitVec.ofNat 32 (natLE (bs.take 4)) ∧
        getReg t .mnt 0x064 = BitVec.ofNat 32 (natLE (bs.drop 4))) ∧
      (s.mnt.legRead = false → OtherRegs .mnt 0x068 s t)) ∧
    (s.mnt.legEnd = none → Completes .legDone s fun t => t = cleared s)
end

