-- ==== Sys2Proof/Laws/Memory.lean ====
section
/-!
SUPPORT. Laws of the sparse memories: what a read answers after a write, and that every write keeps the canonical form.
-/

namespace Sys2Proof.Machine

open Sys2Proof

variable {α : Type}

theorem mget_minsert_same (d v : α) (k : Nat) (m : SMap α) : mget d (minsert k v m) k = v := by
  induction m with
  | nil => simp [minsert, mget]
  | cons e m ih =>
    obtain ⟨a, w⟩ := e
    unfold minsert
    split
    · simp [mget]
    · split
      · simp [mget]
      · simp only [mget, if_neg (show ¬ a = k by omega), ih]

theorem mget_minsert_ne (d v : α) {j k : Nat} (h : j ≠ k) (m : SMap α) : mget d (minsert k v m) j = mget d m j := by
  induction m with
  | nil => simp [minsert, mget, Ne.symm h]
  | cons e m ih =>
    obtain ⟨a, w⟩ := e
    unfold minsert
    split
    · simp [mget, Ne.symm h]
    · split
      · rename_i h1 h2; subst h2; simp [mget, Ne.symm h]
      · simp only [mget, ih]

theorem mget_merase_same (d : α) (k : Nat) (m : SMap α) : mget d (merase k m) k = d := by
  induction m with
  | nil => rfl
  | cons e m ih =>
    obtain ⟨a, w⟩ := e
    by_cases h : a = k
    · simpa [merase, h] using ih
    · have : merase k ((a, w) :: m) = (a, w) :: merase k m := by simp [merase, h]
      rw [this]; simp only [mget, if_neg h, ih]

theorem mget_merase_ne (d : α) {j k : Nat} (h : j ≠ k) (m : SMap α) : mget d (merase k m) j = mget d m j := by
  induction m with
  | nil => rfl
  | cons e m ih =>
    obtain ⟨a, w⟩ := e
    by_cases h2 : a = k
    · have : merase k ((a, w) :: m) = merase k m := by simp [merase, h2]
      rw [this, ih]; simp [mget, h2, Ne.symm h]
    · have : merase k ((a, w) :: m) = (a, w) :: merase k m := by simp [merase, h2]
      rw [this]; simp only [mget, ih]

variable [DecidableEq α]

/-- A read of the place written answers the value written. -/
@[simp] theorem mget_mset_same (d v : α) (k : Nat) (m : SMap α) : mget d (mset d k v m) k = v := by
  unfold mset
  split
  · rename_i h; rw [mget_merase_same, h]
  · exact mget_minsert_same d v k m

/-- A write leaves every other place alone. -/
theorem mget_mset_ne (d v : α) {j k : Nat} (h : j ≠ k) (m : SMap α) : mget d (mset d k v m) j = mget d m j := by
  unfold mset
  split
  · exact mget_merase_ne d h m
  · exact mget_minsert_ne d v h m

/-- A write leaves every other place alone, whatever its default. -/
theorem mget_mset_other (d e v : α) {j k : Nat} (h : j ≠ k) (m : SMap α) : mget d (mset e k v m) j = mget d m j := by
  unfold mset
  split
  · exact mget_merase_ne d h m
  · exact mget_minsert_ne d v h m

theorem mget_msetList_out (d : α) (vs : List α) (k j : Nat) (m : SMap α) (h : j < k ∨ k + vs.length ≤ j) :
    mget d (msetList d k vs m) j = mget d m j := by
  induction vs generalizing k m with
  | nil => rfl
  | cons v vs ih =>
    simp only [msetList, List.length_cons] at *
    rw [ih _ _ (by omega), mget_mset_ne d v (by omega)]

theorem mget_msetList_in (d : α) (vs : List α) (k i : Nat) (m : SMap α) (h : i < vs.length) :
    mget d (msetList d k vs m) (k + i) = vs[i] := by
  induction vs generalizing k i m with
  | nil => simp at h
  | cons v vs ih =>
    cases i with
    | zero => simp only [msetList]; rw [mget_msetList_out _ _ _ _ _ (by omega)]; simp
    | succ i =>
      have := ih (k + 1) i (mset d k v m) (by simpa using h)
      simp only [msetList, List.getElem_cons_succ]
      rw [← this, show k + (i + 1) = k + 1 + i by omega]

theorem mgetList_msetList (d : α) (vs : List α) (k : Nat) (m : SMap α) :
    mgetList d (msetList d k vs m) k vs.length = vs := by
  have gen : ∀ (n k : Nat) (m : SMap α), mgetList d m k n = (List.range n).map fun i => mget d m (k + i) := by
    intro n
    induction n with
    | zero => intros; rfl
    | succ n ih =>
      intro k m
      simp only [mgetList, ih, List.range_succ_eq_map, List.map_cons, List.map_map, Nat.add_zero]
      congr 1
      apply List.map_congr_left
      intro i _
      show mget d m (k + 1 + i) = mget d m (k + (i + 1))
      rw [show k + 1 + i = k + (i + 1) by omega]
  rw [gen]
  apply List.ext_getElem (by simp)
  intro i h1 h2
  simp [mget_msetList_in d vs k i m h2]

/-! The canonical form -/

/-- Every address of `m` lies above `b`. -/
def above (b : Nat) (m : SMap α) : Prop := ∀ e ∈ m, b < e.1

omit [DecidableEq α] in
theorem mrising_some (b : Nat) (m : SMap α) : mrising (some b) m = true ↔ mrising none m = true ∧ above b m := by
  induction m generalizing b with
  | nil => simp [mrising, above]
  | cons e m ih =>
    obtain ⟨a, v⟩ := e
    simp only [mrising, Bool.and_eq_true, decide_eq_true_eq, above, List.mem_cons, forall_eq_or_imp]
    constructor
    · rintro ⟨h1, h2⟩
      exact ⟨h2, h1, fun e he => lt_trans h1 (((ih a).1 h2).2 e he)⟩
    · rintro ⟨h1, h2, _⟩
      exact ⟨h2, h1⟩

omit [DecidableEq α] in
theorem mrising_cons (a : Nat) (v : α) (m : SMap α) :
    mrising none ((a, v) :: m) = true ↔ mrising none m = true ∧ above a m := by
  simp only [mrising]; exact mrising_some a m

omit [DecidableEq α] in
theorem mem_minsert {k : Nat} {v : α} {m : SMap α} {e : Nat × α} (h : e ∈ minsert k v m) : e = (k, v) ∨ e ∈ m := by
  induction m with
  | nil => simpa [minsert] using h
  | cons x m ih =>
    obtain ⟨a, w⟩ := x
    unfold minsert at h
    split at h
    · simp only [List.mem_cons] at h ⊢; tauto
    · split at h
      · simp only [List.mem_cons] at h ⊢; tauto
      · simp only [List.mem_cons] at h ⊢
        rcases h with h | h
        · tauto
        · rcases ih h with h | h <;> tauto

omit [DecidableEq α] in
theorem mrising_minsert (k : Nat) (v : α) (m : SMap α) (h : mrising none m = true) : mrising none (minsert k v m) = true := by
  induction m with
  | nil => rfl
  | cons x m ih =>
    obtain ⟨a, w⟩ := x
    obtain ⟨h1, h2⟩ := (mrising_cons a w m).1 h
    unfold minsert
    split
    · rename_i hk
      refine (mrising_cons _ _ _).2 ⟨h, ?_⟩
      intro e he
      rcases List.mem_cons.1 he with rfl | he
      · exact hk
      · exact lt_trans hk (h2 e he)
    · split
      · rename_i hk; subst hk; exact (mrising_cons _ _ _).2 ⟨h1, h2⟩
      · refine (mrising_cons _ _ _).2 ⟨ih h1, ?_⟩
        intro e he
        rcases mem_minsert he with rfl | he
        · show a < k; omega
        · exact h2 e he

omit [DecidableEq α] in
theorem mrising_filter (p : Nat × α → Bool) (m : SMap α) (h : mrising none m = true) : mrising none (m.filter p) = true := by
  induction m with
  | nil => rfl
  | cons x m ih =>
    obtain ⟨a, w⟩ := x
    obtain ⟨h1, h2⟩ := (mrising_cons a w m).1 h
    rw [List.filter_cons]
    split
    · exact (mrising_cons _ _ _).2 ⟨ih h1, fun e he => h2 e (List.mem_of_mem_filter he)⟩
    · exact ih h1

/-- A write keeps the canonical form. -/
theorem mwf_mset (d v : α) (k : Nat) (m : SMap α) (h : mwf d m = true) : mwf d (mset d k v m) = true := by
  simp only [mwf, Bool.and_eq_true, List.all_eq_true, Bool.not_eq_true', decide_eq_false_iff_not] at *
  unfold mset
  split
  · exact ⟨mrising_filter _ _ h.1, fun e he => h.2 e (List.mem_of_mem_filter he)⟩
  · rename_i hv
    refine ⟨mrising_minsert k v m h.1, ?_⟩
    intro e he
    rcases mem_minsert he with rfl | he
    · exact hv
    · exact h.2 e he

theorem mwf_msetList (d : α) (vs : List α) (k : Nat) (m : SMap α) (h : mwf d m = true) : mwf d (msetList d k vs m) = true := by
  induction vs generalizing k m with
  | nil => exact h
  | cons v vs ih => exact ih _ _ (mwf_mset d v k m h)

theorem mwf_filter (d : α) (p : Nat × α → Bool) (m : SMap α) (h : mwf d m = true) : mwf d (m.filter p) = true := by
  simp only [mwf, Bool.and_eq_true, List.all_eq_true, Bool.not_eq_true', decide_eq_false_iff_not] at *
  exact ⟨mrising_filter _ _ h.1, fun e he => h.2 e (List.mem_of_mem_filter he)⟩

theorem mwf_merase (d : α) (k : Nat) (m : SMap α) (h : mwf d m = true) : mwf d (merase k m) = true := mwf_filter d _ m h

theorem mwf_meraseRange (d : α) (lo hi : Nat) (m : SMap α) (h : mwf d m = true) : mwf d (meraseRange lo hi m) = true :=
  mwf_filter d _ m h

/-- Every operation that changes a byte memory keeps `Memory.wf`. -/
theorem Memory.wf_msetList (vs : List Byte) (k : Nat) (m : SMap Byte) (h : Memory.wf m = true) :
    Memory.wf (msetList 0 k vs m) = true := mwf_msetList 0 vs k m h
theorem Memory.wf_mset (v : Byte) (k : Nat) (m : SMap Byte) (h : Memory.wf m = true) : Memory.wf (mset 0 k v m) = true :=
  mwf_mset 0 v k m h
theorem Memory.wf_meraseRange (lo hi : Nat) (m : SMap Byte) (h : Memory.wf m = true) : Memory.wf (meraseRange lo hi m) = true :=
  mwf_meraseRange 0 lo hi m h
theorem Memory.wf_msetWord (a : Nat) (w : Word) (m : SMap Byte) (h : Memory.wf m = true) : Memory.wf (msetWord a w m) = true :=
  mwf_msetList 0 _ a m h

end Sys2Proof.Machine
end

