-- ==== Sys2Proof/Laws/State.lean ====
section
/-!
SUPPORT. What the basic updates leave alone. The parts of `State` are gathered in six groups; an `Only…` proposition says that a state
differs from another in the parts it names alone. Each update has one lemma in these words, so that no proof unfolds a record update.
-/

namespace Sys2Proof.Machine

open Sys2Proof

/-- One part of the state is as before. -/
@[simp] abbrev Same1 {α : Type} (p : State → α) (s t : State) : Prop :=
    p t = p s

/-- Two parts of the state are as before. -/
@[simp] abbrev Same2 {α β : Type} (p : State → α) (q : State → β) (s t : State) : Prop :=
    p t = p s ∧ q t = q s

/-- Three parts of the state are as before. -/
@[simp] abbrev Same3 {α β γ : Type} (p : State → α) (q : State → β) (r : State → γ) (s t : State) : Prop :=
    p t = p s ∧ q t = q s ∧ r t = r s

/-- Four parts of the state are as before. -/
@[simp] abbrev Same4 {α β γ δ : Type} (p : State → α) (q : State → β) (r : State → γ) (u : State → δ) (s t : State) : Prop :=
    p t = p s ∧ q t = q s ∧ r t = r s ∧ u t = u s

/-- The queue of commands, the life cycle, the forces and Meridian are those before. -/
@[simp] abbrev SameStill (s t : State) : Prop := Same4 State.pending State.lcc State.frc State.mer s t

/-- What leaves the device and what the channel ports hold are those before. -/
@[simp] abbrev SamePorts (s t : State) : Prop := Same4 State.out State.port State.tx State.msix s t

/-- The requesters, the channels, the maintenance port and the free values taken are those before. -/
@[simp] abbrev SameUnits (s t : State) : Prop := Same4 State.bus State.ch State.mnt State.freeCount s t

/-- The Almanac, the test access port and the power state are those before. -/
@[simp] abbrev SameHeld (s t : State) : Prop := Same3 State.alm State.tap State.pwr s t

/-- The Loom, the ring, the segments and the process image are those before. -/
@[simp] abbrev SamePlant (s t : State) : Prop := Same4 State.lom State.rng State.seg State.img s t

/-- The vote unit and the Creel are those before. -/
@[simp] abbrev SameVote (s t : State) : Prop := Same2 State.vot State.crl s t

/-- The states differ in the event hub alone. -/
@[simp] abbrev OnlyEvh (s t : State) : Prop :=
    SameStill s t ∧ SamePorts s t ∧ SameUnits s t ∧ SameHeld s t ∧ SamePlant s t ∧ SameVote s t ∧ Same1 State.regs s t

/-- The states differ in the process image alone. -/
@[simp] abbrev OnlyImg (s t : State) : Prop :=
    SameStill s t ∧ SamePorts s t ∧ SameUnits s t ∧ SameHeld s t ∧ SameVote s t ∧ Same3 State.lom State.rng State.seg s t ∧
    Same2 State.regs State.evh s t

/-- The states differ in the segments alone. -/
@[simp] abbrev OnlySeg (s t : State) : Prop :=
    SameStill s t ∧ SamePorts s t ∧ SameUnits s t ∧ SameHeld s t ∧ SameVote s t ∧ Same3 State.lom State.rng State.img s t ∧
    Same2 State.regs State.evh s t

/-- The states differ in the Creel alone. -/
@[simp] abbrev OnlyCrl (s t : State) : Prop :=
    SameStill s t ∧ SamePorts s t ∧ SameUnits s t ∧ SameHeld s t ∧ SamePlant s t ∧ Same3 State.vot State.regs State.evh s t

/-- The states differ in the Almanac alone. -/
@[simp] abbrev OnlyAlm (s t : State) : Prop :=
    SameStill s t ∧ SamePorts s t ∧ SameUnits s t ∧ SamePlant s t ∧ SameVote s t ∧
    Same4 State.tap State.pwr State.regs State.evh s t

/-- The states differ in the channel ports alone. -/
@[simp] abbrev OnlyPort (s t : State) : Prop :=
    SameStill s t ∧ SameUnits s t ∧ SameHeld s t ∧ SamePlant s t ∧ SameVote s t ∧ Same3 State.out State.tx State.msix s t ∧
    Same2 State.regs State.evh s t

/-- The states differ in the power state alone. -/
@[simp] abbrev OnlyPwr (s t : State) : Prop :=
    SameStill s t ∧ SamePorts s t ∧ SameUnits s t ∧ SamePlant s t ∧ SameVote s t ∧
    Same4 State.alm State.tap State.regs State.evh s t

/-- The states differ in the requesters' records alone. -/
@[simp] abbrev OnlyBus (s t : State) : Prop :=
    SameStill s t ∧ SamePorts s t ∧ SameHeld s t ∧ SamePlant s t ∧ SameVote s t ∧
    Same3 State.ch State.mnt State.freeCount s t ∧ Same2 State.regs State.evh s t

/-- The states differ in the ring alone. -/
@[simp] abbrev OnlyRng (s t : State) : Prop :=
    SameStill s t ∧ SamePorts s t ∧ SameUnits s t ∧ SameHeld s t ∧ SameVote s t ∧ Same3 State.lom State.seg State.img s t ∧
    Same2 State.regs State.evh s t

/-- The states differ in the registers alone. -/
@[simp] abbrev OnlyRegs (s t : State) : Prop :=
    SameStill s t ∧ SamePorts s t ∧ SameUnits s t ∧ SameHeld s t ∧ SamePlant s t ∧ SameVote s t ∧ Same1 State.evh s t

/-- The states differ in the forces alone. -/
@[simp] abbrev OnlyFrc (s t : State) : Prop :=
    SamePorts s t ∧ SameUnits s t ∧ SameHeld s t ∧ SamePlant s t ∧ SameVote s t ∧
    Same3 State.pending State.lcc State.mer s t ∧ Same2 State.regs State.evh s t

/-- The states differ in the Loom alone. -/
@[simp] abbrev OnlyLom (s t : State) : Prop :=
    SameStill s t ∧ SamePorts s t ∧ SameUnits s t ∧ SameHeld s t ∧ SameVote s t ∧ Same3 State.rng State.seg State.img s t ∧
    Same2 State.regs State.evh s t

/-- The states differ in the channels alone. -/
@[simp] abbrev OnlyCh (s t : State) : Prop :=
    SameStill s t ∧ SamePorts s t ∧ SameHeld s t ∧ SamePlant s t ∧ SameVote s t ∧
    Same3 State.bus State.mnt State.freeCount s t ∧ Same2 State.regs State.evh s t

/-- The states differ in the MSI-X tables alone. -/
@[simp] abbrev OnlyMsix (s t : State) : Prop :=
    SameStill s t ∧ SameUnits s t ∧ SameHeld s t ∧ SamePlant s t ∧ SameVote s t ∧ Same3 State.out State.port State.tx s t ∧
    Same2 State.regs State.evh s t

/-- The states differ in Meridian alone. -/
@[simp] abbrev OnlyMer (s t : State) : Prop :=
    SamePorts s t ∧ SameUnits s t ∧ SameHeld s t ∧ SamePlant s t ∧ SameVote s t ∧
    Same3 State.pending State.lcc State.frc s t ∧ Same2 State.regs State.evh s t

/-- The states differ in the vote unit alone. -/
@[simp] abbrev OnlyVot (s t : State) : Prop :=
    SameStill s t ∧ SamePorts s t ∧ SameUnits s t ∧ SameHeld s t ∧ SamePlant s t ∧ Same3 State.crl State.regs State.evh s t

/-- The states differ in what leaves the device alone. -/
@[simp] abbrev OnlyOut (s t : State) : Prop :=
    SameStill s t ∧ SameUnits s t ∧ SameHeld s t ∧ SamePlant s t ∧ SameVote s t ∧
    Same3 State.port State.tx State.msix s t ∧ Same2 State.regs State.evh s t

/-- The states differ in the registers and the event hub alone. -/
@[simp] abbrev OnlyReports (s t : State) : Prop :=
    SameStill s t ∧ SamePorts s t ∧ SameUnits s t ∧ SameHeld s t ∧ SamePlant s t ∧ SameVote s t

/-- The states differ in the Creel, the vote unit and the event hub alone. -/
@[simp] abbrev OnlyLists (s t : State) : Prop :=
    SameStill s t ∧ SamePorts s t ∧ SameUnits s t ∧ SameHeld s t ∧ SamePlant s t ∧ Same1 State.regs s t

/-- The states differ in what leaves the device and what the channel ports hold alone. -/
@[simp] abbrev OnlyLinks (s t : State) : Prop :=
    SameStill s t ∧ SameUnits s t ∧ SameHeld s t ∧ SamePlant s t ∧ SameVote s t ∧ Same2 State.regs State.evh s t

/-! Parts of the state through choices and folds -/

/-- Part `p` of the state passes through a choice. -/
abbrev ThroughIte {β : Type} (p : State → β) : Prop := ∀ (c : Prop) [Decidable c] (a b : State), p (if c then a else b) = if c then p a else p b

/-- Part `p` of the state passes through a fold of updates that each keep it. -/
abbrev ThroughFold {β : Type} (p : State → β) : Prop :=
  ∀ {α : Type} (g : State → α → State) (_ : ∀ s a, p (g s a) = p s) (l : List α) (s : State), p (l.foldl g s) = p s

theorem throughIte {β : Type} (p : State → β) : ThroughIte p := fun _ _ _ _ => by split <;> rfl

theorem throughFold {β : Type} (p : State → β) : ThroughFold p := fun g h l s => by
  induction l generalizing s with
  | nil => rfl
  | cons a l ih => exact (ih (g s a)).trans (h s a)

/-- A fold of updates that each keep a part of the state keeps it. -/
theorem foldl_keeps {α β : Type} (g : State → β) (f : State → α → State) (h : ∀ s a, g (f s a) = g s) (l : List α) (s : State) :
    g (l.foldl f s) = g s := throughFold g f h l s

/-- Two parts of the state pass through a choice, and through a fold of updates that keep each. -/
abbrev Through2 {α β : Type} (p : State → α) (q : State → β) : Prop :=
    (ThroughIte p ∧ ThroughIte q) ∧ (ThroughFold p ∧ ThroughFold q)

/-- Three parts of the state pass through a choice, and through a fold of updates that keep each. -/
abbrev Through3 {α β γ : Type} (p : State → α) (q : State → β) (r : State → γ) : Prop :=
    (ThroughIte p ∧ ThroughIte q ∧ ThroughIte r) ∧ (ThroughFold p ∧ ThroughFold q ∧ ThroughFold r)

/-- Four parts of the state pass through a choice, and through a fold of updates that keep each. -/
abbrev Through4 {α β γ δ : Type} (p : State → α) (q : State → β) (r : State → γ) (u : State → δ) : Prop :=
    (ThroughIte p ∧ ThroughIte q ∧ ThroughIte r ∧ ThroughIte u) ∧ (ThroughFold p ∧ ThroughFold q ∧ ThroughFold r ∧ ThroughFold u)

/-- Every part of the state passes through choices and folds. -/
@[simp] theorem through_parts :
    Through4 State.pending State.lcc State.frc State.mer ∧ Through4 State.out State.port State.tx State.msix ∧
    Through4 State.bus State.ch State.mnt State.freeCount ∧ Through3 State.alm State.tap State.pwr ∧
    Through4 State.lom State.rng State.seg State.img ∧ Through2 State.vot State.crl ∧ Through2 State.regs State.evh := by
  (repeat' constructor) <;> first | exact throughIte _ | exact throughFold _

/-! The basic updates -/

/-- A register write touches the registers alone. -/
@[simp] theorem setReg_frame (k : PageKind) (off : Nat) (w : Word) (s : State) : OnlyRegs s (setReg k off w s) := by simp [setReg]

@[simp] theorem modCh_frame (c : Port) (f : Chan → Chan) (s : State) : OnlyCh s (modCh c f s) := by simp [modCh]

@[simp] theorem putFld_frame (k : PageKind) (off hi lo v : Nat) (s : State) : OnlyRegs s (putFld k off hi lo v s) := by simp [putFld]

/-- An occurrence touches the event hub alone. -/
@[simp] theorem raiseD_frame (ev : Nat) (a b : Word) (s : State) : OnlyEvh s (raiseD ev a b s) := by simp [raiseD]

@[simp] theorem modPort_frame (p : Port) (f : PortS → PortS) (s : State) : OnlyPort s (modPort p f s) := by simp [modPort]

@[simp] theorem raise_frame (ev : Nat) (s : State) : OnlyEvh s (raise ev s) := by simp [raise]

@[simp] theorem modMsix_frame (p : Port) (f : MsixS → MsixS) (s : State) : OnlyMsix s (modMsix p f s) := by simp [modMsix]

@[simp] theorem setPkts_frame (q : Nat) (ps : List Pkt) (s : State) : OnlyCrl s (setPkts q ps s) := by simp [setPkts]

@[simp] theorem modSeg_frame (g : Seg) (f : SegS → SegS) (s : State) : OnlySeg s (modSeg g f s) := by simp [modSeg]

@[simp] theorem releaseCells_frame (q : Nat) (cells : List Nat) (s : State) : OnlyCrl s (releaseCells q cells s) := by simp [releaseCells]

@[simp] theorem modRp_frame (rp : RingPort) (f : RingPortS → RingPortS) (s : State) : OnlyRng s (modRp rp f s) := by simp [modRp]

@[simp] theorem cfgSet_frame (p : Port) (dw : Nat) (w : Word) (s : State) : OnlyPort s (cfgSet p dw w s) := by simp [cfgSet]

@[simp] theorem portFlag_frame (p : Port) (b : Nat) (s : State) : OnlyRegs s (portFlag p b s) := by simp [portFlag]

@[simp] theorem incReg_frame (k : PageKind) (off n : Nat) (s : State) : OnlyRegs s (incReg k off n s) := by simp [incReg]

@[simp] theorem raiseIf_frame (b : Bool) (ev : Nat) (s : State) : OnlyEvh s (raiseIf b ev s) := by unfold raiseIf; split <;> simp

@[simp] theorem nextCycle_frame (s : State) : OnlyEvh s (nextCycle s) := by simp [nextCycle]

@[simp] theorem emit_frame (o : Out) (s : State) : OnlyOut s (emit o s) := by simp [emit]

/-- A free value taken counts, and nothing else. -/
@[simp] theorem tookFree_frame (s : State) : SameStill s (tookFree s) ∧ SamePorts s (tookFree s) ∧ SameHeld s (tookFree s) ∧
    SamePlant s (tookFree s) ∧ SameVote s (tookFree s) ∧ (tookFree s).regs = s.regs ∧ (tookFree s).evh = s.evh ∧ (tookFree s).bus = s.bus ∧
    (tookFree s).ch = s.ch ∧ (tookFree s).mnt = s.mnt := by simp [tookFree]

@[simp] theorem modReq_frame (r : Req) (f : ReqS → ReqS) (s : State) : OnlyBus s (modReq r f s) := by simp [modReq]

@[simp] theorem putAlm_frame (a : Nat) (bs : List Byte) (s : State) : OnlyAlm s (putAlm a bs s) := by simp [putAlm]

@[simp] theorem holdTag_frame (p : Port) (tag : Nat) (h : Hdr) (s : State) : OnlyPort s (holdTag p tag h s) := by simp [holdTag]

/-- Waking CORE touches its wake state and the event hub. -/
@[simp] theorem wakeCore_frame (cause bit : Nat) (s : State) : SameStill s (wakeCore cause bit s) ∧ SamePorts s (wakeCore cause bit s) ∧
    SameUnits s (wakeCore cause bit s) ∧ SamePlant s (wakeCore cause bit s) ∧ SameVote s (wakeCore cause bit s) ∧
    (wakeCore cause bit s).regs = s.regs ∧ (wakeCore cause bit s).alm = s.alm ∧ (wakeCore cause bit s).tap = s.tap := by
  unfold wakeCore; split <;> simp

@[simp] theorem portWake_frame (p : Port) (s : State) : SameStill s (portWake p s) ∧ SamePorts s (portWake p s) ∧
    SameUnits s (portWake p s) ∧ SamePlant s (portWake p s) ∧ SameVote s (portWake p s) ∧ (portWake p s).regs = s.regs ∧
    (portWake p s).alm = s.alm ∧ (portWake p s).tap = s.tap := by simp [portWake]

/-- A captured error touches the registers of its page and the event hub. -/
@[simp] theorem capture_frame (k : PageKind) (cause req page off : Nat) (d : Word) (s : State) : OnlyReports s (capture k cause req page off d s) := by
  unfold capture; dsimp only; split <;> simp

@[simp] theorem dropTag_frame (p : Port) (tag : Nat) (s : State) : OnlyPort s (dropTag p tag s) := by simp [dropTag]

/-! Parts of the event hub and of the ports -/

/-- An occurrence is appended; nothing else of the hub changes. -/
@[simp] theorem raiseD_evh (ev : Nat) (a b : Word) (s : State) :
    (raiseD ev a b s).evh = { s.evh with occ := s.evh.occ ++ [⟨ev, a, b, s.evh.sub, if s.lom.everRun then s.lom.cycle else 0, time64 s, none, false⟩] } := rfl

/-- Reading back a register just written. -/
@[simp] theorem getReg_setReg (k : PageKind) (off : Nat) (w : Word) (s : State) : getReg (setReg k off w s) k off = w := by
  unfold getReg setReg; exact mget_mset_same _ _ _ _

/-- A register write leaves the registers at every other address alone. -/
theorem getReg_setReg_ne {k j : PageKind} {off o : Nat} (h : regAddr j o ≠ regAddr k off) (w : Word) (s : State) :
    getReg (setReg k off w s) j o = getReg s j o := by
  unfold getReg setReg; exact mget_mset_other _ _ _ h _

/-- A register read depends on the registers alone. -/
theorem getReg_congr {s t : State} (h : t.regs = s.regs) (k : PageKind) (off : Nat) : getReg t k off = getReg s k off := by
  unfold getReg; rw [h]

theorem getFld_congr {s t : State} (h : t.regs = s.regs) (k : PageKind) (off hi lo : Nat) : getFld t k off hi lo = getFld s k off hi lo := by
  unfold getFld; rw [getReg_congr h]

@[simp] theorem modSeg_same (g : Seg) (f : SegS → SegS) (s : State) : (modSeg g f s).seg[g] = f s.seg[g] := by simp [modSeg]
@[simp] theorem modCh_same (c : Port) (f : Chan → Chan) (s : State) : (modCh c f s).ch[c] = f s.ch[c] := by simp [modCh]
@[simp] theorem modPort_same (p : Port) (f : PortS → PortS) (s : State) : (modPort p f s).port[p] = f s.port[p] := by simp [modPort]
@[simp] theorem modReq_same (r : Req) (f : ReqS → ReqS) (s : State) : (modReq r f s).bus.req[r] = f s.bus.req[r] := by simp [modReq]
@[simp] theorem modRp_same (p : RingPort) (f : RingPortS → RingPortS) (s : State) : (modRp p f s).rng.port[p] = f s.rng.port[p] := by
  simp [modRp]

end Sys2Proof.Machine
end

