-- ==== Sys2Proof/Laws/KeepOps.lean ====
section
/-!
SUPPORT. What the operations of the named operations, the Weave readers and the event delivery leave alone: one lemma per operation, over the parts of
`State` that no path of it writes, so that no proof unfolds an operation to see that a part is unchanged.
-/

namespace Sys2Proof.Machine

open Sys2Proof

@[simp] theorem contend_keeps (may : Bool) (s : State) :
    SameStill s (contend may s) ∧ SamePorts s (contend may s) ∧ SameHeld s (contend may s) ∧ SamePlant s (contend may s) ∧
    SameVote s (contend may s) ∧ Same4 State.bus State.ch State.mnt State.regs s (contend may s) := by simp [contend]

@[simp] theorem addLevel_keeps (g level ev : Nat) (s : State) : OnlyEvh s (addLevel g level ev s) := by simp [addLevel]

@[simp] theorem loseCopy_keeps (p : Pkt) (s : State) : OnlyVot s (loseCopy p s) := by simp [loseCopy]

@[simp] theorem resetList_keeps (q : Nat) (s : State) : OnlyLists s (resetList q s) := by
  unfold resetList; simp

@[simp] theorem useList_keeps (q : Nat) (s : State) : OnlyLists s (useList q s) := by simp [useList]

theorem claim_keeps {q n : Nat} {s0 : State} {y0 : List Nat} {t1 : State} (h : claim q n s0 = some (y0, t1)) :
    OnlyLists s0 t1 := by
  unfold claim at h; dsimp only at h; (repeat' split at h) <;> simp at h <;> (try obtain ⟨rfl, rfl⟩ := h) <;> simp_all

@[simp] theorem linkPkt_keeps (q : Nat) (p : Pkt) (s : State) : OnlyLists s (linkPkt q p s) := by simp [linkPkt]

@[simp] theorem sendOut_keeps (p : Port) (os : List Out) (s : State) :
    SameStill s (sendOut p os s) ∧ SameUnits s (sendOut p os s) ∧ SameHeld s (sendOut p os s) ∧ SamePlant s (sendOut p os s) ∧
    SameVote s (sendOut p os s) ∧ Same4 State.tx State.msix State.regs State.evh s (sendOut p os s) := by simp [sendOut]

@[simp] theorem cfgOr_keeps (p : Port) (dw bitsSet : Nat) (s : State) : OnlyPort s (cfgOr p dw bitsSet s) := by simp [cfgOr]

@[simp] theorem aerFirst_keeps (p : Port) (b : Nat) (x2 : Hdr) (s : State) :
    SameStill s (aerFirst p b x2 s) ∧ SameHeld s (aerFirst p b x2 s) ∧ SamePlant s (aerFirst p b x2 s) ∧
    SameVote s (aerFirst p b x2 s) ∧ Same4 State.out State.tx State.msix State.bus s (aerFirst p b x2 s) ∧
    Same4 State.ch State.mnt State.regs State.evh s (aerFirst p b x2 s) := by simp [aerFirst]

@[simp] theorem aerUncorr_keeps (p : Port) (b : Nat) (advisory : Bool) (x3 : Hdr) (s : State) :
    SameStill s (aerUncorr p b advisory x3 s) ∧ SameHeld s (aerUncorr p b advisory x3 s) ∧
    SamePlant s (aerUncorr p b advisory x3 s) ∧ SameVote s (aerUncorr p b advisory x3 s) ∧
    Same4 State.tx State.msix State.bus State.ch s (aerUncorr p b advisory x3 s) ∧
    Same2 State.mnt State.regs s (aerUncorr p b advisory x3 s) := by simp [aerUncorr]

@[simp] theorem countEcc_keeps (m w : Nat) (uncorr : Bool) (s : State) :
    OnlyReports s (countEcc m w uncorr s) := by simp [countEcc]

@[simp] theorem readEcc_keeps (m lo hi : Nat) (s : State) :
    SameStill s (readEcc m lo hi s) ∧ SamePorts s (readEcc m lo hi s) ∧ SameUnits s (readEcc m lo hi s) ∧
    SamePlant s (readEcc m lo hi s) ∧ SameVote s (readEcc m lo hi s) ∧ Same2 State.alm State.pwr s (readEcc m lo hi s) := by
  simp [readEcc]

@[simp] theorem meetWords_keeps (ws : List Nat) (s : State) :
    SameStill s (meetWords ws s) ∧ SamePorts s (meetWords ws s) ∧ SameUnits s (meetWords ws s) ∧ SamePlant s (meetWords ws s) ∧
    SameVote s (meetWords ws s) ∧ Same2 State.alm State.pwr s (meetWords ws s) := by simp [meetWords]

@[simp] theorem msixPark_keeps (p : Port) (v : Nat) (s : State) : OnlyMsix s (msixPark p v s) := by simp [msixPark]

@[simp] theorem issueTlp_keeps (p : Port) (kd : Nat) (t : PTlp) (s : State) :
    SameStill s (issueTlp p kd t s) ∧ SameUnits s (issueTlp p kd t s) ∧ SameHeld s (issueTlp p kd t s) ∧
    SamePlant s (issueTlp p kd t s) ∧ SameVote s (issueTlp p kd t s) ∧
    Same3 State.tx State.regs State.evh s (issueTlp p kd t s) := by simp [issueTlp]

@[simp] theorem drainTx_keeps (p : Port) (x1 : Nat) (x2 : State) : OnlyLinks x2 (drainTx p x1 x2) := by
  induction x1 generalizing x2 with
  | zero => (unfold drainTx; simp)
  | succ n ih => (unfold drainTx; (repeat' split) <;> simp [*])

@[simp] theorem sendTlp_keeps (p : Port) (kd : Nat) (t : PTlp) (s : State) :
    OnlyLinks s (sendTlp p kd t s) := by simp [sendTlp]

@[simp] theorem msixSend_keeps (p : Port) (v : Nat) (s : State) : OnlyLinks s (msixSend p v s) := by simp [msixSend]

@[simp] theorem msixCall_keeps (p : Port) (v : Nat) (s : State) : OnlyLinks s (msixCall p v s) := by
  unfold msixCall; simp

@[simp] theorem dropLost_keeps (q : Nat) (s : State) : OnlyCrl s (dropLost q s) := by simp [dropLost]

@[simp] theorem popPkt_keeps (q : Nat) (s0 : State) : OnlyLists s0 (popPkt q s0) := by
  unfold popPkt; dsimp only; (repeat' split) <;> simp [*]

@[simp] theorem pulse_keeps (pair ev : Nat) (d0 d1 : Word) (s : State) :
    SameStill s (pulse pair ev d0 d1 s) ∧ SamePorts s (pulse pair ev d0 d1 s) ∧ SameHeld s (pulse pair ev d0 d1 s) ∧
    SamePlant s (pulse pair ev d0 d1 s) ∧ SameVote s (pulse pair ev d0 d1 s) ∧
    Same3 State.bus State.ch State.mnt s (pulse pair ev d0 d1 s) := by simp [pulse]

@[simp] theorem aerCorr_keeps (p : Port) (b : Nat) (s : State) :
    SameStill s (aerCorr p b s) ∧ SameUnits s (aerCorr p b s) ∧ SameHeld s (aerCorr p b s) ∧ SamePlant s (aerCorr p b s) ∧
    SameVote s (aerCorr p b s) ∧ Same3 State.tx State.msix State.regs s (aerCorr p b s) := by simp [aerCorr]

@[simp] theorem pinRoutes_keeps (was s : State) : OnlyEvh s (pinRoutes was s) := by simp [pinRoutes]

@[simp] theorem sampleOne_keeps (ev i : Nat) (s : State) : OnlyEvh s (sampleOne ev i s) := by simp [sampleOne]

@[simp] theorem writeSc_keeps (i v : Nat) (s : State) : OnlyEvh s (writeSc i v s) := by
  unfold writeSc; simp

@[simp] theorem sample_keeps (ev : Nat) (s : State) : OnlyEvh s (sample ev s) := by simp [sample]

@[simp] theorem sampleNow_keeps (s : State) : OnlyEvh s (sampleNow s) := by simp [sampleNow]

@[simp] theorem bumpSeq_keeps (page : Nat) (s : State) : OnlyEvh s (bumpSeq page s) := by
  unfold bumpSeq; dsimp only; (repeat' split) <;> simp [*]

@[simp] theorem captureTime_keeps (o : Occ) (s : State) : OnlyEvh s (captureTime o s) := by simp [captureTime]

@[simp] theorem countEvent_keeps (ev : Nat) (s : State) : OnlyEvh s (countEvent ev s) := by
  unfold countEvent; simp

@[simp] theorem setEventBit_keeps (ev : Nat) (s : State) : OnlyEvh s (setEventBit ev s) := by
  unfold setEventBit; dsimp only; (repeat' split) <;> simp [*]

@[simp] theorem msixAll_keeps (v : Nat) (s : State) : OnlyLinks s (msixAll v s) := by simp [msixAll]

@[simp] theorem loseRecord_keeps (ev : Nat) (s : State) : OnlyEvh s (loseRecord ev s) := by
  unfold loseRecord; simp

@[simp] theorem logRecord_keeps (o : Occ) (s : State) : OnlyLists s (logRecord o s) := by
  unfold logRecord; dsimp only; (repeat' split) <;> (try have hk_claim := claim_keeps ‹_›) <;> simp [*]

@[simp] theorem deliver_keeps (o : Occ) (s : State) :
    SameStill s (deliver o s) ∧ SameUnits s (deliver o s) ∧ SameHeld s (deliver o s) ∧ SamePlant s (deliver o s) ∧
    Same1 State.regs s (deliver o s) := by simp [deliver]

@[simp] theorem wave_keeps (s : State) :
    SameStill s (wave s) ∧ SameUnits s (wave s) ∧ SameHeld s (wave s) ∧ SamePlant s (wave s) ∧ Same1 State.regs s (wave s) := by
  simp [wave]

@[simp] theorem waves_keeps (x0 : Nat) (x1 : State) :
    SameStill x1 (waves x0 x1) ∧ SameUnits x1 (waves x0 x1) ∧ SameHeld x1 (waves x0 x1) ∧ SamePlant x1 (waves x0 x1) ∧
    Same1 State.regs x1 (waves x0 x1) := by
  induction x0 generalizing x1 with
  | zero => (unfold waves; simp)
  | succ n ih => (unfold waves; (repeat' split) <;> simp [*])

@[simp] theorem settle_keeps (s : State) :
    SameStill s (settle s) ∧ SameUnits s (settle s) ∧ SamePlant s (settle s) ∧ Same3 State.alm State.tap State.regs s (settle s) := by
  simp [settle]

end Sys2Proof.Machine
end

