-- ==== Sys2Proof/Laws/Settle.lean ====
section
/-!
SUPPORT. What the delivery of a command's events leaves alone beyond the parts of `settle_keeps` (R342 to R350): the event hub's route,
scan and log records, and of the power state everything but CORE's wake state.
-/

namespace Sys2Proof.Machine

open Sys2Proof

/-- No occurrence is left. -/
@[simp] theorem settle_occ (s : State) : (settle s).evh.occ = [] ∧ (settle s).evh.sub = 0 := ⟨rfl, rfl⟩

/-- The parts of the hub that no delivery of an event changes. -/
def hubRest (s : State) : SMap Nat × SMap Word × Bool × Word × Word × SMap Word × SMap Word :=
  (s.evh.held, s.evh.routes, s.evh.scanning, s.evh.logWr, s.evh.logRd, s.evh.memErr, s.evh.replBase)

theorem hub_congr {s t : State} (h : t.evh = s.evh) : hubRest t = hubRest s := by unfold hubRest; rw [h]

theorem raiseD_hub (ev : Nat) (a b : Word) (s : State) : hubRest (raiseD ev a b s) = hubRest s := rfl

theorem raiseIf_hub (b : Bool) (ev : Nat) (s : State) : hubRest (raiseIf b ev s) = hubRest s := by
  unfold raiseIf; split <;> rfl

theorem countEvent_hub (ev : Nat) (s : State) : hubRest (countEvent ev s) = hubRest s := by
  unfold countEvent; dsimp only; split <;> rfl

theorem sample_hub (ev : Nat) (s : State) : hubRest (sample ev s) = hubRest s := by
  refine foldl_keeps hubRest _ (fun s i => ?_) _ s
  unfold sampleOne; dsimp only; (repeat' split) <;> rfl

theorem setEventBit_hub (ev : Nat) (s : State) : hubRest (setEventBit ev s) = hubRest s := by
  unfold setEventBit; split <;> rfl

theorem captureTime_hub (o : Occ) (s : State) : hubRest (captureTime o s) = hubRest s := by
  unfold captureTime; dsimp only; (repeat' split) <;> rfl

theorem addLevel_hub (g l ev : Nat) (s : State) : hubRest (addLevel g l ev s) = hubRest s := by
  unfold addLevel; split <;> rfl

theorem loseRecord_hub (ev : Nat) (s : State) : hubRest (loseRecord ev s) = hubRest s := by
  unfold loseRecord; dsimp only; split <;> rfl

theorem resetList_hub (q : Nat) (s : State) : hubRest (resetList q s) = hubRest s := by
  have h : ∀ (l : List (Nat × Pkt)) (t : State), hubRest (l.foldl (fun s e => loseCopy e.2 s) t) = hubRest t :=
    fun l t => foldl_keeps hubRest (fun s e => loseCopy e.2 s) (fun _ _ => rfl) l t
  unfold resetList; dsimp only; rw [raiseD_hub]
  split
  · rw [h]; rfl
  · rfl

theorem useList_hub (q : Nat) (s : State) : hubRest (useList q s) = hubRest s := by
  unfold useList; split
  · exact resetList_hub q s
  · rfl

theorem linkPkt_hub (q : Nat) (p : Pkt) (s : State) : hubRest (linkPkt q p s) = hubRest s := useList_hub q s

theorem claim_hub {q n : Nat} {s s1 : State} {cells : List Nat} (h : claim q n s = some (cells, s1)) : hubRest s1 = hubRest s := by
  unfold claim at h; dsimp only at h; split at h
  · obtain ⟨-, rfl⟩ := Prod.mk.inj (Option.some.inj h)
    rw [raiseIf_hub]; exact useList_hub 63 s
  · cases h

theorem logRecord_hub (o : Occ) (s : State) : hubRest (logRecord o s) = hubRest s := by
  unfold logRecord; dsimp only
  (repeat' split) <;> (try have hk := claim_hub ‹_›) <;> first
    | rw [loseRecord_hub, useList_hub]
    | exact useList_hub 26 s
    | (rw [linkPkt_hub]; exact hk.trans (useList_hub 26 s))
    | exact hk.trans (useList_hub 26 s)

theorem deliver_hub (o : Occ) (s : State) : hubRest (deliver o s) = hubRest s := by
  have m : ∀ v t, hubRest (msixAll v t) = hubRest t := fun v t => hub_congr (by simp)
  unfold deliver; dsimp only
  (repeat' split) <;>
    simp only [logRecord_hub, addLevel_hub, m, captureTime_hub, setEventBit_hub, sample_hub, countEvent_hub]

theorem event_hub (m : SMap Word) (s : State) : hubRest { s with evh := { s.evh with event := m } } = hubRest s := rfl

theorem bumpSeq_hub (page : Nat) (s : State) : hubRest (bumpSeq page s) = hubRest s := event_hub _ s

theorem wave_hub (s : State) : hubRest (wave s) = hubRest s := by
  have h1 := foldl_keeps hubRest (fun s o => deliver o s) (fun s o => deliver_hub o s) (dedupe s.evh.occ)
  have h2 := foldl_keeps hubRest (fun s (e : Nat × Nat) => bumpSeq e.1 s) (fun s e => bumpSeq_hub e.1 s) (pagesSet (dedupe s.evh.occ))
  exact (h1 _).trans (h2 _)

theorem waves_hub (n : Nat) (s : State) : hubRest (waves n s) = hubRest s := by
  induction n generalizing s with
  | zero => rfl
  | succ n ih =>
    unfold waves; split
    · rfl
    · rw [ih, wave_hub]

/-- The occurrences that a delivery starts from. -/
def settleStart (s : State) : State := if s.pwr.boot == .inReset then { s with evh := { s.evh with occ := [] } } else s

/-- The waves of a delivery start from the occurrences, once they have woken CORE where they do. -/
def settleWoken (s : State) : State :=
  if (settleStart s).evh.occ.all (fun o => o.ev == 5) then settleStart s else wakeCore 3 5 (settleStart s)

/-- The hub and the power state after a delivery are those after its waves. -/
theorem settle_waves (s : State) : (settle s).evh = { (waves 300 (settleWoken s)).evh with occ := [], sub := 0 } ∧
    (settle s).pwr = (waves 300 (settleWoken s)).pwr := by
  unfold settle settleWoken settleStart; generalize 300 = n; exact ⟨rfl, rfl⟩

theorem wakeCore_hub (c b : Nat) (s : State) : hubRest (wakeCore c b s) = hubRest s := by unfold wakeCore; split <;> rfl

theorem settleWoken_hub (s : State) : hubRest (settleWoken s) = hubRest s := by
  have h : hubRest (settleStart s) = hubRest s := by unfold settleStart; split <;> rfl
  unfold settleWoken; split
  · exact h
  · exact (wakeCore_hub _ _ _).trans h

/-- The parts of the hub that a delivery leaves alone. -/
@[simp] theorem settle_evh (s : State) :
    Same4 (·.evh.held) (·.evh.routes) (·.evh.scanning) (·.evh.logWr) s (settle s) ∧
    Same3 (·.evh.logRd) (·.evh.memErr) (·.evh.replBase) s (settle s) := by
  have h := (waves_hub 300 _).trans (settleWoken_hub s)
  have e := (settle_waves s).1
  simp only [hubRest, Prod.mk.injEq] at h
  simp [Same4, Same3, e, h]

/-- A delivery changes no power state but CORE's wake state. -/
theorem settle_wake (s : State) : ∃ a l b, (settle s).pwr = { s.pwr with awake := a, wakeLast := l, wakeBits := b } := by
  have h : (settle s).pwr = (settleWoken s).pwr := by rw [(settle_waves s).2]; simp
  have h0 : (settleStart s).pwr = s.pwr := by unfold settleStart; split <;> rfl
  rw [h]; unfold settleWoken; split
  · exact ⟨_, _, _, h0⟩
  · rw [← h0]; unfold wakeCore; split <;> exact ⟨_, _, _, rfl⟩

/-- The state of the device stays through a delivery. -/
@[simp] theorem settle_pwr (s : State) :
    Same4 (·.pwr.st) (·.pwr.boot) (·.pwr.transit) (·.pwr.causes) s (settle s) ∧
    Same4 (·.pwr.lastReset) (·.pwr.aonOk) (·.pwr.brownout) (·.pwr.fromRun) s (settle s) := by
  obtain ⟨a, l, b, h⟩ := settle_wake s
  simp [Same4, h]

/-- With no occurrence to deliver, nothing happens. -/
theorem settle_quiet (s : State) (h : s.evh.occ = []) : settle s = { s with evh := { s.evh with occ := [], sub := 0 } } := by
  have e : ({ s with evh := { s.evh with occ := [] } } : State) = s := by rw [← h]
  have w : ∀ s : State, s.evh.occ = [] → waves 300 (if s.evh.occ.all (fun o => o.ev == 5) then s else wakeCore 3 5 s) = s := by
    intro s h; simp only [h, List.all_nil, if_true]; unfold waves; simp [h]
  unfold settle; dsimp only; rw [e]; simp only [ite_self]; rw [w s h]

/-- What a command that changes the state by `f` answers. -/
theorem run_eq (f : State → State) (s : State) : run f s = .next (settle (f { s with out := [] })) := rfl

end Sys2Proof.Machine
end

