-- ==== Sys2Proof/Laws/Event.lean ====
section
/-!
SUPPORT. An occurrence that a command raises sets its EVENT bit (R18, Table 2.4), and no delivery clears one.
-/

namespace Sys2Proof.Machine

open Sys2Proof

/-- Bit `b` of EVENT of page number `page`. -/
def evBit (s : State) (page b : Nat) : Bool := bitAt (mget 0 s.evh.event page) b

theorem evBit_congr {s t : State} (h : t.evh.event = s.evh.event) (page b : Nat) : evBit t page b = evBit s page b := by
  unfold evBit; rw [h]

/-- SEQ lies above the EVENT bits. -/
theorem bumpSeq_evBit (pg page b : Nat) (hb : b < 24) (s : State) : evBit (bumpSeq pg s) page b = evBit s page b := by
  have key : ∀ w : Word, (w + 0x01000000#32).getLsbD b = w.getLsbD b := by
    intro w
    rw [BitVec.getLsbD_add (by omega)]
    have hc : ∀ n, n ≤ 24 → BitVec.carry n w 0x01000000#32 false = false := by
      intro n hn
      simp only [BitVec.carry, decide_eq_false_iff_not, Nat.not_le, Bool.toNat_false, Nat.add_zero]
      have h1 : (0x01000000#32).toNat % 2 ^ n = 0 := by
        have : (0x01000000#32).toNat = 2 ^ 24 := rfl
        rw [this]; exact Nat.mod_eq_zero_of_dvd (pow_dvd_pow 2 hn)
      rw [h1]; exact Nat.lt_of_le_of_lt (Nat.le_of_eq (Nat.add_zero _)) (Nat.mod_lt _ (by positivity))
    rw [hc b (by omega)]
    have h0 : (0x01000000#32).getLsbD b = false := by interval_cases b <;> rfl
    simp [h0]
  unfold bumpSeq evBit bitAt; simp only
  by_cases h : page = pg
  · subst h; rw [mget_mset_same, key]
  · rw [mget_mset_ne _ _ h]

theorem setEventBit_mono (ev page b : Nat) (s : State) (h : evBit s page b = true) : evBit (setEventBit ev s) page b = true := by
  unfold setEventBit; split
  · rename_i k c _
    unfold evBit bitAt at *; simp only
    by_cases hk : page = k.num
    · subst hk; rw [mget_mset_same, BitVec.getLsbD_or, h]; rfl
    · rw [mget_mset_ne _ _ hk]; exact h
  · exact h

theorem setEventBit_sets (ev : Nat) (k : PageKind) (b : Nat) (hb : b < 24) (s : State) (h : eventPage ev = some (k, b)) :
    evBit (setEventBit ev s) k.num b = true := by
  unfold setEventBit; rw [h]
  unfold evBit bitAt; simp only
  rw [mget_mset_same, BitVec.getLsbD_or]
  have : (BitVec.ofNat 32 (2 ^ b)).getLsbD b = true := by interval_cases b <;> rfl
  rw [this]; exact Bool.or_true _

theorem event_countEvent (ev : Nat) (s : State) : (countEvent ev s).evh.event = s.evh.event := by
  unfold countEvent; dsimp only; split <;> rfl
theorem event_sample (ev : Nat) (s : State) : (sample ev s).evh.event = s.evh.event := by
  refine foldl_keeps (fun s => s.evh.event) _ ?_ _ s
  intro s i; unfold sampleOne; dsimp only; split
  · split <;> rfl
  · rfl
theorem event_captureTime (o : Occ) (s : State) : (captureTime o s).evh.event = s.evh.event := by
  unfold captureTime; dsimp only; (repeat' split) <;> rfl
theorem event_addLevel (g l ev : Nat) (s : State) : (addLevel g l ev s).evh.event = s.evh.event := by unfold addLevel; split <;> rfl
theorem event_msixAll (v : Nat) (s : State) : (msixAll v s).evh.event = s.evh.event := by simp
theorem event_loseRecord (ev : Nat) (s : State) : (loseRecord ev s).evh.event = s.evh.event := by
  unfold loseRecord; dsimp only; split <;> rfl
theorem event_useList (q : Nat) (s : State) : (useList q s).evh.event = s.evh.event := by
  have h : ∀ (l : List (Nat × Pkt)) (t : State), (l.foldl (fun s e => loseCopy e.2 s) t).evh.event = t.evh.event :=
    fun l t => foldl_keeps (fun s => s.evh.event) (fun s e => loseCopy e.2 s) (fun _ _ => rfl) l t
  unfold useList; split
  · unfold resetList; dsimp only; split
    · exact h _ _
    · rfl
  · rfl
theorem event_linkPkt (q : Nat) (p : Pkt) (s : State) : (linkPkt q p s).evh.event = s.evh.event := event_useList q s
theorem event_claim {q n : Nat} {s s1 : State} {cells : List Nat} (h : claim q n s = some (cells, s1)) :
    s1.evh.event = s.evh.event := by
  have hr : ∀ b t, (raiseIf b 118 t).evh.event = t.evh.event := by intro b t; unfold raiseIf; split <;> rfl
  unfold claim at h; dsimp only at h; split at h
  · obtain ⟨-, rfl⟩ := Prod.mk.inj (Option.some.inj h)
    rw [hr]; exact event_useList 63 s
  · cases h
theorem event_logRecord (o : Occ) (s : State) : (logRecord o s).evh.event = s.evh.event := by
  unfold logRecord; dsimp only
  (repeat' split) <;> (try have hk := event_claim ‹_›) <;> first
    | rw [event_loseRecord, event_useList]
    | exact event_useList 26 s
    | (rw [event_linkPkt]; exact hk.trans (event_useList 26 s))
    | exact hk.trans (event_useList 26 s)

theorem event_deliver (o : Occ) (s : State) : (deliver o s).evh.event = (setEventBit o.ev s).evh.event := by
  have h0 : ∀ {u v : State}, u.evh.event = v.evh.event → (setEventBit o.ev u).evh.event = (setEventBit o.ev v).evh.event := by
    intro u v h; unfold setEventBit; split
    · simp only [h]
    · exact h
  unfold deliver; dsimp only
  (repeat' split) <;> simp only [event_logRecord, event_addLevel, event_msixAll, event_captureTime] <;> apply h0 <;>
    simp only [event_sample, event_countEvent]

theorem deliver_mono (o : Occ) (page b : Nat) (s : State) (h : evBit s page b = true) : evBit (deliver o s) page b = true := by
  rw [evBit_congr (event_deliver o s)]; exact setEventBit_mono _ _ _ _ h

theorem deliver_sets (o : Occ) (k : PageKind) (b : Nat) (hb : b < 24) (s : State) (h : eventPage o.ev = some (k, b)) :
    evBit (deliver o s) k.num b = true := by
  rw [evBit_congr (event_deliver o s)]; exact setEventBit_sets _ _ _ hb _ h

theorem foldl_mono {α : Type} (g : State → α → State) (page b : Nat)
    (hg : ∀ s a, evBit s page b = true → evBit (g s a) page b = true) (l : List α) (s : State) (h : evBit s page b = true) :
    evBit (l.foldl g s) page b = true := by
  induction l generalizing s with
  | nil => exact h
  | cons a l ih => exact ih _ (hg _ _ h)

theorem wave_mono (page b : Nat) (hb : b < 24) (s : State) (h : evBit s page b = true) : evBit (wave s) page b = true := by
  unfold wave; dsimp only
  refine foldl_mono _ _ _ (fun s o h => deliver_mono o _ _ s h) _ _ ?_
  refine foldl_mono _ _ _ (fun s e h => ?_) _ _ h
  rw [bumpSeq_evBit _ _ _ hb]; exact h

theorem waves_mono (n page b : Nat) (hb : b < 24) (s : State) (h : evBit s page b = true) : evBit (waves n s) page b = true := by
  induction n generalizing s with
  | zero => exact h
  | succ n ih =>
    unfold waves; split
    · exact h
    · exact ih _ (wave_mono _ _ hb _ h)

/-- Occurrences of one event in one core cycle are one, and one of each is left. -/
theorem dedupe_ev (ev : Nat) (os : List Occ) (h : ∃ o ∈ os, o.ev = ev) : ∃ o ∈ dedupe os, o.ev = ev := by
  have key : ∀ (ev c : Nat) (os : List Occ), (∃ o ∈ os, o.ev = ev ∧ o.cyc = c) → ∃ o ∈ dedupe os, o.ev = ev ∧ o.cyc = c := by
    intro ev c os
    induction os with
    | nil => rintro ⟨o, ho, _⟩; cases ho
    | cons a l ih =>
      rintro ⟨o, ho, he, hc⟩
      by_cases ha : a.ev = ev ∧ a.cyc = c
      · exact ⟨a, List.mem_cons_self, ha⟩
      · rcases List.mem_cons.1 ho with rfl | ho
        · exact absurd ⟨he, hc⟩ ha
        · obtain ⟨p, hp, hpe, hpc⟩ := ih ⟨o, ho, he, hc⟩
          refine ⟨p, List.mem_cons_of_mem _ (List.mem_filter.2 ⟨hp, ?_⟩), hpe, hpc⟩
          rw [hpe, hpc]
          simp only [Bool.not_eq_true', Bool.and_eq_false_iff, beq_eq_false_iff_ne, ne_eq]
          by_cases h1 : ev = a.ev
          · exact .inr fun h2 => ha ⟨h1.symm, h2.symm⟩
          · exact .inl h1
  obtain ⟨o, ho, he⟩ := h
  obtain ⟨p, hp, hpe, _⟩ := key ev o.cyc os ⟨o, ho, he, rfl⟩
  exact ⟨p, hp, hpe⟩

theorem deliverAll_sets (ev : Nat) (k : PageKind) (b : Nat) (hb : b < 24) (he : eventPage ev = some (k, b)) (os : List Occ)
    (s : State) (h : ∃ o ∈ os, o.ev = ev) : evBit (os.foldl (fun s o => deliver o s) s) k.num b = true := by
  induction os generalizing s with
  | nil => obtain ⟨o, ho, _⟩ := h; cases ho
  | cons a l ih =>
    obtain ⟨o, ho, hh⟩ := h
    rw [List.foldl_cons]
    rcases List.mem_cons.1 ho with rfl | ho
    · exact foldl_mono _ _ _ (fun s o h => deliver_mono o _ _ s h) _ _ (deliver_sets _ _ _ hb _ (hh ▸ he))
    · exact ih _ ⟨o, ho, hh⟩

theorem wave_sets (ev : Nat) (k : PageKind) (b : Nat) (hb : b < 24) (s : State) (he : eventPage ev = some (k, b))
    (h : ∃ o ∈ s.evh.occ, o.ev = ev) : evBit (wave s) k.num b = true :=
  deliverAll_sets ev k b hb he _ _ (dedupe_ev ev _ h)

/-- An EVENT bit lies below SEQ. -/
theorem eventPage_lt (ev : Nat) (k : PageKind) (b : Nat) (h : eventPage ev = some (k, b)) : b < 24 := by
  unfold eventPage at h
  rw [Option.map_eq_some_iff] at h
  obtain ⟨k', hk, he⟩ := h
  obtain ⟨rfl, rfl⟩ := Prod.mk.inj he
  have hp := List.find?_some hk
  simp only [Bool.and_eq_true, decide_eq_true_eq] at hp
  have hn : k'.events.2 ≤ 16 := by cases k' <;> simp [PageKind.events]
  omega

theorem waves_sets (n ev : Nat) (k : PageKind) (b : Nat) (hb : b < 24) (t : State) (he : eventPage ev = some (k, b))
    (ht : ∃ o ∈ t.evh.occ, o.ev = ev) : evBit (waves (n + 1) t) k.num b = true := by
  unfold waves
  split
  · rename_i h0; obtain ⟨o, ho, _⟩ := ht; rw [List.isEmpty_iff.1 h0] at ho; cases ho
  · exact waves_mono _ _ _ hb _ (wave_sets ev k b hb t he ht)

theorem wakeCore_evBit (c i page b : Nat) (s : State) : evBit (wakeCore c i s) page b = evBit s page b := by
  unfold wakeCore; split <;> rfl

theorem wakeCore_occ (c i : Nat) (s : State) (o : Occ) (h : o ∈ s.evh.occ) : o ∈ (wakeCore c i s).evh.occ := by
  unfold wakeCore; split
  · exact List.mem_append_left _ h
  · exact h

theorem settle_evBit (s : State) (page b : Nat) : evBit (settle s) page b = evBit (waves 300 (settleWoken s)) page b :=
  evBit_congr (by rw [(settle_waves s).1]) page b

/-- Outside device reset, an occurrence that a command raised has its EVENT bit set after it (R18, R342). -/
theorem settle_event (ev : Nat) (k : PageKind) (b : Nat) (s : State) (hr : s.pwr.boot ≠ .inReset) (he : eventPage ev = some (k, b))
    (h : ∃ o ∈ s.evh.occ, o.ev = ev) : EventSet (settle s) ev := by
  have ht : settleStart s = s := by unfold settleStart; simp [hr]
  refine ⟨k, b, he, (settle_evBit s k.num b).trans (waves_sets 299 ev k b (eventPage_lt ev k b he) _ he ?_)⟩
  unfold settleWoken; rw [ht]; split
  · exact h
  · obtain ⟨o, ho, hh⟩ := h
    exact ⟨o, wakeCore_occ _ _ _ o ho, hh⟩

/-- A bit that is set stays set through the delivery of events. -/
theorem settle_event_mono (ev : Nat) (s : State) (h : EventSet s ev) : EventSet (settle s) ev := by
  obtain ⟨k, b, he, hb⟩ := h
  refine ⟨k, b, he, (settle_evBit s k.num b).trans (waves_mono 300 _ _ (eventPage_lt ev k b he) _ ?_)⟩
  have h1 : evBit (settleStart s) k.num b = true := by unfold settleStart; split <;> exact hb
  unfold settleWoken; split
  · exact h1
  · exact (wakeCore_evBit 3 5 _ _ _).trans h1

theorem raise_mem (ev : Nat) (s : State) : ∃ o ∈ (raise ev s).evh.occ, o.ev = ev := ⟨_, List.mem_append_right _ (List.mem_singleton.2 rfl), rfl⟩
theorem raiseD_mem (ev : Nat) (a b : Word) (s : State) : ∃ o ∈ (raiseD ev a b s).evh.occ, o.ev = ev :=
  ⟨_, List.mem_append_right _ (List.mem_singleton.2 rfl), rfl⟩
theorem raise_occ (ev : Nat) (s : State) (o : Occ) (h : o ∈ s.evh.occ) : o ∈ (raise ev s).evh.occ := List.mem_append_left _ h
theorem raiseD_occ (ev : Nat) (a b : Word) (s : State) (o : Occ) (h : o ∈ s.evh.occ) : o ∈ (raiseD ev a b s).evh.occ :=
  List.mem_append_left _ h

end Sys2Proof.Machine
end

