-- ==== Sys2Proof/Laws/KeepVote.lean ====
section
/-!
SUPPORT. What the operations of the process image and the vote unit leave alone: one lemma per operation, over the parts of
`State` that no path of it writes, so that no proof unfolds an operation to see that a part is unchanged.
-/

namespace Sys2Proof.Machine

open Sys2Proof

@[simp] theorem abandonPush_keeps (p : Port) (s : State) :
    SameStill s (abandonPush p s) ∧ SameUnits s (abandonPush p s) ∧ SameHeld s (abandonPush p s) ∧
    SamePlant s (abandonPush p s) ∧ SameVote s (abandonPush p s) ∧ Same2 State.out State.msix s (abandonPush p s) := by
  unfold abandonPush; dsimp only; (repeat' split) <;> simp [*]

@[simp] theorem noteBus_keeps (x0 : Nat) (b : Bool) (s : State) : OnlyImg s (noteBus x0 b s) := by simp [noteBus]

@[simp] theorem putImg_keeps (off : Nat) (bs : List Byte) (s : State) : OnlyImg s (putImg off bs s) := by simp [putImg]

@[simp] theorem putFlags_keeps (off set clear : Nat) (s : State) : OnlyImg s (putFlags off set clear s) := by simp [putFlags]

@[simp] theorem busError_keeps (x0 : Nat) (s : State) : OnlyImg s (busError x0 s) := by simp [busError]

@[simp] theorem abortStream_keeps (r : Nat) (s : State) :
    SameStill s (abortStream r s) ∧ SamePorts s (abortStream r s) ∧ SameUnits s (abortStream r s) ∧
    SamePlant s (abortStream r s) ∧ SameVote s (abortStream r s) ∧ Same3 State.tap State.pwr State.regs s (abortStream r s) := by
  unfold abortStream; dsimp only; (repeat' split) <;> simp [*]

@[simp] theorem putSlot_keeps (i v : Nat) (s : State) : OnlyImg s (putSlot i v s) := by simp [putSlot]

@[simp] theorem putRec_keeps (off hdr : Nat) (data : List Byte) (s : State) :
    OnlyImg s (putRec off hdr data s) := by simp [putRec]

@[simp] theorem writeInput_keeps (i : Nat) (data : List Byte) (flags src a cy : Nat) (s : State) :
    OnlyImg s (writeInput i data flags src a cy s) := by simp [writeInput]

@[simp] theorem writeOut_keeps (x0 hdr : Nat) (data : List Byte) (s : State) :
    OnlyImg s (writeOut x0 hdr data s) := by simp [writeOut]

@[simp] theorem discardPkt_keeps (q : Nat) (cells : List Nat) (s : State) :
    OnlyCrl s (discardPkt q cells s) := by simp [discardPkt]

@[simp] theorem dropHeld_keeps (k : Word) (pat : Nat) (s : State) : OnlyCrl s (dropHeld k pat s) := by simp [dropHeld]

@[simp] theorem dropClosed_keeps (e : MEntry) (s : State) :
    SameStill s (dropClosed e s) ∧ SamePorts s (dropClosed e s) ∧ SameUnits s (dropClosed e s) ∧ SameHeld s (dropClosed e s) ∧
    SamePlant s (dropClosed e s) ∧ Same2 State.regs State.evh s (dropClosed e s) := by simp [dropClosed]

@[simp] theorem addClosed_keeps (e : MEntry) (s : State) : OnlyLists s (addClosed e s) := by
  unfold addClosed; dsimp only; (repeat' split) <;> simp [*]

@[simp] theorem noteRemote_keeps (patE pat : Nat) (o : Origin) (s : State) :
    OnlyRng s (noteRemote patE pat o s) := by simp [noteRemote]

@[simp] theorem readAgain_keeps (e : MEntry) (s : State) :
    SameStill s (readAgain e s) ∧ SamePorts s (readAgain e s) ∧ SameUnits s (readAgain e s) ∧ SameHeld s (readAgain e s) ∧
    SamePlant s (readAgain e s) ∧ Same2 State.regs State.evh s (readAgain e s) := by simp [readAgain]

@[simp] theorem complete_keeps (p : Port) (tag a : Nat) (ep : Bool) (bs : List Byte) (s : State) :
    SameStill s (complete p tag a ep bs s) ∧ SameUnits s (complete p tag a ep bs s) ∧ SameHeld s (complete p tag a ep bs s) ∧
    SamePlant s (complete p tag a ep bs s) ∧ SameVote s (complete p tag a ep bs s) ∧
    Same4 State.tx State.msix State.regs State.evh s (complete p tag a ep bs s) := by simp [complete]

@[simp] theorem completeCa_keeps (p : Port) (tag : Nat) (s : State) :
    SameStill s (completeCa p tag s) ∧ SameHeld s (completeCa p tag s) ∧ SamePlant s (completeCa p tag s) ∧
    SameVote s (completeCa p tag s) ∧ Same4 State.tx State.msix State.bus State.ch s (completeCa p tag s) ∧
    Same2 State.mnt State.regs s (completeCa p tag s) := by simp [completeCa]

@[simp] theorem completeFailed_keeps (p : Port) (tag a n : Nat) (rdpol : Bool) (s : State) :
    SameStill s (completeFailed p tag a n rdpol s) ∧ SameHeld s (completeFailed p tag a n rdpol s) ∧
    SamePlant s (completeFailed p tag a n rdpol s) ∧ SameVote s (completeFailed p tag a n rdpol s) ∧
    Same4 State.tx State.msix State.bus State.ch s (completeFailed p tag a n rdpol s) ∧
    Same2 State.mnt State.regs s (completeFailed p tag a n rdpol s) := by simp [completeFailed]

@[simp] theorem answerCopy_keeps (e : MEntry) (c : MCopy) (s : State) :
    SameStill s (answerCopy e c s) ∧ SamePlant s (answerCopy e c s) ∧ SameVote s (answerCopy e c s) ∧
    Same4 State.tx State.msix State.bus State.ch s (answerCopy e c s) ∧
    Same3 State.mnt State.alm State.pwr s (answerCopy e c s) := by
  unfold answerCopy; dsimp only; (repeat' split) <;> simp [*]

@[simp] theorem putEntry_keeps (e : MEntry) (s : State) : OnlyVot s (putEntry e s) := by simp [putEntry]

@[simp] theorem readResult_keeps (k : Word) (pat : Nat) (failed : Bool) (bs : List Byte) (s : State) :
    SameStill s (readResult k pat failed bs s) ∧ SamePlant s (readResult k pat failed bs s) ∧
    Same4 State.tx State.msix State.bus State.ch s (readResult k pat failed bs s) ∧
    Same3 State.mnt State.alm State.pwr s (readResult k pat failed bs s) := by
  unfold readResult; dsimp only; (repeat' split) <;> simp [*]

@[simp] theorem startRead_keeps (e : MEntry) (c : MCopy) (s : State) :
    SameStill s (startRead e c s) ∧ Same4 State.tx State.msix State.bus State.ch s (startRead e c s) ∧
    Same4 State.mnt State.alm State.pwr State.lom s (startRead e c s) ∧ Same2 State.seg State.img s (startRead e c s) := by
  unfold startRead; dsimp only; (repeat' split) <;> (try have hk_claim := claim_keeps ‹_›) <;> simp [*]

@[simp] theorem issueWrite_keeps (e : MEntry) (c : MCopy) (s : State) :
    SameStill s (issueWrite e c s) ∧ SamePorts s (issueWrite e c s) ∧ SameUnits s (issueWrite e c s) ∧
    SameHeld s (issueWrite e c s) ∧ Same4 State.lom State.seg State.img State.regs s (issueWrite e c s) := by
  unfold issueWrite; dsimp only; (repeat' split) <;> simp [*]

@[simp] theorem setChState_keeps (c : Port) (st : ChState) (s : State) :
    SameStill s (setChState c st s) ∧ SamePorts s (setChState c st s) ∧ SameHeld s (setChState c st s) ∧
    SamePlant s (setChState c st s) ∧ SameVote s (setChState c st s) ∧
    Same4 State.bus State.mnt State.freeCount State.regs s (setChState c st s) := by simp [setChState]

@[simp] theorem staleDrop_keeps (isWrite : Bool) (s : State) : OnlyReports s (staleDrop isWrite s) := by simp [staleDrop]

@[simp] theorem discardCopy_keeps (c : MCopy) (s : State) :
    SameStill s (discardCopy c s) ∧ SamePorts s (discardCopy c s) ∧ SameUnits s (discardCopy c s) ∧
    SameHeld s (discardCopy c s) ∧ SamePlant s (discardCopy c s) ∧ Same1 State.vot s (discardCopy c s) := by simp [discardCopy]

@[simp] theorem discardCopies_keeps (c : Port) (s : State) :
    SameStill s (discardCopies c s) ∧ SamePorts s (discardCopies c s) ∧ SameUnits s (discardCopies c s) ∧
    SameHeld s (discardCopies c s) ∧ SamePlant s (discardCopies c s) := by simp [discardCopies]

@[simp] theorem fencedVector_keeps (p : Port) (s : State) : OnlyLinks s (fencedVector p s) := by simp [fencedVector]

@[simp] theorem becomeReady_keeps (c : Port) (s : State) :
    SameStill s (becomeReady c s) ∧ SamePorts s (becomeReady c s) ∧ SameHeld s (becomeReady c s) ∧
    SamePlant s (becomeReady c s) ∧ SameVote s (becomeReady c s) ∧
    Same4 State.bus State.mnt State.freeCount State.regs s (becomeReady c s) := by simp [becomeReady]

@[simp] theorem observersReady_keeps (s : State) :
    SameStill s (observersReady s) ∧ SamePorts s (observersReady s) ∧ SameHeld s (observersReady s) ∧
    SamePlant s (observersReady s) ∧ SameVote s (observersReady s) ∧
    Same4 State.bus State.mnt State.freeCount State.regs s (observersReady s) := by simp [observersReady]

@[simp] theorem stopController_keeps (cause : Nat) (s : State) :
    SameStill s (stopController cause s) ∧ SamePorts s (stopController cause s) ∧ SameUnits s (stopController cause s) ∧
    SameHeld s (stopController cause s) ∧ SameVote s (stopController cause s) ∧
    Same4 State.lom State.rng State.seg State.regs s (stopController cause s) := by simp [stopController]

@[simp] theorem setMode_keeps (m : VoteMode) (s : State) :
    SameStill s (setMode m s) ∧ SamePorts s (setMode m s) ∧ SameUnits s (setMode m s) ∧ SameHeld s (setMode m s) ∧
    Same3 State.lom State.rng State.seg s (setMode m s) ∧ Same2 State.crl State.regs s (setMode m s) := by simp [setMode]

@[simp] theorem evalMode_keeps (s : State) :
    SameStill s (evalMode s) ∧ SamePorts s (evalMode s) ∧ SameUnits s (evalMode s) ∧ SameHeld s (evalMode s) ∧
    Same3 State.lom State.rng State.seg s (evalMode s) ∧ Same2 State.crl State.regs s (evalMode s) := by simp [evalMode]

@[simp] theorem promoteAll_keeps (x0 : Nat) (x1 : State) :
    SameStill x1 (promoteAll x0 x1) ∧ SamePorts x1 (promoteAll x0 x1) ∧ SameHeld x1 (promoteAll x0 x1) ∧
    SamePlant x1 (promoteAll x0 x1) ∧ SameVote x1 (promoteAll x0 x1) ∧
    Same4 State.bus State.mnt State.freeCount State.regs x1 (promoteAll x0 x1) := by
  induction x0 generalizing x1 with
  | zero => (unfold promoteAll; simp)
  | succ n ih => (unfold promoteAll; (repeat' split) <;> simp [*])

@[simp] theorem askPush_keeps (p : Port) (n : Word) (s : State) :
    SameStill s (askPush p n s) ∧ SameUnits s (askPush p n s) ∧ SameHeld s (askPush p n s) ∧ SamePlant s (askPush p n s) ∧
    SameVote s (askPush p n s) ∧ Same3 State.out State.tx State.msix s (askPush p n s) := by simp [askPush]

@[simp] theorem takeFreeze_keeps (n : Word) (s : State) :
    SameStill s (takeFreeze n s) ∧ SamePorts s (takeFreeze n s) ∧ SameUnits s (takeFreeze n s) ∧ SameHeld s (takeFreeze n s) ∧
    SameVote s (takeFreeze n s) ∧ Same4 State.lom State.rng State.seg State.regs s (takeFreeze n s) := by simp [takeFreeze]

@[simp] theorem treatFreeze_keeps (c : Port) (n : Word) (s : State) :
    SameStill s (treatFreeze c n s) ∧ SameUnits s (treatFreeze c n s) ∧ SameHeld s (treatFreeze c n s) ∧
    SameVote s (treatFreeze c n s) ∧ Same4 State.out State.tx State.msix State.lom s (treatFreeze c n s) ∧
    Same2 State.rng State.seg s (treatFreeze c n s) := by simp [treatFreeze]

@[simp] theorem retryFreeze_keeps (c : Port) (s : State) :
    SameStill s (retryFreeze c s) ∧ SameUnits s (retryFreeze c s) ∧ SameHeld s (retryFreeze c s) ∧ SameVote s (retryFreeze c s) ∧
    Same4 State.out State.tx State.msix State.lom s (retryFreeze c s) ∧ Same2 State.rng State.seg s (retryFreeze c s) := by
  unfold retryFreeze; (repeat' split) <;> simp [*]

@[simp] theorem retryFreezes_keeps (s : State) :
    SameStill s (retryFreezes s) ∧ SameUnits s (retryFreezes s) ∧ SameHeld s (retryFreezes s) ∧ SameVote s (retryFreezes s) ∧
    Same4 State.out State.tx State.msix State.lom s (retryFreezes s) ∧ Same2 State.rng State.seg s (retryFreezes s) := by
  simp [retryFreezes]

@[simp] theorem settleChannels_keeps (s : State) :
    SameStill s (settleChannels s) ∧ SameHeld s (settleChannels s) ∧
    Same4 State.out State.tx State.msix State.bus s (settleChannels s) ∧
    Same4 State.mnt State.freeCount State.lom State.rng s (settleChannels s) ∧ Same2 State.seg State.crl s (settleChannels s) := by
  simp [settleChannels]

@[simp] theorem endOne_keeps (s : State) :
    SameStill s (endOne s) ∧ SameHeld s (endOne s) ∧ Same4 State.out State.tx State.msix State.bus s (endOne s) ∧
    Same4 State.mnt State.freeCount State.lom State.rng s (endOne s) ∧ Same2 State.seg State.crl s (endOne s) := by
  unfold endOne; simp

@[simp] theorem fence_keeps (c : Port) (portReset : Bool) (s : State) :
    SameStill s (fence c portReset s) ∧ Same4 State.mnt State.tap State.pwr State.lom s (fence c portReset s) ∧
    Same2 State.rng State.seg s (fence c portReset s) := by simp [fence]

@[simp] theorem charge_keeps (mode : VoteMode) (c : Port) (s : State) :
    SameStill s (charge mode c s) ∧ Same4 State.mnt State.tap State.pwr State.lom s (charge mode c s) ∧
    Same2 State.rng State.seg s (charge mode c s) := by
  unfold charge; simp

@[simp] theorem observerMiss_keeps (c : Port) (s : State) :
    SameStill s (observerMiss c s) ∧ SamePorts s (observerMiss c s) ∧ SameHeld s (observerMiss c s) ∧
    SamePlant s (observerMiss c s) ∧ SameVote s (observerMiss c s) ∧
    Same4 State.bus State.mnt State.freeCount State.regs s (observerMiss c s) := by simp [observerMiss]

@[simp] theorem closeEntry_keeps (e : MEntry) (s : State) :
    SameStill s (closeEntry e s) ∧ Same4 State.mnt State.tap State.pwr State.lom s (closeEntry e s) ∧
    Same2 State.rng State.seg s (closeEntry e s) := by
  unfold closeEntry; dsimp only; (repeat' split) <;> simp [*]

@[simp] theorem readCopy_keeps (c : MCopy) (s : State) :
    SameStill s (readCopy c s).2 ∧ SamePorts s (readCopy c s).2 ∧ SameUnits s (readCopy c s).2 ∧ SamePlant s (readCopy c s).2 ∧
    Same3 State.alm State.pwr State.vot s (readCopy c s).2 := by
  unfold readCopy; dsimp only; (repeat' split) <;> simp [*]

theorem readCopy_pair {c : MCopy} {s : State} {y0 : MCopy} {t1 : State} (h : readCopy c s = (y0, t1)) :
    SameStill s t1 ∧ SamePorts s t1 ∧ SameUnits s t1 ∧ SamePlant s t1 ∧ Same3 State.alm State.pwr State.vot s t1 := by
  have k := readCopy_keeps c s
  rw [h] at k; exact k

@[simp] theorem answerPart_keeps (e : MEntry) (c : MCopy) (s : State) :
    SameStill s (answerPart e c s).2 ∧ SameUnits s (answerPart e c s).2 ∧ SameHeld s (answerPart e c s).2 ∧
    SamePlant s (answerPart e c s).2 ∧ SameVote s (answerPart e c s).2 ∧
    Same4 State.tx State.msix State.regs State.evh s (answerPart e c s).2 := by
  unfold answerPart; dsimp only; (repeat' split) <;> simp [*]

theorem answerPart_pair {e : MEntry} {c : MCopy} {s : State} {y0 : MCopy} {t1 : State} (h : answerPart e c s = (y0, t1)) :
    SameStill s t1 ∧ SameUnits s t1 ∧ SameHeld s t1 ∧ SamePlant s t1 ∧ SameVote s t1 ∧
    Same4 State.tx State.msix State.regs State.evh s t1 := by
  have k := answerPart_keeps e c s
  rw [h] at k; exact k

@[simp] theorem lateCopy_keeps (e : Option MEntry) (c : MCopy) (s : State) :
    SameStill s (lateCopy e c s) ∧ SamePlant s (lateCopy e c s) ∧
    Same4 State.tx State.msix State.bus State.ch s (lateCopy e c s) ∧
    Same4 State.mnt State.alm State.pwr State.vot s (lateCopy e c s) := by
  unfold lateCopy; dsimp only; (repeat' split) <;> simp [*]

@[simp] theorem openEntry_keeps (c : MCopy) (s : State) :
    SameStill s (openEntry c s) ∧ SamePorts s (openEntry c s) ∧ SameUnits s (openEntry c s) ∧ SameHeld s (openEntry c s) ∧
    SamePlant s (openEntry c s) ∧ Same2 State.crl State.regs s (openEntry c s) := by simp [openEntry]

@[simp] theorem presentCopy_keeps (c0 : MCopy) (s0 : State) :
    SameStill s0 (presentCopy c0 s0) ∧ SamePlant s0 (presentCopy c0 s0) ∧
    Same4 State.tx State.msix State.bus State.ch s0 (presentCopy c0 s0) ∧
    Same3 State.mnt State.alm State.pwr s0 (presentCopy c0 s0) := by
  unfold presentCopy; dsimp only; (repeat' split) <;> (try have hk_answerPart := answerPart_pair ‹_›) <;>
        (try have hk_readCopy := readCopy_pair ‹_›) <;> simp [*]

@[simp] theorem voteRound_keeps (s : State) :
    SameStill s (voteRound s) ∧ Same4 State.mnt State.pwr State.lom State.seg s (voteRound s) := by
  unfold voteRound; dsimp only; (repeat' split) <;> simp [*]

@[simp] theorem voteRounds_keeps (x0 : Nat) (x1 : State) :
    SameStill x1 (voteRounds x0 x1) ∧ Same4 State.mnt State.pwr State.lom State.seg x1 (voteRounds x0 x1) := by
  induction x0 generalizing x1 with
  | zero => (unfold voteRounds; simp)
  | succ n ih => (unfold voteRounds; (repeat' split) <;> simp [*])

@[simp] theorem voteUnit_keeps (s : State) :
    SameStill s (voteUnit s) ∧ Same4 State.mnt State.pwr State.lom State.seg s (voteUnit s) := by simp [voteUnit]

@[simp] theorem refusedVector_keeps (p : Port) (s : State) : OnlyLinks s (refusedVector p s) := by
  unfold refusedVector; (repeat' split) <;> simp [*]

@[simp] theorem putEff_keeps (i j : Nat) (w : Word) (s : State) : OnlyFrc s (putEff i j w s) := by simp [putEff]

@[simp] theorem putFrc_keeps (i j : Nat) (w : Word) (s : State) : OnlyFrc s (putFrc i j w s) := by
  unfold putFrc; simp

@[simp] theorem closeAccount_keeps (ci : Option CommitInfo) (s : State) :
    SameStill s (closeAccount ci s) ∧ Same4 State.mnt State.tap State.pwr State.lom s (closeAccount ci s) ∧
    Same2 State.rng State.seg s (closeAccount ci s) := by simp [closeAccount]

@[simp] theorem releaseStg_keeps (s : State) (c : Port) : OnlyImg s (releaseStg s c) := by simp [releaseStg]

@[simp] theorem dropCopy_keeps (s : State) (c : Port) :
    SameStill s (dropCopy s c) ∧ SamePorts s (dropCopy s c) ∧ SameHeld s (dropCopy s c) ∧ SameVote s (dropCopy s c) ∧
    Same4 State.bus State.mnt State.freeCount State.lom s (dropCopy s c) ∧
    Same4 State.rng State.seg State.regs State.evh s (dropCopy s c) := by simp [dropCopy]

@[simp] theorem commitOp_keeps (n : Word) (p q : Port) (kp kq : Word) (s : State) :
    SameStill s (commitOp n p q kp kq s) ∧ Same4 State.mnt State.tap State.pwr State.lom s (commitOp n p q kp kq s) ∧
    Same2 State.rng State.seg s (commitOp n p q kp kq s) := by simp [commitOp]

@[simp] theorem fetchOne_keeps (j : Nat) (s : State) :
    SameStill s (fetchOne j s) ∧ SamePorts s (fetchOne j s) ∧ SameUnits s (fetchOne j s) ∧ SamePlant s (fetchOne j s) ∧
    SameVote s (fetchOne j s) ∧ Same2 State.alm State.pwr s (fetchOne j s) := by simp [fetchOne]

@[simp] theorem fetchPat_keeps (i : Nat) (s : State) :
    SameStill s (fetchPat i s) ∧ SamePorts s (fetchPat i s) ∧ SameUnits s (fetchPat i s) ∧ SamePlant s (fetchPat i s) ∧
    SameVote s (fetchPat i s) ∧ Same2 State.alm State.pwr s (fetchPat i s) := by
  unfold fetchPat; simp

@[simp] theorem completeUr_keeps (p : Port) (tag : Nat) (s : State) :
    SameStill s (completeUr p tag s) ∧ SameHeld s (completeUr p tag s) ∧ SamePlant s (completeUr p tag s) ∧
    SameVote s (completeUr p tag s) ∧ Same4 State.tx State.msix State.bus State.ch s (completeUr p tag s) ∧
    Same2 State.mnt State.regs s (completeUr p tag s) := by simp [completeUr]

@[simp] theorem imgCapture_keeps (w : Nat) (uncorr : Bool) (s : State) :
    OnlyReports s (imgCapture w uncorr s) := by simp [imgCapture]

@[simp] theorem answerParts_keeps (e : MEntry) (x1 : List MCopy) (x2 : State) :
    SameStill x2 (answerParts e x1 x2).2 ∧ SameUnits x2 (answerParts e x1 x2).2 ∧ SameHeld x2 (answerParts e x1 x2).2 ∧
    SamePlant x2 (answerParts e x1 x2).2 ∧ SameVote x2 (answerParts e x1 x2).2 ∧
    Same4 State.tx State.msix State.regs State.evh x2 (answerParts e x1 x2).2 := by
  induction x1 generalizing x2 with
  | nil => (unfold answerParts; simp)
  | cons a as ih => (unfold answerParts; dsimp only; (repeat' split) <;> (try have hk_answerPart := answerPart_pair ‹_›) <;>
        simp [*])

theorem answerParts_pair {e : MEntry} {x1 : List MCopy} {x2 : State} {y0 : List MCopy} {t1 : State} (h : answerParts e x1 x2
    = (y0, t1)) :
    SameStill x2 t1 ∧ SameUnits x2 t1 ∧ SameHeld x2 t1 ∧ SamePlant x2 t1 ∧ SameVote x2 t1 ∧
    Same4 State.tx State.msix State.regs State.evh x2 t1 := by
  have k := answerParts_keeps e x1 x2
  rw [h] at k; exact k

@[simp] theorem busClear_keeps (x0 : Nat) (s : State) : OnlyImg s (busClear x0 s) := by simp [busClear]

@[simp] theorem eccError_keeps (x0 : Nat) (s : State) : OnlyImg s (eccError x0 s) := by
  unfold eccError; simp

@[simp] theorem imgMeet_keeps (a n : Nat) (s : State) :
    SameStill s (imgMeet a n s) ∧ SamePorts s (imgMeet a n s) ∧ SameUnits s (imgMeet a n s) ∧ SamePlant s (imgMeet a n s) ∧
    SameVote s (imgMeet a n s) ∧ Same2 State.alm State.pwr s (imgMeet a n s) := by simp [imgMeet]

@[simp] theorem readPart_keeps (k : Word) (pat : Nat) (bs : List Byte) (s : State) :
    SameStill s (readPart k pat bs s) ∧ SameUnits s (readPart k pat bs s) ∧ SameHeld s (readPart k pat bs s) ∧
    SamePlant s (readPart k pat bs s) ∧ Same3 State.tx State.msix State.crl s (readPart k pat bs s) ∧
    Same2 State.regs State.evh s (readPart k pat bs s) := by
  unfold readPart; dsimp only; (repeat' split) <;> (try have hk_answerParts := answerParts_pair ‹_›) <;> simp [*]

@[simp] theorem meetStaging_keeps (p : Port) (recs : List (Nat × Nat)) (s : State) :
    SameStill s (meetStaging p recs s) ∧ SamePorts s (meetStaging p recs s) ∧ SameUnits s (meetStaging p recs s) ∧
    SamePlant s (meetStaging p recs s) ∧ SameVote s (meetStaging p recs s) ∧
    Same2 State.alm State.pwr s (meetStaging p recs s) := by simp [meetStaging]

@[simp] theorem copyRetain_keeps (outs : List (Nat × Nat × Bool × Nat)) (s : State) :
    OnlyImg s (copyRetain outs s) := by simp [copyRetain]

@[simp] theorem finishRun_keeps (r : CommitRun) (s00 : State) :
    SameStill s00 (finishRun r s00) ∧ SamePorts s00 (finishRun r s00) ∧
    Same4 State.bus State.ch State.mnt State.alm s00 (finishRun r s00) ∧
    Same3 State.pwr State.lom State.rng s00 (finishRun r s00) ∧ Same2 State.seg State.crl s00 (finishRun r s00) := by
  simp [finishRun]

@[simp] theorem copyRead_keeps (c : Port) (ci : CommitInfo) (s : State) :
    SameStill s (copyRead c ci s) ∧ SamePorts s (copyRead c ci s) ∧ SameVote s (copyRead c ci s) ∧
    Same4 State.bus State.mnt State.freeCount State.alm s (copyRead c ci s) ∧
    Same4 State.pwr State.lom State.rng State.seg s (copyRead c ci s) := by simp [copyRead]

@[simp] theorem observerCompare_keeps (c : Port) (s : State) :
    SameStill s (observerCompare c s) ∧ Same4 State.out State.tx State.msix State.bus s (observerCompare c s) ∧
    Same4 State.mnt State.freeCount State.alm State.pwr s (observerCompare c s) ∧
    Same4 State.lom State.rng State.seg State.crl s (observerCompare c s) := by
  unfold observerCompare; dsimp only; (repeat' split) <;> simp [*]

@[simp] theorem rewriteRetain_keeps (s : State) : OnlyImg s (rewriteRetain s) := by simp [rewriteRetain]

@[simp] theorem thirdCompare_keeps (t : Port) (s : State) :
    SameStill s (thirdCompare t s) ∧ Same3 State.mnt State.pwr State.lom s (thirdCompare t s) ∧
    Same2 State.rng State.seg s (thirdCompare t s) := by
  unfold thirdCompare; dsimp only; (repeat' split) <;> simp [*]

end Sys2Proof.Machine
end

