-- ==== Sys2Proof/Laws/KeepSeg.lean ====
section
/-!
SUPPORT. What the operations of the legacy segments, as master and as slave leave alone: one lemma per operation, over the parts of
`State` that no path of it writes, so that no proof unfolds an operation to see that a part is unchanged.
-/

namespace Sys2Proof.Machine

open Sys2Proof

@[simp] theorem recError_keeps (p : Pat) (s : State) : OnlyImg s (recError p s) := by simp [recError]

@[simp] theorem entryDone_keeps (i c : Nat) (s : State) : OnlyLom s (entryDone i c s) := by simp [entryDone]

@[simp] theorem mailStart_keeps (p : Pkt) (s : State) :
    SameStill s (mailStart p s) ∧ SamePorts s (mailStart p s) ∧ SameUnits s (mailStart p s) ∧ SameHeld s (mailStart p s) ∧
    Same3 State.lom State.img State.regs s (mailStart p s) := by simp [mailStart]

@[simp] theorem mailPump_keeps (s : State) :
    SameStill s (mailPump s) ∧ SamePorts s (mailPump s) ∧ SameHeld s (mailPump s) ∧
    Same4 State.bus State.ch State.freeCount State.lom s (mailPump s) ∧ Same2 State.img State.regs s (mailPump s) := by
  unfold mailPump; dsimp only; (repeat' split) <;> (try have hk_claim := claim_keeps ‹_›) <;> simp [*]

@[simp] theorem takeHead_keeps (q : Nat) (s0 : State) : OnlyLists s0 (takeHead q s0).2 := by
  unfold takeHead; dsimp only; (repeat' split) <;> simp [*]

theorem takeHead_pair {q : Nat} {s0 : State} {y0 : Option Pkt} {t1 : State} (h : takeHead q s0 = (y0, t1)) :
    OnlyLists s0 t1 := by
  have k := takeHead_keeps q s0
  rw [h] at k; exact k

@[simp] theorem ringPump_keeps (x0 : Nat) (x1 : State) : OnlyLists x1 (ringPump x0 x1) := by
  induction x0 generalizing x1 with
  | zero => (unfold ringPump; simp)
  | succ n ih => (unfold ringPump; dsimp only; (repeat' split) <;> (try have hk_takeHead := takeHead_pair ‹_›) <;> simp [*])

@[simp] theorem dropBus_keeps (g : Seg) (s : State) : OnlySeg s (dropBus g s) := by simp [dropBus]

@[simp] theorem shelve_keeps (g : Seg) (s : State) : OnlySeg s (shelve g s) := by
  unfold shelve; (repeat' split) <;> simp [*]

@[simp] theorem schedReadFail_keeps (p : Pat) (s : State) : OnlyImg s (schedReadFail p s) := by
  unfold schedReadFail; dsimp only; (repeat' split) <;> simp [*]

@[simp] theorem moveHead_keeps (q q2 : Nat) (bs : List Byte) (status : Nat) (s : State) :
    OnlyLists s (moveHead q q2 bs status s) := by
  unfold moveHead; dsimp only; (repeat' split) <;> (try have hk_takeHead := takeHead_pair ‹_›) <;> simp [*]

@[simp] theorem queueResponse_keeps (p : Pkt) (s : State) :
    SameStill s (queueResponse p s) ∧ SamePorts s (queueResponse p s) ∧ SameUnits s (queueResponse p s) ∧
    SameHeld s (queueResponse p s) ∧ Same4 State.lom State.seg State.img State.regs s (queueResponse p s) := by
  unfold queueResponse; dsimp only; (repeat' split) <;> (try have hk_claim := claim_keeps ‹_›) <;> simp [*]

@[simp] theorem respondStatus_keeps (rp : RingPort) (src tag status cy : Nat) (s : State) :
    SameStill s (respondStatus rp src tag status cy s) ∧ SamePorts s (respondStatus rp src tag status cy s) ∧
    SameUnits s (respondStatus rp src tag status cy s) ∧ SameHeld s (respondStatus rp src tag status cy s) ∧
    Same4 State.lom State.seg State.img State.regs s (respondStatus rp src tag status cy s) := by
  unfold respondStatus; (repeat' split) <;> simp [*]

@[simp] theorem slaveAnswer_keeps (g : Seg) (a : Nat) (bs : List Byte) (s : State) :
    SameStill s (slaveAnswer g a bs s) ∧ SameUnits s (slaveAnswer g a bs s) ∧ SameHeld s (slaveAnswer g a bs s) ∧
    SameVote s (slaveAnswer g a bs s) ∧ Same4 State.port State.tx State.msix State.lom s (slaveAnswer g a bs s) ∧
    Same3 State.rng State.img State.regs s (slaveAnswer g a bs s) := by simp [slaveAnswer]

@[simp] theorem answerHeld_keeps (g : Seg) (r : Bool × List Byte) (s : State) :
    SameStill s (answerHeld g r s) ∧ SameUnits s (answerHeld g r s) ∧ SameHeld s (answerHeld g r s) ∧
    SameVote s (answerHeld g r s) ∧ Same4 State.port State.tx State.msix State.lom s (answerHeld g r s) ∧
    Same3 State.rng State.img State.regs s (answerHeld g r s) := by simp [answerHeld]

@[simp] theorem dropDr_keeps (g : Seg) (id : Nat) (s : State) : OnlyCrl s (dropDr g id s) := by simp [dropDr]

@[simp] theorem freeSlot_keeps (g : Seg) (k : Fin 4) (s : State) :
    SameStill s (freeSlot g k s) ∧ SamePorts s (freeSlot g k s) ∧ SameUnits s (freeSlot g k s) ∧ SameHeld s (freeSlot g k s) ∧
    Same4 State.lom State.rng State.img State.vot s (freeSlot g k s) ∧ Same2 State.regs State.evh s (freeSlot g k s) := by
  unfold freeSlot; (repeat' split) <;> simp [*]

@[simp] theorem fwdReadResult_keeps (g : Seg) (id : Nat) (r : Bool × List Byte) (s : State) :
    SameStill s (fwdReadResult g id r s) ∧ SameUnits s (fwdReadResult g id r s) ∧ SameHeld s (fwdReadResult g id r s) ∧
    Same4 State.port State.tx State.msix State.lom s (fwdReadResult g id r s) ∧
    Same4 State.rng State.img State.vot State.regs s (fwdReadResult g id r s) := by
  unfold fwdReadResult; (repeat' split) <;> simp [*]

@[simp] theorem mailDone_keeps (failed : Bool) (code : Nat) (bs : List Byte) (s : State) :
    SameStill s (mailDone failed code bs s) ∧ SamePorts s (mailDone failed code bs s) ∧ SameHeld s (mailDone failed code bs s) ∧
    SamePlant s (mailDone failed code bs s) ∧
    Same4 State.bus State.ch State.freeCount State.vot s (mailDone failed code bs s) ∧
    Same2 State.regs State.evh s (mailDone failed code bs s) := by simp [mailDone]

@[simp] theorem failOutcome_keeps (a : Acc) (code : Nat) (s : State) :
    SameStill s (failOutcome a code s) ∧ Same4 State.tx State.msix State.bus State.ch s (failOutcome a code s) ∧
    Same2 State.alm State.pwr s (failOutcome a code s) := by
  unfold failOutcome; dsimp only; (repeat' split) <;> simp [*]

@[simp] theorem finishFail_keeps (g : Seg) (a : Acc) (addr code : Nat) (s : State) :
    SameStill s (finishFail g a addr code s) ∧ Same4 State.tx State.msix State.bus State.ch s (finishFail g a addr code s) ∧
    Same2 State.alm State.pwr s (finishFail g a addr code s) := by simp [finishFail]

@[simp] theorem failOne_keeps (g : Seg) (s : State) :
    SameStill s (failOne g s) ∧ Same4 State.tx State.msix State.bus State.ch s (failOne g s) ∧
    Same2 State.alm State.pwr s (failOne g s) := by
  unfold failOne; dsimp only; (repeat' split) <;> simp [*]

@[simp] theorem failWork_keeps (g : Seg) (x1 : Nat) (x2 : State) :
    SameStill x2 (failWork g x1 x2) ∧ Same4 State.tx State.msix State.bus State.ch x2 (failWork g x1 x2) ∧
    Same2 State.alm State.pwr x2 (failWork g x1 x2) := by
  induction x1 generalizing x2 with
  | zero => (unfold failWork; simp)
  | succ n ih => (unfold failWork; (repeat' split) <;> simp [*])

@[simp] theorem segFlush_keeps (g : Seg) (s : State) :
    SameStill s (segFlush g s) ∧ Same4 State.tx State.msix State.bus State.ch s (segFlush g s) ∧
    Same2 State.alm State.pwr s (segFlush g s) := by simp [segFlush]

@[simp] theorem drainAnswers_keeps (x0 : Nat) (x1 : State) :
    SameStill x1 (drainAnswers x0 x1) ∧ SamePorts x1 (drainAnswers x0 x1) ∧ SameUnits x1 (drainAnswers x0 x1) ∧
    SameHeld x1 (drainAnswers x0 x1) ∧ Same4 State.lom State.seg State.img State.regs x1 (drainAnswers x0 x1) := by
  induction x0 generalizing x1 with
  | zero => (unfold drainAnswers; simp)
  | succ n ih => (unfold drainAnswers; dsimp only; (repeat' split) <;> simp [*])

@[simp] theorem pump_keeps (s : State) : SameStill s (pump s) ∧ Same1 State.pwr s (pump s) := by simp [pump]

@[simp] theorem irqGenWrite_keeps (g : Seg) (data : Word) (s : State) :
    SameStill s (irqGenWrite g data s) ∧ SamePorts s (irqGenWrite g data s) ∧ SameUnits s (irqGenWrite g data s) ∧
    SameHeld s (irqGenWrite g data s) ∧ SameVote s (irqGenWrite g data s) ∧
    Same4 State.lom State.rng State.img State.evh s (irqGenWrite g data s) := by simp [irqGenWrite]

@[simp] theorem tenureEnd_keeps (g : Seg) (s : State) : OnlySeg s (tenureEnd g s) := by simp [tenureEnd]

@[simp] theorem engStop_keeps (g : Seg) (s : State) : OnlySeg s (engStop g s) := by
  unfold engStop; simp

@[simp] theorem busReleaseRequest_keeps (g : Seg) (s : State) :
    OnlySeg s (busReleaseRequest g s) := by simp [busReleaseRequest]

@[simp] theorem arbitrateBus_keeps (g : Seg) (lines : Nat) (bbsy : Bool) (s : State) :
    OnlySeg s (arbitrateBus g lines bbsy s) := by
  unfold arbitrateBus; dsimp only; (repeat' split) <;> simp [*]

@[simp] theorem cycleFail_keeps (g : Seg) (code : Nat) (s : State) :
    SameStill s (cycleFail g code s) ∧ Same1 State.pwr s (cycleFail g code s) := by
  unfold cycleFail; (repeat' split) <;> simp [*]

@[simp] theorem berrSeen_keeps (g : Seg) (code : Nat) (s : State) :
    SameStill s (berrSeen g code s) ∧ Same1 State.pwr s (berrSeen g code s) := by
  unfold berrSeen; (repeat' split) <;> simp [*]

@[simp] theorem bringFront_keeps (e : Eng) (s : State) : OnlyCrl s (bringFront e s) := by
  unfold bringFront; (repeat' split) <;> simp [*]

@[simp] theorem btoOp_keeps (g : Seg) (s : State) : SameStill s (btoOp g s) ∧ Same1 State.pwr s (btoOp g s) := by simp [btoOp]

@[simp] theorem readBeat_keeps (e : Eng) (s : State) :
    SameStill s (readBeat e s) ∧ SamePorts s (readBeat e s) ∧ SameUnits s (readBeat e s) ∧ SamePlant s (readBeat e s) ∧
    SameVote s (readBeat e s) ∧ Same2 State.alm State.pwr s (readBeat e s) := by simp [readBeat]

@[simp] theorem modHead_keeps (q : Nat) (f : Pkt → Pkt) (s : State) : OnlyCrl s (modHead q f s) := by
  unfold modHead; (repeat' split) <;> simp [*]

@[simp] theorem stopAtError_keeps (g : Seg) (e : Eng) (s : State) :
    SameStill s (stopAtError g e s) ∧ Same1 State.pwr s (stopAtError g e s) := by simp [stopAtError]

@[simp] theorem showEng_keeps (g : Seg) (e : Eng) (s : State) :
    SameStill s (showEng g e s) ∧ SamePorts s (showEng g e s) ∧ SameHeld s (showEng g e s) ∧ SameVote s (showEng g e s) ∧
    Same4 State.bus State.ch State.mnt State.lom s (showEng g e s) ∧
    Same4 State.rng State.img State.regs State.evh s (showEng g e s) := by
  unfold showEng; dsimp only; (repeat' split) <;> simp [*]

@[simp] theorem driveBeat_keeps (g : Seg) (e : Eng) (s : State) :
    SameStill s (driveBeat g e s) ∧ Same1 State.pwr s (driveBeat g e s) := by simp [driveBeat]

@[simp] theorem countLate_keeps (i c due t : Nat) (s : State) : OnlyReports s (countLate i c due t s) := by simp [countLate]

@[simp] theorem engDrive_keeps (g : Seg) (e : Eng) (t : Nat) (first : Bool) (s : State) :
    SameStill s (engDrive g e t first s) ∧ Same1 State.pwr s (engDrive g e t first s) := by
  unfold engDrive; dsimp only; (repeat' split) <;> simp [*]

@[simp] theorem busGrant_keeps (g : Seg) (level t : Nat) (s : State) :
    SameStill s (busGrant g level t s) ∧ Same1 State.pwr s (busGrant g level t s) := by
  unfold busGrant; dsimp only; (repeat' split) <;> simp [*]

@[simp] theorem putOpen_keeps (g : Seg) (q : Nat) (p : Pkt) (s : State) : OnlyCrl s (putOpen g q p s) := by simp [putOpen]

@[simp] theorem endDropping_keeps (q : Nat) (s : State) :
    SameStill s (endDropping q s) ∧ SamePorts s (endDropping q s) ∧ SameUnits s (endDropping q s) ∧
    SameHeld s (endDropping q s) ∧ SamePlant s (endDropping q s) ∧ Same2 State.vot State.regs s (endDropping q s) := by
  unfold endDropping; dsimp only; (repeat' split) <;> simp [*]

@[simp] theorem slavePump_keeps (g : Seg) (x1 : Nat) (x2 : State) :
    SameStill x2 (slavePump g x1 x2) ∧ SamePorts x2 (slavePump g x1 x2) ∧ SameUnits x2 (slavePump g x1 x2) ∧
    SameHeld x2 (slavePump g x1 x2) ∧ Same4 State.lom State.seg State.img State.regs x2 (slavePump g x1 x2) := by
  induction x1 generalizing x2 with
  | zero => (unfold slavePump; simp)
  | succ n ih => (unfold slavePump; dsimp only; (repeat' split) <;> (try have hk_takeHead := takeHead_pair ‹_›) <;> simp [*])

@[simp] theorem endSlave_keeps (g : Seg) (s : State) :
    SameStill s (endSlave g s) ∧ SamePorts s (endSlave g s) ∧ SameUnits s (endSlave g s) ∧ SameHeld s (endSlave g s) ∧
    Same4 State.lom State.seg State.img State.regs s (endSlave g s) := by
  unfold endSlave; dsimp only; (repeat' split) <;> simp [*]

@[simp] theorem openRemoteRead_keeps (e : Eng) (s : State) : OnlyLists s (openRemoteRead e s) := by
  unfold openRemoteRead; (repeat' split) <;> (try have hk_claim := claim_keeps ‹_›) <;> simp [*]

@[simp] theorem park_keeps (g : Seg) (won : Option Place) (s : State) :
    SameStill s (park g won s) ∧ SamePorts s (park g won s) ∧ SameUnits s (park g won s) ∧ SameHeld s (park g won s) ∧
    SameVote s (park g won s) ∧ Same4 State.lom State.rng State.img State.regs s (park g won s) := by simp [park]

@[simp] theorem schedLoad_keeps (e : Eng) (s0 : State) :
    SameStill s0 (schedLoad e s0).2 ∧ SamePorts s0 (schedLoad e s0).2 ∧ SameVote s0 (schedLoad e s0).2 ∧
    Same4 State.bus State.ch State.mnt State.alm s0 (schedLoad e s0).2 ∧
    Same4 State.pwr State.lom State.rng State.seg s0 (schedLoad e s0).2 := by
  unfold schedLoad; dsimp only; (repeat' split) <;> simp [*]

theorem schedLoad_pair {e : Eng} {s0 : State} {y0 : Eng} {t1 : State} (h : schedLoad e s0 = (y0, t1)) :
    SameStill s0 t1 ∧ SamePorts s0 t1 ∧ SameVote s0 t1 ∧ Same4 State.bus State.ch State.mnt State.alm s0 t1 ∧
    Same4 State.pwr State.lom State.rng State.seg s0 t1 := by
  have k := schedLoad_keeps e s0
  rw [h] at k; exact k

@[simp] theorem schedReadOk_keeps (p : Pat) (bs : List Byte) (s : State) : OnlyImg s (schedReadOk p bs s) := by
  unfold schedReadOk; (repeat' split) <;> simp [*]

@[simp] theorem iackQueued_keeps (g : Seg) (level : Nat) (bs : List Byte) (cells : List Nat) (s : State) :
    OnlyLists s (iackQueued g level bs cells s) := by simp [iackQueued]

@[simp] theorem finishOk_keeps (e : Eng) (s : State) :
    SameStill s (finishOk e s) ∧ Same4 State.tx State.msix State.bus State.ch s (finishOk e s) ∧
    Same3 State.alm State.pwr State.rng s (finishOk e s) := by
  unfold finishOk; dsimp only; (repeat' split) <;> (try have hk_takeHead := takeHead_pair ‹_›) <;> simp [*]

@[simp] theorem grantTransfer_keeps (g : Seg) (t : Nat) (pl : Place) (e : Eng) (s : State) :
    SameStill s (grantTransfer g t pl e s) ∧ Same1 State.pwr s (grantTransfer g t pl e s) := by
  unfold grantTransfer; dsimp only; (repeat' split) <;> (try have hk_schedLoad := schedLoad_pair ‹_›) <;> simp [*]

@[simp] theorem startAhead_keeps (g : Seg) (t : Nat) (s : State) :
    SameStill s (startAhead g t s) ∧ Same1 State.pwr s (startAhead g t s) := by
  unfold startAhead; (repeat' split) <;> simp [*]

@[simp] theorem partRead_keeps (e : Eng) (s : State) :
    SameStill s (partRead e s) ∧ SameUnits s (partRead e s) ∧ SameHeld s (partRead e s) ∧ SamePlant s (partRead e s) ∧
    Same3 State.tx State.msix State.crl s (partRead e s) ∧ Same2 State.regs State.evh s (partRead e s) := by
  unfold partRead; (repeat' split) <;> simp [*]

@[simp] theorem cycleDone_keeps (g : Seg) (e : Eng) (s : State) :
    SameStill s (cycleDone g e s) ∧ Same1 State.pwr s (cycleDone g e s) := by
  unfold cycleDone; dsimp only; (repeat' split) <;> simp [*]

@[simp] theorem trimAccess_keeps (g : Seg) (q n : Nat) (s : State) :
    SameStill s (trimAccess g q n s) ∧ Same1 State.pwr s (trimAccess g q n s) := by
  unfold trimAccess; dsimp only; (repeat' split) <;> simp [*]

@[simp] theorem closeSlave_keeps (g : Seg) (s : State) :
    SameStill s (closeSlave g s) ∧ Same1 State.pwr s (closeSlave g s) := by
  unfold closeSlave; dsimp only; (repeat' split) <;> simp [*]

@[simp] theorem continueHead_keeps (q : Nat) (s : State) :
    SameStill s (continueHead q s) ∧ SamePorts s (continueHead q s) ∧ SameUnits s (continueHead q s) ∧
    SameHeld s (continueHead q s) ∧ Same4 State.lom State.rng State.seg State.vot s (continueHead q s) ∧
    Same2 State.regs State.evh s (continueHead q s) := by
  unfold continueHead; dsimp only; (repeat' split) <;> simp [*]

@[simp] theorem continuedIssue_keeps (g : Seg) (s : State) :
    SameStill s (continuedIssue g s) ∧ SamePorts s (continuedIssue g s) ∧ SameUnits s (continuedIssue g s) ∧
    SameHeld s (continuedIssue g s) ∧ Same4 State.lom State.rng State.seg State.vot s (continuedIssue g s) ∧
    Same2 State.regs State.evh s (continuedIssue g s) := by simp [continuedIssue]

@[simp] theorem retryOrBerr_keeps (g : Seg) (s : State) :
    SameStill s (retryOrBerr g s) ∧ SameUnits s (retryOrBerr g s) ∧ SameHeld s (retryOrBerr g s) ∧ SameVote s (retryOrBerr g s) ∧
    Same4 State.port State.tx State.msix State.lom s (retryOrBerr g s) ∧
    Same3 State.rng State.img State.regs s (retryOrBerr g s) := by simp [retryOrBerr]

@[simp] theorem turnD_keeps (g : Seg) (s : State) : OnlySeg s (turnD g s) := by simp [turnD]

@[simp] theorem crcsrOp_keeps (g : Seg) (write : Bool) (off : Nat) (s : State) :
    SameStill s (crcsrOp g write off s) ∧ SameUnits s (crcsrOp g write off s) ∧ SameHeld s (crcsrOp g write off s) ∧
    SameVote s (crcsrOp g write off s) ∧ Same4 State.port State.tx State.msix State.lom s (crcsrOp g write off s) ∧
    Same3 State.rng State.img State.regs s (crcsrOp g write off s) := by simp [crcsrOp]

@[simp] theorem repeatRead_keeps (g : Seg) (k : Fin 4) (s : State) :
    SameStill s (repeatRead g k s) ∧ SameUnits s (repeatRead g k s) ∧ SameHeld s (repeatRead g k s) ∧
    Same4 State.port State.tx State.msix State.lom s (repeatRead g k s) ∧
    Same4 State.rng State.img State.vot State.regs s (repeatRead g k s) := by
  unfold repeatRead; (repeat' split) <;> simp [*]

@[simp] theorem delayedRepeat_keeps (g : Seg) (c : SlaveCyc) (s : State) :
    SameStill s (delayedRepeat g c s) ∧ SameUnits s (delayedRepeat g c s) ∧ SameHeld s (delayedRepeat g c s) ∧
    Same4 State.port State.tx State.msix State.lom s (delayedRepeat g c s) ∧
    Same4 State.rng State.img State.vot State.regs s (delayedRepeat g c s) := by
  unfold delayedRepeat; (repeat' split) <;> simp [*]

@[simp] theorem drDiscardOp_keeps (g : Seg) (k : Fin 4) (s : State) :
    SameStill s (drDiscardOp g k s) ∧ SamePorts s (drDiscardOp g k s) ∧ SameUnits s (drDiscardOp g k s) ∧
    SameHeld s (drDiscardOp g k s) ∧ Same3 State.lom State.rng State.img s (drDiscardOp g k s) ∧
    Same2 State.vot State.regs s (drDiscardOp g k s) := by
  unfold drDiscardOp; (repeat' split) <;> simp [*]

@[simp] theorem dropLevel_keeps (g level ev : Nat) (s : State) : OnlyEvh s (dropLevel g level ev s) := by simp [dropLevel]

@[simp] theorem dropStaleRead_keeps (q : Nat) (s : State) (p : Pkt) :
    SameStill s (dropStaleRead q s p) ∧ SamePorts s (dropStaleRead q s p) ∧ SameUnits s (dropStaleRead q s p) ∧
    SameHeld s (dropStaleRead q s p) ∧ Same3 State.lom State.seg State.img s (dropStaleRead q s p) ∧
    Same2 State.regs State.evh s (dropStaleRead q s p) := by
  unfold dropStaleRead; dsimp only; (repeat' split) <;> simp [*]

@[simp] theorem dropStale_keeps (q : Nat) (s : State) :
    SameStill s (dropStale q s) ∧ SamePorts s (dropStale q s) ∧ SameUnits s (dropStale q s) ∧ SameHeld s (dropStale q s) ∧
    Same3 State.lom State.seg State.img s (dropStale q s) ∧ Same2 State.regs State.evh s (dropStale q s) := by simp [dropStale]

@[simp] theorem dtackSeen_keeps (g : Seg) (d : DWord) (s : State) :
    SameStill s (dtackSeen g d s) ∧ Same1 State.pwr s (dtackSeen g d s) := by
  unfold dtackSeen; dsimp only; (repeat' split) <;> simp [*]

theorem fwdBeat_keeps {g : Seg} {mk : Option Pkt} {bs : List Byte} {s t1 : State} (h : fwdBeat g mk bs s = some t1) :
    SameStill s t1 ∧ SamePorts s t1 ∧ SameUnits s t1 ∧ SameHeld s t1 ∧ Same4 State.lom State.seg State.img State.regs s t1 := by
  unfold fwdBeat at h; dsimp only at h
  (repeat' split at h) <;> (try (rw [Option.map_eq_some_iff] at h; obtain ⟨e, h, rfl⟩ := h; have k := claim_keeps h)) <;>
    (try cases h) <;> simp_all

@[simp] theorem slaveHold_keeps (g : Seg) (c : SlaveCyc) (data : List Byte) (begun : Bool) (s : State) :
    OnlySeg s (slaveHold g c data begun s) := by simp [slaveHold]

@[simp] theorem fwdBeats_keeps (g : Seg) (c : SlaveCyc) (x2 : Nat) (x3 : Option Pkt) (x4 : List Byte) (x5 : State) :
    SameStill x5 (fwdBeats g c x2 x3 x4 x5) ∧ SameUnits x5 (fwdBeats g c x2 x3 x4 x5) ∧ SameHeld x5 (fwdBeats g c x2 x3 x4 x5) ∧
    Same4 State.port State.tx State.msix State.lom x5 (fwdBeats g c x2 x3 x4 x5) ∧
    Same2 State.img State.regs x5 (fwdBeats g c x2 x3 x4 x5) := by
  induction x2 generalizing x3 x4 x5 with
  | zero => (unfold fwdBeats; simp)
  | succ n ih => (unfold fwdBeats; (repeat' split) <;> (try have hk_fwdBeat := fwdBeat_keeps ‹_›) <;> simp [*])

@[simp] theorem fwdUnavailable_keeps (g : Seg) (patE : Nat) (s : State) :
    SameStill s (fwdUnavailable g patE s) ∧ SameUnits s (fwdUnavailable g patE s) ∧ SameHeld s (fwdUnavailable g patE s) ∧
    SameVote s (fwdUnavailable g patE s) ∧ Same4 State.port State.tx State.msix State.lom s (fwdUnavailable g patE s) ∧
    Same3 State.rng State.img State.regs s (fwdUnavailable g patE s) := by simp [fwdUnavailable]

@[simp] theorem startForwarded_keeps (g : Seg) (j : Nat) (v : Win) (c : SlaveCyc) (k : Fin 4) (s : State) :
    SameStill s (startForwarded g j v c k s) ∧ SamePorts s (startForwarded g j v c k s) ∧
    SameUnits s (startForwarded g j v c k s) ∧ SameHeld s (startForwarded g j v c k s) ∧
    Same3 State.lom State.img State.regs s (startForwarded g j v c k s) := by
  unfold startForwarded; dsimp only; (repeat' split) <;> (try have hk_claim := claim_keeps ‹_›) <;> simp [*]

@[simp] theorem forwardedRead_keeps (g : Seg) (c : SlaveCyc) (s0 : State) :
    SameStill s0 (forwardedRead g c s0) ∧ SameUnits s0 (forwardedRead g c s0) ∧
    Same4 State.port State.tx State.msix State.alm s0 (forwardedRead g c s0) ∧
    Same3 State.pwr State.lom State.img s0 (forwardedRead g c s0) := by
  unfold forwardedRead; dsimp only; (repeat' split) <;> simp [*]

@[simp] theorem forwardWrite_keeps (g : Seg) (c : SlaveCyc) (data : List Byte) (s0 : State) :
    SameStill s0 (forwardWrite g c data s0) ∧ SameUnits s0 (forwardWrite g c data s0) ∧
    Same4 State.port State.tx State.msix State.alm s0 (forwardWrite g c data s0) ∧
    Same3 State.pwr State.lom State.img s0 (forwardWrite g c data s0) := by
  unfold forwardWrite; dsimp only; (repeat' split) <;> simp [*]

@[simp] theorem incompleteUpdate_keeps (g : Seg) (j hdrAddr rlen b n : Nat) (s : State) :
    SameStill s (incompleteUpdate g j hdrAddr rlen b n s) ∧ SamePorts s (incompleteUpdate g j hdrAddr rlen b n s) ∧
    SameUnits s (incompleteUpdate g j hdrAddr rlen b n s) ∧ SameHeld s (incompleteUpdate g j hdrAddr rlen b n s) ∧
    SameVote s (incompleteUpdate g j hdrAddr rlen b n s) ∧
    Same4 State.lom State.rng State.regs State.evh s (incompleteUpdate g j hdrAddr rlen b n s) := by simp [incompleteUpdate]

@[simp] theorem imageWrite_keeps (g : Seg) (c : SlaveCyc) (data : List Byte) (s : State) :
    SameStill s (imageWrite g c data s) ∧ SameUnits s (imageWrite g c data s) ∧ SameHeld s (imageWrite g c data s) ∧
    Same4 State.port State.tx State.msix State.lom s (imageWrite g c data s) ∧
    Same2 State.rng State.regs s (imageWrite g c data s) := by
  unfold imageWrite; dsimp only; (repeat' split) <;> (try have hk_claim := claim_keeps ‹_›) <;> simp [*]

@[simp] theorem slaveResume_keeps (g : Seg) (s : State) :
    SameStill s (slaveResume g s) ∧ SameUnits s (slaveResume g s) ∧
    Same4 State.port State.tx State.msix State.alm s (slaveResume g s) ∧ Same2 State.pwr State.lom s (slaveResume g s) := by
  unfold slaveResume; dsimp only; (repeat' split) <;> simp [*]

@[simp] theorem slavePumps_keeps (s : State) :
    SameStill s (slavePumps s) ∧ SameUnits s (slavePumps s) ∧ Same4 State.port State.tx State.msix State.alm s (slavePumps s) ∧
    Same2 State.pwr State.lom s (slavePumps s) := by simp [slavePumps]

@[simp] theorem lateAnswer_keeps (g : Seg) (s : State) :
    SameStill s (lateAnswer g s) ∧ SameUnits s (lateAnswer g s) ∧ SameHeld s (lateAnswer g s) ∧ SameVote s (lateAnswer g s) ∧
    Same4 State.port State.tx State.msix State.lom s (lateAnswer g s) ∧
    Same3 State.rng State.img State.regs s (lateAnswer g s) := by simp [lateAnswer]

@[simp] theorem forwardedTimeout_keeps (g : Seg) (s : State) :
    SameStill s (forwardedTimeout g s) ∧ SameUnits s (forwardedTimeout g s) ∧ SameHeld s (forwardedTimeout g s) ∧
    SameVote s (forwardedTimeout g s) ∧ Same4 State.port State.tx State.msix State.lom s (forwardedTimeout g s) ∧
    Same3 State.rng State.img State.regs s (forwardedTimeout g s) := by
  unfold forwardedTimeout; dsimp only; (repeat' split) <;> simp [*]

@[simp] theorem gaOp_keeps (g : Seg) (pins : Nat) (s : State) :
    SameStill s (gaOp g pins s) ∧ SamePorts s (gaOp g pins s) ∧ SameUnits s (gaOp g pins s) ∧ SameHeld s (gaOp g pins s) ∧
    SameVote s (gaOp g pins s) ∧ Same4 State.lom State.rng State.img State.regs s (gaOp g pins s) := by simp [gaOp]

@[simp] theorem gapOverrun_keeps (g : Seg) (s : State) : OnlyEvh s (gapOverrun g s) := by
  unfold gapOverrun; (repeat' split) <;> simp [*]

@[simp] theorem gapWaitExpire_keeps (g : Seg) (pl : Place) (s : State) : OnlySeg s (gapWaitExpire g pl s) := by
  unfold gapWaitExpire; (repeat' split) <;> simp [*]

theorem claim_unless {c : Prop} [Decidable c] {q n : Nat} {s t1 : State} {y0 : List Nat}
    (h : (if c then none else claim q n s) = some (y0, t1)) : OnlyLists s t1 := by
  split at h
  · cases h
  · exact claim_keeps h

@[simp] theorem handlerServe_keeps (g : Seg) (level : Nat) (s : State) :
    SameStill s (handlerServe g level s) ∧ Same1 State.pwr s (handlerServe g level s) := by
  unfold handlerServe; dsimp only; (repeat' split) <;> (try have hk_claim := claim_unless ‹_›) <;> simp [*]

@[simp] theorem iackOp_keeps (g : Seg) (level w : Nat) (s : State) :
    SameStill s (iackOp g level w s) ∧ SameUnits s (iackOp g level w s) ∧ SameHeld s (iackOp g level w s) ∧
    SameVote s (iackOp g level w s) ∧ Same4 State.port State.tx State.msix State.lom s (iackOp g level w s) ∧
    Same3 State.rng State.img State.regs s (iackOp g level w s) := by
  unfold iackOp; dsimp only; (repeat' split) <;> simp [*]

@[simp] theorem imageRead_keeps (g : Seg) (c : SlaveCyc) (s0 : State) :
    SameStill s0 (imageRead g c s0) ∧ SameUnits s0 (imageRead g c s0) ∧ SameVote s0 (imageRead g c s0) ∧
    Same4 State.port State.tx State.msix State.alm s0 (imageRead g c s0) ∧
    Same4 State.pwr State.lom State.rng State.img s0 (imageRead g c s0) := by
  unfold imageRead; dsimp only; (repeat' split) <;> simp [*]

@[simp] theorem segStop_keeps (g : Seg) (s : State) : OnlySeg s (segStop g s) := by simp [segStop]

@[simp] theorem retryGapExpire_keeps (g : Seg) (s : State) : OnlySeg s (retryGapExpire g s) := by
  unfold retryGapExpire; simp

@[simp] theorem retrySeen_keeps (g : Seg) (s : State) : SameStill s (retrySeen g s) ∧ Same1 State.pwr s (retrySeen g s) := by
  unfold retrySeen; dsimp only; (repeat' split) <;> simp [*]

@[simp] theorem slaveClaimTimeout_keeps (g : Seg) (c : SlaveCyc) (s : State) :
    SameStill s (slaveClaimTimeout g c s) ∧ Same1 State.pwr s (slaveClaimTimeout g c s) := by
  unfold slaveClaimTimeout; dsimp only; (repeat' split) <;> simp [*]

@[simp] theorem strobeHoldResume_keeps (g : Seg) (s : State) :
    SameStill s (strobeHoldResume g s) ∧ Same1 State.pwr s (strobeHoldResume g s) := by
  unfold strobeHoldResume; dsimp only; (repeat' split) <;> simp [*]

@[simp] theorem strobeRelease_keeps (g : Seg) (s : State) : OnlySeg s (strobeRelease g s) := by simp [strobeRelease]

@[simp] theorem sysfailInOp_keeps (g : Seg) (s : State) : OnlyEvh s (sysfailInOp g s) := by
  unfold sysfailInOp; simp

@[simp] theorem sysresetDriveEnd_keeps (s : State) : OnlySeg s (sysresetDriveEnd s) := by simp [sysresetDriveEnd]

@[simp] theorem sysresetOp_keeps (g : Seg) (low : Bool) (s : State) :
    SameStill s (sysresetOp g low s) ∧ Same1 State.pwr s (sysresetOp g low s) := by simp [sysresetOp]

@[simp] theorem transferStart_keeps (g : Seg) (t : Nat) (s0 : State) :
    SameStill s0 (transferStart g t s0) ∧ Same1 State.pwr s0 (transferStart g t s0) := by
  unfold transferStart; dsimp only; (repeat' split) <;> simp [*]

@[simp] theorem truncOp_keeps (g : Seg) (s : State) :
    SameStill s (truncOp g s) ∧ SamePorts s (truncOp g s) ∧ SameUnits s (truncOp g s) ∧ SameHeld s (truncOp g s) ∧
    Same4 State.lom State.rng State.img State.vot s (truncOp g s) := by
  unfold truncOp; dsimp only; (repeat' split) <;> simp [*]

@[simp] theorem wakeSeg_keeps (g : Seg) (c : WakeCause) (s : State) :
    SameStill s (wakeSeg g c s) ∧ SamePorts s (wakeSeg g c s) ∧ SameUnits s (wakeSeg g c s) ∧ SameHeld s (wakeSeg g c s) ∧
    SameVote s (wakeSeg g c s) ∧ Same4 State.lom State.rng State.img State.regs s (wakeSeg g c s) := by simp [wakeSeg]

end Sys2Proof.Machine
end

