-- ==== Sys2Proof/Laws/KeepLoom.lean ====
section
/-!
SUPPORT. What the operations of the Almanac, the life cycle, the Weave checks, updates, the Loom and restarts leave alone: one lemma per operation, over the parts of
`State` that no path of it writes, so that no proof unfolds an operation to see that a part is unchanged.
-/

namespace Sys2Proof.Machine

open Sys2Proof

@[simp] theorem wakeAlm_keeps (s : State) : OnlyPwr s (wakeAlm s) := by simp [wakeAlm]

@[simp] theorem almMeet_keeps (a n : Nat) (s : State) : OnlyEvh s (almMeet a n s) := by simp [almMeet]

@[simp] theorem readSlot_keeps (i : Nat) (s : State) : OnlyEvh s (readSlot i s) := by simp [readSlot]

@[simp] theorem raiseLogged_keeps (ev addr : Nat) (s : State) : OnlyEvh s (raiseLogged ev addr s) := by simp [raiseLogged]

@[simp] theorem refreshBlockRead_keeps (b : Nat) (s : State) :
    SameStill s (refreshBlockRead b s) ∧ SamePorts s (refreshBlockRead b s) ∧ SameUnits s (refreshBlockRead b s) ∧
    SamePlant s (refreshBlockRead b s) ∧ SameVote s (refreshBlockRead b s) ∧
    Same3 State.tap State.pwr State.regs s (refreshBlockRead b s) := by simp [refreshBlockRead]

@[simp] theorem putRecord_keeps (k : RecKind) (seq : Nat) (body : List Byte) (s : State) :
    OnlyAlm s (putRecord k seq body s) := by simp [putRecord]

@[simp] theorem writeRecord_keeps (k : RecKind) (body : List Byte) (s : State) :
    OnlyAlm s (writeRecord k body s) := by simp [writeRecord]

@[simp] theorem putMark_keeps (active target cycle : Nat) (s : State) :
    OnlyAlm s (putMark active target cycle s) := by simp [putMark]

@[simp] theorem writeMark_keeps (active target cycle : Nat) (s : State) :
    SameStill s (writeMark active target cycle s) ∧ SamePorts s (writeMark active target cycle s) ∧
    SameUnits s (writeMark active target cycle s) ∧ SameVote s (writeMark active target cycle s) ∧
    Same4 State.tap State.rng State.seg State.img s (writeMark active target cycle s) ∧
    Same2 State.regs State.evh s (writeMark active target cycle s) := by simp [writeMark]

@[simp] theorem clearTarget_keeps (s : State) :
    SameStill s (clearTarget s) ∧ SamePorts s (clearTarget s) ∧ SameUnits s (clearTarget s) ∧ SameVote s (clearTarget s) ∧
    Same4 State.tap State.rng State.seg State.img s (clearTarget s) ∧ Same2 State.regs State.evh s (clearTarget s) := by
  simp [clearTarget]

@[simp] theorem abandonArm_keeps (reason : Nat) (s : State) :
    SameStill s (abandonArm reason s) ∧ SamePorts s (abandonArm reason s) ∧ SameUnits s (abandonArm reason s) ∧
    SameVote s (abandonArm reason s) ∧ Same4 State.tap State.rng State.seg State.img s (abandonArm reason s) ∧
    Same2 State.regs State.evh s (abandonArm reason s) := by simp [abandonArm]

@[simp] theorem endOp_keeps (res : Nat) (s : State) :
    SameStill s (endOp res s) ∧ SamePorts s (endOp res s) ∧ SameUnits s (endOp res s) ∧ SamePlant s (endOp res s) ∧
    SameVote s (endOp res s) ∧ Same3 State.tap State.pwr State.regs s (endOp res s) := by
  unfold endOp; dsimp only; (repeat' split) <;> simp [*]

@[simp] theorem abortOp_keeps (r : Req) (s : State) :
    SameStill s (abortOp r s) ∧ SamePorts s (abortOp r s) ∧ SameUnits s (abortOp r s) ∧ SamePlant s (abortOp r s) ∧
    SameVote s (abortOp r s) ∧ Same3 State.tap State.pwr State.regs s (abortOp r s) := by
  unfold abortOp; (repeat' split) <;> simp [*]

@[simp] theorem streamWord_keeps (r : Req) (w : Nat) (d : Word) (s : State) :
    SameStill s (streamWord r w d s).2 ∧ SamePorts s (streamWord r w d s).2 ∧ SameUnits s (streamWord r w d s).2 ∧
    SamePlant s (streamWord r w d s).2 ∧ SameVote s (streamWord r w d s).2 ∧
    Same3 State.tap State.pwr State.regs s (streamWord r w d s).2 := by
  unfold streamWord; dsimp only; (repeat' split) <;> simp [*]

theorem streamWord_pair {r : Req} {w : Nat} {d : Word} {s : State} {y0 : Bool} {t1 : State} (h : streamWord r w d s = (y0,
    t1)) :
    SameStill s t1 ∧ SamePorts s t1 ∧ SameUnits s t1 ∧ SamePlant s t1 ∧ SameVote s t1 ∧ Same3 State.tap State.pwr State.regs s t1 := by
  have k := streamWord_keeps r w d s
  rw [h] at k; exact k

@[simp] theorem lcRefuse_keeps (r : Req) (code raw : Nat) (v : Word) (s : State) :
    SamePorts s (lcRefuse r code raw v s) ∧ SameUnits s (lcRefuse r code raw v s) ∧ SameHeld s (lcRefuse r code raw v s) ∧
    SamePlant s (lcRefuse r code raw v s) ∧ SameVote s (lcRefuse r code raw v s) ∧
    Same3 State.pending State.frc State.mer s (lcRefuse r code raw v s) := by simp [lcRefuse]

@[simp] theorem writeLife_keeps (st : LifeState) (wipePend : Bool) (s : State) :
    OnlyAlm s (writeLife st wipePend s) := by simp [writeLife]

@[simp] theorem setLife_keeps (st : LifeState) (s : State) :
    Same4 State.pending State.frc State.mer State.pwr s (setLife st s) := by simp [setLife]

@[simp] theorem applyResv_keeps (q v : Nat) (s : State) :
    SameStill s (applyResv q v s) ∧ SamePorts s (applyResv q v s) ∧ SameUnits s (applyResv q v s) ∧
    SameHeld s (applyResv q v s) ∧ SamePlant s (applyResv q v s) ∧ Same2 State.vot State.regs s (applyResv q v s) := by
  simp [applyResv]

@[simp] theorem applyLimit_keeps (q v : Nat) (s : State) : OnlyCrl s (applyLimit q v s) := by simp [applyLimit]

@[simp] theorem applyThresh_keeps (q v : Nat) (s : State) : OnlyCrl s (applyThresh q v s) := by
  unfold applyThresh; simp

@[simp] theorem ungateSyscon_keeps (g : Seg) (s : State) : OnlySeg s (ungateSyscon g s) := by simp [ungateSyscon]

@[simp] theorem applyShadow_keeps (k : PageKind) (off idx : Nat) (w : Word) (s : State) :
    SameStill s (applyShadow k off idx w s) ∧ SamePorts s (applyShadow k off idx w s) ∧ SameUnits s (applyShadow k off idx w s) ∧
    Same4 State.alm State.tap State.lom State.rng s (applyShadow k off idx w s) ∧
    Same2 State.img State.vot s (applyShadow k off idx w s) := by
  unfold applyShadow; dsimp only; (repeat' split) <;> simp [*]

@[simp] theorem applyKey_keeps (key : Nat) (w : Word) (s : State) :
    SameStill s (applyKey key w s) ∧ SamePorts s (applyKey key w s) ∧
    Same4 State.ch State.mnt State.freeCount State.alm s (applyKey key w s) ∧
    Same3 State.tap State.lom State.rng s (applyKey key w s) ∧ Same2 State.img State.vot s (applyKey key w s) := by
  unfold applyKey; dsimp only; (repeat' split) <;> simp [*]

@[simp] theorem updateGroup_keeps (g : Nat) (s : State) : SameStill s (updateGroup g s) := by simp [updateGroup, applyWhere]

@[simp] theorem group7Apply_keeps (s : State) : SameStill s (group7Apply s) := by simp [group7Apply]

@[simp] theorem ungateAll_keeps (s : State) :
    SameStill s (ungateAll s) ∧ SamePorts s (ungateAll s) ∧ SameUnits s (ungateAll s) ∧ SameVote s (ungateAll s) ∧
    Same4 State.alm State.tap State.lom State.rng s (ungateAll s) ∧ Same3 State.img State.regs State.evh s (ungateAll s) := by
  simp [ungateAll]

@[simp] theorem dropUnstarted_keeps (s : State) : OnlySeg s (dropUnstarted s) := by simp [dropUnstarted]

@[simp] theorem loomStop_keeps (s : State) : SameStill s (loomStop s) := by
  unfold loomStop; simp

@[simp] theorem wipeWeave_keeps (s0 : State) :
    Same3 State.pending State.lcc State.mer s0 (wipeWeave s0) := by simp [wipeWeave]

@[simp] theorem lcCommissioning_keeps (r : Req) (raw : Nat) (v : Word) (s : State) :
    Same2 State.pending State.mer s (lcCommissioning r raw v s) := by simp [lcCommissioning]

@[simp] theorem wipeMailbox_keeps (s : State) : OnlyRegs s (wipeMailbox s) := by simp [wipeMailbox]

@[simp] theorem wipeStandby_keeps (s : State) : OnlyLom s (wipeStandby s) := by
  unfold wipeStandby; simp

@[simp] theorem lcService_keeps (r : Req) (raw : Nat) (v : Word) (s : State) :
    Same4 State.pending State.frc State.mer State.pwr s (lcService r raw v s) := by simp [lcService]

@[simp] theorem lcMaintenance_keeps (r : Req) (raw : Nat) (v : Word) (s : State) :
    Same4 State.pending State.frc State.mer State.pwr s (lcMaintenance r raw v s) := by
  unfold lcMaintenance; simp

@[simp] theorem lcRetired_keeps (r : Req) (raw : Nat) (v : Word) (s : State) :
    SamePorts s (lcRetired r raw v s) ∧ SameUnits s (lcRetired r raw v s) ∧ SameHeld s (lcRetired r raw v s) ∧
    SamePlant s (lcRetired r raw v s) ∧ SameVote s (lcRetired r raw v s) ∧
    Same3 State.pending State.frc State.mer s (lcRetired r raw v s) := by simp [lcRetired]

@[simp] theorem writeSeal_keeps (s : State) : OnlyAlm s (writeSeal s) := by simp [writeSeal]

@[simp] theorem sealCmd_keeps (r : Req) (op raw : Nat) (v : Word) (s : State) :
    SamePorts s (sealCmd r op raw v s) ∧ SameUnits s (sealCmd r op raw v s) ∧ SamePlant s (sealCmd r op raw v s) ∧
    SameVote s (sealCmd r op raw v s) ∧ Same3 State.pending State.frc State.mer s (sealCmd r op raw v s) ∧
    Same2 State.tap State.pwr s (sealCmd r op raw v s) := by simp [sealCmd]

@[simp] theorem lcCommand_keeps (r : Req) (raw : Nat) (v : Word) (s : State) :
    Same2 State.pending State.mer s (lcCommand r raw v s) := by simp [lcCommand]

@[simp] theorem frcResult_keeps (i res : Nat) (s : State) : OnlyRegs s (frcResult i res s) := by simp [frcResult]

@[simp] theorem placeForce_keeps (i : Nat) (p : Nat × Nat × Nat × Bool) (s : State) :
    OnlyFrc s (placeForce i p s) := by simp [placeForce]

@[simp] theorem forceSet_keeps (i : Nat) (s : State) :
    SamePorts s (forceSet i s) ∧ SameUnits s (forceSet i s) ∧ SameHeld s (forceSet i s) ∧ SamePlant s (forceSet i s) ∧
    SameVote s (forceSet i s) ∧ Same3 State.pending State.lcc State.mer s (forceSet i s) := by
  unfold forceSet; dsimp only; (repeat' split) <;> simp [*]

@[simp] theorem releaseForce_keeps (i : Nat) (dropped : Bool) (s : State) :
    OnlyFrc s (releaseForce i dropped s) := by simp [releaseForce]

@[simp] theorem forceClear_keeps (i : Nat) (s : State) :
    SamePorts s (forceClear i s) ∧ SameUnits s (forceClear i s) ∧ SameHeld s (forceClear i s) ∧ SamePlant s (forceClear i s) ∧
    SameVote s (forceClear i s) ∧ Same3 State.pending State.lcc State.mer s (forceClear i s) := by simp [forceClear]

@[simp] theorem forceClearAll_keeps (i : Nat) (s : State) :
    SamePorts s (forceClearAll i s) ∧ SameUnits s (forceClearAll i s) ∧ SameHeld s (forceClearAll i s) ∧
    SamePlant s (forceClearAll i s) ∧ SameVote s (forceClearAll i s) ∧
    Same3 State.pending State.lcc State.mer s (forceClearAll i s) := by
  unfold forceClearAll; simp

@[simp] theorem frcCmd_keeps (v : Word) (s : State) :
    SamePorts s (frcCmd v s) ∧ SameUnits s (frcCmd v s) ∧ SameHeld s (frcCmd v s) ∧ SamePlant s (frcCmd v s) ∧
    SameVote s (frcCmd v s) ∧ Same3 State.pending State.lcc State.mer s (frcCmd v s) := by simp [frcCmd]

@[simp] theorem arbCommitOp_keeps (v : Word) (s : State) :
    SameStill s (arbCommitOp v s) ∧ SamePorts s (arbCommitOp v s) ∧ SameUnits s (arbCommitOp v s) ∧
    SameHeld s (arbCommitOp v s) ∧ SamePlant s (arbCommitOp v s) ∧ Same2 State.vot State.regs s (arbCommitOp v s) := by
  simp [arbCommitOp]

@[simp] theorem lomIgnore_keeps (r : Req) (off : Nat) (v : Word) (s : State) :
    OnlyReports s (lomIgnore r off v s) := by simp [lomIgnore]

@[simp] theorem loadCmd_keeps (r : Req) (raw : Nat) (v : Word) (s : State) :
    SameStill s (loadCmd r raw v s) ∧ SamePorts s (loadCmd r raw v s) ∧ SameUnits s (loadCmd r raw v s) ∧
    SameVote s (loadCmd r raw v s) ∧ Same3 State.alm State.tap State.rng s (loadCmd r raw v s) ∧
    Same2 State.seg State.img s (loadCmd r raw v s) := by simp [loadCmd]

@[simp] theorem refuseOp_keeps (op r : Nat) (s : State) :
    SameStill s (refuseOp op r s) ∧ SamePorts s (refuseOp op r s) ∧ SameUnits s (refuseOp op r s) ∧
    SamePlant s (refuseOp op r s) ∧ SameVote s (refuseOp op r s) ∧ Same3 State.tap State.pwr State.regs s (refuseOp op r s) := by
  simp [refuseOp]

@[simp] theorem zeroTrailer_keeps (i : Nat) (s : State) :
    SameStill s (zeroTrailer i s) ∧ SamePorts s (zeroTrailer i s) ∧ SameUnits s (zeroTrailer i s) ∧
    SamePlant s (zeroTrailer i s) ∧ SameVote s (zeroTrailer i s) ∧ Same3 State.tap State.pwr State.regs s (zeroTrailer i s) := by
  simp [zeroTrailer, slotChange]

@[simp] theorem beginSave_keeps (byOp : Bool) (s : State) :
    SameStill s (beginSave byOp s) ∧ SamePorts s (beginSave byOp s) ∧ SameUnits s (beginSave byOp s) ∧
    SamePlant s (beginSave byOp s) ∧ SameVote s (beginSave byOp s) ∧ Same2 State.tap State.regs s (beginSave byOp s) := by
  simp [beginSave]

@[simp] theorem startOp_keeps (r : Req) (op : Nat) (s : State) :
    SameStill s (startOp r op s) ∧ SamePorts s (startOp r op s) ∧ SameUnits s (startOp r op s) ∧ SamePlant s (startOp r op s) ∧
    SameVote s (startOp r op s) ∧ Same2 State.tap State.regs s (startOp r op s) := by simp [startOp]

@[simp] theorem writeShadow_keeps (k : PageKind) (off idx : Nat) (w : Word) (s : State) :
    SameStill s (writeShadow k off idx w s) := by simp [writeShadow]

@[simp] theorem newCycle_keeps (n : Word) (s : State) :
    SameStill s (newCycle n s) ∧ SamePorts s (newCycle n s) ∧ SameUnits s (newCycle n s) ∧ SameHeld s (newCycle n s) ∧
    SameVote s (newCycle n s) ∧ Same4 State.rng State.seg State.img State.regs s (newCycle n s) := by simp [newCycle]

@[simp] theorem loomStart_keeps (s : State) :
    SameStill s (loomStart s) ∧ SamePorts s (loomStart s) ∧ SameUnits s (loomStart s) ∧ SameHeld s (loomStart s) ∧
    SameVote s (loomStart s) ∧ Same4 State.rng State.seg State.img State.regs s (loomStart s) := by simp [loomStart]

@[simp] theorem loomEval_keeps (s : State) : SameStill s (loomEval s) := by simp [loomEval]

@[simp] theorem setSynced_keeps (b : Bool) (s : State) :
    SamePorts s (setSynced b s) ∧ SameUnits s (setSynced b s) ∧ SameHeld s (setSynced b s) ∧ SameVote s (setSynced b s) ∧
    Same4 State.pending State.lcc State.frc State.lom s (setSynced b s) ∧
    Same3 State.seg State.img State.regs s (setSynced b s) := by simp [setSynced]

@[simp] theorem setNode_keeps (st : NodeState) (s : State) :
    SamePorts s (setNode st s) ∧ SameUnits s (setNode st s) ∧ SameHeld s (setNode st s) ∧ SameVote s (setNode st s) ∧
    Same4 State.pending State.lcc State.frc State.lom s (setNode st s) ∧ Same3 State.seg State.img State.regs s (setNode st s) := by
  unfold setNode; simp

@[simp] theorem enterListen_keeps (s : State) :
    Same3 State.pending State.lcc State.frc s (enterListen s) := by simp [enterListen]

@[simp] theorem armRefuse_keeps (reason : Nat) (s : State) :
    SameStill s (armRefuse reason s) ∧ SamePorts s (armRefuse reason s) ∧ SameUnits s (armRefuse reason s) ∧
    SameHeld s (armRefuse reason s) ∧ SameVote s (armRefuse reason s) ∧
    Same4 State.rng State.seg State.img State.regs s (armRefuse reason s) := by simp [armRefuse]

@[simp] theorem armOp_keeps (dropOk : Bool) (s : State) :
    SameStill s (armOp dropOk s) ∧ SamePorts s (armOp dropOk s) ∧ SameUnits s (armOp dropOk s) ∧ SameVote s (armOp dropOk s) ∧
    Same4 State.alm State.tap State.rng State.seg s (armOp dropOk s) ∧ Same2 State.img State.regs s (armOp dropOk s) := by
  simp [armOp]

@[simp] theorem disarmOp_keeps (s : State) :
    SameStill s (disarmOp s) ∧ SamePorts s (disarmOp s) ∧ SameUnits s (disarmOp s) ∧ SameVote s (disarmOp s) ∧
    Same3 State.tap State.rng State.seg s (disarmOp s) ∧ Same2 State.img State.regs s (disarmOp s) := by
  unfold disarmOp; dsimp only; (repeat' split) <;> simp [*]

@[simp] theorem armWrite_keeps (v : Word) (s : State) :
    SameStill s (armWrite v s) ∧ SamePorts s (armWrite v s) ∧ SameUnits s (armWrite v s) ∧ SameVote s (armWrite v s) ∧
    Same3 State.tap State.rng State.seg s (armWrite v s) ∧ Same2 State.img State.regs s (armWrite v s) := by simp [armWrite]

@[simp] theorem restartCopy_keeps (issued : Option MCopy) (c : MCopy) (s : State) :
    SameStill s (restartCopy issued c s) ∧ SameHeld s (restartCopy issued c s) ∧ SamePlant s (restartCopy issued c s) ∧
    Same4 State.tx State.msix State.bus State.ch s (restartCopy issued c s) ∧
    Same3 State.mnt State.vot State.regs s (restartCopy issued c s) := by simp [restartCopy]

@[simp] theorem restartMatch_keeps (s : State) :
    SameStill s (restartMatch s) ∧ SameHeld s (restartMatch s) ∧ SamePlant s (restartMatch s) ∧
    Same3 State.tx State.msix State.bus s (restartMatch s) ∧ Same2 State.mnt State.regs s (restartMatch s) := by simp [restartMatch]

@[simp] theorem restartBegin_keeps (cold : Bool) (s : State) : SameStill s (restartBegin cold s) := by simp [restartBegin]

@[simp] theorem restartCmd_keeps (cold : Bool) (s : State) : SameStill s (restartCmd cold s) := by
  unfold restartCmd; simp

@[simp] theorem restartStopCmd_keeps (s : State) :
    SameStill s (restartStopCmd s) ∧ Same1 State.pwr s (restartStopCmd s) := by simp [restartStopCmd]

@[simp] theorem restartWrite_keeps (v : Word) (s : State) : SameStill s (restartWrite v s) := by simp [restartWrite]

@[simp] theorem updateOp_keeps (strobe : Word) (s : State) : SameStill s (updateOp strobe s) := by
  unfold updateOp; simp

@[simp] theorem checkCmd_keeps (r : Req) (raw : Nat) (v : Word) (s : State) :
    SameStill s (checkCmd r raw v s) ∧ SamePorts s (checkCmd r raw v s) ∧ SameUnits s (checkCmd r raw v s) ∧
    SameHeld s (checkCmd r raw v s) ∧ SameVote s (checkCmd r raw v s) ∧
    Same3 State.rng State.seg State.img s (checkCmd r raw v s) := by simp [checkCmd]

@[simp] theorem almStopOp_keeps (s : State) : OnlyPwr s (almStopOp s) := by simp [almStopOp]

@[simp] theorem loadFail_keeps (rule index : Nat) (s : State) :
    SameStill s (loadFail rule index s) ∧ SamePorts s (loadFail rule index s) ∧ SameUnits s (loadFail rule index s) ∧
    SameHeld s (loadFail rule index s) ∧ SameVote s (loadFail rule index s) ∧
    Same4 State.rng State.seg State.img State.regs s (loadFail rule index s) := by simp [loadFail]

@[simp] theorem armedOp_keeps (ok : Bool) (s : State) :
    SameStill s (armedOp ok s) ∧ SamePorts s (armedOp ok s) ∧ SameUnits s (armedOp ok s) ∧ SameVote s (armedOp ok s) ∧
    Same3 State.tap State.rng State.seg s (armedOp ok s) ∧ Same2 State.img State.regs s (armedOp ok s) := by simp [armedOp]

@[simp] theorem checkDone_keeps (s : State) :
    SameStill s (checkDone s) ∧ SamePorts s (checkDone s) ∧ SameUnits s (checkDone s) ∧ SameVote s (checkDone s) ∧
    Same3 State.tap State.rng State.seg s (checkDone s) ∧ Same2 State.img State.regs s (checkDone s) := by simp [checkDone]

@[simp] theorem clearDropped_keeps (s : State) : OnlyFrc s (clearDropped s) := by simp [clearDropped]

@[simp] theorem countSkip_keeps (i : Nat) (s : State) :
    SameStill s (countSkip i s) ∧ SamePorts s (countSkip i s) ∧ SameUnits s (countSkip i s) ∧ SameHeld s (countSkip i s) ∧
    SameVote s (countSkip i s) ∧ Same3 State.rng State.seg State.img s (countSkip i s) := by simp [countSkip]

@[simp] theorem deadlineEntry_keeps (i t : Nat) (s : State) :
    SameStill s (deadlineEntry i t s) ∧ SamePorts s (deadlineEntry i t s) ∧ SameUnits s (deadlineEntry i t s) ∧
    SameVote s (deadlineEntry i t s) ∧ Same3 State.alm State.pwr State.rng s (deadlineEntry i t s) ∧
    Same2 State.seg State.img s (deadlineEntry i t s) := by simp [deadlineEntry, dispatch]

@[simp] theorem dropAnnounced_keeps (s : State) : OnlyLom s (dropAnnounced s) := by simp [dropAnnounced]

@[simp] theorem dropDigest_keeps (s : State) :
    SameStill s (dropDigest s) ∧ SamePorts s (dropDigest s) ∧ SameHeld s (dropDigest s) ∧
    Same4 State.bus State.mnt State.freeCount State.lom s (dropDigest s) ∧
    Same3 State.rng State.seg State.crl s (dropDigest s) ∧ Same2 State.regs State.evh s (dropDigest s) := by simp [dropDigest]

@[simp] theorem dropForce_keeps (i : Nat) (s : State) :
    SamePorts s (dropForce i s) ∧ SameUnits s (dropForce i s) ∧ SameHeld s (dropForce i s) ∧ SamePlant s (dropForce i s) ∧
    SameVote s (dropForce i s) ∧ Same3 State.pending State.lcc State.mer s (dropForce i s) := by simp [dropForce]

@[simp] theorem forceAtSwitch_keeps (w : WSet) (i : Nat) (s : State) :
    SamePorts s (forceAtSwitch w i s) ∧ SameUnits s (forceAtSwitch w i s) ∧ SameHeld s (forceAtSwitch w i s) ∧
    SamePlant s (forceAtSwitch w i s) ∧ SameVote s (forceAtSwitch w i s) ∧
    Same3 State.pending State.lcc State.mer s (forceAtSwitch w i s) := by
  unfold forceAtSwitch; (repeat' split) <;> simp [*]

@[simp] theorem forcesAtSwitch_keeps (s : State) :
    SamePorts s (forcesAtSwitch s) ∧ SameUnits s (forcesAtSwitch s) ∧ SameHeld s (forcesAtSwitch s) ∧
    SamePlant s (forcesAtSwitch s) ∧ SameVote s (forcesAtSwitch s) ∧
    Same3 State.pending State.lcc State.mer s (forcesAtSwitch s) := by simp [forcesAtSwitch]

@[simp] theorem initSlots_keeps (w : WSet) (i : Nat) (s : State) : OnlyImg s (initSlots w i s) := by simp [initSlots]

@[simp] theorem switchRecords_keeps (old new : WSet) (s : State) :
    OnlyImg s (switchRecords old new s) := by simp [switchRecords]

@[simp] theorem switchSlots_keeps (old new : WSet) (s : State) : OnlyImg s (switchSlots old new s) := by
  unfold switchSlots; simp

@[simp] theorem exchangeSets_keeps (s : State) :
    Same3 State.pending State.lcc State.mer s (exchangeSets s) := by simp [exchangeSets]

@[simp] theorem fuseDone_keeps (ok : Bool) (s : State) : Same2 State.pending State.mer s (fuseDone ok s) := by
  unfold fuseDone; dsimp only; (repeat' split) <;> simp [*]

@[simp] theorem zeroAlm_keeps (lo hi : Nat) (s : State) : OnlyAlm s (zeroAlm lo hi s) := by simp [zeroAlm]

@[simp] theorem wipeAlmanac_keeps (s : State) : OnlyAlm s (wipeAlmanac s) := by simp [wipeAlmanac]

@[simp] theorem wipeSlots_keeps (s : State) :
    SameStill s (wipeSlots s) ∧ SamePorts s (wipeSlots s) ∧ SameUnits s (wipeSlots s) ∧ SameVote s (wipeSlots s) ∧
    Same3 State.tap State.rng State.seg s (wipeSlots s) ∧ Same2 State.img State.regs s (wipeSlots s) := by simp [wipeSlots]

@[simp] theorem lcAlertEvent_keeps (s : State) : OnlyEvh s (lcAlertEvent s) := by simp [lcAlertEvent]

@[simp] theorem sealWritten_keeps (s : State) :
    SamePorts s (sealWritten s) ∧ SameUnits s (sealWritten s) ∧ SamePlant s (sealWritten s) ∧ SameVote s (sealWritten s) ∧
    Same4 State.pending State.frc State.mer State.tap s (sealWritten s) ∧
    Same3 State.pwr State.regs State.evh s (sealWritten s) := by simp [sealWritten]

@[simp] theorem initPlain_keeps (i : Nat) (s : State) : OnlyImg s (initPlain i s) := by simp [initPlain]

@[simp] theorem markBad_keeps (i : Nat) (s : State) :
    SameStill s (markBad i s) ∧ SamePorts s (markBad i s) ∧ SameUnits s (markBad i s) ∧ SamePlant s (markBad i s) ∧
    SameVote s (markBad i s) ∧ Same3 State.tap State.pwr State.regs s (markBad i s) := by simp [markBad, slotChange]

@[simp] theorem judgeSlot_keeps (i : Nat) (s : State) :
    SameStill s (judgeSlot i s) ∧ SamePorts s (judgeSlot i s) ∧ SameUnits s (judgeSlot i s) ∧ SamePlant s (judgeSlot i s) ∧
    SameVote s (judgeSlot i s) ∧ Same3 State.tap State.pwr State.regs s (judgeSlot i s) := by simp [judgeSlot]

@[simp] theorem lcFinish_keeps (s : State) :
    SamePorts s (lcFinish s) ∧ SameUnits s (lcFinish s) ∧ SameVote s (lcFinish s) ∧
    Same4 State.pending State.frc State.mer State.tap s (lcFinish s) ∧
    Same4 State.rng State.seg State.img State.regs s (lcFinish s) := by
  unfold lcFinish; dsimp only; (repeat' split) <;> simp [*]

@[simp] theorem legacyEntry_keeps (i : Nat) (s : State) :
    SameStill s (legacyEntry i s) ∧ Same1 State.pwr s (legacyEntry i s) := by simp [legacyEntry, dispatch]

@[simp] theorem loadActive_keeps (s : State) :
    SameStill s (loadActive s) ∧ SamePorts s (loadActive s) ∧ SameUnits s (loadActive s) ∧ SameVote s (loadActive s) ∧
    Same3 State.tap State.rng State.seg s (loadActive s) ∧ Same2 State.img State.regs s (loadActive s) := by
  unfold loadActive; dsimp only; (repeat' split) <;> simp [*]

@[simp] theorem loadDone_keeps (s : State) :
    SameStill s (loadDone s) ∧ SamePorts s (loadDone s) ∧ SameUnits s (loadDone s) ∧ SameVote s (loadDone s) ∧
    Same4 State.tap State.pwr State.rng State.seg s (loadDone s) ∧ Same2 State.img State.regs s (loadDone s) := by
  unfold loadDone; dsimp only; (repeat' split) <;> simp [*]

@[simp] theorem loadTarget_keeps (s : State) :
    SameStill s (loadTarget s) ∧ SamePorts s (loadTarget s) ∧ SameUnits s (loadTarget s) ∧ SameVote s (loadTarget s) ∧
    Same3 State.tap State.rng State.seg s (loadTarget s) ∧ Same2 State.img State.regs s (loadTarget s) := by
  unfold loadTarget; dsimp only; (repeat' split) <;> simp [*]

@[simp] theorem writeWear_keeps (c0 c1 c2 c3 passes block : Nat) (newPass : Bool) (s : State) :
    SameStill s (writeWear c0 c1 c2 c3 passes block newPass s) ∧ SamePorts s (writeWear c0 c1 c2 c3 passes block newPass s) ∧
    SameUnits s (writeWear c0 c1 c2 c3 passes block newPass s) ∧ SamePlant s (writeWear c0 c1 c2 c3 passes block newPass s) ∧
    SameVote s (writeWear c0 c1 c2 c3 passes block newPass s) ∧
    Same3 State.tap State.pwr State.regs s (writeWear c0 c1 c2 c3 passes block newPass s) := by simp [writeWear]

@[simp] theorem unqueue_keeps (g : Seg) (i : Nat) (s : State) : OnlySeg s (unqueue g i s) := by simp [unqueue]

@[simp] theorem skipOp_keeps (i : Nat) (s : State) :
    SameStill s (skipOp i s) ∧ SamePorts s (skipOp i s) ∧ SameUnits s (skipOp i s) ∧ SameHeld s (skipOp i s) ∧
    SameVote s (skipOp i s) ∧ Same1 State.img s (skipOp i s) := by simp [skipOp]

@[simp] theorem mismatchAt_keeps (s : State) : Same3 State.pending State.lcc State.frc s (mismatchAt s) := by
  unfold mismatchAt; dsimp only; (repeat' split) <;> simp [*]

@[simp] theorem loomCycleBase_keeps (s : State) :
    Same3 State.pending State.lcc State.frc s (loomCycleBase s) := by simp [loomCycleBase]

@[simp] theorem markEntry_keeps (i t : Nat) (s : State) :
    SameStill s (markEntry i t s) ∧ SamePorts s (markEntry i t s) ∧ SameUnits s (markEntry i t s) ∧
    SameVote s (markEntry i t s) ∧ Same3 State.alm State.pwr State.rng s (markEntry i t s) ∧
    Same2 State.seg State.img s (markEntry i t s) := by simp [markEntry, dispatch]

@[simp] theorem unsource_keeps (i : Nat) (s : State) : OnlyLom s (unsource i s) := by simp [unsource]

@[simp] theorem wearSlot_keeps (i : Nat) (s : State) :
    SameStill s (wearSlot i s) ∧ SamePorts s (wearSlot i s) ∧ SameUnits s (wearSlot i s) ∧ SamePlant s (wearSlot i s) ∧
    SameVote s (wearSlot i s) ∧ Same3 State.tap State.pwr State.regs s (wearSlot i s) := by simp [wearSlot]

@[simp] theorem writeTrailer_keeps (i seq len : Nat) (s : State) :
    SameStill s (writeTrailer i seq len s) ∧ SamePorts s (writeTrailer i seq len s) ∧ SameUnits s (writeTrailer i seq len s) ∧
    SamePlant s (writeTrailer i seq len s) ∧ SameVote s (writeTrailer i seq len s) ∧
    Same3 State.tap State.pwr State.regs s (writeTrailer i seq len s) := by simp [writeTrailer, slotChange]

@[simp] theorem opDone_keeps (s : State) :
    SameStill s (opDone s) ∧ SamePorts s (opDone s) ∧ SameUnits s (opDone s) ∧ SameVote s (opDone s) ∧
    Same4 State.tap State.pwr State.rng State.seg s (opDone s) ∧ Same2 State.img State.regs s (opDone s) := by
  unfold opDone; dsimp only; (repeat' split) <;> simp [*]

@[simp] theorem powerOffEntry_keeps (i t : Nat) (s : State) :
    SameStill s (powerOffEntry i t s) ∧ SamePorts s (powerOffEntry i t s) ∧ SameUnits s (powerOffEntry i t s) ∧
    SameVote s (powerOffEntry i t s) ∧ Same3 State.alm State.rng State.img s (powerOffEntry i t s) := by
  simp [powerOffEntry, dispatch]

@[simp] theorem powerOnEntry_keeps (i t : Nat) (s : State) :
    SameStill s (powerOnEntry i t s) ∧ SamePorts s (powerOnEntry i t s) ∧ SameUnits s (powerOnEntry i t s) ∧
    SameVote s (powerOnEntry i t s) ∧ Same3 State.alm State.rng State.img s (powerOnEntry i t s) := by simp [powerOnEntry, dispatch]

@[simp] theorem presenceExpire_keeps (s : State) :
    SamePorts s (presenceExpire s) ∧ SameUnits s (presenceExpire s) ∧ SameHeld s (presenceExpire s) ∧
    SamePlant s (presenceExpire s) ∧ SameVote s (presenceExpire s) ∧
    Same4 State.pending State.frc State.mer State.regs s (presenceExpire s) := by simp [presenceExpire]

@[simp] theorem presenceOff_keeps (s : State) :
    SamePorts s (presenceOff s) ∧ SameUnits s (presenceOff s) ∧ SameHeld s (presenceOff s) ∧ SamePlant s (presenceOff s) ∧
    SameVote s (presenceOff s) ∧ Same4 State.pending State.frc State.mer State.regs s (presenceOff s) := by
  unfold presenceOff; simp

@[simp] theorem presenceOn_keeps (s : State) :
    SamePorts s (presenceOn s) ∧ SameUnits s (presenceOn s) ∧ SameHeld s (presenceOn s) ∧ SamePlant s (presenceOn s) ∧
    SameVote s (presenceOn s) ∧ Same4 State.pending State.frc State.mer State.regs s (presenceOn s) := by simp [presenceOn]

@[simp] theorem startWaitingSave_keeps (s : State) :
    SameStill s (startWaitingSave s) ∧ SamePorts s (startWaitingSave s) ∧ SameUnits s (startWaitingSave s) ∧
    SamePlant s (startWaitingSave s) ∧ SameVote s (startWaitingSave s) ∧ Same2 State.tap State.regs s (startWaitingSave s) := by
  simp [startWaitingSave]

@[simp] theorem writeDueMarks_keeps (s : State) :
    SameStill s (writeDueMarks s) ∧ SamePorts s (writeDueMarks s) ∧ SameUnits s (writeDueMarks s) ∧
    SameVote s (writeDueMarks s) ∧ Same4 State.tap State.pwr State.rng State.seg s (writeDueMarks s) ∧
    Same3 State.img State.regs State.evh s (writeDueMarks s) := by simp [writeDueMarks]

@[simp] theorem refreshStep_keeps (s : State) :
    SameStill s (refreshStep s) ∧ SamePorts s (refreshStep s) ∧ SameUnits s (refreshStep s) ∧ SamePlant s (refreshStep s) ∧
    SameVote s (refreshStep s) ∧ Same2 State.tap State.regs s (refreshStep s) := by simp [refreshStep]

@[simp] theorem zeroImg_keeps (lo n : Nat) (s : State) : OnlyImg s (zeroImg lo n s) := by simp [zeroImg]

@[simp] theorem retainInit_keeps (s : State) : OnlyImg s (retainInit s) := by simp [retainInit]

@[simp] theorem retainPick_keeps (x0 : List Nat) (x1 : State) :
    SameStill x1 (retainPick x0 x1).2 ∧ SamePorts x1 (retainPick x0 x1).2 ∧ SameUnits x1 (retainPick x0 x1).2 ∧
    SamePlant x1 (retainPick x0 x1).2 ∧ SameVote x1 (retainPick x0 x1).2 ∧
    Same3 State.tap State.pwr State.regs x1 (retainPick x0 x1).2 := by
  induction x0 generalizing x1 with
  | nil => (unfold retainPick; simp)
  | cons a as ih => (unfold retainPick; (repeat' split) <;> simp [*])

theorem retainPick_pair {x0 : List Nat} {x1 : State} {y0 : Option Nat} {t1 : State} (h : retainPick x0 x1 = (y0, t1)) :
    SameStill x1 t1 ∧ SamePorts x1 t1 ∧ SameUnits x1 t1 ∧ SamePlant x1 t1 ∧ SameVote x1 t1 ∧
    Same3 State.tap State.pwr State.regs x1 t1 := by
  have k := retainPick_keeps x0 x1
  rw [h] at k; exact k

@[simp] theorem restartRetain_keeps (s : State) :
    SameStill s (restartRetain s) ∧ SamePorts s (restartRetain s) ∧ SameUnits s (restartRetain s) ∧
    SameVote s (restartRetain s) ∧ Same4 State.tap State.pwr State.lom State.rng s (restartRetain s) ∧
    Same2 State.seg State.regs s (restartRetain s) := by
  unfold restartRetain; dsimp only; (repeat' split) <;> (try have hk_retainPick := retainPick_pair ‹_›) <;> simp [*]

@[simp] theorem restartImage_keeps (s : State) :
    SamePorts s (restartImage s) ∧ SameUnits s (restartImage s) ∧ SameHeld s (restartImage s) ∧ SameVote s (restartImage s) ∧
    Same4 State.pending State.lcc State.mer State.lom s (restartImage s) ∧
    Same4 State.rng State.seg State.regs State.evh s (restartImage s) := by simp [restartImage]

@[simp] theorem restartDone_keeps (s : State) :
    Same3 State.pending State.lcc State.mer s (restartDone s) := by simp [restartDone]

@[simp] theorem retainSaveStart_keeps (s : State) :
    SameStill s (retainSaveStart s) ∧ SamePorts s (retainSaveStart s) ∧ SameUnits s (retainSaveStart s) ∧
    SamePlant s (retainSaveStart s) ∧ SameVote s (retainSaveStart s) ∧ Same2 State.tap State.regs s (retainSaveStart s) := by
  simp [retainSaveStart]

@[simp] theorem saveOver_keeps (s : State) :
    SameStill s (saveOver s) ∧ SamePorts s (saveOver s) ∧ SameUnits s (saveOver s) ∧ SamePlant s (saveOver s) ∧
    SameVote s (saveOver s) ∧ Same3 State.tap State.regs State.evh s (saveOver s) := by simp [saveOver]

@[simp] theorem saveFails_keeps (s : State) :
    SameStill s (saveFails s) ∧ SamePorts s (saveFails s) ∧ SameUnits s (saveFails s) ∧ SamePlant s (saveFails s) ∧
    SameVote s (saveFails s) ∧ Same2 State.tap State.regs s (saveFails s) := by simp [saveFails]

@[simp] theorem retainSaved_keeps (s : State) :
    SameStill s (retainSaved s) ∧ SamePorts s (retainSaved s) ∧ SameUnits s (retainSaved s) ∧ SameVote s (retainSaved s) ∧
    Same3 State.lom State.rng State.seg s (retainSaved s) := by
  unfold retainSaved; dsimp only; (repeat' split) <;> simp [*]

@[simp] theorem sealBreak_keeps (s : State) :
    SamePorts s (sealBreak s) ∧ SameUnits s (sealBreak s) ∧ SamePlant s (sealBreak s) ∧ SameVote s (sealBreak s) ∧
    Same3 State.pending State.frc State.mer s (sealBreak s) ∧ Same2 State.tap State.regs s (sealBreak s) := by simp [sealBreak]

@[simp] theorem sealCheckOp_keeps (sampled : BitVec 16) (s : State) :
    SameUnits s (sealCheckOp sampled s) ∧ SamePlant s (sealCheckOp sampled s) ∧ SameVote s (sealCheckOp sampled s) ∧
    Same4 State.pending State.frc State.mer State.port s (sealCheckOp sampled s) ∧
    Same4 State.tx State.msix State.tap State.regs s (sealCheckOp sampled s) := by simp [sealCheckOp]

@[simp] theorem streamTimeout_keeps (s : State) :
    SameStill s (streamTimeout s) ∧ SamePorts s (streamTimeout s) ∧ SameUnits s (streamTimeout s) ∧
    SamePlant s (streamTimeout s) ∧ SameVote s (streamTimeout s) ∧ Same3 State.tap State.pwr State.regs s (streamTimeout s) := by
  unfold streamTimeout; (repeat' split) <;> simp [*]

@[simp] theorem switchedOp_keeps (s : State) :
    Same3 State.pending State.lcc State.mer s (switchedOp s) := by simp [switchedOp]

end Sys2Proof.Machine
end

