-- ==== Sys2Proof/Laws/KeepRing.lean ====
section
/-!
SUPPORT. What the operations of the ring and Meridian leave alone: one lemma per operation, over the parts of
`State` that no path of it writes, so that no proof unfolds an operation to see that a part is unchanged.
-/

namespace Sys2Proof.Machine

open Sys2Proof

@[simp] theorem abandonQueued_keeps (q src tag : Nat) (s : State) :
    SameStill s (abandonQueued q src tag s) ∧ SamePorts s (abandonQueued q src tag s) ∧ SameUnits s (abandonQueued q src tag s) ∧
    SameHeld s (abandonQueued q src tag s) ∧ Same3 State.lom State.rng State.seg s (abandonQueued q src tag s) ∧
    Same2 State.vot State.regs s (abandonQueued q src tag s) := by simp [abandonQueued]

@[simp] theorem acceptSlot_keeps (f : Frame) (w : RxWin) (s : State) :
    SameStill s (acceptSlot f w s) ∧ SamePorts s (acceptSlot f w s) ∧ SameHeld s (acceptSlot f w s) ∧
    SameVote s (acceptSlot f w s) ∧ Same3 State.bus State.ch State.mnt s (acceptSlot f w s) ∧
    Same2 State.seg State.regs s (acceptSlot f w s) := by
  unfold acceptSlot; dsimp only; (repeat' split) <;> simp [*]

@[simp] theorem adjustRate_keeps (m : ℤ) (ms : Nat) (s : State) :
    SamePorts s (adjustRate m ms s) ∧ SameUnits s (adjustRate m ms s) ∧ SameHeld s (adjustRate m ms s) ∧
    SamePlant s (adjustRate m ms s) ∧ SameVote s (adjustRate m ms s) ∧
    Same4 State.pending State.lcc State.frc State.regs s (adjustRate m ms s) := by simp [adjustRate]

@[simp] theorem sendFrame_keeps (rp : RingPort) (f : Frame) (s : State) : OnlyOut s (sendFrame rp f s) := by simp [sendFrame]

@[simp] theorem sendNc_keeps (rp : RingPort) (f : Frame) (s : State) :
    SameStill s (sendNc rp f s) ∧ SameUnits s (sendNc rp f s) ∧ SameHeld s (sendNc rp f s) ∧ SamePlant s (sendNc rp f s) ∧
    Same4 State.port State.tx State.msix State.regs s (sendNc rp f s) := by
  unfold sendNc; dsimp only; (repeat' split) <;> (try have hk_claim := claim_keeps ‹_›) <;> simp [*]

@[simp] theorem sendInaug_keeps (s : State) :
    SameStill s (sendInaug s) ∧ SameUnits s (sendInaug s) ∧ SameHeld s (sendInaug s) ∧ SamePlant s (sendInaug s) ∧
    Same4 State.port State.tx State.msix State.regs s (sendInaug s) := by simp [sendInaug]

@[simp] theorem setRoles_keeps (swapped : Bool) (s : State) : OnlyRng s (setRoles swapped s) := by simp [setRoles]

@[simp] theorem startInaug_keeps (s : State) :
    SameStill s (startInaug s) ∧ SameUnits s (startInaug s) ∧ SameHeld s (startInaug s) ∧
    Same4 State.port State.tx State.msix State.lom s (startInaug s) ∧ Same3 State.seg State.img State.regs s (startInaug s) := by
  simp [startInaug]

@[simp] theorem ringRefuse_keeps (s : State) : OnlyEvh s (ringRefuse s) := by simp [ringRefuse]

@[simp] theorem ringInaugurate_keeps (s : State) :
    Same3 State.pending State.lcc State.frc s (ringInaugurate s) := by simp [ringInaugurate]

@[simp] theorem ringWithdraw_keeps (s : State) : Same3 State.pending State.lcc State.frc s (ringWithdraw s) := by
  unfold ringWithdraw; simp

@[simp] theorem ringRelease_keeps (s : State) :
    SameStill s (ringRelease s) ∧ SamePorts s (ringRelease s) ∧ SameUnits s (ringRelease s) ∧ SameHeld s (ringRelease s) ∧
    SameVote s (ringRelease s) ∧ Same4 State.lom State.seg State.img State.regs s (ringRelease s) := by simp [ringRelease]

@[simp] theorem ringRemote_keeps (cmd dst : Nat) (s : State) :
    SameStill s (ringRemote cmd dst s) ∧ SamePorts s (ringRemote cmd dst s) ∧ SameUnits s (ringRemote cmd dst s) ∧
    SameHeld s (ringRemote cmd dst s) ∧ SameVote s (ringRemote cmd dst s) ∧
    Same4 State.lom State.seg State.img State.regs s (ringRemote cmd dst s) := by simp [ringRemote]

@[simp] theorem ringCmdWrite_keeps (v : Word) (s : State) :
    Same3 State.pending State.lcc State.frc s (ringCmdWrite v s) := by simp [ringCmdWrite]

@[simp] theorem spoil_keeps (s : State) : OnlyMer s (spoil s) := by simp [spoil]

@[simp] theorem epochOp_keeps (v : Word) (s : State) :
    SamePorts s (epochOp v s) ∧ SameUnits s (epochOp v s) ∧ SameHeld s (epochOp v s) ∧ SamePlant s (epochOp v s) ∧
    SameVote s (epochOp v s) ∧ Same4 State.pending State.lcc State.frc State.regs s (epochOp v s) := by simp [epochOp]

@[simp] theorem failHead_keeps (g : Seg) (q : Nat) (s : State) :
    SameStill s (failHead g q s) ∧ Same4 State.tx State.msix State.bus State.ch s (failHead g q s) ∧
    Same2 State.alm State.pwr s (failHead g q s) := by
  unfold failHead; dsimp only; (repeat' split) <;> simp [*]

@[simp] theorem dropRem_keeps (tag : Nat) (s : State) : OnlyRng s (dropRem tag s) := by simp [dropRem]

@[simp] theorem dropAnswer_keeps (tag : Nat) (s : State) : OnlyCrl s (dropAnswer tag s) := by
  unfold dropAnswer; simp

@[simp] theorem remoteOutcome_keeps (r : RemTx) (failed : Bool) (bs : List Byte) (s : State) :
    SameStill s (remoteOutcome r failed bs s) ∧ Same1 State.pwr s (remoteOutcome r failed bs s) := by
  unfold remoteOutcome; dsimp only; (repeat' split) <;> simp [*]

@[simp] theorem calibrate_keeps (rp : RingPort) (j stamp : Nat) (p : SyncPl) (s : State) :
    SamePorts s (calibrate rp j stamp p s) ∧ SameUnits s (calibrate rp j stamp p s) ∧ SameHeld s (calibrate rp j stamp p s) ∧
    SameVote s (calibrate rp j stamp p s) ∧ Same4 State.pending State.lcc State.frc State.lom s (calibrate rp j stamp p s) ∧
    Same3 State.seg State.img State.regs s (calibrate rp j stamp p s) := by
  unfold calibrate; dsimp only; (repeat' split) <;> simp [*]

@[simp] theorem clearReject_keeps (rp : RingPort) (src : Nat) (s : State) :
    OnlyRng s (clearReject rp src s) := by simp [clearReject]

@[simp] theorem cliqueCheck_keeps (s : State) :
    Same3 State.pending State.lcc State.frc s (cliqueCheck s) := by simp [cliqueCheck]

@[simp] theorem closeSegment_keeps (s : State) :
    SamePorts s (closeSegment s) ∧ SameUnits s (closeSegment s) ∧ SameHeld s (closeSegment s) ∧ SameVote s (closeSegment s) ∧
    Same4 State.pending State.lcc State.frc State.seg s (closeSegment s) ∧
    Same3 State.img State.regs State.evh s (closeSegment s) := by simp [closeSegment]

@[simp] theorem markLost_keeps (e : Eph) (s : State) :
    SameStill s (markLost e s) ∧ SamePorts s (markLost e s) ∧ SameUnits s (markLost e s) ∧ SameHeld s (markLost e s) ∧
    SameVote s (markLost e s) ∧ Same3 State.lom State.seg State.regs s (markLost e s) := by
  unfold markLost; dsimp only; (repeat' split) <;> simp [*]

@[simp] theorem closeWin_keeps (s : State) (w : RxWin) :
    SameStill s (closeWin s w) ∧ SamePorts s (closeWin s w) ∧ SameUnits s (closeWin s w) ∧ SameHeld s (closeWin s w) ∧
    SameVote s (closeWin s w) ∧ Same2 State.seg State.regs s (closeWin s w) := by simp [closeWin]

@[simp] theorem coldstartEntry_keeps (s : State) :
    SamePorts s (coldstartEntry s) ∧ SameUnits s (coldstartEntry s) ∧ SameHeld s (coldstartEntry s) ∧
    SameVote s (coldstartEntry s) ∧ Same4 State.pending State.lcc State.frc State.lom s (coldstartEntry s) ∧
    Same3 State.seg State.img State.regs s (coldstartEntry s) := by simp [coldstartEntry]

@[simp] theorem countBad_keeps (rp : RingPort) (s : State) : OnlyReports s (countBad rp s) := by simp [countBad]

@[simp] theorem repeatFrame_keeps (rp : RingPort) (cut : Bool) (f : Frame) (s : State) :
    OnlyOut s (repeatFrame rp cut f s) := by
  unfold repeatFrame; (repeat' split) <;> simp [*]

@[simp] theorem coldstartHeard_keeps (rp : RingPort) (f : Frame) (s : State) :
    SameUnits s (coldstartHeard rp f s) ∧ SameHeld s (coldstartHeard rp f s) ∧
    Same4 State.pending State.lcc State.frc State.port s (coldstartHeard rp f s) ∧
    Same4 State.tx State.msix State.lom State.seg s (coldstartHeard rp f s) ∧
    Same2 State.img State.regs s (coldstartHeard rp f s) := by simp [coldstartHeard]

@[simp] theorem coldstartFrame_keeps (rp : RingPort) (f : Frame) (s : State) :
    SameUnits s (coldstartFrame rp f s) ∧ SameHeld s (coldstartFrame rp f s) ∧
    Same4 State.pending State.lcc State.frc State.port s (coldstartFrame rp f s) ∧
    Same3 State.tx State.msix State.lom s (coldstartFrame rp f s) ∧ Same2 State.seg State.img s (coldstartFrame rp f s) := by
  simp only [coldstartFrame, withProto]; (repeat' split) <;> (try have hk_claim := claim_keeps ‹_›) <;>
        simp (disch := (intros; (repeat' split) <;> simp)) [*]

@[simp] theorem coldstartSend_keeps (s : State) :
    SameStill s (coldstartSend s) ∧ SameUnits s (coldstartSend s) ∧ SameHeld s (coldstartSend s) ∧
    SamePlant s (coldstartSend s) ∧ Same4 State.port State.tx State.msix State.regs s (coldstartSend s) := by simp [coldstartSend]

@[simp] theorem moveTime_keeps (d : ℤ) (s : State) : OnlyMer s (moveTime d s) := by simp [moveTime]

@[simp] theorem correct_keeps (m : ℤ) (s : State) :
    SamePorts s (correct m s) ∧ SameUnits s (correct m s) ∧ SameHeld s (correct m s) ∧ SamePlant s (correct m s) ∧
    SameVote s (correct m s) ∧ Same4 State.pending State.lcc State.frc State.regs s (correct m s) := by simp [correct]

@[simp] theorem edgeReject_keeps (rp : RingPort) (src : Nat) (s : State) :
    SameStill s (edgeReject rp src s) ∧ SamePorts s (edgeReject rp src s) ∧ SameUnits s (edgeReject rp src s) ∧
    SameHeld s (edgeReject rp src s) ∧ SameVote s (edgeReject rp src s) ∧
    Same3 State.lom State.seg State.img s (edgeReject rp src s) := by simp [edgeReject]

@[simp] theorem noteForeign_keeps (rp : RingPort) (utag : Word) (s : State) :
    SameStill s (noteForeign rp utag s) ∧ SamePorts s (noteForeign rp utag s) ∧ SameUnits s (noteForeign rp utag s) ∧
    SameHeld s (noteForeign rp utag s) ∧ SameVote s (noteForeign rp utag s) ∧
    Same4 State.lom State.seg State.img State.regs s (noteForeign rp utag s) := by simp [noteForeign]

@[simp] theorem dataFrame_keeps (rp : RingPort) (inWindow : Bool) (f : Frame) (s : State) :
    SameStill s (dataFrame rp inWindow f s) ∧ SameHeld s (dataFrame rp inWindow f s) ∧ SameVote s (dataFrame rp inWindow f s) ∧
    Same4 State.port State.tx State.msix State.bus s (dataFrame rp inWindow f s) ∧
    Same3 State.ch State.mnt State.seg s (dataFrame rp inWindow f s) := by simp [dataFrame]

@[simp] theorem dropCells_keeps (q : Nat) (bs : List Byte) (last : Bool) (s : State) :
    SameStill s (dropCells q bs last s) ∧ SamePorts s (dropCells q bs last s) ∧ SameUnits s (dropCells q bs last s) ∧
    SameHeld s (dropCells q bs last s) ∧ SamePlant s (dropCells q bs last s) ∧
    Same2 State.vot State.regs s (dropCells q bs last s) := by
  unfold dropCells; dsimp only; (repeat' split) <;> simp [*]

@[simp] theorem execCommand_keeps (x0 : SubHdr) (s : State) :
    Same3 State.pending State.lcc State.frc s (execCommand x0 s) := by simp [execCommand]

@[simp] theorem modRem_keeps (tag : Nat) (f : RemTx → RemTx) (s : State) : OnlyRng s (modRem tag f s) := by simp [modRem]

@[simp] theorem requestLeft_keeps (p : Pkt) (s : State) :
    SameStill s (requestLeft p s) ∧ SamePorts s (requestLeft p s) ∧ SameUnits s (requestLeft p s) ∧
    SameHeld s (requestLeft p s) ∧ Same4 State.lom State.seg State.img State.regs s (requestLeft p s) := by simp [requestLeft]

theorem takeRequest_keeps {s : State} {room : Nat} {first : Bool} {y0 : List Byte} {t1 : State} (h : takeRequest s room first
    = some (y0, t1)) :
    SameStill s t1 ∧ SamePorts s t1 ∧ Same4 State.bus State.ch State.freeCount State.alm s t1 ∧
    Same4 State.pwr State.lom State.seg State.img s t1 := by
  unfold takeRequest at h; dsimp only at h; (repeat' split at h) <;> simp at h <;> (try obtain ⟨rfl, rfl⟩ := h) <;> simp_all

theorem takeResponse_keeps {s : State} {room : Nat} {first : Bool} {y0 : List Byte} {t1 : State} (h : takeResponse s room
    first = some (y0, t1)) :
    SameStill s t1 ∧ SamePorts s t1 ∧ SameUnits s t1 ∧ SamePlant s t1 ∧ Same2 State.alm State.pwr s t1 := by
  unfold takeResponse at h; dsimp only at h; (repeat' split at h) <;> simp at h <;> (try obtain ⟨rfl, rfl⟩ := h) <;> simp_all

theorem takeCommand_keeps {s : State} {room : Nat} {y0 : List Byte} {t1 : State} (h : takeCommand s room = some (y0, t1)) :
    OnlyRng s t1 := by
  unfold takeCommand at h; dsimp only at h; (repeat' split at h) <;> simp at h <;> (try obtain ⟨rfl, rfl⟩ := h) <;> simp_all

/-- What a fold of choices picks is its start or a member of the list. -/
theorem pick_mem {α : Type} (f : Option α → α → Option α) (hf : ∀ b c r, f b c = some r → r = c ∨ b = some r) (l : List α)
    (b : Option α) (r : α) (h : l.foldl f b = some r) : b = some r ∨ r ∈ l := by
  induction l generalizing b with
  | nil => exact .inl h
  | cons c cs ih =>
    rcases ih _ h with h | h
    · rcases hf _ _ _ h with rfl | h
      · exact .inr (List.mem_cons_self)
      · exact .inl h
    · exact .inr (List.mem_cons_of_mem _ h)

theorem takeSub_keeps {s : State} {rings room : Nat} {first : Bool} {y0 : Nat} {y1 : List Byte} {t1 : State} (h : takeSub s
    rings room first = some (y0, y1, t1)) :
    SameStill s t1 ∧ SamePorts s t1 ∧ Same4 State.bus State.ch State.freeCount State.alm s t1 ∧
    Same4 State.pwr State.lom State.seg State.img s t1 := by
  unfold takeSub at h; dsimp only at h
  rcases pick_mem _ (by intro b c r h; (repeat' split at h) <;> simp_all) _ _ _ h with h | h
  · cases h
  · obtain ⟨src, -, h⟩ := List.mem_filterMap.1 h
    rw [Option.map_eq_some_iff] at h
    obtain ⟨e, h, he⟩ := h
    obtain ⟨rfl, rfl⟩ := Prod.mk.inj he
    (repeat' split at h) <;>
      first
      | (cases h; done)
      | (have := takeRequest_keeps h; simp [*]; done)
      | (have := takeResponse_keeps h; simp [*]; done)
      | (have := takeCommand_keeps h; simp [*]; done)

@[simp] theorem txGranted_keeps (src : Nat) (s : State) : OnlyRng s (txGranted src s) := by simp [txGranted]

@[simp] theorem fillSubs_keeps (rings x1 x2 : Nat) (x3 : Bool) (x4 : List Byte) (x5 : State) :
    SameStill x5 (fillSubs rings x1 x2 x3 x4 x5).2 ∧ SamePorts x5 (fillSubs rings x1 x2 x3 x4 x5).2 ∧
    Same4 State.bus State.ch State.freeCount State.alm x5 (fillSubs rings x1 x2 x3 x4 x5).2 ∧
    Same4 State.pwr State.lom State.seg State.img x5 (fillSubs rings x1 x2 x3 x4 x5).2 := by
  induction x1 generalizing x2 x3 x4 x5 with
  | zero => (unfold fillSubs; simp)
  | succ n ih => (unfold fillSubs; (repeat' split) <;> (try have hk_takeSub := takeSub_keeps ‹_›) <;> simp [*])

theorem fillSubs_pair {rings x1 x2 : Nat} {x3 : Bool} {x4 : List Byte} {x5 : State} {y0 : List Byte} {t1 : State} (h :
    fillSubs rings x1 x2 x3 x4 x5 = (y0, t1)) :
    SameStill x5 t1 ∧ SamePorts x5 t1 ∧ Same4 State.bus State.ch State.freeCount State.alm x5 t1 ∧
    Same4 State.pwr State.lom State.seg State.img x5 t1 := by
  have k := fillSubs_keeps rings x1 x2 x3 x4 x5
  rw [h] at k; exact k

@[simp] theorem firstRequest_keeps (rp : RingPort) (x1 : SubHdr) (bs : List Byte) (s0 : State) :
    SameStill s0 (firstRequest rp x1 bs s0) ∧ SamePorts s0 (firstRequest rp x1 bs s0) ∧ SameUnits s0 (firstRequest rp x1 bs s0) ∧
    Same3 State.alm State.pwr State.lom s0 (firstRequest rp x1 bs s0) ∧
    Same2 State.seg State.img s0 (firstRequest rp x1 bs s0) := by
  unfold firstRequest; dsimp only; (repeat' split) <;> (try have hk_claim := claim_keeps ‹_›) <;> simp [*]

@[simp] theorem fragmentTimeout_keeps (src tag : Nat) (s : State) :
    SameStill s (fragmentTimeout src tag s) ∧ Same1 State.pwr s (fragmentTimeout src tag s) := by
  unfold fragmentTimeout; dsimp only; (repeat' split) <;> simp [*]

@[simp] theorem goActive_keeps (s : State) : Same3 State.pending State.lcc State.frc s (goActive s) := by simp [goActive]

@[simp] theorem growRequest_keeps (q src tag : Nat) (bs : List Byte) (last : Bool) (s : State) :
    OnlyCrl s (growRequest q src tag bs last s) := by simp [growRequest]

@[simp] theorem setTopo_keeps (result pos : Nat) (s : State) : OnlyRegs s (setTopo result pos s) := by simp [setTopo]

@[simp] theorem sendResult_keeps (pl : List Byte) (s : State) :
    SameStill s (sendResult pl s) ∧ SameUnits s (sendResult pl s) ∧ SameHeld s (sendResult pl s) ∧
    SamePlant s (sendResult pl s) ∧ Same4 State.port State.tx State.msix State.regs s (sendResult pl s) := by simp [sendResult]

@[simp] theorem setMembers_keeps (v : BitVec 64) (s : State) :
    SameStill s (setMembers v s) ∧ SamePorts s (setMembers v s) ∧ SameUnits s (setMembers v s) ∧ SameHeld s (setMembers v s) ∧
    SameVote s (setMembers v s) ∧ Same4 State.lom State.seg State.img State.regs s (setMembers v s) := by simp [setMembers]

@[simp] theorem takeResult_keeps (ms : List Member) (num : Nat) (members : BitVec 64) (c0 : Word) (s : State) :
    SameStill s (takeResult ms num members c0 s) ∧ SamePorts s (takeResult ms num members c0 s) ∧
    SameUnits s (takeResult ms num members c0 s) ∧ SameHeld s (takeResult ms num members c0 s) ∧
    SameVote s (takeResult ms num members c0 s) ∧ Same2 State.seg State.img s (takeResult ms num members c0 s) := by
  simp [takeResult]

@[simp] theorem judgeInaug_keeps (es : List (List Byte)) (s : State) :
    Same3 State.pending State.lcc State.frc s (judgeInaug es s) := by
  unfold judgeInaug; dsimp only; (repeat' split) <;> simp [*]

@[simp] theorem passInaug_keeps (rp : RingPort) (f : Frame) (s : State) :
    SameStill s (passInaug rp f s) ∧ SameUnits s (passInaug rp f s) ∧ SameHeld s (passInaug rp f s) ∧
    Same4 State.port State.tx State.msix State.lom s (passInaug rp f s) ∧
    Same3 State.seg State.img State.regs s (passInaug rp f s) := by simp [passInaug]

@[simp] theorem inaugFrame_keeps (rp : RingPort) (f : Frame) (s0 : State) :
    Same3 State.pending State.lcc State.frc s0 (inaugFrame rp f s0) := by
  simp only [inaugFrame, withProto]; (repeat' split) <;> (try have hk_claim := claim_keeps ‹_›) <;>
        simp (disch := (intros; (repeat' split) <;> simp)) [*]

@[simp] theorem inaugTimeout_keeps (s : State) :
    SameStill s (inaugTimeout s) ∧ SameUnits s (inaugTimeout s) ∧ SameHeld s (inaugTimeout s) ∧
    Same4 State.port State.tx State.msix State.lom s (inaugTimeout s) ∧
    Same3 State.seg State.img State.regs s (inaugTimeout s) := by simp [inaugTimeout]

@[simp] theorem integrate_keeps (cy : Word) (s : State) :
    SamePorts s (integrate cy s) ∧ SameUnits s (integrate cy s) ∧ SameHeld s (integrate cy s) ∧ SameVote s (integrate cy s) ∧
    Same4 State.pending State.lcc State.frc State.seg s (integrate cy s) ∧ Same2 State.img State.regs s (integrate cy s) := by
  simp [integrate]

@[simp] theorem integrateDone_keeps (s : State) :
    Same3 State.pending State.lcc State.frc s (integrateDone s) := by simp [integrateDone]

@[simp] theorem integrateCycle_keeps (s : State) : Same3 State.pending State.lcc State.frc s (integrateCycle s) := by
  unfold integrateCycle; simp

@[simp] theorem judgeDeviation_keeps (m : ℤ) (s : State) :
    Same3 State.pending State.lcc State.frc s (judgeDeviation m s) := by simp [judgeDeviation]

@[simp] theorem linkLoss_keeps (rp : RingPort) (s : State) :
    SameStill s (linkLoss rp s) ∧ SamePorts s (linkLoss rp s) ∧ SameUnits s (linkLoss rp s) ∧ SameHeld s (linkLoss rp s) ∧
    SameVote s (linkLoss rp s) ∧ Same3 State.lom State.seg State.img s (linkLoss rp s) := by simp [linkLoss]

@[simp] theorem linkOk_keeps (rp : RingPort) (s : State) :
    SameStill s (linkOk rp s) ∧ SamePorts s (linkOk rp s) ∧ SameUnits s (linkOk rp s) ∧ SameHeld s (linkOk rp s) ∧
    SameVote s (linkOk rp s) ∧ Same4 State.lom State.seg State.img State.regs s (linkOk rp s) := by simp [linkOk]

@[simp] theorem listenCheck_keeps (cy : Word) (before : Bool) (p : SyncPl) (s : State) :
    Same2 State.pending State.lcc s (listenCheck cy before p s) := by simp [listenCheck]

@[simp] theorem sendSync_keeps (s : State) : OnlyOut s (sendSync s) := by simp [sendSync]

@[simp] theorem listenSync_keeps (s : State) :
    SameUnits s (listenSync s) ∧ SameHeld s (listenSync s) ∧ SamePlant s (listenSync s) ∧ SameVote s (listenSync s) ∧
    Same4 State.pending State.lcc State.frc State.port s (listenSync s) ∧
    Same4 State.tx State.msix State.regs State.evh s (listenSync s) := by simp [listenSync]

@[simp] theorem ringCycle_keeps (s0 : State) :
    Same3 State.pending State.lcc State.frc s0 (ringCycle s0) := by simp [ringCycle]

@[simp] theorem loomCycleOp_keeps (s : State) : Same3 State.pending State.lcc State.frc s (loomCycleOp s) := by
  unfold loomCycleOp; simp

@[simp] theorem memberLoss_keeps (n : Nat) (s : State) :
    SameStill s (memberLoss n s) ∧ SamePorts s (memberLoss n s) ∧ SameUnits s (memberLoss n s) ∧ SameHeld s (memberLoss n s) ∧
    SameVote s (memberLoss n s) ∧ Same4 State.lom State.seg State.img State.regs s (memberLoss n s) := by simp [memberLoss]

@[simp] theorem noteResult_keeps (bs : List Byte) (s : State) :
    SamePorts s (noteResult bs s) ∧ SameUnits s (noteResult bs s) ∧ SameHeld s (noteResult bs s) ∧ SameVote s (noteResult bs s) ∧
    Same3 State.pending State.lcc State.frc s (noteResult bs s) ∧ Same2 State.seg State.img s (noteResult bs s) := by
  unfold noteResult; dsimp only; (repeat' split) <;> simp [*]

@[simp] theorem takeReading_keeps (rp : RingPort) (j stamp : Nat) (p : SyncPl) (s : State) :
    OnlyMer s (takeReading rp j stamp p s) := by simp [takeReading]

@[simp] theorem noteWraps_keeps (j : Nat) (cy : Word) (p : SyncPl) (s : State) :
    OnlyRng s (noteWraps j cy p s) := by simp [noteWraps]

@[simp] theorem noteTaken_keeps (j : Nat) (p : SyncPl) (s : State) :
    Same3 State.pending State.lcc State.frc s (noteTaken j p s) := by simp [noteTaken]

@[simp] theorem noteSync_keeps (rp : RingPort) (j stamp : Nat) (f : Frame) (s : State) :
    Same2 State.pending State.lcc s (noteSync rp j stamp f s) := by simp [noteSync]

@[simp] theorem relayHoldExpire_keeps (i : Nat) (s : State) : OnlyImg s (relayHoldExpire i s) := by simp [relayHoldExpire]

@[simp] theorem releaseOp_keeps (n : Nat) (s : State) : Same3 State.pending State.lcc State.frc s (releaseOp n s) := by
  unfold releaseOp; dsimp only; (repeat' split) <;> simp [*]

@[simp] theorem remCmdOp_keeps (x0 : SubHdr) (s : State) : Same3 State.pending State.lcc State.frc s (remCmdOp x0 s) := by
  simp only [remCmdOp, withProto]; (repeat' split) <;> (try have hk_claim := claim_keeps ‹_›) <;>
        simp (disch := (intros; (repeat' split) <;> simp)) [*]

@[simp] theorem remTimeoutOp_keeps (tag : Nat) (s : State) :
    SameStill s (remTimeoutOp tag s) ∧ Same1 State.pwr s (remTimeoutOp tag s) := by
  unfold remTimeoutOp; (repeat' split) <;> simp [*]

@[simp] theorem remoteRequest_keeps (rp : RingPort) (x1 : SubHdr) (data : List Byte) (s : State) :
    SameStill s (remoteRequest rp x1 data s) ∧ Same1 State.pwr s (remoteRequest rp x1 data s) := by
  unfold remoteRequest; dsimp only; (repeat' split) <;> simp [*]

theorem takeFragment_keeps {rp : RingPort} {x1 : SubHdr} {r : RemTx} {bs : List Byte} {s : State} {y0 : List Byte} {t1 :
    State} (h : takeFragment rp x1 r bs s = some (y0, t1)) :
    OnlyLists s t1 := by
  unfold takeFragment at h; dsimp only at h
  split at h
  · rw [Option.map_eq_some_iff] at h
    obtain ⟨e, h, he⟩ := h
    have k := claim_keeps h
    cases he; simp [*]
  · split at h <;> cases h <;> simp

@[simp] theorem remoteResponse_keeps (rp : RingPort) (x1 : SubHdr) (data : List Byte) (s : State) :
    SameStill s (remoteResponse rp x1 data s) ∧ Same1 State.pwr s (remoteResponse rp x1 data s) := by
  simp only [remoteResponse, withProto]; (repeat' split) <;> (try have hk_claim := claim_keeps ‹_›) <;>
        (try have hk_takeFragment := takeFragment_keeps ‹_›) <;> simp [*]

@[simp] theorem resultFrame_keeps (rp : RingPort) (f : Frame) (s : State) :
    SameUnits s (resultFrame rp f s) ∧ SameHeld s (resultFrame rp f s) ∧
    Same4 State.pending State.lcc State.frc State.port s (resultFrame rp f s) ∧
    Same4 State.tx State.msix State.seg State.img s (resultFrame rp f s) := by
  simp only [resultFrame, withProto]; (repeat' split) <;> (try have hk_claim := claim_keeps ‹_›) <;>
        simp (disch := (intros; (repeat' split) <;> simp)) [*]

@[simp] theorem resyncOp_keeps (ms : Nat) (s : State) :
    Same3 State.pending State.lcc State.frc s (resyncOp ms s) := by simp [resyncOp]

@[simp] theorem ringRxEntry_keeps (i : Nat) (s : State) :
    SameStill s (ringRxEntry i s) ∧ SamePorts s (ringRxEntry i s) ∧ SameUnits s (ringRxEntry i s) ∧
    SameVote s (ringRxEntry i s) ∧ Same4 State.alm State.pwr State.seg State.img s (ringRxEntry i s) := by
  simp [ringRxEntry, dispatch]

@[simp] theorem ringTxEntry_keeps (i : Nat) (s : State) :
    SameStill s (ringTxEntry i s) ∧ SamePorts s (ringTxEntry i s) ∧ SameVote s (ringTxEntry i s) ∧
    Same4 State.bus State.ch State.mnt State.alm s (ringTxEntry i s) ∧ Same2 State.pwr State.seg s (ringTxEntry i s) := by
  simp [ringTxEntry, dispatch]

@[simp] theorem sendOwn_keeps (f : TxFrame) (payload : List Byte) (carried : Bool) (s : State) (rp : RingPort) :
    SameStill s (sendOwn f payload carried s rp) ∧ SameUnits s (sendOwn f payload carried s rp) ∧
    SameHeld s (sendOwn f payload carried s rp) ∧ SamePlant s (sendOwn f payload carried s rp) ∧
    SameVote s (sendOwn f payload carried s rp) ∧
    Same4 State.port State.tx State.msix State.regs s (sendOwn f payload carried s rp) := by simp [sendOwn]

@[simp] theorem sendSlot_keeps (f : TxFrame) (s : State) :
    SameStill s (sendSlot f s) ∧ Same4 State.port State.tx State.msix State.bus s (sendSlot f s) ∧
    Same3 State.ch State.alm State.pwr s (sendSlot f s) ∧ Same2 State.seg State.img s (sendSlot f s) := by
  unfold sendSlot; dsimp only; (repeat' split) <;> (try have hk_fillSubs := fillSubs_pair ‹_›) <;> simp [*]

@[simp] theorem slewDone_keeps (s : State) :
    SamePorts s (slewDone s) ∧ Same2 State.alm State.tap s (slewDone s) ∧ SamePlant s (slewDone s) ∧ SameVote s (slewDone s) ∧
    Same4 State.pending State.lcc State.frc State.bus s (slewDone s) ∧
    Same4 State.ch State.mnt State.regs State.evh s (slewDone s) := by simp [slewDone]

@[simp] theorem slotStart_keeps (slot : Nat) (s : State) :
    SameStill s (slotStart slot s) ∧ Same4 State.port State.tx State.msix State.bus s (slotStart slot s) ∧
    Same3 State.ch State.alm State.pwr s (slotStart slot s) ∧ Same2 State.seg State.img s (slotStart slot s) := by simp [slotStart]

@[simp] theorem syncEntry_keeps (i : Nat) (s : State) :
    SameUnits s (syncEntry i s) ∧ SameVote s (syncEntry i s) ∧
    Same4 State.pending State.lcc State.frc State.port s (syncEntry i s) ∧
    Same4 State.tx State.msix State.alm State.pwr s (syncEntry i s) ∧ Same3 State.rng State.seg State.img s (syncEntry i s) := by
  simp [syncEntry, dispatch]

@[simp] theorem syncFrame_keeps (rp : RingPort) (inWindow : Bool) (stamp : Nat) (f : Frame) (s : State) :
    Same2 State.pending State.lcc s (syncFrame rp inWindow stamp f s) := by
  simp only [syncFrame, withProto]; (repeat' split) <;> (try have hk_claim := claim_keeps ‹_›) <;>
        simp (disch := (intros; (repeat' split) <;> simp)) [*]

@[simp] theorem takeoverOp_keeps (n : Nat) (s : State) :
    Same3 State.pending State.lcc State.frc s (takeoverOp n s) := by simp [takeoverOp]

@[simp] theorem unwrapOp_keeps (rp : RingPort) (s : State) :
    SameStill s (unwrapOp rp s) ∧ SamePorts s (unwrapOp rp s) ∧ SameUnits s (unwrapOp rp s) ∧ SameHeld s (unwrapOp rp s) ∧
    SameVote s (unwrapOp rp s) ∧ Same4 State.lom State.seg State.img State.regs s (unwrapOp rp s) := by simp [unwrapOp]

@[simp] theorem windowClose_keeps (i : Nat) (s : State) :
    SameStill s (windowClose i s) ∧ SamePorts s (windowClose i s) ∧ SameUnits s (windowClose i s) ∧
    SameHeld s (windowClose i s) ∧ SameVote s (windowClose i s) ∧ Same2 State.seg State.regs s (windowClose i s) := by
  unfold windowClose; (repeat' split) <;> simp [*]

end Sys2Proof.Machine
end

