-- ==== Sys2Proof/Laws/KeepPort.lean ====
section
/-!
SUPPORT. What the operations of the channel ports, clocks, power and resets leave alone: one lemma per operation, over the parts of
`State` that no path of it writes, so that no proof unfolds an operation to see that a part is unchanged.
-/

namespace Sys2Proof.Machine

open Sys2Proof

@[simp] theorem admitCh_keeps (p : Port) (s : State) :
    SameStill s (admitCh p s) ∧ SameHeld s (admitCh p s) ∧ Same4 State.out State.tx State.msix State.bus s (admitCh p s) ∧
    Same4 State.mnt State.freeCount State.lom State.rng s (admitCh p s) ∧ Same2 State.seg State.crl s (admitCh p s) := by
  simp [admitCh]

@[simp] theorem rejoinOp_keeps (p : Port) (s : State) :
    SameStill s (rejoinOp p s) ∧ SameHeld s (rejoinOp p s) ∧ Same4 State.out State.tx State.msix State.bus s (rejoinOp p s) ∧
    Same4 State.mnt State.freeCount State.lom State.rng s (rejoinOp p s) ∧ Same2 State.seg State.crl s (rejoinOp p s) := by
  unfold rejoinOp; simp

@[simp] theorem msixFlush_keeps (p : Port) (s : State) : OnlyLinks s (msixFlush p s) := by simp [msixFlush]

@[simp] theorem pcmdRefuse_keeps (r raw : Nat) (v : Word) (s : State) :
    OnlyReports s (pcmdRefuse r raw v s) := by simp [pcmdRefuse]

@[simp] theorem ringSilence_keeps (s : State) :
    Same3 State.pending State.lcc State.frc s (ringSilence s) := by simp [ringSilence]

@[simp] theorem pcmdTo_keeps (target : PowerState) (r raw : Nat) (v : Word) (s : State) :
    Same3 State.pending State.lcc State.frc s (pcmdTo target r raw v s) := by simp [pcmdTo]

@[simp] theorem resetState_keeps (cause : Nat) (s : State) : Same1 State.pending s (resetState cause s) := by
  unfold resetState; dsimp only; (repeat' split) <;> simp

@[simp] theorem deviceReset_keeps (cause : Nat) (s : State) : Same1 State.pending s (deviceReset cause s) := by
  unfold deviceReset; (try dsimp only); (repeat' split) <;> simp (disch := (intros; (try dsimp only); (repeat' split) <;> simp)) [*]

@[simp] theorem pcmdWrite_keeps (r raw : Nat) (v : Word) (s : State) :
    Same1 State.pending s (pcmdWrite r raw v s) := by simp [pcmdWrite]

@[simp] theorem cfgWrite_keeps (p : Port) (dw : Nat) (be : BitVec 4) (d : Word) (s : State) :
    OnlyPort s (cfgWrite p dw be d s) := by simp [cfgWrite]

@[simp] theorem logRelease_keeps (s : State) : OnlyLists s (logRelease s) := by simp [logRelease]

@[simp] theorem portReset_keeps (p : Port) (flag : Nat) (fundamental retrain : Bool) (s : State) :
    SameStill s (portReset p flag fundamental retrain s) ∧ Same1 State.pwr s (portReset p flag fundamental retrain s) := by
  simp [portReset]

@[simp] theorem flrOp_keeps (p : Port) (s : State) :
    SameStill s (flrOp p s) ∧ Same1 State.pwr s (flrOp p s) := by simp [flrOp]

@[simp] theorem configTake_keeps (p : Port) (dw : Nat) (write : Bool) (be : BitVec 4) (d : Word) (tag : Nat) (s : State) :
    SameStill s (configTake p dw write be d tag s) ∧ Same1 State.pwr s (configTake p dw write be d tag s) := by simp [configTake]

@[simp] theorem urRead_keeps (p : Port) (tag : Nat) (s : State) :
    SameStill s (urRead p tag s) ∧ SameHeld s (urRead p tag s) ∧ SamePlant s (urRead p tag s) ∧ SameVote s (urRead p tag s) ∧
    Same3 State.tx State.msix State.bus s (urRead p tag s) ∧ Same2 State.ch State.mnt s (urRead p tag s) := by simp [urRead]

@[simp] theorem urWrite_keeps (p : Port) (x1 : Hdr) (s : State) :
    SameStill s (urWrite p x1 s) ∧ SameHeld s (urWrite p x1 s) ∧ SamePlant s (urWrite p x1 s) ∧ SameVote s (urWrite p x1 s) ∧
    Same3 State.tx State.msix State.bus s (urWrite p x1 s) ∧ Same2 State.ch State.mnt s (urWrite p x1 s) := by
  unfold urWrite; simp

@[simp] theorem unsupportedOp_keeps (p : Port) (k : UrKind) (tag : Nat) (s : State) :
    SameStill s (unsupportedOp p k tag s) ∧ SameHeld s (unsupportedOp p k tag s) ∧ SamePlant s (unsupportedOp p k tag s) ∧
    SameVote s (unsupportedOp p k tag s) ∧ Same3 State.tx State.msix State.bus s (unsupportedOp p k tag s) ∧
    Same2 State.ch State.mnt s (unsupportedOp p k tag s) := by
  unfold unsupportedOp; (repeat' split) <;> simp [*]

@[simp] theorem almTimeout_keeps (s : State) :
    SameStill s (almTimeout s) ∧ SamePorts s (almTimeout s) ∧ SameUnits s (almTimeout s) ∧ SameVote s (almTimeout s) ∧
    Same3 State.tap State.rng State.seg s (almTimeout s) ∧ Same2 State.img State.regs s (almTimeout s) := by
  unfold almTimeout; dsimp only; (repeat' split) <;> simp [*]

@[simp] theorem causeEnd_keeps (c : Nat) (s : State) : OnlyPwr s (causeEnd c s) := by simp [causeEnd]

@[simp] theorem clkfailOp_keeps (s : State) : Same1 State.pending s (clkfailOp s) := by simp [clkfailOp]

@[simp] theorem condLow_keeps (c : Supply) (s : State) : OnlyPwr s (condLow c s) := by
  unfold condLow; dsimp only; (repeat' split) <;> simp [*]

@[simp] theorem condWarn_keeps (c : Supply) (s : State) : OnlyPwr s (condWarn c s) := by
  unfold condWarn; dsimp only; (repeat' split) <;> simp [*]

@[simp] theorem coreGate_keeps (s : State) : OnlyPwr s (coreGate s) := by simp [coreGate]

@[simp] theorem creditReturn_keeps (p : Port) (ph pd : Nat) (s : State) :
    SameStill s (creditReturn p ph pd s) ∧ SameUnits s (creditReturn p ph pd s) ∧ SameHeld s (creditReturn p ph pd s) ∧
    SamePlant s (creditReturn p ph pd s) ∧ Same1 State.regs s (creditReturn p ph pd s) := by simp [creditReturn]

@[simp] theorem dlDownOp_keeps (p : Port) (s : State) :
    SameStill s (dlDownOp p s) ∧ Same1 State.pwr s (dlDownOp p s) := by simp [dlDownOp]

@[simp] theorem dlUpOp_keeps (p : Port) (speed width : Nat) (credits : Option (Nat × Nat)) (s : State) :
    SameStill s (dlUpOp p speed width credits s) ∧ Same1 State.pwr s (dlUpOp p speed width credits s) := by simp [dlUpOp]

@[simp] theorem holdBegin_keeps (s : State) :
    SameStill s (holdBegin s) ∧ SamePorts s (holdBegin s) ∧ SameUnits s (holdBegin s) ∧ SamePlant s (holdBegin s) ∧
    SameVote s (holdBegin s) ∧ Same2 State.alm State.tap s (holdBegin s) := by simp [holdBegin]

@[simp] theorem hotResetOp_keeps (p : Port) (s : State) :
    SameStill s (hotResetOp p s) ∧ Same1 State.pwr s (hotResetOp p s) := by simp [hotResetOp]

@[simp] theorem wipeRepeat_keeps (s : State) :
    SameStill s (wipeRepeat s) ∧ SamePorts s (wipeRepeat s) ∧ SameUnits s (wipeRepeat s) ∧ SameVote s (wipeRepeat s) ∧
    Same3 State.tap State.rng State.seg s (wipeRepeat s) ∧ Same2 State.img State.regs s (wipeRepeat s) := by simp [wipeRepeat]

@[simp] theorem sealRead_keeps (s : State) :
    SamePorts s (sealRead s) ∧ SameUnits s (sealRead s) ∧ SamePlant s (sealRead s) ∧ SameVote s (sealRead s) ∧
    Same4 State.pending State.frc State.mer State.tap s (sealRead s) ∧ Same2 State.pwr State.regs s (sealRead s) := by
  simp [sealRead]

@[simp] theorem identityRead_keeps (s : State) :
    SamePorts s (identityRead s) ∧ SameUnits s (identityRead s) ∧ SameVote s (identityRead s) ∧
    Same3 State.pending State.frc State.mer s (identityRead s) ∧
    Same4 State.rng State.seg State.img State.regs s (identityRead s) := by simp [identityRead]

@[simp] theorem l1EntryOp_keeps (p : Port) (s : State) : OnlyPort s (l1EntryOp p s) := by simp [l1EntryOp]

@[simp] theorem l1ExitOp_keeps (p : Port) (s : State) : OnlyPort s (l1ExitOp p s) := by
  unfold l1ExitOp; simp

@[simp] theorem linkChange_keeps (p : Port) (speed width : Nat) (s : State) :
    SameStill s (linkChange p speed width s) ∧ SameUnits s (linkChange p speed width s) ∧
    SameHeld s (linkChange p speed width s) ∧ SamePlant s (linkChange p speed width s) ∧
    SameVote s (linkChange p speed width s) ∧ Same4 State.out State.tx State.msix State.regs s (linkChange p speed width s) := by
  simp [linkChange]

@[simp] theorem linkLayerError_keeps (p : Port) (k : LinkErr) (s : State) :
    SameStill s (linkLayerError p k s) ∧ SameUnits s (linkLayerError p k s) ∧ SameHeld s (linkLayerError p k s) ∧
    SamePlant s (linkLayerError p k s) ∧ SameVote s (linkLayerError p k s) ∧
    Same3 State.tx State.msix State.regs s (linkLayerError p k s) := by simp [linkLayerError]

@[simp] theorem malformedOp_keeps (p : Port) (k : FatalErr) (s : State) :
    SameStill s (malformedOp p k s) ∧ SameHeld s (malformedOp p k s) ∧ SamePlant s (malformedOp p k s) ∧
    SameVote s (malformedOp p k s) ∧ Same4 State.tx State.msix State.bus State.ch s (malformedOp p k s) ∧
    Same2 State.mnt State.regs s (malformedOp p k s) := by simp [malformedOp]

@[simp] theorem perstOp_keeps (p : Port) (s : State) :
    SameStill s (perstOp p s) ∧ Same1 State.pwr s (perstOp p s) := by simp [perstOp]

@[simp] theorem perstReleaseOp_keeps (p : Port) (s : State) : OnlyPort s (perstReleaseOp p s) := by simp [perstReleaseOp]

@[simp] theorem phyLockOp_keeps (p : Port) (s : State) : OnlyPort s (phyLockOp p s) := by
  unfold phyLockOp; simp

@[simp] theorem phyUnlock_keeps (p : Port) (s : State) :
    SameStill s (phyUnlock p s) ∧ Same1 State.pwr s (phyUnlock p s) := by simp [phyUnlock]

@[simp] theorem pmeTurnOffOp_keeps (p : Port) (s : State) :
    SameStill s (pmeTurnOffOp p s) ∧ SameUnits s (pmeTurnOffOp p s) ∧ SameHeld s (pmeTurnOffOp p s) ∧
    SamePlant s (pmeTurnOffOp p s) ∧ SameVote s (pmeTurnOffOp p s) ∧
    Same4 State.tx State.msix State.regs State.evh s (pmeTurnOffOp p s) := by simp [pmeTurnOffOp]

@[simp] theorem portReadyOp_keeps (p : Port) (s : State) : OnlyPort s (portReadyOp p s) := by simp [portReadyOp]

@[simp] theorem portsOpen_keeps (s : State) : SameStill s (portsOpen s) := by simp [portsOpen]

@[simp] theorem pstateChg_keeps (s : State) : Same3 State.pending State.lcc State.frc s (pstateChg s) := by simp [pstateChg]

@[simp] theorem pushDoneOp_keeps (p : Port) (s : State) :
    SameStill s (pushDoneOp p s) ∧ SameUnits s (pushDoneOp p s) ∧ SameHeld s (pushDoneOp p s) ∧ SamePlant s (pushDoneOp p s) ∧
    SameVote s (pushDoneOp p s) := by
  unfold pushDoneOp; dsimp only; (repeat' split) <;> simp [*]

@[simp] theorem pushStartOp_keeps (p : Port) (s : State) :
    SameStill s (pushStartOp p s) ∧ SameUnits s (pushStartOp p s) ∧ SamePlant s (pushStartOp p s) ∧
    SameVote s (pushStartOp p s) ∧ Same2 State.alm State.pwr s (pushStartOp p s) := by
  unfold pushStartOp; dsimp only; (repeat' split) <;> simp [*]

@[simp] theorem recoverOp_keeps (s : State) : Same3 State.pending State.frc State.mer s (recoverOp s) := by simp [recoverOp]

@[simp] theorem recoveryStart_keeps (s : State) : OnlyPwr s (recoveryStart s) := by simp [recoveryStart]

@[simp] theorem resetRelease_keeps (straps : Nat) (s : State) :
    SameStill s (resetRelease straps s) ∧ SamePorts s (resetRelease straps s) ∧ SameUnits s (resetRelease straps s) ∧
    SamePlant s (resetRelease straps s) ∧ SameVote s (resetRelease straps s) ∧
    Same3 State.alm State.tap State.evh s (resetRelease straps s) := by simp [resetRelease]

@[simp] theorem serdesLockOp_keeps (s : State) : OnlyPwr s (serdesLockOp s) := by simp [serdesLockOp]

@[simp] theorem serdesUnlock_keeps (s : State) :
    SameStill s (serdesUnlock s) ∧ SamePorts s (serdesUnlock s) ∧ SameUnits s (serdesUnlock s) ∧ SameVote s (serdesUnlock s) ∧
    Same3 State.alm State.tap State.lom s (serdesUnlock s) ∧ Same2 State.seg State.img s (serdesUnlock s) := by simp [serdesUnlock]

@[simp] theorem sysPllLock_keeps (s : State) :
    SameStill s (sysPllLock s) ∧ SamePorts s (sysPllLock s) ∧ SameUnits s (sysPllLock s) ∧ SamePlant s (sysPllLock s) ∧
    SameVote s (sysPllLock s) ∧ Same2 State.alm State.tap s (sysPllLock s) := by simp [sysPllLock]

@[simp] theorem unexpectedCpl_keeps (p : Port) (s : State) :
    SameStill s (unexpectedCpl p s) ∧ SameHeld s (unexpectedCpl p s) ∧ SamePlant s (unexpectedCpl p s) ∧
    SameVote s (unexpectedCpl p s) ∧ Same4 State.tx State.msix State.bus State.ch s (unexpectedCpl p s) ∧
    Same2 State.mnt State.regs s (unexpectedCpl p s) := by simp [unexpectedCpl]

@[simp] theorem vmonLow_keeps (r : Rail) (s : State) :
    SameStill s (vmonLow r s) ∧ SamePorts s (vmonLow r s) ∧ SameUnits s (vmonLow r s) ∧ SamePlant s (vmonLow r s) ∧
    SameVote s (vmonLow r s) ∧ Same3 State.alm State.tap State.regs s (vmonLow r s) := by
  unfold vmonLow; dsimp only; (repeat' split) <;> simp [*]

@[simp] theorem vmonOk_keeps (r : Rail) (s : State) : OnlyPwr s (vmonOk r s) := by
  unfold vmonOk; dsimp only; (repeat' split) <;> simp [*]

@[simp] theorem warnOp_keeps (c : Supply) (s : State) :
    SameStill s (warnOp c s) ∧ SamePorts s (warnOp c s) ∧ SameUnits s (warnOp c s) ∧ SamePlant s (warnOp c s) ∧
    SameVote s (warnOp c s) ∧ Same2 State.alm State.tap s (warnOp c s) := by simp [warnOp]

@[simp] theorem warningReturn_keeps (c : Supply) (s : State) : OnlyPwr s (warningReturn c s) := by simp [warningReturn]

@[simp] theorem wipeDone_keeps (s : State) :
    SamePorts s (wipeDone s) ∧ SameUnits s (wipeDone s) ∧ SameVote s (wipeDone s) ∧
    Same4 State.pending State.frc State.mer State.rng s (wipeDone s) ∧ Same3 State.seg State.img State.regs s (wipeDone s) := by
  simp [wipeDone]

@[simp] theorem xtoOp_keeps (i : Fin 15) (s : State) : SameStill s (xtoOp i s) := by simp [xtoOp]

end Sys2Proof.Machine
end

