-- ==== Sys2Proof/Laws/KeepReg.lean ====
section
/-!
SUPPORT. What the operations of the register file, the BARs and the maintenance port leave alone: one lemma per operation, over the parts of
`State` that no path of it writes, so that no proof unfolds an operation to see that a part is unchanged.
-/

namespace Sys2Proof.Machine

open Sys2Proof

@[simp] theorem unassigned_keeps (r : Req) (page raw : Nat) (d : Word) (s : State) :
    OnlyReports s (unassigned r page raw d s) := by simp [unassigned]

@[simp] theorem dropWrite_keeps (c : Port) (s : State) :
    SameStill s (dropWrite c s) ∧ SameUnits s (dropWrite c s) ∧ SameHeld s (dropWrite c s) ∧ SamePlant s (dropWrite c s) ∧
    SameVote s (dropWrite c s) := by simp [dropWrite]

@[simp] theorem lockOp_keeps (r : Req) (k : PageKind) (page off : Nat) (bit : Bool) (d : Word) (s : State) :
    OnlyReports s (lockOp r k page off bit d s) := by simp [lockOp]

@[simp] theorem eventAckOp_keeps (k : PageKind) (w : Word) (s : State) :
    OnlyReports s (eventAckOp k w s) := by simp [eventAckOp]

@[simp] theorem indError_keeps (r : Req) (k : PageKind) (page off : Nat) (d : Word) (s : State) :
    OnlyReports s (indError r k page off d s) := by simp [indError]

@[simp] theorem indAdvance_keeps (r : Req) (k : PageKind) (s : State) : OnlyBus s (indAdvance r k s) := by simp [indAdvance]

@[simp] theorem indWrite_keeps (r : Req) (k : PageKind) (page off : Nat) (d : Word) (s : State) :
    SameStill s (indWrite r k page off d s) ∧ SamePorts s (indWrite r k page off d s) ∧ SamePlant s (indWrite r k page off d s) ∧
    SameVote s (indWrite r k page off d s) ∧ Same3 State.ch State.mnt State.freeCount s (indWrite r k page off d s) ∧
    Same2 State.tap State.pwr s (indWrite r k page off d s) := by
  unfold indWrite; dsimp only; (repeat' split) <;> (try have hk_streamWord := streamWord_pair ‹_›) <;> simp [*]

@[simp] theorem storeReg_keeps (k : PageKind) (off : Nat) (d : Word) (s : State) :
    OnlyRegs s (storeReg k off d s) := by simp [storeReg]

@[simp] theorem iackDrain_keeps (s : State) : OnlyLists s (iackDrain s) := by simp [iackDrain]

@[simp] theorem headerWrite_keeps (r : Req) (k : PageKind) (page off raw : Nat) (d : Word) (s : State) :
    SamePorts s (headerWrite r k page off raw d s) ∧ SamePlant s (headerWrite r k page off raw d s) ∧
    Same4 State.pending State.lcc State.frc State.ch s (headerWrite r k page off raw d s) ∧
    Same4 State.mnt State.freeCount State.tap State.pwr s (headerWrite r k page off raw d s) := by simp [headerWrite]

@[simp] theorem aliasOp_keeps (r : Req) (k : PageKind) (off b page raw : Nat) (bit : Bool) (d : Word) (s : State) :
    SamePorts s (aliasOp r k off b page raw bit d s) ∧ SamePlant s (aliasOp r k off b page raw bit d s) ∧
    Same4 State.pending State.lcc State.frc State.ch s (aliasOp r k off b page raw bit d s) ∧
    Same4 State.mnt State.freeCount State.tap State.pwr s (aliasOp r k off b page raw bit d s) := by
  unfold aliasOp; dsimp only; (repeat' split) <;> simp [*]

@[simp] theorem aliasAt_keeps (r : Req) (page raw : Nat) (target : Option (PageKind × Nat × Nat)) (d : Word) (s : State) :
    SamePlant s (aliasAt r page raw target d s) ∧
    Same4 State.pending State.lcc State.frc State.ch s (aliasAt r page raw target d s) ∧
    Same4 State.mnt State.freeCount State.tap State.pwr s (aliasAt r page raw target d s) := by
  unfold aliasAt; dsimp only; (repeat' split) <;> simp [*]

@[simp] theorem aliasWrite_keeps (r : Req) (a : Nat) (d : Word) (s : State) :
    SamePlant s (aliasWrite r a d s) ∧ Same4 State.pending State.lcc State.frc State.ch s (aliasWrite r a d s) ∧
    Same4 State.mnt State.freeCount State.tap State.pwr s (aliasWrite r a d s) := by simp [aliasWrite]

@[simp] theorem guardEffect_keeps (r : Req) (k : PageKind) (off raw : Nat) (d : Word) (s : State) :
    Same2 State.pending State.mer s (guardEffect r k off raw d s) := by
  unfold guardEffect; dsimp only; (repeat' split) <;> simp [*]

@[simp] theorem guardFail_keeps (r : Req) (k : PageKind) (why page off : Nat) (d : Word) (s : State) :
    SameStill s (guardFail r k why page off d s) ∧ SamePorts s (guardFail r k why page off d s) ∧
    SameHeld s (guardFail r k why page off d s) ∧ SamePlant s (guardFail r k why page off d s) ∧
    SameVote s (guardFail r k why page off d s) ∧ Same3 State.ch State.mnt State.freeCount s (guardFail r k why page off d s) := by
  simp [guardFail]

@[simp] theorem breakGuard_keeps (r : Req) (k : PageKind) (page off : Nat) (s : State) :
    SameStill s (breakGuard r k page off s) ∧ SamePorts s (breakGuard r k page off s) ∧ SameHeld s (breakGuard r k page off s) ∧
    SamePlant s (breakGuard r k page off s) ∧ SameVote s (breakGuard r k page off s) ∧
    Same3 State.ch State.mnt State.freeCount s (breakGuard r k page off s) := by
  unfold breakGuard; (repeat' split) <;> simp [*]

@[simp] theorem receipt_keeps (p : Port) (s : State) : OnlyPort s (receipt p s) := by simp [receipt]

@[simp] theorem msixTableWrite_keeps (p : Port) (off : Nat) (d : Word) (s : State) :
    OnlyLinks s (msixTableWrite p off d s) := by simp [msixTableWrite]

@[simp] theorem modeAuto_keeps (s : State) : SameStill s (modeAuto s) ∧ Same1 State.pwr s (modeAuto s) := by simp [modeAuto]

@[simp] theorem modeSelect_keeps (c : Port) (s : State) :
    SameStill s (modeSelect c s) ∧ Same1 State.pwr s (modeSelect c s) := by simp [modeSelect]

@[simp] theorem modeWrite_keeps (v : Word) (s : State) : SameStill s (modeWrite v s) ∧ Same1 State.pwr s (modeWrite v s) := by
  unfold modeWrite; simp

@[simp] theorem fenceCmdOp_keeps (c : Port) (s : State) :
    SameStill s (fenceCmdOp c s) ∧ Same1 State.pwr s (fenceCmdOp c s) := by simp [fenceCmdOp]

@[simp] theorem fenceWrite_keeps (v : Word) (s : State) :
    SameStill s (fenceWrite v s) ∧ Same1 State.pwr s (fenceWrite v s) := by
  unfold fenceWrite; simp

@[simp] theorem storeWide_keeps (k : PageKind) (lo : Nat) (v : DWord) (s : State) :
    OnlyRegs s (storeWide k lo v s) := by simp [storeWide]

@[simp] theorem voteEffect_keeps (r : Nat) (k : PageKind) (off raw : Nat) (v : DWord) (s : State) :
    Same1 State.pending s (voteEffect r k off raw v s) := by
  unfold voteEffect; dsimp only; (repeat' split) <;> simp [*]

@[simp] theorem noteRecent_keeps (key : Nat) (v : DWord) (s : State) : OnlyBus s (noteRecent key v s) := by simp [noteRecent]

@[simp] theorem overRecent_keeps (key : Nat) (v : DWord) (s : State) : OnlyBus s (overRecent key v s) := by
  unfold overRecent; simp

@[simp] theorem commitAttempt_keeps (c : Port) (n : Word) (s : State) :
    OnlyVot s (commitAttempt c n s) := by simp [commitAttempt]

@[simp] theorem stgBusySet_keeps (c : Port) (s : State) : OnlyImg s (stgBusySet c s) := by simp [stgBusySet]

@[simp] theorem commitSeen_keeps (c : Port) (n : Word) (s : State) :
    SameStill s (commitSeen c n s) ∧ SamePorts s (commitSeen c n s) ∧ SameHeld s (commitSeen c n s) ∧
    Same4 State.bus State.mnt State.freeCount State.lom s (commitSeen c n s) ∧
    Same3 State.rng State.seg State.crl s (commitSeen c n s) ∧ Same2 State.regs State.evh s (commitSeen c n s) := by
  unfold commitSeen; dsimp only; (repeat' split) <;> simp [*]

@[simp] theorem voteTake_keeps (d c : Port) (kd kc : Word) (k : PageKind) (off raw : Nat) (v : DWord) (s : State) :
    Same1 State.pending s (voteTake d c kd kc k off raw v s) := by simp [voteTake]

@[simp] theorem dropEntry_keeps (c : Port) (key : Nat) (s : State) : OnlyBus s (dropEntry c key s) := by simp [dropEntry]

@[simp] theorem commitHeld_keeps (c : Port) (n : Word) (s : State) :
    SameStill s (commitHeld c n s) ∧ SamePorts s (commitHeld c n s) ∧ SameHeld s (commitHeld c n s) ∧
    Same4 State.bus State.mnt State.freeCount State.lom s (commitHeld c n s) ∧
    Same3 State.rng State.seg State.crl s (commitHeld c n s) ∧ Same2 State.regs State.evh s (commitHeld c n s) := by
  simp [commitHeld]

@[simp] theorem voteIn_keeps (c : Port) (k : PageKind) (off raw : Nat) (d : Word) (v : DWord) (s : State) :
    Same1 State.pending s (voteIn c k off raw d v s) := by
  unfold voteIn; dsimp only; (repeat' split) <;> simp [*]

@[simp] theorem voteArrive_keeps (r : Req) (k : PageKind) (off raw : Nat) (d : Word) (v : DWord) (s : State) :
    Same1 State.pending s (voteArrive r k off raw d v s) := by
  unfold voteArrive; (repeat' split) <;> simp [*]

@[simp] theorem voteWord_keeps (r : Req) (k : PageKind) (off raw : Nat) (d : Word) (s : State) :
    Same1 State.pending s (voteWord r k off raw d s) := by simp [voteWord, writeWide]

@[simp] theorem guardOp_keeps (r : Req) (k : PageKind) (page raw : Nat) (d : Word) (s : State) :
    Same1 State.pending s (guardOp r k page raw d s) := by
  unfold guardOp; dsimp only; (repeat' split) <;> simp [*]

@[simp] theorem guardHold_keeps (r : Req) (k : PageKind) (raw : Nat) (d : Word) (s : State) :
    OnlyBus s (guardHold r k raw d s) := by simp [guardHold]

@[simp] theorem snapOp_keeps (go clear : Bool) (s : State) : OnlyReports s (snapOp go clear s) := by simp [snapOp]

@[simp] theorem splitDrop_keeps (q : Nat) (p : Pkt) (s : State) : OnlyCrl s (splitDrop q p s) := by simp [splitDrop]

@[simp] theorem failRequest_keeps (p : Pkt) (s : State) :
    SameStill s (failRequest p s) ∧ Same1 State.pwr s (failRequest p s) := by
  unfold failRequest; (repeat' split) <;> simp [*]

@[simp] theorem dropPkt_keeps (q : Nat) (s : State) : SameStill s (dropPkt q s) ∧ Same1 State.pwr s (dropPkt q s) := by
  unfold dropPkt; dsimp only; (repeat' split) <;> simp [*]

@[simp] theorem qCmdOp_keeps (r : Req) (page off : Nat) (d : Word) (s : State) :
    SameStill s (qCmdOp r page off d s) ∧ Same1 State.pwr s (qCmdOp r page off d s) := by simp [qCmdOp]

@[simp] theorem logHigh_keeps (was : Nat) (s : State) : OnlyEvh s (logHigh was s) := by simp [logHigh]

@[simp] theorem ovfWrite_keeps (off : Nat) (d : Word) (s : State) : OnlyEvh s (ovfWrite off d s) := by simp [ovfWrite]

@[simp] theorem legRefuse_keeps (code : Nat) (s : State) : OnlyReports s (legRefuse code s) := by simp [legRefuse]

@[simp] theorem legBusy_keeps (write : Bool) (s : State) :
    SameStill s (legBusy write s) ∧ SamePorts s (legBusy write s) ∧ SameHeld s (legBusy write s) ∧
    SamePlant s (legBusy write s) ∧ SameVote s (legBusy write s) ∧
    Same4 State.bus State.ch State.freeCount State.evh s (legBusy write s) := by simp [legBusy]

@[simp] theorem legGo_keeps (v : Word) (s0 : State) : SameStill s0 (legGo v s0) ∧ Same1 State.pwr s0 (legGo v s0) := by
  unfold legGo; dsimp only; (repeat' split) <;> simp [*]

@[simp] theorem blockWrite_keeps (r : Req) (k : PageKind) (page off raw : Nat) (d : Word) (s : State) :
    Same3 State.pending State.frc State.mer s (blockWrite r k page off raw d s) := by
  simp only [blockWrite, writeWide]; (repeat' split) <;> simp [*]

@[simp] theorem regWrite_keeps (r : Req) (k : PageKind) (page off raw : Nat) (d : Word) (s : State) :
    Same1 State.pending s (regWrite r k page off raw d s) := by
  unfold regWrite; dsimp only; (repeat' split) <;> simp [*]

@[simp] theorem pageWrite_keeps (r : Req) (k : PageKind) (page raw : Nat) (full : Bool) (d : Word) (s : State) :
    Same1 State.pending s (pageWrite r k page raw full d s) := by
  unfold pageWrite; dsimp only; (repeat' split) <;> simp [*]

@[simp] theorem bar0Word_keeps (r : Req) (addr : Nat) (full : Bool) (d : Word) (s : State) :
    Same1 State.pending s (bar0Word r addr full d s) := by
  simp only [bar0Word, arrayRight]; (repeat' split) <;> simp [*]

@[simp] theorem poisonRx_keeps (p : Port) (x1 : Hdr) (s : State) :
    SameStill s (poisonRx p x1 s) ∧ SameHeld s (poisonRx p x1 s) ∧ SamePlant s (poisonRx p x1 s) ∧ SameVote s (poisonRx p x1 s) ∧
    Same3 State.tx State.msix State.bus s (poisonRx p x1 s) ∧ Same2 State.ch State.mnt s (poisonRx p x1 s) := by simp [poisonRx]

@[simp] theorem winRefused_keeps (p : Port) (s : State) : OnlyReports s (winRefused p s) := by simp [winRefused]

@[simp] theorem winRefuseWrite_keeps (p : Port) (x1 : Hdr) (s : State) :
    SameStill s (winRefuseWrite p x1 s) ∧ SameHeld s (winRefuseWrite p x1 s) ∧ SamePlant s (winRefuseWrite p x1 s) ∧
    SameVote s (winRefuseWrite p x1 s) ∧ Same3 State.tx State.msix State.bus s (winRefuseWrite p x1 s) ∧
    Same2 State.ch State.mnt s (winRefuseWrite p x1 s) := by simp [winRefuseWrite]

@[simp] theorem fetchMeet_keeps (p : Port) (pat : Nat) (s : State) :
    SameStill s (fetchMeet p pat s) ∧ SameUnits s (fetchMeet p pat s) ∧ SamePlant s (fetchMeet p pat s) ∧
    SameVote s (fetchMeet p pat s) ∧ Same4 State.tx State.msix State.alm State.pwr s (fetchMeet p pat s) := by simp [fetchMeet]

@[simp] theorem takeKey_keeps (p : Port) (s : State) : OnlyCh s (takeKey p s) := by simp [takeKey]

theorem takeWrite_keeps {p : Port} {pat off : Nat} {bs : List Byte} {en : List Bool} {poisoned : Bool} {s t1 : State} (h :
    takeWrite p pat off bs en poisoned s = some t1) :
    SameStill s t1 ∧ Same1 State.pwr s t1 := by
  unfold takeWrite at h; dsimp only at h; (repeat' split at h) <;> (try have hk_claim := claim_keeps ‹_›) <;> simp at h <;>
        (try obtain ⟨rfl⟩ := h) <;> simp_all

@[simp] theorem refusedRead_keeps (p : Port) (tag : Nat) (s : State) :
    SameStill s (refusedRead p tag s) ∧ SameHeld s (refusedRead p tag s) ∧ SamePlant s (refusedRead p tag s) ∧
    SameVote s (refusedRead p tag s) ∧ Same3 State.bus State.ch State.mnt s (refusedRead p tag s) := by simp [refusedRead]

@[simp] theorem winRefuseRead_keeps (p : Port) (tag : Nat) (s : State) :
    SameStill s (winRefuseRead p tag s) ∧ SameHeld s (winRefuseRead p tag s) ∧ SamePlant s (winRefuseRead p tag s) ∧
    SameVote s (winRefuseRead p tag s) ∧ Same3 State.tx State.msix State.bus s (winRefuseRead p tag s) ∧
    Same2 State.ch State.mnt s (winRefuseRead p tag s) := by simp [winRefuseRead]

@[simp] theorem takeRead_keeps (p : Port) (pat off n : Nat) (en : List Bool) (tag : Nat) (s : State) :
    SameStill s (takeRead p pat off n en tag s) ∧ Same1 State.pwr s (takeRead p pat off n en tag s) := by simp [takeRead]

@[simp] theorem takeFlush_keeps (p : Port) (tag : Nat) (s : State) :
    SameStill s (takeFlush p tag s) ∧ SameHeld s (takeFlush p tag s) ∧ SamePlant s (takeFlush p tag s) ∧
    SameVote s (takeFlush p tag s) ∧ Same3 State.bus State.ch State.mnt s (takeFlush p tag s) := by simp [takeFlush]

@[simp] theorem bar0WriteTake_keeps (p : Port) (a : Nat) (en : List Bool) (d : Word) (poisoned : Bool) (s : State) :
    Same1 State.pending s (bar0WriteTake p a en d poisoned s).2 := by
  unfold bar0WriteTake; dsimp only; (repeat' split) <;> simp [*]

theorem bar0WriteTake_pair {p : Port} {a : Nat} {en : List Bool} {d : Word} {poisoned : Bool} {s : State} {y0 : Option RxTlp}
    {t1 : State} (h : bar0WriteTake p a en d poisoned s = (y0, t1)) :
    Same1 State.pending s t1 := by
  have k := bar0WriteTake_keeps p a en d poisoned s
  rw [h] at k; exact k

@[simp] theorem readWide_keeps (r : Req) (key : Nat) (high : Bool) (lo hi : Word) (s : State) :
    OnlyBus s (readWide r key high lo hi s).2 := by
  unfold readWide; (repeat' split) <;> simp [*]

theorem readWide_pair {r : Req} {key : Nat} {high : Bool} {lo hi : Word} {s : State} {y0 : Word} {t1 : State} (h : readWide r
    key high lo hi s = (y0, t1)) :
    OnlyBus s t1 := by
  have k := readWide_keeps r key high lo hi s
  rw [h] at k; exact k

@[simp] theorem holdRead_keeps (r : Req) (x1 : Nat) (s : State) : OnlyBus s (holdRead r x1 s).2 := by
  unfold holdRead; dsimp only; (repeat' split) <;> (try have hk_readWide := readWide_pair ‹_›) <;> simp [*]

theorem holdRead_pair {r : Req} {x1 : Nat} {s : State} {y0 : Word} {t1 : State} (h : holdRead r x1 s = (y0, t1)) :
    OnlyBus s t1 := by
  have k := holdRead_keeps r x1 s
  rw [h] at k; exact k

@[simp] theorem liveCounter_keeps (r : Req) (w : Nat) (s : State) : OnlyBus s (liveCounter r w s).2 := by
  unfold liveCounter; dsimp only; (repeat' split) <;> simp [*]

theorem liveCounter_pair {r : Req} {w : Nat} {s : State} {y0 : Nat} {t1 : State} (h : liveCounter r w s = (y0, t1)) :
    OnlyBus s t1 := by
  have k := liveCounter_keeps r w s
  rw [h] at k; exact k

@[simp] theorem indMeet_keeps (r : Req) (k : PageKind) (space w : Nat) (s : State) :
    SameStill s (indMeet r k space w s) ∧ SameUnits s (indMeet r k space w s) ∧ SamePlant s (indMeet r k space w s) ∧
    SameVote s (indMeet r k space w s) ∧ Same4 State.tx State.msix State.alm State.pwr s (indMeet r k space w s) := by
  unfold indMeet; dsimp only; (repeat' split) <;> simp [*]

theorem indRead_keeps {r : Req} {k : PageKind} {page off : Nat} {s : State} {y0 : Word} {t1 : State} (h : indRead r k page
    off s = some (y0, t1)) :
    SameStill s t1 ∧ SamePlant s t1 ∧ SameVote s t1 ∧ Same3 State.tx State.msix State.ch s t1 ∧ Same2 State.mnt State.alm s t1 := by
  unfold indRead at h; dsimp only at h; (repeat' split at h) <;> (try have hk_liveCounter := liveCounter_pair ‹_›) <;>
        simp at h <;> (try obtain ⟨rfl, rfl⟩ := h) <;> simp_all

@[simp] theorem qPopWord_keeps (s : State) : OnlyLists s (qPopWord s).2 := by
  unfold qPopWord; dsimp only; (repeat' split) <;> simp [*]

theorem qPopWord_pair {s : State} {y0 : Word} {t1 : State} (h : qPopWord s = (y0, t1)) : OnlyLists s t1 := by
  have k := qPopWord_keeps s
  rw [h] at k; exact k

@[simp] theorem readNote_keeps (k : PageKind) (off : Nat) (s : State) : OnlyEvh s (readNote k off s) := by simp [readNote]

theorem pageRead_keeps {r : Req} {k : PageKind} {page off raw : Nat} {s : State} {y0 : Word} {t1 : State} (h : pageRead r k
    page off raw s = some (y0, t1)) :
    SameStill s t1 ∧ SamePlant s t1 ∧ Same3 State.tx State.msix State.ch s t1 ∧ Same2 State.mnt State.alm s t1 := by
  unfold pageRead at h; (try dsimp only at h)
  split at h
  · have := indRead_keeps h; simp [*]
  · (repeat' split at h) <;> simp only [Option.some.injEq] at h <;>
      first
      | (have := qPopWord_pair h; simp [*]; done)
      | (have := readWide_pair h; simp [*]; done)
      | (obtain ⟨rfl, rfl⟩ := Prod.mk.inj h; simp)

theorem bar0Read_keeps {r : Req} {addr : Nat} {s : State} {y0 : Word} {t1 : State} (h : bar0Read r addr s = some (y0, t1)) :
    SameStill s t1 ∧ SamePlant s t1 ∧ Same3 State.tx State.msix State.ch s t1 ∧ Same2 State.mnt State.alm s t1 := by
  unfold bar0Read at h; dsimp only at h
  (repeat' split at h) <;>
      first
      | (have := pageRead_keeps h; simp [*]; done)
      | (have := holdRead_pair (Option.some.inj h); simp [*]; done)
      | (obtain ⟨rfl, rfl⟩ := Prod.mk.inj (Option.some.inj h); simp)

@[simp] theorem readDws_keeps (r : Req) (x1 x2 : Nat) (x3 : List Byte) (x4 : State) :
    SameStill x4 (readDws r x1 x2 x3 x4).2.2 ∧ SamePlant x4 (readDws r x1 x2 x3 x4).2.2 ∧
    Same3 State.tx State.msix State.ch x4 (readDws r x1 x2 x3 x4).2.2 ∧
    Same2 State.mnt State.alm x4 (readDws r x1 x2 x3 x4).2.2 := by
  induction x1 generalizing x2 x3 x4 with
  | zero => (unfold readDws; simp)
  | succ n ih => (unfold readDws; (repeat' split) <;> (try have hk_bar0Read := bar0Read_keeps ‹_›) <;> simp [*])

theorem readDws_pair {r : Req} {x1 x2 : Nat} {x3 : List Byte} {x4 : State} {y0 : List Byte} {y1 : Nat} {t1 : State} (h :
    readDws r x1 x2 x3 x4 = (y0, y1, t1)) :
    SameStill x4 t1 ∧ SamePlant x4 t1 ∧ Same3 State.tx State.msix State.ch x4 t1 ∧ Same2 State.mnt State.alm x4 t1 := by
  have k := readDws_keeps r x1 x2 x3 x4
  rw [h] at k; exact k

@[simp] theorem bar0ReadTake_keeps (p : Port) (a n tag : Nat) (got : List Byte) (s : State) :
    SameStill s (bar0ReadTake p a n tag got s).2 ∧ SamePlant s (bar0ReadTake p a n tag got s).2 ∧
    Same3 State.ch State.mnt State.alm s (bar0ReadTake p a n tag got s).2 := by
  unfold bar0ReadTake; dsimp only; (repeat' split) <;> (try have hk_readDws := readDws_pair ‹_›) <;> simp [*]

theorem bar0ReadTake_pair {p : Port} {a n tag : Nat} {got : List Byte} {s : State} {y0 : Option RxTlp} {t1 : State} (h :
    bar0ReadTake p a n tag got s = (y0, t1)) :
    SameStill s t1 ∧ SamePlant s t1 ∧ Same3 State.ch State.mnt State.alm s t1 := by
  have k := bar0ReadTake_keeps p a n tag got s
  rw [h] at k; exact k

@[simp] theorem bar2Refuse_keeps (r : Req) (k : PageKind) (off : Nat) (bs : List Byte) (s : State) :
    OnlyReports s (bar2Refuse r k off bs s) := by simp [bar2Refuse]

@[simp] theorem stbyWrite_keeps (r : Req) (k : PageKind) (t a off : Nat) (bs : List Byte) (en : List Bool) (s : State) :
    SameStill s (stbyWrite r k t a off bs en s) ∧ SamePorts s (stbyWrite r k t a off bs en s) ∧
    SameUnits s (stbyWrite r k t a off bs en s) ∧ SameHeld s (stbyWrite r k t a off bs en s) ∧
    SameVote s (stbyWrite r k t a off bs en s) ∧ Same3 State.rng State.seg State.img s (stbyWrite r k t a off bs en s) := by
  simp [stbyWrite]

@[simp] theorem forceWrite_keeps (r : Req) (off x2 x3 : Nat) (x4 : List Byte) (x5 : List Bool) (x6 : State) :
    SamePorts x6 (forceWrite r off x2 x3 x4 x5 x6) ∧ SameUnits x6 (forceWrite r off x2 x3 x4 x5 x6) ∧
    SameHeld x6 (forceWrite r off x2 x3 x4 x5 x6) ∧ SamePlant x6 (forceWrite r off x2 x3 x4 x5 x6) ∧
    SameVote x6 (forceWrite r off x2 x3 x4 x5 x6) ∧
    Same3 State.pending State.lcc State.mer x6 (forceWrite r off x2 x3 x4 x5 x6) := by
  induction x2 generalizing off x3 x4 x5 x6 with
  | zero => (unfold forceWrite; simp)
  | succ n ih => (unfold forceWrite; dsimp only; (repeat' split) <;> simp [*])

@[simp] theorem bar2Store_keeps (r : Req) (off : Nat) (bs : List Byte) (en : List Bool) (s : State) :
    SamePorts s (bar2Store r off bs en s) ∧ SameUnits s (bar2Store r off bs en s) ∧ SameHeld s (bar2Store r off bs en s) ∧
    SameVote s (bar2Store r off bs en s) ∧ Same3 State.pending State.lcc State.mer s (bar2Store r off bs en s) ∧
    Same2 State.rng State.seg s (bar2Store r off bs en s) := by
  unfold bar2Store; dsimp only; (repeat' split) <;> simp [*]

@[simp] theorem bar2WriteTake_keeps (p : Port) (off : Nat) (bs : List Byte) (en : List Bool) (poisoned : Bool) (s : State) :
    SameVote s (bar2WriteTake p off bs en poisoned s) ∧
    Same4 State.pending State.lcc State.mer State.bus s (bar2WriteTake p off bs en poisoned s) ∧
    Same4 State.ch State.mnt State.alm State.tap s (bar2WriteTake p off bs en poisoned s) ∧
    Same2 State.rng State.seg s (bar2WriteTake p off bs en poisoned s) := by
  unfold bar2WriteTake; dsimp only; (repeat' split) <;> simp [*]

@[simp] theorem bar2MeetWord_keeps (s : State) (a : Nat) (t : State) :
    SameStill t (bar2MeetWord s a t) ∧ SamePorts t (bar2MeetWord s a t) ∧ SameUnits t (bar2MeetWord s a t) ∧
    SamePlant t (bar2MeetWord s a t) ∧ SameVote t (bar2MeetWord s a t) ∧ Same2 State.alm State.pwr t (bar2MeetWord s a t) := by
  unfold bar2MeetWord; dsimp only; (repeat' split) <;> simp [*]

@[simp] theorem bar2Meet_keeps (off n : Nat) (s : State) :
    SameStill s (bar2Meet off n s) ∧ SamePorts s (bar2Meet off n s) ∧ SameUnits s (bar2Meet off n s) ∧
    SamePlant s (bar2Meet off n s) ∧ SameVote s (bar2Meet off n s) ∧ Same2 State.alm State.pwr s (bar2Meet off n s) := by
  simp [bar2Meet]

@[simp] theorem bar2Complete_keeps (p : Port) (off n tag : Nat) (s : State) :
    SameStill s (bar2Complete p off n tag s) ∧ SameUnits s (bar2Complete p off n tag s) ∧
    SamePlant s (bar2Complete p off n tag s) ∧ SameVote s (bar2Complete p off n tag s) ∧
    Same4 State.tx State.msix State.alm State.pwr s (bar2Complete p off n tag s) := by simp [bar2Complete]

@[simp] theorem bar2ReadTake_keeps (p : Port) (off n tag : Nat) (s : State) :
    SameStill s (bar2ReadTake p off n tag s) ∧ SamePlant s (bar2ReadTake p off n tag s) ∧
    SameVote s (bar2ReadTake p off n tag s) ∧ Same4 State.bus State.ch State.mnt State.alm s (bar2ReadTake p off n tag s) := by
  simp [bar2ReadTake]

@[simp] theorem barTake_keeps (p : Port) (x : RxTlp) (s : State) : Same1 State.pending s (barTake p x s).2 := by
  unfold barTake; (repeat' split) <;> (try have hk_bar0ReadTake := bar0ReadTake_pair ‹_›) <;>
        (try have hk_bar0WriteTake := bar0WriteTake_pair ‹_›) <;> simp [*]

theorem barTake_pair {p : Port} {x : RxTlp} {s : State} {y0 : Option RxTlp} {t1 : State} (h : barTake p x s = (y0, t1)) :
    Same1 State.pending s t1 := by
  have k := barTake_keeps p x s
  rw [h] at k; exact k

@[simp] theorem drainBar_keeps (p : Port) (x1 : Nat) (x2 : State) : Same1 State.pending x2 (drainBar p x1 x2) := by
  induction x1 generalizing x2 with
  | zero => (unfold drainBar; simp)
  | succ n ih => (unfold drainBar; (repeat' split) <;> (try have hk_barTake := barTake_pair ‹_›) <;> simp [*])

@[simp] theorem barIn_keeps (p : Port) (x : RxTlp) (s : State) : Same1 State.pending s (barIn p x s) := by simp [barIn]

theorem takeRx_keeps {p : Port} {x : RxTlp} {s t1 : State} (h : takeRx p x s = some t1) : Same1 State.pending s t1 := by
  unfold takeRx at h
  split at h <;> first
    | (have k := takeWrite_keeps h; simp [k]; done)
    | (cases h; (try split) <;> simp)

@[simp] theorem arrive_keeps (p : Port) (x : RxTlp) (s : State) : Same1 State.pending s (arrive p x s) := by
  unfold arrive; (repeat' split) <;> (try have hk_takeRx := takeRx_keeps ‹_›) <;> simp [*]

@[simp] theorem recvPosted_keeps (p : Port) (a n : Nat) (x3 : Hdr) (x : RxTlp) (s : State) :
    Same1 State.pending s (recvPosted p a n x3 x s) := by simp [recvPosted]

@[simp] theorem bar0WriteOp_keeps (p : Port) (a : Nat) (en : List Bool) (d : Word) (poisoned : Bool) (s : State) :
    Same1 State.pending s (bar0WriteOp p a en d poisoned s) := by simp [bar0WriteOp]

@[simp] theorem bar0Write_keeps (r : Req) (addr : Nat) (full : Bool) (d : Word) (s : State) :
    Same1 State.pending s (bar0Write r addr full d s) := by
  unfold bar0Write; dsimp only; (repeat' split) <;> simp [*]

@[simp] theorem recvNonPosted_keeps (p : Port) (a n tag : Nat) (x4 : Hdr) (x : RxTlp) (s : State) :
    Same1 State.pending s (recvNonPosted p a n tag x4 x s) := by simp [recvNonPosted]

@[simp] theorem bar2ReadOp_keeps (p : Port) (off n tag : Nat) (s : State) :
    Same1 State.pending s (bar2ReadOp p off n tag s) := by simp [bar2ReadOp]

@[simp] theorem bar2WriteOp_keeps (p : Port) (off : Nat) (bs : List Byte) (en : List Bool) (poisoned : Bool) (s : State) :
    Same1 State.pending s (bar2WriteOp p off bs en poisoned s) := by
  unfold bar2WriteOp; (repeat' split) <;> simp [*]

@[simp] theorem bar4ReadOp_keeps (p : Port) (pat off n : Nat) (en : List Bool) (tag : Nat) (s : State) :
    Same1 State.pending s (bar4ReadOp p pat off n en tag s) := by simp [bar4ReadOp]

@[simp] theorem bar4WriteOp_keeps (p : Port) (pat off : Nat) (bs : List Byte) (en : List Bool) (poisoned ecrcBad : Bool) (s :
    State) :
    Same1 State.pending s (bar4WriteOp p pat off bs en poisoned ecrcBad s) := by simp [bar4WriteOp]

@[simp] theorem drainRx_keeps (p : Port) (x1 : Nat) (x2 : State) : Same1 State.pending x2 (drainRx p x1 x2) := by
  induction x1 generalizing x2 with
  | zero => (unfold drainRx; simp)
  | succ n ih => (unfold drainRx; (repeat' split) <;> (try have hk_takeRx := takeRx_keeps ‹_›) <;> simp [*])

@[simp] theorem claimGrant_keeps (p : Port) (s : State) : Same1 State.pending s (claimGrant p s) := by simp [claimGrant]

@[simp] theorem closedRetire_keeps (k : Word) (pat : Nat) (s : State) :
    SameStill s (closedRetire k pat s) ∧ Same1 State.pwr s (closedRetire k pat s) := by
  unfold closedRetire; (repeat' split) <;> simp [*]

@[simp] theorem configOp_keeps (p : Port) (dw : Nat) (write : Bool) (be : BitVec 4) (d : Word) (tag : Nat) (s : State) :
    Same1 State.pending s (configOp p dw write be d tag s) := by simp [configOp]

@[simp] theorem entryExpire_keeps (k : Word) (pat : Nat) (s : State) :
    SameStill s (entryExpire k pat s) ∧ Same1 State.pwr s (entryExpire k pat s) := by
  unfold entryExpire; (repeat' split) <;> simp [*]

@[simp] theorem flrIn_keeps (p : Port) (s : State) : Same1 State.pending s (flrIn p s) := by simp [flrIn]

@[simp] theorem flushDone_keeps (p : Port) (tag : Nat) (s : State) :
    SameStill s (flushDone p tag s) ∧ SameUnits s (flushDone p tag s) ∧ SameHeld s (flushDone p tag s) ∧
    SamePlant s (flushDone p tag s) ∧ SameVote s (flushDone p tag s) ∧
    Same4 State.tx State.msix State.regs State.evh s (flushDone p tag s) := by
  unfold flushDone; (repeat' split) <;> simp [*]

@[simp] theorem flushReadOp_keeps (p : Port) (tag : Nat) (s : State) :
    Same1 State.pending s (flushReadOp p tag s) := by simp [flushReadOp]

@[simp] theorem noteFrame_keeps (crcErr abort : Bool) (s : State) :
    SameStill s (noteFrame crcErr abort s) ∧ SamePorts s (noteFrame crcErr abort s) ∧ SameHeld s (noteFrame crcErr abort s) ∧
    SamePlant s (noteFrame crcErr abort s) ∧ SameVote s (noteFrame crcErr abort s) ∧
    Same3 State.bus State.ch State.freeCount s (noteFrame crcErr abort s) ∧
    Same2 State.regs State.evh s (noteFrame crcErr abort s) := by simp [noteFrame]

@[simp] theorem respond_keeps (s : State) :
    SameStill s (respond s) ∧ SameHeld s (respond s) ∧ SamePlant s (respond s) ∧ SameVote s (respond s) ∧
    Same4 State.port State.tx State.msix State.bus s (respond s) ∧ Same4 State.ch State.mnt State.regs State.evh s (respond s) := by
  simp [respond]

@[simp] theorem guardTimeoutOp_keeps (r : Req) (k : PageKind) (s : State) :
    SameStill s (guardTimeoutOp r k s) ∧ SamePorts s (guardTimeoutOp r k s) ∧ SameHeld s (guardTimeoutOp r k s) ∧
    SamePlant s (guardTimeoutOp r k s) ∧ SameVote s (guardTimeoutOp r k s) ∧
    Same3 State.ch State.mnt State.freeCount s (guardTimeoutOp r k s) := by
  unfold guardTimeoutOp; (repeat' split) <;> simp [*]

@[simp] theorem guardedPair_keeps (off : Nat) (d : Word) (s : State) :
    Same1 State.pending s (guardedPair off d s) := by simp [guardedPair]

theorem indTimeoutHead_keeps {p : Port} {k : PageKind} {page : Nat} {s t1 : State} (h : indTimeoutHead p k page s = some t1) :
    Same1 State.pending s t1 := by
  unfold indTimeoutHead at h; dsimp only at h; (repeat' split at h) <;> simp at h <;> (try obtain ⟨rfl⟩ := h) <;> simp_all

@[simp] theorem indTimeoutOp_keeps (r : Req) (page : Nat) (write : Bool) (d : Word) (tag : Nat) (s : State) :
    Same1 State.pending s (indTimeoutOp r page write d tag s) := by
  unfold indTimeoutOp; dsimp only; (repeat' split) <;> (try have hk_indTimeoutHead := indTimeoutHead_keeps ‹_›) <;> simp [*]

@[simp] theorem mntResult_keeps (accErr written : Bool) (off : Nat) (d : Word) (s : State) :
    SameStill s (mntResult accErr written off d s) ∧ SamePorts s (mntResult accErr written off d s) ∧
    SameHeld s (mntResult accErr written off d s) ∧ SamePlant s (mntResult accErr written off d s) ∧
    SameVote s (mntResult accErr written off d s) ∧
    Same3 State.bus State.ch State.freeCount s (mntResult accErr written off d s) ∧
    Same2 State.regs State.evh s (mntResult accErr written off d s) := by simp [mntResult]

@[simp] theorem indTimeoutAny_keeps (r : Req) (page : Nat) (write : Bool) (d : Word) (tag : Nat) (s : State) :
    Same1 State.pending s (indTimeoutAny r page write d tag s) := by
  unfold indTimeoutAny; dsimp only; (repeat' split) <;> simp [*]

@[simp] theorem legDoneOp_keeps (s : State) :
    SameStill s (legDoneOp s) ∧ SamePorts s (legDoneOp s) ∧ SameHeld s (legDoneOp s) ∧ SamePlant s (legDoneOp s) ∧
    SameVote s (legDoneOp s) ∧ Same3 State.bus State.ch State.freeCount s (legDoneOp s) := by
  unfold legDoneOp; dsimp only; (repeat' split) <;> simp [*]

@[simp] theorem mntDone_keeps (s : State) : Same1 State.pending s (mntDone s) := by
  unfold mntDone; dsimp only; (repeat' split) <;> (try have hk_bar0Read := bar0Read_keeps ‹_›) <;> simp [*]

@[simp] theorem refuseAccess_keeps (off : Nat) (s : State) :
    SameStill s (refuseAccess off s) ∧ SamePorts s (refuseAccess off s) ∧ SameHeld s (refuseAccess off s) ∧
    SamePlant s (refuseAccess off s) ∧ SameVote s (refuseAccess off s) ∧
    Same4 State.bus State.ch State.regs State.evh s (refuseAccess off s) := by simp [refuseAccess]

@[simp] theorem startAccess_keeps (write guarded space : Bool) (off : Nat) (d : Word) (s : State) :
    SameStill s (startAccess write guarded space off d s) ∧ SamePorts s (startAccess write guarded space off d s) ∧
    SameHeld s (startAccess write guarded space off d s) ∧ SamePlant s (startAccess write guarded space off d s) ∧
    SameVote s (startAccess write guarded space off d s) ∧
    Same4 State.bus State.ch State.regs State.evh s (startAccess write guarded space off d s) := by simp [startAccess]

@[simp] theorem mntGuardedOp_keeps (clocks : Nat) (space : Bool) (off : Nat) (d : Word) (crc : BitVec 8) (s : State) :
    SameStill s (mntGuardedOp clocks space off d crc s) ∧ SamePlant s (mntGuardedOp clocks space off d crc s) ∧
    SameVote s (mntGuardedOp clocks space off d crc s) ∧
    Same4 State.port State.tx State.msix State.bus s (mntGuardedOp clocks space off d crc s) ∧
    Same3 State.ch State.alm State.tap s (mntGuardedOp clocks space off d crc s) := by simp [mntGuardedOp, frame]

@[simp] theorem mntReadOp_keeps (clocks : Nat) (space : Bool) (off : Nat) (d : Word) (crc : BitVec 8) (s : State) :
    SameStill s (mntReadOp clocks space off d crc s) ∧ SamePlant s (mntReadOp clocks space off d crc s) ∧
    SameVote s (mntReadOp clocks space off d crc s) ∧
    Same4 State.port State.tx State.msix State.bus s (mntReadOp clocks space off d crc s) ∧
    Same3 State.ch State.alm State.tap s (mntReadOp clocks space off d crc s) := by simp [mntReadOp, frame]

@[simp] theorem mntStatusOp_keeps (clocks cmd : Nat) (space : Bool) (off : Nat) (d : Word) (crc : BitVec 8) (s : State) :
    SameStill s (mntStatusOp clocks cmd space off d crc s) ∧ SamePlant s (mntStatusOp clocks cmd space off d crc s) ∧
    SameVote s (mntStatusOp clocks cmd space off d crc s) ∧
    Same4 State.port State.tx State.msix State.bus s (mntStatusOp clocks cmd space off d crc s) ∧
    Same3 State.ch State.alm State.tap s (mntStatusOp clocks cmd space off d crc s) := by simp [mntStatusOp, frame]

@[simp] theorem mntWriteOp_keeps (clocks : Nat) (space : Bool) (off : Nat) (d : Word) (crc : BitVec 8) (s : State) :
    SameStill s (mntWriteOp clocks space off d crc s) ∧ SamePlant s (mntWriteOp clocks space off d crc s) ∧
    SameVote s (mntWriteOp clocks space off d crc s) ∧
    Same4 State.port State.tx State.msix State.bus s (mntWriteOp clocks space off d crc s) ∧
    Same3 State.ch State.alm State.tap s (mntWriteOp clocks space off d crc s) := by simp [mntWriteOp, frame]

@[simp] theorem regReadOp_keeps (r : Req) (addr n tag : Nat) (s : State) :
    Same1 State.pending s (regReadOp r addr n tag s) := by
  unfold regReadOp; dsimp only; (repeat' split) <;> (try have hk_bar0Read := bar0Read_keeps ‹_›) <;> simp [*]

@[simp] theorem unsupportedIn_keeps (p : Port) (k : UrKind) (tag : Nat) (s : State) :
    Same1 State.pending s (unsupportedIn p k tag s) := by simp [unsupportedIn]

@[simp] theorem voteExpire_keeps (c : Port) (k : PageKind) (off : Nat) (s : State) :
    SameStill s (voteExpire c k off s) ∧ SamePorts s (voteExpire c k off s) ∧ SameHeld s (voteExpire c k off s) ∧
    SameVote s (voteExpire c k off s) ∧ Same4 State.mnt State.freeCount State.lom State.rng s (voteExpire c k off s) ∧
    Same3 State.seg State.regs State.evh s (voteExpire c k off s) := by simp [voteExpire]

end Sys2Proof.Machine
end

