-- ==== Sys2Proof/Laws/KeepHub.lean ====
section
/-!
SUPPORT. What the operations of the event log, the scrubber, the test port, the idle step and the gates of the commands leave alone: one lemma per operation, over the parts of
`State` that no path of it writes, so that no proof unfolds an operation to see that a part is unchanged.
-/

namespace Sys2Proof.Machine

open Sys2Proof

@[simp] theorem admissionEnd_keeps (s : State) :
    SameStill s (admissionEnd s) ∧ Same1 State.pwr s (admissionEnd s) := by simp [admissionEnd]

@[simp] theorem landed_keeps (r : Req) (s : State) :
    SameStill s (landed r s) ∧ SameUnits s (landed r s) ∧ SamePlant s (landed r s) ∧ SameVote s (landed r s) ∧
    Same4 State.out State.tx State.msix State.alm s (landed r s) ∧ Same2 State.tap State.regs s (landed r s) := by
  unfold landed; (repeat' split) <;> simp [*]

@[simp] theorem twoWrites_keeps (r : Req) (k : PageKind) (off : Nat) (d : Word) (s : State) :
    Same1 State.pending s (twoWrites r k off d s) := by simp [twoWrites]

@[simp] theorem almRow_keeps (r : Req) (op : Nat) (s : State) : Same1 State.pending s (almRow r op s) := by
  simp only [almRow, guarded]; (repeat' split) <;> simp [*]

@[simp] theorem commitCmd_keeps (n : Word) (first second : Port) (s : State) :
    SameStill s (commitCmd n first second s) ∧ Same1 State.pwr s (commitCmd n first second s) := by simp [commitCmd]

@[simp] theorem commitRunOp_keeps (s : State) :
    SameStill s (commitRunOp s) ∧ SamePorts s (commitRunOp s) ∧ Same4 State.bus State.ch State.mnt State.alm s (commitRunOp s) ∧
    Same3 State.pwr State.lom State.rng s (commitRunOp s) ∧ Same2 State.seg State.crl s (commitRunOp s) := by
  unfold commitRunOp; dsimp only; (repeat' split) <;> simp [*]

@[simp] theorem divergentClear_keeps (c : Port) (s : State) : OnlyCh s (divergentClear c s) := by simp [divergentClear]

@[simp] theorem drainBars_keeps (s : State) : Same1 State.pending s (drainBars s) := by simp [drainBars]

@[simp] theorem dropDoneOp_keeps (q : Nat) (s : State) :
    SameStill s (dropDoneOp q s) ∧ SamePorts s (dropDoneOp q s) ∧ SameUnits s (dropDoneOp q s) ∧ SameHeld s (dropDoneOp q s) ∧
    SamePlant s (dropDoneOp q s) ∧ Same2 State.vot State.regs s (dropDoneOp q s) := by simp [dropDoneOp]

@[simp] theorem endPump_keeps (s : State) :
    SameStill s (endPump s) ∧ SameUnits s (endPump s) ∧ Same4 State.port State.tx State.msix State.alm s (endPump s) ∧
    Same2 State.pwr State.lom s (endPump s) := by simp [endPump]

@[simp] theorem failDelayed_keeps (g : Seg) (id : Nat) (s : State) :
    SameStill s (failDelayed g id s) ∧ SameUnits s (failDelayed g id s) ∧ SameHeld s (failDelayed g id s) ∧
    Same4 State.port State.tx State.msix State.lom s (failDelayed g id s) ∧
    Same3 State.img State.vot State.regs s (failDelayed g id s) := by
  unfold failDelayed; dsimp only; (repeat' split) <;> simp [*]

@[simp] theorem failHeldRead_keeps (k pat : Nat) (s : State) :
    SameStill s (failHeldRead k pat s) ∧ Same4 State.tx State.msix State.bus State.ch s (failHeldRead k pat s) ∧
    Same4 State.mnt State.alm State.pwr State.lom s (failHeldRead k pat s) ∧
    Same2 State.seg State.img s (failHeldRead k pat s) := by simp [failHeldRead]

@[simp] theorem failMailOn_keeps (s : State) (g : Seg) :
    SameStill s (failMailOn s g) ∧ Same1 State.pwr s (failMailOn s g) := by
  unfold failMailOn; dsimp only; (repeat' split) <;> simp [*]

@[simp] theorem failMail_keeps (s : State) : SameStill s (failMail s) ∧ Same1 State.pwr s (failMail s) := by
  unfold failMail; (repeat' split) <;> simp [*]

@[simp] theorem failUnsent_keeps (p : Pkt) (s : State) :
    SameStill s (failUnsent p s) ∧ SamePorts s (failUnsent p s) ∧ SameUnits s (failUnsent p s) ∧ SameHeld s (failUnsent p s) ∧
    SameVote s (failUnsent p s) ∧ Same4 State.lom State.rng State.seg State.regs s (failUnsent p s) := by
  unfold failUnsent; dsimp only; (repeat' split) <;> simp [*]

@[simp] theorem lcRow_keeps (r : Req) (op confirm : Nat) (s : State) : Same1 State.pending s (lcRow r op confirm s) := by
  simp only [lcRow, guarded]; (repeat' split) <;> simp [*]

@[simp] theorem logClose_keeps (s : State) : OnlyCrl s (logClose s) := by
  unfold logClose; (repeat' split) <;> simp [*]

@[simp] theorem logPass_keeps (s : State) :
    SameStill s (logPass s) ∧ SamePorts s (logPass s) ∧ SameUnits s (logPass s) ∧ SamePlant s (logPass s) ∧
    SameVote s (logPass s) ∧ Same3 State.tap State.pwr State.regs s (logPass s) := by simp [logPass]

@[simp] theorem logStart_keeps (s : State) : SameStill s (logStart s) := by simp [logStart]

@[simp] theorem loseStored_keeps (p : Pkt) (s : State) : OnlyLists s (loseStored p s) := by simp [loseStored]

@[simp] theorem replicate_keeps (seq : Nat) (bs : List Byte) (s : State) :
    OnlyLinks s (replicate seq bs s) := by simp [replicate]

@[simp] theorem logStore_keeps (s0 : State) :
    SameStill s0 (logStore s0) ∧ SameUnits s0 (logStore s0) ∧ SamePlant s0 (logStore s0) ∧ Same1 State.pwr s0 (logStore s0) := by
  unfold logStore; dsimp only; (repeat' split) <;> simp [*]

@[simp] theorem losePkt_keeps (q : Nat) (p : Pkt) (s : State) :
    SameStill s (losePkt q p s) ∧ Same1 State.pwr s (losePkt q p s) := by
  unfold losePkt; dsimp only; (repeat' split) <;> simp [*]

@[simp] theorem noMajority_keeps (n : Word) (s : State) :
    SameStill s (noMajority n s) ∧ Same1 State.pwr s (noMajority n s) := by simp [noMajority]

@[simp] theorem reclaimDone_keeps (s : State) :
    SameStill s (reclaimDone s) ∧ Same1 State.pwr s (reclaimDone s) := by simp [reclaimDone]

@[simp] theorem replSkip_keeps (p : Port) (s : State) :
    SameStill s (replSkip p s) ∧ SameUnits s (replSkip p s) ∧ SameHeld s (replSkip p s) ∧ SamePlant s (replSkip p s) ∧
    Same4 State.out State.port State.msix State.regs s (replSkip p s) := by simp [replSkip]

@[simp] theorem scrubVisit_keeps (m w : Nat) (s : State) :
    SameStill s (scrubVisit m w s) ∧ SamePorts s (scrubVisit m w s) ∧ SameUnits s (scrubVisit m w s) ∧
    SamePlant s (scrubVisit m w s) ∧ SameVote s (scrubVisit m w s) ∧ Same2 State.alm State.pwr s (scrubVisit m w s) := by
  simp [scrubVisit]

@[simp] theorem tapResetOp_keeps (s : State) :
    SameStill s (tapResetOp s) ∧ SamePorts s (tapResetOp s) ∧ SameUnits s (tapResetOp s) ∧ SamePlant s (tapResetOp s) ∧
    SameVote s (tapResetOp s) ∧ Same4 State.alm State.pwr State.regs State.evh s (tapResetOp s) := by simp [tapResetOp]

@[simp] theorem tapUpdate_keeps (ir : BitVec 6) (s : State) :
    SameStill s (tapUpdate ir s) ∧ SamePorts s (tapUpdate ir s) ∧ SameUnits s (tapUpdate ir s) ∧ SamePlant s (tapUpdate ir s) ∧
    SameVote s (tapUpdate ir s) ∧ Same3 State.alm State.pwr State.regs s (tapUpdate ir s) := by simp [tapUpdate]

@[simp] theorem thirdMissingOp_keeps (t : Port) (s : State) :
    SameStill s (thirdMissingOp t s) ∧ Same1 State.pwr s (thirdMissingOp t s) := by
  unfold thirdMissingOp; dsimp only; (repeat' split) <;> simp [*]

@[simp] theorem timePasses_keeps (s : State) :
    SamePorts s (timePasses s) ∧ SameUnits s (timePasses s) ∧ SamePlant s (timePasses s) ∧ SameVote s (timePasses s) ∧
    Same4 State.pending State.lcc State.frc State.alm s (timePasses s) ∧ Same3 State.tap State.regs State.evh s (timePasses s) := by
  simp [timePasses]

@[simp] theorem votedPcmd_keeps (v : Word) (s : State) : Same1 State.pending s (votedPcmd v s) := by simp [votedPcmd]

@[simp] theorem votedWriteOp_keeps (c : Port) (k : PageKind) (raw : Nat) (v : Word) (s : State) :
    Same1 State.pending s (votedWriteOp c k raw v s) := by simp [votedWriteOp]

@[simp] theorem wdogOp_keeps (s : State) : SameStill s (wdogOp s) ∧ Same1 State.pwr s (wdogOp s) := by simp [wdogOp]

end Sys2Proof.Machine
end

