-- ==== Sys2Proof/Laws/Reg.lean ====
section
/-!
SUPPORT. Where a register write goes: past the port, the page and the rights to the register's own class (R9 to R16, Table 5.3).
-/

namespace Sys2Proof.Machine

open Sys2Proof

/-- A received access touches its port, CORE's wake state and the event hub alone. -/
@[simp] theorem landed_same (r : Req) (s : State) :
    SameStill s (landed r s) ∧ SameUnits s (landed r s) ∧ SamePlant s (landed r s) ∧ SameVote s (landed r s) ∧
    (landed r s).regs = s.regs ∧ (landed r s).evh.event = s.evh.event ∧ (landed r s).pwr.boot = s.pwr.boot := by
  unfold landed; split <;> simp [portWake, wakeCore, receipt] <;> split <;> simp [raise, raiseD]

/-- While CORE runs nothing wakes it. -/
theorem wakeCore_runs (c b : Nat) (s : State) (h : CoreRuns s) : wakeCore c b s = s := by
  unfold wakeCore; unfold CoreRuns at h; rw [h]; rfl

/-- While CORE runs, a received access changes no more than the link state of its port. -/
theorem landed_runs (r : Req) (s : State) (h : CoreRuns s) :
    landed r s = match reqPort r with | none => s | some p => receipt p s := by
  unfold landed; cases reqPort r with
  | none => exact wakeCore_runs _ _ _ h
  | some p => exact wakeCore_runs 1 p.val (receipt p s) h

/-- A command whose effect raises no event answers exactly the state its effect gives. -/
theorem run_calm (f : State → State) (s : State) (h : Delivered (f (cleared s))) : run f s = .next (f (cleared s)) := by
  unfold run
  have : settle (f (cleared s)) = f (cleared s) := by
    rw [settle_quiet _ h.1]
    generalize f (cleared s) = t at h
    calc ({ t with evh := { t.evh with occ := [], sub := 0 } } : State)
        = { t with evh := { t.evh with occ := t.evh.occ, sub := t.evh.sub } } := by rw [h.1, h.2]
      _ = t := rfl
  exact congrArg _ this

theorem pageKind_num (k : PageKind) : pageKind k.num = some k := by
  cases k with
  | cp n => fin_cases n <;> rfl
  | ls g => fin_cases g <;> rfl
  | rg rp => fin_cases rp <;> rfl
  | _ => rfl

theorem inArray_num (r : Req) (k : PageKind) (raw : Nat) : inArray r k.num raw = false := by
  have h : k.num < 0x34 ∨ (0x40 ≤ k.num ∧ k.num < 0x42) := by cases k <;> simp [PageKind.num] <;> omega
  have hm : msixPage r k.num = none := by
    unfold msixPage; split
    · rw [if_neg (by omega), if_neg (by omega)]
    · rw [if_neg (by omega)]
  unfold inArray; rw [hm]; simp; omega

theorem regAddr_lt (k : PageKind) (off : Nat) (h : off < 0x1000) : regAddr k off < 2 ^ 20 := by
  have : k.num < 0x42 := by cases k <;> simp [PageKind.num] <;> omega
  unfold regAddr; omega

theorem addrOf_toNat (k : PageKind) (off : Nat) (h : off < 0x1000) : (addrOf k off).toNat = regAddr k off := by
  unfold addrOf; rw [BitVec.toNat_ofNat]; exact Nat.mod_eq_of_lt (regAddr_lt k off h)

theorem pageAddr_num (k : PageKind) (page : BitVec 8) (off : Nat) (h : page.toNat = k.num) : page.toNat * 0x1000 + off = regAddr k off := by
  rw [h]; rfl

theorem reqPort_some {r : Req} {p : Port} (h : reqPort r = some p) : r = portReq p := by
  unfold reqPort at h; split at h
  · cases h; rfl
  · cases h

/-- Two changes of a port are one. -/
theorem modPort_twice (p : Port) (f g : PortS → PortS) (s : State) : modPort p f (modPort p g s) = modPort p (fun q => f (g q)) s := by
  unfold modPort; simp

/-- A change that leaves the port as it is changes nothing. -/
theorem modPort_id (p : Port) (f : PortS → PortS) (s : State) (h : f s.port[p] = s.port[p]) : modPort p f s = s := by
  have hset : s.port.set p s.port[p] = s.port := by
    apply Vector.ext; intro i hi; rw [Vector.getElem_set]; split
    · rename_i e; subst e; rfl
    · rfl
  unfold modPort; rw [h, hset]

/-- A request that finds its port free takes its turn at once, and the request that is left of it waits. -/
theorem arrive_free (p : Port) (x : RxTlp) (s : State) (hrx : s.port[p].rx = []) (hbar : s.port[p].bar = [])
    (hx : takeRx p x s = some (barIn p x s)) :
    arrive p x s = match barTake p x s with
      | (some y, s1) => modPort p (fun q => { q with bar := y :: q.bar }) s1
      | (none, s1) => s1 := by
  have e : modPort p (fun q => { q with bar := [] }) (modPort p (fun q => { q with bar := q.bar ++ [x] }) s) = s := by
    rw [modPort_twice]; exact modPort_id _ _ _ (by rw [← hbar])
  unfold arrive
  simp only [hrx, List.isEmpty_nil, if_true, hx]
  unfold barIn; rw [hbar]
  have hb : (modPort p (fun q => { q with bar := q.bar ++ [x] }) s).port[p].bar = [x] := by rw [modPort_same, hbar]; rfl
  unfold drainBar; rw [List.length_nil, hb]; dsimp only; rw [e]
  generalize barTake p x s = z
  rcases z with ⟨_ | y, s1⟩ <;> rfl

/-- A write of a register past the port, with every right: it acts on the register at that offset. -/
theorem bar0Word_reg (r : Req) (k : PageKind) (off : Nat) (d : Word) (s : State) (hs : ∀ c, reqPort r = some c → s.ch[c].st = .active)
    (hp : pageRefused r k = false) (ho : off < 0x400) (h4 : off % 4 = 0) :
    bar0Word r (regAddr k off) true d s = regWrite r k k.num off off d s := by
  have ha : regAddr k off / 4 * 4 = regAddr k off := by unfold regAddr; omega
  have hpg : regAddr k off / 0x1000 = k.num := by unfold regAddr; omega
  have hr : regAddr k off % 0x1000 = off := by unfold regAddr; omega
  have hf : foldOff off = off := by unfold foldOff; rw [if_pos ho]
  unfold bar0Word; simp only [ha, hpg, hr, inArray_num, Bool.false_eq_true, if_false, pageKind_num]
  unfold pageWrite; simp only [hf, hp, Bool.false_eq_true, if_false, Bool.not_true]
  split
  · rfl
  · rename_i c hc
    have : writeRight s c k off = .yes := by unfold writeRight; rw [hs c hc]
    rw [this]

/-- Only IND_DATA makes a write wait (R26, R378). -/
theorem writeWaits_reg (r : Req) (k : PageKind) (off : Nat) (s : State) (ho : off < 0x400) (h4 : off % 4 = 0) (hi : off ≠ 0x024) :
    writeWaits s r (regAddr k off) true = false := by
  have ha : regAddr k off / 4 * 4 = regAddr k off := by unfold regAddr; omega
  have hpg : regAddr k off / 0x1000 = k.num := by unfold regAddr; omega
  have hr : regAddr k off % 0x1000 = off := by unfold regAddr; omega
  have hf : (foldOff off == 0x024) = false := by unfold foldOff; rw [if_pos ho]; simpa using hi
  unfold writeWaits indWaits streamWaits
  simp only [hpg, pageKind_num, ha, hr, hf, Bool.false_and, Bool.or_self, Bool.and_false]

/-- A port with free buffers has room for a posted word, which crosses no boundary and exceeds no payload size (R95, R96). -/
theorem word_room (p : Port) (k : PageKind) (off : Nat) (s : State) (hrx : s.port[p].rx = []) (hbar : s.port[p].bar = [])
    (h4 : off % 4 = 0) : postedRoom s p 4 = true ∧ (crosses (regAddr k off) 4 || decide (mps s p < 4)) = false := by
  constructor
  · unfold postedRoom creditsHeld; rw [hrx, hbar]; rfl
  · have h1 : ¬ 4096 < regAddr k off % 4096 + 4 := by unfold regAddr; omega
    have h2 : ¬ mps s p < 4 := by
      unfold mps; have : 0 < 2 ^ min 2 (fieldOf (cfgGet s p 0x1A) 7 5) := by positivity
      omega
    unfold crosses; rw [decide_eq_false h1, decide_eq_false h2]; rfl

theorem barOn_receipt (p : Port) (s : State) : barOn (receipt p s) p = barOn s p := by
  have h : (receipt p s).port[p].cfg = s.port[p].cfg := by unfold receipt; rw [modPort_same]
  unfold barOn memEn d3hot cfgGet; rw [h]; rfl

/-- A full write of a word of a register page, with every right, acts on the register at that offset. -/
theorem bar0Write_reg (r : Req) (k : PageKind) (off : Nat) (d : Word) (s : State) (hw : Writer r s) (hp : pageRefused r k = false)
    (ho : off < 0x400) (h4 : off % 4 = 0) (hi : off ≠ 0x024) :
    bar0Write r (regAddr k off) true d s = regWrite r k k.num off off d (landed r s) := by
  have ha : regAddr k off / 4 * 4 = regAddr k off := by unfold regAddr; omega
  have wait := fun t => writeWaits_reg r k off t ho h4 hi
  rcases h0 : reqPort r with _ | p
  · have e : landed r s = wakeCore 2 4 s := by unfold landed; rw [h0]
    unfold bar0Write; rw [h0]; dsimp only
    rw [if_pos (hw.1 h0), wait, Bool.false_and, if_neg Bool.false_ne_true, e]
    exact bar0Word_reg r k off d _ (by intro c hc; rw [h0] at hc; cases hc) hp ho h4
  · have e : landed r s = portWake p (receipt p s) := by unfold landed; rw [h0]
    rw [e]; unfold bar0Write; rw [h0]; dsimp only
    obtain ⟨⟨ho1, hrx, hbar⟩, hon, hst⟩ := hw.2 p h0
    obtain ⟨hroom, hcut⟩ := word_room p k off s hrx hbar h4
    have hrx2 : (receipt p s).port[p].rx = [] := by unfold receipt; rw [modPort_same, hrx]
    have hbar2 : (receipt p s).port[p].bar = [] := by unfold receipt; rw [modPort_same, hbar]
    unfold bar0WriteOp recvPosted; dsimp only
    rw [ha, ho1, hroom, hcut, arrive_free p _ _ hrx2 hbar2 rfl]
    have full : (!(List.replicate 4 true).contains false) = true := rfl
    unfold barTake bar0WriteTake; dsimp only
    rw [full, barOn_receipt, hon, ← reqPort_some h0, wait]
    simp only [Bool.not_true, Bool.false_eq_true, if_false]
    refine bar0Word_reg r k off d _ ?_ hp ho h4
    intro c hc; rw [h0] at hc; cases hc
    rw [← hst]; simp [portWake, receipt]

/-- With no guarded sequence held, a write reaches its register. -/
theorem breakGuard_none (r : Req) (k : PageKind) (page off : Nat) (s : State) (h : heldIn s r k = none) :
    breakGuard r k page off s = s := by
  unfold breakGuard; rw [h]

theorem heldIn_landed (r q : Req) (k : PageKind) (s : State) : heldIn (landed q s) r k = heldIn s r k := by
  unfold heldIn; simp

theorem getReg_landed (r : Req) (k : PageKind) (off : Nat) (s : State) : getReg (landed r s) k off = getReg s k off :=
  getReg_congr (by simp) k off

theorem errPage_ne (k : PageKind) (h : k ≠ .cntu) : errPage k = k := by cases k <;> first | rfl | exact absurd rfl h

theorem regAddr_inj_off (k : PageKind) (a b : Nat) (h : a ≠ b) : regAddr k a ≠ regAddr k b := by unfold regAddr; omega

/-- A register is stored and read back. -/
theorem getReg_putFld (k : PageKind) (off hi lo v : Nat) (s : State) :
    getReg (putFld k off hi lo v s) k off = setFieldOf (getReg s k off) hi lo v := by
  unfold putFld; exact getReg_setReg k off _ s

theorem otherRegs_setReg (k : PageKind) (off : Nat) (w : Word) (s : State) : OtherRegs k off s (setReg k off w s) := by
  intro k2 off2 h; exact getReg_setReg_ne h _ _

theorem otherRegs_congr {k : PageKind} {off : Nat} {s t s2 t2 : State} (h : OtherRegs k off s t) (hs : s2.regs = s.regs)
    (ht : t2.regs = t.regs) : OtherRegs k off s2 t2 := by
  intro k2 off2 hk; rw [getReg_congr ht, getReg_congr hs]; exact h k2 off2 hk

/-- The capture of R19 and R20 is the one that the statements describe. -/
theorem capture_captured (k : PageKind) (cause : Nat) (r : Req) (page off : Nat) (d : Word) (s : State) :
    Captured k cause r page off d s (capture k cause r.val page off d s) := by
  have e34 : regAddr (errPage k) 0x034 ≠ regAddr (errPage k) 0x030 := regAddr_inj_off _ _ _ (by decide)
  have hr : ∀ t : State, ∀ b1 b2 e1 e2, (raiseIf b2 e2 (raiseIf b1 e1 t)).regs = t.regs := by intros; simp
  unfold Captured capture
  dsimp only
  split
  · constructor
    · rw [getReg_congr (hr _ _ _ _ _), getReg_putFld]
    · rw [getReg_congr (hr _ _ _ _ _)]; unfold putFld; rw [getReg_setReg_ne e34]
  · constructor
    · rw [getReg_congr (hr _ _ _ _ _), getReg_setReg_ne e34.symm, getReg_setReg]
    · rw [getReg_congr (hr _ _ _ _ _), getReg_setReg]

theorem captured_congr {k : PageKind} {cause : Nat} {r : Req} {page off : Nat} {d : Word} {s t s2 t2 : State}
    (h : Captured k cause r page off d s t) (hs : s2.regs = s.regs) (ht : t2.regs = t.regs) :
    Captured k cause r page off d s2 t2 := by
  unfold Captured at *
  simp only [getFld, getReg_congr hs, getReg_congr ht]; exact h

/-- A capture writes ERRLOG0 and ERRLOG1 of its page alone. -/
theorem capture_other (k : PageKind) (cause req page off : Nat) (d : Word) (s : State) (k2 : PageKind) (off2 : Nat)
    (h0 : regAddr k2 off2 ≠ regAddr (errPage k) 0x030) (h1 : regAddr k2 off2 ≠ regAddr (errPage k) 0x034) :
    getReg (capture k cause req page off d s) k2 off2 = getReg s k2 off2 := by
  have hr : ∀ t : State, ∀ b1 b2 e1 e2, (raiseIf b2 e2 (raiseIf b1 e1 t)).regs = t.regs := by intros; simp
  unfold capture; dsimp only
  rw [getReg_congr (hr _ _ _ _ _)]
  split
  · unfold putFld; rw [getReg_setReg_ne h0]
  · rw [getReg_setReg_ne h1, getReg_setReg_ne h0]

/-- The occurrences that a capture raises: LOCK_VIOL for the causes 1, 4, 5 and 7, GUARD_FAIL for the cause 2 (R19). -/
theorem capture_occ (k : PageKind) (cause req page off : Nat) (d : Word) (s : State) :
    ((cause = 1 ∨ cause = 4 ∨ cause = 5 ∨ cause = 7) →
      ∃ o ∈ (capture k cause req page off d s).evh.occ, o.ev = (errPage k).events.1) ∧
    (cause = 2 → ∃ o ∈ (capture k cause req page off d s).evh.occ, o.ev = (errPage k).events.1 + 1) := by
  unfold capture; dsimp only
  constructor
  · intro h
    have e : (cause == 1 || cause == 4 || cause == 5 || cause == 7) = true := by
      rcases h with rfl | rfl | rfl | rfl <;> rfl
    have e2 : (cause == 2) = false := by rcases h with rfl | rfl | rfl | rfl <;> rfl
    simp only [e, e2, raiseIf, if_true, Bool.false_eq_true, if_false]
    exact ⟨_, List.mem_append_right _ (List.mem_singleton.2 rfl), rfl⟩
  · rintro rfl
    simp only [raiseIf, Nat.reduceBEq, Bool.or_self, Bool.false_eq_true, if_false, if_true]
    exact ⟨_, List.mem_append_right _ (List.mem_singleton.2 rfl), rfl⟩

/-- The page and bit of the LOCK_VIOL and GUARD_FAIL events. -/
theorem eventPage_first (k : PageKind) (h : k ≠ .cntu) (i : Nat) (hi : i < 3) : eventPage (k.events.1 + i) = some (k, i) := by
  cases k with
  | cp n => fin_cases n <;> interval_cases i <;> rfl
  | ls g => fin_cases g <;> interval_cases i <;> rfl
  | rg rp => fin_cases rp <;> interval_cases i <;> rfl
  | cntu => exact absurd rfl h
  | _ => interval_cases i <;> rfl

theorem cntu_refused (r : Req) (k : PageKind) (h : pageRefused r k = false) : k ≠ .cntu := by
  rintro rfl; simp [pageRefused] at h

theorem splitCpl_word (p : Port) (tag a m : Nat) (w : Word) (hm : 128 ≤ m) (ha : a % 4 = 0) :
    splitCpl p tag (bnat false) a m 0 (bytesLE 4 w.toNat).length (bytesLE 4 w.toNat) = [.cpl p tag 0 false 4 (a % 128) (bytesLE 4 w.toNat)] := by
  have hl : (bytesLE 4 w.toNat).length = 4 := rfl
  have hf : ∀ n : Nat, 4 ≤ n → (bytesLE 4 w.toNat).take n = bytesLE 4 w.toNat := fun n h => List.take_of_length_le (by rw [hl]; exact h)
  have hd : ∀ n : Nat, 4 ≤ n → (bytesLE 4 w.toNat).drop n = [] := fun n h => List.drop_eq_nil_of_le (by rw [hl]; exact h)
  have h4 : 4 ≤ (if (a + m) / 64 * 64 - a = 0 then m else min m ((a + m) / 64 * 64 - a)) := by
    split
    · omega
    · rename_i h0; rw [Nat.le_min]; constructor <;> omega
  have hne : (bytesLE 4 w.toNat).isEmpty = false := rfl
  rw [hl]; unfold splitCpl
  simp only [hne, Bool.false_eq_true, if_false, hf _ h4, hd _ h4, bnat]
  unfold splitCpl
  rfl

theorem mps_ge (s : State) (p : Port) : 128 ≤ mps s p := by
  unfold mps; exact Nat.le_mul_of_pos_right _ (by positivity)

/-- A word leaves in one completion (R99). -/
theorem complete_word (p : Port) (tag a : Nat) (w : Word) (s : State) (ha : a % 4 = 0) :
    complete p tag a false (bytesLE 4 w.toNat) s = dropTag p tag (sendOut p [.cpl p tag 0 false 4 (a % 128) (bytesLE 4 w.toNat)] s) := by
  unfold complete; rw [splitCpl_word p tag a _ w (mps_ge _ _) ha]

/-- A read of a BAR0 word by the maintenance port is answered with the word (R15). -/
theorem regReadOp_port (r : Req) (a tag : Nat) (w : Word) (s s1 : State) (hr : reqPort r = none) (h : Reader r a s) (h4 : a % 4 = 0)
    (hb : bar0Read r a (wakeCore 2 4 s) = some (w, s1)) : regReadOp r a 1 tag s = emit (.word r w) s1 := by
  have ha : a / 4 * 4 = a := by omega
  unfold regReadOp; rw [hr]; dsimp only; rw [if_pos (h.1 hr), ha, hb]

/-- A read of a BAR0 word by a channel port, with every right, is answered with the word (R15, R98). -/
theorem regReadOp_answers (p : Port) (a tag : Nat) (w : Word) (s s1 : State) (h : Reader (portReq p) a s) (h4 : a % 4 = 0)
    (hb : bar0Read (portReq p) a (portWake p (holdTag p tag (memHdr false (barBase s p 0 + a) (List.replicate 4 true) tag false)
      (receipt p s))) = some (w, s1)) :
    regReadOp (portReq p) a 1 tag s = dropTag p tag (sendOut p [.cpl p tag 0 false 4 (a % 128) (bytesLE 4 w.toNat)] s1) := by
  have ha : a / 4 * 4 = a := by omega
  have hreq : reqPort (portReq p) = some p := by unfold reqPort portReq; simp
  obtain ⟨⟨ho, hrx, hbar⟩, hn, hon, hm⟩ := h.2 p hreq
  have hcr : crosses a 4 = false := by unfold crosses; rw [decide_eq_false_iff_not]; omega
  unfold regReadOp; rw [hreq]; dsimp only
  unfold recvNonPosted; rw [ha, ho, hn, Nat.mul_one, hcr]
  generalize memHdr false (barBase s p 0 + a) (List.replicate 4 true) tag false = hd at hb ⊢
  have hrx2 : (holdTag p tag hd (receipt p s)).port[p].rx = [] := by unfold holdTag receipt; rw [modPort_same, modPort_same, hrx]
  have hbar2 : (holdTag p tag hd (receipt p s)).port[p].bar = [] := by unfold holdTag receipt; rw [modPort_same, modPort_same, hbar]
  have hon2 : barOn (holdTag p tag hd (receipt p s)) p = true := by
    have e : (holdTag p tag hd (receipt p s)).port[p].cfg = s.port[p].cfg := by unfold holdTag receipt; rw [modPort_same, modPort_same]
    rw [← hon]; unfold barOn memEn d3hot cfgGet; rw [e]; rfl
  have hm2 : mayRead (portWake p (holdTag p tag hd (receipt p s))) p a = true := by
    rw [← hm]; unfold mayRead; simp [holdTag, receipt]
  simp only [Bool.not_true, Bool.false_eq_true, if_false]
  rw [arrive_free p _ _ hrx2 hbar2 rfl]
  unfold barTake bar0ReadTake; dsimp only
  rw [hon2, hm2, readDws, hb]
  simp only [Bool.not_true, Bool.false_eq_true, if_false, readDws, List.nil_append, List.length_nil, Nat.sub_zero, ha]
  exact complete_word p tag a w s1 h4

/-- A list that has lost no pointer is used without a reset (R211). -/
theorem useList_good (q : Nat) (s : State) (h : ListsGood s) : useList q s = s := by
  have hq : (getQ s.crl q).ptrBad = false := by
    unfold getQ
    have key : ∀ m : SMap Queue, (∀ e ∈ m, e.2.ptrBad = false) → (mget (queueInit q) m q).ptrBad = false := by
      intro m; induction m with
      | nil => intro _; rfl
      | cons e m ih =>
        intro h
        simp only [mget]; split
        · exact h e List.mem_cons_self
        · exact ih fun x hx => h x (List.mem_cons_of_mem _ hx)
    exact key _ h.1
  unfold useList; rw [hq]; rfl

/-- While the bus of a segment needs nothing done, nothing of it is dropped. -/
theorem dropBus_idle (g : Seg) (s : State) (h : BusSettled s g) : dropBus g s = s := by
  have hk : (s.seg[g].owner && hasWork s g) = s.seg[g].owner := by
    cases ho : s.seg[g].owner with
    | false => rfl
    | true => rw [h.1 ho]; rfl
  have hset : ∀ v : SegS, v = s.seg[g] → s.seg.set g v = s.seg := by
    rintro v rfl; apply Vector.ext; intro i hi; rw [Vector.getElem_set]; split
    · rename_i e; subst e; rfl
    · rfl
  unfold dropBus modSeg; dsimp only; rw [hset]
  rw [hk]
  have hl : (if (s.seg[g].owner && !s.seg[g].owner) = true then s.seg[g].busLines % 16 else s.seg[g].busLines) = s.seg[g].busLines := by
    cases s.seg[g].owner <;> rfl
  rw [hl]
  rcases h.2 with hc | ⟨h1, h2⟩
  · rw [hc]; rfl
  · have e1 : (if sysconAct s g = true then s.seg[g].pins.bgOut else 0) = s.seg[g].pins.bgOut := by rw [h1]; split <;> rfl
    have e2 : (sysconAct s g && s.seg[g].pins.bclr) = s.seg[g].pins.bclr := by rw [h2]; exact Bool.and_false _
    rw [e1, e2]

/-- While nothing is queued, nothing moves on at the end of a command. -/
theorem pump_idle (s : State) (h : NothingQueued s) : pump s = s := by
  obtain ⟨ho, hw, hl, hr, ha, hs, hg⟩ := h
  have round : voteRound s = s := by unfold voteRound; rw [ho, hw]; rfl
  have rounds : ∀ n, voteRounds n s = s := by
    intro n; induction n with
    | zero => rfl
    | succ n ih => unfold voteRounds; rw [round, ih]
  have hv : voteUnit s = s := rounds _
  have hm : mailPump s = s := by unfold mailPump; rw [hl]
  have hf : ∀ g, segFlush g s = s := by
    intro g
    obtain ⟨hq, hb⟩ := hg g
    unfold segFlush
    rcases hq with hm | ⟨he, hw⟩
    · rw [hm]; exact dropBus_idle g s hb
    · have hs : shelve g s = s := by unfold shelve; rw [he]
      split
      · exact dropBus_idle g s hb
      · simp only [hs, hw]; exact dropBus_idle g s hb
  unfold pump; rw [hv, hm]; dsimp only
  have e1 : ringPump (listPkts s 23).length s = s := by rw [hr]; rfl
  have e2 : drainAnswers s.rng.answers.length s = s := by rw [ha]; rfl
  rw [e1, e2, hf 0, hf 1]

/-- While no access waits in a slave, nothing of one goes on. -/
theorem endPump_idle (s : State) (h : SlavesFree s) : endPump s = s := by
  have one : ∀ g : Seg, slavePump g (slaveList s g).length s = s := by intro g; rw [(h g).2]; rfl
  have res : ∀ g : Seg, slaveResume g s = s := by intro g; unfold slaveResume; rw [(h g).1]
  unfold endPump slavePumps; dsimp only; rw [res 0, one 0, res 1, one 1]

/-- A header register without G and V fields is written by its class. -/
theorem regWrite_header (r : Req) (k : PageKind) (page off raw : Nat) (d : Word) (s : State) (h : heldIn s r k = none)
    (hf : regFields k off ≠ []) (hx : off ≠ 0x028 ∧ off ≠ 0x030 ∧ off ≠ 0x02C) (hg : hasG k off = false) (hv : hasV k off = false) (ho : off < 0x040) :
    regWrite r k page off raw d s = headerWrite r k page off raw d s := by
  unfold regWrite; rw [if_neg (by omega)]; simp only [breakGuard_none r k page off s h]
  rw [if_neg hf, if_neg (by omega), hg, hv]; simp [ho]

/-- A block register without G and V fields is written by its class. -/
theorem regWrite_block (r : Req) (k : PageKind) (page off raw : Nat) (d : Word) (s : State) (h : heldIn s r k = none)
    (hf : regFields k off ≠ []) (hg : hasG k off = false) (hv : hasV k off = false) (ho : ¬ off < 0x040) :
    regWrite r k page off raw d s = blockWrite r k page off raw d s := by
  unfold regWrite; rw [if_neg (by omega)]; simp only [breakGuard_none r k page off s h]
  rw [if_neg hf, if_neg (by omega), hg, hv]; simp [ho]

/-- How a command whose effect raises no event completes. -/
theorem completes_of {f : State → State} {s : State} {P : State → Prop} (t : State)
    (hf : f (cleared s) = t) (hd : Delivered t) (hP : P t) : ∃ t, run f s = .next t ∧ P t := by
  subst hf; exact ⟨_, run_calm f s hd, hP⟩

/-- A write of a header register without G and V fields, with every right. -/
theorem write_header (r : Req) (k : PageKind) (off : Nat) (d : Word) (s : State) (hw : Writer r s) (hp : FreePage r k s) (ho : off < 0x040)
    (h4 : off % 4 = 0) (hi : off ≠ 0x024) (hf : regFields k off ≠ []) (hx : off ≠ 0x028 ∧ off ≠ 0x030 ∧ off ≠ 0x02C)
    (hg : hasG k off = false) (hv : hasV k off = false) :
    bar0Write r (regAddr k off) true d s = headerWrite r k k.num off off d (landed r s) := by
  rw [bar0Write_reg r k off d s hw hp.1 (by omega) h4 hi,
    regWrite_header r k _ _ _ d _ ((heldIn_landed r r k s).trans hp.2) hf hx hg hv ho]

/-- A write of a block register without G and V fields, with every right. -/
theorem write_block (r : Req) (k : PageKind) (off : Nat) (d : Word) (s : State) (hw : Writer r s) (hp : FreePage r k s) (ho : off < 0x400)
    (hl : 0x040 ≤ off) (h4 : off % 4 = 0) (hf : regFields k off ≠ []) (hg : hasG k off = false) (hv : hasV k off = false) :
    bar0Write r (regAddr k off) true d s = blockWrite r k k.num off off d (landed r s) := by
  rw [bar0Write_reg r k off d s hw hp.1 ho h4 (by omega),
    regWrite_block r k _ _ _ d _ ((heldIn_landed r r k s).trans hp.2) hf hg hv (by omega)]

end Sys2Proof.Machine
end

