-- ==== Sys2Proof/Laws/Complete.lean ====
section
/-!
SUPPORT. How the statements' frames are shown: which fields `RestSame` compares, and when a raised event is seen in the EVENT bits.
-/

namespace Sys2Proof.Machine

open Sys2Proof

/-- The fields that `RestSame` compares. -/
theorem restSame_iff (s t : State) : RestSame s t ↔
    SameStill s t ∧ SameUnits s t ∧ SamePlant s t ∧ t.vot = s.vot ∧ t.alm = s.alm ∧ t.tap = s.tap ∧ t.port = portsBut s t := by
  unfold RestSame
  constructor
  · intro h; rw [h]; simp [portsBut]
  · rintro ⟨⟨h1, h2, h3, h4⟩, ⟨h5, h6, h7, h8⟩, ⟨h9, h10, h11, h12⟩, h13, h14, h15, h16⟩
    rw [← h1, ← h2, ← h3, ← h4, ← h5, ← h6, ← h7, ← h8, ← h9, ← h10, ← h11, ← h12, ← h13, ← h14, ← h15, ← h16]

/-- Ports that are unchanged differ in no link state. -/
theorem portsBut_same {s t : State} (h : t.port = s.port) : t.port = portsBut s t := by
  apply Vector.ext; intro i hi; simp [portsBut, h]

/-- An event that an effect raised is set when the command has ended. -/
theorem event_seen {ev : Nat} {k : PageKind} {b : Nat} {x : State} (he : eventPage ev = some (k, b)) (hr : x.pwr.boot ≠ .inReset)
    (h : ∃ o ∈ x.evh.occ, o.ev = ev) : EventSet (settle x) ev := settle_event ev k b x hr he h

theorem cpEv_page (p : Port) (b : Nat) (h : b < 8) : eventPage (cpEv p b) = some (.cp p, b) := by
  fin_cases p <;> interval_cases b <;> rfl

theorem segEv_page (g : Seg) (b : Nat) (h : b < 15) : eventPage (segEv g b) = some (.ls g, b) := by
  fin_cases g <;> interval_cases b <;> rfl

/-- A raised event is among the occurrences. -/
@[simp] theorem raise_has (ev : Nat) (s : State) : (∃ o ∈ (raise ev s).evh.occ, o.ev = ev) ↔ True := by
  simp only [iff_true]; exact raise_mem ev s
@[simp] theorem raiseD_has (ev : Nat) (a b : Word) (s : State) : (∃ o ∈ (raiseD ev a b s).evh.occ, o.ev = ev) ↔ True := by
  simp only [iff_true]; exact raiseD_mem ev a b s

/-! What a command finds -/

/-- The last outputs are gone; nothing else differs. -/
@[simp] theorem cleared_same (s : State) : OnlyOut s (cleared s) ∧ (cleared s).out = [] := by simp [cleared]

theorem run_cleared (f : State → State) (s : State) : run f s = .next (settle (f (cleared s))) := rfl

/-! One element of a vector -/

/-- Another element is the one before. -/
theorem set_other {α : Type} {n : Nat} (v : Vector α n) (i j : Fin n) (x : α) (h : j ≠ i) : (v.set i x)[j] = v[j] := by
  have : (i : Nat) ≠ j := fun e => h (Fin.ext e.symm)
  simp [this]

theorem modPort_other (p q : Port) (f : PortS → PortS) (s : State) (h : q ≠ p) : (modPort p f s).port[q] = s.port[q] := set_other _ _ _ _ h
theorem modSeg_other (g h : Seg) (f : SegS → SegS) (s : State) (e : h ≠ g) : (modSeg g f s).seg[h] = s.seg[h] := set_other _ _ _ _ e
theorem modCh_other (c d : Port) (f : Chan → Chan) (s : State) (h : d ≠ c) : (modCh c f s).ch[d] = s.ch[d] := set_other _ _ _ _ h
theorem modPort_self (p : Port) (f : PortS → PortS) (s : State) : (modPort p f s).port[p] = f s.port[p] := by simp [modPort]
theorem modSeg_self (g : Seg) (f : SegS → SegS) (s : State) : (modSeg g f s).seg[g] = f s.seg[g] := by simp [modSeg]
theorem modCh_self (c : Port) (f : Chan → Chan) (s : State) : (modCh c f s).ch[c] = f s.ch[c] := by simp [modCh]

end Sys2Proof.Machine
end

