-- ==== Sys2Proof/Laws/Chan.lean ====
section
/-!
SUPPORT. What the changes of channel states leave of a channel (R124, R129, R151).
-/

namespace Sys2Proof.Machine

open Sys2Proof

/-- What of a channel no change of channel states touches: APSEQ.K, the epoch, and whether it is aligned. -/
def chanCore (s : State) (c : Port) := (s.ch[c].k, s.ch[c].epoch, s.ch[c].aligned)
theorem setChState_core (c d : Port) (st) (s : State) : chanCore (setChState d st s) c = chanCore s c := by
  unfold setChState chanCore; split
  · rfl
  · by_cases h : c = d
    · subst h; simp only [raise, raiseD, modCh_self]
    · simp only [raise, raiseD, modCh_other _ _ _ _ h]
theorem becomeReady_core (c d) (s : State) : chanCore (becomeReady d s) c = chanCore s c := by
  have : chanCore (becomeReady d s) c = chanCore (setChState d .ready (modCh d (fun x => { x with matchCnt := 0 }) s)) c := rfl
  rw [this, setChState_core]; unfold chanCore
  by_cases h : c = d
  · subst h; simp only [modCh_self]
  · simp only [modCh_other _ _ _ _ h]
theorem observersReady_core (c) (s : State) : chanCore (observersReady s) c = chanCore s c := by
  unfold observersReady; split
  · rfl
  · refine foldl_keeps (fun s => chanCore s c) _ ?_ _ s
    intro s d; split
    · exact becomeReady_core _ _ _
    · rfl
theorem promoteAll_core (c n) (s : State) : chanCore (promoteAll n s) c = chanCore s c := by
  induction n generalizing s with
  | zero => rfl
  | succ n ih =>
    unfold promoteAll; split
    · rw [ih]; exact setChState_core _ _ _ _
    · rfl
theorem core_congr (c) {s t : State} (h : t.ch = s.ch) : chanCore t c = chanCore s c := by unfold chanCore; rw [h]
theorem settleChannels_core (c) (s : State) : chanCore (settleChannels s) c = chanCore s c := by
  unfold settleChannels; dsimp only
  have hr : ∀ s : State, chanCore (retryFreezes s) c = chanCore s c := fun s => core_congr c (by simp)
  have he : ∀ s : State, chanCore (evalMode s) c = chanCore s c := fun s => core_congr c (by simp)
  simp only [hr, he, observersReady_core, promoteAll_core]
/-- A FENCED channel stays FENCED while the channels settle. -/
theorem setChState_fenced (c d : Port) (st) (s : State) (h : s.ch[c].st = .fenced) (hd : s.ch[d].st ≠ .fenced) : (setChState d st s).ch[c].st = .fenced := by
  unfold setChState; split
  · exact h
  · have : c ≠ d := by rintro rfl; exact hd h
    simp only [raise, raiseD, modCh_other _ _ _ _ this, h]
theorem settleChannels_fenced (c : Port) (s : State) (h : s.ch[c].st = .fenced) : (settleChannels s).ch[c].st = .fenced := by
  have hp : ∀ n (s : State), s.ch[c].st = .fenced → (promoteAll n s).ch[c].st = .fenced := by
    intro n; induction n with
    | zero => intro s h; exact h
    | succ n ih =>
      intro s h
      rcases hd : promotable s with _ | d
      · have e : promoteAll (n + 1) s = s := by simp only [promoteAll, hd]
        rw [e]; exact h
      · have e : promoteAll (n + 1) s = promoteAll n (raise 52 (setChState d .active s)) := by simp only [promoteAll, hd]
        rw [e]; apply ih
        have hr : s.ch[d].st = .ready := by
          unfold promotable at hd; split at hd
          · dsimp only at hd; split at hd
            · rename_i x hx; cases hd; have := List.mem_of_find?_eq_some hx; simp at this; simpa using this.2
            · have := List.mem_of_head? hd; simp at this; simpa using this.2
          · cases hd
        exact setChState_fenced c d .active s h (by rw [hr]; decide)
  have ho : ∀ (s : State), s.ch[c].st = .fenced → (observersReady s).ch[c].st = .fenced := by
    intro s h; unfold observersReady; split
    · exact h
    · have : ∀ (l : List Port) (s : State), s.ch[c].st = .fenced → (l.foldl (fun s c => if s.ch[c].st == .observer then becomeReady c s else s) s).ch[c].st = .fenced := by
        intro l; induction l with
        | nil => intro s h; exact h
        | cons d l ih =>
          intro s h; simp only [List.foldl_cons]; apply ih; split
          · rename_i hd
            have hdc : c ≠ d := by rintro rfl; rw [h] at hd; cases hd
            unfold becomeReady
            show (setChState d .ready (modCh d _ s)).ch[c].st = .fenced
            unfold setChState; split
            · rw [modCh_other _ _ _ _ hdc]; exact h
            · simp only [raise, raiseD, modCh_other _ _ _ _ hdc]; exact h
          · exact h
      exact this _ _ h
  have he : ∀ (s : State), (evalMode s).ch = s.ch := by intro s; simp
  unfold settleChannels; dsimp only
  rw [(by intro s; simp : ∀ s : State, (retryFreezes s).ch = s.ch)]
  have round : ∀ s : State, s.ch[c].st = .fenced → (observersReady (evalMode (promoteAll 3 s))).ch[c].st = .fenced := by
    intro s h; apply ho; rw [he]; exact hp _ _ h
  exact round _ (round _ (round _ h))

end Sys2Proof.Machine
end

