-- ==== Sys2Proof/Laws/Fuses.lean ====
section
/-!
SUPPORT. No operation unblows a fuse or changes the unique ID (R394): the operations that write the life-cycle state keep the fuses, but
for the end of a fuse programming and a reset, which only blow them.
-/

namespace Sys2Proof.Machine

open Sys2Proof

/-- The fuses and the unique ID are those before. -/
@[simp] abbrev SameFuses (s t : State) : Prop := t.lcc.uid = s.lcc.uid ∧ t.lcc.uidLock = s.lcc.uidLock ∧
    t.lcc.commissioned = s.lcc.commissioned ∧ t.lcc.retired = s.lcc.retired

@[simp] theorem lcRefuse_fuses (r : Req) (code : Nat) (raw : Nat) (v : Word) (s : State) :
    SameFuses s (lcRefuse r code raw v s) := by simp [lcRefuse]

@[simp] theorem setLife_fuses (st : LifeState) (s : State) : SameFuses s (setLife st s) := by simp [setLife]

@[simp] theorem lcCommissioning_fuses (r : Req) (raw : Nat) (v : Word) (s : State) :
    SameFuses s (lcCommissioning r raw v s) := by
  unfold lcCommissioning; (try dsimp only); (repeat' split) <;> simp [*]

@[simp] theorem lcService_fuses (r : Req) (raw : Nat) (v : Word) (s : State) : SameFuses s (lcService r raw v s) := by
  unfold lcService; (try dsimp only); (repeat' split) <;> simp [*]

@[simp] theorem lcMaintenance_fuses (r : Req) (raw : Nat) (v : Word) (s : State) : SameFuses s (lcMaintenance r raw v s) := by
  unfold lcMaintenance; (try dsimp only); (repeat' split) <;> simp [*]

@[simp] theorem lcRetired_fuses (r : Req) (raw : Nat) (v : Word) (s : State) : SameFuses s (lcRetired r raw v s) := by
  unfold lcRetired; (try dsimp only); (repeat' split) <;> simp [*]

@[simp] theorem sealCmd_fuses (r : Req) (op : Nat) (raw : Nat) (v : Word) (s : State) :
    SameFuses s (sealCmd r op raw v s) := by
  unfold sealCmd; (try dsimp only); (repeat' split) <;> simp [*]

@[simp] theorem lcCommand_fuses (r : Req) (raw : Nat) (v : Word) (s : State) : SameFuses s (lcCommand r raw v s) := by
  unfold lcCommand; (try dsimp only); (repeat' split) <;> simp [*]

@[simp] theorem guardEffect_fuses (r : Req) (k : PageKind) (off : Nat) (raw : Nat) (d : Word) (s : State) :
    SameFuses s (guardEffect r k off raw d s) := by
  unfold guardEffect; (try dsimp only); (repeat' split) <;> simp [*]

@[simp] theorem resetState_fuses (cause : Nat) (s : State) : FusesKept s (resetState cause s) := by
  unfold resetState; (try dsimp only); (repeat' split) <;> simp +contextual [*]

@[simp] theorem deviceReset_fuses (cause : Nat) (s : State) : FusesKept s (deviceReset cause s) := by
  unfold deviceReset; (try dsimp only); (repeat' split) <;> simp +contextual [*]

@[simp] theorem pcmdWrite_fuses (r : Nat) (raw : Nat) (v : Word) (s : State) : FusesKept s (pcmdWrite r raw v s) := by
  unfold pcmdWrite; (try dsimp only); (repeat' split) <;> simp +contextual [*]

@[simp] theorem voteEffect_fuses (r : Nat) (k : PageKind) (off : Nat) (raw : Nat) (v : DWord) (s : State) :
    FusesKept s (voteEffect r k off raw v s) := by
  unfold voteEffect; (try dsimp only); (repeat' split) <;> simp +contextual [*]

@[simp] theorem voteTake_fuses (d : Port) (c : Port) (kd : Word) (kc : Word) (k : PageKind) (off : Nat) (raw : Nat) (v :
    DWord) (s : State) :
    FusesKept s (voteTake d c kd kc k off raw v s) := by
  unfold voteTake; (try dsimp only); (repeat' split) <;> simp +contextual [*]

@[simp] theorem voteIn_fuses (c : Port) (k : PageKind) (off : Nat) (raw : Nat) (d : Word) (v : DWord) (s : State) :
    FusesKept s (voteIn c k off raw d v s) := by
  unfold voteIn; (try dsimp only); (repeat' split) <;> simp +contextual [*]

@[simp] theorem voteArrive_fuses (r : Req) (k : PageKind) (off : Nat) (raw : Nat) (d : Word) (v : DWord) (s : State) :
    FusesKept s (voteArrive r k off raw d v s) := by
  unfold voteArrive; (try dsimp only); (repeat' split) <;> simp +contextual [*]

@[simp] theorem voteWord_fuses (r : Req) (k : PageKind) (off : Nat) (raw : Nat) (d : Word) (s : State) :
    FusesKept s (voteWord r k off raw d s) := by
  simp only [voteWord, writeWide]; (try dsimp only); (repeat' split) <;> simp +contextual [*]

@[simp] theorem guardOp_fuses (r : Req) (k : PageKind) (page : Nat) (raw : Nat) (d : Word) (s : State) :
    FusesKept s (guardOp r k page raw d s) := by
  unfold guardOp; (try dsimp only); (repeat' split) <;> simp +contextual [*]

@[simp] theorem blockWrite_fuses (r : Req) (k : PageKind) (page : Nat) (off : Nat) (raw : Nat) (d : Word) (s : State) :
    SameFuses s (blockWrite r k page off raw d s) := by
  simp only [blockWrite, writeWide]; (try dsimp only); (repeat' split) <;> simp [*]

@[simp] theorem regWrite_fuses (r : Req) (k : PageKind) (page : Nat) (off : Nat) (raw : Nat) (d : Word) (s : State) :
    FusesKept s (regWrite r k page off raw d s) := by
  unfold regWrite; (try dsimp only); (repeat' split) <;> simp +contextual [*]

@[simp] theorem pageWrite_fuses (r : Req) (k : PageKind) (page : Nat) (raw : Nat) (full : Bool) (d : Word) (s : State) :
    FusesKept s (pageWrite r k page raw full d s) := by
  unfold pageWrite; (try dsimp only); (repeat' split) <;> simp +contextual [*]

@[simp] theorem bar0Word_fuses (r : Req) (addr : Nat) (full : Bool) (d : Word) (s : State) :
    FusesKept s (bar0Word r addr full d s) := by
  simp only [bar0Word, arrayRight]; (try dsimp only); (repeat' split) <;> simp +contextual [*]

@[simp] theorem bar0WriteTake_fuses (p : Port) (a : Nat) (en : List Bool) (d : Word) (poisoned : Bool) (s : State) :
    FusesKept s (bar0WriteTake p a en d poisoned s).2 := by
  unfold bar0WriteTake; (try dsimp only); (repeat' split) <;> simp +contextual [*]

theorem bar0WriteTake_fuses_pair {p : Port} {a : Nat} {en : List Bool} {d : Word} {poisoned : Bool} {s : State} {y0 : Option
    RxTlp} {t1 : State} (h : bar0WriteTake p a en d poisoned s = (y0, t1)) :
    FusesKept s t1 := by
  have k := bar0WriteTake_fuses p a en d poisoned s
  rw [h] at k; exact k

@[simp] theorem barTake_fuses (p : Port) (x : RxTlp) (s : State) : FusesKept s (barTake p x s).2 := by
  unfold barTake; (try dsimp only); (repeat' split) <;> (try have hk_bar0ReadTake := bar0ReadTake_pair ‹_›) <;>
        (try have hk_bar0WriteTake := bar0WriteTake_fuses_pair ‹_›) <;> simp +contextual [*]

theorem barTake_fuses_pair {p : Port} {x : RxTlp} {s : State} {y0 : Option RxTlp} {t1 : State} (h : barTake p x s = (y0, t1))
    :
    FusesKept s t1 := by
  have k := barTake_fuses p x s
  rw [h] at k; exact k

@[simp] theorem drainBar_fuses (p : Port) (x1 : Nat) (x2 : State) : FusesKept x2 (drainBar p x1 x2) := by
  induction x1 generalizing x2 with
  | zero => (unfold drainBar; simp)
  | succ n ih => (unfold drainBar; (repeat' split) <;> (try have hk_barTake := barTake_fuses_pair ‹_›) <;> simp +contextual [*])

@[simp] theorem barIn_fuses (p : Port) (x : RxTlp) (s : State) : FusesKept s (barIn p x s) := by simp +contextual [barIn]

theorem takeRx_fuses {p : Port} {x : RxTlp} {s : State} {t1 : State} (h : takeRx p x s = some t1) : FusesKept s t1 := by
  unfold takeRx at h
  split at h <;> first
    | (have k := takeWrite_keeps h; simp [k]; done)
    | (cases h; (try split) <;> simp +contextual)

@[simp] theorem arrive_fuses (p : Port) (x : RxTlp) (s : State) : FusesKept s (arrive p x s) := by
  unfold arrive; (try dsimp only); (repeat' split) <;> (try have hk_takeRx := takeRx_fuses ‹_›) <;> simp +contextual [*]

@[simp] theorem recvPosted_fuses (p : Port) (a : Nat) (n : Nat) (x3 : Hdr) (x : RxTlp) (s : State) :
    FusesKept s (recvPosted p a n x3 x s) := by
  unfold recvPosted; (try dsimp only); (repeat' split) <;> simp +contextual [*]

@[simp] theorem bar0WriteOp_fuses (p : Port) (a : Nat) (en : List Bool) (d : Word) (poisoned : Bool) (s : State) :
    FusesKept s (bar0WriteOp p a en d poisoned s) := by simp +contextual [bar0WriteOp]

@[simp] theorem bar0Write_fuses (r : Req) (addr : Nat) (full : Bool) (d : Word) (s : State) :
    FusesKept s (bar0Write r addr full d s) := by
  unfold bar0Write; (try dsimp only); (repeat' split) <;> simp +contextual [*]

@[simp] theorem twoWrites_fuses (r : Req) (k : PageKind) (off : Nat) (d : Word) (s : State) :
    FusesKept s (twoWrites r k off d s) := by simp +contextual [twoWrites]

@[simp] theorem almRow_fuses (r : Req) (op : Nat) (s : State) : FusesKept s (almRow r op s) := by
  simp only [almRow, guarded]; (try dsimp only); (repeat' split) <;> simp +contextual [*]

@[simp] theorem recvNonPosted_fuses (p : Port) (a : Nat) (n : Nat) (tag : Nat) (x4 : Hdr) (x : RxTlp) (s : State) :
    FusesKept s (recvNonPosted p a n tag x4 x s) := by
  unfold recvNonPosted; (try dsimp only); (repeat' split) <;> simp +contextual [*]

@[simp] theorem bar2ReadOp_fuses (p : Port) (off : Nat) (n : Nat) (tag : Nat) (s : State) :
    FusesKept s (bar2ReadOp p off n tag s) := by simp +contextual [bar2ReadOp]

@[simp] theorem bar2WriteOp_fuses (p : Port) (off : Nat) (bs : List Byte) (en : List Bool) (poisoned : Bool) (s : State) :
    FusesKept s (bar2WriteOp p off bs en poisoned s) := by simp +contextual [bar2WriteOp]

@[simp] theorem bar4ReadOp_fuses (p : Port) (pat : Nat) (off : Nat) (n : Nat) (en : List Bool) (tag : Nat) (s : State) :
    FusesKept s (bar4ReadOp p pat off n en tag s) := by simp +contextual [bar4ReadOp]

@[simp] theorem bar4WriteOp_fuses (p : Port) (pat : Nat) (off : Nat) (bs : List Byte) (en : List Bool) (poisoned : Bool)
    (ecrcBad : Bool) (s : State) :
    FusesKept s (bar4WriteOp p pat off bs en poisoned ecrcBad s) := by
  unfold bar4WriteOp; (try dsimp only); (repeat' split) <;> simp +contextual [*]

@[simp] theorem drainRx_fuses (p : Port) (x1 : Nat) (x2 : State) : FusesKept x2 (drainRx p x1 x2) := by
  induction x1 generalizing x2 with
  | zero => (unfold drainRx; simp)
  | succ n ih => (unfold drainRx; (repeat' split) <;> (try have hk_takeRx := takeRx_fuses ‹_›) <;> simp +contextual [*])

@[simp] theorem claimGrant_fuses (p : Port) (s : State) : FusesKept s (claimGrant p s) := by simp +contextual [claimGrant]

@[simp] theorem clkfailOp_fuses (s : State) : FusesKept s (clkfailOp s) := by simp +contextual [clkfailOp]

@[simp] theorem configOp_fuses (p : Port) (dw : Nat) (write : Bool) (be : BitVec 4) (d : Word) (tag : Nat) (s : State) :
    FusesKept s (configOp p dw write be d tag s) := by simp +contextual [configOp]

@[simp] theorem drainBars_fuses (s : State) : FusesKept s (drainBars s) := by
  have fold : ∀ (l : List Port) (s : State), FusesKept s (l.foldl (fun s p => drainBar p s.port[p].bar.length s) s) := by
    intro l; induction l with
    | nil => intro s; simp
    | cons p l ih =>
      intro s
      have h1 := ih (drainBar p s.port[p].bar.length s)
      have h2 := drainBar_fuses p s.port[p].bar.length s
      rw [List.foldl_cons]
      exact ⟨fun h => h1.1 (h2.1 h), fun h => h1.2.1 (h2.2.1 h), h1.2.2.1.trans h2.2.2.1, h1.2.2.2.trans h2.2.2.2⟩
  unfold drainBars; generalize allPorts = l; exact fold l s

@[simp] theorem flrIn_fuses (p : Port) (s : State) : FusesKept s (flrIn p s) := by
  unfold flrIn; (try dsimp only); (repeat' split) <;> simp +contextual [*]

@[simp] theorem flushReadOp_fuses (p : Port) (tag : Nat) (s : State) :
    FusesKept s (flushReadOp p tag s) := by simp +contextual [flushReadOp]

@[simp] theorem fuseDone_fuses (ok : Bool) (s : State) : FusesKept s (fuseDone ok s) := by
  unfold fuseDone; (try dsimp only); (repeat' split) <;> simp +contextual [*]

@[simp] theorem guardedPair_fuses (off : Nat) (d : Word) (s : State) :
    FusesKept s (guardedPair off d s) := by simp +contextual [guardedPair]

@[simp] theorem sealWritten_fuses (s : State) : SameFuses s (sealWritten s) := by
  unfold sealWritten; (try dsimp only); (repeat' split) <;> simp [*]

@[simp] theorem sealRead_fuses (s : State) : SameFuses s (sealRead s) := by
  unfold sealRead; (try dsimp only); (repeat' split) <;> simp [*]

@[simp] theorem identityRead_fuses (s : State) : SameFuses s (identityRead s) := by simp [identityRead]

theorem indTimeoutHead_fuses {p : Port} {k : PageKind} {page : Nat} {s : State} {t1 : State} (h : indTimeoutHead p k page s =
    some t1) :
    FusesKept s t1 := by
  unfold indTimeoutHead at h; (try dsimp only at h); (repeat' split at h) <;> simp at h <;> (try obtain ⟨rfl⟩ := h) <;> simp_all

@[simp] theorem indTimeoutOp_fuses (r : Req) (page : Nat) (write : Bool) (d : Word) (tag : Nat) (s : State) :
    FusesKept s (indTimeoutOp r page write d tag s) := by
  unfold indTimeoutOp; (try dsimp only); (repeat' split) <;> (try have hk_indTimeoutHead := indTimeoutHead_fuses ‹_›) <;>
        simp +contextual [*]

@[simp] theorem indTimeoutAny_fuses (r : Req) (page : Nat) (write : Bool) (d : Word) (tag : Nat) (s : State) :
    FusesKept s (indTimeoutAny r page write d tag s) := by
  unfold indTimeoutAny; (try dsimp only); (repeat' split) <;> simp +contextual [*]

@[simp] theorem lcFinish_fuses (s : State) : SameFuses s (lcFinish s) := by
  unfold lcFinish; (try dsimp only); (repeat' split) <;> simp [*]

@[simp] theorem lcRow_fuses (r : Req) (op : Nat) (confirm : Nat) (s : State) : FusesKept s (lcRow r op confirm s) := by
  simp only [lcRow, guarded]; (try dsimp only); (repeat' split) <;> simp +contextual [*]

@[simp] theorem mntDone_fuses (s : State) : FusesKept s (mntDone s) := by
  unfold mntDone; (try dsimp only); (repeat' split) <;> (try have hk_bar0Read := bar0Read_keeps ‹_›) <;> simp +contextual [*]

@[simp] theorem presenceExpire_fuses (s : State) : SameFuses s (presenceExpire s) := by
  unfold presenceExpire; (try dsimp only); (repeat' split) <;> simp [*]

@[simp] theorem presenceOff_fuses (s : State) : SameFuses s (presenceOff s) := by simp [presenceOff]

@[simp] theorem presenceOn_fuses (s : State) : SameFuses s (presenceOn s) := by
  unfold presenceOn; (try dsimp only); (repeat' split) <;> simp [*]

@[simp] theorem recoverOp_fuses (s : State) : SameFuses s (recoverOp s) := by
  unfold recoverOp; (try dsimp only); (repeat' split) <;> simp [*]

@[simp] theorem regReadOp_fuses (r : Req) (addr : Nat) (n : Nat) (tag : Nat) (s : State) :
    FusesKept s (regReadOp r addr n tag s) := by
  unfold regReadOp; (try dsimp only); (repeat' split) <;> (try have hk_bar0Read := bar0Read_keeps ‹_›) <;> simp +contextual [*]

@[simp] theorem sealBreak_fuses (s : State) : SameFuses s (sealBreak s) := by
  unfold sealBreak; (try dsimp only); (repeat' split) <;> simp [*]

@[simp] theorem sealCheckOp_fuses (sampled : BitVec 16) (s : State) : SameFuses s (sealCheckOp sampled s) := by
  unfold sealCheckOp; (try dsimp only); (repeat' split) <;> simp [*]

@[simp] theorem unsupportedIn_fuses (p : Port) (k : UrKind) (tag : Nat) (s : State) :
    FusesKept s (unsupportedIn p k tag s) := by
  unfold unsupportedIn; (try dsimp only); (repeat' split) <;> simp +contextual [*]

@[simp] theorem votedPcmd_fuses (v : Word) (s : State) : FusesKept s (votedPcmd v s) := by simp +contextual [votedPcmd]

@[simp] theorem votedWriteOp_fuses (c : Port) (k : PageKind) (raw : Nat) (v : Word) (s : State) :
    FusesKept s (votedWriteOp c k raw v s) := by
  unfold votedWriteOp; (try dsimp only); (repeat' split) <;> simp +contextual [*]

@[simp] theorem wipeDone_fuses (s : State) : SameFuses s (wipeDone s) := by
  unfold wipeDone; (try dsimp only); (repeat' split) <;> simp [*]

end Sys2Proof.Machine
end

