-- ==== Sys2Proof/WellFormed.lean ====
section
/-!
DEFINITION. Well-formed commands: the operands that a command of the spec can have. The machine runs every term of `Instr`; this check
says which of them stand for something that can happen at the pins.
-/

namespace Sys2Proof

/-- The length of a memory request that a TLP can state: 1 to 4,096 bytes (Table 4.1). -/
def lengthOk (len : Nat) : Bool := decide (0 < len) && decide (len ≤ 4096)

/-- The payload of a memory write: one enable per byte. What R95 calls malformed can arrive all the same. -/
def payloadOk (data : List Byte) (be : List Bool) : Bool := lengthOk data.length && be.length == data.length

/-- A frame of type `typ` of Table 10.3 with at most 2,048 payload bytes (R298). -/
def frameOk (typ : BitVec 4) (f : Frame) : Bool := f.typ == typ && decide (f.payload.length ≤ 2048)

/-- A slave cycle of a direction, with the bytes it carries. -/
def slaveOk (c : SlaveCyc) (write : Bool) : Bool := c.write == write && decide (0 < c.size) && decide (c.size ≤ 2048)

/-- A page register offset is a word's address. -/
def wordAddr {n : Nat} (a : BitVec n) : Bool := a.toNat % 4 == 0

/-- The operands of a command are those of a command of the spec. -/
def wellFormed (i : Instr) : Bool :=
  match i with
  | .unassignedPageWrite _ addr _ => wordAddr addr
  | .registerWrite _ addr _ _ => wordAddr addr
  | .registerRead r addr q => wordAddr addr && decide (1 ≤ q.dws) && decide (q.dws ≤ (if r.val = 4 then 1 else 1024))
  | .guardedValueWrite _ _ off _ => wordAddr off
  | .votedWrite _ _ off _ => wordAddr off
  | .votedEntryExpire _ _ off => wordAddr off
  | .bitAliasWrite _ addr _ => wordAddr addr
  | .userPageRead _ off _ => wordAddr off
  | .ovfClear _ addr _ => wordAddr addr
  | .mntReadStatus _ f _ => decide (3 ≤ f.cmd.toNat)
  | .bar2Read _ _ len _ => lengthOk len
  | .bar2Write _ _ data be _ => payloadOk data be
  | .bar4Write _ _ _ data be _ _ => payloadOk data be
  | .bar4Read _ _ _ q _ => lengthOk q.len && q.be.length == q.len
  | .dlUp _ speed width _ => (1 ≤ speed.toNat && speed.toNat ≤ 4) && [1, 2, 4].contains width.toNat
  | .linkSpeedWidthChange _ speed width => (1 ≤ speed.toNat && speed.toNat ≤ 4) && [1, 2, 4].contains width.toNat
  | .imageWindowWrite _ c data => slaveOk c true && data.length == c.size
  | .forwardWindowWrite _ c data => slaveOk c true && data.length == c.size
  | .imageWindowRead _ c => slaveOk c false
  | .forwardedRead _ c => slaveOk c false
  | .delayedReadRepeat _ c => slaveOk c false
  | .iackCycle _ level _ => decide (1 ≤ level.toNat)
  | .handlerServe _ level => decide (1 ≤ level.toNat)
  | .gapWaitExpire _ place => place != .scheduled
  | .dataFrameReceive _ _ f => frameOk 1 f
  | .syncFrameReceive _ _ _ f => frameOk 2 f
  | .coldstartFrameReceive _ f => frameOk 3 f
  | .inaugFrameReceive _ f => frameOk 4 f
  | .resultFrameReceive _ f => frameOk 5 f
  | .memberLoss n => decide (n.toNat ≤ 64)
  | .takeover n => decide (n.toNat ≤ 64)
  | .release n => decide (n.toNat ≤ 64)
  | .remoteRequestReceive b _ => b.hdr.length == 16
  | .remoteResponseReceive b _ => b.hdr.length == 16
  | .remCmd hdr => hdr.length == 16
  | .irqGenAssert .. => true
  | .unsupportedRequest .. | .malformedTlp .. | .eventAck .. | .lockWrite .. | .indDataRead .. | .indDataWrite .. => true
  | .indirectTimeout .. | .guardWrite .. | .guardTimeout .. | .update .. | .group7UpdateApply | .snap .. => true
  | .mntRead .. | .mntWrite .. | .mntGuardedWrite .. | .mntAccessDone | .legCmdGo .. | .legDone | .configRequest .. => true
  | .flushRead .. | .flushReadComplete .. | .bar4TlpClaimGrant .. | .pushStart .. | .pushDone .. | .perst .. => true
  | .hotReset .. | .dlDown .. | .flr .. | .portReady .. | .l1Entry .. | .l1Exit .. | .pmeTurnOff .. | .rejoin .. => true
  | .matchEntryExpire .. | .closedEntryRetire .. | .fenceCmd .. | .modeCmdAuto | .modeCmdSelect1oo1 .. => true
  | .admissionEnd | .noMajority .. | .thirdCopyCompareDone .. | .thirdCopyMissing .. | .observerCompareDone .. => true
  | .divergentClear .. | .commit .. | .sysresetIn .. | .busGrant .. | .busReleaseRequest .. | .legacyTransferStart .. => true
  | .dtackSeen .. | .berrSeen .. | .retrySeen .. | .retryGapExpire .. | .bto .. | .strobeHoldResume .. | .trunc .. => true
  | .slaveClaimTimeout .. | .continuedIssue .. | .forwardedReadTimeout .. | .drDiscard .. | .crcsrAccess .. | .gaErr .. => true
  | .busRequestArbitrate .. | .sysresetDriveEnd | .sysfailIn .. | .acfail .. | .wake .. | .segmentStop .. => true
  | .qPop .. | .qCmdDrop .. | .dropDone .. | .reclaimDone | .arbCommit .. | .loomCycleStart | .legacyEntry .. => true
  | .ringTxEntry .. | .ringRxEntry .. | .ringRxWindowClose .. | .syncEntry .. | .powerOnEntry .. | .powerOffEntry .. => true
  | .almStop | .mark .. | .deadline .. | .skip .. | .gapOverrun .. | .load .. | .loadClear .. | .loadDone => true
  | .checkCmd .. | .checkDone | .arm .. | .armed .. | .disarm | .switched | .freeze .. | .commitRunDone | .wdog => true
  | .restartWarm | .restartCold | .restartStop | .restartDone | .forceSet .. | .forceClear .. | .forceClearAll => true
  | .linkLoss .. | .linkOk .. | .coldstartEntry | .coldstartSend | .inaugReturnTimeout | .unwrap .. => true
  | .ringCmdInaugurate | .ringCmdWithdraw | .ringCmdRelease | .ringCmdRemoteWithdraw .. | .ringCmdRemoteRelease .. => true
  | .remTimeout .. | .remoteWriteFragmentTimeout .. | .relayHoldExpire .. | .listenSyncSend | .resync .. => true
  | .slewDone | .epochCmd | .logCellClose | .logRecordStore | .replSkip .. | .logStart | .clkfail | .sysPllUnlock => true
  | .serdesPllUnlock | .phyPllUnlock .. | .xto .. | .pcmdRun | .pcmdListen | .pcmdHold | .pcmdReset | .pstateChg => true
  | .coreGate | .powerOnReset | .vddioReset | .vddReset | .resetIn | .resetRelease .. | .sysPllLock | .wipeDone => true
  | .portsOpen | .warn .. | .retainSaveStart | .retainSaved | .recover | .lcToCommissioning .. | .lcToService .. => true
  | .lcToMaintenance .. | .lcToRetired .. | .sealArm .. | .sealDisarm .. | .sealClear .. | .fuseVerifyDone .. => true
  | .lcAlert | .presenceAssert | .presenceRelease | .presenceTimeout | .sealCheck .. | .writeWeave .. => true
  | .weaveStreamGapTimeout | .invalidateWeave .. | .saveRetain .. | .invalidateRetain .. | .writeIdent .. => true
  | .almAbort .. | .opDone | .refreshStep | .scrubVisit .. | .tapUpdateIr .. | .tapReset | .resetCauseEnd .. => true
  | .serdesPllLock | .phyPllLock .. | .perstRelease .. | .recoveryTimeStart | .warningReturnInHold .. => true
  | .vmonSupplyLow .. | .vmonSupplyOk .. | .unexpectedCompletion .. | .linkLayerError .. | .postedCreditReturn .. => true
  | .slotStart .. | .slaveStrobeRelease .. => true

end Sys2Proof
end

