-- ==== Sys2Proof/Tests/Slice0.lean ====
section
/-!
SUPPORT. The model's own tests: ill-formed commands, single commands on small states with results worked out from the spec, and for
every statement with hypotheses a state and operands that meet them.
-/

namespace Sys2Proof.Tests

open Sys2Proof Sys2Proof.Machine

set_option Elab.async false

/-! States to test on -/

/-- Write `n` bytes of `v` at offset `off` of section `t` of a Weave set. -/
def put (t off n v : Nat) (w : WSet) : WSet := { w with mem := msetList 0 (secBase t + off) (bytesLE n v) w.mem }

/-- Channel ports opened, channels 0 to 2 ACTIVE and aligned, power state RUN, both segments enabled. -/
def live : State :=
  let s := State.reset
  let s1 : State := { s with
    pwr := { s.pwr with boot := .opened, st := .run, seqRun := false, serdesLock := true },
    img := { s.img with restarting := false },
    evh := { s.evh with scanning := false },
    lcc := { s.lcc with st := .commissioning },
    vot := { s.vot with mode := .m2oo3, admitOn := false },
    ch := Vector.replicate 4 { chanInit with st := .active, aligned := true },
    port := Vector.replicate 4 { portInit with dlUp := true, crs := false, cfg := [(1, 0x00100006#32)] },
    tx := Vector.replicate 4 { txInit with credits := none } }
  let s2 : State := { s1 with ch := s1.ch.set 3 { chanInit with st := .ready, aligned := true } }
  setReg (.ls 0) 0x040 (getReg s (.ls 0) 0x040 ||| 1#32) (setReg (.ls 1) 0x040 (getReg s (.ls 1) 0x040 ||| 1#32) s2)

/-- What the statements on registers ask of the state. -/
theorem test_live_calm : Calm live := by decide +kernel
theorem test_live_writer : Writer 4 live ∧ Writer 0 live :=
  ⟨by decide +kernel,
   by decide +kernel⟩
theorem test_live_free (k : PageKind) (h : k ≠ .cntu) : FreePage 4 k live := by
  refine ⟨?_, ?_⟩ <;> cases k <;> first | rfl | exact absurd rfl h
theorem test_live_idle : NothingQueued live := by decide +kernel
theorem test_live_quiet : Quiet live := by decide +kernel

/-! The machine as a whole -/

/-- The state after a command. -/
def after (c : Instr) (s : State) : State :=
  match exec c s with
  | .next t => t
  | .fault _ => s
  | .refused _ => s

/-- The state after a step. -/
def ran (s : State) : State :=
  match step s with
  | .next t => t
  | .fault _ => s
  | .refused _ => s

/-- The first command of the queue takes effect; the second waits. R118: PME_Turn_Off is answered, the link goes to L2/L3 Ready. -/
theorem test_step_front : (ran { live with pending := [.pmeTurnOff 0, .wdog] }).pending = [.wdog] ∧
    (ran { live with pending := [.pmeTurnOff 0, .wdog] }).port[(0 : Port)].l23 = true := by decide +kernel
/-- No row of the table gives bits, so no word spells a command. -/
theorem test_no_words : decodeTableWord 32 0x12345678 = none ∧ (live.withFetchWord 32 5).pending = [] := by decide +kernel
theorem test_wit_StepRunsFront : ({ live with pending := [.wdog] } : State).pending = .wdog :: [] := rfl
theorem test_wit_IdleStepPassesTime : live.pending = [] ∧ live.pwr.seqRun = false ∧ State.reset.pwr.seqRun = true := by decide +kernel
theorem test_wit_invariants : Delivered live ∧ MemoriesWf live ∧ ∃ t, step live = .next t := ⟨⟨rfl, rfl⟩, by decide +kernel, _, rfl⟩
/-- 40 ns are five addends of the MER clock (R321); in units of 2^-64 s, 40 ns are 737,869,762,948.4. -/
theorem test_idle_time : tickStep live = 737869762950 := by decide +kernel

/-! Ill-formed commands: one for each check -/

theorem test_wf_word : wellFormed (.registerWrite 4 0x041 0xF ⟨0, false⟩) = false ∧ wellFormed (.registerRead 4 0x042 ⟨1, 0⟩) = false ∧
    wellFormed (.registerRead 4 0x040 ⟨2, 0⟩) = false ∧ wellFormed (.registerRead 0 0x040 ⟨2, 0⟩) = true ∧
    wellFormed (.unassignedPageWrite 4 0x41 0) = false ∧ wellFormed (.guardedValueWrite 4 0 0x041 0) = false ∧
    wellFormed (.votedWrite 0 0 0x041 0) = false ∧ wellFormed (.votedEntryExpire 0 0 0x041) = false ∧
    wellFormed (.bitAliasWrite 4 0x0001 0) = false ∧ wellFormed (.userPageRead 4 0x041 0) = false ∧
    wellFormed (.ovfClear 4 0x31045 0) = false ∧ wellFormed (.registerWrite 4 0x040 0xF ⟨0, false⟩) = true := by decide +kernel
theorem test_wf_requests : wellFormed (.mntReadStatus 72 ⟨2, false, 0, 0⟩ 0) = false ∧ wellFormed (.bar2Read 0 0 0 0) = false ∧
    wellFormed (.bar2Read 0 0 4097 0) = false ∧ wellFormed (.bar2Write 0 0 [1] [] false) = false ∧
    wellFormed (.bar4Write 0 0 0xFFF [1, 2] [true] false false) = false ∧ wellFormed (.bar4Read 0 0 0 ⟨0, []⟩ 0) = false ∧
    wellFormed (.bar4Read 0 0 0xFFC ⟨4, [true, true, true, true]⟩ 0) = true ∧ wellFormed (.dlUp 0 5 4 none) = false ∧
    wellFormed (.linkSpeedWidthChange 0 4 3) = false ∧ wellFormed (.dlUp 0 4 4 none) = true := by decide +kernel

/-- A slave cycle for the tests. -/
def cycR : SlaveCyc := { addr := 0x100000, am := 0x39, size := 4, write := false, blt := false, mblt := false, rmw := false }
def cycW : SlaveCyc := { cycR with write := true }
/-- A ring frame for the tests. -/
def frameT (typ : BitVec 4) : Frame :=
  { typ := typ, src := 2, sec := false, dst := 0x7F, crit := false, carry := false, wrapped := false, slot := 1, cycle := 0,
    utag := 0, payload := [], crcOk := true, eed := false, lenOk := true }

theorem test_wf_bus : wellFormed (.imageWindowWrite 0 cycR [1, 2, 3, 4]) = false ∧ wellFormed (.imageWindowWrite 0 cycW [1]) = false ∧
    wellFormed (.forwardWindowWrite 0 cycW [1]) = false ∧ wellFormed (.imageWindowRead 0 cycW) = false ∧ wellFormed (.forwardedRead 0 cycW) = false ∧
    wellFormed (.delayedReadRepeat 0 cycW) = false ∧ wellFormed (.iackCycle 0 0 0) = false ∧ wellFormed (.handlerServe 0 0) = false ∧
    wellFormed (.gapWaitExpire 0 .scheduled) = false ∧ wellFormed (.imageWindowWrite 0 cycW [1, 2, 3, 4]) = true := by decide +kernel
theorem test_wf_ring : wellFormed (.dataFrameReceive 0 true (frameT 2)) = false ∧ wellFormed (.syncFrameReceive 0 true 0 (frameT 1)) = false ∧
    wellFormed (.coldstartFrameReceive 0 (frameT 4)) = false ∧ wellFormed (.inaugFrameReceive 0 (frameT 5)) = false ∧
    wellFormed (.resultFrameReceive 0 (frameT 3)) = false ∧ wellFormed (.memberLoss 65) = false ∧ wellFormed (.takeover 65) = false ∧
    wellFormed (.release 65) = false ∧ wellFormed (.remoteRequestReceive ⟨0, []⟩ []) = false ∧
    wellFormed (.remoteResponseReceive ⟨0, []⟩ []) = false ∧ wellFormed (.remCmd []) = false ∧
    wellFormed (.dataFrameReceive 0 true (frameT 1)) = true ∧ wellFormed (.memberLoss 64) = true := by decide +kernel

/-! Registers -/

/-- IMG.EVENT reads 0x3700_0005 (the example of R21). -/
def imgEvent : State := { live with evh := { live.evh with event := [(0x1B, 0x37000005#32)] } }
/-- R21: acknowledged with the SEQ it read. -/
theorem test_ack : mget 0 (after (.eventAck 4 0x1B 0x37 0x000005) imgEvent).evh.event 0x1B = 0x37000000#32 := by decide +kernel
/-- R21: the acknowledgement misses when SEQ has counted on. -/
theorem test_ack_miss : mget 0 (after (.eventAck 4 0x1B 0x38 0x000005) imgEvent).evh.event 0x1B = 0x37000005#32 ∧
    getFld (after (.eventAck 4 0x1B 0x38 0x000005) imgEvent) .img 0x008 31 31 = 1 := by decide +kernel
/-- R42: bit 3 of IMG.EVENT_EN has alias address 0x0008_6E8C. -/
theorem test_alias : getReg (after (.bitAliasWrite 4 0x6E8C 1) live) .img 0x014 = 8#32 := by decide +kernel
/-- Tables 2.14 and 2.19: ID of IMG is TYPE 0x1B, INST 0, version 0x01, 0x00. -/
theorem test_read_id : (after (.registerRead 4 0x1B000 ⟨1, 0⟩) live).out = [.word 4 0x1B000100#32] := by decide +kernel
/-- R13: a partial write is discarded and captured with cause 0x7, at page 0x00 and offset 0x014 by requester 4. -/
theorem test_partial : getReg (after (.registerWrite 4 0x014 0x3 ⟨0xFFFFFFFF, false⟩) live) .glb 0x030 = 0x9E000014#32 ∧
    getReg (after (.registerWrite 4 0x014 0x3 ⟨0xFFFFFFFF, false⟩) live) .glb 0x014 = 0 := by decide +kernel

theorem test_wit_RegisterWrites : Calm live ∧ Writer 4 live ∧ Writer 0 live ∧ (∀ k, k ≠ PageKind.cntu → FreePage 4 k live) ∧
    unassignedAt 4 0x50000 = true ∧ unassignedAt 0 0xFFFFC = true :=
  ⟨test_live_calm, test_live_writer.1, test_live_writer.2, test_live_free, by decide +kernel⟩
theorem test_wit_EventAcknowledged : Calm imgEvent ∧ Writer 4 imgEvent ∧ FreePage 4 .img imgEvent ∧ (0x1B : BitVec 8).toNat = PageKind.img.num ∧
    (0x37 : BitVec 8).toNat = fieldOf (mget 0 imgEvent.evh.event 0x1B) 31 24 ∧
    (0x38 : BitVec 8).toNat ≠ fieldOf (mget 0 imgEvent.evh.event 0x1B) 31 24 := by decide +kernel
/-- IMG's LOCK is set. -/
def locked : State := setReg .img 0x018 1 live
theorem test_wit_LockWrittenOnce : Calm locked ∧ Writer 4 locked ∧ FreePage 4 .img locked ∧ getFld locked .img 0x018 0 0 = 1 ∧
    Calm live ∧ FreePage 4 .img live ∧ getFld live .img 0x018 0 0 = 0 := by decide +kernel
/-- A requester's IND_ADDR of EVH. -/
def indAt (r : Req) (w : Word) : State := modReq r (fun q => { q with indAddr := [(0x30, w)] }) live
theorem test_wit_IndirectReads : CoreRuns live ∧ Reader 4 (regAddr .evh 0x024) (indAt 4 0x01000008) ∧ Reader 3 (regAddr .evh 0x024) (indAt 3 0) ∧
    (0x30 : BitVec 8).toNat = PageKind.evh.num ∧ indLen .evh (fieldOf (indAddr (indAt 4 0x01000008) 4 .evh) 27 24) = some 8 ∧
    indRuns live .evh 1 = true ∧ almSpace .evh 1 = false ∧ fieldOf (indAddr (indAt 4 0x01000008) 4 .evh) 23 0 = 8 ∧
    indLen .evh (fieldOf (indAddr (indAt 4 0x03000000) 4 .evh) 27 24) = none ∧ live.ch[(3 : Port)].st.inService = true := by decide +kernel
theorem test_wit_IndirectWrites : Calm (indAt 0 0x91000001) ∧ Writer 0 (indAt 0 0x91000001) ∧ FreePage 0 .evh (indAt 0 0x91000001) ∧
    fieldOf (indAddr (indAt 0 0x91000001) 0 .evh) 27 24 = 1 ∧ fieldOf (indAddr (indAt 0 0x91000001) 0 .evh) 23 0 = 1 ∧
    indRuns (indAt 0 0x91000001) .evh 1 = true ∧ Writer 4 (indAt 4 0x91000007) ∧ fieldOf (indAddr (indAt 4 0x91000007) 4 .evh) 23 0 = 7 := by
  decide +kernel
/-- R28: a held value of CNT.USER_EN. -/
def heldUser : State := modReq 4 (fun q => { q with guards := [(PageKind.cnt.num, ⟨0x040, 0x5#32⟩)] }) live
theorem test_wit_GuardedSequence : Calm live ∧ Writer 4 live ∧ pageRefused 4 .cnt = false ∧ (0x31 : BitVec 8).toNat = PageKind.cnt.num ∧
    heldIn live 4 .cnt = none ∧ guardedAt (0x31 : BitVec 8) (0x040 : BitVec 12) = true ∧ Calm heldUser ∧ Writer 4 heldUser ∧
    heldIn heldUser 4 .cnt = some ⟨0x040, 0x5#32⟩ ∧ (0x5#32 : Word) ≠ ~~~ (0x5#32 : Word) := by decide +kernel
/-- R28: the complement of the held value lets it take effect. -/
theorem test_guard : getReg (after (.guardWrite 4 0x31 0xFFFFFFFA) heldUser) .cnt 0x040 = 5#32 := by decide +kernel
/-- R32: channel 1 has written the same value in its present epoch. -/
def voted1 : State := { live with bus := { live.bus with voted := live.bus.voted.set 1 [⟨voteKey .lom 0x054, 9, 0, 0⟩] } }
theorem test_wit_VotedWrite : Calm live ∧ Writer (portReq 0) live ∧ FreePage (portReq 0) .lom live ∧ (0x1A : BitVec 8).toNat = PageKind.lom.num ∧
    hasV .lom 0x054 = true ∧ hasV .cnt 0x040 = false ∧ live.vot.mode ≠ .m1oo1 ∧ recentOf live (voteKey .lom 0x054) = none ∧
    (∀ e : Port, live.bus.voted[e] = []) ∧ Calm voted1 ∧ Writer (portReq 0) voted1 ∧ voted1.ch[(1 : Port)].st = .active ∧
    (∃ x ∈ voted1.bus.voted[(1 : Port)], x.key = voteKey .lom 0x054 ∧ x.value = (9#32 : Word).setWidth 64 ∧ x.epoch = voted1.ch[(1 : Port)].epoch) := by
  decide +kernel
/-- R34: LOM.ARM_CYCLE takes the value two ACTIVE channels agree on. -/
theorem test_voted : getReg (after (.votedWrite 0 0x1A 0x054 9) voted1) .lom 0x054 = 9#32 := by decide +kernel
/-- Vote mode 1OO1 with channel 0. -/
def oneOf1 : State := { live with vot := { live.vot with mode := .m1oo1, oneCh := 0 }, lcc := { live.lcc with st := .maintenance, presence := true } }
theorem test_wit_VotedWriteOne : Calm oneOf1 ∧ Writer (portReq 0) oneOf1 ∧ FreePage (portReq 0) .lom oneOf1 ∧ oneOf1.vot.mode = .m1oo1 := by
  decide +kernel
/-- A shadow of RNG.MISS_LIMIT waits in an update group. -/
def shadowed (g pend : Word) : State :=
  setReg .rng 0x01C g (setReg .glb 0x064 pend { live with bus := { live.bus with shadow := [(regAddr .rng 0x054, 5#32)] } })
/-- The Loom runs on an empty set. -/
def loomRuns : State := { live with lom := { live.lom with run := true } }
theorem test_wit_ShadowUpdates : Calm loomRuns ∧ Writer 4 loomRuns ∧ FreePage 4 .glb loomRuns ∧ loomRuns.lom.run = true ∧
    pageGroup (shadowed 1 0) .rng = 1 ∧ pageGroup (shadowed 6 0) .rng = 6 ∧ pageGroup (shadowed 7 0x80) .rng = 7 ∧
    getFld (shadowed 7 0x80) .glb 0x064 7 7 = 1 ∧ NothingQueued (shadowed 1 0) ∧ Calm (shadowed 1 0) ∧ Calm (shadowed 7 0x80) ∧
    NothingQueued (shadowed 7 0x80) ∧ FreePage 4 .glb (shadowed 6 0) := by and_intros <;> decide +kernel
theorem test_wit_AliasWritesOneBit : PageKind.img.num < 0x40 ∧ Calm live ∧ Writer 4 live ∧ FreePage 4 .img live := by decide +kernel
theorem test_wit_Counters : Calm live ∧ Writer 4 live ∧ FreePage 4 .glb live ∧ FreePage 4 .cnt live := by decide +kernel
/-- R420: a written 0 clears the overflow bit, a written 1 leaves it. -/
theorem test_ovf : (after (.ovfClear 4 0x31044 0xFFFFFFFE) { live with evh := { live.evh with scOvf := 3 } }).evh.scOvf = 2 := by
  decide +kernel
theorem test_wit_RegisterReads : Calm live ∧ Reader 4 (regAddr .img 0x000) live ∧ Reader 0 (regAddr .img 0x00C) live ∧
    Reader 0 (regAddr .cntu (0x040 + 8 * 15)) live := by decide +kernel

/-! Channel ports -/

/-- A pattern of KIND `kind` on LSA, AM 0x39, D32, base 0x0010_0000, a window of 8 bytes and a record of 4 (Table 3.1). -/
def patT (kind extra : Nat) : Nat :=
  1 + 2 * kind + 0x39 * 2 ^ 11 + 3 * 2 ^ 17 + 0x100000 * 2 ^ 32 + 4 * 2 ^ 64 + 7 * 2 ^ 96 + extra

/-- A Weave: input area at 0, staging at 0x10000, output area at 0x400000, retain area at 0x500000, legacy-slave area at 0x600000;
pattern 0 writes, pattern 1 reads, pattern 2 is an IDEM read, pattern 3 an interrupt acknowledge. -/
def weaveT : WSet :=
  let w : WSet := { wsetEmpty with hasHdr := true, src := 1, check := .pass }
  put 6 0 4 0 (put 6 4 4 0x1000 (put 6 8 4 0x10000 (put 6 12 4 0x400000 (put 6 16 4 0x1000 (put 6 20 4 0x500000 (put 6 24 4 0x1000
    (put 6 28 4 0x600000 (put 6 32 4 0x1000
    (put 1 0 16 (patT 1 0) (put 1 16 16 (patT 0 0) (put 1 32 16 (patT 0 (2 ^ 29)) (put 1 48 16 (patT 3 0) w))))))))))))

/-- The live state with that Weave active. -/
def woven : State := { live with lom := { live.lom with act := weaveT } }
/-- The live state with port 0 changed. -/
def atPort (f : PortS → PortS) : State := modPort 0 f live

theorem test_wit_ConfigurationRequests : Delivered live ∧ live.port[(0 : Port)].dlUp = true ∧ live.port[(0 : Port)].rx = [] ∧
    npRoom live 0 = true ∧ live.port[(0 : Port)].crs = false ∧ live.msix[(0 : Port)].pba = [] ∧
    (atPort fun q => { q with crs := true }).port[(0 : Port)].crs = true ∧ npRoom (atPort fun q => { q with crs := true }) 0 = true := by decide +kernel
/-- R91: Vendor ID and Device ID. -/
theorem test_config_read : (after (.configRequest 0 0 false 0xF 0 5) live).out = [.cpl 0 5 0 false 4 0 [0x9B, 0x1F, 0x10, 0x48]] := by
  decide +kernel
/-- A port whose BARs do not respond, and one that checks ECRCs. -/
def barsOff : State := atPort fun q => { q with cfg := [] }
def ecrcOn : State := atPort fun q => { q with cfg := [(1, 0x00100006#32), (0x46, 0x140#32)] }
theorem test_wit_RequestErrors : Delivered live ∧ live.pwr.boot ≠ .inReset ∧ live.port[(0 : Port)].dlUp = true ∧ live.port[(0 : Port)].rx = [] ∧
    urApplies live 0 .unsupportedNonPosted = true ∧ urApplies live 0 .noBarPosted = true ∧ urApplies live 0 .vendorMessage0 = true ∧
    urHeld .unsupportedNonPosted = true ∧ npRoom live 0 = true ∧ urApplies barsOff 0 .disabledNonPosted = true ∧
    urApplies barsOff 0 .disabledPosted = true ∧ barsOff.port[(0 : Port)].rx = [] ∧ ecrcCheck ecrcOn 0 = true := by decide +kernel
/-- The staging area of channel 0 begins at 0x10000, its last byte is 0x8FFFF. -/
theorem test_wit_ImageThroughBar2 : Calm woven ∧ PortFree 0 woven ∧ barOn woven 0 = true ∧ woven.ch[(0 : Port)].st.inService = true ∧
    npRoom woven 0 = true ∧ crosses 0xFFC 4 = false ∧ woven.tap.ecc = [] ∧ postedRoom woven 0 129 = true ∧ mps woven 0 = 128 ∧
    crosses 0x10000 129 = false ∧ areaOf woven.lom.act 0x10000 = 3 ∧ areaOf woven.lom.act 0x8FFFF = 3 ∧
    areaOf woven.lom.act 0x90000 = 4 ∧ woven.ch[(0 : Port)].st = .active ∧ 0xC00000 ≤ (0xD3FFFF : BitVec 25).toNat := by decide +kernel
/-- R260: a write to the own staging area; the byte without enable keeps its value. -/
theorem test_staging : mgetList 0 (after (.bar2Write 0 0x10000 [1, 2, 3] [true, false, true] false) woven).img.mem 0x10000 3 = [1, 0, 3] := by
  decide +kernel
/-- A push that runs, one that waits, with PUSH_CTRL as it needs it or off. -/
def pushT : Push := { n := 3, bytes := 0, records := 0, crc := 0, truncated := false, epoch := 0, st := .active, ftime := 0, base := 0, limit := 1 }
def askT : PushAsk := { n := 3, ftime := 0, recs := [(0, 0x400000, [1])] }
def pushing : State := setReg (.cp 0) 0x058 0x80000180 (atPort fun q => { q with pushWaiting := [askT] })
def pushOff : State := atPort fun q => { q with pushWaiting := [askT] }
def pushRuns : State := atPort fun q => { q with push := some pushT }
theorem test_wit_Pushes : Delivered pushing ∧ pushing.pwr.boot ≠ .inReset ∧ pushing.port[(0 : Port)].pushWaiting = askT :: [] ∧
    pushing.port[(0 : Port)].push = none ∧ pushOk pushing 0 = true ∧ (∀ r ∈ askT.recs, r.1 + r.2.2.length ≤ pushLimit pushing 0 * 4096) ∧
    pushing.tap.ecc = [] ∧ pushing.tx[(0 : Port)].credits = none ∧ pushing.tx[(0 : Port)].waiting = [] ∧ pushOk pushOff 0 = false ∧
    pushRuns.port[(0 : Port)].push = some pushT ∧ (∀ e ∈ pushRuns.tx[(0 : Port)].waiting, e.1 ≠ 0) ∧
    creditsFor pushRuns.tx[(0 : Port)].credits ⟨4096, trailerBytes pushT 1⟩ = true := by decide +kernel
/-- R106: the trailer ends the push; PSEQ counts and PUSH_STAT shows the controller cycle. -/
theorem test_push_done : getReg (after (.pushDone 0) pushRuns) (.cp 0) 0x05C = 3 ∧ (after (.pushDone 0) pushRuns).port[(0 : Port)].pseq = 1 := by
  decide +kernel
theorem test_wit_PortResets : Delivered live ∧ NothingQueued live ∧ live.pwr.boot = .opened ∧ live.port[(0 : Port)].dlUp = true ∧
    live.port[(0 : Port)].crs = false ∧ live.port[(0 : Port)].rx = [] ∧ live.port[(0 : Port)].perst = false ∧ live.ch[(0 : Port)].st.inService = true := by
  decide +kernel
/-- R117, Table 4.9: PERST fences the channel and takes its link down. -/
theorem test_perst : (after (.perst 0) live).ch[(0 : Port)].st = .fenced ∧ (after (.perst 0) live).port[(0 : Port)].dlUp = false ∧
    getFld (after (.perst 0) live) (.cp 0) 0x068 14 14 = 1 := by decide +kernel
/-- Links: channel 0 ABSENT with its link down, while admission is open; ASPM L1 enabled; a partner that grants credits. -/
def absent (admitOn : Bool) : State :=
  { modPort 0 (fun q => { q with dlUp := false }) (modCh 0 (fun x => { x with st := .absent }) live) with
    vot := { live.vot with admitOn := admitOn } }
def aspm : State := atPort fun q => { q with cfg := [(1, 0x00100006#32), (0x1C, 2)] }
def owed (waiting : List (Nat × PTlp)) : State := { live with tx := live.tx.set 0 ⟨some (0, 0), waiting⟩ }
theorem test_wit_Links : Delivered live ∧ live.pwr.boot ≠ .inReset ∧ live.port[(0 : Port)].dlUp = true ∧ aspmL1 aspm 0 = true ∧
    aspm.tx[(0 : Port)].waiting = [] ∧ aspm.port[(0 : Port)].push = none ∧ aspm.port[(0 : Port)].bar = [] ∧
    (owed []).tx[(0 : Port)].credits = some (0, 0) ∧ (owed [(0, ⟨16, [1, 2, 3, 4]⟩)]).tx[(0 : Port)].waiting = [(0, ⟨16, [1, 2, 3, 4]⟩)] ∧
    creditsFor (some (1, 1)) ⟨16, [1, 2, 3, 4]⟩ = true ∧
    NothingQueued (absent true) ∧ (absent true).pwr.boot = .opened ∧ (absent true).port[(0 : Port)].dlUp = false ∧
    (absent true).port[(0 : Port)].perst = false ∧ (absent true).ch[(0 : Port)].st = .absent ∧ (absent true).vot.admitOn = true ∧
    NothingQueued (absent false) ∧ (absent false).vot.admitOn = false := by and_intros <;> decide +kernel

/-! Aperiodic accesses -/

/-- Channel 0 not aligned. -/
def unaligned : State := modCh 0 (fun x => { x with aligned := false }) woven
theorem test_wit_AperiodicRefusals : Delivered woven ∧ woven.pwr.boot = .opened ∧ portOpen woven 0 = true ∧ barOn woven 0 = true ∧
    woven.port[(0 : Port)].rx = [] ∧ woven.ch[(0 : Port)].st.inService = true ∧ woven.pwr.st = .run ∧ woven.tap.ecc = [] ∧
    npRoom woven 0 = true ∧ postedRoom woven 0 4 = true ∧ crosses 0xFFC 4 = false ∧ 4 ≤ mps woven 0 ∧
    bar4Refused woven 7 0 4 true = true ∧ bar4Refused woven 0 5 4 true = true ∧ bar4Refused woven 0 4 4 true = false ∧
    unaligned.ch[(0 : Port)].aligned = false ∧ bar4Refused unaligned 0 4 4 true = false ∧ bar4Refused woven 0 0 4 false = true ∧
    bar4Refused unaligned 1 4 4 false = false := by and_intros <;> decide +kernel
/-- A copy of channel 1 of a write of four bytes through pattern 0. -/
def copyT : MCopy :=
  { ch := 1, k := 0, pat := 0, off := 0, len := 4, data := [1, 2, 3, 4], en := [true, true, true, true], poisoned := false, isRead := false, tag := 0,
    cells := [0], epoch := 0, done := 0 }
def entryT (c : MCopy) : MEntry := ⟨0, 0, patEntry weaveT 0, some (patEntry weaveT 0), c.isRead, [c], .waiting, none, none, []⟩
/-- Channel 1's copy waits in the match table. -/
def matching : State := { woven with vot := { woven.vot with openE := [entryT copyT] }, crl := { woven.crl with fresh := 1 } }
/-- Channel 0 holds as many cells as it may. -/
def fullHold : State := { woven with crl := setQ 0 { getQ woven.crl 0 with held := 16384 } woven.crl }
/-- A write of channel 0 waits for its cell. -/
def claiming : State := modPort 0 (fun q => { q with rx := [.write 0 0 [1, 2, 3, 4] [true, true, true, true] false] }) woven
def claimingMatch : State := modPort 0 (fun q => { q with rx := [.write 0 0 [1, 2, 3, 4] [true, true, true, true] false] }) matching
theorem test_wit_AperiodicMatching : Delivered woven ∧ woven.pwr.boot = .opened ∧ portOpen woven 0 = true ∧ barOn woven 0 = true ∧
    woven.ch[(0 : Port)].st = .active ∧ woven.ch[(0 : Port)].st.inService = true ∧ woven.pwr.st = .run ∧ woven.tap.ecc = [] ∧
    woven.ch[(0 : Port)].aligned = true ∧ woven.vot.closedE = [] ∧ woven.vot.kEvict = none ∧ woven.vot.mode ≠ .m1oo1 ∧
    (∀ g, masterOk woven g = true) ∧ ListsGood woven ∧ NothingQueued { woven with vot := { woven.vot with openE := [] } } ∧
    woven.port[(0 : Port)].rx = [] ∧ postedRoom woven 0 4 = true ∧ crosses 0 4 = false ∧ 4 ≤ mps woven 0 ∧
    bar4Refused woven 0 0 4 true = false ∧ claimOk woven.crl 0 (cellsFor 4) = true ∧ woven.vot.openE = [] ∧
    (∃ d : Port, d ≠ 0 ∧ woven.ch[d].st = .active ∧ woven.ch[d].aligned = true) ∧
    claiming.port[(0 : Port)].rx = [.write (0 : BitVec 16).toNat (0 : BitVec 12).toNat [1, 2, 3, 4] [true, true, true, true] false] ∧
    claimOk fullHold.crl 0 (cellsFor 4) = false ∧ ListsGood fullHold ∧ npRoom woven 0 = true ∧ bar4Refused woven 1 0 4 false = false ∧
    (patOf (patEntry woven.lom.act 1)).idem = false ∧ (patOf (patEntry woven.lom.act 1)).kind ≠ .rmw := by and_intros <;> decide +kernel
theorem test_wit_AperiodicIssue : ListsGood matching ∧ NothingQueued { matching with vot := { matching.vot with openE := [] } } ∧
    claimOk matching.crl 0 (cellsFor 4) = true ∧ matching.vot.mode ≠ .halt ∧ matching.ch[(0 : Port)].st = .active ∧
    matching.vot.openE = [⟨matching.ch[(0 : Port)].k, 0, patEntry weaveT 0, some (patEntry weaveT 0), false, [copyT], .waiting, none, none, []⟩] ∧
    copyT.ch ≠ 0 ∧ matching.ch[copyT.ch].st = .active ∧ matching.ch[copyT.ch].aligned = true ∧ copyT.isRead = false ∧ copyT.poisoned = false ∧
    (patOf (patEntry weaveT 0)).vclass = 0 ∧ claimingMatch.vot.openE = matching.vot.openE := by and_intros <;> decide +kernel
/-- R134: the second equal copy issues the write, once, to the voted aperiodic list of LSA. -/
theorem test_match : ((listPkts (after (.bar4Write 0 0 0 [1, 2, 3, 4] [true, true, true, true] false false) matching) 8).map (·.data)) =
    [[1, 2, 3, 4]] := by decide +kernel
/-- An entry whose copies differ, and one that has reached its time without a second copy. -/
def differT : MEntry := { entryT copyT with copies := [copyT, { copyT with ch := 0, data := [9, 2, 3, 4] }] }
def agreeT : MEntry := { entryT copyT with copies := [copyT, { copyT with ch := 0 }], phase := .done, chosen := some copyT }
def differing : State := { matching with vot := { matching.vot with openE := [differT] } }
def agreeing : State := { matching with vot := { matching.vot with openE := [agreeT] } }
def closed : State := { woven with vot := { woven.vot with closedE := [entryT copyT] } }
def flushing : State := atPort fun q => { q with flush := [(5, 0)] }
def flushHeld : State := { flushing with vot := { flushing.vot with openE := [entryT { copyT with ch := 0 }] } }
def flushHeld1 : State := modPort 0 (fun q => { q with flush := [(5, 1)] }) flushHeld
theorem test_wit_MatchTimes : Delivered live ∧ live.pwr.boot = .opened ∧ portOpen live 0 = true ∧ barOn live 0 = true ∧ live.port[(0 : Port)].rx = [] ∧
    live.ch[(0 : Port)].st.inService = true ∧ live.pwr.st = .run ∧ npRoom live 0 = true ∧
    flushing.port[(0 : Port)].flush = [((5 : BitVec 10).toNat, 0)] ∧ earlierWrites flushing 0 0 = false ∧ earlierWrites flushHeld 0 0 = false ∧
    flushHeld1.port[(0 : Port)].flush = [((5 : BitVec 10).toNat, 1)] ∧ earlierWrites flushHeld1 0 1 = true := by decide +kernel
theorem test_wit_MatchEnds : matching.vot.openE = [entryT copyT] ∧ (entryT copyT).k = 0 ∧ (entryT copyT).pat = (0 : BitVec 16).toNat ∧
    NothingQueued { matching with vot := { matching.vot with openE := [] } } ∧ ListsGood matching ∧ matching.tap.ecc = [] ∧
    (entryT copyT).phase ≠ .started ∧ matching.vot.mode = .m2oo3 ∧ majority differing differT = none ∧ (majority agreeing agreeT).isSome = true ∧
    (∃ c : Port, agreeing.ch[c].st = .active ∧ agreeing.ch[c].aligned = true ∧ outside agreeT (some copyT) c = true) ∧
    closed.vot.closedE = [entryT copyT] ∧ closed.vot.openE = [] ∧ NothingQueued closed := by and_intros <;> decide +kernel

/-! Vote unit and controller -/

/-- Channel 0 in another state. -/
def chan0 (st : ChState) : State := modCh 0 (fun x => { x with st := st }) live
theorem test_wit_FenceAndRejoin : Calm live ∧ NothingQueued live ∧ live.pwr.boot = .opened ∧ live.ch[(0 : Port)].st.inService = true ∧
    (chan0 .fenced).ch[(0 : Port)].st.inService = false ∧ NothingQueued (chan0 .fenced) ∧ Calm (chan0 .absent) ∧ reqPort 4 = none ∧
    reqPort 0 = some 0 ∧ PortFree 0 (chan0 .fenced) ∧ barOn (chan0 .fenced) 0 = true ∧ (chan0 .fenced).ch[(0 : Port)].st = .fenced ∧
    heldIn live 4 (.cp 0) = none ∧ heldIn (chan0 .fenced) 0 (.cp 0) = none ∧
    (chan0 .fenced).port[(0 : Port)].dlUp = true ∧ d3hot (chan0 .fenced) 0 = false ∧ bme (chan0 .fenced) 0 = true := by and_intros <;> decide +kernel
/-- R147: the fenced channel's epoch counts on. R151: the READY channel takes its place. -/
theorem test_fence : (after (.fenceCmd 0) live).ch[(0 : Port)].st = .fenced ∧ (after (.fenceCmd 0) live).ch[(0 : Port)].epoch = 1 ∧
    (after (.fenceCmd 0) live).ch[(3 : Port)].st = .active := by decide +kernel
/-- MAINTENANCE, with and without presence. -/
def maint (presence : Bool) : State := { live with lcc := { live.lcc with st := .maintenance, presence := presence } }
theorem test_wit_VoteModes : Delivered (maint true) ∧ NothingQueued (maint true) ∧ (maint true).pwr.boot = .opened ∧
    (maint true).lcc.st = .maintenance ∧ (maint true).lcc.presence = true ∧ (maint true).ch[(0 : Port)].st = .active ∧
    (maint false).lcc.presence = false ∧ oneOf1.vot.mode = .m1oo1 ∧ NothingQueued oneOf1 ∧ (maint true).vot.mode ≠ .m1oo1 ∧
    NothingQueued (absent true) ∧ (absent true).vot.admitOn = true := by and_intros <;> decide +kernel
/-- R129 rule 4: the other ACTIVE channels become READY. -/
theorem test_1oo1 : (after (.modeCmdSelect1oo1 0) (maint true)).vot.mode = .m1oo1 ∧
    (after (.modeCmdSelect1oo1 0) (maint true)).ch[(1 : Port)].st = .ready := by decide +kernel
/-- Controller cycle 5 frozen, 4 committed; its first commit write made. -/
def frozen5 : State := { woven with img := { woven.img with ctl := .running, frozen := 5, committed := 4 } }
def attempted : State := { frozen5 with vot := { frozen5.vot with attempts := [5] } }
theorem test_wit_CommitsAndMajority : Delivered frozen5 ∧ NothingQueued frozen5 ∧ frozen5.pwr.boot = .opened ∧
    frozen5.ch[(0 : Port)].st = .active ∧ frozen5.ch[(1 : Port)].st = .active ∧ (frozen5.vot.mode = .m1oo1 ↔ (0 : Port) = 1) ∧
    frozen5.img.ctl ≠ .stopped ∧ frozen5.img.restarting = false ∧ (5 : Word) = frozen5.img.frozen ∧ frozen5.img.committed ≠ 5 ∧
    frozen5.vot.last = none ∧ oneOf1.ch[(0 : Port)].st = .active ∧ (oneOf1.vot.mode = .m1oo1 ↔ (0 : Port) = 0) ∧
    NothingQueued attempted ∧ attempted.vot.attempts.contains 5 = true ∧ commitReached attempted 5 = false ∧ frozen5.tap.taken = false := by
  and_intros <;> decide +kernel
/-- R270, Table 9.3: the commit is carried out. -/
theorem test_commit : (after (.commit 5 0 1) frozen5).img.committed = 5 ∧ (after (.commit 5 0 1) frozen5).img.runs.length = 1 := by
  decide +kernel
/-- The digest of controller cycle 5 over a record of no bytes, and of one that the channels' copies miss. -/
def infoT (crc : Word) : CommitInfo :=
  { n := 5, first := 0, second := 1, kc := 0, digest := [⟨0, 0, true, crc, crc⟩], digestValid := true, thirdDone := false, three := true }
def compared (c : Port) (copy : Option Word) (crc : Word) : State :=
  modCh c (fun x => { x with copyOf := copy }) { woven with vot := { woven.vot with last := some (infoT crc) } }
/-- Channel 0 has been charged at stamp 1 and is DIVERGENT. -/
def charged : State := { compared 2 (some 5) 0 with ch := (modCh 0 (fun x => { x with charges := [1], divergent := true }) live).ch }
theorem test_wit_CopiesCompared : Delivered (compared 2 (some 5) 0) ∧ NothingQueued (compared 2 (some 5) 0) ∧
    (compared 2 (some 5) 0).pwr.boot = .opened ∧ (compared 2 (some 5) 0).vot.last = some (infoT 0) ∧ (infoT 0).digestValid = true ∧
    (infoT 0).three = true ∧ (infoT 0).thirdDone = false ∧ (infoT 0).first ≠ 2 ∧ (infoT 0).second ≠ 2 ∧
    (compared 2 (some 5) 0).ch[(2 : Port)].st = .active ∧ (compared 2 (some 5) 0).ch[(2 : Port)].aligned = true ∧
    (compared 2 (some 5) 0).vot.mode = .m2oo3 ∧ (compared 2 (some 5) 0).ch[(2 : Port)].copyOf = some (infoT 0).n ∧
    (compareDigest (compared 2 (some 5) 0) 2 (infoT 0).digest).1 = true ∧ (∀ d ∈ (infoT 0).digest, d.agreed = true) ∧
    (compareDigest (compared 2 (some 5) 1) 2 (infoT 1).digest).1 = false ∧
    (compared 2 none 0).ch[(2 : Port)].copyOf ≠ some 5 ∧ (compared 2 none 0).ch[(2 : Port)].cmpOf ≠ some 5 := by and_intros <;> decide +kernel
theorem test_wit_ReadyCompared : NothingQueued (compared 3 (some 5) 0) ∧ (compared 3 (some 5) 0).ch[(3 : Port)].st = .ready ∧
    (compared 3 (some 5) 0).ch[(3 : Port)].copyOf = some 5 ∧ (compared 3 (some 5) 0).ch[(3 : Port)].aligned = true ∧
    (compareDigest (compared 3 (some 5) 0) 3 (infoT 0).digest).1 = true ∧ (compared 3 (some 5) 0).ch[(3 : Port)].matchCnt < 15 ∧
    (compareDigest (compared 3 (some 5) 1) 3 (infoT 1).digest).1 = false ∧
    (compared 3 (some 5) 0).ch[(0 : Port)].charges = [] ∧ (compared 3 (some 5) 0).ch[(0 : Port)].caStamp = none ∧
    NothingQueued charged ∧ (charged.ch[(0 : Port)].charges.any fun x => decide (cycDist x (stampNow charged) < divSpan charged)) = true := by
  and_intros <;> decide +kernel
/-- R149: a match counts. -/
theorem test_match_count : (after (.observerCompareDone 3) (compared 3 (some 5) 0)).ch[(3 : Port)].matchCnt = 1 := by decide +kernel
/-- An output record of eight bytes at REC 0x80000 (image offset 0x400000), agreed by channels 0 and 1. -/
def outT : WSet := put 7 0 4 1 (put 7 8 8 (0x80000 + 8 * 2 ^ 20) weaveT)
def runT : CommitRun :=
  { n := 5, first := 0, second := 1, one := false, cycle := 0, outs := [(0x80000, 8, false, 0)], fromSafe := false, frc := ⟨[], []⟩ }
def running : State := { frozen5 with
  lom := { frozen5.lom with act := outT },
  img := { frozen5.img with runs := [runT], mem := [(0x10008, 7), (0x90008, 7)] },
  pwr := { frozen5.pwr with saveRun := true } }
/-- Every controller cycle committed, none running. -/
def ready5 (ctl : CtlState) (frozen committed : Word) (wdog : Nat) : State :=
  { live with img := { live.img with ctl := ctl, frozen := frozen, committed := committed, wdogRun := wdog } }
theorem test_wit_Freezes : Calm live ∧ NothingQueued live ∧ live.pwr.boot = .opened ∧ reqPort 4 = none ∧ reqPort 0 = some 0 ∧ Writer 0 live ∧
    FreePage 0 .img live ∧ live.img.heldFreeze = [] ∧ live.img.restarting = false ∧ live.img.frozen = 0 ∧ live.img.ctl ≠ .running ∧
    Calm (ready5 .running 5 5 2) ∧ (ready5 .running 5 5 2).img.committed = (ready5 .running 5 5 2).img.frozen ∧
    (6 : Word) = cycSucc (ready5 .running 5 5 2).img.frozen ∧ (1 : Word) = cycSucc 0xFFFFFFFF ∧ (7 : Word) ≠ 5 ∧ (7 : Word) ≠ cycSucc 5 := by
  and_intros <;> decide +kernel
theorem test_wit_CommitRuns : Calm running ∧ NothingQueued running ∧ running.img.runs = runT :: [] ∧ outList running.lom.act = [(0x80000, 8, false, 0)] ∧
    relayOf running 0x80000 = none ∧ activeForces { running with frc := runT.frc } = [] ∧ running.pwr.saveRun = true ∧
    (digestOf running false 0 1 0x80000 8).agreed = true ∧ (ready5 .running 5 5 2).img.wdogRun ≠ 0 ∧ (ready5 .running 5 5 2).img.ctl ≠ .stopped ∧
    NothingQueued (ready5 .running 5 5 2) ∧ live.tap.taken = false := by and_intros <;> decide +kernel
/-- R264: the first freeze; R279: the watchdog stops the controller with cause 0b001. -/
theorem test_freeze : (after (.freeze 0 1) live).img.frozen = 1 := by decide +kernel
theorem test_wdog : (after .wdog (ready5 .running 5 5 2)).img.ctl = .stopped ∧ (after .wdog (ready5 .running 5 5 2)).img.stopCause = 1 := by
  decide +kernel
/-- R269: the record shows the channels' bytes. -/
theorem test_commit_run : mget 0 (after .commitRunDone running).img.mem 0x400008 = 7 := by decide +kernel
/-- The end of a restart. -/
def restarting : State := { live with img := { live.img with restarting := true } }
theorem test_wit_Restarts : Delivered live ∧ NothingQueued live ∧ live.pwr.boot = .opened ∧ live.vot.mode = modeByCount live ∧
    oneOf1.vot.mode = .m1oo1 ∧ live.img.restarting = false ∧ live.img.ctl ≠ .running ∧ getFld live .glb 0x064 7 7 = 0 ∧ frozen5.img.ctl = .running ∧
    NothingQueued frozen5 ∧ frozen5.vot.mode = modeByCount frozen5 ∧ live.img.ctl ≠ .stopped ∧
    restarting.img.restarting = true ∧ schedBusy restarting = false ∧ almFree restarting = true ∧ restarting.evh.scanning = false ∧
    NothingQueued restarting := by and_intros <;> decide +kernel
theorem test_stop : (after .restartStop live).img.ctl = .stopped ∧ (after .restartStop live).img.stopCause = 4 := by decide +kernel
/-- Signal 1: an input of one bit in record 0, which FCAP permits to force; force 4095 names it. -/
def forcing (presence active : Bool) : State :=
  let s : State := { live with
    lcc := { live.lcc with presence := presence },
    lom := { live.lom with act := { put 3 8 8 (2 ^ 47) (put 4 0 1 2 weaveT) with len := [(4, 8)] } } }
  { s with frc := { s.frc with tab := if active then [(4 * 4095, 1#32), (4 * 4095 + 1, 1#32)] else [(4 * 4095, 1#32)] } }
theorem test_wit_Forces : Delivered (forcing true false) ∧ (forcing true false).pwr.boot = .opened ∧ (forcing true false).lcc.presence = true ∧
    (forcing false false).lcc.presence = false ∧
    (resolveSig (forcing true false).lom.act (frcWord (forcing true false) 4095 0).toNat).isSome = true ∧
    fcapBit (forcing true false).lom.act ((frcWord (forcing true false) 4095 0).toNat % 65536) = true ∧
    (∀ j ∈ activeForces (forcing true false), j ≠ 4095 → frcWord (forcing true false) j 0 ≠ frcWord (forcing true false) 4095 0) ∧
    armedNow (forcing true false) = false ∧ bitAt (frcWord (forcing true true) 4095 1) 0 = true ∧ activeForces (forcing true true) ≠ [] := by
  and_intros <;> decide +kernel
theorem test_force_set : bitAt (frcWord (after (.forceSet 4095) (forcing true false)) 4095 1) 0 = true ∧
    getReg (after (.forceSet 4095) (forcing false false)) .frc 0x044 = 0x0FFF0001#32 := by decide +kernel

/-! Legacy segments -/

/-- An access of `len` bytes at window offset 0 through the pattern entry `patE`. -/
def accT (o : Origin) (pl : Place) (queue patE len : Nat) (write : Bool) : Acc :=
  { origin := o, place := pl, queue := queue, pat := 0, patE := patE, off := 0, len := len, write := write,
    data := List.replicate len 7, en := List.replicate len true, cont := false }
/-- Segment LSA with an engine `e`; `drv` says whether it drives its cycle. -/
def engaged (e : Eng) (drv : Bool) : State :=
  modSeg 0 (fun x => { x with eng := some { e with driving := drv }, owner := drv }) woven
/-- Segment LSA changed. -/
def atSeg (f : SegS → SegS) : State := modSeg 0 f woven
/-- A mailbox read of four bytes: one D32 cycle. -/
def mailT : Acc := accT .mailbox .mailbox 64 (patT 0 0) 4 false

/-- LSA owned with nothing to do; LSA's system controller on. -/
def owning : State := setReg (.ls 0) 0x040 (getReg woven (.ls 0) 0x040 ||| 0x20) (atSeg fun x => { x with owner := true, mcfg := 0x21 })
def owningBusy : State := modSeg 0 (fun x => { x with mcfg := 0x21 }) (engaged (engOf mailT 0) true)
def syscon : State := setReg (.ls 0) 0x040 (getReg woven (.ls 0) 0x040 ||| 8) woven
theorem test_wit_BusTenure : Delivered woven ∧ woven.pwr.boot ≠ .inReset ∧ SlavesFree woven ∧ (engOf mailT 0).todo.length = 1 ∧
    (engOf mailT 0).driving = false ∧ (engaged (engOf mailT 0) false).seg[(0 : Seg)].eng = some (engOf mailT 0) ∧
    (engaged (engOf mailT 0) false).seg[(0 : Seg)].owner = false ∧ SlavesFree (engaged (engOf mailT 0) false) ∧
    masterOk (engaged (engOf mailT 0) false) 0 = true ∧ woven.pwr.brownout = false ∧ woven.tap.ecc = [] ∧
    (3 : Fin 4).val = getFld (engaged (engOf mailT 0) false) (.ls 0) 0x040 7 6 ∧ busAsked woven 0 = false ∧ woven.pwr.st = .run ∧
    (0 : Fin 4).val ≠ getFld woven (.ls 0) 0x040 7 6 ∧ tenureCfg owning 0 5 = true ∧ owning.seg[(0 : Seg)].owner = true ∧
    owning.seg[(0 : Seg)].eng = none ∧ owning.seg[(0 : Seg)].paused = [] ∧ tenureCfg owningBusy 0 5 = true ∧
    owningBusy.seg[(0 : Seg)].owner = true ∧ owningBusy.seg[(0 : Seg)].eng ≠ none ∧ SlavesFree owningBusy ∧ sysconAct syscon 0 = true ∧ syscon.seg[(0 : Seg)].owner = false ∧
    syscon.seg[(0 : Seg)].pins.bgOut = 0 ∧ syscon.seg[(0 : Seg)].eng = none ∧ bitAt (getReg syscon (.ls 0) 0x044) 0 = false ∧
    (0b1000 : BitVec 4).getLsbD (3 : Fin 4) = true ∧ (0b0001 : BitVec 4).getLsbD (0 : Fin 4) = true ∧
    (∀ m : Fin 4, 0 < m → (0b0001 : BitVec 4).getLsbD m = false) := by and_intros <;> decide +kernel
theorem test_wit_BusEvents : (atSeg fun x => { x with sysresetLow := true }).seg[(0 : Seg)].sysresetLow = true ∧
    SlavesFree (atSeg fun x => { x with sysresetLow := true }) ∧ woven.seg[(0 : Seg)].sysresetLow = false ∧ NothingQueued woven ∧
    woven.seg[(0 : Seg)].paused = [] ∧ workCount woven 0 = 0 ∧ NothingQueued (engaged (engOf mailT 0) true) ∧
    (engaged (engOf mailT 0) true).seg[(0 : Seg)].sysresetLow = false ∧
    hasWork (atSeg fun x => { x with gated := true, mail := some mailT }) 0 = true ∧ hasWork (atSeg fun x => { x with gated := true }) 0 = false ∧
    segIdle (atSeg fun x => { x with stopWait := true }) 0 = true ∧ segIdle (atSeg fun x => { x with stopWait := true, mail := some mailT }) 0 = false := by
  and_intros <;> decide +kernel
/-- R162: the granted engine owns the bus and drives AS*. -/
theorem test_grant : (after (.busGrant 0 ⟨3, 0⟩) (engaged (engOf mailT 0) false)).seg[(0 : Seg)].owner = true ∧
    (after (.busGrant 0 ⟨3, 0⟩) (engaged (engOf mailT 0) false)).seg[(0 : Seg)].pins.as_ = true ∧
    (after (.busGrant 0 ⟨3, 0⟩) (engaged (engOf mailT 0) false)).seg[(0 : Seg)].pins.addr = 0x100000 := by decide +kernel
/-- The mailbox's access and a scheduled one wait. -/
def waiting : State := atSeg fun x => { x with mail := some mailT, sched := [accT (.sched 3 0 0) .scheduled 64 (patT 1 0) 4 true] }
def mailing (owner : Bool) : State := atSeg fun x => { x with mail := some mailT, owner := owner }
theorem test_wit_TransferStarts : Quiet waiting ∧ waiting.seg[(0 : Seg)].eng = none ∧ waiting.seg[(0 : Seg)].gated = false ∧
    waiting.pwr.brownout = false ∧ (listPkts waiting (vapQ 0)).all (fun p => !pktStale waiting p) = true ∧
    (winner waiting 0 (candidates waiting 0 0 false)).map (fun w => (w.1, w.2.todo.length)) = some (.scheduled, 1) ∧
    waiting.seg[(0 : Seg)].owner = false ∧ (mailing true).seg[(0 : Seg)].owner = true ∧ Quiet (mailing true) ∧
    ((winner (mailing true) 0 (candidates (mailing true) 0 0 false)).map (·.1)) = some .mailbox ∧
    (winner woven 0 (candidates woven 0 0 false)).isNone = true := by and_intros <;> decide +kernel
/-- A read of two D32 cycles, a BLT of two beats, an MBLT, a read-modify-write, a BLT write. -/
def twoT : Eng := engOf (accT .mailbox .mailbox 64 (patT 0 0) 8 false) 0
def bltT (write : Bool) : Eng := engOf (accT .mailbox .mailbox 64 (patT (bnat write) (2 ^ 21)) 8 write) 0
def mbltT : Eng := engOf (accT .mailbox .mailbox 64 (patT 0 (2 * 2 ^ 21 + 8 * 2 ^ 96)) 16 false) 0
def rmwT : Eng := engOf (accT .mailbox .mailbox 64 (patT 2 0) 4 true) 0
theorem test_wit_CycleProgress : Quiet (engaged mbltT true) ∧ (engaged mbltT true).seg[(0 : Seg)].eng = some { mbltT with driving := true } ∧
    (engaged mbltT true).seg[(0 : Seg)].ahead = none ∧ Quiet (engaged rmwT true) ∧ Quiet (engaged (bltT true) true) ∧
    Quiet (engaged twoT true) ∧ Quiet (engaged (engOf mailT 0) true) ∧
    mbltT.hold = false ∧ mbltT.todo.length = 1 ∧ 0 < mbltT.phases ∧ rmwT.phases = 0 ∧ (patOf rmwT.acc.patE).kind = .rmw ∧ rmwT.rmwWrite = false ∧
    rmwT.todo ≠ [] ∧ (bltT false).phases = 0 ∧ (patOf (bltT false).acc.patE).kind ≠ .rmw ∧ (bltT false).todo.map (·.beats) = [2] ∧
    (bltT false).beat = 0 ∧ (bltT false).acc.write = false ∧ (bltT true).acc.write = true ∧ (bltT true).todo.map (·.beats) = [2] ∧
    twoT.phases = 0 ∧ twoT.todo.map (·.beats) = [0, 0] ∧ (engOf mailT 0).todo.map (·.beats) = [0] ∧ mailT.write = false ∧
    (engOf (accT (.sched 3 0 0) .scheduled 64 (patT 0 0) 4 false) 0).todo.map (·.beats) = [0] ∧
    Quiet (engaged (engOf (accT (.sched 3 0 0) .scheduled 64 (patT 0 0) 4 false) 0) true) ∧
    (engOf (accT (.vote 0 0) .vap 8 (patT 1 0) 4 true) 0).todo.map (·.beats) = [0] ∧
    Quiet (engaged (engOf (accT (.vote 0 0) .vap 8 (patT 1 0) 4 true) 0) true) := by and_intros <;> decide +kernel
/-- R80, R58: the mailbox gets the bytes of its cycle, the byte at the lowest address from D31 to D24. -/
theorem test_dtack : (after (.dtackSeen 0 0x11223344) (engaged (engOf mailT 0) true)).mnt.legEnd = some (false, 0, [0x11, 0x22, 0x33, 0x44]) := by
  decide +kernel
/-- A remote write of eight bytes of which four have arrived. -/
def pktT (o : Origin) (q : Nat) (data : List Byte) (eop : Bool) : Pkt :=
  { owner := q, cells := [], eop := eop, epoch := 0, cy := 0, src := 7, pat := 0, off := 0, len := 8, aux := 0, data := data,
    en := List.replicate 8 true, isRead := false, trunc := false, cont := false, poison := false, sent := 0, patE := patT 1 (2 ^ 21),
    origin := o }
/-- List `q` holds the packets `ps`. -/
def withList (q : Nat) (ps : List Pkt) : State := setPkts q ps woven
def heldT : Eng := { engOf (accT (.remote 2 5) .remote 10 (patT 1 (2 ^ 21)) 8 true) 0 with beat := 1, hold := true, driving := true }
def holding (n : Nat) (eop : Bool) : State :=
  modSeg 0 (fun x => { x with eng := some heldT, owner := true }) (withList 10 [pktT (.remote 2 5) 10 (List.replicate n 7) eop])
def truncated (eop : Bool) : State :=
  { woven with crl := setQ 10 { getQ woven.crl 10 with thresh := 0, pkts := [{ pktT (.remote 2 5) 10 [7] eop with trunc := true }] } woven.crl }
theorem test_wit_StrobeHold : Quiet (holding 8 true) ∧ (holding 8 true).seg[(0 : Seg)].eng = some heldT ∧ heldT.hold = true ∧ heldT.todo.length = 1 ∧
    (heldT.todo.all fun c => beatPresent (holding 8 true) { heldT with
      acc := { heldT.acc with data := present (holding 8 true) heldT.acc }, hold := false } c heldT.beat) = true ∧
    (heldT.todo.all fun c => !beatPresent (holding 4 false) { heldT with
      acc := { heldT.acc with data := present (holding 4 false) heldT.acc }, hold := false } c heldT.beat) = true ∧
    heldT.acc.queue < 26 ∧ (listPkts (holding 4 false) heldT.acc.queue).length = 1 ∧ Quiet (holding 4 false) := by
  and_intros <;> decide +kernel
theorem test_wit_Truncated : Quiet (truncated true) ∧ listPkts (truncated true) (fwdQ 0) = [] ∧
    (listPkts (truncated true) (remQ 0)).map (fun x => (x.trunc, x.cont, x.eop)) = [(true, false, true)] ∧
    Quiet (truncated false) ∧ (listPkts (truncated false) (remQ 0)).map (fun x => (x.trunc, x.cont, x.eop)) = [(true, false, false)] ∧
    (getQ (truncated false).crl (remQ 0)).thresh = 0 := by and_intros <;> decide +kernel
theorem test_trunc : getReg (after (.trunc 0) (holding 4 false)) (.ls 0) 0x060 = 1 ∧
    ((listPkts (after (.trunc 0) (holding 4 false)) 10).map fun p => (p.trunc, p.sent)) = [(true, 4)] := by decide +kernel
/-- The mailbox's cycle on the bus after `n` retries, bus timer and retry response on. -/
def timing (n : Nat) : State :=
  setReg (.ls 0) 0x040 (getReg woven (.ls 0) 0x040 ||| 0x18) (modSeg 0 (fun x => { x with mcfg := 0x19 }) (engaged { engOf mailT 0 with retries := n } true))
theorem test_wit_CycleFailures : Quiet (engaged (engOf mailT 0) true) ∧ (engOf mailT 0).todo.length = 1 ∧ (engOf mailT 0).acc.origin = .mailbox ∧
    segCfg (timing 0) 0 3 = true ∧ bitAt (getReg (timing 0) (.ls 0) 0x044) 2 = true ∧ Quiet (timing 0) ∧
    tenureCfg (timing 0) 0 4 = true ∧ tenureCfg (timing 1) 0 4 = true ∧ (engOf mailT 0).retries < (patOf mailT.patE).rtry ∧
    (patOf mailT.patE).rtry ≤ ({ engOf mailT 0 with retries := 1 } : Eng).retries ∧
    (atSeg fun x => { x with paused := [{ engOf mailT 0 with gap := true }] }).seg[(0 : Seg)].paused = [{ engOf mailT 0 with gap := true }] ∧
    Quiet (engaged (engOf (accT (.sched 3 0 0) .scheduled 64 (patT 0 0) 4 false) 0) true) := by and_intros <;> decide +kernel
/-- R184, Table 2.20: BERR* counts and fails the mailbox's access with CODE 0x1. -/
theorem test_berr : getReg (after (.berrSeen 0) (engaged (engOf mailT 0) true)) (.ls 0) 0x058 = 1 ∧
    (after (.berrSeen 0) (engaged (engOf mailT 0) true)).mnt.legEnd = some (true, 1, []) := by decide +kernel

/-- Slave windows of LSA (Table 6.6): window 0 onto a record of four bytes at image offset 0x600000, window 1 forwarding through
pattern 2 or 0. -/
def winWeave (pat : Nat) : WSet :=
  let w := put 6 44 4 1 (put 6 64 8 (0xC0000 + 4 * 2 ^ 20 + 2 ^ 36) weaveT)
  put 10 0x90 4 13 (put 10 0x94 4 0x100000 (put 10 0x98 4 (4 + 0x100 + 0x800) (put 10 0x9C 4 0
    (put 10 0xA0 4 (15 + pat * 0x10000) (put 10 0xA4 4 0x200000 (put 10 0xA8 4 (4 + 0x100 + 0x800) (put 10 0xAC 4 0 w)))))))
def slaved (pat : Nat) : State := { live with lom := { live.lom with act := winWeave pat } }
def cycAt (addr : Word) (write : Bool) : SlaveCyc := { cycR with addr := addr, write := write }
/-- The geographic pins give slot 3: GA1* and GA0* low, the parity pin low. -/
def slotted : State := setReg (.ls 0) 0x040 (getReg live (.ls 0) 0x040 ||| 0x100) (modSeg 0 (fun x => { x with gaPins := 0b011100 }) live)
/-- A window write waits for a cell that list 14 may not claim. -/
def slvWaitT : SlvWait := ⟨cycAt 0x100000 true, [1, 2, 3, 4], false⟩
def fullSlave (w : Option SlvWait) : State :=
  modSeg 0 (fun x => { x with slvWait := w, slvCfg := getReg live (.ls 0) 0x040 })
    { slaved 2 with crl := setQ 14 { getQ live.crl 14 with held := 16384 } live.crl }
theorem test_wit_SlaveAccesses : Delivered (slaved 2) ∧ (slaved 2).pwr.boot = .opened ∧ (slaved 2).pwr.brownout = false ∧ (slaved 2).tap.ecc = [] ∧
    ListsGood (slaved 2) ∧
    ((winFind (slaved 2) 0 (cycAt 0x100000 true)).map fun w => (w.1, w.2.fwd, w.2.areaOut, w.2.base)) = some (0, false, false, 0x100000) ∧
    ((winFind (slaved 2) 0 (cycAt 0x100000 true)).bind fun w => winRecord (slaved 2) w.2) = some (0x600000, 4) ∧
    (0x100000 : Word).toNat - 0x100000 + [1#8, 2, 3, 4].length ≤ 4 ∧ claimOk (slaved 2).crl 14 1 = true ∧
    ((winFind (slaved 2) 0 (cycAt 0x100001 true)).map (·.1)) = some 0 ∧ 4 < (0x100001 : Word).toNat - 0x100000 + [1#8, 2, 3, 4].length ∧
    ((winFind (slaved 2) 0 (cycAt 0x100000 false)).map (·.1)) = some 0 ∧ 4 < (0x100001 : Word).toNat - 0x100000 + 4 ∧
    ((winFind (slaved 2) 0 (cycAt 0x100001 false)).map (·.1)) = some 0 ∧
    claimOk (fullSlave none).crl 14 1 = false ∧ ListsGood (fullSlave none) ∧ ((winFind (fullSlave none) 0 (cycAt 0x100000 true)).map (·.1)) = some 0 ∧
    (fullSlave (some slvWaitT)).seg[(0 : Seg)].slvWait = some slvWaitT ∧ slvWaitT.begun = false ∧
    SlavesFree { fullSlave (some slvWaitT) with seg := (fullSlave (some slvWaitT)).seg.set 0 segInit } ∧ slaveList (fullSlave (some slvWaitT)) 0 = [] ∧
    slaveOn slotted 0 = true ∧ crcsrAct slotted 0 = true ∧ ((List.range 6).filter fun i => (0x3E : BitVec 6).getLsbD i == false).length % 2 = 1 ∧
    ((List.range 6).filter fun i => (0x3F : BitVec 6).getLsbD i == false).length % 2 = 0 := by and_intros <;> decide +kernel
/-- R177: the window's bytes reach the record, the byte at the lowest address first. -/
theorem test_window : mgetList 0 (after (.imageWindowWrite 0 (cycAt 0x100000 true) [1, 2, 3, 4]) (slaved 2)).img.mem 0x600008 4 = [1, 2, 3, 4] := by
  decide +kernel
/-- A delayed read in slot 0, with or without its result. -/
def delayed (r : Option (Bool × List Byte)) : State :=
  modSeg 0 (fun x => { x with dr := x.dr.set 0 (some ⟨1, cycAt 0x200000 false, 0, r, 0⟩) }) (slaved 2)
def held4 : State := delayed (some (false, [1, 2, 3, 4]))
def readWaits (cfg : Word) : State := modSeg 0 (fun x => { x with waitRead := some 0, slvCfg := cfg }) (delayed none)
/-- Pattern 4 writes on node 5, which is no member; this node is node 2. -/
def goneT : State := { live with rng := { live.rng with num := 2 }, lom := { live.lom with act := (put 1 64 16 (patT 1 (5 * 16)) (winWeave 4)) } }
theorem test_wit_ForwardedAccesses : Quiet (slaved 0) ∧ (slaved 0).pwr.brownout = false ∧
    ((winFind (slaved 0) 0 (cycAt 0x200000 true)).map fun w => (w.1, w.2.fwd, w.2.pat, w.2.base)) = some (1, true, 0, 0x200000) ∧
    openSlave (slaved 0) 0 = none ∧ (cycAt 0x200000 true).rmw = false ∧ fwdTarget (slaved 0) 0 = .segment (patEntry weaveT 0) 0 ∧
    fwdBad (slaved 0) 0 true 0 4 = false ∧ 0 < (cycAt 0x200000 true).size ∧
    claimOk (slaved 0).crl 14 (cellsFor 4) = true ∧ ((winFind (slaved 2) 0 (cycAt 0x200000 true)).map (·.1)) = some 1 ∧ Quiet (slaved 2) ∧
    fwdBad (slaved 2) 2 true 0 4 = true ∧ isBlock (cycAt 0x200000 false) = false ∧
    slotOfRead (slaved 2) 0 1 (cycAt 0x200000 false) = none ∧ fwdTarget (slaved 2) 2 = .segment (patEntry weaveT 2) 0 ∧
    fwdBad (slaved 2) 2 false 0 4 = false ∧ (allSlots.find? fun k => (slaved 2).seg[(0 : Seg)].dr[k].isNone) = some 0 ∧
    writesWaiting (slaved 2) 0 = false ∧ claimOk (slaved 2).crl 16 1 = true := by and_intros <;> decide +kernel
theorem test_wit_DelayedReads : Quiet held4 ∧ slotOfRead held4 0 1 (cycAt 0x200000 false) = some 0 ∧ held4.pwr.brownout = false ∧
    held4.seg[(0 : Seg)].dr[(0 : Fin 4)] = some ⟨1, cycAt 0x200000 false, 0, some (false, [1, 2, 3, 4]), 0⟩ ∧
    (readWaits 0x10).seg[(0 : Seg)].waitRead = some (0 : Fin 4).val ∧ Quiet (readWaits 0x10) ∧ Quiet (readWaits 0) ∧
    (bitAt (readWaits 0x10).seg[(0 : Seg)].slvCfg 4 &&
      !(((readWaits 0x10).seg[(0 : Seg)].dr[(0 : Fin 4)].map fun d => notGranted (readWaits 0x10) 0 d.id).getD false)) = true ∧
    bitAt (readWaits 0).seg[(0 : Seg)].slvCfg 4 = false ∧
    ((winFind (readWaits 0) 0 (cycAt 0x200000 false)).map (·.1)) = some 1 ∧
    (delayed none).seg[(0 : Seg)].dr[(0 : Fin 4)] = some ⟨1, cycAt 0x200000 false, 0, none, 0⟩ ∧ Quiet goneT ∧
    ((winFind goneT 0 (cycAt 0x200000 true)).map (·.2.pat)) = some 4 ∧ fwdBad goneT 4 true 0 4 = false ∧ fwdGone goneT 4 = true := by
  and_intros <;> decide +kernel
/-- Event 5 asserts level 3 of LSA; level 7's handler word names pattern 3, and IRQ7* is low. -/
def asserting : State := { woven with evh := { woven.evh with levels := [(0, 3, 5)] } }
def handling : State := setReg (.ls 0) 0x004 0x80 { woven with lom := { woven.lom with act := put 10 (0x190 + 28) 4 (1 + 3 * 0x10000) weaveT } }
def handlingAt (l : Nat) : State :=
  setReg (.ls 0) 0x004 (1 <<< l) { woven with lom := { woven.lom with act := put 10 (0x190 + 4 * l) 4 (1 + 3 * 0x10000) weaveT } }
/-- The controller is STOPPED and the Weave has LSA drive SYSFAIL* then. -/
def failing : State := { woven with
  img := { woven.img with ctl := .stopped }, lom := { woven.lom with act := put 10 0x190 4 1 weaveT } }
theorem test_wit_Interrupts : Quiet asserting ∧ asserting.seg[(0 : Seg)].eng = none ∧ asserting.evh.levels = [(0, 3, 5)] ∧
    Quiet woven ∧ woven.evh.levels = [] ∧ swAt (modSeg 0 (fun x => { x with swPend := 8 }) woven) 0 3 = true ∧ swAt woven 0 3 = false ∧
    CoreRuns woven ∧ Writer 4 woven ∧ FreePage 4 (.ls 0) woven ∧ Quiet handling ∧
    handlerPat handling 0 7 = some 3 ∧ bitAt (getReg handling (.ls 0) 0x004) 7 = true ∧ handling.seg[(0 : Seg)].hdlBusy = [] ∧
    claimOk handling.crl 18 1 = true ∧ handlerPat (handlingAt 6) 0 6 = some 3 ∧ Quiet (handlingAt 6) ∧
    servable (handlingAt 6) 0 7 = false ∧ sysfailOut woven 0 = false ∧ sysfailOut failing 0 = true ∧ Quiet failing := by
  and_intros <;> decide +kernel
/-- R186: the status/ID is the event number, answered D8(O). -/
theorem test_iack : (after (.iackCycle 0 3 0) asserting).out = [.slave 0 0 [5]] ∧ (after (.iackCycle 0 3 0) asserting).evh.levels = [] := by
  decide +kernel

/-! The Creel -/

/-- The IACK queue with one packet, register mode. -/
def iackQ (popped : Nat) : State :=
  setReg .crl 0x004 1 { setPkts 18 [{ pktT .mailbox 18 [1, 2, 3, 4] true with cells := [] }] woven with crl := { (setPkts 18 [{ pktT .mailbox 18 [1, 2, 3, 4] true with cells := [] }] woven).crl with popped := popped } }
def dropping (q : Nat) : State := { woven with crl := setQ q { getQ woven.crl q with dropping := some (pktT .mailbox q [] false) } woven.crl }
def sweeping : State := { woven with crl := { woven.crl with sweep := true, lostCells := [(7, 0), (8, 0)] } }
theorem test_wit_QueueCommands : Quiet (iackQ 0) ∧ CoreRuns (iackQ 0) ∧ Reader 4 (regAddr .crl 0x058) (iackQ 0) ∧ getFld (iackQ 0) .crl 0x004 0 0 = 1 ∧
    (listPkts (iackQ 0) 18).length = 1 ∧ (iackQ 0).crl.popped < 4 ∧ (iackQ 3).crl.popped = 3 ∧ listPkts woven 18 = [] ∧
    getFld (setReg .crl 0x004 1 woven) .crl 0x004 0 0 = 1 ∧ Quiet (setReg .crl 0x004 1 woven) ∧
    Writer 4 (iackQ 0) ∧ FreePage 4 .crl (iackQ 0) ∧ lcOpen (iackQ 0) = true ∧ fieldOf (0x112 : Word) 5 0 = 18 ∧
    ((listPkts (iackQ 0) 18).all (·.eop)) = true ∧ lcOpen { woven with lcc := { woven.lcc with st := .service } } = false ∧
    (getQ (dropping 0).crl 0).dropping = some (pktT .mailbox 0 [] false) ∧ Quiet (dropping 0) ∧ Quiet (dropping 25) ∧
    Quiet sweeping ∧ sweeping.crl.sweep = true ∧ sweeping.crl.lostPkts = [] ∧
    sweeping.crl.sweepPending = false ∧ FreePage 4 .arb woven ∧ Writer 4 woven ∧ CoreRuns woven := by and_intros <;> decide +kernel
/-- R209: the first word of the packet. -/
theorem test_pop : (after (.qPop 4 0) (iackQ 0)).out = [.word 4 0x04030201#32] := by decide +kernel

/-! The Loom -/

/-- A Weave whose Ephemeris entry `i` has KIND `kind`, due in every Loom cycle, and the bits `extra`. -/
def ephWeave (i kind extra : Nat) : WSet := put 2 4 4 (i + 1) (put 2 (64 + 16 * i) 16 (1 + 2 * kind + extra) weaveT)
/-- The Loom runs on it. -/
def loomed (i kind extra : Nat) : State :=
  { live with lom := { live.lom with act := ephWeave i kind extra, run := true } }
/-- In brownout hold. -/
def brown (s : State) : State := { s with pwr := { s.pwr with brownout := true } }

def pat0 (s : State) : Pat := patOf (patEntry s.lom.act ((ephAt s.lom.act 0).f 79 64))
theorem test_wit_LoomEntries : Delivered (loomed 0 0 0) ∧ (loomed 0 0 0).pwr.boot ≠ .inReset ∧ (loomed 0 0 0).tap.ecc = [] ∧
    (loomed 0 0 0).lom.run = true ∧ unstarted (loomed 0 0 0) = [] ∧ switchNext (loomed 0 0 0) = false ∧ getFld (loomed 0 0 0) .glb 0x064 7 7 = 0 ∧
    (loomed 0 0 0).lom.announced = [] ∧ hdrRing (loomed 0 0 0).lom.act = false ∧ woven.lom.run = false ∧ hdrRing woven.lom.act = false ∧
    dispatchable (loomed 0 0 0) 0 0 = true ∧ dispatchable (loomed 0x3FFF 0 0) 0x3FFF 0 = true ∧ Quiet (loomed 0 0 0) ∧
    (pat0 (loomed 0 0 0)).valid = true ∧ (loomed 0 0 0).pwr.brownout = false ∧ dispatchable (loomed 0 0 (7 * 2 ^ 64)) 0 0 = true ∧
    (pat0 (loomed 0 0 (7 * 2 ^ 64))).valid = false ∧ (pat0 (loomed 0 0 (7 * 2 ^ 64))).rlen = 0 ∧ (pat0 (loomed 0 0 (7 * 2 ^ 64))).kind ≠ .write ∧
    (brown (loomed 0 0 0)).pwr.brownout = true ∧ dispatchable (brown (loomed 0 0 0)) 0 0 = true := by and_intros <;> decide +kernel
/-- The window of entry 0 is open. -/
def window : State := { loomed 0 2 0 with rng := { live.rng with windows := [⟨0, 0, (ephAt (loomed 0 2 0).lom.act 0).bits⟩] } }
theorem test_wit_RingEntries :
    dispatchable (loomed 0 1 0) 0 1 = true ∧ ownsSlot (loomed 0 1 0) 0 = false ∧ dispatchable (loomed 0 2 0) 0 2 = true ∧
    (loomed 0 2 0).rng.windows = [] ∧ cyc window = 0 ∧ mget 0 window.rng.rxMiss 0 + 1 < missLimit window ∧
    dispatchable (loomed 0 3 0) 0 3 = true ∧ (ephAt (loomed 0 3 0).lom.act 0).f 70 70 = 0 := by and_intros <;> decide +kernel
/-- The Almanac is at work, or idle with the stop of its clock waiting. -/
def almBusy : State := { loomed 0 4 (2 * 2 ^ 64) with alm := { live.alm with op := some ⟨1, 0, 8, 4, 0, none, 1⟩ } }
def almWaits : State := { loomed 0 4 0 with pwr := { live.pwr with almStopWait := true } }
def bit3 (s : State) : State := setReg (.ls 0) 0x040 (getReg s (.ls 0) 0x040 ||| 8) s
theorem test_wit_PowerEntries :
    dispatchable (loomed 0 4 (2 ^ 66)) 0 4 = true ∧ (ephAt (loomed 0 4 (2 ^ 66)).lom.act 0).f 66 66 = 1 ∧
    (ephAt (loomed 0 4 (2 ^ 66)).lom.act 0).f 65 64 < 2 ∧ dispatchable (loomed 0 4 (2 ^ 66 + 2 * 2 ^ 64)) 0 4 = true ∧
    (ephAt (loomed 0 4 (2 ^ 66 + 2 * 2 ^ 64)).lom.act 0).f 65 64 = 2 ∧
    (ephAt (loomed 0 4 (2 ^ 64)).lom.act 0).f 65 64 = (1 : Seg).val ∧ (ephAt (loomed 0 4 (2 ^ 64)).lom.act 0).f 66 66 = 0 ∧
    dispatchable (loomed 0 4 0) 0 4 = true ∧ dispatchable (bit3 (loomed 0 4 0)) 0 4 = true ∧
    segCfg (bit3 (loomed 0 4 0)) 0 3 = true ∧ segCfg (loomed 0 4 0) 0 3 = false ∧ segIdle (loomed 0 4 0) 0 = true ∧
    segIdle (modSeg 0 (fun x => { x with mail := some mailT }) (loomed 0 4 0)) 0 = false ∧ almIdle (loomed 0 4 (2 * 2 ^ 64)) = true ∧
    almIdle almBusy = false ∧ almIdle almWaits = true ∧ almWaits.pwr.almStopWait = true ∧ almWaits.lom.run = true := by
  and_intros <;> decide +kernel
/-- This node is node 1 of three, ACTIVE and owner of slot 0; slot 1 is node 2's, the standby of node 2 is node 3. -/
def ringWeave (extra : WSet → WSet) : WSet :=
  extra (put 0 0x12 2 1 (put 9 0 4 (3 + 0x100 + 2 * 2 ^ 16) (put 9 4 4 100 (put 9 8 4 4 (put 9 64 4 0x030201 (put 9 129 1 3
    (put 9 256 8 (31 * 2 ^ 26 + 1 * 2 ^ 37 + 1 * 2 ^ 45) (put 9 264 8 (31 * 2 ^ 26 + 2 * 2 ^ 37 + 3 * 2 ^ 45) weaveT))))))))
def ringS (w : WSet) (node : NodeState) : State :=
  { live with
    lom := { live.lom with act := w, run := true },
    rng := { live.rng with
      node := node, num := 1, member := 7, result := [⟨1, 1, 0⟩, ⟨2, 2, 0⟩, ⟨3, 3, 0⟩], everSynced := true, states := [(2, 3), (3, 4)],
      port := Vector.replicate 2 { ringPortInit with signal := true, codeSync := true, lost := false } },
    mer := { live.mer with synced := true } }
def ring : State := ringS (ringWeave id) .active
/-- Entries of the ring: a transmit entry, a sync point of this node, MARK, DEADLINE, an entry not yet started. -/
def syncs : State := ringS (ringWeave fun w => put 2 4 4 1 (put 2 64 16 (7 + 2 ^ 70) w)) .active
def sends : State := ringS (ringWeave fun w => put 2 4 4 1 (put 2 64 16 3 w)) .active
/-- Entry 0's transfer has not started; the mailbox's transfer is on the bus while the Loom runs. -/
def queued0 : State := modSeg 0 (fun x => { x with sched := [accT (.sched 0 0 0) .scheduled 64 (patT 1 0) 4 true] }) (loomed 0 0 0)
def onBus : State := modSeg 0 (fun x => { x with eng := some { engOf mailT 0 with driving := true }, owner := true }) (loomed 0 0 0)
theorem test_wit_LoomEntries2 : ownsSlot sends 0 = true ∧ dispatchable sends 0 1 = true ∧
    dispatchable syncs 0 3 = true ∧ (ephAt syncs.lom.act 0).f 70 70 = 1 ∧ (ephAt syncs.lom.act 0).f 69 64 + 1 = syncs.rng.num ∧
    sendsSync syncs = true ∧ txOk syncs 0 = true ∧ txOk syncs 1 = true ∧
    dispatchable (loomed 0 5 0) 0 5 = true ∧ (ephAt (loomed 0 5 0).lom.act 0).f 66 64 = 0 ∧ (ephAt (loomed 0 5 (2 ^ 64)).lom.act 0).f 66 64 = 1 ∧
    (loomed 0 5 (2 ^ 64)).lom.completed.contains 0 = false ∧ dispatchable (loomed 0 5 (2 ^ 64)) 0 5 = true ∧
    ({ loomed 0 5 (2 ^ 64) with lom := { (loomed 0 5 (2 ^ 64)).lom with completed := [0] } } : State).lom.completed.contains 0 = true ∧
    queued0.lom.run = true ∧ ephDue (ephAt queued0.lom.act 0) (cyc queued0) = true ∧ queued0.lom.skipped.contains 0 = false ∧
    (ephAt queued0.lom.act 0).kind = 0 ∧ legacyWaits queued0 0 0 = true ∧
    legacyWaits (loomed 0 0 0) 0 0 = false ∧ legacyWaits (loomed 0 0 0) 1 0 = false ∧ (placeNext waiting 0 .mailbox).isSome = true ∧
    onBus.seg[(0 : Seg)].eng = some { engOf mailT 0 with driving := true } ∧ mailT.place ≠ .scheduled ∧ onBus.lom.run = true := by
  and_intros <;> decide +kernel
/-- R228: a LEGACY entry queues its transfer on the segment of its pattern. -/
theorem test_legacy_entry : ((after (.legacyEntry 0) (loomed 0 0 0)).seg[(0 : Seg)].sched.map fun a => (a.origin, a.len, a.write)) =
    [(.sched 0 0 0, 4, true)] := by decide +kernel
/-- A valid image of 368 bytes with seven empty sections in Weave slot 0: the bytes of header, directory and trailer that are not zero. -/
def imageT : State :=
  { live with
    alm := { live.alm with mem := [(0, 71), (1, 88), (2, 68), (3, 87), (5, 1), (8, 9), (16, 7), (20, 112), (21, 1), (24, 16), (25, 72),
      (26, 1), (252, 213), (253, 15), (254, 82), (255, 15)] ++
      ([1, 2, 3, 5, 6, 7, 10].zipIdx.flatMap fun e => [(256 + 16 * e.2, e.1), (260 + 16 * e.2, 112), (261 + 16 * e.2, 1)]) ++
      [(0x6C0100, 76), (0x6C0101, 82), (0x6C0102, 84), (0x6C0103, 87), (0x6C0104, 1), (0x6C0108, 112), (0x6C0109, 1), (0x6C010C, 143),
      (0x6C010D, 51), (0x6C010E, 77), (0x6C010F, 160), (0x6C011C, 146), (0x6C011D, 175), (0x6C011E, 67), (0x6C011F, 54)] },
    lom := { live.lom with loading := some (some 0) } }
/-- CRC-32C piece by piece. -/
theorem crc_chunk (c d : Word) (bs cs : List Byte) (h : bs.foldl crc32cByte c = d) :
    (bs ++ cs).foldl crc32cByte c = cs.foldl crc32cByte d := by rw [List.foldl_append, h]
theorem image_header : slotImage imageT 0 0 0xFC = (slotImage imageT 0 0 40) ++ (List.replicate 53 0 ++ (List.replicate 53 0 ++
    (List.replicate 53 0 ++ List.replicate 53 0))) := by decide +kernel
theorem image_whole : almBytes imageT (slotBase 0) 368 = slotImage imageT 0 0 0xFC ++ (slotImage imageT 0 252 58 ++ slotImage imageT 0 310 58) := by
  decide +kernel
theorem image_header_state : (slotImage imageT 0 0 0xFC).foldl crc32cByte 0xFFFFFFFF#32 = 4037931050#32 := by
  rw [image_header, crc_chunk _ 1299966252#32 _ _ (by decide +kernel), crc_chunk _ 2040394045#32 _ _ (by decide +kernel),
    crc_chunk _ 2517942800#32 _ _ (by decide +kernel), crc_chunk _ 232216275#32 _ _ (by decide +kernel)]
  decide +kernel
theorem image_header_crc : crc32c (slotImage imageT 0 0 0xFC) = 0x0F520FD5 := by
  rw [crc32c, image_header_state]; decide +kernel
theorem image_whole_crc : crc32c (almBytes imageT (slotBase 0) 368) = 0xA04D338F := by
  rw [crc32c, image_whole, crc_chunk _ _ _ _ image_header_state, crc_chunk _ 3934530102#32 _ _ (by decide +kernel)]; decide +kernel
theorem image_len : slotLen imageT 0 = 368 := by decide +kernel
theorem test_image_loads : slotBroken imageT 0 = none := by
  unfold slotBroken slotCrcOk imageBroken
  rw [image_len, image_whole_crc, image_header_crc]
  decide +kernel
/-- A load, a clear and a check in progress; a switch armed. -/
def atLom (f : Lom → Lom) : State := { live with lom := f live.lom }
def checking (a : ArmState) : State := atLom fun x => { x with checking := true, armState := a }
theorem test_wit_StandbySet : Delivered live ∧ CoreRuns live ∧ Writer 4 live ∧ stbyLocked live = false ∧
    stbyLocked (checking .idle) = true ∧ CoreRuns (checking .idle) ∧ Writer 4 (checking .idle) ∧ FreePage 4 .lom (checking .idle) ∧
    FreePage 4 .lom live ∧ live.lom.loading = none ∧ live.lom.checking = false ∧ (checking .idle).lom.checking = true ∧
    (atLom fun x => { x with loading := some none }).lom.loading = some none ∧ imageT.lom.loading = some (some 0) ∧
    imageT.pwr.brownout = false ∧ (slotBroken (atLom fun x => { x with loading := some (some 1) }) 1).isSome = true ∧
    armedNow (checking .idle) = false ∧ armedNow (checking .armed) = true ∧
    checkBroken (checking .armed).lom.stby none ≠ none ∧ activePresent (checking .armed) = false := by and_intros <;> decide +kernel
/-- A standby set that has passed; ARM_CYCLE names Loom cycle 8. -/
def armable (target : Word) : State :=
  setReg .lom 0x054 target (atLom fun x => { x with stby := { weaveT with src := 2 }, act := weaveT, run := true })
def arms (a : ArmState) (wait : Bool) : State := atLom fun x => { x with armState := a, disarmWait := wait, run := true }
theorem test_wit_ArmAndSwitch : Delivered (armable 8) ∧ (armable 8).pwr.boot = .opened ∧ armCheck false (getReg (armable 8) .lom 0x054) (armable 8) = 0 ∧
    armCheck false (getReg (armable 7) .lom 0x054) (armable 7) ≠ 0 ∧ stbyLocked (checking .idle) = true ∧
    stbyLocked live = false ∧ live.lom.stby.check ≠ .pass ∧
    stbyLocked { armable 8 with lom := { (armable 8).lom with run := false } } = false ∧ (armable 8).lom.stby.check = .pass ∧
    (arms .marking false).lom.disarmWait = false ∧ (arms .marking true).lom.disarmWait = true ∧ (arms .marking false).pwr.brownout = false ∧
    armedNow live = false ∧ armedNow (arms .armed false) = true ∧ (arms .armed false).lom.run = true ∧
    (arms .armed false).lom.cycle = (arms .armed false).lom.armTarget ∧ armedNow (arms .marking false) = true := by and_intros <;> decide +kernel
/-- R253: the sets exchange roles. -/
theorem test_switched : (after .switched { armable 0 with lom := { (armable 0).lom with armState := .armed } }).lom.act.src = 2 ∧
    (after .switched { armable 0 with lom := { (armable 0).lom with armState := .armed } }).lom.armState = .switched := by decide +kernel

/-! The ring -/

/-- Ring state changed. -/
def atRng (f : Rng → Rng) : State := { ring with rng := f ring.rng }
def rejoined : State := atRng fun x => { x with port := x.port.set 0 { ringPortInit with wrapped := true, lost := false } }
def taker : State := atRng fun x => { x with takenOver := [(2, 3, 1)] }
def ousted : State := atRng fun x => { x with takenOver := [(1, 3, 1)], node := .standby }
theorem test_wit_RingMembership : Delivered ring ∧ ring.pwr.boot = .opened ∧ getFld ring .glb 0x064 7 7 = 0 ∧ ring.rng.port[(0 : RingPort)].lost = false ∧
    live.rng.port[(0 : RingPort)].lost = true ∧ rgEn live 0 = true ∧ ringOn live = true ∧ countsRing rejoined = true ∧
    rejoined.rng.port[(0 : RingPort)].wrapped = true ∧ rejoined.rng.port[(0 : RingPort)].lost = false ∧
    rejoined.rng.port[(0 : RingPort)].foreign = false ∧ isMember ring 2 = true ∧ (2 : Nat) ≠ ring.rng.num ∧
    missLimit ring ≤ mget 0 (atRng fun x => { x with miss := [(2, 3)] }).rng.miss 2 ∧ mget 0 ring.rng.miss 2 < missLimit ring ∧
    ringStandby ring.lom.act 2 = 3 ∧ isMember (atRng fun x => { x with member := 5 }) 2 = false ∧ isMember (atRng fun x => { x with member := 5 }) 3 = true ∧
    stateOf ring 3 = 4 ∧ ring.rng.takenOver = [] ∧ taker.rng.takenOver.find? (fun t => t.1 == 2) = some (2, 3, 1) ∧
    (3 : Nat) ≠ ring.rng.num ∧ ousted.rng.takenOver.find? (fun t => t.1 == 1) = some (1, 3, 1) ∧ ousted.rng.node = .standby ∧ canWithdraw ring = true ∧
    canWithdraw live = false ∧ (atRng fun x => { x with taken := true }).rng.taken = true ∧ ring.rng.taken = false ∧
    isMember ring 3 = true ∧ ring.rng.num ≠ 0 ∧ isMember ring 4 = false := by and_intros <;> decide +kernel
/-- R307: the standby of the departed principal takes its slots. -/
theorem test_takeover : (after (.takeover 2) (atRng fun x => { x with member := 5 })).rng.takenOver = [(2, 3, 1)] := by decide +kernel
/-- A DATA frame of node 2 in slot 1, with a record of four bytes; its window is entry 0. -/
def dataT (n : Nat) : Frame := { frameT 1 with utag := utagOf 2, payload := List.replicate 8 0 ++ [1, 2, 3, 4] ++ List.replicate n 0 }
def rxWeave : WSet := ringWeave fun w => put 6 44 4 1 (put 6 64 8 (0x80 + 4 * 2 ^ 20)
  (put 2 4 4 1 (put 2 64 16 (5 + 1 * 2 ^ 64 + 3 * 2 ^ 85 + 0x80 * 2 ^ 96 + 4 * 2 ^ 116) w)))
def receiving : State := { ringS rxWeave .active with rng := { ring.rng with windows := [⟨0, 0, (ephAt rxWeave 0).bits⟩] } }
/-- A sync frame of node 2. -/
def syncT : Frame := { frameT 2 with utag := utagOf 2, payload := List.replicate 32 0 }
/-- Slot 0's payload waits; input record 0 is relayed and has missed 11 windows; the node only listens. -/
def txT : TxFrame := ⟨0, 0, 0, 1, false, false, 32, [7]⟩
def sending : State := { sends with rng := { sends.rng with txBuf := [txT] } }
def relayed (missed : Nat) : State :=
  let s := ringS (ringWeave fun w => put 9 12 4 1 (put 9 272 8 0 w)) .active
  { s with rng := { s.rng with rxMiss := [(0, missed)] } }
def listening : State := { ring with pwr := { ring.pwr with st := .listen } }
theorem test_wit_RingFrames : Delivered ring ∧ ring.pwr.boot = .opened ∧ ring.tap.ecc = [] ∧ ListsGood ring ∧ SlavesFree ring ∧
    rxOk ring 0 = true ∧ unguarded ring = false ∧ (dataT 0).typ = 1 ∧ syncT.typ = 2 ∧
    ring.mer.synced = true ∧ resultTag ring (ownerNow ring 1) = some (dataT 0).utag ∧ resultTag ring (ownerNow ring 1) ≠ some 0 ∧
    slotMaxLen ring.lom.act 1 = 32 ∧ 32 < (dataT 21).payload.length ∧ (dataT 20).payload.length ≤ 32 ∧
    frameBad { dataT 0 with crcOk := false } = true ∧ frameBad (dataT 0) = false ∧
    Delivered receiving ∧ rxOk receiving 0 = true ∧ unguarded receiving = false ∧
    windowTakes receiving 0 1 ⟨0, 0, (ephAt rxWeave 0).bits⟩ = true ∧ winNow receiving ⟨0, 0, (ephAt rxWeave 0).bits⟩ = true ∧ cyc receiving = 0 ∧
    findInit receiving.lom.act [0] ((ephAt rxWeave 0).f 115 96) = some 0 ∧
    activeForces receiving = [] ∧ relayList receiving.lom.act = [] ∧ ring.rng.result ≠ [] ∧ resultTag ring (syncT.slot.toNat + 1) ≠ some 5 := by
  and_intros <;> decide +kernel
theorem test_wit_RingSends : resultTag ring (syncT.slot.toNat + 1) = some syncT.utag ∧ syncT.payload.length ≤ 32 ∧ syncT.slot.toNat < 64 ∧
    syncT.slot.toNat + 1 ≠ ring.rng.num ∧ bitsOf (syncPl syncT.payload).flags 3 3 = 0 ∧ claimOk ring.crl 25 (cellsFor syncT.payload.length) = true ∧
    ring.rng.node ≠ .listen ∧ frameBad { syncT with crcOk := false } = true ∧
    sending.rng.txBuf = [txT] ∧ txT.data.length ≤ txT.maxLen ∧ txPorts sending txT.rings = [0] ∧ txOk sending 0 = true ∧
    ownsSlot sending 0 = true ∧ ownsSlot sending 1 = false ∧
    (relayList (relayed 11).lom.act).any (fun e => e.1 == 0) = true ∧ outHold (relayed 11) < mget 0 (relayed 11).rng.rxMiss 0 ∧
    mget 0 (relayed 10).rng.rxMiss 0 ≤ outHold (relayed 10) ∧
    listening.pwr.st = .listen ∧ ring.pwr.st ≠ .listen := by and_intros <;> decide +kernel
/-- The Loom outranks every other requester. -/
def first7 : State := { receiving with crl := { receiving.crl with prioSched := 0x0770 } }
/-- R267: the record reaches the newest slot of its input record: slot 1 of the input area of 0x1000 bytes, at REC 0x80. -/
theorem test_data_frame : slotNewest (after (.dataFrameReceive 0 true (dataT 0)) first7) 0 = slotFree first7 0 ∧
    (after (.dataFrameReceive 0 true (dataT 0)) first7).rng.windows = [] := by decide +kernel
/-- A node in LISTEN that may start the ring, in COLDSTART, and as its head. -/
def cold (node : NodeState) (head : Bool) : State :=
  let s := ringS (ringWeave id) node
  { s with rng := { s.rng with head := head, num := 0, result := [], everSynced := false }, mer := { s.mer with synced := false } }
def coldFrame (uid : Nat) : Frame := { frameT 3 with payload := bytesLE 8 uid ++ bytesLE 8 0 }
def inaugT (es : List (Nat × Nat)) : Frame :=
  { frameT 4 with payload := es.flatMap fun e => bytesLE 8 e.1 ++ [BitVec.ofNat 8 e.2, 0] ++ bytesLE 4 0 ++ bytesLE 2 0 }
def resultT (ids : List Nat) : Frame :=
  { frameT 5 with utag := utagOf 2, payload := resultPayload 0 0 0 7 [(⟨2, 2, 0⟩, 0), (⟨1, 1, 0⟩, ids.headD 0)] }
theorem test_wit_RingStartup : Delivered (cold .listen false) ∧ (cold .listen false).pwr.boot = .opened ∧ getFld (cold .listen false) .glb 0x064 7 7 = 0 ∧
    hdrRing (cold .listen false).lom.act = true ∧ ringColdOk (cold .listen false).lom.act = true ∧ getFld (cold .listen false) .rng 0x004 0 0 = 1 ∧
    ringOn (cold .listen false) = true ∧ (cold .coldstart false).rng.node = .coldstart ∧ txOk (cold .coldstart false) 0 = true ∧
    txOk (cold .coldstart false) 1 = true ∧ rxOk (cold .coldstart false) 1 = true ∧ frameBad (coldFrame 0) = false ∧ (coldFrame 0).typ = 3 ∧
    natLE ((coldFrame 0).payload.take 8) < (cold .coldstart false).lcc.uid.toNat ∧ (cold .coldstart false).lcc.uid.toNat < natLE ((coldFrame 2).payload.take 8) ∧
    natLE ((coldFrame 1).payload.take 8) = (cold .coldstart false).lcc.uid.toNat ∧ (cold .coldstart false).rng.ownSeen < 2 ∧
    claimOk (cold .listen false).crl 25 1 = true ∧ claimOk (setQ 25 { getQ live.crl 25 with held := 16384 } live.crl) 25 1 = false ∧
    (∀ e ∈ inaugList 64 (inaugT [(2, 2)]).payload, entUid e ≠ (cold .listen false).lcc.uid.toNat) ∧ txOk (cold .listen false) (otherPort 1) = true ∧
    (inaugList 64 (inaugT [(1, 1), (2, 9)]).payload).head?.map entUid = some (cold .coldstart true).lcc.uid.toNat ∧ (1 : RingPort) = westPort (cold .coldstart true) ∧
    badNode (ringOrder (cold .coldstart true).lom.act) ((inaugList 64 (inaugT [(1, 1), (2, 9)]).payload).map entNode) 0 [] = some 1 ∧
    badNode (ringOrder (cold .coldstart true).lom.act) ((inaugList 64 (inaugT [(1, 1), (2, 2), (3, 3)]).payload).map entNode) 0 [] = none ∧
    matchRot ((inaugList 64 (inaugT [(1, 1), (2, 2), (3, 3)]).payload).map entNode) (ringOrder (cold .coldstart true).lom.act) = .inl [1, 2, 3] ∧
    (resultT [0]).utag ≠ ownTag (cold .listen false) ∧ bitsOf (natLE ((resultT [0]).payload.take 4)) 0 0 = 0 ∧
    (cold .listen false).rng.result ≠ (resultMembers (resultT [0]).payload).map (·.1) ∧
    (resultMembers (resultT [0]).payload).find? (fun m => m.1.uid == (cold .listen false).lcc.uid) = some (⟨1, 1, 0⟩, 0) ∧
    (resultMembers (resultT [0]).payload).head?.map (·.2) = some 0 ∧
    (resultMembers (resultT [5]).payload).find? (fun m => m.1.uid == (cold .listen false).lcc.uid) = some (⟨1, 1, 0⟩, 5) ∧
    activePresent (cold .listen false) = true ∧ hdrRing live.lom.act = false := ⟨⟨rfl, rfl⟩, by decide +kernel⟩
def seenTwice : State := { cold .coldstart false with rng := { (cold .coldstart false).rng with ownSeen := 2 } }
theorem test_wit_RingStartup2 : ListsGood (cold .listen false) ∧ claimOk (cold .coldstart false).crl 22 1 = true ∧
    claimOk (cold .coldstart false).crl 25 (cellsFor (coldFrame 0).payload.length) = true ∧ seenTwice.rng.ownSeen = 2 ∧ seenTwice.rng.head = false ∧
    (claim 25 (cellsFor (inaugT [(2, 2)]).payload.length) (cold .listen false)).map
      (fun e => claimOk e.2.crl 22 (cellsFor (16 * (inaugList 64 (inaugT [(2, 2)]).payload).length + 16))) = some true ∧
    (inaugT [(2, 2)]).sec = false ∧ (inaugT [(2, 2)]).wrapped = false ∧ frameBad (inaugT [(2, 2)]) = false ∧
    frameBad (resultT [0]) = false ∧ claimOk (cold .listen false).crl 25 (cellsFor (resultT [0]).payload.length) = true ∧
    (cold .coldstart true).rng.head = true ∧ (cold .listen false).rng.head = false := by and_intros <;> decide +kernel
/-- R303: the head of a matching ring takes its number and is ACTIVE. -/
theorem test_inaug : (after (.inaugFrameReceive 1 (inaugT [(1, 1), (2, 2), (3, 3)])) (cold .coldstart true)).rng.num = 1 ∧
    (after (.inaugFrameReceive 1 (inaugT [(1, 1), (2, 2), (3, 3)])) (cold .coldstart true)).rng.node = .active := by decide +kernel
/-- Sub-blocks for node 1 (Table 10.15). -/
def subT (kind pat : Nat) (first : Bool) (status : Nat) : List Byte :=
  subBytes ⟨kind, first, true, 1, 2, status, 5, pat, 0, 4, 4⟩
def requested (left : Bool) : State :=
  atRng fun x => { x with rem := [⟨5, 2, patT 0 (2 * 16), 1, .mailbox, 0, left⟩] }
def full23 : State := { ring with crl := setQ 23 { getQ ring.crl 23 with held := 16384 } ring.crl }
/-- The request's Loom cycle is 0; the Loom stands at cycle `n`. -/
def late (n : Word) : State := { requested true with lom := { ring.lom with cycle := n } }
def partial23 : State := setPkts 10 [pktT (.remote 2 5) 10 [7] false] ring
def present : State := { ring with lcc := { ring.lcc with presence := true } }
theorem test_wit_RemoteAccesses : Quiet ring ∧ ring.pwr.st = .run ∧ getFld ring .glb 0x064 7 7 = 0 ∧ ring.rng.num ≠ 0 ∧
    (subHdr (subT 2 0 true 0)).dst = ring.rng.num ∧
    (subHdr (subT 2 0 true 0)).first = true ∧ (subHdr (subT 2 0 true 0)).kind = 2 ∧ (subHdr (subT 2 0 true 0)).last = true ∧
    (subHdr (subT 2 0 true 0)).size = 4 ∧ (subHdr (subT 2 0 true 0)).dlen = 4 ∧
    (patOf (patEntry ring.lom.act 0)).valid = true ∧ (patOf (patEntry ring.lom.act 0)).node = 0 ∧
    accessRefused (patOf (patEntry ring.lom.act 0)) true 0 4 = false ∧ claimOk ring.crl 23 (cellsFor 4) = true ∧
    (subHdr (subT 1 1 true 0)).kind = 1 ∧ claimOk ring.crl 23 1 = true ∧
    accessRefused (patOf (patEntry ring.lom.act 1)) false 0 4 = false ∧ (patOf (patEntry ring.lom.act 1)).kind ≠ .rmw ∧
    Quiet full23 ∧ claimOk full23.crl 23 (cellsFor 4) = false ∧ (patOf (patEntry ring.lom.act 9)).valid = false ∧
    claimOk ring.crl 21 1 = true ∧ remOf (requested true) 5 = some ⟨5, 2, patT 0 (2 * 16), 1, .mailbox, 0, true⟩ ∧ Quiet (requested true) ∧
    (subHdr (subT 3 1 true 4)).kind = 3 ∧ (subHdr (subT 3 1 true 4)).status ≠ 0 ∧ (subHdr (subT 3 1 true 0)).src = 2 ∧
    (subHdr (subT 3 1 true 0)).status = 0 ∧ claimOk ring.crl 24 (cellsFor 4) = true := by and_intros <;> decide +kernel
theorem test_wit_RemoteEnds : Quiet (late 4) ∧ remTimeout (late 4) ≤ ((late 4).lom.cycle - 0).toNat ∧
    ((late 3).lom.cycle - 0).toNat < remTimeout (late 3) ∧ Quiet partial23 ∧
    partOf partial23 2 5 = some (remQ 0) ∧ (listPkts partial23 (remQ 0)).length = 1 ∧ (listPkts partial23 (remQ 0)).all (!·.isRead) = true ∧
    partial23.seg[(0 : Seg)].eng = none ∧ partial23.seg[(0 : Seg)].paused = [] ∧
    partOf ring 2 5 = none ∧ droppedOf ring 2 5 = none ∧ (subHdr (subT 4 4 true 0)).kind = 4 ∧ (subHdr (subT 4 4 true 0)).dst = ring.rng.num ∧
    claimOk ring.crl 25 1 = true ∧ ring.lcc.presence = false ∧ (subHdr (subT 4 4 true 0)).pat = 4 ∧ Quiet present ∧
    present.lcc.presence = true ∧ canWithdraw present = true := by and_intros <;> decide +kernel
/-- R314: without presence a ring command of another node is refused with STATUS 0x02. -/
theorem test_rem_cmd : ((after (.remCmd (subT 4 4 true 0)) ring).rng.carry.map fun b => ((subHdr b).kind, (subHdr b).status)) = [(5, 2)] := by decide +kernel

/-! Meridian -/

/-- Readings of two other members, in 2^-32 s. -/
def measured (a b : Int) : State := { ring with mer := { ring.mer with readings := [(2, a), (3, b)] } }
def slewingT : State := { ring with mer := { ring.mer with slewing := true, slew := 5 } }
theorem test_wit_TimeBase : Delivered ring ∧ ring.pwr.boot = .opened ∧ getFld ring .glb 0x064 7 7 = 0 ∧ live.mer.synced = false ∧ ring.mer.synced = true ∧
    ring.rng.num ≠ 0 ∧ ringOn ring = true ∧ ringNodes ring.lom.act ≠ 1 ∧ 2 ≤ (syncSet (measured 9 12)).length ∧
    (syncSet ring).length < 2 ∧ live.mer.slewing = false ∧ slewingT.mer.slewing = true ∧ Delivered slewingT ∧ slewingT.pwr.seqRun = false ∧
    slewingT.mer.rate.natAbs ≤ rateClamp.natAbs ∧
    inBound (measured 9 12) (meanOf (syncSet (measured 9 12))) = true ∧
    inBound (measured 900000 900000) (meanOf (syncSet (measured 900000 900000))) = false ∧
    (measured 9 12).rng.node = .active := by and_intros <;> decide +kernel
/-- R330: a slew by −1 µs ends at the least 10 ms later: 250,000 cycles of 40 ns and the one in which it ends. -/
theorem test_slew_ticks : slewTicks (-18446744073710) = 250001 := by decide +kernel
/-- R329: the mean of 0, 9 and 12 units is 7; the synchronised node slews by its negative. -/
theorem test_resync : (after (.resync 1) (measured 9 12)).mer.offset = 7 ∧ (after (.resync 1) (measured 9 12)).mer.slewing = true := by decide +kernel

/-! Clocks, power, resets, supplies -/

/-- In reset; at a later phase of the reset sequence. -/
def booted (b : BootPhase) : State := { State.reset with pwr := { State.reset.pwr with boot := b } }
/-- Power and clock state changed. -/
def atPwr (f : Pwr → Pwr) : State := { live with pwr := f live.pwr }
/-- A warning was declared at the release; the reset sequence stands in brownout hold. -/
def booting (b : BootPhase) (warn brown : Bool) : State :=
  { State.reset with pwr := { State.reset.pwr with boot := b, pfwWarn := warn, brownout := brown } }
theorem test_wit_Resets : Delivered live ∧ live.tap.taken = false ∧ live.pwr.boot ≠ .inReset ∧ live.pwr.sysLock = true ∧ (booted .inReset).pwr.boot = .inReset ∧
    (atPwr fun x => { x with sysLock := false }).pwr.sysLock = false ∧ (booted .inReset).pwr.causes = [] ∧
    (atPwr fun x => { x with causes := [1] }).pwr.causes ≠ [] ∧ (booted .released).pwr.boot = .released ∧ (booted .released).pwr.pfwWarn = false ∧
    (booted .released).pwr.vddioWarn = false ∧ (booting .released true false).pwr.pfwWarn = true ∧ (booted .wiping).pwr.boot = .wiping ∧
    (booting .wiping true true).pwr.brownout = true ∧ (booted .wiping).pwr.brownout = false ∧
    (recCounts (booted .wiping) .identity).isNone = true ∧ (booted .wiping).lcc.sealDue = false ∧ (booted .wiping).lcc.retired = false ∧
    recField (booted .wiping) .lifeCycle 9 1 % 2 = 0 := by and_intros <;> decide +kernel
theorem test_wit_Opening : Delivered (booted .identified) ∧ NothingQueued (booted .identified) ∧
    (∀ p : Port, (booted .identified).port[p].dlUp = false) ∧
    gaParOk (modSeg 0 (fun x => { x with gaPins := 0x3F }) (booted .identified)) 0 = false ∧
    NothingQueued (modSeg 0 (fun x => { x with gaPins := 0x3F }) (booted .identified)) := by and_intros <;> decide +kernel
/-- Table 13.10: from the release of reset to open ports. -/
theorem test_boot : (after .portsOpen (after .wipeDone (after .sysPllLock State.reset))).pwr.boot = .opened := by decide +kernel
/-- R371: RESET_IN puts the device into reset. -/
theorem test_reset_in : (after .resetIn live).pwr.boot = .inReset ∧ (after .resetIn live).ch[(0 : Port)].st = .absent := by decide +kernel
/-- Table 16.6, R282, R188: SAFE_N and the transceiver controls in reset, and of an idle segment in RUN. -/
theorem test_balls : ballLevel State.reset .safeN = .low ∧ ballLevel (after .resetIn live) (.aoeN 0) = .hiZ ∧
    ballLevel live (.aoeN 0) = .low ∧ ballLevel live (.roeN 0) = .high ∧ ballLevel live (.irqN 0 3) = .released ∧
    ballLevel { live with img := { live.img with ctl := .running } } .safeN = .released := by decide +kernel
def phyOn : State := atPort fun q => { q with phyLock := true }
def almRuns : State := { live with alm := { live.alm with op := some ⟨1, 0, 8, 4, 0, none, 1⟩ } }
theorem test_wit_ClockFaults : Delivered live ∧ live.pwr.boot = .opened ∧ live.pwr.serdesLock = true ∧ (atPwr fun x => { x with serdesLock := false }).pwr.serdesLock = false ∧
    phyOn.port[(0 : Port)].phyLock = true ∧ NothingQueued phyOn ∧
    live.port[(0 : Port)].phyLock = false ∧ SlavesFree live ∧ ring.rng.port[(0 : RingPort)].lost = false ∧ ring.pwr.serdesLock = true ∧
    Delivered ring ∧ almRuns.alm.op = some ⟨1, 0, 8, 4, 0, none, 1⟩ ∧ SlavesFree almRuns ∧ almRuns.lom.loading = none ∧
    almRuns.lom.armState ≠ .marking ∧ almRuns.pwr.saveRun = false ∧ Quiet (engaged (engOf mailT 0) true) ∧
    live.pwr.vddsaOk = true ∧ live.pwr.vddshOk = true := by and_intros <;> decide +kernel
def leaving : State := atPwr fun x => { x with transit := true, fromRun := true, st := .hold }
def holdState : State := atPwr fun x => { x with st := .hold, awake := true }
theorem test_wit_PowerCommands : Calm live ∧ live.pwr.boot = .opened ∧ NothingQueued live ∧
    getFld live .glb 0x064 7 7 = 0 ∧ (ready5 .running 5 5 0).img.ctl = .running ∧ Calm (ready5 .running 5 5 0) ∧ NothingQueued (ready5 .running 5 5 0) ∧
    (brown live).pwr.brownout = true ∧ NothingQueued (brown live) ∧
    live.img.ctl ≠ .running ∧ live.pwr.transit = false ∧ live.pwr.st = .run ∧ (.hold : PowerState) ≠ live.pwr.st ∧
    transitReady leaving = true ∧ leaving.pwr.transit = true ∧ Calm leaving ∧ NothingQueued leaving ∧
    holdState.pwr.st = .hold ∧ holdState.pwr.fromRun = false ∧ holdState.pwr.saveRun = false ∧ holdState.pwr.saveDue = false ∧
    Calm holdState ∧ NothingQueued holdState ∧ holdState.mnt.acc = none ∧ (∀ p : Port, holdState.port[p].bar = []) := by
  and_intros <;> decide +kernel
/-- A Weave with a retain area of eight bytes, and a save into retain slot 2. -/
def saving : State := { live with
  lom := { live.lom with act := put 6 24 4 8 weaveT }, pwr := { live.pwr with saveRun := true }, alm := { live.alm with saveSlot := some (2, 1) } }
/-- The same save, asked for by SAVE_RETAIN, over an image with an uncorrectable word. -/
def savingBad : State := { saving with
  tap := { saving.tap with ecc := [(retBase saving.lom.act / 8, true)] },
  alm := { saving.alm with saveByOp := true, op := some ⟨3, 0, 0, 4, 0, none, 1⟩ } }
def saveDue : State := atPwr fun x => { x with saveDue := true }
def recovered : State := atPwr fun x => { x with brownout := true, recovering := true }
theorem test_wit_Warnings : Delivered live ∧ (booted .inReset).pwr.boot = .inReset ∧ (booted .released).pwr.boot = .released ∧ (brown live).pwr.brownout = true ∧
    (brown live).pwr.boot = .opened ∧ live.pwr.brownout = false ∧ saveDue.pwr.saveDue = true ∧ saveDue.img.runs = [] ∧
    saveDue.pwr.saveRun = false ∧ saving.alm.saveSlot = some (2, 1) ∧ saving.tap.ecc = [] ∧ savingBad.pwr.boot = .opened ∧
    imgBad savingBad (retBase savingBad.lom.act) (retLen savingBad.lom.act) = true ∧ savingBad.alm.saveByOp = true ∧ savingBad.alm.op.isSome = true ∧ 0 < retLen saving.lom.act ∧
    retLen saving.lom.act ≤ 0x40000 ∧ saving.pwr.boot = .opened ∧ live.alm.saveSlot = none ∧
    NothingQueued recovered ∧ recovered.pwr.recovering = true ∧ recovered.pwr.saveRun = false ∧
    recovered.pwr.saveDue = false ∧ recovered.pwr.boot = .opened ∧ recovered.lcc.sealDue = false ∧ recovered.lom.markDue = [] ∧
    recovered.alm.op = none := by and_intros <;> decide +kernel
/-- R378: a warning begins a brownout episode, and it is counted. -/
theorem test_warn : (after (.warn .pfw) live).pwr.brownout = true ∧ getReg (after (.warn .pfw) live) .sup 0x048 = 1 := by decide +kernel

/-! Life cycle, presence, seal, Almanac -/

/-- Life-cycle state changed, with presence. -/
def atLcc (f : Lcc → Lcc) : State := { live with lcc := f { live.lcc with presence := true } }
/-- COMMISSIONING with an active Weave from a slot, the controller stopped, and an identity record. -/
def serviceable : State :=
  putAlm recRegion (recBytes (recMagic .identity) 1 [])
    { woven with lcc := { live.lcc with presence := true }, img := { live.img with ctl := .stopped } }
theorem test_wit_LifeCycle : Calm live ∧ Writer 4 live ∧ FreePage 4 .lcc live ∧ live.lcc.presence = false ∧
    Calm (atLcc fun x => { x with st := .blank }) ∧ (atLcc fun x => { x with st := .blank }).lcc.st = .blank ∧
    (atLcc fun x => { x with st := .maintenance }).img.ctl ≠ .stopped ∧ (atLcc fun x => { x with wiping := true }).lcc.wiping = true ∧
    (atLcc fun x => x).lcc.trans = none ∧ (atLcc fun x => x).lcc.wiping = false ∧ (atLcc fun x => x).lom.armState = .idle ∧
    (atLcc fun x => x).pwr.brownout = false ∧ serviceable.lom.act.src = 1 ∧ serviceable.lom.volatile = false ∧
    (recCounts serviceable .identity).isNone = false ∧ serviceable.lcc.armed = false ∧ serviceable.img.ctl = .stopped ∧ Calm serviceable ∧
    Writer 4 serviceable ∧ serviceable.lcc.st = .commissioning ∧
    { serviceable with lcc := { serviceable.lcc with st := .maintenance } }.img.ctl = .stopped ∧ (1 : BitVec 16).toNat = serviceable.lcc.uid.toNat % 65536 ∧
    (0 : BitVec 16).toNat ≠ serviceable.lcc.uid.toNat % 65536 := by and_intros <;> decide +kernel
theorem test_wit_Transitions : (atLcc fun x => { x with st := .service }).lcc.st = .service ∧ (atLcc fun x => { x with loopBad := true }).lcc.loopBad = true ∧
    (atLcc fun x => { x with trans := some ⟨4, .retired, true⟩ }).lcc.trans = some ⟨4, .retired, true⟩ ∧
    (atLcc fun x => { x with trans := some ⟨1, .commissioning, true⟩ }).lcc.trans = some ⟨1, .commissioning, true⟩ ∧
    (atLcc fun x => { x with trans := some ⟨1, .commissioning, false⟩ }).lcc.trans = some ⟨1, .commissioning, false⟩ ∧
    (atLcc fun x => { x with trans := some ⟨1, .commissioning, false⟩ }).pwr.brownout = false ∧ recCounts live .lifeCycle = none ∧
    recCounts live .seal = none := by and_intros <;> decide +kernel
/-- R387: OP 2 takes COMMISSIONING to SERVICE; R388: without presence it is refused with code 0x1. -/
theorem test_to_service : (after (.lcToService 4) serviceable).lcc.st = .service ∧ (after (.lcToService 4) live).lcc.refuse = 1 := by decide +kernel
theorem test_wit_PresenceAndSeal : Delivered live ∧ live.pwr.boot = .opened ∧ live.pwr.seqRun = false ∧ live.lcc.presence = false ∧ live.lcc.timedOut = false ∧
    (atLcc fun x => x).lcc.presence = true ∧ live.lcc.armed = false ∧ (atLcc fun x => { x with armed := true }).lcc.armed = true ∧
    (0 : BitVec 16) ≠ sealNext live ∧ (atLcc fun x => { x with armed := true, failRun := 3 }).lcc.failRun = 3 ∧ live.lcc.failRun ≠ 3 ∧
    recCounts live .seal = none := by and_intros <;> decide +kernel
/-- R392: x^16 + x^14 + x^13 + x^11 + 1 from the seed 0x0001: bits 15, 13, 12 and 10 of 0x0400 give the bit that enters after ten shifts. -/
theorem test_seal : lfsrSteps 10 1 = 0x0400 ∧ lfsrSteps 11 1 = 0x0801 := by decide +kernel
/-- An Almanac operation runs. -/
def atAlm (f : Alm → Alm) : State := { live with alm := f live.alm }
def opT (op slot len words : Nat) : AlmOp := ⟨op, slot, len, 4, words, none, 1⟩
/-- OP_LEN of eight bytes. -/
def lengthed (n : Word) : State := setReg .alm 0x050 n live
def slot0 : State := atAlm fun x => { x with op := some (opT 1 0 8 0) }
def whole : AlmOp := opT 1 1 3145728 393216
theorem test_wit_AlmanacOperations : Calm live ∧ Writer 4 live ∧ FreePage 4 .alm live ∧ live.pwr.st = .run ∧ live.alm.op = none ∧
    slot0.alm.op ≠ none ∧ live.lcc.st = .commissioning ∧ (atLcc fun x => x).lcc.presence = true ∧ live.lcc.presence = false ∧ activePresent live = false ∧
    getFld live .alm 0x050 21 0 = 0 ∧ getFld (lengthed 8) .alm 0x050 21 0 = 8 ∧ getFld (lengthed 3145728) .alm 0x050 21 0 = 3145728 ∧
    protectedSlot live 0 = false ∧ protectedSlot (writeMark 0 0xFF 0 live) 0 = true ∧ live.lom.loading = none ∧
    imageT.lom.loading = some (some 0) ∧ activePresent woven = true ∧ getFld woven .alm 0x060 0 0 = 1 ∧ woven.pwr.saveRun = false ∧
    woven.pwr.brownout = false ∧ (holdState.pwr.st ≠ .run) ∧ Calm holdState ∧ Writer 4 holdState := by and_intros <;> decide +kernel
/-- Two words of the first block in error, one of them uncorrectable. -/
def marked : State := atAlm fun x => { x with ecc := [(3, true), (5, false)] }
theorem test_wit_AlmanacEnds : slot0.alm.op = some (opT 1 0 8 0) ∧ slot0.pwr.st = .run ∧ Calm slot0 ∧
    8 * (opT 1 0 8 0).words < (opT 1 0 8 0).len ∧ whole.len ≤ 8 * whole.words ∧
    whole.slot < 2 ∧ 0 < (opT 1 0 8 1).len ∧ (opT 1 0 8 0).req = 4 ∧ (0 : Req).val ≠ 4 ∧ Writer 0 slot0 ∧ FreePage 0 .alm slot0 ∧
    live.alm.saveByOp = false ∧ live.lcc.st ≠ .retired ∧ (atLcc fun x => { x with st := .retired }).lcc.st = .retired ∧
    recCounts live .identity = none ∧ recCounts live .wear = none ∧ blockWritten live (refreshBlock live) = false ∧
    blockWritten slot0 (refreshBlock slot0) = true ∧ blockWritten marked (refreshBlock marked) = false ∧
    (marked.alm.ecc.map fun e => (e.1 / 512 == refreshBlock marked, e.2)) = [(true, true), (true, false)] := by and_intros <;> decide +kernel
/-- R404, R407: a refresh corrects what it can and leaves an uncorrectable word as it is. -/
theorem test_refresh : (after .refreshStep marked).alm.ecc = [(3, true)] := by decide +kernel
/-- R403: a LEN that is not a multiple of 8 is refused with RESULT 0x5, ABORT ends a write with 0x6. -/
theorem test_alm : (after (.writeWeave 4) (lengthed 7)).alm.statResult = 5 ∧
    (after (.almAbort 4) (atAlm fun x => { x with op := some (opT 1 0 8 0) })).alm.statResult = 6 := by decide +kernel

/-! Event log, scrubber, test access port -/

/-- The log queue with one record of event `ev`. -/
def logged (ev : Nat) (eop : Bool) : State :=
  setPkts 26 [pktT .mailbox 26 (List.replicate 12 0 ++ [BitVec.ofNat 8 ev] ++ List.replicate 19 0) eop] live
/-- Port 1 has not yet sent its PTM; a fresh log scan; a bad word in memory 3. -/
def slowPort : State := { live with tx := live.tx.set 1 ⟨none, [(1, ⟨0, []⟩)]⟩ }
def scan : State := { live with evh := { live.evh with scanning := true } }
def badWord (u : Bool) : State := { live with tap := { live.tap with ecc := [(3 * 2 ^ 24 + 9, u)] } }
theorem test_wit_LogAndTest : Delivered live ∧ live.pwr.boot = .opened ∧ ListsGood live ∧ ListsGood (logged 5 true) ∧
    (listPkts (logged 5 false) 26).map (·.eop) = [false] ∧ listPkts live 26 = [] ∧
    ((listPkts (logged 5 true) 26).all fun p => p.eop && decide (p.sent + 32 ≤ p.data.length) && decide ((p.data.getD (p.sent + 12) 0).toNat ≠ 227)) = true ∧
    (logged 5 true).evh.scanning = false ∧ (logged 5 true).pwr.brownout = false ∧ domGate (logged 5 true) 3 = 0 ∧ (logged 5 true).lcc.st ≠ .retired ∧
    (logged 5 true).tap.ecc = [] ∧ (logged 5 true).evh.lostNext = 0 ∧ (atLcc fun x => { x with st := .retired }).lcc.st = .retired ∧
    (slowPort.tx[(1 : Port)].waiting.any fun e => e.1 == 1) = true ∧ scan.evh.scanning = true ∧ scan.pwr.brownout = false ∧
    getFld scan .glb 0x064 7 7 = 0 ∧
    getFld live .cnt 0x004 0 0 = 1 ∧ domGate live 0 = 0 ∧ 0 < memWords 0 ∧ memWords 7 - 1 < memWords 7 ∧ live.tap.ecc = [] ∧
    (badWord true).tap.ecc = [((3 : Fin 8).val * 2 ^ 24 + 9, true)] ∧ 9 < memWords 3 ∧
    getFld (setReg .cnt 0x004 0x800 live) .cnt 0x004 0 0 = 0 ∧ (atLcc fun x => { x with st := .service }).lcc.st = .service := by
  and_intros <;> decide +kernel
/-- R348: the record of event 5 is stored as record 0. -/
theorem test_log_store : (after .logRecordStore (logged 5 true)).evh.logWr = 1 ∧ mget 0 (after .logRecordStore (logged 5 true)).alm.mem 0x68000C = 5 := by
  decide +kernel
/-- Table 15.4: an instruction that is not listed selects BYPASS. -/
theorem test_tap : (after (.tapUpdateIr 0x15) live).tap.ir = 0x3F ∧ (after (.tapUpdateIr 0x02) live).tap.ir = 0x02 := by decide +kernel

/-! The maintenance port -/

/-- A frame access waits; the mailbox has ended. -/
def atMnt (f : Mnt → Mnt) : State := { live with mnt := f live.mnt }
theorem test_wit_MaintenanceFrames : Calm live ∧ live.pwr.boot ≠ .inReset ∧ (live.mnt.acc.isSome || live.pwr.boot != .opened) = false ∧
    ((atMnt fun x => { x with acc := some ⟨false, false, false, 0, 0⟩ }).mnt.acc.isSome) = true ∧ (71 : Nat) ≠ 72 ∧
    (0x0FFFFC : BitVec 25).toNat % 4 = 0 ∧ 0x100000 ≤ (0x100000 : BitVec 25).toNat ∧ crc8 0 ≠ crc8 1 := by and_intros <;> decide +kernel
/-- R52: a frame of 71 clocks is counted in ABORTS and not executed. -/
theorem test_mnt_abort : getReg (after (.mntRead 71 false ⟨0, 0⟩ 0) live) .mnt 0x048 = 1 ∧ (after (.mntRead 71 false ⟨0, 0⟩ 0) live).mnt.acc = none := by
  decide +kernel
def away5 : State := { live with lom := { live.lom with act := put 1 16 16 (patT 0 (5 * 16)) weaveT }, rng := { live.rng with num := 1 } }
def accessing (a : MntAcc) : State := atMnt fun x => { x with acc := some a }
theorem test_wit_MaintenanceAccesses : Calm live ∧ live.pwr.boot = .opened ∧ live.mnt.acc = none ∧
    (accessing ⟨false, false, false, regAddr .img 0, 0⟩).mnt.acc = some ⟨false, false, false, regAddr .img 0, 0⟩ ∧
    Calm (accessing ⟨false, false, false, regAddr .img 0, 0⟩) ∧
    live.tap.ecc = [] ∧ heldIn live 4 .img = none ∧ getFld (setReg .img 0x018 1 (accessing ⟨true, false, false, regAddr .img 0x018, 1⟩)) .img 0x018 0 0 = 1 ∧
    heldIn (accessing ⟨true, true, false, regAddr .cnt 0x040, 5⟩) 4 .cnt = none ∧
    heldIn live 4 .mnt = none ∧ (atMnt fun x => { x with legRun := true }).mnt.legRun = true ∧ woven.mnt.legRun = false ∧ 3 < fieldOf (0x00040000 : Word) 18 16 ∧
    fieldOf (0x80020001 : Word) 18 16 = 2 ∧ accessRefused (patOf (patEntry woven.lom.act 1)) false 0 4 = false ∧ (patOf (patEntry woven.lom.act 1)).node = 0 ∧
    lcOpen { woven with lcc := { woven.lcc with st := .service } } = false ∧ (patOf (patEntry woven.lom.act 1)).idem = false ∧ lcOpen woven = true ∧
    (patOf (patEntry woven.lom.act 1)).kind ≠ .rmw ∧ NothingQueued woven ∧ masterOk woven 0 = true ∧ ListsGood woven ∧ claimOk woven.crl 4 1 = true ∧
    accessRefused (patOf (patEntry woven.lom.act 0)) true 0 4 = false ∧ (patOf (patEntry woven.lom.act 2)).idem = true := by
  and_intros <;> decide +kernel
theorem test_wit_MailboxEnds : accessRefused (patOf (patEntry away5.lom.act 1)) false 0 4 = false ∧ (patOf (patEntry away5.lom.act 1)).node = 5 ∧
    isMember away5 5 = false ∧ away5.rng.num = 1 ∧ lcOpen away5 = true ∧ Calm away5 ∧ away5.mnt.legRun = false ∧
    (atMnt fun x => { x with legEnd := some (true, 15, []) }).mnt.legEnd = some (true, 15, []) ∧
    (atMnt fun x => { x with legEnd := some (false, 0, [1, 2, 3, 4, 5, 6, 7, 8]), legRead := true }).mnt.legRead = true := by
  and_intros <;> decide +kernel
/-- R58, Table 2.20: the mailbox's read data, the byte at the lowest offset in bits [7:0]. -/
theorem test_leg_done : getReg (after .legDone (atMnt fun x => { x with legEnd := some (false, 0, [1, 2, 3, 4]), legRead := true, legRun := true })) .mnt 0x060 =
    0x04030201#32 := by decide +kernel

end Sys2Proof.Tests
end

section
/-!
SUPPORT. How a command of the register model completes (chapter 2): what the delivery of its events leaves of the ports and the outputs,
and how an access of a requester comes to the register it names.
-/

namespace Sys2Proof.Machine

open Sys2Proof

/-! What the delivery of events leaves of the ports and of the outputs -/

/-- From `s` to `t` ports only send: what leaves is appended to the outputs, and no port changes but by leaving L1 (R119). -/
def SendsOnly (s t : State) : Prop := t.port = portsBut s t ∧ s.out <+: t.out

theorem portsBut_iff (s t : State) : t.port = portsBut s t ↔ ∀ p : Port, t.port[p] = { s.port[p] with l1 := t.port[p].l1 } := by
  constructor
  · intro h p
    have e : t.port[p] = (portsBut s t)[p] := by rw [← h]
    rw [e]; simp [portsBut]
  · intro h
    apply Vector.ext; intro i hi
    have := h ⟨i, hi⟩
    simpa [portsBut] using this

theorem portsBut_trans {s t u : State} (h1 : t.port = portsBut s t) (h2 : u.port = portsBut t u) : u.port = portsBut s u := by
  rw [portsBut_iff] at *
  intro p; rw [h2 p, h1 p]

theorem SendsOnly.trans {s t u : State} (h1 : SendsOnly s t) (h2 : SendsOnly t u) : SendsOnly s u :=
  ⟨portsBut_trans h1.1 h2.1, h1.2.trans h2.2⟩

theorem sendsOnly_of_same {s t : State} (hp : t.port = s.port) (ho : t.out = s.out) : SendsOnly s t :=
  ⟨portsBut_same hp, by rw [ho]⟩

theorem foldl_sendsOnly {α : Type} (f : State → α → State) (hf : ∀ s a, SendsOnly s (f s a)) (l : List α) (s : State) :
    SendsOnly s (l.foldl f s) := by
  induction l generalizing s with
  | nil => exact sendsOnly_of_same rfl rfl
  | cons a l ih => exact (hf s a).trans (ih (f s a))

/-- A port that leaves L1 changes in nothing else. -/
theorem leaveL1_portsBut {p : Port} {s t : State} (h : t.port = s.port.set p { s.port[p] with l1 := false }) : t.port = portsBut s t := by
  rw [portsBut_iff]; intro q
  by_cases e : q = p
  · subst e; simp [h]
  · rw [h, set_other _ _ _ _ e]

theorem sendOut_sends (p : Port) (os : List Out) (s : State) : SendsOnly s (sendOut p os s) :=
  ⟨leaveL1_portsBut (p := p) rfl, List.prefix_append _ _⟩

theorem issueTlp_sends (p : Port) (kd : Nat) (t : PTlp) (s : State) : SendsOnly s (issueTlp p kd t s) := by
  unfold issueTlp; dsimp only; split
  · exact sendOut_sends _ _ _
  · exact (sendOut_sends p _ s).trans (sendsOnly_of_same (modMsix_frame p _ _).2.2.2.2.2.1.2.1 rfl)

/-- The transmit queues are no port. -/
theorem tx_sends (s : State) (x : Vector TxQ 4) : SendsOnly s { s with tx := x } := sendsOnly_of_same rfl rfl

theorem msixPark_sends (p : Port) (v : Nat) (s : State) : SendsOnly s (msixPark p v s) := sendsOnly_of_same (by simp) (by simp)

theorem drainTx_sends (p : Port) (n : Nat) (s : State) : SendsOnly s (drainTx p n s) := by
  induction n generalizing s with
  | zero => exact sendsOnly_of_same rfl rfl
  | succ n ih =>
    unfold drainTx; split
    · exact sendsOnly_of_same rfl rfl
    · split
      · refine SendsOnly.trans ?_ (ih _)
        refine SendsOnly.trans ?_ (msixPark_sends _ _ _)
        exact tx_sends s _
      · split
        · refine SendsOnly.trans ?_ (ih _)
          refine SendsOnly.trans ?_ (issueTlp_sends _ _ _ _)
          exact tx_sends s _
        · exact sendsOnly_of_same rfl rfl

theorem msixSend_sends (p : Port) (v : Nat) (s : State) : SendsOnly s (msixSend p v s) :=
  (sendsOnly_of_same (by simp) (by simp)).trans (drainTx_sends p _ _)

theorem msixCall_sends (p : Port) (v : Nat) (s : State) : SendsOnly s (msixCall p v s) := by
  unfold msixCall; repeat' split
  · exact sendsOnly_of_same rfl rfl
  · exact sendsOnly_of_same rfl rfl
  · exact sendsOnly_of_same (by simp) (by simp)
  · exact msixSend_sends p v s

theorem msixAll_sends (v : Nat) (s : State) : SendsOnly s (msixAll v s) := by
  unfold msixAll; split
  · exact sendsOnly_of_same rfl rfl
  · refine foldl_sendsOnly _ (fun s p => ?_) _ s
    split
    · exact msixCall_sends p v s
    · exact sendsOnly_of_same rfl rfl

/-- The levels and the message of an occurrence that is enabled. -/
theorem routed_sends (r ev : Nat) (on : Bool) (s : State) :
    SendsOnly s (if on then addLevel 1 (bitsOf r 14 12) ev (addLevel 0 (bitsOf r 11 9) ev
      (if bitsOf r 8 8 = 1 then msixAll (bitsOf r 7 0) s else s)) else s) := by
  have level : ∀ t : State, SendsOnly t (addLevel 1 (bitsOf r 14 12) ev (addLevel 0 (bitsOf r 11 9) ev t)) :=
    fun t => sendsOnly_of_same (by simp) (by simp)
  split
  · refine SendsOnly.trans ?_ (level _)
    split
    · exact msixAll_sends _ s
    · exact sendsOnly_of_same rfl rfl
  · exact sendsOnly_of_same rfl rfl

theorem deliver_sends (o : Occ) (s : State) : SendsOnly s (deliver o s) := by
  have log : ∀ (b : Bool) (t : State), SendsOnly t (if b then logRecord o t else t) := by
    intro b t; split
    · exact sendsOnly_of_same (by simp) (by simp)
    · exact sendsOnly_of_same rfl rfl
  unfold deliver; dsimp only
  refine SendsOnly.trans ?_ (log _ _)
  refine SendsOnly.trans ?_ (routed_sends _ _ _ _)
  split <;> exact sendsOnly_of_same (by simp) (by simp)

theorem wave_sends (s : State) : SendsOnly s (wave s) := by
  unfold wave; dsimp only
  refine .trans (.trans (sendsOnly_of_same (s := s) rfl rfl) ?_) (foldl_sendsOnly _ (fun s o => deliver_sends o s) _ _)
  exact foldl_sendsOnly _ (fun s e => sendsOnly_of_same (by simp) (by simp)) _ _

theorem waves_sends (n : Nat) (s : State) : SendsOnly s (waves n s) := by
  induction n generalizing s with
  | zero => exact sendsOnly_of_same rfl rfl
  | succ n ih =>
    unfold waves; split
    · exact sendsOnly_of_same rfl rfl
    · exact (wave_sends s).trans (ih _)

theorem settleWoken_same (s : State) : (settleWoken s).port = s.port ∧ (settleWoken s).out = s.out := by
  unfold settleWoken settleStart; repeat' split
  all_goals simp

/-- The delivery of events sends, and changes no port otherwise (R110, R119). -/
theorem settle_sends (s : State) : SendsOnly s (settle s) := by
  have e : (settle s).port = (waves 300 (settleWoken s)).port ∧ (settle s).out = (waves 300 (settleWoken s)).out := by
    unfold settle settleWoken settleStart; generalize 300 = n; exact ⟨rfl, rfl⟩
  have before : SendsOnly s (settleWoken s) := sendsOnly_of_same (settleWoken_same s).1 (settleWoken_same s).2
  exact (before.trans (waves_sends 300 _)).trans (sendsOnly_of_same e.1 e.2)

@[simp] theorem settle_vot (s : State) : (settle s).vot = s.vot := by
  have h : (settle s).vot = (settleStart s).vot := by unfold settle settleStart; rfl
  rw [h]; unfold settleStart; split <;> rfl

end Sys2Proof.Machine
end

section
namespace Sys2Proof.Machine

open Sys2Proof

/-! Frames -/

theorem restSame_refl (s : State) : RestSame s s := (restSame_iff s s).2 (by simp [portsBut_same rfl])

theorem restSame_trans {s t u : State} (h1 : RestSame s t) (h2 : RestSame t u) : RestSame s u := by
  rw [restSame_iff] at *
  obtain ⟨a1, a2, a3, a4, a5, a6, a7⟩ := h1
  obtain ⟨b1, b2, b3, b4, b5, b6, b7⟩ := h2
  exact ⟨by simp_all, by simp_all, by simp_all, b4.trans a4, b5.trans a5, b6.trans a6, portsBut_trans a7 b7⟩

/-- What changes only registers and the event hub is within `RestSame`. -/
theorem restSame_of_reports {s t : State} (h : OnlyReports s t) : RestSame s t := by
  rw [restSame_iff]
  obtain ⟨h1, ⟨-, hp, -, -⟩, h2, ⟨h3, h4, -⟩, h5, ⟨h6, -⟩⟩ := h
  exact ⟨h1, h2, h5, h6, h3, h4, portsBut_same hp⟩

/-- The delivery of events is within `RestSame`. -/
theorem restSame_settle {s x : State} (h : RestSame s x) : RestSame s (settle x) := by
  refine restSame_trans h ((restSame_iff _ _).2 ?_)
  have k := settle_keeps x
  exact ⟨k.1, k.2.1, k.2.2.1, settle_vot x, k.2.2.2.1, k.2.2.2.2.1, (settle_sends x).1⟩

theorem settle_regs (x : State) : (settle x).regs = x.regs := by simp

theorem getReg_settle (x : State) (k : PageKind) (off : Nat) : getReg (settle x) k off = getReg x k off := getReg_congr (settle_regs x) k off

/-! What a command finds -/

/-- An access that is received changes its port, which leaves L1, and clears the outputs. -/
@[simp] theorem reached_same (r : Req) (s : State) :
    SameStill s (reached r s) ∧ SameUnits s (reached r s) ∧ SameHeld s (reached r s) ∧ SamePlant s (reached r s) ∧
    SameVote s (reached r s) ∧ Same4 State.tx State.msix State.regs State.evh s (reached r s) ∧ (reached r s).out = [] := by
  unfold reached; split <;> simp

theorem reached_ports (r : Req) (s : State) : (reached r s).port = portsBut s (reached r s) := by
  unfold reached; split
  · exact portsBut_same rfl
  · exact leaveL1_portsBut rfl

theorem restSame_reached (r : Req) (s : State) : RestSame s (reached r s) :=
  (restSame_iff _ _).2 (by simp [reached_ports])

theorem landed_cleared (r : Req) {s : State} (h : CoreRuns s) : landed r (cleared s) = reached r s :=
  landed_runs r (cleared s) h

theorem heldIn_reached (r q : Req) (k : PageKind) (s : State) : heldIn (reached r s) q k = heldIn s q k := by unfold heldIn; simp

theorem getReg_reached (r : Req) (k : PageKind) (off : Nat) (s : State) : getReg (reached r s) k off = getReg s k off :=
  getReg_congr (by simp) k off

theorem delivered_reached (r : Req) {s : State} (h : Delivered s) : Delivered (reached r s) := by
  have e : (reached r s).evh = s.evh := by simp
  unfold Delivered; rw [e]; exact h

/-- With every event delivered, a delivery changes nothing. -/
theorem settle_delivered {x : State} (h : Delivered x) : settle x = x := by
  rw [settle_quiet x h.1]
  calc ({ x with evh := { x.evh with occ := [], sub := 0 } } : State)
      = { x with evh := { x.evh with occ := x.evh.occ, sub := x.evh.sub } } := by rw [h.1, h.2]
    _ = x := rfl

theorem Writer.opened {r : Req} {s : State} (h : Writer r s) : s.pwr.boot = .opened := by
  rcases hp : reqPort r with _ | p
  · exact h.1 hp
  · obtain ⟨-, hon, -⟩ := h.2 p hp
    simp only [barOn, Bool.and_eq_true, beq_iff_eq] at hon
    exact hon.2

theorem reqPort_portReq (p : Port) : reqPort (portReq p) = some p := by unfold reqPort portReq; simp

/-! How commands complete -/

/-- What a command that runs an effect answers. -/
theorem exec_run {c : Instr} {s x : State} (f : State → State) (hc : exec c s = run f s) (hf : f (cleared s) = x) :
    exec c s = .next (settle x) := by
  rw [hc, run_cleared, hf]

/-- A command completes with the state that its effect leaves once its events are delivered. -/
theorem completes_settle {c : Instr} {s x : State} {P : State → Prop} (hx : exec c s = .next (settle x)) (hP : P (settle x)) :
    Completes c s P := ⟨_, hx, hP⟩

/-- A command whose effect raises no event completes with the state that its effect leaves. -/
theorem completes_quiet {c : Instr} {s x : State} {P : State → Prop} (hx : exec c s = .next (settle x)) (hd : Delivered x) (hP : P x) :
    Completes c s P := ⟨_, hx, by rw [settle_delivered hd]; exact hP⟩

/-! The way of a write to BAR0 -/

theorem writeWaits_aligned (s : State) (r : Req) (a : Nat) (full : Bool) : writeWaits s r (a / 4 * 4) full = writeWaits s r a full := by
  have h1 : a / 4 * 4 / 0x1000 = a / 0x1000 := by omega
  have h2 : a / 4 * 4 / 4 * 4 = a / 4 * 4 := by omega
  unfold writeWaits indWaits streamWaits; rw [h1, h2]

theorem bar0Word_aligned (r : Req) (a : Nat) (full : Bool) (d : Word) (s : State) :
    bar0Word r (a / 4 * 4) full d s = bar0Word r a full d s := by
  have h : a / 4 * 4 / 4 * 4 = a / 4 * 4 := by omega
  unfold bar0Word; rw [h]

/-- A DW that a port with free buffers receives takes its turn at once (R95, R96, R100). -/
theorem bar0WriteOp_lands (p : Port) (a : Nat) (en : List Bool) (d : Word) (s : State) (hw : Writer (portReq p) s) (h4 : a % 4 = 0)
    (hwait : writeWaits (landed (portReq p) s) (portReq p) a (!en.contains false) = false) :
    bar0WriteOp p a en d false s = bar0Word (portReq p) a (!en.contains false) d (landed (portReq p) s) := by
  have e : landed (portReq p) s = portWake p (receipt p s) := by unfold landed; rw [reqPort_portReq]
  obtain ⟨⟨ho, hrx, hbar⟩, hon, -⟩ := hw.2 p (reqPort_portReq p)
  have hroom := (word_room p .glb 0 s hrx hbar rfl).1
  have hcut : (crosses a 4 || decide (mps s p < 4)) = false := by
    have := mps_ge s p
    simp only [crosses, Bool.or_eq_false_iff, decide_eq_false_iff_not]; omega
  have hrx2 : (receipt p s).port[p].rx = [] := by unfold receipt; rw [modPort_same, hrx]
  have hbar2 : (receipt p s).port[p].bar = [] := by unfold receipt; rw [modPort_same, hbar]
  rw [e] at hwait ⊢
  unfold bar0WriteOp recvPosted; dsimp only
  rw [ho, hroom, hcut, arrive_free p _ _ hrx2 hbar2 rfl]
  unfold barTake bar0WriteTake; dsimp only
  rw [barOn_receipt, hon, hwait]
  simp only [Bool.not_true, Bool.false_eq_true, if_false]

/-- A write that nothing makes wait acts on its word at once (R9, R13). -/
theorem bar0Write_lands (r : Req) (a : Nat) (full : Bool) (d : Word) (s : State) (hw : Writer r s)
    (hwait : writeWaits (landed r s) r a full = false) : bar0Write r a full d s = bar0Word r a full d (landed r s) := by
  rcases h0 : reqPort r with _ | p
  · have e : landed r s = wakeCore 2 4 s := by unfold landed; rw [h0]
    rw [e] at hwait ⊢
    unfold bar0Write; rw [h0]; dsimp only
    rw [if_pos (hw.1 h0), hwait]; rfl
  · obtain rfl := reqPort_some h0
    have hfull : (!(List.replicate 4 full).contains false) = full := by cases full <;> rfl
    unfold bar0Write; rw [h0]; dsimp only
    rw [bar0WriteOp_lands p _ _ d s hw (by omega) (by rw [writeWaits_aligned, hfull]; exact hwait), bar0Word_aligned, hfull]

/-- A partial write never waits (R13). -/
theorem writeWaits_partial (s : State) (r : Req) (a : Nat) : writeWaits s r a false = false := by simp [writeWaits]

/-- No write waits where no register page is (R11, R12). -/
theorem writeWaits_noPage (s : State) (r : Req) (a : Nat) (full : Bool) (h : pageKind (a / 0x1000) = none) : writeWaits s r a full = false := by
  simp [writeWaits, indWaits, streamWaits, h]

end Sys2Proof.Machine
end

section
namespace Sys2Proof.Machine

open Sys2Proof

/-! Header registers (Tables 2.1 to 2.10) -/

theorem regFields_eventAck (k : PageKind) : regFields k 0x010 = [fd 31 24 .wo, fd 23 0 .wo] := by cases k <;> rfl
theorem regFields_eventEn (k : PageKind) : regFields k 0x014 = [fd 23 0 .rw] := by cases k <;> rfl
theorem regFields_lock (k : PageKind) : regFields k 0x018 = [fd 0 0 .w1] := by cases k <;> rfl
theorem regFields_indData (k : PageKind) : regFields k 0x024 = [fdH 31 0 .rw] := by cases k <;> rfl
theorem regFields_guard (k : PageKind) : regFields k 0x028 = [fd 31 0 .wo] := by cases k <;> rfl

/-- A register that is written by its class alone: it has fields, and no G or V among them (R28, R32). -/
def PlainReg (k : PageKind) (off : Nat) : Prop := regFields k off ≠ [] ∧ hasG k off = false ∧ hasV k off = false

theorem plain_eventAck (k : PageKind) : PlainReg k 0x010 := by unfold PlainReg hasG hasV; rw [regFields_eventAck]; decide
theorem plain_eventEn (k : PageKind) : PlainReg k 0x014 := by unfold PlainReg hasG hasV; rw [regFields_eventEn]; decide
theorem plain_lock (k : PageKind) : PlainReg k 0x018 := by unfold PlainReg hasG hasV; rw [regFields_lock]; decide
theorem plain_indData (k : PageKind) : PlainReg k 0x024 := by unfold PlainReg hasG hasV; rw [regFields_indData]; decide

/-- The address of a register names its page and its offset. -/
theorem regAddr_parts (k : PageKind) (off : Nat) (ho : off < 0x1000) (h4 : off % 4 = 0) :
    regAddr k off / 4 * 4 = regAddr k off ∧ regAddr k off / 0x1000 = k.num ∧ regAddr k off % 0x1000 = off := by
  unfold regAddr; omega

/-- A write of a word of a register page, past the port (R9). -/
theorem bar0Word_page (r : Req) (k : PageKind) (off : Nat) (full : Bool) (d : Word) (s : State) (ho : off < 0x1000) (h4 : off % 4 = 0) :
    bar0Word r (regAddr k off) full d s = pageWrite r k k.num off full d s := by
  obtain ⟨ha, hp, hr⟩ := regAddr_parts k off ho h4
  unfold bar0Word; simp only [ha, hp, hr, inArray_num, Bool.false_eq_true, if_false, pageKind_num]

/-- A partial write of a register is captured with cause 0x7 and stores nothing (R13). -/
theorem bar0Word_partial (r : Req) (k : PageKind) (off : Nat) (d : Word) (s : State) (hs : ∀ c, reqPort r = some c → s.ch[c].st = .active)
    (hp : pageRefused r k = false) (ho : off < 0x1000) (h4 : off % 4 = 0) :
    bar0Word r (regAddr k off) false d s = capture k 7 r.val k.num off d s := by
  rw [bar0Word_page r k off false d s ho h4]
  unfold pageWrite; simp only [hp, Bool.false_eq_true, if_false, Bool.not_false, if_true]
  split
  · rfl
  · rename_i c hc
    have : writeRight s c k (foldOff off) = .yes := by unfold writeRight; rw [hs c hc]
    rw [this]

/-- Every byte enable is set exactly in a full write (R13). -/
theorem enables_full (be : BitVec 4) : (!((List.range 4).map be.getLsbD).contains false) = (be == 0xF) := by revert be; decide

/-- REGISTER_WRITE without poison acts on its word at once where nothing makes it wait. -/
theorem exec_registerWrite (r : Req) (a : BitVec 20) (be : BitVec 4) (d : Word) (s : State) (hc : CoreRuns s) (hw : Writer r s)
    (hwait : writeWaits (reached r s) r a.toNat (be == 0xF) = false) :
    exec (.registerWrite r a be ⟨d, false⟩) s = .next (settle (bar0Word r a.toNat (be == 0xF) d (reached r s))) := by
  have hen := enables_full be
  show run _ s = _
  rw [run_cleared]
  rcases h0 : reqPort r with _ | p
  · rw [← landed_cleared r hc] at hwait ⊢
    rw [← bar0Write_lands r _ _ d (cleared s) hw hwait]
  · obtain rfl := reqPort_some h0
    rw [← landed_cleared _ hc] at hwait ⊢
    dsimp only
    rw [bar0WriteOp_lands p _ _ d (cleared s) hw (by omega) (by rw [writeWaits_aligned, hen]; exact hwait), bar0Word_aligned, hen]

theorem reached_active {r : Req} {s : State} (hw : Writer r s) (c : Port) (h : reqPort r = some c) : (reached r s).ch[c].st = .active := by
  have e : (reached r s).ch = s.ch := by simp
  rw [e]; exact (hw.2 c h).2.2

theorem landed_active {r : Req} {s : State} (hw : Writer r s) (c : Port) (h : reqPort r = some c) : (landed r (cleared s)).ch[c].st = .active := by
  have e : (landed r (cleared s)).ch = s.ch := by simp
  rw [e]; exact (hw.2 c h).2.2

/-! EVENT_EN -/

/-- With no occurrence in this core cycle there is no route to keep. -/
theorem pinRoutes_quiet (was s : State) (h : s.evh.occ = []) : pinRoutes was s = s := by
  have e : (s.evh.occ.map fun o => { o with pin := o.pin.or (some (routeOf was o.ev, eventEnabled was o.ev)) }) = s.evh.occ := by rw [h]; rfl
  unfold pinRoutes; rw [e]

theorem headerWrite_eventEn (r : Req) (k : PageKind) (page raw : Nat) (d : Word) (s : State) (h : s.evh.occ = []) :
    headerWrite r k page 0x014 raw d s = storeReg k 0x014 d s := by
  have e : headerWrite r k page 0x014 raw d s = storeReg k 0x014 d (pinRoutes s s) := by
    cases k <;> simp [headerWrite]
  rw [e, pinRoutes_quiet _ _ h]

theorem storeReg_eq (k : PageKind) (off : Nat) (d : Word) (s : State) : storeReg k off d s = { s with regs := (storeReg k off d s).regs } := rfl

theorem otherRegs_storeReg (k : PageKind) (off : Nat) (d : Word) (s : State) : OtherRegs k off s (storeReg k off d s) := otherRegs_setReg k off _ s

/-- A stored register takes its writable bits from a write and keeps the others (R17). -/
theorem getReg_storeReg (k : PageKind) (off : Nat) (d : Word) (s : State) :
    getReg (storeReg k off d s) k off = (getReg s k off &&& ~~~ w32 (writable k off)) ||| (d &&& w32 (writable k off)) := by
  unfold storeReg; exact getReg_setReg k off _ s

theorem writable_eventEn (k : PageKind) : w32 (writable k 0x014) = 0x00FFFFFF#32 := by unfold writable; rw [regFields_eventEn]; rfl

theorem otherRegs_reached {r : Req} {k : PageKind} {off : Nat} {s t : State} (h : OtherRegs k off (reached r s) t) : OtherRegs k off s t :=
  otherRegs_congr h (by simp) rfl

/-- A full write of EVENT_EN by a requester with every right (R17). -/
theorem write_eventEn (r : Req) (k : PageKind) (d : Word) (s : State) (hd : Delivered s) (hw : Writer r s) (hp : FreePage r k s) :
    bar0Word r (regAddr k 0x014) true d (reached r s) = storeReg k 0x014 d (reached r s) := by
  obtain ⟨hf, hg, hv⟩ := plain_eventEn k
  rw [bar0Word_reg r k 0x014 d _ (reached_active hw) hp.1 (by decide) (by decide),
    regWrite_header r k _ _ _ d _ ((heldIn_reached r r k s).trans hp.2) hf (by decide) hg hv (by decide),
    headerWrite_eventEn _ _ _ _ _ _ (delivered_reached r hd).1]

/-! Captured errors -/

/-- A captured error shows in ERRLOG once the events are delivered. -/
theorem captured_settle {k : PageKind} {cause : Nat} {r : Req} {page off : Nat} {d : Word} {s x : State}
    (h0 : getReg x (errPage k) 0x030 = getReg s (errPage k) 0x030) (h4 : getReg x (errPage k) 0x034 = getReg s (errPage k) 0x034) :
    Captured k cause r page off d s (settle (capture k cause r.val page off d x)) := by
  have h := captured_congr (capture_captured k cause r page off d x) rfl (settle_regs _)
  unfold Captured getFld at *
  rw [h0, h4] at h; exact h

/-- A captured error of a requester's access changes registers and the event hub alone. -/
theorem restSame_capture {k : PageKind} {cause req page off : Nat} {d : Word} {s x : State} (h : RestSame s x) :
    RestSame s (settle (capture k cause req page off d x)) :=
  restSame_settle (restSame_trans h (restSame_of_reports (capture_frame _ _ _ _ _ _ _)))

/-- The capture of a refused write sets the LOCK_VIOL event of its page (R19). -/
theorem capture_lockViol {k : PageKind} {cause req page off : Nat} {d : Word} {x : State} (hk : k ≠ .cntu) (hr : x.pwr.boot ≠ .inReset)
    (hc : cause = 1 ∨ cause = 4 ∨ cause = 5 ∨ cause = 7) : EventSet (settle (capture k cause req page off d x)) k.events.1 := by
  have ho := (capture_occ k cause req page off d x).1 hc
  rw [errPage_ne k hk] at ho
  exact event_seen (eventPage_first k hk 0 (by decide)) (by simpa using hr) ho

/-- The capture of a failed guarded sequence sets the GUARD_FAIL event of its page (R19, R29). -/
theorem capture_guardFail {k : PageKind} {req page off : Nat} {d : Word} {x : State} (hk : k ≠ .cntu) (hr : x.pwr.boot ≠ .inReset) :
    EventSet (settle (capture k 2 req page off d x)) (k.events.1 + 1) := by
  have ho := (capture_occ k 2 req page off d x).2 rfl
  rw [errPage_ne k hk] at ho
  exact event_seen (eventPage_first k hk 1 (by decide)) (by simpa using hr) ho

/-- A capture changes no register of its page but ERRLOG0 and ERRLOG1. -/
theorem getReg_capture {k : PageKind} {cause req page off o : Nat} {d : Word} {x : State} (hk : k ≠ .cntu) (h0 : o ≠ 0x030) (h4 : o ≠ 0x034) :
    getReg (settle (capture k cause req page off d x)) k o = getReg x k o := by
  rw [getReg_settle, capture_other]
  · rw [errPage_ne k hk]; exact regAddr_inj_off k _ _ h0
  · rw [errPage_ne k hk]; exact regAddr_inj_off k _ _ h4

theorem Writer.notInReset {r : Req} {s : State} (h : Writer r s) : (reached r s).pwr.boot ≠ .inReset := by
  simp [Writer.opened h]

/-- A capture drops no occurrence. -/
theorem mem_capture {k : PageKind} {cause req page off : Nat} {d : Word} {x : State} {o : Occ} (h : o ∈ x.evh.occ) :
    o ∈ (capture k cause req page off d x).evh.occ := by
  have hr : ∀ (b : Bool) (ev : Nat) (t : State), o ∈ t.evh.occ → o ∈ (raiseIf b ev t).evh.occ := by
    intro b ev t ht; unfold raiseIf; split
    · exact raise_occ ev t o ht
    · exact ht
  unfold capture; dsimp only
  refine hr _ _ _ (hr _ _ _ ?_)
  split <;> simpa using h

theorem getReg_incReg (k : PageKind) (off n : Nat) (s : State) : getReg (incReg k off n s) k off = getReg s k off + BitVec.ofNat 32 n := by
  unfold incReg; exact getReg_setReg k off _ s

/-! An address without a register (R11) -/

/-- What a write to an unassigned address does once it has landed (R11). -/
theorem unassigned_effect (r : Req) (page raw : Nat) (d : Word) (s x : State) (hx : RestSame s x) (hregs : x.regs = s.regs)
    (hr : x.pwr.boot ≠ .inReset) :
    RestSame s (settle (unassigned r page raw d x)) ∧ getReg (settle (unassigned r page raw d x)) .glb 0x078 = getReg s .glb 0x078 + 1#32 ∧
    EventSet (settle (unassigned r page raw d x)) 2 ∧ Captured .glb 6 r page raw d s (settle (unassigned r page raw d x)) := by
  have other : ∀ o, o ≠ 0x078 → getReg (raise 2 (incReg .glb 0x078 1 x)) .glb o = getReg s .glb o := by
    intro o ho
    have h1 : getReg (incReg .glb 0x078 1 x) .glb o = getReg x .glb o := getReg_setReg_ne (regAddr_inj_off .glb _ _ ho) _ _
    exact h1.trans (getReg_congr hregs .glb o)
  unfold unassigned
  refine ⟨restSame_capture (restSame_trans hx (restSame_of_reports (by simp))), ?_, ?_,
    captured_settle (other _ (by decide)) (other _ (by decide))⟩
  · rw [getReg_capture (by decide) (by decide) (by decide)]
    have h1 : getReg (raise 2 (incReg .glb 0x078 1 x)) .glb 0x078 = getReg (incReg .glb 0x078 1 x) .glb 0x078 := getReg_congr rfl _ _
    rw [h1, getReg_incReg, getReg_congr hregs]
  · obtain ⟨o, ho, he⟩ := raise_mem 2 (incReg .glb 0x078 1 x)
    exact event_seen (k := .glb) (b := 2) rfl (by simpa using hr) ⟨o, mem_capture ho, he⟩

/-- Where no register is, a requester with every right writes as anywhere else (Table 5.3). -/
theorem arrayRight_active (r : Req) (s : State) (own : Bool) (f : State → State) (hs : ∀ c, reqPort r = some c → s.ch[c].st = .active) :
    arrayRight s r own f = f s := by
  unfold arrayRight; split
  · rfl
  · rename_i c hc; rw [hs c hc]

theorem inArray_alias (r : Req) (page raw : Nat) (h : 0x80 ≤ page ∧ page < 0x90) : inArray r page raw = true := by
  simp [inArray, h]

/-- A write of an address of the bit aliases is one of the bit behind it (R41). -/
theorem bar0Word_alias (r : Req) (a : Nat) (d : Word) (s : State) (h : 0x80 ≤ a / 4 * 4 / 0x1000 ∧ a / 4 * 4 / 0x1000 < 0x90) :
    bar0Word r a true d s = aliasWrite r (a / 4 * 4) d s := by
  unfold bar0Word
  simp only [inArray_alias r _ _ h, if_true, Bool.not_true, Bool.false_eq_true, if_false, if_pos h]

theorem aliasAt_none (r : Req) (page raw : Nat) (d : Word) (s : State) (hs : ∀ c, reqPort r = some c → s.ch[c].st = .active) :
    aliasAt r page raw none d s = unassigned r page raw d s := by
  unfold aliasAt
  rcases h0 : reqPort r with _ | c
  · rfl
  · simp only [hs c h0]

theorem aliasWrite_noPage (r : Req) (a : Nat) (d : Word) (s : State) (hs : ∀ c, reqPort r = some c → s.ch[c].st = .active)
    (h : aliasTarget a = none) : aliasWrite r a d s = unassigned r (a / 0x1000) (a % 0x1000) d s := by
  rw [aliasWrite, h]; exact aliasAt_none r _ _ d s hs

theorem bar0Word_noPage (r : Req) (a : Nat) (d : Word) (s : State) (hs : ∀ c, reqPort r = some c → s.ch[c].st = .active)
    (hp : pageKind (a / 4 * 4 / 0x1000) = none) (hi : inArray r (a / 4 * 4 / 0x1000) (a / 4 * 4 % 0x1000) = false) :
    bar0Word r a true d s = unassigned r (a / 4 * 4 / 0x1000) (a / 4 * 4 % 0x1000) d s := by
  unfold bar0Word
  simp only [hi, hp, Bool.false_eq_true, if_false]
  exact arrayRight_active r s false _ hs

/-- A write of a requester with every right to an unassigned address is answered as one, wherever the address lies (R11, R41). -/
theorem bar0Word_unassigned (r : Req) (a : Nat) (d : Word) (s : State) (hs : ∀ c, reqPort r = some c → s.ch[c].st = .active)
    (h : unassignedAt r a = true) : bar0Word r a true d s = unassigned r (a / 4 * 4 / 0x1000) (a / 4 * 4 % 0x1000) d s := by
  have hpg : a / 4 * 4 / 0x1000 = a / 0x1000 := by omega
  unfold unassignedAt at h
  split at h
  · rw [bar0Word_alias r a d s (by omega), aliasWrite_noPage r _ d s hs (Option.isNone_iff_eq_none.1 h)]
  · simp only [Bool.and_eq_true, Option.isNone_iff_eq_none, Bool.not_eq_true'] at h
    exact bar0Word_noPage r a d s hs (hpg ▸ h.1) (hpg ▸ h.2)

theorem pageKind_alias (p : Nat) (h : 0x80 ≤ p ∧ p < 0x90) : pageKind p = none := by
  unfold pageKind; repeat rw [if_neg (by omega)]

theorem unassignedAt_noPage {r : Req} {a : Nat} (h : unassignedAt r a = true) : pageKind (a / 0x1000) = none := by
  unfold unassignedAt at h
  split at h
  · exact pageKind_alias _ (by omega)
  · simp only [Bool.and_eq_true, Option.isNone_iff_eq_none] at h; exact h.1

/-- What an access of a requester leaves when CORE may have to wake for it (R370). -/
theorem restSame_landed (r : Req) (s : State) : RestSame s (landed r (cleared s)) := by
  have hp : (landed r (cleared s)).port = portsBut s (landed r (cleared s)) := by
    unfold landed; split
    · exact portsBut_same (by simp)
    · rename_i p _
      have e : (portWake p (receipt p (cleared s))).port = (receipt p (cleared s)).port := (portWake_frame p _).2.1.2.1
      exact leaveL1_portsBut (p := p) e
  have ht : (landed r (cleared s)).alm = s.alm ∧ (landed r (cleared s)).tap = s.tap := by
    unfold landed; split <;> simp [portWake, receipt]
  exact (restSame_iff _ _).2 ⟨by simp, by simp, by simp, by simp, ht.1, ht.2, hp⟩

end Sys2Proof.Machine

open Sys2Proof Sys2Proof.Machine

/-- Settles O8: each write acts on its word once it has landed, by its class, its enables, or as one where no register is. -/
theorem registerWrites : Obligations.RegisterWrites := by
  unfold Obligations.RegisterWrites
  refine ⟨fun r k d be s ⟨hd, hc⟩ hw hp => ⟨?_, ?_⟩, fun r addr d s hw hu => ?_⟩
  · rintro rfl
    have hx := exec_registerWrite r (addrOf k 0x014) 0xF d s hc hw
    rw [addrOf_toNat k _ (by decide)] at hx
    refine ⟨_, hx (writeWaits_reg r k 0x014 _ (by decide) (by decide) (by decide)), ?_⟩
    have hq : Delivered (storeReg k 0x014 d (reached r s)) := delivered_reached r hd
    rw [show ((0xF : BitVec 4) == 0xF) = true from rfl, write_eventEn r k d s hd hw hp, settle_delivered hq]
    refine ⟨storeReg_eq _ _ _ _, otherRegs_reached (otherRegs_storeReg _ _ _ _), ?_⟩
    rw [getReg_storeReg, writable_eventEn, getReg_reached]; rfl
  · intro hbe
    have hf : (be == 0xF) = false := by simpa using hbe
    have hx := exec_registerWrite r (addrOf k 0x014) be d s hc hw
    rw [hf, addrOf_toNat k _ (by decide), bar0Word_partial r k _ d _ (reached_active hw) hp.1 (by decide) (by decide)] at hx
    have hk := cntu_refused r k hp.1
    exact ⟨_, hx (writeWaits_partial _ _ _), restSame_capture (restSame_reached r s),
      captured_settle (getReg_reached ..) (getReg_reached ..),
      (getReg_capture hk (by decide) (by decide)).trans (getReg_reached ..), capture_lockViol hk hw.notInReset (by decide)⟩
  · have hl : bar0Write r addr.toNat true d (cleared s) = unassigned r (addr.toNat / 4 * 4 / 0x1000) (addr.toNat / 4 * 4 % 0x1000) d
        (landed r (cleared s)) := by
      rw [bar0Write_lands r _ _ d (cleared s) hw (writeWaits_noPage _ _ _ _ (unassignedAt_noPage hu)),
        bar0Word_unassigned r _ d _ (landed_active hw) hu]
    have hx := exec_run (c := .unassignedPageWrite r addr d) (fun s => if unassignedAt r addr.toNat then bar0Write r addr.toNat true d s else s) rfl
      ((if_pos hu).trans hl)
    exact completes_settle hx (unassigned_effect r _ _ d s _ (restSame_landed r s) (by simp) (by simp [Writer.opened hw]))
end

section
namespace Sys2Proof.Machine

open Sys2Proof

/-! Writes of header and block registers that act at once -/

/-- A write of a header register by its class, as its command finds the device. -/
theorem bar0Write_header {r : Req} {k : PageKind} {off : Nat} {s : State} (d : Word) (hc : CoreRuns s) (hw : Writer r s) (hp : FreePage r k s)
    (hf : PlainReg k off) (ho : off < 0x040) (h4 : off % 4 = 0) (hx : off ∉ [0x024, 0x028, 0x030, 0x02C]) :
    bar0Write r (regAddr k off) true d (cleared s) = headerWrite r k k.num off off d (reached r s) := by
  simp only [List.mem_cons, List.not_mem_nil, or_false, not_or] at hx
  obtain ⟨hi, h1, h2, h3⟩ := hx
  obtain ⟨hf, hg, hv⟩ := hf
  rw [write_header r k off d (cleared s) hw hp ho h4 hi hf ⟨h1, h2, h3⟩ hg hv, landed_cleared r hc]

/-- A write of a block register without G and V fields, as its command finds the device. -/
theorem bar0Write_block {r : Req} {k : PageKind} {off : Nat} {s : State} (d : Word) (hc : CoreRuns s) (hw : Writer r s) (hp : FreePage r k s)
    (hf : PlainReg k off) (ho : off < 0x400) (hl : 0x040 ≤ off) (h4 : off % 4 = 0) :
    bar0Write r (regAddr k off) true d (cleared s) = blockWrite r k k.num off off d (reached r s) := by
  obtain ⟨hf, hg, hv⟩ := hf
  rw [write_block r k off d (cleared s) hw hp ho hl h4 hf hg hv, landed_cleared r hc]

theorem isPage_num {k : PageKind} {page : BitVec 8} (h : page.toNat = k.num) : isPage page = true := by
  unfold isPage; rw [h, pageKind_num]; rfl

theorem pageAddr_eq {k : PageKind} {page : BitVec 8} (h : page.toNat = k.num) (off : Nat) : pageAddr page off = regAddr k off :=
  pageAddr_num k page off h

/-- What a command answers that writes a register by its page's number. -/
theorem exec_pageWrite {c : Instr} {r : Req} {k : PageKind} {page : BitVec 8} {off : Nat} {d : Word} {s x : State} (hpage : page.toNat = k.num)
    (hc : exec c s = run (fun s => if isPage page then bar0Write r (pageAddr page off) true d s else s) s)
    (hx : bar0Write r (regAddr k off) true d (cleared s) = x) : exec c s = .next (settle x) := by
  refine exec_run _ hc ?_
  rw [if_pos (isPage_num hpage), pageAddr_eq hpage, ← hx]

/-! EVENT_ACK (R21) -/

theorem bitsOf_lt (w hi lo : Nat) : bitsOf w hi lo < 2 ^ (hi + 1 - lo) := Nat.mod_lt _ (by positivity)

theorem append_toNat (seq : BitVec 8) (mask : BitVec 24) : (seq ++ mask).toNat = seq.toNat * 2 ^ 24 + mask.toNat := by
  rw [BitVec.toNat_append, ← Nat.shiftLeft_add_eq_or_of_lt mask.isLt, Nat.shiftLeft_eq]

theorem fieldOf_append_hi (seq : BitVec 8) (mask : BitVec 24) : fieldOf (seq ++ mask) 31 24 = seq.toNat := by
  have h1 := seq.isLt
  have h2 := mask.isLt
  simp only [fieldOf, bitsOf, append_toNat, Nat.shiftRight_eq_div_pow]; omega

theorem fieldOf_append_lo (seq : BitVec 8) (mask : BitVec 24) : fieldOf (seq ++ mask) 23 0 = mask.toNat := by
  have h1 := seq.isLt
  have h2 := mask.isLt
  simp only [fieldOf, bitsOf, append_toNat, Nat.shiftRight_eq_div_pow]; omega

theorem headerWrite_eventAck (r : Req) (k : PageKind) (page raw : Nat) (d : Word) (s : State) :
    headerWrite r k page 0x010 raw d s = eventAckOp k d s := by
  unfold headerWrite; rw [if_pos rfl]

theorem headerWrite_lock (r : Req) (k : PageKind) (page raw : Nat) (d : Word) (s : State) :
    headerWrite r k page 0x018 raw d s = lockOp r k page raw (bitAt d 0) d s := by
  unfold headerWrite; rw [if_neg (by decide), if_pos rfl]

/-- Clearing the masked bits that are set clears the masked bits. -/
theorem clear_masked (e : Word) (mask : BitVec 24) : e &&& ~~~ w32 (fieldOf e 23 0 &&& mask.toNat) = e &&& ~~~ (mask.setWidth 32) := by
  apply BitVec.eq_of_getLsbD_eq
  intro i hi
  have hm : mask.toNat.testBit i = mask.getLsbD i := rfl
  have he : (fieldOf e 23 0).testBit i = (decide (i < 24) && e.getLsbD i) := by
    simp only [fieldOf, bitsOf, Nat.shiftRight_zero, Nat.testBit_mod_two_pow]; rfl
  simp only [BitVec.getLsbD_and, BitVec.getLsbD_not, w32, BitVec.getLsbD_ofNat, Nat.testBit_and, BitVec.getLsbD_setWidth, he, hm, hi, decide_true,
    Bool.true_and]
  by_cases h : i < 24
  · simp only [h, decide_true, Bool.true_and]
    cases e.getLsbD i <;> simp
  · have : mask.getLsbD i = false := BitVec.getLsbD_of_ge _ _ (by omega)
    simp [h, this]

/-- SEQ as an acknowledgement finds it when no occurrence of this command came before. -/
theorem ackSeq_quiet (k : PageKind) (s : State) (h : s.evh.occ = []) : ackSeq k s = fieldOf (mget 0 s.evh.event k.num) 31 24 := by
  have : fieldOf (mget 0 s.evh.event k.num) 31 24 < 256 := bitsOf_lt _ 31 24
  unfold ackSeq; rw [h]; simp only [List.any_nil, bnat, Bool.false_eq_true, if_false]; omega

/-- An acknowledgement with the current SEQ. -/
theorem eventAckOp_hit (k : PageKind) (seq : BitVec 8) (mask : BitVec 24) (s : State) (h : s.evh.occ = [])
    (hs : seq.toNat = fieldOf (mget 0 s.evh.event k.num) 31 24) :
    ∃ levels, eventAckOp k (seq ++ mask) s = { s with evh := { s.evh with
      event := mset 0 k.num (mget 0 s.evh.event k.num &&& ~~~ (mask.setWidth 32)) s.evh.event, levels := levels } } := by
  have hq : ackSeq k s = fieldOf (seq ++ mask) 31 24 := by rw [ackSeq_quiet k s h, fieldOf_append_hi, hs]
  unfold eventAckOp; dsimp only
  rw [if_pos hq, fieldOf_append_lo, clear_masked]
  exact ⟨_, rfl⟩

/-- An acknowledgement with any other SEQ. -/
theorem eventAckOp_miss (k : PageKind) (seq : BitVec 8) (mask : BitVec 24) (s : State) (h : s.evh.occ = [])
    (hs : seq.toNat ≠ fieldOf (mget 0 s.evh.event k.num) 31 24) : eventAckOp k (seq ++ mask) s = putFld k 0x008 31 31 1 s := by
  have hq : ¬ ackSeq k s = fieldOf (seq ++ mask) 31 24 := by rw [ackSeq_quiet k s h, fieldOf_append_hi]; exact Ne.symm hs
  unfold eventAckOp; dsimp only; rw [if_neg hq]

theorem putFld_eq (k : PageKind) (off hi lo v : Nat) (s : State) : putFld k off hi lo v s = { s with regs := (putFld k off hi lo v s).regs } := rfl

theorem delivered_putFld {s : State} (k : PageKind) (off hi lo v : Nat) (h : Delivered s) : Delivered (putFld k off hi lo v s) := h

theorem otherRegs_putFld (k : PageKind) (off hi lo v : Nat) (s : State) : OtherRegs k off s (putFld k off hi lo v s) := otherRegs_setReg k off _ s

/-! LOCK (R22, R23) -/

theorem lockOp_locked (r : Req) (k : PageKind) (page off : Nat) (bit : Bool) (d : Word) (s : State) (h : getFld s k 0x018 0 0 = 1) :
    lockOp r k page off bit d s = capture k 1 r.val page off d s := by
  unfold lockOp; rw [if_pos h]

theorem lockOp_open (r : Req) (k : PageKind) (page off : Nat) (bit : Bool) (d : Word) (s : State) (h : getFld s k 0x018 0 0 ≠ 1) :
    lockOp r k page off bit d s = if bit then putFld k 0x018 0 0 1 s else s := by
  unfold lockOp; rw [if_neg h]

end Sys2Proof.Machine

open Sys2Proof Sys2Proof.Machine

/-- Settles O9: SEQ in the register is the one that the acknowledgement is compared with, because no occurrence came before it. -/
theorem eventAcknowledged : Obligations.EventAcknowledged := by
  unfold Obligations.EventAcknowledged
  intro r k page seq mask s ⟨hd, hc⟩ hw hp hpage
  have hev : (reached r s).evh = s.evh := by simp
  have hq := delivered_reached r hd
  have hx := exec_pageWrite (c := .eventAck r page seq mask) hpage rfl
    (bar0Write_header (seq ++ mask) hc hw hp (plain_eventAck k) (by decide) (by decide) (by decide))
  rw [headerWrite_eventAck] at hx
  by_cases hs : seq.toNat = fieldOf (mget 0 s.evh.event k.num) 31 24
  · obtain ⟨levels, he⟩ := eventAckOp_hit k seq mask (reached r s) hq.1 (by rw [hev]; exact hs)
    rw [he] at hx
    refine completes_quiet hx hq ?_
    rw [if_pos hs, hev]
    exact ⟨rfl, mget_mset_same _ _ _ _, fun n hn => mget_mset_ne _ _ hn _⟩
  · rw [eventAckOp_miss k seq mask _ hq.1 (by rw [hev]; exact hs)] at hx
    refine completes_quiet hx (delivered_putFld _ _ _ _ _ hq) ?_
    rw [if_neg hs]
    exact ⟨putFld_eq _ _ _ _ _ _, otherRegs_reached (otherRegs_putFld _ _ _ _ _ _), by rw [getReg_putFld, getReg_reached]⟩

/-- Settles O10: a register that is locked captures the write, one that is open takes its bit 0. -/
theorem lockWrittenOnce : Obligations.LockWrittenOnce := by
  unfold Obligations.LockWrittenOnce
  intro r k page d s ⟨hd, hc⟩ hw hp hpage
  have hk := cntu_refused r k hp.1
  have hfld : getFld (reached r s) k 0x018 0 0 = getFld s k 0x018 0 0 := getFld_congr (by simp) _ _ _ _
  have hx := exec_pageWrite (c := .lockWrite r page d) hpage rfl
    (bar0Write_header d hc hw hp (plain_lock k) (by decide) (by decide) (by decide))
  rw [headerWrite_lock] at hx
  by_cases h1 : getFld s k 0x018 0 0 = 1
  · rw [lockOp_locked _ _ _ _ _ _ _ (hfld.trans h1)] at hx
    refine completes_settle hx ?_
    rw [if_pos h1]
    exact ⟨restSame_capture (restSame_reached r s), captured_settle (getReg_reached ..) (getReg_reached ..),
      capture_lockViol hk hw.notInReset (by decide), (getReg_capture hk (by decide) (by decide)).trans (getReg_reached ..)⟩
  · rw [lockOp_open _ _ _ _ _ _ _ (hfld ▸ h1)] at hx
    cases hb : bitAt d 0 with
    | true =>
      rw [hb, if_pos rfl] at hx
      refine completes_quiet hx (delivered_putFld _ _ _ _ _ (delivered_reached r hd)) ?_
      rw [if_neg h1, if_pos rfl]
      exact ⟨putFld_eq _ _ _ _ _ _, otherRegs_reached (otherRegs_putFld _ _ _ _ _ _), by rw [getReg_putFld, getReg_reached]⟩
    | false =>
      rw [hb, if_neg Bool.false_ne_true] at hx
      refine completes_quiet hx (delivered_reached r hd) ?_
      rw [if_neg h1, if_neg Bool.false_ne_true]
      exact ⟨rfl, otherRegs_congr (fun _ _ _ => rfl) (by simp) rfl, getReg_reached ..⟩
end

section
namespace Sys2Proof.Machine

open Sys2Proof

/-! Bits of a word -/

/-- Replacing the one bit `b` of a number. -/
theorem testBit_withBits_one (w b v j : Nat) : (withBits w b b v).testBit j = if j = b then v.testBit 0 else w.testBit j := by
  have hw : w = 2 ^ b * (w / 2 ^ b) + w % 2 ^ b := (Nat.div_add_mod w _).symm
  have hq : 2 ^ b * (w / 2 ^ b) = 2 ^ b * (w / 2 ^ b / 2 * 2) + 2 ^ b * (w / 2 ^ b % 2) := by rw [← Nat.mul_add, Nat.div_add_mod']
  have hr : withBits w b b v = 2 ^ b * (w / 2 ^ b / 2 * 2 + v % 2) + w % 2 ^ b := by
    have e : b + 1 - b = 1 := by omega
    unfold withBits bitsOf
    rw [e, Nat.pow_one, Nat.shiftRight_eq_div_pow, Nat.mul_comm (w / 2 ^ b % 2), Nat.mul_comm (v % 2), Nat.mul_add]
    omega
  have hlo : w % 2 ^ b < 2 ^ b := Nat.mod_lt _ (by positivity)
  have hj : w.testBit j = if j < b then (w % 2 ^ b).testBit j else (w / 2 ^ b).testBit (j - b) := by
    conv_lhs => rw [hw]
    exact Nat.testBit_two_pow_mul_add _ hlo j
  rw [hr, Nat.testBit_two_pow_mul_add _ hlo, hj]
  rcases Nat.lt_trichotomy j b with h | h | h
  · rw [if_pos h, if_neg (by omega), if_pos h]
  · rw [if_neg (by omega), if_pos h, h, Nat.sub_self, Nat.testBit_zero, Nat.testBit_zero]
    congr 1; rw [Nat.add_mod, Nat.mul_mod_left]; simp
  · obtain ⟨m, hm⟩ : ∃ m, j - b = m + 1 := ⟨j - b - 1, by omega⟩
    rw [if_neg (by omega), if_neg (by omega), if_neg (by omega), hm, Nat.testBit_succ, Nat.testBit_succ]
    congr 1; omega

theorem bitAt_setFieldOf_one (w : Word) (b : Nat) (v : Bool) (j : Nat) (hj : j < 32) :
    bitAt (setFieldOf w b b (bnat v)) j = if j = b then v else bitAt w j := by
  have h0 : (bnat v).testBit 0 = v := by cases v <;> rfl
  unfold bitAt setFieldOf
  rw [BitVec.getLsbD_ofNat, testBit_withBits_one, h0]
  simp [hj, BitVec.testBit_toNat]

/-! The bit aliases (R41, R42) -/

/-- The header register and bit behind an address of the bit aliases. -/
theorem aliasTarget_header (k : PageKind) (i b : Nat) (hi : i < 8) (hb : b < 32) :
    aliasTarget (0x80000 + (k.num * 0x400 + (i * 32 + b) * 4)) = some (k, i * 4, b) := by
  have hx : 0x80000 + (k.num * 0x400 + (i * 32 + b) * 4) - 0x80000 = k.num * 0x400 + (i * 32 + b) * 4 := Nat.add_sub_cancel_left ..
  have h1 : (k.num * 0x400 + (i * 32 + b) * 4) / 0x400 = k.num := by omega
  have h2 : (k.num * 0x400 + (i * 32 + b) * 4) % 0x400 / 128 * 4 = i * 4 := by omega
  have h3 : (k.num * 0x400 + (i * 32 + b) * 4) % 128 / 4 = b := by omega
  unfold aliasTarget
  simp only [hx, h1, h2, h3, pageKind_num, Option.map_some]

/-- A write through the bit aliases with every right, of a bit of a page that takes writes of the requester. -/
theorem aliasAt_some {r : Req} {k : PageKind} {page raw off b : Nat} {d : Word} {s : State}
    (hs : ∀ c, reqPort r = some c → s.ch[c].st = .active) (hp : pageRefused r k = false) :
    aliasAt r page raw (some (k, off, b)) d s = aliasOp r k off b page raw (bitAt d 0) d s := by
  have hw : ∀ c, reqPort r = some c → writeRight s c k off = .yes := by intro c hc; unfold writeRight; rw [hs c hc]
  unfold aliasAt
  rcases h0 : reqPort r with _ | c
  · simp only [hp, Bool.false_eq_true, if_false]
  · simp only [hw c h0, hp, Bool.false_eq_true, if_false]

/-- No header register of every page holds block state at these places. -/
theorem blockHome_header (s : State) (r : Req) (k : PageKind) (off : Nat) (h : off = 0x000 ∨ off = 0x00C ∨ off = 0x014) :
    blockHome s r k off = 0 := by
  rcases h with rfl | rfl | rfl <;> cases k <;>
    simp [blockHome, glbHome, pwrHome, lccHome, supHome, clkHome, cpHome, votHome, lsHome, crlHome, arbHome, lomHome, imgHome, rgHome, rngHome,
      merHome, evhHome, cntHome, userHome, almHome]

/-- EVENT_EN reads as it is stored (Table 2.5). -/
theorem regWord_eventEn (s : State) (r : Req) (k : PageKind) : regWord s r k 0x014 = getReg s k 0x014 &&& 0x00FFFFFF#32 := by
  have hm : w32 (fieldMask (fun f => !f.home && f.cls != .wo) (regFields k 0x014)) = 0x00FFFFFF#32 := by rw [regFields_eventEn]; rfl
  have hh : headerHome s r k 0x014 = 0 := rfl
  unfold regWord; dsimp only
  rw [hm, hh, blockHome_header s r k _ (.inr (.inr rfl))]
  simp [w32]

/-- A write through the bit aliases of a bit of EVENT_EN writes the register with that bit changed (R42). -/
theorem aliasOp_eventEn (r : Req) (k : PageKind) (b page raw : Nat) (bit : Bool) (d : Word) (s : State) (hb : b < 24) (h : s.evh.occ = []) :
    aliasOp r k 0x014 b page raw bit d s = storeReg k 0x014 (setFieldOf (getReg s k 0x014 &&& 0x00FFFFFF#32) b b (bnat bit)) s := by
  have hf : ((regFields k 0x014).find? fun f => decide (f.lo ≤ b) && decide (b ≤ f.hi)) = some (fd 23 0 .rw) := by
    have : b ≤ 23 := by omega
    rw [regFields_eventEn]; simp [fd, fdOf, this]
  unfold aliasOp; rw [hf]
  simp only [fd, fdOf, headerWrite_eventEn _ _ _ _ _ _ h, regWord_eventEn]
  rfl

theorem eventEn_mask (j : Nat) (hj : j < 24) : bitAt (0x00FFFFFF#32 : Word) j = true ∧ bitAt (~~~(0x00FFFFFF#32 : Word)) j = false := by
  revert j; decide

/-- The bits of EVENT_EN after a write. -/
theorem bitAt_storeEventEn (k : PageKind) (d : Word) (s : State) (j : Nat) (hj : j < 24) :
    bitAt (getReg (storeReg k 0x014 d s) k 0x014) j = bitAt d j := by
  obtain ⟨h1, h2⟩ := eventEn_mask j hj
  rw [getReg_storeReg, writable_eventEn]
  simp only [bitAt, BitVec.getLsbD_or, BitVec.getLsbD_and] at *
  rw [h1, h2, Bool.and_false, Bool.false_or, Bool.and_true]

end Sys2Proof.Machine

open Sys2Proof Sys2Proof.Machine

/-- Settles O15: the write comes to EVENT_EN with the one bit replaced. -/
theorem aliasWritesOneBit : Obligations.AliasWritesOneBit := by
  unfold Obligations.AliasWritesOneBit
  intro r k b d s ⟨hd, hc⟩ hw hp hk hb
  have ha : (BitVec.ofNat 16 (k.num * 0x400 + (5 * 32 + b) * 4)).toNat = k.num * 0x400 + (5 * 32 + b) * 4 := by
    rw [BitVec.toNat_ofNat]; exact Nat.mod_eq_of_lt (by omega)
  have htarget := aliasTarget_header k 5 b (by decide) (by omega)
  generalize hx : 0x80000 + (k.num * 0x400 + (5 * 32 + b) * 4) = a at htarget
  have hq := delivered_reached r hd
  have hland : bar0Write r a true d (cleared s) =
      storeReg k 0x014 (setFieldOf (getReg s k 0x014 &&& 0x00FFFFFF#32) b b (bnat (bitAt d 0))) (reached r s) := by
    rw [bar0Write_lands r a true d (cleared s) hw (writeWaits_noPage _ _ _ _ (pageKind_alias _ (by omega))), landed_cleared r hc,
      bar0Word_alias r a d _ (by omega), show a / 4 * 4 = a by omega, aliasWrite, htarget, aliasAt_some (reached_active hw) hp.1,
      aliasOp_eventEn r k b _ _ _ d _ hb hq.1, getReg_reached]
  have hexec := exec_run (c := .bitAliasWrite r (BitVec.ofNat 16 (k.num * 0x400 + (5 * 32 + b) * 4)) d) (s := s)
    (bar0Write r (0x80000 + (BitVec.ofNat 16 (k.num * 0x400 + (5 * 32 + b) * 4)).toNat) true d) rfl rfl
  rw [ha, hx, hland] at hexec
  refine completes_quiet hexec hq ⟨storeReg_eq _ _ _ _, otherRegs_reached (otherRegs_storeReg _ _ _ _), fun j hj => ?_⟩
  rw [bitAt_storeEventEn _ _ _ _ hj, bitAt_setFieldOf_one _ _ _ _ (by omega)]
  simp only [bitAt, BitVec.getLsbD_and]
  rw [show (0x00FFFFFF#32 : Word).getLsbD j = true from (eventEn_mask j hj).1, Bool.and_true]
end

section
namespace Sys2Proof.Machine

open Sys2Proof

/-! Snapshots (R44, R47) -/

theorem time64_congr {s t : State} (h : t.mer = s.mer) : time64 t = time64 s := by unfold time64; rw [h]

theorem timeFrac_reached (r : Req) (s : State) : timeFrac (reached r s) = timeFrac s := by
  unfold timeFrac; rw [time64_congr (s := s) (by simp)]

theorem timeSec_reached (r : Req) (s : State) : timeSec (reached r s) = timeSec s := by
  unfold timeSec; rw [time64_congr (s := s) (by simp)]

/-- The counters as a snapshot holds them: the event counters at 0 to 255, the sampling counters from 256 on (R47). -/
def heldCounters (cnt sc : SMap Nat) : SMap Nat := (cnt.filter fun e => decide (e.1 < 256)) ++ sc.map fun e => (256 + e.1, e.2)

theorem mget_shifted (sc : SMap Nat) (i : Nat) :
    (i < 256 → mget 0 (sc.map fun e => (256 + e.1, e.2)) i = 0) ∧ mget 0 (sc.map fun e => (256 + e.1, e.2)) (256 + i) = mget 0 sc i := by
  induction sc with
  | nil => exact ⟨fun _ => rfl, rfl⟩
  | cons e sc ih =>
    obtain ⟨a, v⟩ := e
    simp only [List.map_cons, mget, Nat.add_left_cancel_iff]
    exact ⟨fun h => by rw [if_neg (by omega)]; exact ih.1 h, by rw [ih.2]⟩

/-- A snapshot holds every event counter. -/
theorem mget_heldCounters (cnt sc : SMap Nat) (i : Nat) (hi : i < 256) : mget 0 (heldCounters cnt sc) i = mget 0 cnt i := by
  unfold heldCounters
  induction cnt with
  | nil => exact (mget_shifted sc i).1 hi
  | cons e cnt ih =>
    obtain ⟨a, v⟩ := e
    by_cases ha : a < 256
    · simp only [List.filter_cons, ha, decide_true, if_true, List.cons_append, mget, ih]
    · simp only [List.filter_cons, ha, decide_false, Bool.false_eq_true, if_false, mget, ih]
      rw [if_neg (by omega)]

/-- A snapshot holds every sampling counter. -/
theorem mget_heldSampling (cnt sc : SMap Nat) (i : Nat) : mget 0 (heldCounters cnt sc) (256 + i) = mget 0 sc i := by
  unfold heldCounters
  induction cnt with
  | nil => exact (mget_shifted sc i).2
  | cons e cnt ih =>
    obtain ⟨a, v⟩ := e
    by_cases ha : a < 256
    · simp only [List.filter_cons, ha, decide_true, if_true, List.cons_append, mget]
      rw [if_neg (by omega)]; exact ih
    · simp only [List.filter_cons, ha, decide_false, Bool.false_eq_true, if_false]
      exact ih

/-- A snapshot changes registers, the holding region and the sampling counters alone. -/
theorem snapOp_go (clear : Bool) (s : State) : snapOp true clear s = { s with
    regs := (snapOp true clear s).regs,
    evh := { s.evh with held := heldCounters s.evh.cnt s.evh.sc, sc := if clear then [] else s.evh.sc } } := rfl

/-- The registers that a snapshot sets (R44). -/
theorem snapOp_regs (clear : Bool) (s : State) :
    getReg (snapOp true clear s) .glb 0x06C = getReg s .glb 0x06C + 1 ∧ getReg (snapOp true clear s) .glb 0x070 = timeFrac s ∧
    getReg (snapOp true clear s) .glb 0x074 = timeSec s := by
  have e : ∀ o, getReg (snapOp true clear s) .glb o =
      getReg (setReg .glb 0x074 (timeSec s) (setReg .glb 0x070 (timeFrac s) (incReg .glb 0x06C 1 s))) .glb o := fun o => rfl
  have ne : ∀ {a b : Nat}, a ≠ b → regAddr .glb a ≠ regAddr .glb b := fun h => regAddr_inj_off .glb _ _ h
  refine ⟨?_, ?_, ?_⟩ <;> rw [e]
  · rw [getReg_setReg_ne (ne (by decide)), getReg_setReg_ne (ne (by decide)), getReg_incReg]; rfl
  · rw [getReg_setReg_ne (ne (by decide)), getReg_setReg]
  · rw [getReg_setReg]

theorem blockWrite_snap (r : Req) (page raw : Nat) (go clear : Bool) (s : State) :
    blockWrite r .glb page 0x068 raw (w32 (bnat go + 2 * bnat clear)) s = snapOp go clear s := by
  have hb : bitAt (w32 (bnat go + 2 * bnat clear)) 0 = go ∧ bitAt (w32 (bnat go + 2 * bnat clear)) 1 = clear := by
    cases go <;> cases clear <;> decide
  simp only [blockWrite, hb]; rfl

/-! Overflow bits (R420) -/

theorem ovfWrite_sc (d : Word) (s : State) : ovfWrite 0x044 d s = { s with evh := { s.evh with scOvf := s.evh.scOvf &&& d } } := rfl

theorem ovfWrite_ec (j : Nat) (d : Word) (s : State) : ovfWrite (0x050 + 4 * j) d s =
    { s with evh := { s.evh with ecOvf := mset 0 j (mget 0 s.evh.ecOvf j &&& d) s.evh.ecOvf } } := by
  have hj : (0x050 + 4 * j - 0x050) / 4 = j := by omega
  unfold ovfWrite; rw [if_neg (by omega), hj]

theorem blockWrite_ovf (r : Req) (page off raw : Nat) (d : Word) (s : State) (h : off = 0x044 ∨ (0x050 ≤ off ∧ off < 0x070)) :
    blockWrite r .cnt page off raw d s = ovfWrite off d s := by
  simp only [blockWrite, if_pos h]

theorem ovf_registers : ∀ off ∈ [0x044, 0x050, 0x054, 0x058, 0x05C, 0x060, 0x064, 0x068, 0x06C],
    isOvf (regAddr .cnt off) = true ∧ regFields .cnt off ≠ [] ∧ hasG .cnt off = false ∧ hasV .cnt off = false := by decide

/-- OVF_CLEAR of an overflow register. -/
theorem exec_ovfClear (r : Req) (off : Nat) (d : Word) (s : State) (hc : CoreRuns s) (hw : Writer r s) (hp : FreePage r .cnt s)
    (h : off ∈ [0x044, 0x050, 0x054, 0x058, 0x05C, 0x060, 0x064, 0x068, 0x06C]) :
    exec (.ovfClear r (addrOf .cnt off) d) s = .next (settle (ovfWrite off d (reached r s))) := by
  obtain ⟨ho, hf⟩ := ovf_registers off h
  have hoff : (off = 0x044 ∨ (0x050 ≤ off ∧ off < 0x070)) ∧ off % 4 = 0 := by
    simp only [List.mem_cons, List.not_mem_nil, or_false] at h; omega
  have ha := addrOf_toNat .cnt off (by omega)
  refine exec_run (fun s => if isOvf (addrOf .cnt off).toNat then bar0Write r (addrOf .cnt off).toNat true d s else s) rfl ?_
  rw [ha, if_pos ho, bar0Write_block d hc hw hp hf (by omega) (by omega) hoff.2, blockWrite_ovf _ _ _ _ _ _ hoff.1]

end Sys2Proof.Machine

open Sys2Proof Sys2Proof.Machine

/-- Settles O16: a snapshot with and without GO, and the overflow registers word by word. -/
theorem counters : Obligations.Counters := by
  unfold Obligations.Counters
  refine ⟨fun r go clear s ⟨hd, hc⟩ hw hp => ?_, fun r d s ⟨hd, hc⟩ hw hp => ⟨?_, fun j hj => ?_⟩⟩
  · have hx := exec_run (c := .snap r go clear) (s := s) _ rfl
      ((bar0Write_block _ hc hw hp (by unfold PlainReg; decide) (by decide) (by decide) (by decide)).trans (blockWrite_snap r _ _ go clear _))
    cases go with
    | false => exact completes_quiet hx (delivered_reached r hd) rfl
    | true =>
      have hev : (reached r s).evh = s.evh := by simp
      obtain ⟨h1, h2, h3⟩ := snapOp_regs clear (reached r s)
      refine completes_quiet hx (delivered_reached r hd) ?_
      rw [if_pos rfl]
      refine ⟨?_, by rw [h1, getReg_reached], by rw [h2, timeFrac_reached], by rw [h3, timeSec_reached], ?_, ?_, ?_⟩
      all_goals rw [snapOp_go, hev]
      · exact fun i hi => mget_heldCounters _ _ i hi
      · exact fun i => mget_heldSampling _ _ i
  · refine completes_quiet (exec_ovfClear r 0x044 d s hc hw hp (by decide)) (delivered_reached r hd) ?_
    rw [ovfWrite_sc, show (reached r s).evh = s.evh by simp]
  · have hmem : 0x050 + 4 * j ∈ [0x044, 0x050, 0x054, 0x058, 0x05C, 0x060, 0x064, 0x068, 0x06C] := by
      simp only [List.mem_cons, List.not_mem_nil, or_false]; omega
    have hx := exec_ovfClear r _ d s hc hw hp hmem
    rw [ovfWrite_ec] at hx
    refine completes_quiet hx (delivered_reached r hd) ?_
    rw [show (reached r s).evh = s.evh by simp]
    exact ⟨rfl, mget_mset_same _ _ _ _, fun i hi => mget_mset_ne _ _ hi _⟩
end

section
namespace Sys2Proof.Machine

open Sys2Proof

/-! The way of a read of BAR0 -/

/-- The state as a read of requester `r` at address `a` finds it: a channel port holds the request (R98). -/
def asked (r : Req) (a tag : Nat) (s : State) : State :=
  match reqPort r with
  | none => cleared s
  | some p => holdTag p tag (memHdr false (barBase s p 0 + a) (List.replicate 4 true) tag false) (receipt p (cleared s))

/-- The word `w` leaves as the answer to that read (R99). -/
def answered (r : Req) (a tag : Nat) (w : Word) (s : State) : State :=
  match reqPort r with
  | none => emit (.word r w) s
  | some p => dropTag p tag (sendOut p [.cpl p tag 0 false 4 (a % 128) (bytesLE 4 w.toNat)] s)

@[simp] theorem asked_same (r : Req) (a tag : Nat) (s : State) :
    SameStill s (asked r a tag s) ∧ SameUnits s (asked r a tag s) ∧ SameHeld s (asked r a tag s) ∧ SamePlant s (asked r a tag s) ∧
    SameVote s (asked r a tag s) ∧ Same4 State.tx State.msix State.regs State.evh s (asked r a tag s) ∧ (asked r a tag s).out = [] := by
  unfold asked; split <;> simp [receipt]

@[simp] theorem answered_same (r : Req) (a tag : Nat) (w : Word) (s : State) :
    SameStill s (answered r a tag w s) ∧ SameUnits s (answered r a tag w s) ∧ SameHeld s (answered r a tag w s) ∧
    SamePlant s (answered r a tag w s) ∧ SameVote s (answered r a tag w s) ∧
    Same4 State.tx State.msix State.regs State.evh s (answered r a tag w s) := by
  unfold answered; split <;> simp

theorem ecrcGen_congr {s t : State} {p : Port} (h : t.port[p].cfg = s.port[p].cfg) : ecrcGen t p = ecrcGen s p := by
  unfold ecrcGen cfgGet; rw [h]

/-- What leaves in answer to a read. -/
theorem answered_out (r : Req) (a tag : Nat) (w : Word) (s y : State) (hp : y.port = (asked r a tag s).port) (ho : y.out = []) :
    (answered r a tag w y).out = answer s r a tag w := by
  unfold answered answer
  rcases h0 : reqPort r with _ | p
  · simp [emit, ho]
  · have hcfg : y.port[p].cfg = s.port[p].cfg := by
      rw [hp]; unfold asked; rw [h0]; unfold holdTag receipt; rw [modPort_same, modPort_same]; rfl
    have he := ecrcGen_congr hcfg
    dsimp only
    have e : (dropTag p tag (sendOut p [.cpl p tag 0 false 4 (a % 128) (bytesLE 4 w.toNat)] y)).out =
        y.out ++ sentBy y p [.cpl p tag 0 false 4 (a % 128) (bytesLE 4 w.toNat)] := rfl
    rw [e, ho, List.nil_append]; unfold sentBy; rw [he]

/-- A read that is answered with no other effect leaves its port as a request finds it (R98). -/
theorem answered_asked (r : Req) (a tag : Nat) (w : Word) (s : State) :
    answered r a tag w (asked r a tag s) = { reached r s with out := answer s r a tag w } := by
  have ho := answered_out r a tag w s _ rfl (asked_same r a tag s).2.2.2.2.2.2
  rcases h0 : reqPort r with _ | p
  · unfold answered asked answer reached; rw [h0]; rfl
  · have hr : reached r s = receipt p (cleared s) := by unfold reached; rw [h0]
    have hport : (answered r a tag w (asked r a tag s)).port = (receipt p (cleared s)).port := by
      unfold answered asked; rw [h0]; dsimp only
      generalize memHdr false (barBase s p 0 + a) (List.replicate 4 true) tag false = hd
      have e : (dropTag p tag (sendOut p [.cpl p tag 0 false 4 (a % 128) (bytesLE 4 w.toNat)] (holdTag p tag hd (receipt p (cleared s))))).port =
          (modPort p (fun q => { q with np := q.np.eraseP fun x => x.tag == tag })
            (modPort p (fun q => { q with l1 := false })
              (modPort p (fun q => { q with np := ⟨tag, hd⟩ :: q.np }) (receipt p (cleared s))))).port := rfl
      rw [e, modPort_twice, modPort_twice, modPort_id]
      unfold receipt; rw [modPort_same]
      simp
    have hrest : answered r a tag w (asked r a tag s) = { receipt p (cleared s) with
        out := (answered r a tag w (asked r a tag s)).out, port := (answered r a tag w (asked r a tag s)).port } := by
      unfold answered asked; rw [h0]; rfl
    rw [hrest, ho, hport, hr]

/-- A read of a word, with every right, is answered with what the word reads as (R9, R15, R98). -/
theorem regReadOp_reads {r : Req} {a tag : Nat} {w : Word} {s x : State} (hc : CoreRuns s) (h : Reader r a s) (h4 : a % 4 = 0)
    (hb : bar0Read r a (asked r a tag s) = some (w, x)) : regReadOp r a 1 tag (cleared s) = answered r a tag w x := by
  rcases h0 : reqPort r with _ | p
  · unfold asked at hb; rw [h0] at hb
    unfold answered; rw [h0]
    exact regReadOp_port r a tag w (cleared s) x h0 h h4 (by rw [wakeCore_runs _ _ (cleared s) hc]; exact hb)
  · obtain rfl := reqPort_some h0
    unfold asked at hb; rw [h0] at hb
    unfold answered; rw [h0]
    refine regReadOp_answers p a tag w (cleared s) x h h4 ?_
    unfold portWake; rw [wakeCore_runs]
    · exact hb
    · exact hc

theorem msixPage_num (r : Req) (k : PageKind) : msixPage r k.num = none := by
  have h : k.num < 0x34 ∨ (0x40 ≤ k.num ∧ k.num < 0x42) := by cases k <;> simp [PageKind.num] <;> omega
  unfold msixPage; split
  · rw [if_neg (by omega), if_neg (by omega)]
  · rw [if_neg (by omega)]

/-- A read of a word of a register page (R9, R45). -/
theorem bar0Read_page (r : Req) (k : PageKind) (off : Nat) (s : State) (ho : off < 0x400) (h4 : off % 4 = 0) :
    bar0Read r (regAddr k off) s = pageRead r k k.num off off s := by
  obtain ⟨ha, hp, hr⟩ := regAddr_parts k off (by omega) h4
  have h : k.num < 0x34 ∨ (0x40 ≤ k.num ∧ k.num < 0x42) := by cases k <;> simp [PageKind.num] <;> omega
  have hf : foldOff off = off := by unfold foldOff; rw [if_pos ho]
  unfold bar0Read
  simp only [ha, hp, hr, hf, msixPage_num, pageKind_num]
  rw [if_neg (by omega), if_neg (by omega)]

theorem regFields_id (k : PageKind) : regFields k 0x000 = [fdH 31 24 .ro, fdH 23 16 .ro, fdH 15 8 .ro, fdH 7 0 .ro] := by cases k <;> rfl
theorem regFields_event (k : PageKind) : regFields k 0x00C = [fdH 31 24 .ro, fdH 23 0 .ev] := by cases k <;> rfl

/-- ID reads as TYPE and INST of its page (Table 2.2). -/
theorem regWord_id (s : State) (r : Req) (k : PageKind) :
    regWord s r k 0x000 = BitVec.ofNat 32 (k.typ * 2 ^ 24 + k.inst * 2 ^ 16 + 0x0100) := by
  have hm : w32 (fieldMask (fun f => !f.home && f.cls != .wo) (regFields k 0x000)) = 0#32 := by rw [regFields_id]; rfl
  have hh : headerHome s r k 0x000 = k.typ * 2 ^ 24 + k.inst * 2 ^ 16 + 0x0100 := by unfold headerHome; rw [if_pos rfl]
  unfold regWord; dsimp only
  rw [hm, hh, blockHome_header s r k _ (.inl rfl)]
  simp [w32]

/-- EVENT reads as its SEQ and bits (Table 2.4). -/
theorem regWord_event (s : State) (r : Req) (k : PageKind) : regWord s r k 0x00C = mget 0 s.evh.event k.num := by
  have hm : w32 (fieldMask (fun f => !f.home && f.cls != .wo) (regFields k 0x00C)) = 0#32 := by rw [regFields_event]; rfl
  have hh : headerHome s r k 0x00C = (mget 0 s.evh.event k.num).toNat := by unfold headerHome; rw [if_neg (by decide), if_pos rfl]
  unfold regWord; dsimp only
  rw [hm, hh, blockHome_header s r k _ (.inr (.inl rfl))]
  simp [w32]

/-- A read of ID or EVENT answers the register and does nothing else (R43). -/
theorem pageRead_header (r : Req) (k : PageKind) (page raw : Nat) (s : State) {off : Nat} (h : off = 0x000 ∨ off = 0x00C) :
    pageRead r k page off raw s = some (regWord s r k off, s) := by
  have hw : wide k off = none := by rcases h with rfl | rfl <;> cases k <;> rfl
  have hn : off ≠ 0x024 ∧ off ≠ 0x058 ∧ off ≠ 0x044 ∧ off ≠ 0x060 ∧ ¬ 0x040 ≤ off := by rcases h with rfl | rfl <;> decide
  obtain ⟨h1, h2, h3, h4, h5⟩ := hn
  unfold pageRead; simp [h1, h2, h3, h4, h5, hw]

/-! The user page (R417) -/

theorem regFields_user (i : Nat) (hi : i < 16) : regFields .cntu (0x040 + 8 * i) = [fdH 31 0 .cnt] := by
  revert i; decide

/-- A counter of the user page reads as its low word (Table 15.10). -/
theorem regWord_user (s : State) (r : Req) (i : Nat) (hi : i < 16) : regWord s r .cntu (0x040 + 8 * i) = BitVec.ofNat 32 (mget 0 s.evh.sc i) := by
  have hm : w32 (fieldMask (fun f => !f.home && f.cls != .wo) (regFields .cntu (0x040 + 8 * i))) = 0#32 := by rw [regFields_user i hi]; rfl
  have hh : headerHome s r .cntu (0x040 + 8 * i) = 0 := by
    unfold headerHome; repeat rw [if_neg (by omega)]
  have hb : blockHome s r .cntu (0x040 + 8 * i) = mget 0 s.evh.sc i % 2 ^ 32 := by
    have h8 : ¬ (0x040 + 8 * i) % 8 = 4 := by omega
    have hj : (0x040 + 8 * i - 0x040) / 8 = i := by omega
    show userHome s (0x040 + 8 * i) = _
    unfold userHome; rw [if_pos (by omega), hj, decide_eq_false h8]; rfl
  unfold regWord; dsimp only
  rw [hm, hh, hb]
  apply BitVec.eq_of_toNat_eq
  simp [w32]

/-- What a requester reads of a counter's low word in the user page; the high word is latched when it is shown (R43, R417). -/
theorem pageRead_user (r : Req) (page raw : Nat) (s : State) (i : Nat) (hi : i < 16) :
    pageRead r .cntu page (0x040 + 8 * i) raw s = some (if userShown s r then
      (BitVec.ofNat 32 (mget 0 s.evh.sc i), modReq r (fun q => { q with
        hiLatch := minsert (regAddr .cntu (0x040 + 8 * i)) (regWord s r .cntu (0x040 + 8 * i + 4)) q.hiLatch }) s)
      else (0, s)) := by
  have hw : wide .cntu (0x040 + 8 * i) = some (0x040 + 8 * i, false) := by
    have h8 : ¬ (0x040 + 8 * i) % 8 = 4 := by omega
    have hd : (0x040 + 8 * i) / 8 * 8 = 0x040 + 8 * i := by omega
    simp only [wide]; rw [if_pos (by omega), hd, decide_eq_false h8]
  have h1 : ¬ 0x040 + 8 * i = 0x024 := by omega
  have h2 : 0x040 ≤ 0x040 + 8 * i ∧ 0x040 + 8 * i < 0x0C0 := by omega
  unfold pageRead
  rw [if_neg h1, if_neg (by simp), if_neg (by simp), if_neg (by simp)]
  cases hu : userShown s r with
  | false => rw [if_pos ⟨rfl, h2.1, h2.2, rfl⟩, if_neg Bool.false_ne_true]
  | true =>
    rw [if_neg (by simp), if_pos rfl, hw]
    simp only [readWide, Bool.false_eq_true, if_false, readNote, regWord_user s r i hi]
    rfl

end Sys2Proof.Machine

open Sys2Proof Sys2Proof.Machine

/-- Settles O17: what the word reads as, in the state that the request leaves of its port. -/
theorem registerReads : Obligations.RegisterReads := by
  unfold Obligations.RegisterReads
  intro r tag s ⟨hd, hc⟩
  have header : ∀ (k : PageKind) (off : Nat) (w : Word), off = 0x000 ∨ off = 0x00C → Reader r (regAddr k off) s →
      regWord (asked r (regAddr k off) tag.toNat s) r k off = w → Completes (.registerRead r (addrOf k off) ⟨1, tag⟩) s fun t =>
        t = { reached r s with out := answer s r (regAddr k off) tag.toNat w } := by
    intro k off w ho hr hw
    have hlt : off < 0x400 ∧ off % 4 = 0 := by omega
    have hb := (bar0Read_page r k off _ hlt.1 hlt.2).trans (pageRead_header r k k.num off (asked r (regAddr k off) tag.toNat s) ho)
    rw [hw] at hb
    have hx := exec_run (c := .registerRead r (addrOf k off) ⟨1, tag⟩) (s := s) (regReadOp r (addrOf k off).toNat 1 tag.toNat) rfl rfl
    rw [addrOf_toNat k off (by omega), regReadOp_reads hc hr (regAddr_parts k off (by omega) hlt.2 |>.1 ▸ by omega) hb, answered_asked] at hx
    exact completes_quiet hx (delivered_reached r hd) rfl
  refine ⟨fun k hr => header k 0x000 _ (.inl rfl) hr (regWord_id _ r k), fun k hr => header k 0x00C _ (.inr rfl) hr ?_, fun i hi hr => ?_⟩
  · rw [regWord_event]; simp
  · have hoff : (BitVec.ofNat 12 (0x040 + 8 * i)).toNat = 0x040 + 8 * i := by
      rw [BitVec.toNat_ofNat]; exact Nat.mod_eq_of_lt (by omega)
    have ha : regAddr .cntu (0x040 + 8 * i) % 4 = 0 := by unfold regAddr; omega
    have hx := exec_run (c := .userPageRead r (BitVec.ofNat 12 (0x040 + 8 * i)) tag) (s := s)
      (regReadOp r (regAddr .cntu (BitVec.ofNat 12 (0x040 + 8 * i)).toNat) 1 tag.toNat) rfl rfl
    rw [hoff] at hx
    have hb := (bar0Read_page r .cntu (0x040 + 8 * i) (asked r (regAddr .cntu (0x040 + 8 * i)) tag.toNat s) (by omega) (by omega)).trans
      (pageRead_user r _ _ _ i hi)
    have hu : userShown (asked r (regAddr .cntu (0x040 + 8 * i)) tag.toNat s) r = userShown s r := by
      unfold userShown; rw [getFld_congr (s := s) (by simp)]
    rw [hu] at hb
    have hev : (asked r (regAddr .cntu (0x040 + 8 * i)) tag.toNat s).evh = s.evh := by simp
    cases h : userShown s r with
    | false =>
      rw [h, if_neg Bool.false_ne_true] at hb
      rw [regReadOp_reads hc hr ha hb, answered_asked] at hx
      exact completes_quiet hx (delivered_reached r hd) ⟨by simp, by simp, rfl⟩
    | true =>
      rw [h, if_pos rfl, hev] at hb
      rw [regReadOp_reads hc hr ha hb] at hx
      refine completes_quiet hx ?_ ⟨by simp, by simp, ?_⟩
      · unfold Delivered; simpa using hd
      · rw [if_pos rfl]; exact answered_out _ _ _ _ _ _ (by simp) (by simp)
end

section
namespace Sys2Proof.Machine

open Sys2Proof

/-! Indirect accesses (R25, R26, R356) -/

theorem indAddr_congr {s t : State} (h : t.bus = s.bus) (r : Req) (k : PageKind) : indAddr t r k = indAddr s r k := by unfold indAddr; rw [h]

theorem lsOff_congr {s t : State} (hr : t.regs = s.regs) (g : Seg) : lsOff t g = lsOff s g := by
  unfold lsOff segCfg; simp only [getFld_congr hr, getReg_congr hr]

/-- The clocks of the units stand alike in states that agree on registers, power, segments and ring. -/
theorem domGate_congr {s t : State} (hr : t.regs = s.regs) (hp : t.pwr = s.pwr) (hs : t.seg = s.seg) (hg : t.rng = s.rng) (i : Nat) :
    domGate t i = domGate s i := by
  unfold domGate; simp only [hp, hs, hg, getFld_congr hr, lsOff_congr hr]

theorem indRuns_congr {s t : State} (h : ∀ i, domGate t i = domGate s i) (k : PageKind) (space : Nat) : indRuns t k space = indRuns s k space := by
  unfold indRuns; simp only [h]

/-- A field of one bit is the bit. -/
theorem fieldOf_bit {n : Nat} (w : BitVec n) (b : Nat) : fieldOf w b b = bnat (bitAt w b) := by
  have e : b + 1 - b = 1 := by omega
  unfold fieldOf bitsOf bitAt bnat
  rw [e, Nat.pow_one, BitVec.getLsbD, Nat.testBit_eq_decide_div_mod_eq, Nat.shiftRight_eq_div_pow]
  have : w.toNat / 2 ^ b % 2 < 2 := Nat.mod_lt _ (by omega)
  by_cases h : w.toNat / 2 ^ b % 2 = 1
  · simp [h]
  · simp only [h, decide_false, Bool.false_eq_true, if_false]; omega

theorem indAdvance_eq (r : Req) (k : PageKind) (s : State) : indAdvance r k s = { s with bus := (indAdvance r k s).bus } := by
  unfold indAdvance; dsimp only; split <;> rfl

/-- WADDR advances while AI is 1 (R25). -/
theorem indAddr_indAdvance (r : Req) (k : PageKind) (s : State) : indAddr (indAdvance r k s) r k =
    if bitAt (indAddr s r k) 31 then setFieldOf (indAddr s r k) 23 0 (fieldOf (indAddr s r k) 23 0 + 1) else indAddr s r k := by
  unfold indAdvance; dsimp only
  cases h : bitAt (indAddr s r k) 31 with
  | false => rw [if_neg Bool.false_ne_true, if_neg Bool.false_ne_true]
  | true =>
    rw [if_pos rfl, if_pos rfl]
    show mget 0 (modReq r _ s).bus.req[r].indAddr k.num = _
    rw [modReq_same]; exact mget_mset_same ..

/-- A read beyond the length of a space. -/
theorem indRead_beyond {r : Req} {k : PageKind} {s : State} (page off : Nat) {n : Nat} (hn : indLen k (fieldOf (indAddr s r k) 27 24) = some n)
    (hr : indRuns s k (fieldOf (indAddr s r k) 27 24) = true) (ha : almSpace k (fieldOf (indAddr s r k) 27 24) = false)
    (hw : n ≤ fieldOf (indAddr s r k) 23 0) : indRead r k page off s = some (0, indAdvance r k s) := by
  unfold indRead; dsimp only
  rw [hn]; simp only [hr, ha, hw, Bool.not_true, Bool.false_and, Bool.false_eq_true, if_false, if_true]

/-- A read of a space that the page does not have. -/
theorem indRead_noSpace {r : Req} {k : PageKind} {s : State} (page off : Nat) (hn : indLen k (fieldOf (indAddr s r k) 27 24) = none) :
    indRead r k page off s = some (0, indError r k page off 0 s) := by
  unfold indRead; dsimp only; rw [hn]

/-- What an indirect access that ends in error leaves in the registers (R356). -/
theorem indError_error (r : Req) (k : PageKind) (page off : Nat) (d : Word) (s : State) :
    getFld (indError r k page off d s) k 0x008 30 30 = 1 ∧ Captured k 3 r page off d s (indError r k page off d s) := by
  have status : ∀ o, o = 0x030 ∨ o = 0x034 → regAddr k 0x008 ≠ regAddr (errPage k) o := by
    intro o ho; cases k <;> simp [regAddr, errPage, PageKind.num] <;> omega
  have kept : ∀ o, o = 0x030 ∨ o = 0x034 → getReg (putFld k 0x008 30 30 1 s) (errPage k) o = getReg s (errPage k) o :=
    fun o ho => getReg_setReg_ne (Ne.symm (status o ho)) _ _
  unfold indError
  constructor
  · have h : getReg (capture k 3 r.val page off d (putFld k 0x008 30 30 1 s)) k 0x008 = getReg (putFld k 0x008 30 30 1 s) k 0x008 :=
      capture_other _ _ _ _ _ _ _ _ _ (status _ (.inl rfl)) (status _ (.inr rfl))
    unfold getFld; rw [h, getReg_putFld]
    have hb := bitAt_setFieldOf_one (getReg s k 0x008) 30 true 30 (by decide)
    rw [show bnat true = 1 from rfl, if_pos rfl] at hb
    rw [fieldOf_bit, hb]; rfl
  · have h := capture_captured k 3 r page off d (putFld k 0x008 30 30 1 s)
    unfold Captured getFld at *
    rwa [kept _ (.inl rfl), kept _ (.inr rfl)] at h


theorem getFld_settle (x : State) (k : PageKind) (off hi lo : Nat) : getFld (settle x) k off hi lo = getFld x k off hi lo :=
  getFld_congr (settle_regs x) k off hi lo

/-- IND_DATA reads what its space answers (R25). -/
theorem pageRead_indData (r : Req) (k : PageKind) (page raw : Nat) (s : State) : pageRead r k page 0x024 raw s = indRead r k page raw s := by
  unfold pageRead; rw [if_pos rfl]

/-- A read of IND_DATA answers what the space gives and leaves the state that it leaves (R25). -/
theorem exec_indDataRead {r : Req} {k : PageKind} {page : BitVec 8} {tag : BitVec 10} {w : Word} {s x : State} (hc : CoreRuns s)
    (h : Reader r (regAddr k 0x024) s) (hpage : page.toNat = k.num)
    (hx : indRead r k k.num 0x024 (asked r (regAddr k 0x024) tag.toNat s) = some (w, x)) :
    exec (.indDataRead r page tag) s = .next (settle (answered r (regAddr k 0x024) tag.toNat w x)) := by
  have h4 : regAddr k 0x024 % 4 = 0 := by unfold regAddr; omega
  refine exec_run (fun s => if isPage page then regReadOp r (pageAddr page 0x024) 1 tag.toNat s else s) rfl ?_
  rw [if_pos (isPage_num hpage), pageAddr_eq hpage]
  exact regReadOp_reads hc h h4 ((bar0Read_page r k 0x024 _ (by decide) (by decide)).trans ((pageRead_indData r k _ _ _).trans hx))

/-- The answer of a read leaves with its command, whatever the delivery of events sends after it. -/
theorem answer_leaves (r : Req) (a tag : Nat) (w : Word) {s y : State} (hp : y.port = (asked r a tag s).port) (ho : y.out = []) :
    answer s r a tag w <+: (settle (answered r a tag w y)).out := by
  rw [← answered_out r a tag w s y hp ho]; exact (settle_sends _).2

/-- What an access that ended in error shows once its events are delivered, when its answer has left (R356). -/
theorem indError_shown {r : Req} {k : PageKind} {page off : Nat} {d : Word} {s y t : State} (hr : y.regs = s.regs) (hb : y.bus = s.bus)
    (htr : t.regs = (indError r k page off d y).regs) (htb : t.bus = (indError r k page off d y).bus) :
    getFld t k 0x008 30 30 = 1 ∧ indAddr t r k = indAddr s r k ∧ Captured k 3 r page off d s t := by
  obtain ⟨h1, h2⟩ := indError_error r k page off d y
  refine ⟨(getFld_congr htr _ _ _ _).trans h1, indAddr_congr (by rw [htb]; simp [indError, hb]) r k, ?_⟩
  exact captured_congr h2 hr.symm htr

/-! Writes of IND_DATA (R26) -/

/-- A write of IND_DATA waits for no space that runs and takes no stream. -/
theorem writeWaits_indData {r : Req} {k : PageKind} {s : State} (hr : indRuns s k (fieldOf (indAddr s r k) 27 24) = true)
    (hs : streamHeld s r k (fieldOf (indAddr s r k) 27 24) = false) : writeWaits s r (regAddr k 0x024) true = false := by
  obtain ⟨-, hp, -⟩ := regAddr_parts k 0x024 (by decide) (by decide)
  unfold writeWaits indWaits streamWaits
  simp only [hp, pageKind_num, hr, hs, Bool.not_true, Bool.and_false, Bool.or_self, Bool.false_and]

theorem headerWrite_indData (r : Req) (k : PageKind) (page raw : Nat) (d : Word) (s : State) :
    headerWrite r k page 0x024 raw d s = indWrite r k page raw d s := by
  unfold headerWrite; rw [if_neg (by decide), if_neg (by decide), if_neg (by decide), if_pos rfl]

/-- A write of IND_DATA that nothing makes wait acts on the space it points to. -/
theorem bar0Write_indData {r : Req} {k : PageKind} {s : State} (d : Word) (hc : CoreRuns s) (hw : Writer r s) (hp : FreePage r k s)
    (hwait : writeWaits (reached r s) r (regAddr k 0x024) true = false) :
    bar0Write r (regAddr k 0x024) true d (cleared s) = indWrite r k k.num 0x024 d (reached r s) := by
  obtain ⟨hf, hg, hv⟩ := plain_indData k
  rw [bar0Write_lands r _ true d (cleared s) hw (by rw [landed_cleared r hc]; exact hwait), landed_cleared r hc,
    bar0Word_reg r k 0x024 d _ (reached_active hw) hp.1 (by decide) (by decide),
    regWrite_header r k _ _ _ d _ ((heldIn_reached r r k s).trans hp.2) hf (by decide) hg hv (by decide), headerWrite_indData]

/-- What a requester stores in a word of its own replication base: the reserved bits of the low word stay clear (Table 13.12). -/
def baseWord (w : Nat) (d : Word) : Word := if w % 2 = 0 then d &&& 0xFFFFE001#32 else d

/-- A requester writes its own replication base; the maintenance port writes every one (R26). -/
theorem indWrite_base {r : Req} {s : State} (page off : Nat) (d : Word) (hspace : fieldOf (indAddr s r .evh) 27 24 = 1)
    (hw : fieldOf (indAddr s r .evh) 23 0 < 8) (hrun : indRuns s .evh 1 = true)
    (hown : r.val = 4 ∨ fieldOf (indAddr s r .evh) 23 0 / 2 = r.val) :
    indWrite r .evh page off d s = indAdvance r .evh { s with evh := { s.evh with
      replBase := mset 0 (fieldOf (indAddr s r .evh) 23 0) (baseWord (fieldOf (indAddr s r .evh) 23 0) d) s.evh.replBase } } := by
  have hheld : streamHeld s r .evh 1 = false := rfl
  have hright : (decide (fieldOf (indAddr s r .evh) 23 0 < 8) && (r.val == 4 || fieldOf (indAddr s r .evh) 23 0 / 2 == r.val)) = true := by
    simpa [hw] using hown
  unfold indWrite baseWord; dsimp only
  rw [hspace, show indLen .evh 1 = some 8 from rfl]
  dsimp only
  rw [hrun, hheld, if_neg (by decide), if_pos (by decide), if_pos hright]

/-! The time limit of an indirect access (R356) -/

/-- A requester's access that has not completed in time: the port's request is answered with zero, and the access ends in error. -/
def timedOut (r : Req) (k : PageKind) (write : Bool) (d : Word) (tag : Nat) (s : State) : State :=
  if write then indError r k k.num 0x024 d s
  else match reqPort r with
    | none => emit (.word r 0) (indError r k k.num 0x024 0 s)
    | some p => dropTag p tag (sendOut p [.cpl p tag 0 false 4 (regAddr k 0x024 % 128) (bytesLE 4 (0 : Word).toNat)] (indError r k k.num 0x024 0
        (holdTag p tag (memHdr false (barBase s p 0 + k.num * 0x1000 + 0x024) (List.replicate 4 true) tag false) s)))

theorem indTimeoutOp_timedOut {r : Req} {k : PageKind} (write : Bool) (d : Word) (tag : Nat) {s : State} (h : Reader r (regAddr k 0x024) s)
    (hch : ∀ p, reqPort r = some p → s.ch[p].st.inService = true) :
    indTimeoutOp r k.num write d tag s = timedOut r k write d tag s := by
  have h4 : regAddr k 0x024 % 4 = 0 := by unfold regAddr; omega
  unfold indTimeoutOp timedOut; rw [pageKind_num]; dsimp only
  rcases h0 : reqPort r with _ | p
  · cases write <;> simp [h.1 h0]
  · obtain ⟨⟨ho, -, hbar⟩, hn, hon, -⟩ := h.2 p h0
    have hhead : indTimeoutHead p k k.num s = none := by unfold indTimeoutHead; rw [hbar]
    have hword := complete_word p tag (k.num * 0x1000 + 0x024) 0 (indError r k k.num 0x024 0
      (holdTag p tag (memHdr false (barBase s p 0 + k.num * 0x1000 + 0x024) (List.replicate 4 true) tag false) s)) h4
    simp only [hhead, ho, hon, hch p h0, hn]
    simp only [Bool.not_true, Bool.or_self, Bool.false_eq_true, if_false]
    cases write with
    | true => simp only [if_true]
    | false =>
      simp only [Bool.false_eq_true, if_false]
      exact hword

/-- What the error of an access out of time leaves in the registers. -/
theorem timedOut_shown {r : Req} {k : PageKind} {write : Bool} {d : Word} {tag : Nat} {s t : State}
    (hr : t.regs = (timedOut r k write d tag s).regs) (hb : t.bus = (timedOut r k write d tag s).bus) :
    getFld t k 0x008 30 30 = 1 ∧ indAddr t r k = indAddr s r k ∧ Captured k 3 r k.num 0x024 (if write then d else 0) s t := by
  unfold timedOut at hr hb
  cases write with
  | true =>
    rw [if_pos rfl] at hr hb ⊢
    exact indError_shown rfl rfl hr hb
  | false =>
    rw [if_neg Bool.false_ne_true] at hr hb ⊢
    rcases h0 : reqPort r with _ | p
    · rw [h0] at hr hb; exact indError_shown (y := s) rfl rfl (by simpa using hr) (by simpa using hb)
    · rw [h0] at hr hb
      refine indError_shown (y := holdTag p tag (memHdr false (barBase s p 0 + k.num * 0x1000 + 0x024) (List.replicate 4 true) tag false) s)
        (by simp) (by simp) (by simpa using hr) (by simpa using hb)

/-- A read out of time is answered with zero (R356). -/
theorem timedOut_out (r : Req) (k : PageKind) (d : Word) (tag : Nat) (s : State) :
    (timedOut r k false d tag (cleared s)).out = answer s r (regAddr k 0x024) tag 0 := by
  unfold timedOut answer
  rw [if_neg Bool.false_ne_true]
  rcases h0 : reqPort r with _ | p
  · simp [emit, indError, cleared]
  · dsimp only
    generalize memHdr false (barBase (cleared s) p 0 + k.num * 0x1000 + 0x024) (List.replicate 4 true) tag false = hd
    have he : ecrcGen (indError r k k.num 0x024 0 (holdTag p tag hd (cleared s))) p = ecrcGen s p := by
      refine ecrcGen_congr ?_
      have e : (indError r k k.num 0x024 0 (holdTag p tag hd (cleared s))).port = (holdTag p tag hd (cleared s)).port := by simp [indError]
      rw [e]; unfold holdTag; rw [modPort_same]; rfl
    have ho : (indError r k k.num 0x024 0 (holdTag p tag hd (cleared s))).out = [] := by simp [indError, cleared]
    generalize indError r k k.num 0x024 0 (holdTag p tag hd (cleared s)) = y at he ho
    have e : (dropTag p tag (sendOut p [.cpl p tag 0 false 4 (regAddr k 0x024 % 128) (bytesLE 4 (0 : Word).toNat)] y)).out =
        y.out ++ sentBy y p [.cpl p tag 0 false 4 (regAddr k 0x024 % 128) (bytesLE 4 (0 : Word).toNat)] := rfl
    rw [e, ho, List.nil_append]; unfold sentBy; rw [he]

/-- A result that the mailbox keeps is no other part of the state. -/
theorem indTimeoutAny_eq (r : Req) (page : Nat) (write : Bool) (d : Word) (tag : Nat) (s : State) :
    indTimeoutAny r page write d tag s = { indTimeoutOp r page write d tag s with mnt := (indTimeoutAny r page write d tag s).mnt } := by
  unfold indTimeoutAny; dsimp only
  (repeat' split) <;> rfl

/-- An access out of time touches no channel, no image and no Loom (R356). -/
theorem timedOut_units (r : Req) (k : PageKind) (write : Bool) (d : Word) (tag : Nat) (s : State) :
    Same3 State.ch State.img State.lom s (timedOut r k write d tag s) := by
  unfold timedOut; (repeat' split) <;> simp [indError]

end Sys2Proof.Machine

open Sys2Proof Sys2Proof.Machine

/-- Settles O11: reads through `asked` and `answered`, the write of the replication base, and the access out of time. -/
theorem indirectAccesses : Obligations.IndirectAccesses := by
  unfold Obligations.IndirectAccesses
  refine ⟨fun r k page tag s hc hr hpage => ⟨fun n hn hrun hal hle => ?_, fun hn => ?_⟩, ?_, ?_⟩
  · have ha : indAddr (asked r (regAddr k 0x024) tag.toNat s) r k = indAddr s r k := indAddr_congr (by simp) r k
    have hrun2 : indRuns (asked r (regAddr k 0x024) tag.toNat s) k (fieldOf (indAddr s r k) 27 24) = true :=
      (indRuns_congr (domGate_congr (by simp) (by simp) (by simp) (by simp)) _ _).trans hrun
    have hx := exec_indDataRead hc hr hpage (indRead_beyond k.num 0x024 (ha ▸ hn) (ha ▸ hrun2) (ha ▸ hal) (ha ▸ hle))
    refine completes_settle hx ⟨answer_leaves _ _ _ _ (by simp) (by simp), by simp, ?_⟩
    rw [indAddr_congr (by simp : _ = (indAdvance r k (asked r (regAddr k 0x024) tag.toNat s)).bus), indAddr_indAdvance, ha]
  · have ha : indAddr (asked r (regAddr k 0x024) tag.toNat s) r k = indAddr s r k := indAddr_congr (by simp) r k
    have hx := exec_indDataRead hc hr hpage (indRead_noSpace k.num 0x024 (ha ▸ hn))
    obtain ⟨h1, h2, h3⟩ := indError_shown (r := r) (k := k) (page := k.num) (off := 0x024) (d := 0) (s := s)
      (y := asked r (regAddr k 0x024) tag.toNat s)
      (t := settle (answered r (regAddr k 0x024) tag.toNat 0 (indError r k k.num 0x024 0 (asked r (regAddr k 0x024) tag.toNat s))))
      (by simp) (by simp) (by simp) (by simp)
    exact completes_settle hx ⟨answer_leaves _ _ _ _ (by simp [indError]) (by simp [indError]), h1, h2, h3⟩
  · intro r d s ⟨hd, hc⟩ hw hp hspace hlt hrun hown
    have ha : indAddr (reached r s) r .evh = indAddr s r .evh := indAddr_congr (by simp) r .evh
    have hgate : indRuns (reached r s) .evh 1 = true := (indRuns_congr (domGate_congr (by simp) (by simp) (by simp) (by simp)) _ _).trans hrun
    have hx := exec_pageWrite (c := .indDataWrite r 0x30 d) (k := .evh) rfl rfl (bar0Write_indData d hc hw hp
      (writeWaits_indData (by rw [ha, hspace]; exact hgate) (by rw [ha, hspace]; rfl)))
    rw [indWrite_base _ _ d (ha ▸ hspace) (ha ▸ hlt) hgate (ha ▸ hown), ha, indAdvance_eq] at hx
    have hev : (reached r s).evh = s.evh := by simp
    refine completes_quiet hx (delivered_reached r hd) ⟨by rw [hev], mget_mset_same .., ?_⟩
    exact (indAddr_congr rfl r .evh).trans ((indAddr_indAdvance r .evh _).trans (by rw [← ha]; rfl))
  · intro r k page write d tag s hr hch hpage
    have hx := exec_run (c := .indirectTimeout r page write d tag) (s := s) (indTimeoutAny r page.toNat write d tag.toNat) rfl rfl
    rw [hpage, indTimeoutAny_eq, indTimeoutOp_timedOut write d tag.toNat (s := cleared s) hr hch] at hx
    obtain ⟨h1, h2, h3⟩ := timedOut_shown (r := r) (k := k) (write := write) (d := d) (tag := tag.toNat) (s := cleared s)
      (t := settle { timedOut r k write d tag.toNat (cleared s) with mnt := (indTimeoutAny r k.num write d tag.toNat (cleared s)).mnt })
      (by simp) (by simp)
    have hu := timedOut_units r k write d tag.toNat (cleared s)
    refine completes_settle hx ⟨h1, h2, h3, ?_, by simpa using hu⟩
    rintro rfl
    have sends : ∀ (y : State) (m : Mnt), y.out <+: (settle { y with mnt := m }).out := fun y m => (settle_sends { y with mnt := m }).2
    rw [← timedOut_out r k d]; exact sends _ _
end

section
namespace Sys2Proof.Machine

open Sys2Proof

/-! Finding in a sparse map -/

theorem mfind_minsert_same {α : Type} (v : α) (k : Nat) (m : SMap α) : mfind (minsert k v m) k = some v := by
  induction m with
  | nil => simp [minsert, mfind]
  | cons e m ih =>
    obtain ⟨a, w⟩ := e
    unfold minsert
    split
    · simp [mfind]
    · split
      · simp [mfind]
      · rename_i h
        have e : mfind ((a, w) :: minsert k v m) k = mfind (minsert k v m) k := by simp [mfind, Ne.symm h]
        rw [e, ih]

theorem mfind_merase_same {α : Type} (k : Nat) (m : SMap α) : mfind (merase k m) k = none := by
  unfold mfind merase
  rw [Option.map_eq_none_iff, List.find?_eq_none]
  intro e he
  have := (List.mem_filter.1 he).2
  simpa using this

/-! Guarded writes (R28, R29) -/

theorem heldIn_congr {s t : State} (h : t.bus = s.bus) (r : Req) (k : PageKind) : heldIn t r k = heldIn s r k := by unfold heldIn; rw [h]

/-- A value held for its GUARD is found held, and other requesters hold what they held. -/
theorem heldIn_guardHold (r : Req) (k : PageKind) (raw : Nat) (d : Word) (s : State) :
    heldIn (guardHold r k raw d s) r k = some ⟨raw, d⟩ := by
  unfold heldIn guardHold; rw [modReq_same]; exact mfind_minsert_same ..

theorem modReq_other {r q : Req} (h : q ≠ r) (f : ReqS → ReqS) (s : State) : (modReq r f s).bus.req[q] = s.bus.req[q] := by
  unfold modReq; exact set_other _ _ _ _ h

/-- No register of the header that a GUARD leaves alone has a G field (Table 2.2). -/
theorem hasG_header (k : PageKind) : hasG k 0x030 = false ∧ hasG k 0x02C = false ∧ hasG k 0x028 = false := by
  cases k <;> exact ⟨rfl, rfl, rfl⟩

/-- A register with a G field has its value held, whatever else stands in it (R28). -/
theorem regWrite_guarded {r : Req} {k : PageKind} {off : Nat} {s : State} (page raw : Nat) (d : Word) (h : heldIn s r k = none)
    (hg : hasG k off = true) : regWrite r k page off raw d s = guardHold r k raw d s := by
  have hdr : off ≠ 0x030 ∧ off ≠ 0x02C ∧ off ≠ 0x028 := by
    obtain ⟨h30, h2C, h28⟩ := hasG_header k
    refine ⟨?_, ?_, ?_⟩ <;> rintro rfl <;> simp_all
  have hf : regFields k off ≠ [] := by rintro e; unfold hasG at hg; rw [e] at hg; cases hg
  unfold regWrite; rw [if_neg (by omega)]; simp only [breakGuard_none r k page off s h]
  rw [if_neg hf, if_neg hdr.2.2, if_pos hg]

/-- GUARD finds the value that is held on its page. -/
theorem regWrite_guard {r : Req} {k : PageKind} {s : State} {h : Held} (page raw : Nat) (d : Word) (hh : heldIn s r k = some h) :
    regWrite r k page 0x028 raw d s = guardOp r k page raw d s := by
  have hb : breakGuard r k page 0x028 s = s := by unfold breakGuard; rw [hh]; exact if_pos rfl
  unfold regWrite; rw [if_neg (by decide)]; simp only [hb]
  rw [regFields_guard, if_neg (by decide), if_pos trivial]

/-- The held value of a page is dropped, and GUARD_STAT says why (R424). -/
def failHeld (r : Req) (k : PageKind) (w : Word) (s : State) : State :=
  modReq r (fun q => { q with guards := merase k.num q.guards, guardStat := mset 0 k.num w q.guardStat }) s

theorem heldIn_failHeld (r : Req) (k : PageKind) (w : Word) (s : State) : heldIn (failHeld r k w s) r k = none := by
  unfold heldIn failHeld; rw [modReq_same]; exact mfind_merase_same ..

theorem guardFail_eq (r : Req) (k : PageKind) (why page off : Nat) (d : Word) (s : State) :
    ∃ w, guardFail r k why page off d s = capture k 2 r.val page off d (failHeld r k w s) := ⟨_, rfl⟩

theorem restSame_bus {s x : State} (h : RestSame s x) (b : Bus) : RestSame { s with bus := b } { x with bus := b } := by
  unfold RestSame at *; exact congrArg (fun y : State => { y with bus := b }) h

theorem restSame_cleared (s : State) : RestSame s (cleared s) :=
  (restSame_iff _ _).2 ⟨by simp [cleared], by simp [cleared], by simp [cleared], rfl, rfl, rfl, portsBut_same rfl⟩

/-- A failed guarded sequence drops the held value and captures the access (R29, R424). -/
theorem guardFail_effect {r : Req} {k : PageKind} (why page off : Nat) (d : Word) {s x : State} (hk : k ≠ .cntu) (hx : RestSame s x)
    (hregs : x.regs = s.regs) (hr : x.pwr.boot ≠ .inReset) :
    RestSame { s with bus := (settle (guardFail r k why page off d x)).bus } (settle (guardFail r k why page off d x)) ∧
    heldIn (settle (guardFail r k why page off d x)) r k = none ∧ EventSet (settle (guardFail r k why page off d x)) (k.events.1 + 1) ∧
    Captured k 2 r page off d s (settle (guardFail r k why page off d x)) := by
  obtain ⟨w, hf⟩ := guardFail_eq r k why page off d x
  have hrest : RestSame { s with bus := (failHeld r k w x).bus } (failHeld r k w x) := restSame_bus hx _
  have hb : (settle (capture k 2 r.val page off d (failHeld r k w x))).bus = (failHeld r k w x).bus := by simp
  rw [hf]
  refine ⟨?_, (heldIn_congr hb r k).trans (heldIn_failHeld r k w x), capture_guardFail hk hr,
    captured_settle (getReg_congr hregs _ _) (getReg_congr hregs _ _)⟩
  rw [hb]; exact restSame_capture hrest

/-- The held value of a page is taken from it. -/
def releaseHeld (r : Req) (k : PageKind) (s : State) : State := modReq r (fun q => { q with guards := merase k.num q.guards }) s

theorem heldIn_release (r : Req) (k : PageKind) (s : State) : heldIn (releaseHeld r k s) r k = none := by
  unfold heldIn releaseHeld; rw [modReq_same]; exact mfind_merase_same ..

/-- GUARD with the complement of a held value of CNT.USER_EN stores it (R28). -/
theorem guardOp_userEn {r : Req} (page raw : Nat) {v : Word} {s : State} (h : heldIn s r .cnt = some ⟨0x040, v⟩) :
    guardOp r .cnt page raw (~~~ v) s = storeReg .cnt 0x040 v (releaseHeld r .cnt s) := by
  have hf : Held.folded ⟨0x040, v⟩ = 0x040 := rfl
  unfold guardOp; rw [h]; dsimp only
  rw [if_pos rfl, hf, if_neg (by decide)]
  unfold guardEffect; dsimp only; rw [if_neg (by decide)]; rfl

/-- GUARD with any other value discards the held value (R29). -/
theorem guardOp_wrong {r : Req} {k : PageKind} (page raw : Nat) {v : Word} {h : Held} {s : State} (hh : heldIn s r k = some h)
    (hv : v ≠ ~~~ h.value) : guardOp r k page raw v s = guardFail r k 0 page raw v s := by
  unfold guardOp; rw [hh]; dsimp only; rw [if_neg hv]

/-- A write of a register page that waits for nothing, as its command finds the device. -/
theorem bar0Write_cleared {r : Req} {k : PageKind} {off : Nat} {s : State} (d : Word) (hc : CoreRuns s) (hw : Writer r s)
    (hp : pageRefused r k = false) (ho : off < 0x400) (h4 : off % 4 = 0) (hi : off ≠ 0x024) :
    bar0Write r (regAddr k off) true d (cleared s) = regWrite r k k.num off off d (reached r s) := by
  rw [bar0Write_reg r k off d (cleared s) hw hp ho h4 hi, landed_cleared r hc]

end Sys2Proof.Machine

open Sys2Proof Sys2Proof.Machine

/-- Settles O12: the value is held, taken by its complement, or discarded by `guardFail_effect`. -/
theorem guardedSequence : Obligations.GuardedSequence := by
  unfold Obligations.GuardedSequence
  intro r k page s ⟨hd, hc⟩ hw hp hpage
  have hk := cntu_refused r k hp
  have hq := delivered_reached r hd
  have held : ∀ j, heldIn (reached r s) r j = heldIn s r j := fun j => heldIn_reached r r j s
  have guard : ∀ v x, regWrite r k k.num 0x028 0x028 v (reached r s) = x → exec (.guardWrite r page v) s = .next (settle x) :=
    fun v x hx => exec_pageWrite (c := .guardWrite r page v) hpage rfl
      ((bar0Write_cleared v hc hw hp (by decide) (by decide) (by decide)).trans hx)
  refine ⟨fun off v hh ho h4 hg => ?_, fun v hh hcnt => ?_, fun h v hh hv => ?_, fun h hh => ?_⟩
  · have hg2 : hasG k off.toNat = true := by
      unfold guardedAt foldOff at hg
      rw [hpage, pageKind_num] at hg; dsimp only at hg
      rwa [show off.toNat / 4 * 4 = off.toNat by omega, if_pos ho] at hg
    have h24 : off.toNat ≠ 0x024 := by
      rintro e; rw [e, (plain_indData k).2.1] at hg2; cases hg2
    have hx := exec_run (c := .guardedValueWrite r page off v) (s := s)
      (fun s => if guardedAt page off then bar0Write r (pageAddr page off.toNat) true v s else s) rfl rfl
    rw [if_pos hg, pageAddr_eq hpage, bar0Write_cleared v hc hw hp ho h4 h24, regWrite_guarded _ _ v ((held k).trans hh) hg2] at hx
    exact completes_quiet hx hq ⟨rfl, heldIn_guardHold .., fun q hne => (modReq_other hne _ _).trans (by simp)⟩
  · subst hcnt
    have hx := guard _ _ ((regWrite_guard _ _ _ ((held _).trans hh)).trans (guardOp_userEn _ _ ((held _).trans hh)))
    refine completes_quiet hx hq ⟨rfl, ?_, ?_⟩
    · exact (heldIn_congr rfl r .cnt).trans (heldIn_release r .cnt _)
    · rw [getReg_storeReg, show w32 (writable .cnt 0x040) = 0xF#32 from by decide]
      exact congrArg₂ _ (congrArg₂ _ (getReg_reached ..) rfl) rfl
  · have hx := guard _ _ ((regWrite_guard _ _ _ ((held _).trans hh)).trans (guardOp_wrong _ _ ((held _).trans hh) hv))
    exact completes_settle hx (guardFail_effect _ _ _ _ hk (restSame_reached r s) (by simp) hw.notInReset)
  · have ho := hw.opened
    have hx := exec_run (c := .guardTimeout r page) (s := s)
      (opened fun s => match pageKind page.toNat with | some k => guardTimeoutOp r k s | none => s) rfl rfl
    have hf : guardTimeoutOp r k (cleared s) = guardFail r k 1 k.num h.off h.value (cleared s) := by
      unfold guardTimeoutOp; rw [show heldIn (cleared s) r k = some h from hh]
    unfold opened at hx
    rw [if_pos (show (cleared s).pwr.boot = .opened from ho), hpage, pageKind_num] at hx
    dsimp only at hx
    rw [hf] at hx
    exact completes_settle hx (guardFail_effect _ _ _ _ hk (restSame_cleared s) rfl (by simp [cleared, ho]))
end

section
namespace Sys2Proof.Machine

open Sys2Proof

/-! Voted writes (R32 to R34, R142) -/

theorem recentOf_congr {s t : State} (h : t.bus = s.bus) (key : Nat) : recentOf t key = recentOf s key := by unfold recentOf; rw [h]

/-- A value that took effect is the one that the window of its register holds (R142). -/
theorem recentOf_noteRecent (key : Nat) (v : DWord) (s : State) : recentOf (noteRecent key v s) key = some v := by
  have hn : (s.bus.recent.filter fun x => x.1 != key).find? (fun x => x.1 == key) = none := by
    rw [List.find?_eq_none]; intro x hx
    have := (List.mem_filter.1 hx).2
    simpa using this
  unfold recentOf noteRecent; dsimp only
  rw [List.find?_append, hn]; simp

/-- An entry of channel `d` that agrees with a write of value `v` to the register of `key`, in the channel's present epoch (R33). -/
def Agrees (s : State) (d : Port) (key : Nat) (v : DWord) (x : VEntry) : Prop := x.key = key ∧ x.value = v ∧ x.epoch = s.ch[d].epoch

/-- The first other channel with an entry that agrees with a write of channel `c` (R33). -/
def otherEntry (c : Port) (key : Nat) (v : DWord) (s : State) : Option (Port × VEntry) :=
  (activeChs s).findSome? fun d =>
    if d == c then none else (s.bus.voted[d].find? fun e => e.key == key && e.value == v && e.epoch == s.ch[d].epoch).map fun e => (d, e)

theorem mem_activeChs {s : State} {d : Port} : d ∈ activeChs s ↔ s.ch[d].st = .active := by
  have : d ∈ allPorts := by revert d; decide
  unfold activeChs; simp [this]

theorem otherEntry_none {c : Port} {key : Nat} {v : DWord} {s : State} : otherEntry c key v s = none ↔
    ∀ d : Port, d ≠ c → s.ch[d].st = .active → ∀ x ∈ s.bus.voted[d], ¬ Agrees s d key v x := by
  unfold otherEntry Agrees
  rw [List.findSome?_eq_none_iff]
  constructor
  · intro h d hd ha x hx hag
    have := h d (mem_activeChs.2 ha)
    rw [if_neg (by simpa using hd), Option.map_eq_none_iff, List.find?_eq_none] at this
    exact this x hx (by simpa [and_assoc] using hag)
  · intro h d hd
    by_cases e : d = c
    · rw [if_pos (by simpa using e)]
    · rw [if_neg (by simpa using e), Option.map_eq_none_iff, List.find?_eq_none]
      intro x hx hag
      exact h d e (mem_activeChs.1 hd) x hx (by simpa [and_assoc] using hag)

/-- Any register but IMG.COMMIT: its write is not noted for a commit. -/
theorem notCommit {k : PageKind} {off : Nat} (h : ¬ (k = .img ∧ off = 0x04C)) : (k == .img && off == 0x04C) = false := by
  simpa [Bool.and_eq_false_iff, imp_iff_not_or] using h

theorem oneOfOne_eq {m : VoteMode} (h : m ≠ .m1oo1) : (m == .m1oo1) = false := by simpa using h

/-- In 1OO1 a write of the one channel takes effect at once. -/
theorem voteIn_alone {c : Port} {k : PageKind} {off : Nat} {s : State} (raw : Nat) (d : Word) (v : DWord) (hk : ¬ (k = .img ∧ off = 0x04C))
    (hm : s.vot.mode = .m1oo1) : voteIn c k off raw d v s = voteEffect c.val k off raw v s := by
  unfold voteIn; dsimp only
  rw [notCommit hk, hm]; simp only [beq_self_eq_true, if_true, Bool.false_eq_true, if_false]
  unfold voteTake; rw [if_neg hk]

/-- A write that agrees with another channel's entry takes effect, ends both entries and opens the window (R33, R142). -/
theorem voteIn_second {c o : Port} {e : VEntry} {k : PageKind} {off : Nat} {s : State} (raw : Nat) (d : Word) (v : DWord)
    (hk : ¬ (k = .img ∧ off = 0x04C)) (hm : s.vot.mode ≠ .m1oo1) (hr : recentOf s (voteKey k off) = none)
    (ho : otherEntry c (voteKey k off) v s = some (o, e)) : voteIn c k off raw d v s =
      voteEffect c.val k off raw v (noteRecent (voteKey k off) v (dropEntry c (voteKey k off) (dropEntry o (voteKey k off) s))) := by
  unfold otherEntry at ho
  unfold voteIn; dsimp only
  rw [notCommit hk, oneOfOne_eq hm, hr]
  simp only [Option.isSome_none, raiseIf, Bool.false_eq_true, if_false, reduceCtorEq]
  rw [ho]; dsimp only
  unfold voteTake; rw [if_neg hk]

/-- The write of channel `c` is held in place of the channel's entry of the same register (R32). -/
def holdEntry (c : Port) (key : Nat) (v : DWord) (s : State) : State :=
  let entries := (s.bus.voted[c].filter fun e => e.key != key) ++ [⟨key, v, s.ch[c].k, s.ch[c].epoch⟩]
  { s with bus := { s.bus with voted := s.bus.voted.set c entries } }

/-- A first write is held, with the channel's APSEQ.K and epoch (R32). -/
theorem voteIn_first {c : Port} {k : PageKind} {off : Nat} {s : State} (raw : Nat) (d : Word) (v : DWord)
    (hk : ¬ (k = .img ∧ off = 0x04C)) (hm : s.vot.mode ≠ .m1oo1) (hr : recentOf s (voteKey k off) = none)
    (ho : otherEntry c (voteKey k off) v s = none) (hl : (s.bus.voted[c].filter fun e => e.key != voteKey k off).length < 16) :
    voteIn c k off raw d v s = holdEntry c (voteKey k off) v s := by
  unfold otherEntry at ho
  unfold voteIn; dsimp only
  rw [notCommit hk, oneOfOne_eq hm, hr]
  simp only [Option.isSome_none, raiseIf, Bool.false_eq_true, if_false, reduceCtorEq]
  rw [ho]; dsimp only
  rw [if_pos hl]; rfl

theorem Writer.lands {r : Req} {s : State} (h : Writer r s) : Machine.lands s r = true := by
  unfold Machine.lands
  rcases h0 : reqPort r with _ | p
  · simpa using h.1 h0
  · obtain ⟨⟨ho, hrx, hbar⟩, hon, -⟩ := h.2 p h0
    dsimp only; rw [ho, hon, hrx, hbar]; rfl

/-- A voted write of an ACTIVE channel comes to the vote. -/
theorem votedWriteOp_votes {c : Port} {k : PageKind} {off : Nat} {s : State} (v : Word) (hc : CoreRuns s) (hw : Writer (portReq c) s)
    (hp : FreePage (portReq c) k s) (ho : off < 0x400) (hmer : ¬ (k = .mer ∧ (off = 0x054 ∨ off = 0x058))) :
    votedWriteOp c k off v (cleared s) = voteIn c k off off v (v.setWidth 64) (reached (portReq c) s) := by
  have hact := (hw.2 c (reqPort_portReq c)).2.2
  have hf : foldOff off = off := by unfold foldOff; rw [if_pos ho]
  have hright : permits (cleared s) (portReq c) k off = true := by
    have : writeRight (cleared s) c k off = .yes := by unfold writeRight; rw [show (cleared s).ch[c].st = .active from hact]
    unfold permits; rw [reqPort_portReq, hp.1]; dsimp only; rw [this]; rfl
  have hlands : Machine.lands (cleared s) (portReq c) = true := Writer.lands hw
  unfold votedWriteOp; dsimp only
  rw [hf, hlands, hright, landed_cleared _ hc, breakGuard_none _ _ _ _ _ ((heldIn_reached _ _ k s).trans hp.2)]
  simp only [Bool.and_self, if_true]
  unfold voteWord voteArrive
  rw [if_neg hmer, reqPort_portReq]; dsimp only
  rw [reached_active hw c (reqPort_portReq c)]

/-- What VOTED_WRITE answers. -/
theorem exec_votedWrite {c : Port} {k : PageKind} {page : BitVec 8} {off : BitVec 12} {s x : State} (v : Word) (hc : CoreRuns s)
    (hw : Writer (portReq c) s) (hp : FreePage (portReq c) k s) (hpage : page.toNat = k.num) (ho : off.toNat < 0x400)
    (h4 : off.toNat % 4 = 0) (hv : hasV k off.toNat = true) (hmer : ¬ (k = .mer ∧ (off.toNat = 0x054 ∨ off.toNat = 0x058)))
    (hx : voteIn c k off.toNat off.toNat v (v.setWidth 64) (reached (portReq c) s) = x) :
    exec (.votedWrite c page off v) s = .next (settle x) := by
  have ha : off.toNat / 4 * 4 = off.toNat := by omega
  have hf : foldOff off.toNat = off.toNat := by unfold foldOff; rw [if_pos ho]
  refine exec_run (fun s => match pageKind page.toNat with
    | some k => if hasV k (foldOff (off.toNat / 4 * 4)) then votedWriteOp c k (off.toNat / 4 * 4) v s else s
    | none => s) rfl ?_
  rw [hpage, pageKind_num]; dsimp only
  rw [ha, hf, if_pos hv, votedWriteOp_votes v hc hw hp ho hmer, hx]

/-- What VOTED_ENTRY_EXPIRE answers. -/
theorem exec_votedEntryExpire {c : Port} {k : PageKind} {page : BitVec 8} {off : BitVec 12} {s x : State} (hb : s.pwr.boot = .opened)
    (hpage : page.toNat = k.num) (ho : off.toNat < 0x400) (h4 : off.toNat % 4 = 0) (hx : voteExpire c k off.toNat (cleared s) = x) :
    exec (.votedEntryExpire c page off) s = .next (settle x) := by
  have ha : off.toNat / 4 * 4 = off.toNat := by omega
  have hf : foldOff off.toNat = off.toNat := by unfold foldOff; rw [if_pos ho]
  refine exec_run (opened fun s => match pageKind page.toNat with | some k => voteExpire c k (foldOff (off.toNat / 4 * 4)) s | none => s) rfl ?_
  unfold opened
  rw [if_pos (show (cleared s).pwr.boot = .opened from hb), hpage, pageKind_num]; dsimp only
  rw [ha, hf, hx]

theorem voteEffect_armCycle (r raw : Nat) (v : Word) (s : State) : voteEffect r .lom 0x054 raw (v.setWidth 64) s = storeReg .lom 0x054 v s := by
  have e : (v.setWidth 64).setWidth 32 = v := by simp
  unfold voteEffect; dsimp only
  rw [if_neg (by decide), e]

/-- LOM.ARM_CYCLE takes a written value as it is. -/
theorem getReg_armCycle (v : Word) (s : State) : getReg (storeReg .lom 0x054 v s) .lom 0x054 = v := by
  rw [getReg_storeReg, show w32 (writable .lom 0x054) = BitVec.allOnes 32 from by decide, BitVec.and_allOnes,
    BitVec.not_allOnes, BitVec.and_zero, BitVec.zero_or]

theorem dropEntry_other {c e : Port} (h : e ≠ c) (key : Nat) (s : State) : (dropEntry c key s).bus.voted[e] = s.bus.voted[e] := by
  unfold dropEntry; exact set_other _ _ _ _ h

theorem dropEntry_same (c : Port) (key : Nat) (s : State) :
    (dropEntry c key s).bus.voted[c] = s.bus.voted[c].filter fun e => e.key != key := by
  unfold dropEntry; simp

/-- An entry that expires is dropped, and no other. -/
theorem voteExpire_held {c : Port} {k : PageKind} {off : Nat} {s : State} (hk : ¬ (k = .img ∧ off = 0x04C))
    (h : ∃ x ∈ s.bus.voted[c], x.key = voteKey k off) : voteExpire c k off s = dropEntry c (voteKey k off) s := by
  have ha : (s.bus.voted[c].any fun e => e.key == voteKey k off) = true := by simpa using h
  unfold voteExpire; dsimp only
  rw [ha, if_pos rfl, if_neg hk]

/-- Without an entry, the window ends. -/
theorem voteExpire_window {c : Port} {k : PageKind} {off : Nat} {s : State} (h : ∀ x ∈ s.bus.voted[c], x.key ≠ voteKey k off) :
    voteExpire c k off s = { s with bus := { s.bus with recent := s.bus.recent.filter fun x => x.1 != voteKey k off } } := by
  have ha : (s.bus.voted[c].any fun e => e.key == voteKey k off) = false := by simpa using h
  unfold voteExpire; dsimp only
  rw [ha, if_neg Bool.false_ne_true]

end Sys2Proof.Machine

open Sys2Proof Sys2Proof.Machine

/-- Settles O13: the write comes to the vote, whose cases are the statement's. -/
theorem votedWrite : Obligations.VotedWrite := by
  unfold Obligations.VotedWrite
  intro c k page off v s ⟨hd, hc⟩ hw hp hpage ho h4 hv hmer himg key mine
  have hq := delivered_reached (portReq c) hd
  have hvot : (reached (portReq c) s).vot = s.vot := by simp
  have hbus : (reached (portReq c) s).bus = s.bus := by simp
  have hch : (reached (portReq c) s).ch = s.ch := by simp
  have run : ∀ x, voteIn c k off.toNat off.toNat v (v.setWidth 64) (reached (portReq c) s) = x →
      exec (.votedWrite c page off v) s = .next (settle x) :=
    fun x hx => exec_votedWrite v hc hw hp hpage ho h4 hv hmer hx
  have expire : ∀ x, voteExpire c k off.toNat (cleared s) = x → exec (.votedEntryExpire c page off) s = .next (settle x) :=
    fun x hx => exec_votedEntryExpire hw.opened hpage ho h4 hx
  have other : otherEntry c key (v.setWidth 64) (reached (portReq c) s) = none ↔
      ∀ d : Port, d ≠ c → s.ch[d].st = .active → ∀ x ∈ s.bus.voted[d], ¬ Agrees s d key (v.setWidth 64) x := by
    rw [otherEntry_none]; unfold Agrees; rw [hbus, hch]
  refine ⟨fun hm hr hag hl => ?_, ?_, ?_, fun h => ?_, fun h => ?_⟩
  · have hx := run _ (voteIn_first _ v _ himg (hvot ▸ hm) ((recentOf_congr hbus key).trans hr) (other.2 hag) (by rw [hbus]; exact hl))
    refine completes_quiet hx hq ⟨rfl, ?_, fun e he => ?_⟩
    · unfold holdEntry; rw [hbus, hch]; simp [mine, key]
    · unfold holdEntry; rw [hbus]; exact set_other _ _ _ _ he
  · rintro rfl h54 hm hr d hne hact ⟨x, hx, hag⟩
    rcases hother : otherEntry c key (v.setWidth 64) (reached (portReq c) s) with _ | ⟨o, e⟩
    · exact absurd hag (other.1 hother d hne hact x hx)
    · have hx := run _ (voteIn_second _ v _ himg (hvot ▸ hm) ((recentOf_congr hbus key).trans hr) hother)
      simp only [h54, voteEffect_armCycle] at hx
      refine completes_quiet hx hq ⟨rfl, ?_, getReg_armCycle _ _, ?_, ?_⟩
      · exact otherRegs_reached (otherRegs_storeReg _ _ _ _)
      · intro y hy
        have hy2 : y ∈ (dropEntry c (voteKey .lom 0x054) (dropEntry o (voteKey .lom 0x054) (reached (portReq c) s))).bus.voted[c] := hy
        rw [dropEntry_same] at hy2
        have := (List.mem_filter.1 hy2).2
        simpa [key, h54] using this
      · rw [show key = voteKey .lom 0x054 by simp [key, h54]]
        exact (recentOf_congr rfl _).trans (recentOf_noteRecent _ _ _)
  · rintro rfl h54 hm
    have hx := run _ (voteIn_alone _ v _ himg (hvot ▸ hm))
    rw [h54, voteEffect_armCycle] at hx
    exact completes_quiet hx hq ⟨storeReg_eq _ _ _ _, otherRegs_reached (otherRegs_storeReg _ _ _ _), getReg_armCycle _ _⟩
  · have hx := expire _ (voteExpire_held himg h)
    exact completes_quiet hx hd ⟨rfl, dropEntry_same c key _, fun e he => dropEntry_other he key _⟩
  · exact completes_quiet (expire _ (voteExpire_window h)) hd rfl
end

section
namespace Sys2Proof.Machine

open Sys2Proof

/-! Nothing queued -/

theorem segCfg_congr {s t : State} {g : Seg} (h : getReg t (.ls g) 0x040 = getReg s (.ls g) 0x040) (b : Nat) : segCfg t g b = segCfg s g b := by
  unfold segCfg; rw [h]

/-- Work waits or not whatever stands in registers other than the segments' CTRL. -/
theorem nothingQueued_congr {s t : State} (hs : Same3 State.vot State.crl State.rng s t) (hleg : t.mnt.leg = s.mnt.leg)
    (hseg : t.seg = s.seg) (hpwr : t.pwr = s.pwr) (hreg : ∀ g, getReg t (.ls g) 0x040 = getReg s (.ls g) 0x040)
    (h : NothingQueued s) : NothingQueued t := by
  obtain ⟨hvot, hcrl, hrng⟩ := hs
  have list : ∀ q, listPkts t q = listPkts s q := fun q => by unfold listPkts; rw [hcrl]
  have hcfg : ∀ g b, segCfg t g b = segCfg s g b := fun g b => segCfg_congr (hreg g) b
  have master : ∀ g, masterOk t g = masterOk s g := fun g => by unfold masterOk segAvail; rw [hcfg, hcfg, hseg, hpwr]
  have keeps : ∀ g e, keepsOn t g e = keepsOn s g e := fun g e => by unfold keepsOn; rw [hcfg, hcfg, hseg, hpwr]
  have count : ∀ g, workCount t g = workCount s g := fun g => by unfold workCount; simp only [keeps, list, hseg]
  have work : ∀ g, hasWork t g = hasWork s g := fun g => by unfold hasWork; simp only [list, hseg]
  have ctl : ∀ g, sysconAct t g = sysconAct s g := fun g => by unfold sysconAct; rw [hcfg, hpwr]
  unfold NothingQueued SlavesFree BusSettled slaveList at *
  simp only [hvot, hleg, hrng, hseg, list, master, count, work, ctl]
  exact h

/-! Shadows and update groups (R37 to R40) -/

theorem pageGroup_congr {s t : State} (h : t.regs = s.regs) (k : PageKind) : pageGroup t k = pageGroup s k := getFld_congr h _ _ _ _

/-- The shadow of an RNG register applies: the register takes its value, and no shadow waits. -/
def rngApplied (off : Nat) (w : Word) (s : State) : State := setReg .rng off w { s with bus := { s.bus with shadow := [] } }

theorem otherRegs_rngApplied (off : Nat) (w : Word) (s : State) : OtherRegs .rng off s (rngApplied off w s) := otherRegs_setReg .rng off w _

theorem getReg_rngApplied (off : Nat) (w : Word) (s : State) : getReg (rngApplied off w s) .rng off = w := getReg_setReg .rng off w _

/-- The one shadow that waits applies. -/
theorem applyKey_rng {off : Nat} {w : Word} {s : State} (ho : off < 0x1000) (hs : s.bus.shadow = [(regAddr .rng off, w)]) :
    applyKey (regAddr .rng off) w s = rngApplied off w s := by
  have hlt := regAddr_lt .rng off ho
  have hk : regAddr .rng off % 2 ^ 20 = regAddr .rng off := Nat.mod_eq_of_lt hlt
  have hq : regAddr .rng off / 2 ^ 20 = 0 := Nat.div_eq_of_lt hlt
  have hp : regAddr .rng off / 0x1000 = PageKind.rng.num := by unfold regAddr; omega
  have hr : regAddr .rng off % 0x1000 = off := by unfold regAddr; omega
  have he : merase (regAddr .rng off) s.bus.shadow = [] := by rw [hs]; simp [merase]
  unfold applyKey; dsimp only
  rw [hk, hp, pageKind_num, hq, hr, he]; rfl

/-- The update of its page's group applies a shadow, and nothing moves on with it (R38). -/
theorem updateGroup_rng {g off : Nat} {w : Word} {s : State} (ho : off < 0x1000) (hs : s.bus.shadow = [(regAddr .rng off, w)])
    (hg : pageGroup s .rng = g) (hn : NothingQueued s) : updateGroup g s = rngApplied off w s := by
  have hp : regAddr .rng off % 2 ^ 20 / 0x1000 = PageKind.rng.num := by
    rw [Nat.mod_eq_of_lt (regAddr_lt .rng off ho)]; unfold regAddr; omega
  have hq : NothingQueued (rngApplied off w s) := by
    refine nothingQueued_congr (s := s) ⟨rfl, rfl, rfl⟩ rfl rfl rfl (fun g => ?_) hn
    have : regAddr (.ls g) 0x040 ≠ regAddr .rng off := by unfold regAddr; simp only [PageKind.num]; omega
    exact otherRegs_rngApplied off w s _ _ this
  unfold updateGroup applyWhere; dsimp only
  rw [hs, List.filter_cons_of_pos]
  · rw [List.filter_nil, List.foldl_cons, List.foldl_nil, applyKey_rng ho hs, pump_idle _ hq]
  · dsimp only; rw [hp, pageKind_num]; dsimp only; rw [hg]; simp

/-- A strobe of one group of 1 to 6 updates that group alone. -/
theorem updateOp_group {g : Nat} (h1 : 1 ≤ g) (h6 : g ≤ 6) (s : State) : updateOp (BitVec.ofNat 32 (2 ^ g)) s = updateGroup g s := by
  have hb : ∀ j ∈ [1, 2, 3, 4, 5, 6, 7], bitAt (BitVec.ofNat 32 (2 ^ g)) j = (j == g) := by
    interval_cases g <;> decide
  unfold updateOp
  simp only [List.foldl_cons, List.foldl_nil, hb 1 (by decide), hb 2 (by decide), hb 3 (by decide), hb 4 (by decide), hb 5 (by decide),
    hb 6 (by decide), hb 7 (by decide)]
  interval_cases g <;> rfl

/-- A strobe of group 7 alone waits for the boundary while the Loom runs. -/
theorem updateOp_loom {s : State} (h : s.lom.run = true) : updateOp 0x80 s = putFld .glb 0x064 7 7 1 s := by
  have hb : ∀ j ∈ [1, 2, 3, 4, 5, 6, 7], bitAt (0x80 : Word) j = (j == 7) := by decide
  unfold updateOp
  simp only [List.foldl_cons, List.foldl_nil, hb 1 (by decide), hb 2 (by decide), hb 3 (by decide), hb 4 (by decide), hb 5 (by decide),
    hb 6 (by decide), hb 7 (by decide), h]
  rfl

theorem blockWrite_update (r : Req) (page raw : Nat) (d : Word) (s : State) : blockWrite r .glb page 0x060 raw d s = updateOp d s := by
  unfold blockWrite; dsimp only; rw [if_pos rfl]

/-- What UPDATE answers. -/
theorem exec_update {r : Req} {d : Word} {s x : State} (hc : CoreRuns s) (hw : Writer r s) (hp : FreePage r .glb s)
    (hx : updateOp d (reached r s) = x) : exec (.update r d) s = .next (settle x) := by
  refine exec_run (bar0Write r (regAddr .glb 0x060) true d) rfl ?_
  rw [bar0Write_block d hc hw hp (by unfold PlainReg; decide) (by decide) (by decide) (by decide), blockWrite_update, hx]

theorem getFld_putFld_bit (k : PageKind) (off b : Nat) (hb : b < 32) (v : Bool) (s : State) :
    getFld (putFld k off b b (bnat v) s) k off b b = bnat v := by
  unfold getFld; rw [getReg_putFld, fieldOf_bit, bitAt_setFieldOf_one _ b v b hb, if_pos rfl]

end Sys2Proof.Machine

open Sys2Proof Sys2Proof.Machine

/-- Settles O14: the one shadow that waits applies with its group, and after it the pump finds nothing to move. -/
theorem shadowUpdates : Obligations.ShadowUpdates := by
  unfold Obligations.ShadowUpdates
  intro r s ⟨hd, hc⟩ hw hp
  have hq := delivered_reached r hd
  refine ⟨fun hl => ?_, fun off w ho hn hs => ⟨fun g h1 h6 hg => ?_, fun hwait hg => ?_⟩⟩
  · have hl2 : (reached r s).lom.run = true := by simpa using hl
    refine completes_quiet (exec_update hc hw hp (updateOp_loom hl2)) (delivered_putFld _ _ _ _ _ hq) ⟨putFld_eq _ _ _ _ _ _, ?_, ?_⟩
    · exact otherRegs_reached (otherRegs_putFld _ _ _ _ _ _)
    · exact getFld_putFld_bit _ _ 7 (by decide) true _
  · have hlt : off < 0x1000 := by omega
    have hn2 : NothingQueued (reached r s) := nothingQueued_congr (by simp) (by simp) (by simp) (by simp) (fun g => getReg_reached ..) hn
    have hx := exec_update hc hw hp ((updateOp_group h1 h6 _).trans
      (updateGroup_rng hlt (by simpa using hs) ((pageGroup_congr (by simp) _).trans hg) hn2))
    exact completes_quiet hx hq ⟨rfl, getReg_rngApplied .., otherRegs_reached (otherRegs_rngApplied off w _)⟩
  · have hlt : off < 0x1000 := by omega
    have other : ∀ k2 off2, regAddr k2 off2 ≠ regAddr .glb 0x064 → getReg (putFld .glb 0x064 7 7 0 (cleared s)) k2 off2 = getReg s k2 off2 :=
      otherRegs_putFld _ _ _ _ _ (cleared s)
    have hn2 : NothingQueued (putFld .glb 0x064 7 7 0 (cleared s)) := nothingQueued_congr (s := s) ⟨rfl, rfl, rfl⟩ rfl rfl rfl
      (fun g => other _ _ (by unfold regAddr; simp only [PageKind.num]; omega)) hn
    have hg2 : pageGroup (putFld .glb 0x064 7 7 0 (cleared s)) .rng = 7 := by
      unfold pageGroup getFld at hg ⊢
      rw [other _ _ (by unfold regAddr; simp only [PageKind.num]; omega)]; exact hg
    have hx := exec_run (c := .group7UpdateApply) (s := s) (opened group7Apply) rfl rfl
    unfold opened group7Apply at hx
    rw [if_pos (show (cleared s).pwr.boot = .opened from hw.opened), if_pos (show getFld (cleared s) .glb 0x064 7 7 = 1 from hwait),
      updateGroup_rng (s := putFld .glb 0x064 7 7 0 (cleared s)) hlt hs hg2 hn2] at hx
    refine completes_quiet hx hd ⟨rfl, getReg_rngApplied .., ?_⟩
    have h := otherRegs_rngApplied off w (putFld .glb 0x064 7 7 0 (cleared s)) .glb 0x064 (by unfold regAddr; simp only [PageKind.num]; omega)
    unfold getFld; rw [h]
    exact getFld_putFld_bit _ _ 7 (by decide) false _
end

section
namespace Sys2Proof.Machine

open Sys2Proof

/-! The response of the maintenance port (R54, Table 2.18) -/

theorem bnat_le (b : Bool) : bnat b ≤ 1 := by cases b <;> decide

theorem decide_bnat (b : Bool) : decide (bnat b = 1) = b := by cases b <;> rfl

/-- A number with six flags above 56 bits: its flags and the bits below them. -/
theorem flags_parts {a b c d e f low : Nat} (ha : a ≤ 1) (hb : b ≤ 1) (hc : c ≤ 1) (hd : d ≤ 1) (he : e ≤ 1) (hf : f ≤ 1)
    (hl : low < 2 ^ 56) :
    let v := a * 2 ^ 63 + b * 2 ^ 62 + c * 2 ^ 61 + d * 2 ^ 60 + e * 2 ^ 59 + f * 2 ^ 58 + low
    v < 2 ^ 64 ∧ v / 2 ^ 63 % 2 = a ∧ v / 2 ^ 62 % 2 = b ∧ v / 2 ^ 61 % 2 = c ∧ v / 2 ^ 60 % 2 = d ∧ v / 2 ^ 59 % 2 = e ∧
      v / 2 ^ 58 % 2 = f ∧ v % 2 ^ 56 = low := by
  intro v; dsimp only [v]; omega

/-- A response word: 64 bits and their CRC-8. -/
def misoWord (v : Nat) : BitVec 72 := BitVec.ofNat 72 (v * 256 + (crc8 (BitVec.ofNat 64 v)).toNat)

theorem misoWord_toNat {v : Nat} (hv : v < 2 ^ 64) : (misoWord v).toNat = v * 256 + (crc8 (BitVec.ofNat 64 v)).toNat := by
  have hc := (crc8 (BitVec.ofNat 64 v)).isLt
  unfold misoWord; rw [BitVec.toNat_ofNat]; omega

theorem misoWord_crc {v : Nat} (hv : v < 2 ^ 64) : (misoWord v).extractLsb' 0 8 = crc8 ((misoWord v).extractLsb' 8 64) := by
  have hc := (crc8 (BitVec.ofNat 64 v)).isLt
  have hbits : (misoWord v).extractLsb' 8 64 = BitVec.ofNat 64 v := by
    apply BitVec.eq_of_toNat_eq
    rw [BitVec.extractLsb'_toNat, misoWord_toNat hv, BitVec.toNat_ofNat, Nat.shiftRight_eq_div_pow]; omega
  rw [hbits]
  apply BitVec.eq_of_toNat_eq
  rw [BitVec.extractLsb'_toNat, misoWord_toNat hv, Nat.shiftRight_eq_div_pow]; omega

theorem misoWord_bit {v : Nat} (hv : v < 2 ^ 64) (i : Nat) : (misoWord v).getLsbD (8 + i) = decide (v / 2 ^ i % 2 = 1) := by
  have hc := (crc8 (BitVec.ofNat 64 v)).isLt
  have hq : (v * 256 + (crc8 (BitVec.ofNat 64 v)).toNat) / 2 ^ 8 = v := by omega
  rw [BitVec.getLsbD, misoWord_toNat hv, Nat.testBit_eq_decide_div_mod_eq, Nat.pow_add, ← Nat.div_div_eq_div_mul, hq]

theorem misoWord_field {v : Nat} (hv : v < 2 ^ 64) (i n : Nat) : ((misoWord v).extractLsb' (8 + i) n).toNat = v / 2 ^ i % 2 ^ n := by
  have hc := (crc8 (BitVec.ofNat 64 v)).isLt
  have hq : (v * 256 + (crc8 (BitVec.ofNat 64 v)).toNat) / 2 ^ 8 = v := by omega
  rw [BitVec.extractLsb'_toNat, misoWord_toNat hv, Nat.shiftRight_eq_div_pow, Nat.pow_add, ← Nat.div_div_eq_div_mul, hq]

/-- The port has a result to report (R54). -/
def mntShown (s : State) : Bool := s.mnt.valid && !mntBusy s && !s.mnt.crcErr && !s.mnt.abort

/-- The response to the frame before state `s` is the first output of `t` (Table 2.18). -/
def Responds (s t : State) : Prop :=
  ∃ w : BitVec 72, [.miso w] <+: t.out ∧ w.extractLsb' 0 8 = crc8 (w.extractLsb' 8 64) ∧
    w.getLsbD 71 = mntShown s ∧ w.getLsbD 70 = s.mnt.crcErr ∧ w.getLsbD 69 = (mntShown s && s.mnt.accErr) ∧ w.getLsbD 68 = mntBusy s ∧
    w.getLsbD 67 = s.mnt.abort ∧ w.getLsbD 66 = (mntShown s && s.mnt.written) ∧
    (mntShown s = true → w.extractLsb' 8 32 = s.mnt.data ∧ (w.extractLsb' 40 24).toNat = s.mnt.echo % 2 ^ 24)

/-- What the low bits of a response say: the result, or free bits. -/
def misoLow (s : State) (f : Nat) : Nat := if mntShown s then s.mnt.echo % 2 ^ 24 * 2 ^ 32 + s.mnt.data.toNat else f % 2 ^ 56

theorem misoLow_lt (s : State) (f : Nat) : misoLow s f < 2 ^ 56 := by
  have hd := s.mnt.data.isLt
  have he := Nat.mod_lt s.mnt.echo (show 2 ^ 24 > 0 by decide)
  unfold misoLow; split <;> omega

theorem misoBits_eq (s : State) (f : Nat) : misoBits s f = bnat (mntShown s) * 2 ^ 63 + bnat s.mnt.crcErr * 2 ^ 62 +
    bnat (mntShown s && s.mnt.accErr) * 2 ^ 61 + bnat (mntBusy s) * 2 ^ 60 + bnat s.mnt.abort * 2 ^ 59 +
    bnat (mntShown s && s.mnt.written) * 2 ^ 58 + misoLow s f := rfl

/-- The bits of a response are those of Table 2.18, whatever comes after it. -/
theorem responds_of_miso {s t : State} (f : Nat) (h : [.miso (misoWord (misoBits s f))] <+: t.out) : Responds s t := by
  have hlow := misoLow_lt s f
  obtain ⟨hv, h63, h62, h61, h60, h59, h58, hl⟩ := flags_parts (bnat_le (mntShown s)) (bnat_le s.mnt.crcErr)
    (bnat_le (mntShown s && s.mnt.accErr)) (bnat_le (mntBusy s)) (bnat_le s.mnt.abort) (bnat_le (mntShown s && s.mnt.written)) hlow
  rw [← misoBits_eq] at hv h63 h62 h61 h60 h59 h58 hl
  have flag : ∀ (i : Nat) (b : Bool), misoBits s f / 2 ^ i % 2 = bnat b → (misoWord (misoBits s f)).getLsbD (8 + i) = b := by
    intro i b hb; rw [misoWord_bit hv, hb, decide_bnat]
  refine ⟨_, h, misoWord_crc hv, flag 63 _ h63, flag 62 _ h62, flag 61 _ h61, flag 60 _ h60, flag 59 _ h59, flag 58 _ h58, fun hs => ?_⟩
  have hd := s.mnt.data.isLt
  have he := Nat.mod_lt s.mnt.echo (show 2 ^ 24 > 0 by decide)
  have hlo : misoLow s f = s.mnt.echo % 2 ^ 24 * 2 ^ 32 + s.mnt.data.toNat := by unfold misoLow; rw [if_pos hs]
  have h1 := misoWord_field hv 0 32
  have h2 := misoWord_field hv 32 24
  constructor
  · apply BitVec.eq_of_toNat_eq; rw [show (8 : Nat) = 8 + 0 from rfl, h1]; omega
  · rw [show (40 : Nat) = 8 + 32 from rfl, h2]; omega

/-! Frames (R52, R53, R55) -/

/-- A frame is heard: the response to the one before leaves, and the port notes how the frame came. -/
def heard (crcErr abort : Bool) (s : State) : State := noteFrame crcErr abort (respond (cleared s))

theorem heard_eq (crcErr abort : Bool) (s : State) : ∃ n, heard crcErr abort s = { s with
    out := [.miso (misoWord (misoBits s (freeVal s).toNat))], freeCount := n, mnt := { s.mnt with crcErr := crcErr, abort := abort } } := by
  unfold heard respond misoWord; dsimp only
  split <;> exact ⟨_, rfl⟩

/-- From `s` a command has heard a frame, and has changed nothing since but registers, the event hub and its own port. -/
structure Heard (s x : State) : Prop where
  rest : RestSame { s with freeCount := x.freeCount, mnt := x.mnt } x
  out : x.out = [.miso (misoWord (misoBits s (freeVal s).toNat))]

theorem restSame_mnt {s x : State} (h : RestSame s x) (n : Nat) (m : Mnt) :
    RestSame { s with freeCount := n, mnt := m } { x with freeCount := n, mnt := m } := by
  unfold RestSame at *; exact congrArg (fun y : State => { y with freeCount := n, mnt := m }) h

theorem heard_heard (crcErr abort : Bool) (s : State) : Heard s (heard crcErr abort s) := by
  obtain ⟨n, e⟩ := heard_eq crcErr abort s
  have hx : RestSame s { s with out := [.miso (misoWord (misoBits s (freeVal s).toNat))] } :=
    (restSame_iff _ _).2 ⟨by simp, by simp, by simp, rfl, rfl, rfl, portsBut_same rfl⟩
  rw [e]
  exact ⟨restSame_mnt hx n _, rfl⟩

/-- Reports to registers and event hub keep what was heard. -/
theorem Heard.reports {s x y : State} (h : Heard s x) (hr : OnlyReports x y) : Heard s y := by
  have hr2 := hr
  obtain ⟨-, ⟨ho, -⟩, ⟨-, -, hm, hf⟩, -⟩ := hr
  refine ⟨?_, ho.trans h.out⟩
  rw [hf, hm]; exact restSame_trans h.rest (restSame_of_reports hr2)

/-- Changes of the port alone keep what was heard. -/
theorem Heard.mnt {s x : State} (h : Heard s x) (n : Nat) (m : Mnt) : Heard s { x with freeCount := n, mnt := m } :=
  ⟨restSame_mnt h.rest n m, h.out⟩

/-- What was heard shows when the events are delivered. -/
theorem Heard.settled {s x : State} (h : Heard s x) :
    RestSame { s with freeCount := (settle x).freeCount, mnt := (settle x).mnt } (settle x) ∧ Responds s (settle x) := by
  have hf : (settle x).freeCount = x.freeCount ∧ (settle x).mnt = x.mnt := by simp
  rw [hf.1, hf.2]
  exact ⟨restSame_settle h.rest, responds_of_miso _ (h.out ▸ (settle_sends x).2)⟩

theorem heard_mnt (crcErr abort : Bool) (s : State) : (heard crcErr abort s).mnt = { s.mnt with crcErr := crcErr, abort := abort } := by
  obtain ⟨n, e⟩ := heard_eq crcErr abort s; rw [e]

theorem heard_regs (crcErr abort : Bool) (s : State) : (heard crcErr abort s).regs = s.regs := by
  obtain ⟨n, e⟩ := heard_eq crcErr abort s; rw [e]

theorem heard_delivered (crcErr abort : Bool) {s : State} (h : Delivered s) : Delivered (heard crcErr abort s) := by
  obtain ⟨n, e⟩ := heard_eq crcErr abort s; rw [e]; exact h

theorem mntBusy_cleared (s : State) : mntBusy (cleared s) = mntBusy s := rfl

/-- A frame of wrong length is counted in ABORTS (R52). -/
theorem frame_short {clocks : Nat} (bits : DWord) (crc : BitVec 8) (f : State → State) (s : State) (h : clocks ≠ 72) :
    frame clocks bits crc f (cleared s) = raise 243 (incReg .mnt 0x048 1 (heard false true s)) := by
  unfold frame heard; dsimp only; rw [if_pos h]; rfl

/-- A frame of wrong CRC is counted in CRC_ERRS (R53). -/
theorem frame_wrongCrc {bits : DWord} {crc : BitVec 8} (f : State → State) (s : State) (h : crc8 bits ≠ crc) :
    frame 72 bits crc f (cleared s) = raise 242 (incReg .mnt 0x044 1 (heard true false s)) := by
  unfold frame heard; dsimp only; rw [if_neg (by decide), if_pos h]; rfl

/-- A frame that finds the port busy is not executed (R55). -/
theorem frame_busy {bits : DWord} {crc : BitVec 8} (f : State → State) {s : State} (h : crc8 bits = crc) (hb : mntBusy s = true) :
    frame 72 bits crc f (cleared s) = heard false false s := by
  unfold frame heard; dsimp only; rw [if_neg (by decide), if_neg (by simpa using h), mntBusy_cleared, hb, if_pos rfl]

/-- Any other frame is counted and executed (R55). -/
theorem frame_done {bits : DWord} {crc : BitVec 8} (f : State → State) {s : State} (hc : CoreRuns s) (h : crc8 bits = crc)
    (hb : mntBusy s = false) :
    frame 72 bits crc f (cleared s) = f (incReg .mnt 0x040 1 (heard false false s)) := by
  have hcr : CoreRuns (incReg .mnt 0x040 1 (heard false false s)) := by
    obtain ⟨n, e⟩ := heard_eq false false s; rw [e]; exact hc
  unfold frame heard; dsimp only
  rw [if_neg (by decide), if_neg (by simpa using h), mntBusy_cleared, hb, if_neg Bool.false_ne_true]
  exact congrArg f (wakeCore_runs _ _ _ hcr)

/-! What a frame starts -/

/-- A frame's effect past its checks touches its port alone. -/
def PortAlone (f : State → State) : Prop := ∀ s, ∃ n m, f s = { s with freeCount := n, mnt := m }

theorem refuseAccess_alone (off : Nat) : PortAlone (refuseAccess off) := fun _ => ⟨_, _, rfl⟩

theorem startAccess_alone (write guarded space : Bool) (off : Nat) (d : Word) : PortAlone (startAccess write guarded space off d) := by
  intro s; unfold startAccess; split
  · exact refuseAccess_alone off s
  · exact ⟨_, _, rfl⟩

theorem refuseAccess_mnt (off : Nat) (s : State) : (refuseAccess off s).mnt.acc = none ∧ (refuseAccess off s).mnt.valid = true ∧
    (refuseAccess off s).mnt.accErr = true ∧ (refuseAccess off s).mnt.written = false := ⟨rfl, rfl, rfl, rfl⟩

/-- The view takes an access or refuses it (R52, R57). -/
theorem startAccess_mnt (write guarded space : Bool) (off : Nat) (d : Word) (s : State) :
    if off % 4 ≠ 0 ∨ (space = false ∧ 0x100000 ≤ off) ∨ (space = true ∧ guarded = true) then
      (startAccess write guarded space off d s).mnt.acc = none ∧ (startAccess write guarded space off d s).mnt.valid = true ∧
      (startAccess write guarded space off d s).mnt.accErr = true ∧ (startAccess write guarded space off d s).mnt.written = false
    else (startAccess write guarded space off d s).mnt = { s.mnt with acc := some ⟨write, guarded, space, off, d⟩ } := by
  have hv : outsideView space guarded off = true ↔
      off % 4 ≠ 0 ∨ (space = false ∧ 0x100000 ≤ off) ∨ (space = true ∧ guarded = true) := by
    simp [outsideView, or_assoc]
  unfold startAccess
  by_cases h : outsideView space guarded off = true
  · rw [if_pos (hv.1 h), if_pos h]; exact refuseAccess_mnt off s
  · rw [if_neg (fun e => h (hv.2 e)), if_neg h]

/-- What a frame of command `n` leaves in the port: an access, or ACC_ERR outside the view (R52, R57). -/
def Started (s : State) (space : Bool) (off n : Nat) (acc : Option MntAcc) (m : Mnt) : Prop :=
  if off % 4 ≠ 0 ∨ (space = false ∧ 0x100000 ≤ off) ∨ (space = true ∧ n = 2) then
    m.acc = none ∧ m.valid = true ∧ m.accErr = true ∧ m.written = false
  else m = { s.mnt with crcErr := false, abort := false, acc := acc }

theorem startAccess_started {write guarded : Bool} {n : Nat} (space : Bool) (off : Nat) (d : Word) (hn : guarded = true ↔ n = 2) (s : State) :
    Started s space off n (some ⟨write, guarded, space, off, d⟩)
      (startAccess write guarded space off d (incReg .mnt 0x040 1 (heard false false s))).mnt := by
  have h := startAccess_mnt write guarded space off d (incReg .mnt 0x040 1 (heard false false s))
  rw [show (incReg .mnt 0x040 1 (heard false false s)).mnt = { s.mnt with crcErr := false, abort := false } from heard_mnt false false s] at h
  unfold Started; simp only [← hn]; exact h

theorem mosiBits_eq {c : Nat} (hc : c < 8) (space : Bool) (off : BitVec 25) (d : Word) :
    mosiBits c space off.toNat d = BitVec.ofNat 64 (c * 2 ^ 61 + bnat space * 2 ^ 60 + off.toNat * 2 ^ 32 + d.toNat) := by
  have ho := off.isLt
  unfold mosiBits; rw [Nat.mod_eq_of_lt hc, Nat.mod_eq_of_lt ho]

theorem counted_other (k : PageKind) (off : Nat) (s : State) : OtherRegs k off s (incReg k off 1 s) := otherRegs_setReg k off _ s

/-- A frame that is not executed leaves its count and its event, and the response of the one before. -/
theorem frame_refused {c : Instr} {s : State} {crcErr abort : Bool} {off ev bit : Nat} (hb : s.pwr.boot ≠ .inReset)
    (he : eventPage ev = some (.mnt, bit)) (hx : exec c s = .next (settle (raise ev (incReg .mnt off 1 (heard crcErr abort s))))) :
    Completes c s fun t =>
      (RestSame { s with freeCount := t.freeCount, mnt := { s.mnt with crcErr := crcErr, abort := abort } } t ∧ Responds s t) ∧
      OtherRegs .mnt off s t ∧ getReg t .mnt off = getReg s .mnt off + 1 ∧ EventSet t ev := by
  have hreg := heard_regs crcErr abort s
  have hh : Heard s (raise ev (incReg .mnt off 1 (heard crcErr abort s))) := (heard_heard crcErr abort s).reports (by simp)
  obtain ⟨h1, h2⟩ := hh.settled
  have hm : (settle (raise ev (incReg .mnt off 1 (heard crcErr abort s)))).mnt = { s.mnt with crcErr := crcErr, abort := abort } := by
    rw [← heard_mnt]; simp
  rw [hm] at h1
  have hboot : (raise ev (incReg .mnt off 1 (heard crcErr abort s))).pwr.boot ≠ .inReset := by
    obtain ⟨n, e⟩ := heard_eq crcErr abort s; rw [e]; simpa using hb
  refine completes_settle hx ⟨⟨h1, h2⟩, ?_, ?_, event_seen he hboot (raise_mem ev _)⟩
  · exact otherRegs_congr (counted_other .mnt off (heard crcErr abort s)) hreg.symm (by simp)
  · rw [getReg_settle]
    exact (getReg_incReg .mnt off 1 (heard crcErr abort s)).trans (by rw [getReg_congr hreg]; rfl)

/-- A frame that finds the port busy leaves the response of the one before, and nothing else. -/
theorem frame_ignored {c : Instr} {s : State} (hd : Delivered s) (hx : exec c s = .next (settle (heard false false s))) :
    Completes c s fun t =>
      (RestSame { s with freeCount := t.freeCount, mnt := { s.mnt with crcErr := false, abort := false } } t ∧ Responds s t) ∧
      t.regs = s.regs := by
  have h := (heard_heard false false s).settled
  rw [settle_delivered (heard_delivered false false hd)] at h
  refine completes_quiet hx (heard_delivered false false hd) ⟨?_, heard_regs false false s⟩
  rw [heard_mnt] at h; exact h

/-- A frame that is executed is counted; its effect touches the port alone. -/
theorem frame_executed {c : Instr} {s : State} {f : State → State} (hf : PortAlone f) (hd : Delivered s) {P : Mnt → Prop}
    (hx : exec c s = .next (settle (f (incReg .mnt 0x040 1 (heard false false s)))))
    (hP : P (f (incReg .mnt 0x040 1 (heard false false s))).mnt) :
    Completes c s fun t => Responds s t ∧ OtherRegs .mnt 0x040 s t ∧ getReg t .mnt 0x040 = getReg s .mnt 0x040 + 1 ∧
      RestSame { s with freeCount := t.freeCount, mnt := t.mnt } t ∧ P t.mnt := by
  have hreg := heard_regs false false s
  have hh : Heard s (incReg .mnt 0x040 1 (heard false false s)) := (heard_heard false false s).reports (by simp)
  obtain ⟨n, m, e⟩ := hf (incReg .mnt 0x040 1 (heard false false s))
  rw [e] at hx hP
  obtain ⟨h1, h2⟩ := (hh.mnt n m).settled
  have hq : Delivered { incReg .mnt 0x040 1 (heard false false s) with freeCount := n, mnt := m } := heard_delivered false false hd
  rw [settle_delivered hq] at h1 h2
  refine completes_quiet hx hq ⟨h2, ?_, ?_, h1, hP⟩
  · exact otherRegs_congr (counted_other .mnt 0x040 (heard false false s)) hreg.symm rfl
  · exact (getReg_incReg .mnt 0x040 1 (heard false false s)).trans (by rw [getReg_congr hreg]; rfl)

/-- What a frame's command answers. -/
theorem exec_frame {c : Instr} {clocks : Nat} {bits : DWord} {crc : BitVec 8} {f : State → State} {s x : State} (hb : s.pwr.boot ≠ .inReset)
    (hc : exec c s = run (outOfReset (frame clocks bits crc f)) s) (hx : frame clocks bits crc f (cleared s) = x) :
    exec c s = .next (settle x) := by
  refine exec_run _ hc ?_
  unfold outOfReset; rw [if_neg (show (cleared s).pwr.boot ≠ .inReset from hb), hx]

/-- What each kind of frame does: one of wrong length, of wrong CRC, one that finds the port busy, and one that is executed and leaves
`P` of the port (R52, R53, R55). -/
def FrameDoes (c : Instr) (clocks : Nat) (bits : DWord) (crc : BitVec 8) (P : Mnt → Prop) (s : State) : Prop :=
  (clocks ≠ 72 → Completes c s fun t =>
    (RestSame { s with freeCount := t.freeCount, mnt := { s.mnt with crcErr := false, abort := true } } t ∧ Responds s t) ∧
    OtherRegs .mnt 0x048 s t ∧ getReg t .mnt 0x048 = getReg s .mnt 0x048 + 1 ∧ EventSet t 243) ∧
  (clocks = 72 → crc8 bits ≠ crc → Completes c s fun t =>
    (RestSame { s with freeCount := t.freeCount, mnt := { s.mnt with crcErr := true, abort := false } } t ∧ Responds s t) ∧
    OtherRegs .mnt 0x044 s t ∧ getReg t .mnt 0x044 = getReg s .mnt 0x044 + 1 ∧ EventSet t 242) ∧
  (clocks = 72 → crc8 bits = crc →
    (mntBusy s = true → Completes c s fun t =>
      (RestSame { s with freeCount := t.freeCount, mnt := { s.mnt with crcErr := false, abort := false } } t ∧ Responds s t) ∧
      t.regs = s.regs) ∧
    (mntBusy s = false → Completes c s fun t =>
      Responds s t ∧ OtherRegs .mnt 0x040 s t ∧ getReg t .mnt 0x040 = getReg s .mnt 0x040 + 1 ∧
      RestSame { s with freeCount := t.freeCount, mnt := t.mnt } t ∧ P t.mnt))

theorem frame_does {c : Instr} {clocks : Nat} {bits : DWord} {crc : BitVec 8} {f : State → State} {P : Mnt → Prop} {s : State} (hs : Calm s)
    (hb : s.pwr.boot ≠ .inReset) (hc : exec c s = run (outOfReset (frame clocks bits crc f)) s) (hf : PortAlone f)
    (hP : P (f (incReg .mnt 0x040 1 (heard false false s))).mnt) : FrameDoes c clocks bits crc P s := by
  obtain ⟨hd, hcore⟩ := hs
  refine ⟨fun h => ?_, fun h72 h => ?_, fun h72 h => ⟨fun hbusy => ?_, fun hbusy => ?_⟩⟩
  · exact frame_refused hb rfl (exec_frame hb hc (frame_short bits crc f s h))
  · subst h72; exact frame_refused hb rfl (exec_frame hb hc (frame_wrongCrc f s h))
  · subst h72; exact frame_ignored hd (exec_frame hb hc (frame_busy f h hbusy))
  · subst h72; exact frame_executed hf hd (exec_frame hb hc (frame_done f hcore h hbusy)) hP

/-- What MNT_READ_STATUS does once its frame is accepted. -/
def statusEffect (cmd : Nat) (space : Bool) (off : Nat) (d : Word) (s : State) : State :=
  if cmd = 3 then s else if cmd < 3 then startAccess (cmd != 0) (cmd == 2) space off (if cmd = 0 then 0 else d) s else refuseAccess off s

theorem statusEffect_alone (cmd : Nat) (space : Bool) (off : Nat) (d : Word) : PortAlone (statusEffect cmd space off d) := by
  intro s; unfold statusEffect
  by_cases h3 : cmd = 3
  · rw [if_pos h3]; exact ⟨s.freeCount, s.mnt, rfl⟩
  rw [if_neg h3]
  by_cases h : cmd < 3
  · rw [if_pos h]; exact startAccess_alone _ _ _ _ _ s
  · rw [if_neg h]; exact refuseAccess_alone off s

/-- What that leaves in the port: nothing, or ACC_ERR for a reserved CMD (R55). -/
def StatusDone (s : State) (cmd : Nat) (m : Mnt) : Prop :=
  (cmd = 3 → m = { s.mnt with crcErr := false, abort := false }) ∧ (3 < cmd → m.acc = none ∧ m.valid = true ∧ m.accErr = true)

theorem statusEffect_done (cmd : Nat) (space : Bool) (off : Nat) (d : Word) (s : State) :
    StatusDone s cmd (statusEffect cmd space off d (incReg .mnt 0x040 1 (heard false false s))).mnt := by
  unfold statusEffect
  constructor
  · rintro rfl; rw [if_pos rfl]; exact heard_mnt false false s
  · intro h; rw [if_neg (by omega), if_neg (by omega)]
    obtain ⟨h1, h2, h3, -⟩ := refuseAccess_mnt off (incReg .mnt 0x040 1 (heard false false s))
    exact ⟨h1, h2, h3⟩

end Sys2Proof.Machine

open Sys2Proof Sys2Proof.Machine

/-- Settles O59: every kind of frame comes to `frame_does`, and differs in what it starts. -/
theorem maintenanceFrames : Obligations.MaintenanceFrames := by
  unfold Obligations.MaintenanceFrames
  intro clocks space off d cmd crc s hs hb bits busy shown response noted rows
  have row : ∀ (i : Instr) (n : Nat) (d0 d1 : Word) (write guarded : Bool), (guarded = true ↔ n = 2) → n < 8 →
      exec i s = run (outOfReset (frame clocks (mosiBits n space off.toNat d0) crc (startAccess write guarded space off.toNat d1))) s →
      FrameDoes i clocks (bits n d0) crc (Started s space off.toNat n (some ⟨write, guarded, space, off.toNat, d1⟩)) s := by
    intro i n d0 d1 write guarded hg hn hc
    have h := frame_does hs hb hc (startAccess_alone _ _ _ _ _) (startAccess_started space off.toNat d1 hg s)
    rwa [mosiBits_eq hn] at h
  refine ⟨?_, ?_⟩
  · intro x hx
    simp only [rows, List.mem_cons, List.not_mem_nil, or_false] at hx
    rcases hx with rfl | rfl | rfl
    · exact row _ 0 d 0 false false (by decide) (by decide) rfl
    · exact row _ 1 d d true false (by decide) (by decide) rfl
    · exact row _ 2 d d true true (by decide) (by decide) rfl
  · have h := frame_does (c := .mntReadStatus clocks ⟨cmd, space, off, d⟩ crc) (clocks := clocks) (bits := mosiBits cmd.toNat space off.toNat d)
      (crc := crc) hs hb rfl (statusEffect_alone cmd.toNat space off.toNat d) (statusEffect_done cmd.toNat space off.toNat d s)
    rw [mosiBits_eq cmd.isLt] at h
    exact h
end

section
namespace Sys2Proof.Machine

open Sys2Proof

/-! The access of a maintenance frame (R55, R56, R57) -/

theorem reached_port (s : State) : reached 4 s = cleared s := rfl

/-- The maintenance port takes every right once the device is open. -/
theorem writer_port {s : State} (h : s.pwr.boot = .opened) : Writer 4 s := ⟨fun _ => h, fun p hp => by cases hp⟩

theorem free_port {k : PageKind} {s : State} (hk : k ≠ .cntu) (h : heldIn s 4 k = none) : FreePage 4 k s := by
  refine ⟨?_, h⟩
  unfold pageRefused; rw [show reqPort 4 = none from rfl]
  simpa using hk

/-- No access of a frame waits but an indirect one. -/
theorem mntWaits_reg (s : State) (write guarded : Bool) (k : PageKind) {off : Nat} (d : Word) (ho : off < 0x400) (h4 : off % 4 = 0)
    (hi : off ≠ 0x024) : mntWaits s ⟨write, guarded, false, regAddr k off, d⟩ = false := by
  obtain ⟨ha, hp, hr⟩ := regAddr_parts k off (by omega) h4
  have hf : (foldOff off == 0x024) = false := by unfold foldOff; rw [if_pos ho]; simpa using hi
  unfold mntWaits indWaits streamWaits
  simp only [hp, pageKind_num, ha, hr, hf, Bool.false_and, Bool.and_false, Bool.or_self]

/-- What MNT_ACCESS_DONE answers. -/
theorem exec_mntAccessDone {s x : State} (hb : s.pwr.boot = .opened) (hx : mntDone (cleared s) = x) :
    exec .mntAccessDone s = .next (settle x) := by
  refine exec_run (opened mntDone) rfl ?_
  unfold opened; rw [if_pos (show (cleared s).pwr.boot = .opened from hb), hx]

theorem mntDone_none {s : State} (h : s.mnt.acc = none) : mntDone s = s := by unfold mntDone; rw [h]

/-- A read of BAR0 of a frame holds the word that the register reads as. -/
theorem mntDone_read {s x : State} {a : Nat} {w : Word} {d : Word} (hc : CoreRuns s) (h : s.mnt.acc = some ⟨false, false, false, a, d⟩)
    (hw : mntWaits s ⟨false, false, false, a, d⟩ = false) (hr : bar0Read 4 a s = some (w, x)) : mntDone s = mntResult false false a w x := by
  unfold mntDone; rw [h]; dsimp only
  rw [hw, if_neg Bool.false_ne_true, wakeCore_runs _ _ s hc, if_neg Bool.false_ne_true, if_neg Bool.false_ne_true, hr]

/-- A read of BAR2 of a frame holds the bytes there, when no memory word is in error. -/
theorem mntDone_bar2 {s : State} {off : Nat} {d : Word} (hc : CoreRuns s) (he : s.tap.ecc = [])
    (h : s.mnt.acc = some ⟨false, false, true, off, d⟩) :
    mntDone s = mntResult false false off (wordLE (bar2Bytes s off 4)) s := by
  have hd : bar2Data s off 4 = bar2Bytes s off 4 := by unfold bar2Data; rw [he]; rfl
  have hm : bar2Meet off 4 s = s := by unfold bar2Meet; rw [he]; rfl
  unfold mntDone; rw [h]; dsimp only
  rw [show mntWaits s ⟨false, false, true, off, d⟩ = false from rfl, if_neg Bool.false_ne_true, wakeCore_runs _ _ s hc,
    if_neg Bool.false_ne_true, if_pos rfl, hd, hm]

/-- A write of BAR0 of a frame, plain or guarded, leaves `x`. -/
theorem mntDone_write {s x : State} {guarded : Bool} {a : Nat} {d : Word} (hc : CoreRuns s) (h : s.mnt.acc = some ⟨true, guarded, false, a, d⟩)
    (hw : mntWaits s ⟨true, guarded, false, a, d⟩ = false)
    (hx : (if guarded then guardedPair a d s else bar0Word 4 a true d s) = x) :
    mntDone s = mntResult (decide (violCount s < violCount x))
      (!decide (violCount s < violCount x) && mntTakes s ⟨true, guarded, false, a, d⟩) a d x := by
  unfold mntDone; rw [h]; dsimp only
  rw [hw, if_neg Bool.false_ne_true, wakeCore_runs _ _ s hc, if_pos rfl, if_neg Bool.false_ne_true, hx]

/-- A write that raises nothing is answered as written where the register takes one. -/
theorem mntDone_written {s x : State} {guarded : Bool} {a : Nat} {d : Word} (hc : CoreRuns s) (h : s.mnt.acc = some ⟨true, guarded, false, a, d⟩)
    (hw : mntWaits s ⟨true, guarded, false, a, d⟩ = false) (hx : (if guarded then guardedPair a d s else bar0Word 4 a true d s) = x)
    (he : x.evh = s.evh) (ht : mntTakes s ⟨true, guarded, false, a, d⟩ = true) : mntDone s = mntResult false true a d x := by
  have hv : decide (violCount s < violCount x) = false := by unfold violCount; rw [he]; simp
  rw [mntDone_write hc h hw hx, hv, ht]; rfl

/-- A write that raises a LOCK_VIOL is answered with ACC_ERR (R15). -/
theorem mntDone_refused {s x : State} {guarded : Bool} {a : Nat} {d : Word} (hc : CoreRuns s) (h : s.mnt.acc = some ⟨true, guarded, false, a, d⟩)
    (hw : mntWaits s ⟨true, guarded, false, a, d⟩ = false) (hx : (if guarded then guardedPair a d s else bar0Word 4 a true d s) = x)
    (hs : s.evh.occ = []) (ho : ∃ o ∈ x.evh.occ, lockViols.contains o.ev = true) : mntDone s = mntResult true false a d x := by
  have h0 : violCount s = 0 := by unfold violCount; rw [hs]; rfl
  have h1 : 0 < violCount x := by
    obtain ⟨o, hm, he⟩ := ho
    exact List.length_pos_of_mem (List.mem_filter.2 ⟨hm, he⟩)
  have hv : decide (violCount s < violCount x) = true := by simpa [h0] using h1
  rw [mntDone_write hc h hw hx, hv]; rfl

theorem lockViols_page {k : PageKind} (hk : k ≠ .cntu) : lockViols.contains k.events.1 = true := by
  cases k with
  | cp n => revert n; decide
  | ls g => revert g; decide
  | rg rp => revert rp; decide
  | cntu => exact absurd rfl hk
  | _ => decide

/-- A write of a register with a writable field is one that takes effect, outside IND_DATA, GUARD and the cell limits. -/
theorem mntTakes_reg {s : State} {guarded : Bool} {k : PageKind} {off : Nat} {d : Word} (ho : off < 0x400) (h4 : off % 4 = 0)
    (hw : hasWritable k off = true) (hx : off ∉ [0x024, 0x028, 0x04C, 0x050]) : mntTakes s ⟨true, guarded, false, regAddr k off, d⟩ = true := by
  obtain ⟨-, hp, hr⟩ := regAddr_parts k off (by omega) h4
  have h : k.num < 0x34 ∨ (0x40 ≤ k.num ∧ k.num < 0x42) := by cases k <;> simp [PageKind.num] <;> omega
  have hf : foldOff off = off := by unfold foldOff; rw [if_pos ho]
  simp only [List.mem_cons, List.not_mem_nil, or_false, not_or] at hx
  obtain ⟨h1, h2, h3, h5⟩ := hx
  have ht : mntTarget (regAddr k off) = true := by
    unfold mntTarget; dsimp only
    rw [hp, if_neg (by omega), if_neg (by omega), msixPage_num, pageKind_num, hr, hf]; exact hw
  unfold mntTakes; dsimp only
  rw [ht, hp, pageKind_num, hr, hf]; dsimp only
  rw [if_neg h1, if_neg h2, if_neg (by omega)]; rfl

theorem hasWritable_eventEn (k : PageKind) : hasWritable k 0x014 = true := by unfold hasWritable; rw [regFields_eventEn]; rfl

/-- A guarded frame of CNT.USER_EN stores its value (R56). -/
theorem guardedPair_userEn {s : State} (d : Word) (h : heldIn s 4 .cnt = none) :
    guardedPair (regAddr .cnt 0x040) d s = storeReg .cnt 0x040 d (releaseHeld 4 .cnt (guardHold 4 .cnt 0x040 d s)) := by
  have hs : ∀ c : Port, reqPort 4 = some c → ∀ t : State, t.ch[c].st = .active := by intro c hc; cases hc
  have ha : regAddr .cnt 0x040 / 0x1000 * 0x1000 + 0x028 = regAddr .cnt 0x028 := by decide
  unfold guardedPair
  rw [ha, bar0Word_reg 4 .cnt 0x040 d s (fun c hc => hs c hc s) (by decide) (by decide) (by decide), regWrite_guarded _ _ d h (by decide),
    bar0Word_reg 4 .cnt 0x028 _ _ (fun c hc => hs c hc _) (by decide) (by decide) (by decide),
    regWrite_guard _ _ _ (heldIn_guardHold 4 .cnt 0x040 d s), guardOp_userEn _ _ (heldIn_guardHold 4 .cnt 0x040 d s)]

end Sys2Proof.Machine
end

section
namespace Sys2Proof.Machine

open Sys2Proof

/-! What the access of a frame leaves (R55) -/

/-- The port holds the result of its access. -/
def endedAcc (accErr written : Bool) (a : Nat) (w : Word) (m : Mnt) : Mnt :=
  { m with acc := none, valid := true, accErr := accErr, written := written, echo := a, data := w }

theorem mntResult_endedAcc (accErr written : Bool) {a : Nat} (w : Word) (s : State) (h : a < 2 ^ 24) :
    mntResult accErr written a w s = { s with mnt := endedAcc accErr written a w s.mnt } := by
  unfold mntResult endedAcc; rw [Nat.mod_eq_of_lt h]

theorem regAddr_view (k : PageKind) {off : Nat} (h : off < 0x1000) : regAddr k off < 2 ^ 24 := lt_trans (regAddr_lt k off h) (by decide)

theorem accessDone_readId {s : State} {k : PageKind} (hs : Calm s) (hb : s.pwr.boot = .opened)
    (ha : s.mnt.acc = some ⟨false, false, false, regAddr k 0x000, 0⟩) : Completes .mntAccessDone s fun t =>
      t = { cleared s with mnt := endedAcc false false (regAddr k 0x000) (BitVec.ofNat 32 (k.typ * 2 ^ 24 + k.inst * 2 ^ 16 + 0x0100)) s.mnt } := by
  have hr := (bar0Read_page 4 k 0x000 (cleared s) (by decide) (by decide)).trans (pageRead_header 4 k k.num 0x000 (cleared s) (.inl rfl))
  rw [regWord_id] at hr
  have hx := exec_mntAccessDone hb (mntDone_read hs.2 ha (mntWaits_reg _ _ _ k 0 (by decide) (by decide) (by decide)) hr)
  rw [mntResult_endedAcc _ _ _ _ (regAddr_view k (by decide))] at hx
  exact completes_quiet hx hs.1 rfl

theorem accessDone_readBar2 {s : State} {off : Nat} (hs : Calm s) (hb : s.pwr.boot = .opened) (ho : off < 2 ^ 24) (he : s.tap.ecc = [])
    (ha : s.mnt.acc = some ⟨false, false, true, off, 0⟩) : Completes .mntAccessDone s fun t =>
      t = { cleared s with mnt := endedAcc false false off (wordLE (bar2Bytes s off 4)) s.mnt } := by
  have hx := exec_mntAccessDone hb (mntDone_bar2 (s := cleared s) hs.2 he ha)
  rw [mntResult_endedAcc _ _ _ _ ho] at hx
  exact completes_quiet hx hs.1 rfl

theorem accessDone_eventEn {s : State} {k : PageKind} {d : Word} (hs : Calm s) (hb : s.pwr.boot = .opened) (hk : k ≠ .cntu)
    (hh : heldIn s 4 k = none) (ha : s.mnt.acc = some ⟨true, false, false, regAddr k 0x014, d⟩) : Completes .mntAccessDone s fun t =>
      t = { cleared s with regs := t.regs, mnt := endedAcc false true (regAddr k 0x014) d s.mnt } ∧
      OtherRegs k 0x014 s t ∧ getReg t k 0x014 = (getReg s k 0x014 &&& 0xFF000000#32) ||| (d &&& 0x00FFFFFF#32) := by
  have hw := write_eventEn 4 k d s hs.1 (writer_port hb) (free_port hk hh)
  rw [reached_port] at hw
  have hx := exec_mntAccessDone hb (mntDone_written hs.2 ha (mntWaits_reg _ _ _ k d (by decide) (by decide) (by decide)) hw rfl
    (mntTakes_reg (by decide) (by decide) (hasWritable_eventEn k) (by decide)))
  rw [mntResult_endedAcc _ _ _ _ (regAddr_view k (by decide))] at hx
  have h := getReg_storeReg k 0x014 d (cleared s)
  rw [writable_eventEn] at h
  exact completes_quiet hx hs.1 ⟨rfl, otherRegs_storeReg k 0x014 d (cleared s), h⟩

/-- A locked register refuses the write of a frame (R23, R55). -/
theorem accessDone_locked {s : State} {k : PageKind} {d : Word} (hs : Calm s) (hb : s.pwr.boot = .opened) (hk : k ≠ .cntu)
    (hh : heldIn s 4 k = none) (ha : s.mnt.acc = some ⟨true, false, false, regAddr k 0x018, d⟩)
    (hl : getFld s k 0x018 0 0 = 1) : Completes .mntAccessDone s fun t =>
      RestSame { s with mnt := endedAcc true false (regAddr k 0x018) d s.mnt } t ∧ Captured k 1 4 k.num 0x018 d s t ∧ EventSet t k.events.1 := by
  obtain ⟨hf, hg, hv⟩ := plain_lock k
  have hw : bar0Word 4 (regAddr k 0x018) true d (cleared s) = capture k 1 4 k.num 0x018 d (cleared s) := by
    rw [bar0Word_reg 4 k 0x018 d _ (by intro c hc; cases hc) (free_port hk hh).1 (by decide) (by decide),
      regWrite_header 4 k _ _ _ d _ (show heldIn (cleared s) 4 k = none from hh) hf (by decide) hg hv (by decide), headerWrite_lock,
      lockOp_locked _ _ _ _ _ _ _ (show getFld (cleared s) k 0x018 0 0 = 1 from hl)]
    rfl
  obtain ⟨o, hmem, hev⟩ := (capture_occ k 1 4 k.num 0x018 d (cleared s)).1 (.inl rfl)
  rw [errPage_ne k hk] at hev
  have hx := exec_mntAccessDone hb (mntDone_refused hs.2 ha (mntWaits_reg _ _ _ k d (by decide) (by decide) (by decide)) hw hs.1.1
    ⟨o, hmem, hev ▸ lockViols_page hk⟩)
  rw [mntResult_endedAcc _ _ _ _ (regAddr_view k (by decide))] at hx
  have hcap : Captured k 1 4 k.num 0x018 d s (capture k 1 4 k.num 0x018 d (cleared s)) := capture_captured k 1 4 k.num 0x018 d (cleared s)
  have hrest : RestSame s (capture k 1 4 k.num 0x018 d (cleared s)) :=
    restSame_trans (restSame_cleared s) (restSame_of_reports (capture_frame _ _ _ _ _ _ _))
  have hkeep : (capture k 1 4 k.num 0x018 d (cleared s)).mnt = s.mnt ∧ (capture k 1 4 k.num 0x018 d (cleared s)).pwr = s.pwr ∧
      (capture k 1 4 k.num 0x018 d (cleared s)).freeCount = s.freeCount := by simp [cleared]
  obtain ⟨hm, hp, hfc⟩ := hkeep
  generalize capture k 1 4 k.num 0x018 d (cleared s) = y at *
  refine completes_settle hx ⟨restSame_settle ?_, captured_congr hcap rfl (settle_regs _), ?_⟩
  · rw [hm]
    have h := restSame_mnt hrest s.freeCount (endedAcc true false (regAddr k 0x018) d s.mnt)
    rw [show ({ y with freeCount := s.freeCount, mnt := endedAcc true false (regAddr k 0x018) d s.mnt } : State) =
      { y with mnt := endedAcc true false (regAddr k 0x018) d s.mnt } by rw [← hfc]] at h
    exact h
  · refine event_seen (eventPage_first k hk 0 (by decide)) ?_ ⟨o, hmem, hev⟩
    rw [hp, hb]; decide

/-- A guarded frame of CNT.USER_EN stores its value (R56). -/
theorem accessDone_guarded {s : State} {d : Word} (hs : Calm s) (hb : s.pwr.boot = .opened) (hh : heldIn s 4 .cnt = none)
    (ha : s.mnt.acc = some ⟨true, true, false, regAddr .cnt 0x040, d⟩) : Completes .mntAccessDone s fun t =>
      t = { cleared s with bus := t.bus, regs := t.regs, mnt := endedAcc false true (regAddr .cnt 0x040) d s.mnt } ∧
      heldIn t 4 .cnt = none ∧ OtherRegs .cnt 0x040 s t ∧
      getReg t .cnt 0x040 = (getReg s .cnt 0x040 &&& 0xFFFFFFF0#32) ||| (d &&& 0xF#32) := by
  have hx := exec_mntAccessDone hb (mntDone_written hs.2 ha (mntWaits_reg _ _ _ .cnt d (by decide) (by decide) (by decide))
    (guardedPair_userEn d (show heldIn (cleared s) 4 .cnt = none from hh)) rfl (mntTakes_reg (by decide) (by decide) (by decide) (by decide)))
  rw [mntResult_endedAcc _ _ _ _ (regAddr_view .cnt (by decide))] at hx
  have h := getReg_storeReg .cnt 0x040 d (releaseHeld 4 .cnt (guardHold 4 .cnt 0x040 d (cleared s)))
  rw [show w32 (writable .cnt 0x040) = 0xF#32 from by decide] at h
  refine completes_quiet hx hs.1 ⟨rfl, ?_, ?_, h⟩
  · exact (heldIn_congr rfl 4 .cnt).trans (heldIn_release 4 .cnt (guardHold 4 .cnt 0x040 d (cleared s)))
  · exact otherRegs_congr (otherRegs_storeReg .cnt 0x040 d (releaseHeld 4 .cnt (guardHold 4 .cnt 0x040 d (cleared s)))) rfl rfl

end Sys2Proof.Machine
end

section
namespace Sys2Proof.Machine

open Sys2Proof

/-! LEG_STAT (R58) -/

/-- CODE of LEG_STAT is set apart from its flags. -/
theorem legCode_set (w : Word) {code : Nat} (h : code < 16) : fieldOf (setFieldOf w 7 4 code) 7 4 = code ∧
    ∀ b, b < 4 → fieldOf (setFieldOf w 7 4 code) b b = fieldOf w b b := by
  have hw := w.isLt
  have hb : bitsOf w.toNat 7 4 = w.toNat / 16 % 16 := by
    unfold bitsOf; rw [Nat.shiftRight_eq_div_pow]; norm_num
  have hn : (setFieldOf w 7 4 code).toNat = w.toNat - w.toNat / 16 % 16 * 16 + code * 16 := by
    unfold setFieldOf withBits
    rw [hb, BitVec.toNat_ofNat, show 2 ^ (7 + 1 - 4) = 16 from rfl, Nat.mod_eq_of_lt h]; omega
  constructor
  · unfold fieldOf bitsOf; rw [hn, Nat.shiftRight_eq_div_pow]; omega
  · intro b hb4; unfold fieldOf bitsOf; rw [hn]
    interval_cases b <;> simp only [Nat.shiftRight_eq_div_pow] <;> omega

theorem getFld_code (s : State) {code : Nat} (h : code < 16) : getFld (putFld .mnt 0x068 7 4 code s) .mnt 0x068 7 4 = code := by
  unfold getFld; rw [getReg_putFld]; exact (legCode_set _ h).1

theorem getFld_flag_code (s : State) {code b : Nat} (h : code < 16) (hb : b < 4) :
    getFld (putFld .mnt 0x068 7 4 code s) .mnt 0x068 b b = getFld s .mnt 0x068 b b := by
  unfold getFld; rw [getReg_putFld]; exact (legCode_set _ h).2 b hb

theorem getFld_flag_one (k : PageKind) (off : Nat) {b : Nat} (hb : b < 32) (s : State) : getFld (putFld k off b b 1 s) k off b b = 1 :=
  getFld_putFld_bit k off b hb true s

theorem getFld_flag_zero (k : PageKind) (off : Nat) {b : Nat} (hb : b < 32) (s : State) : getFld (putFld k off b b 0 s) k off b b = 0 :=
  getFld_putFld_bit k off b hb false s

/-- A flag that is set leaves the others. -/
theorem getFld_flag_other (k : PageKind) (off : Nat) {b c : Nat} (hc : c < 32) (hne : c ≠ b) (s : State) :
    getFld (putFld k off b b 1 s) k off c c = getFld s k off c c := by
  have h := bitAt_setFieldOf_one (getReg s k off) b true c hc
  rw [if_neg hne, show bnat true = 1 from rfl] at h
  unfold getFld; rw [getReg_putFld, fieldOf_bit, fieldOf_bit, h]

/-- A refusal of the mailbox: DONE with its CODE, and the event (R58). -/
def Refused (code : Nat) (s t : State) : Prop :=
  getFld t .mnt 0x068 7 4 = code ∧ getFld t .mnt 0x068 2 2 = 1 ∧ t.mnt = s.mnt ∧ t.seg = s.seg

theorem legStat_refused {code : Nat} (h : code < 16) (s : State) :
    getFld (putFld .mnt 0x068 7 4 code (putFld .mnt 0x068 2 2 1 s)) .mnt 0x068 7 4 = code ∧
    getFld (putFld .mnt 0x068 7 4 code (putFld .mnt 0x068 2 2 1 s)) .mnt 0x068 2 2 = 1 :=
  ⟨getFld_code _ h, by rw [getFld_flag_code _ h (by decide), getFld_flag_one .mnt 0x068 (by decide)]⟩

theorem raise_regs (ev : Nat) (s : State) : (raise ev s).regs = s.regs := rfl

theorem legRefuse_shown {code : Nat} {s x : State} (h : code < 16) (hm : x.mnt = s.mnt) (hs : x.seg = s.seg) (hb : x.pwr.boot ≠ .inReset) :
    Refused code s (settle (legRefuse code x)) ∧ EventSet (settle (legRefuse code x)) 245 := by
  obtain ⟨h1, h2⟩ := legStat_refused h x
  have hr : (settle (legRefuse code x)).regs = (putFld .mnt 0x068 7 4 code (putFld .mnt 0x068 2 2 1 x)).regs :=
    (settle_regs (legRefuse code x)).trans (raise_regs 245 _)
  refine ⟨⟨(getFld_congr hr _ _ _ _).trans h1, (getFld_congr hr _ _ _ _).trans h2, ?_, ?_⟩, ?_⟩
  · simpa [legRefuse] using hm
  · simpa [legRefuse] using hs
  · exact event_seen (k := .mnt) (b := 5) rfl (by simpa [legRefuse] using hb) (raise_mem 245 _)

/-! The word that LEG_CMD_GO writes -/

/-- GO changes no field below it. -/
theorem fieldOf_go (d : Word) {hi lo : Nat} (h : hi < 31) : fieldOf (d ||| 0x80000000) hi lo = fieldOf d hi lo := by
  unfold fieldOf bitsOf
  apply Nat.eq_of_testBit_eq; intro i
  rw [Nat.testBit_mod_two_pow, Nat.testBit_mod_two_pow, Nat.testBit_shiftRight, Nat.testBit_shiftRight, BitVec.toNat_or, Nat.testBit_or]
  by_cases hi2 : i < hi + 1 - lo
  · have h0 : (0x80000000 : Word).toNat.testBit (lo + i) = false := by
      rw [show (0x80000000 : Word).toNat = 2 ^ 31 from rfl, Nat.testBit_two_pow]; simp; omega
    rw [h0, Bool.or_false]
  · simp [hi2]

theorem bitAt_go (d : Word) {b : Nat} (h : b < 31) : bitAt (d ||| 0x80000000) b = bitAt d b := by
  have := fieldOf_go d (hi := b) (lo := b) h
  rw [fieldOf_bit, fieldOf_bit] at this
  revert this; cases bitAt (d ||| 0x80000000) b <;> cases bitAt d b <;> decide

theorem go_set (d : Word) : bitAt (d ||| 0x80000000) 31 = true := by
  unfold bitAt; rw [BitVec.getLsbD_or]; simp

/-- The state in which the mailbox takes its command: LEG_CMD holds the written word. -/
def legCmd (d : Word) (s : State) : State := storeReg .mnt 0x050 (d ||| 0x80000000) (cleared s)

/-- What LEG_CMD_GO answers. -/
theorem exec_legCmdGo {d : Word} {s x : State} (hs : Calm s) (hb : s.pwr.boot = .opened) (hh : heldIn s 4 .mnt = none)
    (hx : legGo (d ||| 0x80000000) (legCmd d s) = x) : exec (.legCmdGo d) s = .next (settle x) := by
  refine exec_run (bar0Write 4 (regAddr .mnt 0x050) true (d ||| 0x80000000)) rfl ?_
  rw [bar0Write_block _ hs.2 (writer_port hb) (free_port (by decide) hh) (by unfold PlainReg; decide) (by decide)
    (by decide) (by decide), reached_port]
  unfold blockWrite; dsimp only
  rw [if_pos rfl, go_set, if_pos rfl]; exact hx

end Sys2Proof.Machine
end

section
namespace Sys2Proof.Machine

open Sys2Proof

/-! The mailbox's access and what forbids it (R58) -/

/-- The pattern entry that a mailbox command names. -/
def legEntry (v : Word) (s : State) : Nat := patEntry s.lom.act (fieldOf v 15 0)

/-- The offset of the mailbox's access. -/
def legOff (s : State) : Nat := getFld s .mnt 0x054 11 0

/-- The bytes that a write of the mailbox carries. -/
def legBytes (v : Word) (s : State) : List Byte :=
  (bytesLE 4 (getReg s .mnt 0x058).toNat ++ bytesLE 4 (getReg s .mnt 0x05C).toNat).take (legSize v)

/-- Size or pattern forbid the access. -/
def LegForbidden (v : Word) (s : State) : Prop :=
  3 < fieldOf v 18 16 ∨ accessRefused (patOf (legEntry v s)) (bitAt v 30) (legOff s) (legSize v) = true

/-- Neither size, pattern, node nor a memory error forbid the access. -/
structure LegAllowed (v : Word) (s : State) : Prop where
  idle : s.mnt.legRun = false
  size : fieldOf v 18 16 ≤ 3
  pattern : accessRefused (patOf (legEntry v s)) (bitAt v 30) (legOff s) (legSize v) = false
  node : nodeRefused s (legEntry v s) (bitAt v 30) (legOff s) (legSize v) = false
  memory : s.tap.ecc = []

/-- The life cycle forbids the access. -/
def legClosed (v : Word) (s : State) : Bool := !lcOpen s && (bitAt v 30 || !(patOf (legEntry v s)).idem)

/-- Without a word in error a fetch meets none. -/
theorem fetchPat_clean {s : State} (h : s.tap.ecc = []) (i : Nat) : fetchPat i s = s := by
  have hu : ∀ j, patUncorr s j = false := fun j => by unfold patUncorr uncorrIn; rw [h]; rfl
  have hr : ∀ m lo hi, readEcc m lo hi s = s := fun m lo hi => by unfold readEcc; rw [h]; rfl
  have h1 : ∀ j, fetchOne j s = s := fun j => by unfold fetchOne; dsimp only; rw [hr, hu]; rfl
  unfold fetchPat
  induction fetched s i with
  | nil => rfl
  | cons j js ih => rw [List.foldl_cons, h1, ih]

theorem fetchBad_clean {s : State} (h : s.tap.ecc = []) (i : Nat) : fetchBad s i = false := by
  unfold fetchBad patUncorr uncorrIn; rw [h]; simp

theorem legGo_running {v : Word} {s : State} (h : s.mnt.legRun = true) :
    legGo v s = putFld .mnt 0x068 7 4 5 (putFld .mnt 0x068 2 2 1 s) := by
  unfold legGo; rw [if_pos h]

theorem legGo_forbidden {v : Word} {s : State} (h : s.mnt.legRun = false) (hx : LegForbidden v s) :
    legGo v s = legRefuse 4 (fetchPat (fieldOf v 15 0) s) := by
  unfold legGo; rw [h, if_neg Bool.false_ne_true]; dsimp only
  rw [if_pos]
  rcases hx with hx | hx
  · exact .inl hx
  · exact .inr (.inr (.inl hx))

theorem LegAllowed.checks {v : Word} {s : State} (h : LegAllowed v s) :
    ¬ (3 < fieldOf v 18 16 ∨ fetchBad s (fieldOf v 15 0) = true ∨
      accessRefused (patOf (patEntry s.lom.act (fieldOf v 15 0))) (bitAt v 30) (getFld s .mnt 0x054 11 0) (legSize v) = true ∨
      nodeRefused s (patEntry s.lom.act (fieldOf v 15 0)) (bitAt v 30) (getFld s .mnt 0x054 11 0) (legSize v) = true) := by
  have hp := h.pattern
  have hn := h.node
  unfold legEntry legOff at hp hn
  rw [fetchBad_clean h.memory, hp, hn]
  have := h.size
  simp; omega

theorem legGo_closed {v : Word} {s : State} (h : LegAllowed v s) (hc : legClosed v s = true) : legGo v s = legRefuse 3 s := by
  unfold legClosed legEntry at hc
  unfold legGo; rw [h.idle, if_neg Bool.false_ne_true]; dsimp only
  rw [if_neg h.checks, fetchPat_clean h.memory, hc, if_pos rfl]

/-- An access to a node that is no member is refused (R58). -/
theorem legGo_noMember {v : Word} {s : State} (h : LegAllowed v s) (hc : legClosed v s = false) (h0 : (patOf (legEntry v s)).node ≠ 0)
    (hl : (patOf (legEntry v s)).node ≠ s.rng.num) (hm : isMember s (patOf (legEntry v s)).node = false) : legGo v s = legRefuse 6 s := by
  unfold legClosed legEntry at hc
  unfold legEntry at h0 hl hm
  unfold legGo; rw [h.idle, if_neg Bool.false_ne_true]; dsimp only
  rw [if_neg h.checks, fetchPat_clean h.memory, hc, if_neg Bool.false_ne_true]
  unfold localPat localNode; dsimp only
  rw [if_neg h0, if_neg hl]; dsimp only
  rw [hm, if_neg Bool.false_ne_true]

/-- The mailbox is busy with an access whose packet waits for its cells. -/
def legWaits (v : Word) (s : State) : State :=
  { legBusy (bitAt v 30) s with mnt := { (legBusy (bitAt v 30) s).mnt with
    leg := some (legPkt (bitAt v 30) (fieldOf v 15 0) (legEntry v s) (legOff s) (legSize v) (legBytes v s)) } }

/-- Any other access of a pattern of this node starts. -/
theorem legGo_starts {v : Word} {s : State} (h : LegAllowed v s) (hc : legClosed v s = false) (h0 : (patOf (legEntry v s)).node = 0)
    (hk : (patOf (legEntry v s)).kind ≠ .rmw ∨ bitAt v 30 = true) : legGo v s = pump (legWaits v s) := by
  unfold legEntry at hk
  have hrmw : ((patOf (patEntry s.lom.act (fieldOf v 15 0))).kind == .rmw && !bitAt v 30) = false := by
    rw [Bool.and_eq_false_iff]
    exact hk.imp (fun e => by simpa using e) (fun e => by rw [e]; rfl)
  unfold legClosed legEntry at hc
  unfold legEntry at h0
  unfold legGo; rw [h.idle, if_neg Bool.false_ne_true]; dsimp only
  rw [if_neg h.checks, fetchPat_clean h.memory, hc, if_neg Bool.false_ne_true]
  unfold localPat; dsimp only
  rw [if_pos h0]; dsimp only
  rw [hrmw, if_neg Bool.false_ne_true]; rfl

/-! The mailbox's access comes to its segment -/

/-- Every value of a map and its default have what all entries have. -/
theorem mget_all {α : Type} {P : α → Prop} {d : α} {m : SMap α} (hd : P d) (h : ∀ e ∈ m, P e.2) (k : Nat) : P (mget d m k) := by
  induction m with
  | nil => exact hd
  | cons e m ih =>
    obtain ⟨a, w⟩ := e
    simp only [mget]; split
    · exact h _ List.mem_cons_self
    · exact ih fun x hx => h x (List.mem_cons_of_mem _ hx)

theorem ptrBad_good {s : State} (h : ListsGood s) (q : Nat) : (getQ s.crl q).ptrBad = false :=
  mget_all (P := fun x : Queue => x.ptrBad = false) rfl h.1 q

theorem useList_sound {s : State} {q : Nat} (h : (getQ s.crl q).ptrBad = false) : useList q s = s := by unfold useList; rw [h]; rfl

theorem getQ_setQ_same (q : Nat) (v : Queue) (c : Creel) : getQ (setQ q v c) q = v := mget_mset_same _ _ _ _

theorem getQ_setQ_other {q j : Nat} (h : j ≠ q) (v : Queue) (c : Creel) : getQ (setQ q v c) j = getQ c j := mget_mset_other _ _ _ h _

/-- The Creel once a claim of `n` cells for queue `q` is granted. -/
def claimed (q n : Nat) (c : Creel) : Creel := setQ q { getQ c q with held := (getQ c q).held + n } (takeCells n c).2

theorem claimed_pkts (q n : Nat) (c : Creel) (j : Nat) : (getQ (claimed q n c) j).pkts = (getQ c j).pkts := by
  unfold claimed
  by_cases e : j = q
  · subst e; rw [getQ_setQ_same]
  · rw [getQ_setQ_other e]; rfl

theorem claimed_ptrBad (q n : Nat) (c : Creel) : (getQ (claimed q n c) q).ptrBad = (getQ c q).ptrBad := by
  unfold claimed; rw [getQ_setQ_same]

theorem raiseIf_eq (b : Bool) (ev : Nat) (s : State) : raiseIf b ev s = { s with evh := (raiseIf b ev s).evh } := by cases b <;> rfl

/-- A claim that the Creel covers is granted. -/
theorem claim_granted {q n : Nat} {s : State} (hg : ListsGood s) (hc : claimOk s.crl q n = true) :
    ∃ evh, claim q n s = some ((takeCells n s.crl).1, { s with crl := claimed q n s.crl, evh := evh }) := by
  unfold claim; dsimp only
  rw [useList_sound (ptrBad_good hg 63), if_pos hc, raiseIf_eq]
  exact ⟨_, rfl⟩

/-- A packet joins the end of its list. -/
theorem linkPkt_joins {q : Nat} {s : State} (p : Pkt) (h : (getQ s.crl q).ptrBad = false) :
    linkPkt q p s = { s with crl := setQ q { getQ s.crl q with pkts := (getQ s.crl q).pkts ++ [p] } s.crl } := by
  unfold linkPkt; dsimp only; rw [useList_sound h]

/-- The segment `g` with the mailbox's access `a`. -/
def withMail (g : Seg) (a : Acc) (s : State) : State := modSeg g (fun x => { x with mail := some a }) s

/-- The access of a packet of the mailbox (R58, R164). -/
def mailAcc (p : Pkt) : Acc := { accOfPkt 64 .mailbox p with en := List.replicate p.len true }

/-- The mailbox's access gets its cell and comes to its segment. -/
theorem mailPump_starts {s : State} {p : Pkt} (hl : s.mnt.leg = some p) (hg : ListsGood s) (hc : claimOk s.crl 4 1 = true)
    (hn : cellsFor p.len = 1) (h0 : (patOf p.patE).node = 0) :
    ∃ crl evh, mailPump s = withMail (patOf p.patE).seg (mailAcc p) { s with mnt := { s.mnt with leg := none }, crl := crl, evh := evh } ∧
      ∀ j, j ≠ 4 → (getQ crl j).pkts = (getQ s.crl j).pkts := by
  have hreset : resetNow s.crl 20 = false := by unfold resetNow; rw [hg.2.1, hg.2.2]; rfl
  have hbad : (getQ (claimed 4 1 s.crl) 4).ptrBad = false := (claimed_ptrBad 4 1 s.crl).trans (ptrBad_good hg 4)
  obtain ⟨evh, hclaim⟩ := claim_granted hg hc
  unfold mailPump; rw [hl]; dsimp only
  rw [hreset, if_neg Bool.false_ne_true, hn, hclaim]; dsimp only
  unfold mailStart; dsimp only
  rw [if_pos h0, linkPkt_joins _ hbad]
  exact ⟨_, evh, rfl, fun j hj => (congrArg Queue.pkts (getQ_setQ_other hj _ _)).trans (claimed_pkts 4 1 s.crl j)⟩

/-! The other stages of a pump, when they have nothing to do -/

theorem voteUnit_idle {s : State} (ho : s.vot.openE = []) (hw : s.vot.waiting = []) : voteUnit s = s := by
  have round : voteRound s = s := by unfold voteRound; rw [ho, hw]; rfl
  unfold voteUnit
  generalize 2 * (s.vot.openE.length + s.vot.waiting.length) + 2 = n
  induction n with
  | zero => rfl
  | succ n ih => unfold voteRounds; rw [round, ih]

/-- A segment that masters its bus, or has nothing to do, keeps what it has. -/
theorem segFlush_idle {g : Seg} {s : State} (h : masterOk s g = true ∨ (s.seg[g].eng = none ∧ workCount s g = 0)) (hb : BusSettled s g) :
    segFlush g s = s := by
  unfold segFlush
  by_cases hm : masterOk s g = true
  · rw [if_pos hm]; exact dropBus_idle g s hb
  · obtain ⟨he, hw⟩ := h.resolve_left hm
    have hs : shelve g s = s := by unfold shelve; rw [he]
    rw [if_neg hm]; dsimp only
    rw [hs, hw]; exact dropBus_idle g s hb

/-- After the stages before them, the segments have nothing to do. -/
theorem pump_settled {s t : State} (hp : mailPump (voteUnit s) = t) (hl : listPkts t 23 = []) (ha : t.rng.answers = [])
    (hg : ∀ g : Seg, (masterOk t g = true ∨ (t.seg[g].eng = none ∧ workCount t g = 0)) ∧ BusSettled t g) : pump s = t := by
  have e1 : ringPump (listPkts t 23).length t = t := by rw [hl]; rfl
  have e2 : drainAnswers t.rng.answers.length t = t := by rw [ha]; rfl
  have flush : ∀ g, segFlush g t = t := fun g => segFlush_idle (hg g).1 (hg g).2
  unfold pump; dsimp only
  rw [hp, e1, e2, flush 0, flush 1]

/-- A segment's work is the same in states that agree on it, on its CTRL, on the power state and on its lists. -/
theorem segIdle_congr {s t : State} {g : Seg} (hseg : t.seg[g] = s.seg[g]) (hpwr : t.pwr = s.pwr)
    (hreg : getReg t (.ls g) 0x040 = getReg s (.ls g) 0x040) (hl : ∀ j, j ≠ 4 → listPkts t j = listPkts s j)
    (h : (masterOk s g = true ∨ (s.seg[g].eng = none ∧ workCount s g = 0)) ∧ BusSettled s g) :
    (masterOk t g = true ∨ (t.seg[g].eng = none ∧ workCount t g = 0)) ∧ BusSettled t g := by
  have hcfg : ∀ b, segCfg t g b = segCfg s g b := segCfg_congr hreg
  have hv : listPkts t (vapQ g) = listPkts s (vapQ g) := hl _ (by unfold vapQ; omega)
  have hr : listPkts t (remQ g) = listPkts s (remQ g) := hl _ (by unfold remQ; omega)
  have hf : listPkts t (fwdQ g) = listPkts s (fwdQ g) := hl _ (by unfold fwdQ; omega)
  have master : masterOk t g = masterOk s g := by unfold masterOk segAvail; rw [hcfg, hcfg, hseg, hpwr]
  have keeps : ∀ e, keepsOn t g e = keepsOn s g e := fun e => by unfold keepsOn; rw [hcfg, hcfg, hseg, hpwr]
  have count : workCount t g = workCount s g := by unfold workCount; simp only [keeps, hv, hr, hf, hseg]
  have work : hasWork t g = hasWork s g := by unfold hasWork; simp only [hv, hr, hf, hseg]
  have ctl : sysconAct t g = sysconAct s g := by unfold sysconAct; rw [hcfg, hpwr]
  unfold BusSettled at *
  rw [master, count, work, ctl, hseg]; exact h

/-- A segment that masters its bus has nothing more to do when the mailbox's access comes to it. -/
theorem segMail_idle {s t : State} {g : Seg} {a : Acc} (hseg : t.seg[g] = { s.seg[g] with mail := some a }) (hpwr : t.pwr = s.pwr)
    (hregs : t.regs = s.regs) (hm : masterOk s g = true) (hb : BusSettled s g) :
    (masterOk t g = true ∨ (t.seg[g].eng = none ∧ workCount t g = 0)) ∧ BusSettled t g := by
  have hcfg : ∀ b, segCfg t g b = segCfg s g b := segCfg_congr (getReg_congr hregs _ _)
  have master : masterOk t g = masterOk s g := by unfold masterOk segAvail; rw [hcfg, hcfg, hseg, hpwr]
  have ctl : sysconAct t g = sysconAct s g := by unfold sysconAct; rw [hcfg, hpwr]
  have work : hasWork t g = true := by unfold hasWork; simp [hseg]
  refine ⟨.inl (master.trans hm), fun _ => work, ?_⟩
  rw [ctl, hseg]; exact hb.2

/-- The device has no work that a pump would move, but for the mailbox (R6). -/
structure PumpIdle (s : State) : Prop where
  openE : s.vot.openE = []
  waiting : s.vot.waiting = []
  ring : listPkts s 23 = []
  answers : s.rng.answers = []
  seg : ∀ g : Seg, (masterOk s g = true ∨ (s.seg[g].eng = none ∧ workCount s g = 0)) ∧ BusSettled s g

/-- When the mailbox's access comes to segment `g`, nothing else moves. -/
theorem pump_mailed {s t : State} {g : Seg} {a : Acc} (hq : PumpIdle s) (hp : mailPump s = t) (hseg : t.seg[g] = { s.seg[g] with mail := some a })
    (hother : ∀ h, h ≠ g → t.seg[h] = s.seg[h]) (hpwr : t.pwr = s.pwr) (hregs : t.regs = s.regs) (hrng : t.rng = s.rng)
    (hl : ∀ j, j ≠ 4 → listPkts t j = listPkts s j) (hm : masterOk s g = true) : pump s = t := by
  refine pump_settled ((congrArg mailPump (voteUnit_idle hq.openE hq.waiting)).trans hp) ((hl 23 (by decide)).trans hq.ring)
    (by rw [hrng]; exact hq.answers) fun h => ?_
  by_cases e : h = g
  · subst e; exact segMail_idle hseg hpwr hregs hm (hq.seg h).2
  · exact segIdle_congr (hother h e) hpwr (getReg_congr hregs _ _) hl (hq.seg h)

/-- The mailbox's access starts on its segment, and nothing else moves. -/
theorem pump_mail {s : State} {p : Pkt} (hq : PumpIdle s) (hl : s.mnt.leg = some p) (hg : ListsGood s)
    (hc : claimOk s.crl 4 1 = true) (hn : cellsFor p.len = 1) (h0 : (patOf p.patE).node = 0) (hm : masterOk s (patOf p.patE).seg = true) :
    ∃ crl evh, pump s = withMail (patOf p.patE).seg (mailAcc p) { s with mnt := { s.mnt with leg := none }, crl := crl, evh := evh } := by
  obtain ⟨crl, evh, hmail, hlists⟩ := mailPump_starts hl hg hc hn h0
  exact ⟨crl, evh, pump_mailed hq hmail (modSeg_self _ _ _) (fun h e => modSeg_other _ h _ _ e) rfl rfl rfl hlists hm⟩

end Sys2Proof.Machine
end

section
namespace Sys2Proof.Machine

open Sys2Proof

/-! The command as the mailbox finds it -/

theorem legCmd_other (d : Word) (s : State) : OtherRegs .mnt 0x050 s (legCmd d s) := otherRegs_storeReg .mnt 0x050 (d ||| 0x80000000) (cleared s)

theorem legEntry_go (d : Word) (s : State) : legEntry (d ||| 0x80000000) (legCmd d s) = patEntry s.lom.act (fieldOf d 15 0) := by
  unfold legEntry; rw [fieldOf_go d (by decide)]; rfl

theorem legSize_go (d : Word) : legSize (d ||| 0x80000000) = 2 ^ fieldOf d 18 16 := by
  unfold legSize; rw [fieldOf_go d (by decide)]

theorem legOff_go (d : Word) (s : State) : legOff (legCmd d s) = getFld s .mnt 0x054 11 0 := by
  unfold legOff getFld; rw [legCmd_other d s .mnt 0x054 (regAddr_inj_off _ _ _ (by decide))]

theorem legBytes_go (d : Word) (s : State) : legBytes (d ||| 0x80000000) (legCmd d s) =
    (bytesLE 4 (getReg s .mnt 0x058).toNat ++ bytesLE 4 (getReg s .mnt 0x05C).toNat).take (2 ^ fieldOf d 18 16) := by
  unfold legBytes
  rw [legSize_go, legCmd_other d s .mnt 0x058 (regAddr_inj_off _ _ _ (by decide)), legCmd_other d s .mnt 0x05C (regAddr_inj_off _ _ _ (by decide))]

/-- A write of a pattern that acknowledges interrupts is refused with every size (R69). -/
theorem accessRefused_iack {p : Pat} (h : p.kind = .iack) (off n : Nat) : accessRefused p true off n = true := by
  unfold accessRefused; rw [h]; simp

theorem legForbidden_go {d : Word} {s : State} (h : 3 < fieldOf d 18 16 ∨
      accessRefused (patOf (patEntry s.lom.act (fieldOf d 15 0))) (bitAt d 30) (getFld s .mnt 0x054 11 0) (2 ^ fieldOf d 18 16) = true ∨
      (bitAt d 30 = true ∧ (patOf (patEntry s.lom.act (fieldOf d 15 0))).kind = .iack)) : LegForbidden (d ||| 0x80000000) (legCmd d s) := by
  unfold LegForbidden
  rw [legEntry_go, legSize_go, legOff_go, fieldOf_go d (by decide), bitAt_go d (by decide)]
  rcases h with h | h | ⟨hw, hk⟩
  · exact .inl h
  · exact .inr h
  · rw [hw]; exact .inr (accessRefused_iack hk _ _)

/-- A pattern without a node, or of another node while this one has a number, is not refused for its node (R73). -/
theorem nodeRefused_no {s : State} {e : Nat} (h : (patOf e).node = 0 ∨ ((patOf e).node ≠ s.rng.num ∧ s.rng.num ≠ 0)) (write : Bool)
    (off n : Nat) : nodeRefused s e write off n = false := by
  unfold nodeRefused localNode; dsimp only
  rcases h with h | ⟨h1, h2⟩
  · rw [h]; rfl
  · rw [decide_eq_false h2, beq_eq_false_iff_ne.2 h1]; simp

theorem legAllowed_go {d : Word} {s : State} (hi : s.mnt.legRun = false) (hz : fieldOf d 18 16 ≤ 3)
    (ha : accessRefused (patOf (patEntry s.lom.act (fieldOf d 15 0))) (bitAt d 30) (getFld s .mnt 0x054 11 0) (2 ^ fieldOf d 18 16) = false)
    (hn : (patOf (patEntry s.lom.act (fieldOf d 15 0))).node = 0 ∨
      ((patOf (patEntry s.lom.act (fieldOf d 15 0))).node ≠ s.rng.num ∧ s.rng.num ≠ 0))
    (he : s.tap.ecc = []) : LegAllowed (d ||| 0x80000000) (legCmd d s) := by
  refine ⟨hi, ?_, ?_, ?_, he⟩
  · rw [fieldOf_go d (by decide)]; exact hz
  · rw [legEntry_go, legSize_go, legOff_go, bitAt_go d (by decide)]; exact ha
  · rw [legEntry_go]; exact nodeRefused_no (s := legCmd d s) hn _ _ _

theorem legClosed_go (d : Word) (s : State) : legClosed (d ||| 0x80000000) (legCmd d s) =
    (!lcOpen s && (bitAt d 30 || !(patOf (patEntry s.lom.act (fieldOf d 15 0))).idem)) := by
  unfold legClosed; rw [legEntry_go, bitAt_go d (by decide)]; rfl

/-- A command of the mailbox that is refused ends at once (R58). -/
theorem legCmd_refused {d : Word} {code : Nat} {x : State} {s : State} (hs : Calm s) (hb : s.pwr.boot = .opened) (hh : heldIn s 4 .mnt = none)
    (hc : code < 16) (hg : legGo (d ||| 0x80000000) (legCmd d s) = legRefuse code x) (hm : x.mnt = s.mnt) (hseg : x.seg = s.seg)
    (hp : x.pwr = s.pwr) : Completes (.legCmdGo d) s fun t => Refused code s t ∧ EventSet t 245 :=
  completes_settle (exec_legCmdGo hs hb hh hg) (legRefuse_shown hc hm hseg (by rw [hp, hb]; decide))

/-! The access starts -/

/-- The state in which the mailbox's access waits for its cell. -/
def legReady (d : Word) (s : State) : State := legWaits (d ||| 0x80000000) (legCmd d s)

/-- The mailbox's own state while its access runs. -/
def runningLeg (write : Bool) (m : Mnt) : Mnt := { m with legRun := true, legRead := !write, legEnd := none }

theorem legBusy_eq (write : Bool) (s : State) : legBusy write s = putFld .mnt 0x068 0 0 1 { s with mnt := runningLeg write s.mnt } := rfl

theorem legWaits_regs (v : Word) (s : State) : (legWaits v s).regs = (legBusy (bitAt v 30) s).regs := rfl

theorem legBusy_reg (write : Bool) {k : PageKind} {off : Nat} (h : regAddr k off ≠ regAddr .mnt 0x068) (s : State) :
    getReg (legBusy write s) k off = getReg s k off := by
  rw [legBusy_eq, otherRegs_putFld .mnt 0x068 0 0 1 { s with mnt := runningLeg write s.mnt } k off h]
  exact getReg_congr rfl k off

theorem legReady_reg {d : Word} {s : State} {k : PageKind} {off : Nat} (h50 : regAddr k off ≠ regAddr .mnt 0x050)
    (h68 : regAddr k off ≠ regAddr .mnt 0x068) : getReg (legReady d s) k off = getReg s k off :=
  (getReg_congr (legWaits_regs _ (legCmd d s)) k off).trans ((legBusy_reg _ h68 (legCmd d s)).trans (legCmd_other d s k off h50))

theorem legReady_idle {d : Word} {s : State} (h : NothingQueued s) : PumpIdle (legReady d s) := by
  obtain ⟨ho, hw, -, hr, ha, -, hg⟩ := h
  refine ⟨ho, hw, hr, ha, fun g => segIdle_congr (s := s) rfl rfl (legReady_reg ?_ ?_) (fun _ _ => rfl) (hg g)⟩ <;>
    unfold regAddr <;> simp only [PageKind.num] <;> omega

theorem legReady_master {d : Word} {s : State} {g : Seg} (h : masterOk s g = true) : masterOk (legReady d s) g = true := by
  have hcfg : ∀ b, segCfg (legReady d s) g b = segCfg s g b :=
    segCfg_congr (legReady_reg (by unfold regAddr; simp only [PageKind.num]; omega) (by unfold regAddr; simp only [PageKind.num]; omega))
  rw [← h]; unfold masterOk segAvail; rw [hcfg, hcfg]; rfl

theorem legReady_busy (d : Word) (s : State) : getFld (legReady d s) .mnt 0x068 0 0 = 1 := by
  unfold legReady
  rw [getFld_congr (legWaits_regs _ (legCmd d s)), legBusy_eq]
  exact getFld_flag_one .mnt 0x068 (by decide) { legCmd d s with mnt := runningLeg (bitAt (d ||| 0x80000000) 30) (legCmd d s).mnt }

/-- Up to eight bytes need one cell. -/
theorem cellsFor_leg {n : Nat} (h : n ≤ 3) : cellsFor (2 ^ n) = 1 := by interval_cases n <;> rfl

/-- The access that a command of the mailbox starts (R58). -/
def legAcc (d : Word) (s : State) : Acc :=
  { origin := .mailbox, place := .mailbox, queue := 64, pat := fieldOf d 15 0, patE := patEntry s.lom.act (fieldOf d 15 0),
    off := getFld s .mnt 0x054 11 0, len := 2 ^ fieldOf d 18 16, write := bitAt d 30,
    data := if bitAt d 30 then
      (bytesLE 4 (getReg s .mnt 0x058).toNat ++ bytesLE 4 (getReg s .mnt 0x05C).toNat).take (2 ^ fieldOf d 18 16) else [],
    en := List.replicate (2 ^ fieldOf d 18 16) true, cont := false }

theorem mailAcc_legPkt (write : Bool) (idx e off n : Nat) (data : List Byte) : mailAcc (legPkt write idx e off n data) =
    { origin := .mailbox, place := .mailbox, queue := 64, pat := idx, patE := e, off := off, len := n, write := write,
      data := if write then data else [], en := List.replicate n true, cont := false } := by
  simp [mailAcc, accOfPkt, legPkt]

/-- The packet that waits in the mailbox. -/
def legReadyPkt (d : Word) (s : State) : Pkt :=
  legPkt (bitAt d 30) (fieldOf d 15 0) (patEntry s.lom.act (fieldOf d 15 0)) (getFld s .mnt 0x054 11 0) (2 ^ fieldOf d 18 16)
    ((bytesLE 4 (getReg s .mnt 0x058).toNat ++ bytesLE 4 (getReg s .mnt 0x05C).toNat).take (2 ^ fieldOf d 18 16))

theorem legReady_mnt (d : Word) (s : State) :
    (legReady d s).mnt = { runningLeg (bitAt d 30) s.mnt with leg := some (legReadyPkt d s) } := by
  unfold legReady legWaits legReadyPkt
  rw [legEntry_go, legSize_go, legOff_go, legBytes_go, fieldOf_go d (by decide), bitAt_go d (by decide), legBusy_eq]
  rfl

/-- What the start of a mailbox access leaves (R58). -/
def LegStarted (d : Word) (g : Seg) (s t : State) : Prop :=
  t.mnt = { s.mnt with legRun := true, legRead := !bitAt d 30, legEnd := none } ∧ getFld t .mnt 0x068 0 0 = 1 ∧
  t.seg[g] = { s.seg[g] with mail := some (legAcc d s) } ∧ t.lom = s.lom ∧ t.img = s.img ∧ t.lcc = s.lcc

theorem pump_legReady {d : Word} {s : State} (hz : fieldOf d 18 16 ≤ 3) (h0 : (patOf (patEntry s.lom.act (fieldOf d 15 0))).node = 0)
    (hq : NothingQueued s) (hm : masterOk s (patOf (patEntry s.lom.act (fieldOf d 15 0))).seg = true) (hg : ListsGood s)
    (hc : claimOk s.crl 4 1 = true) : LegStarted d (patOf (patEntry s.lom.act (fieldOf d 15 0))).seg s (pump (legReady d s)) := by
  have hleg : (legReady d s).mnt.leg = some (legReadyPkt d s) := by rw [legReady_mnt]
  obtain ⟨crl, evh, hp⟩ := pump_mail (legReady_idle hq) hleg hg hc (cellsFor_leg hz) h0 (legReady_master hm)
  have hacc : mailAcc (legReadyPkt d s) = legAcc d s := mailAcc_legPkt _ _ _ _ _ _
  have hseg : (patOf (legReadyPkt d s).patE).seg = (patOf (patEntry s.lom.act (fieldOf d 15 0))).seg := rfl
  rw [hacc, hseg] at hp
  rw [hp]
  generalize (patOf (patEntry s.lom.act (fieldOf d 15 0))).seg = g
  have hnone : s.mnt.leg = none := hq.2.2.1
  refine ⟨?_, ?_, ?_, rfl, rfl, rfl⟩
  · show ({ (legReady d s).mnt with leg := none } : Mnt) = _
    rw [legReady_mnt, ← hnone]; rfl
  · exact (getFld_congr rfl _ _ _ _).trans (legReady_busy d s)
  · exact modSeg_self g _ _

theorem legStarted_settle {d : Word} {g : Seg} {s x : State} (h : LegStarted d g s x) : LegStarted d g s (settle x) := by
  obtain ⟨h1, h2, h3, h4, h5, h6⟩ := h
  have hs : (settle x).seg = x.seg := by simp
  refine ⟨?_, (getFld_settle _ _ _ _ _).trans h2, ?_, ?_, ?_, ?_⟩
  · simpa using h1
  · rw [hs]; exact h3
  · simpa using h4
  · simpa using h5
  · simpa using h6

/-! The end of the mailbox's access (R58) -/

/-- What LEG_DONE answers. -/
theorem exec_legDone {s x : State} (hb : s.pwr.boot = .opened) (hx : legDoneOp (cleared s) = x) : exec .legDone s = .next (settle x) := by
  refine exec_run (opened legDoneOp) rfl ?_
  unfold opened; rw [if_pos (show (cleared s).pwr.boot = .opened from hb), hx]

/-- The mailbox is free again: BUSY is clear. -/
def legFree (s : State) : State := putFld .mnt 0x068 0 0 0 { cleared s with mnt := { s.mnt with legRun := false, legEnd := none } }

theorem legDoneOp_none {s : State} (h : s.mnt.legEnd = none) : legDoneOp (cleared s) = cleared s := by
  unfold legDoneOp; rw [show (cleared s).mnt.legEnd = none from h]

theorem legDoneOp_failed {s : State} {code : Nat} {bs : List Byte} (h : s.mnt.legEnd = some (true, code, bs)) :
    legDoneOp (cleared s) = legRefuse code (legFree s) := by
  unfold legDoneOp; rw [show (cleared s).mnt.legEnd = some (true, code, bs) from h]; rfl

/-- The data registers show what a read got. -/
def showData (bs : List Byte) (s : State) : State :=
  setReg .mnt 0x064 (w32 (natLE (bs.drop 4))) (setReg .mnt 0x060 (w32 (natLE (bs.take 4))) s)

/-- DONE without an error. -/
def legOk (s : State) : State := putFld .mnt 0x068 7 4 0 (putFld .mnt 0x068 1 1 1 (legFree s))

theorem legDoneOp_ok {s : State} {code : Nat} {bs : List Byte} (h : s.mnt.legEnd = some (false, code, bs)) :
    legDoneOp (cleared s) = raise 244 (if s.mnt.legRead then showData bs (legOk s) else legOk s) := by
  unfold legDoneOp; rw [show (cleared s).mnt.legEnd = some (false, code, bs) from h]; rfl

theorem legFree_rest (s : State) : RestSame { s with mnt := { s.mnt with legRun := false, legEnd := none } } (legFree s) :=
  restSame_trans (restSame_mnt (restSame_cleared s) s.freeCount _) (restSame_of_reports (by unfold legFree; simp [cleared]))

end Sys2Proof.Machine
end

section
namespace Sys2Proof.Machine

open Sys2Proof

theorem otherRegs_trans {k : PageKind} {off : Nat} {s t u : State} (h1 : OtherRegs k off s t) (h2 : OtherRegs k off t u) : OtherRegs k off s u :=
  fun k2 off2 h => (h2 k2 off2 h).trans (h1 k2 off2 h)

theorem legFree_other (s : State) : OtherRegs .mnt 0x068 s (legFree s) :=
  otherRegs_putFld .mnt 0x068 0 0 0 { cleared s with mnt := { s.mnt with legRun := false, legEnd := none } }

theorem legFree_busy (s : State) : getFld (legFree s) .mnt 0x068 0 0 = 0 := by
  unfold legFree; exact getFld_flag_zero .mnt 0x068 (by decide) _

/-- A mailbox access that failed shows its CODE (R58). -/
theorem legDone_failed {s : State} {code : Nat} {bs : List Byte} (hb : s.pwr.boot = .opened) (h : s.mnt.legEnd = some (true, code, bs))
    (hc : code < 16) : Completes .legDone s fun t =>
      RestSame { s with mnt := { s.mnt with legRun := false, legEnd := none } } t ∧ OtherRegs .mnt 0x068 s t ∧ EventSet t 245 ∧
      getFld t .mnt 0x068 0 0 = 0 ∧ getFld t .mnt 0x068 2 2 = 1 ∧ getFld t .mnt 0x068 7 4 = code := by
  have hx := exec_legDone hb (legDoneOp_failed h)
  have hboot : (legFree s).pwr.boot ≠ .inReset := by
    rw [show (legFree s).pwr = s.pwr from rfl, hb]; decide
  obtain ⟨⟨h74, h22, -, -⟩, hev⟩ := legRefuse_shown (s := legFree s) (x := legFree s) hc rfl rfl hboot
  have hr : (settle (legRefuse code (legFree s))).regs = (putFld .mnt 0x068 7 4 code (putFld .mnt 0x068 2 2 1 (legFree s))).regs :=
    (settle_regs _).trans (raise_regs 245 _)
  refine completes_settle hx ⟨?_, ?_, hev, ?_, h22, h74⟩
  · exact restSame_settle (restSame_trans (legFree_rest s) (restSame_of_reports (by unfold legRefuse; simp)))
  · refine otherRegs_congr (t := putFld .mnt 0x068 7 4 code (putFld .mnt 0x068 2 2 1 (legFree s))) ?_ rfl hr
    exact otherRegs_trans (otherRegs_trans (legFree_other s) (otherRegs_putFld .mnt 0x068 2 2 1 _)) (otherRegs_putFld .mnt 0x068 7 4 code _)
  · rw [getFld_congr hr, getFld_flag_code _ hc (by decide), getFld_flag_other .mnt 0x068 (by decide) (by decide), legFree_busy]

theorem legOk_other (s : State) : OtherRegs .mnt 0x068 s (legOk s) :=
  otherRegs_trans (otherRegs_trans (legFree_other s) (otherRegs_putFld .mnt 0x068 1 1 1 _)) (otherRegs_putFld .mnt 0x068 7 4 0 _)

theorem legOk_stat (s : State) :
    getFld (legOk s) .mnt 0x068 0 0 = 0 ∧ getFld (legOk s) .mnt 0x068 1 1 = 1 ∧ getFld (legOk s) .mnt 0x068 7 4 = 0 := by
  unfold legOk
  refine ⟨?_, ?_, getFld_code _ (by decide)⟩
  · rw [getFld_flag_code _ (by decide) (by decide), getFld_flag_other .mnt 0x068 (by decide) (by decide), legFree_busy]
  · rw [getFld_flag_code _ (by decide) (by decide), getFld_flag_one .mnt 0x068 (by decide)]

/-- The data of a read stand in their registers, and LEG_STAT is as it was. -/
theorem showData_regs (bs : List Byte) (s : State) : getReg (showData bs s) .mnt 0x060 = w32 (natLE (bs.take 4)) ∧
    getReg (showData bs s) .mnt 0x064 = w32 (natLE (bs.drop 4)) ∧ getReg (showData bs s) .mnt 0x068 = getReg s .mnt 0x068 := by
  unfold showData
  refine ⟨?_, getReg_setReg .mnt 0x064 _ _, ?_⟩
  · rw [getReg_setReg_ne (regAddr_inj_off _ _ _ (by decide)), getReg_setReg]
  · rw [getReg_setReg_ne (regAddr_inj_off _ _ _ (by decide)), getReg_setReg_ne (regAddr_inj_off _ _ _ (by decide))]

/-- A mailbox access that ended well shows DONE, and what a read got (R58). -/
theorem legDone_ok {s : State} {code : Nat} {bs : List Byte} (hb : s.pwr.boot = .opened) (h : s.mnt.legEnd = some (false, code, bs)) :
    Completes .legDone s fun t =>
      RestSame { s with mnt := { s.mnt with legRun := false, legEnd := none } } t ∧ EventSet t 244 ∧
      getFld t .mnt 0x068 0 0 = 0 ∧ getFld t .mnt 0x068 1 1 = 1 ∧ getFld t .mnt 0x068 7 4 = 0 ∧
      (s.mnt.legRead = true → bs.length ≤ 8 → getReg t .mnt 0x060 = BitVec.ofNat 32 (natLE (bs.take 4)) ∧
        getReg t .mnt 0x064 = BitVec.ofNat 32 (natLE (bs.drop 4))) ∧
      (s.mnt.legRead = false → OtherRegs .mnt 0x068 s t) := by
  have hx := exec_legDone hb (legDoneOp_ok h)
  obtain ⟨h0, h1, h7⟩ := legOk_stat s
  obtain ⟨d0, d1, d8⟩ := showData_regs bs (legOk s)
  have hrest : RestSame { s with mnt := { s.mnt with legRun := false, legEnd := none } } (legOk s) :=
    restSame_trans (legFree_rest s) (restSame_of_reports (by unfold legOk; simp))
  have hdata : RestSame (legOk s) (showData bs (legOk s)) := restSame_of_reports (by unfold showData; simp)
  have hboot : (legOk s).pwr.boot ≠ .inReset := by rw [show (legOk s).pwr = s.pwr from rfl, hb]; decide
  have stat : ∀ y : State, y.pwr = (legOk s).pwr → RestSame (legOk s) y → getReg y .mnt 0x068 = getReg (legOk s) .mnt 0x068 →
      RestSame { s with mnt := { s.mnt with legRun := false, legEnd := none } } (settle (raise 244 y)) ∧ EventSet (settle (raise 244 y)) 244 ∧
      getFld (settle (raise 244 y)) .mnt 0x068 0 0 = 0 ∧ getFld (settle (raise 244 y)) .mnt 0x068 1 1 = 1 ∧
      getFld (settle (raise 244 y)) .mnt 0x068 7 4 = 0 := by
    intro y hp hy hs
    have hr : getReg (settle (raise 244 y)) .mnt 0x068 = getReg (legOk s) .mnt 0x068 := by
      rw [getReg_settle, getReg_congr (raise_regs 244 y), hs]
    refine ⟨restSame_settle (restSame_trans (restSame_trans hrest hy) (restSame_of_reports (by simp))),
      event_seen (k := .mnt) (b := 4) rfl (by rw [← hp] at hboot; exact hboot) (raise_mem 244 y), ?_⟩
    unfold getFld at *
    rw [hr]; exact ⟨h0, h1, h7⟩
  have word : ∀ (y : State) (off : Nat), getReg (settle (raise 244 y)) .mnt off = getReg y .mnt off := fun y off => by
    rw [getReg_settle, getReg_congr (raise_regs 244 y)]
  cases hread : s.mnt.legRead with
  | true =>
    rw [hread, if_pos rfl] at hx
    obtain ⟨a, b, c, d, e⟩ := stat (showData bs (legOk s)) rfl hdata d8
    exact completes_settle hx ⟨a, b, c, d, e, fun _ _ => ⟨(word _ _).trans d0, (word _ _).trans d1⟩, fun h => absurd h (by decide)⟩
  | false =>
    rw [hread, if_neg Bool.false_ne_true] at hx
    obtain ⟨a, b, c, d, e⟩ := stat (legOk s) rfl (restSame_refl _) rfl
    exact completes_settle hx ⟨a, b, c, d, e, fun h => absurd h (by decide),
      fun _ => otherRegs_congr (legOk_other s) rfl ((settle_regs _).trans (raise_regs 244 _))⟩

/-- A command of the mailbox while it runs is refused with CODE 5 (R58). -/
theorem legCmd_running {d : Word} {s : State} (hs : Calm s) (hb : s.pwr.boot = .opened) (hh : heldIn s 4 .mnt = none)
    (hr : s.mnt.legRun = true) : Completes (.legCmdGo d) s (Refused 5 s) := by
  have hx := exec_legCmdGo hs hb hh (legGo_running (s := legCmd d s) hr)
  obtain ⟨h1, h2⟩ := legStat_refused (code := 5) (by decide) (legCmd d s)
  refine completes_settle hx ⟨(getFld_settle _ _ _ _ _).trans h1, (getFld_settle _ _ _ _ _).trans h2, ?_, ?_⟩
  · simp [legCmd, cleared, storeReg]
  · simp [legCmd, cleared, storeReg]

end Sys2Proof.Machine

open Sys2Proof Sys2Proof.Machine

/-- Settles O60: the accesses of frames first, then the mailbox's commands by what forbids them, and the ends of its accesses. -/
theorem maintenanceAccesses : Obligations.MaintenanceAccesses := by
  unfold Obligations.MaintenanceAccesses
  intro s hs hb
  refine ⟨fun h => ?_, fun k h => accessDone_readId hs hb h, fun off ho he h => accessDone_readBar2 hs hb ho he h,
    fun k d hk hh => ⟨?_, ?_, ?_⟩, fun d => ?_, fun code bs h hc => legDone_failed hb h hc, fun code bs h => legDone_ok hb h, fun h => ?_⟩
  · exact completes_quiet (exec_mntAccessDone hb (mntDone_none h)) hs.1 rfl
  · exact accessDone_eventEn hs hb hk hh
  · exact accessDone_locked hs hb hk hh
  · rintro h rfl; exact accessDone_guarded hs hb hh h
  · intro idx e p off n write a err hh
    refine ⟨legCmd_running hs hb hh, fun hi => ⟨fun hx => ?_, fun hz ha hk h0 he => ⟨fun hl hw => ?_, fun hl hk2 hq hm hg hc => ?_⟩,
      fun hz ha hk h0 hnum hnum0 he hl hm => ?_⟩⟩
    · have hg := legGo_forbidden (v := d ||| 0x80000000) (s := legCmd d s) hi (legForbidden_go hx)
      exact legCmd_refused hs hb hh (by decide) hg (by simp [legCmd, cleared, storeReg]) (by simp [legCmd, cleared, storeReg])
        (by simp [legCmd, cleared, storeReg])
    · have hcl : legClosed (d ||| 0x80000000) (legCmd d s) = true := by
        rw [legClosed_go, hl]
        rcases hw with hw | hw
        · rw [show bitAt d 30 = true from hw]; rfl
        · rw [show (patOf (patEntry s.lom.act (fieldOf d 15 0))).idem = false from hw]; simp
      exact legCmd_refused hs hb hh (by decide) (legGo_closed (legAllowed_go hi hz ha (.inl h0) he) hcl) rfl rfl rfl
    · have hcl : legClosed (d ||| 0x80000000) (legCmd d s) = false := by
        rw [legClosed_go]
        rcases hl with hl | ⟨hw, hid⟩
        · rw [hl]; rfl
        · rw [show bitAt d 30 = false from hw, show (patOf (patEntry s.lom.act (fieldOf d 15 0))).idem = true from hid]; simp
      have hal := legAllowed_go hi hz ha (.inl h0) he
      have hgo := legGo_starts hal hcl (by rw [legEntry_go]; exact h0) (by rw [legEntry_go, bitAt_go d (by decide)]; exact hk2)
      exact completes_settle (exec_legCmdGo hs hb hh hgo) (legStarted_settle (pump_legReady hz h0 hq hm hg hc))
    · have hcl : legClosed (d ||| 0x80000000) (legCmd d s) = false := by rw [legClosed_go, hl]; rfl
      have hal := legAllowed_go hi hz ha (.inr ⟨hnum, hnum0⟩) he
      exact legCmd_refused hs hb hh (by decide) (legGo_noMember hal hcl (by rw [legEntry_go]; exact h0) (by rw [legEntry_go]; exact hnum)
        (by rw [legEntry_go]; exact hm)) rfl rfl rfl
  · exact completes_quiet (exec_legDone hb (legDoneOp_none h)) hs.1 rfl
end

section
/-!
SUPPORT. What an error report of a channel port leaves alone (R113, R114), and that the occurrences of a command only become more until they
are delivered (R342).
-/

namespace Sys2Proof.Machine

open Sys2Proof

/-! Occurrences -/

/-- From `s` to `t` occurrences are only added. -/
def Grows (s t : State) : Prop := s.evh.occ <+: t.evh.occ

theorem Grows.refl (s : State) : Grows s s := List.prefix_refl _

theorem Grows.trans {s t u : State} (h1 : Grows s t) (h2 : Grows t u) : Grows s u := List.IsPrefix.trans h1 h2

theorem grows_of_evh {s t : State} (h : t.evh = s.evh) : Grows s t := by unfold Grows; rw [h]

theorem raiseD_grows (ev : Nat) (a b : Word) (s : State) : Grows s (raiseD ev a b s) := List.prefix_append _ _

theorem raise_grows (ev : Nat) (s : State) : Grows s (raise ev s) := raiseD_grows ev 0 0 s

/-- An event that has occurred is still among the occurrences. -/
theorem Grows.has {s t : State} {ev : Nat} (h : Grows s t) (he : ∃ o ∈ s.evh.occ, o.ev = ev) : ∃ o ∈ t.evh.occ, o.ev = ev := by
  obtain ⟨o, ho, e⟩ := he
  exact ⟨o, List.IsPrefix.subset h ho, e⟩

/-! Reports of a channel port -/

/-- From `s` to `t` port `p` reports errors: of the ports only its configuration changes, what leaves is appended to the outputs, and
occurrences are only added. -/
def PortReports (p : Port) (s t : State) : Prop :=
  (∃ cfg, t.port = s.port.set p { s.port[p] with cfg := cfg }) ∧ s.out <+: t.out ∧ Grows s t

variable {p : Port} {s t u : State}

theorem PortReports.of_same (hp : t.port = s.port) (ho : t.out = s.out) (he : Grows s t) : PortReports p s t := by
  refine ⟨⟨s.port[p].cfg, hp.trans ?_⟩, by rw [ho], he⟩
  apply Vector.ext; intro i hi
  rw [Vector.getElem_set]; split
  · rename_i e; subst e; rfl
  · rfl

theorem PortReports.refl : PortReports p s s := .of_same rfl rfl (.refl s)

theorem PortReports.trans (h1 : PortReports p s t) (h2 : PortReports p t u) : PortReports p s u := by
  obtain ⟨⟨c, hc⟩, o1, g1⟩ := h1
  obtain ⟨⟨d, hd⟩, o2, g2⟩ := h2
  refine ⟨⟨d, ?_⟩, o1.trans o2, g1.trans g2⟩
  rw [hd, hc]; simp

theorem PortReports.ite {c : Prop} [Decidable c] (h1 : PortReports p s t) (h2 : PortReports p s u) : PortReports p s (if c then t else u) := by
  split
  · exact h1
  · exact h2

theorem PortReports.cfgOr (h : PortReports p s t) (dw n : Nat) : PortReports p s (cfgOr p dw n t) :=
  h.trans ⟨⟨_, rfl⟩, List.prefix_refl _, .refl t⟩

theorem PortReports.emit (h : PortReports p s t) (o : Out) : PortReports p s (emit o t) :=
  h.trans ⟨⟨_, (PortReports.refl (p := p)).1.choose_spec⟩, List.prefix_append _ _, .refl t⟩

theorem PortReports.raise (h : PortReports p s t) (ev : Nat) : PortReports p s (raise ev t) :=
  h.trans (.of_same rfl rfl (raise_grows ev t))

theorem PortReports.aerFirst (h : PortReports p s t) (b : Nat) (hd : Hdr) : PortReports p s (aerFirst p b hd t) := by
  have set : ∀ (x : State) (dw : Nat) (w : Word), PortReports p x (cfgSet p dw w x) :=
    fun x dw w => ⟨⟨_, rfl⟩, List.prefix_refl _, .refl x⟩
  have took : PortReports p t (tookFree (tookFree t)) := .of_same rfl rfl (.refl t)
  unfold Machine.aerFirst; dsimp only
  exact h.trans (took.trans ((set _ _ _).trans ((set _ _ _).trans ((set _ _ _).trans ((set _ _ _).trans (set _ _ _))))))

/-- The report of an uncorrectable error (R113, R114). -/
theorem aerUncorr_reports (p : Port) (b : Nat) (advisory : Bool) (h : Hdr) (s : State) : PortReports p s (aerUncorr p b advisory h s) := by
  unfold aerUncorr
  extract_lets masked fatal s1 adv s2 s3 s4 ctl serr s5 s6
  have h1 : PortReports p s s1 := PortReports.refl.cfgOr _ _
  have h2 : PortReports p s s2 := .ite (h1.cfgOr _ _) h1
  have h3 : PortReports p s s3 := h2.cfgOr _ _
  have h4 : PortReports p s s4 := .ite (h3.cfgOr _ _) (.ite (h3.cfgOr _ _) (.ite (h3.cfgOr _ _) h3))
  have h5 : PortReports p s s5 := .ite (.ite (h4.emit _) h4)
    (.ite (.emit (.ite (h4.cfgOr _ _) h4) _) (.ite (.emit (.ite (h4.cfgOr _ _) h4) _) h4))
  have h6 : PortReports p s s6 := .ite h5 (h5.aerFirst _ _)
  exact h6.raise _

end Sys2Proof.Machine
end

section
/-!
SUPPORT. How a BAR4 request that its port receives takes its turn (R95, R98, R131), and what an error completion leaves (Table 4.8).
-/

namespace Sys2Proof.Machine

open Sys2Proof

/-! A request that finds its port free -/

/-- A posted write within its limits takes its turn at once (R95, R96). -/
theorem recvPosted_taken {p : Port} {a n : Nat} {h : Hdr} {x : RxTlp} {s y : State} (ho : portOpen s p = true) (hroom : postedRoom s p n = true)
    (hcut : crosses a n = false) (hm : n ≤ mps s p) (hrx : s.port[p].rx = []) (ht : takeRx p x (receipt p s) = some y) :
    recvPosted p a n h x s = y := by
  have hrx2 : (receipt p s).port[p].rx = [] := by unfold receipt; rw [modPort_same, hrx]
  have hlen : decide (mps s p < n) = false := decide_eq_false (by omega)
  unfold recvPosted arrive
  simp only [ho, hroom, hcut, hlen, hrx2, ht, Bool.not_true, Bool.or_self, Bool.false_eq_true, if_false, List.isEmpty_nil, if_true]

/-- A non-posted request for which there is room is held and takes its turn at once (R95, R98). -/
theorem recvNonPosted_taken {p : Port} {a n tag : Nat} {h : Hdr} {x : RxTlp} {s y : State} (ho : portOpen s p = true) (hroom : npRoom s p = true)
    (hcut : crosses a n = false) (hrx : s.port[p].rx = []) (ht : takeRx p x (holdTag p tag h (receipt p s)) = some y) :
    recvNonPosted p a n tag h x s = y := by
  have hrx2 : (holdTag p tag h (receipt p s)).port[p].rx = [] := by unfold holdTag receipt; rw [modPort_same, modPort_same, hrx]
  unfold recvNonPosted arrive
  simp only [ho, hroom, hcut, hrx2, ht, Bool.not_true, Bool.false_eq_true, if_false, List.isEmpty_nil, if_true]

/-- The BARs of a port respond as its configuration says. -/
theorem barOn_congr {p : Port} {s t : State} (h : t.port[p].cfg = s.port[p].cfg) (hb : t.pwr = s.pwr) : barOn t p = barOn s p := by
  unfold barOn memEn d3hot cfgGet; rw [h, hb]

/-- Without a word in error the fetches of an access meet none (R64). -/
theorem fetchMeet_clean {s : State} (h : s.tap.ecc = []) (p : Port) (pat : Nat) : fetchMeet p pat s = s := by
  unfold fetchMeet; dsimp only; rw [fetchPat_clean h, h]; simp

/-! The turn of a BAR4 request -/

/-- A BAR4 access of port `p` may be accepted or refused by its pattern alone: its BARs respond, its channel is in service, and the power state
is RUN. -/
structure Bar4Ready (p : Port) (s : State) : Prop where
  on : barOn s p = true
  service : s.ch[p].st.inService = true
  run : s.pwr.st = .run

section
variable {p : Port} {s : State} {pat off n tag : Nat} {bs : List Byte} {en : List Bool}

theorem Bar4Ready.congr {t : State} (h : Bar4Ready p s) (hc : t.port[p].cfg = s.port[p].cfg) (hch : t.ch = s.ch) (hp : t.pwr = s.pwr) :
    Bar4Ready p t := ⟨(barOn_congr hc hp).trans h.on, by rw [hch]; exact h.service, by rw [hp]; exact h.run⟩

/-- What a request finds: its port has left L1. -/
theorem Bar4Ready.received (h : Bar4Ready p s) : Bar4Ready p (receipt p s) :=
  h.congr (by unfold receipt; rw [modPort_same]) rfl rfl

/-- What a non-posted request finds: it is held besides. -/
theorem Bar4Ready.held (h : Bar4Ready p s) (hd : Hdr) : Bar4Ready p (holdTag p tag hd s) :=
  h.congr (by unfold holdTag; rw [modPort_same]) rfl rfl

theorem takeWrite_refused (h : Bar4Ready p s) (hcl : s.tap.ecc = []) (hr : bar4Refused s pat off bs.length true = true) :
    takeWrite p pat off bs en false s = some (winRefuseWrite p (memHdr true (barBase s p 4 + pat * 4096 + off) en 0 false) s) := by
  unfold takeWrite
  simp only [h.on, h.service, h.run, fetchMeet_clean hcl, hr, Bool.not_true, bne_self_eq_false, Bool.false_eq_true, if_false, if_true]

theorem takeWrite_unaligned (h : Bar4Ready p s) (hcl : s.tap.ecc = []) (hr : bar4Refused s pat off bs.length true = false)
    (ha : s.ch[p].aligned = false) :
    takeWrite p pat off bs en false s = some (takeKey p s) := by
  unfold takeWrite
  simp only [h.on, h.service, h.run, fetchMeet_clean hcl, hr, ha,
    Bool.not_true, Bool.not_false, bne_self_eq_false, Bool.false_eq_true, if_false, if_true]

theorem takeRead_refused (h : Bar4Ready p s) (hcl : s.tap.ecc = []) (hr : bar4Refused s pat off n false = true) :
    takeRead p pat off n en tag s = winRefuseRead p tag s := by
  unfold takeRead
  simp only [h.on, h.service, h.run, fetchMeet_clean hcl, hr, Bool.not_true, bne_self_eq_false, Bool.false_eq_true, if_false, if_true]

theorem takeRead_unaligned (h : Bar4Ready p s) (hcl : s.tap.ecc = []) (hr : bar4Refused s pat off n false = false) (ha : s.ch[p].aligned = false) :
    takeRead p pat off n en tag s = completeCa p tag (takeKey p s) := by
  unfold takeRead
  simp only [h.on, h.service, h.run, fetchMeet_clean hcl, hr, ha,
    Bool.not_true, Bool.not_false, bne_self_eq_false, Bool.false_eq_true, if_false, if_true]

/-- A flush read is noted with the channel's APSEQ.K (R70). -/
theorem takeFlush_noted (h : Bar4Ready p s) :
    takeFlush p tag s = modPort p (fun q => { q with flush := q.flush ++ [(tag, s.ch[p].k.toNat)] }) s := by
  unfold takeFlush
  simp only [h.on, h.service, h.run, Bool.not_true, bne_self_eq_false, Bool.false_eq_true, if_false]

end

/-! Frames of a port -/

/-- Of what `RestSame` fixes, the delivery of events changes nothing at a port but its link state. -/
theorem portOnly_settle {p : Port} {s x : State} (h : PortOnly p s x) : PortOnly p s (settle x) := by
  obtain ⟨hr, hq⟩ := h
  have hs := (portsBut_iff x (settle x)).1 (settle_sends x).1
  have key := restSame_settle hr
  rw [restSame_iff] at key
  obtain ⟨k1, k2, k3, k4, k5, k6, -⟩ := key
  refine ⟨(restSame_iff _ _).2 ⟨k1, ⟨k2.1, k2.2.1, k2.2.2.1, rfl⟩, k3, k4, k5, k6, portsBut_same rfl⟩, fun q e => ?_⟩
  rw [hs q, hq q e]

/-- A change of port `p` leaves every other port. -/
theorem set_port_other {p q : Port} {s t : State} {v : PortS} (h : t.port = s.port.set p v) (e : q ≠ p) : t.port[q] = s.port[q] := by
  rw [h]; exact set_other _ _ _ _ e

theorem PortReports.other {p q : Port} {s t : State} (h : PortReports p s t) (e : q ≠ p) : t.port[q] = s.port[q] := by
  obtain ⟨⟨_, hc⟩, -⟩ := h; exact set_port_other hc e

theorem PortReports.np {p : Port} {s t : State} (h : PortReports p s t) : t.port[p].np = s.port[p].np := by
  obtain ⟨⟨_, hc⟩, -⟩ := h; rw [hc]; simp

/-- What a port sends is among what leaves. -/
theorem sendOut_has (p : Port) {o : Out} {os : List Out} (h : o ∈ os) (s : State) : o ∈ (sendOut p os s).out := by
  unfold sendOut; dsimp only
  show o ∈ s.out ++ _
  refine List.mem_append_right _ ?_
  split
  · exact List.mem_flatMap.2 ⟨o, h, List.mem_cons_self⟩
  · exact h

/-! Error completions -/

/-- From `s` to `t` a read of port `p` that is held with tag `tag` has ended with the completion `o`: its tag is free, `o` has left, and no other port
changes. -/
def ReadEnded (p : Port) (tag : Nat) (o : Out) (s t : State) : Prop :=
  (∀ q, q ≠ p → t.port[q] = s.port[q]) ∧ t.port[p].np = s.port[p].np.eraseP (fun x => x.tag == tag) ∧ o ∈ t.out ∧ Grows s t

/-- The port that sends a completion and frees its tag. -/
theorem readEnded_sent (p : Port) (tag : Nat) (o : Out) (s : State) : ReadEnded p tag o s (dropTag p tag (sendOut p [o] s)) := by
  refine ⟨fun q e => ?_, ?_, sendOut_has p (List.mem_singleton.2 rfl) s, .refl s⟩
  · unfold dropTag sendOut; rw [modPort_other _ _ _ _ e]; exact modPort_other _ _ _ _ e
  · unfold dropTag sendOut; rw [modPort_same, modPort_same]

theorem ReadEnded.reports {p : Port} {tag : Nat} {o : Out} {s t u : State} (h : ReadEnded p tag o s t) (hr : PortReports p t u) :
    ReadEnded p tag o s u := by
  obtain ⟨h1, h2, h3, h4⟩ := h
  exact ⟨fun q e => (hr.other e).trans (h1 q e), hr.np.trans h2, hr.2.1.subset h3, h4.trans hr.2.2⟩

theorem completeUr_ends (p : Port) (tag : Nat) (s : State) : ReadEnded p tag (.cpl p tag 1 false 0 0 []) s (completeUr p tag s) :=
  (readEnded_sent p tag _ s).reports (aerUncorr_reports _ _ _ _ _)

theorem completeCa_ends (p : Port) (tag : Nat) (s : State) : ReadEnded p tag (.cpl p tag 4 false 0 0 []) s (completeCa p tag s) :=
  (readEnded_sent p tag _ s).reports (aerUncorr_reports _ _ _ _ _)

/-- A read that ends as soon as it is held leaves the port's other requests as they were. -/
theorem ReadEnded.held {p : Port} {tag : Nat} {o : Out} {s t : State} {hd : Hdr} (h : ReadEnded p tag o (holdTag p tag hd s) t) :
    (∀ q, q ≠ p → t.port[q] = s.port[q]) ∧ t.port[p].np = s.port[p].np ∧ o ∈ t.out := by
  obtain ⟨h1, h2, h3, -⟩ := h
  refine ⟨fun q e => (h1 q e).trans (modPort_other _ _ _ _ e), h2.trans ?_, h3⟩
  unfold holdTag; rw [modPort_same]; simp

end Sys2Proof.Machine
end


section
/-!
SUPPORT. The refusals of R69 and R139: what a refused access reports, and the operation of a channel that is not aligned.
-/

namespace Sys2Proof.Machine

open Sys2Proof

/-! What a refused access reports (Table 4.8) -/

/-- WIN_ERR is set and the port's WIN_REFUSED occurs. -/
theorem winRefused_shown {p : Port} {s t : State} (hr : t.regs = s.regs) (hb : t.pwr.boot ≠ .inReset) :
    OtherRegs (.cp p) 0x068 s (settle (winRefused p t)) ∧ getFld (settle (winRefused p t)) (.cp p) 0x068 0 0 = 1 ∧
      EventSet (settle (winRefused p t)) (cpEv p 4) := by
  have hregs : (settle (winRefused p t)).regs = (portFlag p 0 t).regs := (settle_regs _).trans (raise_regs _ _)
  refine ⟨otherRegs_congr (s := t) (t := portFlag p 0 t) (otherRegs_putFld _ _ _ _ _ t) hr.symm hregs, ?_, ?_⟩
  · rw [getFld_congr hregs]; exact getFld_flag_one _ _ (by decide) t
  · exact event_seen (cpEv_page p 4 (by decide)) (x := winRefused p t) hb (raise_mem _ _)

/-- Beside its port and its registers, a refused access changes nothing. -/
theorem portOnly_winRefused {p : Port} {s t : State} (h : PortOnly p s t) : PortOnly p s (winRefused p t) := by
  obtain ⟨hr, hq⟩ := h
  refine ⟨restSame_trans hr (restSame_of_reports ?_), hq⟩
  unfold winRefused; simp

/-! The state that a request of port `p` finds -/

theorem receipt_other {p q : Port} (e : q ≠ p) (s : State) : (receipt p s).port[q] = s.port[q] := modPort_other _ _ _ _ e

/-- The state as a non-posted request of port `p` finds it. -/
def requested (p : Port) (tag : Nat) (hd : Hdr) (s : State) : State := holdTag p tag hd (receipt p (cleared s))

@[simp] theorem requested_keeps (p : Port) (tag : Nat) (hd : Hdr) (s : State) :
    OnlyLinks s (requested p tag hd s) := by simp [requested]

/-- A read that a port ends at once changes its port alone and holds no tag further. -/
theorem ReadEnded.requested {p : Port} {tag : Nat} {hd : Hdr} {o : Out} {s x : State} (h : ReadEnded p tag o (requested p tag hd s) x) :
    (∀ q, q ≠ p → x.port[q] = s.port[q]) ∧ x.port[p].np = s.port[p].np ∧ o ∈ x.out := by
  obtain ⟨hq, hnp, ho⟩ := h.held
  refine ⟨fun q e => (hq q e).trans (receipt_other e _), hnp.trans ?_, ho⟩
  unfold receipt; rw [modPort_same]; rfl

/-- What differs from `s` in port `p` and in the free values alone. -/
theorem portOnly_of {p : Port} {s t : State} (h : RestSame { s with port := t.port, freeCount := t.freeCount } t)
    (hq : ∀ q, q ≠ p → t.port[q] = s.port[q]) : PortOnly p s t := ⟨h, fun q e => by rw [hq q e]⟩

/-- The delivery of events leaves a port's held requests and takes nothing back of what left. -/
theorem settle_np (x : State) (p : Port) : (settle x).port[p].np = x.port[p].np := by
  rw [(portsBut_iff x (settle x)).1 (settle_sends x).1 p]

theorem settle_out {o : Out} {x : State} (h : o ∈ x.out) : o ∈ (settle x).out := (settle_sends x).2.subset h

/-! The four answers -/

/-- A refused write reports at its port and nowhere else. -/
theorem winRefuseWrite_reports (p : Port) (h : Hdr) (s : State) :
    let x := winRefuseWrite p h (receipt p (cleared s))
    PortOnly p s x ∧ ∃ y, x = winRefused p y ∧ y.regs = s.regs ∧ y.pwr = s.pwr := by
  intro x
  let y := if getFld (receipt p (cleared s)) (.cp p) 0x004 0 0 = 1 then aerUncorr p 20 false h (receipt p (cleared s)) else receipt p (cleared s)
  have hrep : PortReports p (receipt p (cleared s)) y := .ite (aerUncorr_reports _ _ _ _ _) .refl
  have hy : PortOnly p s y := by
    refine portOnly_of ((restSame_iff _ _).2 ?_) fun q e => (hrep.other e).trans (receipt_other e _)
    refine ⟨?_, ?_, ?_, ?_, ?_, ?_, portsBut_same rfl⟩ <;> simp only [y] <;> split <;> simp
  refine ⟨portOnly_winRefused hy, y, rfl, ?_, ?_⟩ <;> simp only [y] <;> split <;> simp

/-- A refused read reports at its port and nowhere else, and ends with Unsupported Request. -/
theorem winRefuseRead_reports (p : Port) (tag : Nat) (h : Hdr) (s : State) :
    let x := winRefuseRead p tag (requested p tag h s)
    PortOnly p s x ∧ x.port[p].np = s.port[p].np ∧ .cpl p tag 1 false 0 0 [] ∈ x.out ∧
      ∃ y, x = winRefused p y ∧ y.regs = s.regs ∧ y.pwr = s.pwr := by
  intro x
  obtain ⟨hq, hnp, ho⟩ := (completeUr_ends p tag (requested p tag h s)).requested
  have hy : PortOnly p s (completeUr p tag (requested p tag h s)) := by
    refine portOnly_of ((restSame_iff _ _).2 ?_) hq
    refine ⟨?_, ?_, ?_, ?_, ?_, ?_, portsBut_same rfl⟩ <;> simp
  exact ⟨portOnly_winRefused hy, hnp, ho, _, rfl, by simp, by simp⟩

/-- A read of a channel that is not aligned ends with Completer Abort; its APSEQ.K has counted it. -/
theorem unaligned_read_reports (p : Port) (tag : Nat) (h : Hdr) (s : State) :
    let x := completeCa p tag (takeKey p (requested p tag h s))
    PortOnly p { s with ch := x.ch } x ∧ x.regs = s.regs ∧ x.port[p].np = s.port[p].np ∧ x.ch = (takeKey p s).ch ∧
      .cpl p tag 4 false 0 0 [] ∈ x.out := by
  intro x
  have hx : x.ch = (takeKey p s).ch := by simp [x, takeKey, modCh]
  obtain ⟨h1, h2, h3, h4⟩ := completeCa_ends p tag (takeKey p (requested p tag h s))
  obtain ⟨hq, hnp, ho⟩ : (∀ q, q ≠ p → x.port[q] = s.port[q]) ∧ x.port[p].np = s.port[p].np ∧ .cpl p tag 4 false 0 0 [] ∈ x.out :=
    ReadEnded.requested (hd := h) ⟨h1, h2, h3, h4⟩
  refine ⟨portOnly_of ((restSame_iff _ _).2 ?_) hq, by simp [x], hnp, hx, ho⟩
  refine ⟨?_, ?_, ?_, ?_, ?_, ?_, portsBut_same rfl⟩ <;> simp [x]

/-- A channel's APSEQ.K counts an operation, and no other channel's does. -/
theorem takeKey_counts (p : Port) (s : State) : (∀ d, d ≠ p → (takeKey p s).ch[d] = s.ch[d]) ∧
    (takeKey p s).ch[p] = { s.ch[p] with k := s.ch[p].k + 1, opsSince := s.ch[p].opsSince + 1 } :=
  ⟨fun d e => modCh_other p d _ s e, modCh_self p _ s⟩

end Sys2Proof.Machine

open Sys2Proof Sys2Proof.Machine
/-- Settles O24: what the pattern refuses is reported by the port alone; what a channel that is not aligned presents counts its APSEQ.K on. -/
theorem aperiodicRefusals : Obligations.AperiodicRefusals := by
  unfold Obligations.AperiodicRefusals
  intro p pat off s hdel hb ho hon hrx hsv hrun he
  have hready : Bar4Ready p (receipt p (cleared s)) := Bar4Ready.received (s := cleared s) ⟨hon, hsv, hrun⟩
  have hboot : s.pwr.boot ≠ .inReset := by rw [hb]; decide
  have shown : ∀ {y : State}, y.regs = s.regs → y.pwr = s.pwr →
      OtherRegs (.cp p) 0x068 s (settle (winRefused p y)) ∧ getFld (settle (winRefused p y)) (.cp p) 0x068 0 0 = 1 ∧
        EventSet (settle (winRefused p y)) (cpEv p 4) := fun hr hp => winRefused_shown hr (by rw [hp]; exact hboot)
  refine ⟨fun data be hroom hcut hm => ?_, fun len be tag hroom hcut hbe => ?_⟩
  · let hd := memHdr true (barBase (receipt p (cleared s)) p 4 + pat.toNat * 4096 + off.toNat) be 0 false
    have written : ∀ {y : State}, takeWrite p pat.toNat off.toNat data be false (receipt p (cleared s)) = some y →
        exec (.bar4Write p pat off data be false false) s = .next (settle y) := fun {y} hy =>
      have ht : takeRx p (.write pat.toNat off.toNat data be false) (receipt p (cleared s)) = some y := hy
      have hop : bar4WriteOp p pat.toNat off.toNat data be false false (cleared s) = y := by
        unfold bar4WriteOp; simp only [Bool.and_false, Bool.false_and, Bool.false_eq_true, if_false]
        exact recvPosted_taken (s := cleared s) ho hroom hcut hm hrx ht
      exec_run (bar4WriteOp p pat.toNat off.toNat data be false false) rfl hop
    constructor
    · intro hr
      obtain ⟨hport, y, hy, hregs, hpwr⟩ := winRefuseWrite_reports p hd s
      refine completes_settle (x := winRefuseWrite p hd (receipt p (cleared s))) (written (takeWrite_refused hready he hr))
        ⟨portOnly_settle hport, ?_⟩
      rw [hy]; exact shown hregs hpwr
    · intro hr ha
      exact completes_quiet (written (takeWrite_unaligned hready he hr ha)) hdel ⟨rfl, takeKey_counts p s⟩
  · have hread : (decide (len ≤ 4) && be.all (! ·)) = false := by
      rcases hbe with hl | hl
      · simp [Nat.not_le.2 hl]
      · simp only [Bool.and_eq_false_iff, List.all_eq_false]
        exact .inr ⟨true, hl, by decide⟩
    let hd := memHdr false (barBase s p 4 + pat.toNat * 4096 + off.toNat) be tag.toNat false
    have taken : ∀ {y : State}, takeRead p pat.toNat off.toNat len be tag.toNat (requested p tag.toNat hd s) = y →
        exec (.bar4Read p pat off ⟨len, be⟩ tag) s = .next (settle y) := fun {y} hy => by
      refine exec_run (bar4ReadOp p pat.toNat off.toNat len be tag.toNat) rfl ?_
      have ht : takeRx p (.read pat.toNat off.toNat len be tag.toNat) (requested p tag.toNat hd s) = some y := congrArg some hy
      unfold bar4ReadOp; dsimp only; rw [hread]
      exact recvNonPosted_taken (s := cleared s) ho hroom hcut hrx ht
    have hheld : Bar4Ready p (requested p tag.toNat hd s) := hready.held _
    constructor
    · intro hr
      obtain ⟨hport, hnp, hout, y, hy, hregs, hpwr⟩ := winRefuseRead_reports p tag.toNat hd s
      obtain ⟨g1, g2, g3⟩ := shown hregs hpwr
      rw [← hy] at g1 g2 g3
      exact completes_settle (taken (takeRead_refused hheld he hr))
        ⟨portOnly_settle hport, g1, g2, g3, (settle_np _ p).trans hnp, settle_out hout⟩
    · intro hr ha
      obtain ⟨hport, hregs, hnp, hch, hout⟩ := unaligned_read_reports p tag.toNat hd s
      obtain ⟨hother, hself⟩ := takeKey_counts p s
      refine completes_settle (taken (takeRead_unaligned hheld he hr ha)) ?_
      have hc : (settle (completeCa p tag.toNat (takeKey p (requested p tag.toNat hd s)))).ch = (takeKey p s).ch := by simpa using hch
      refine ⟨?_, (settle_regs _).trans hregs, (settle_np _ p).trans hnp, fun d e => ?_, ?_, settle_out hout⟩
      · rw [hc, ← hch]; exact portOnly_settle hport
      · rw [hc]; exact hother d e
      · rw [hc]; exact hself
end

section
/-!
SUPPORT. What the end of a match entry leaves alone (R126, R135): copies are discarded and channels charged or fenced, but the lists of the
segments, the match table's other entries and what has occurred stay.
-/

namespace Sys2Proof.Machine

open Sys2Proof

/-! Reports keep what has occurred -/

theorem completeCa_grows (p : Port) (tag : Nat) (s : State) : Grows s (completeCa p tag s) := (completeCa_ends p tag s).2.2.2

/-! Lists of the Creel -/

/-- The release of cells changes no list. -/
@[simp] theorem listPkts_releaseCells (q : Nat) (cells : List Nat) (s : State) (j : Nat) : listPkts (releaseCells q cells s) j = listPkts s j := by
  show (getQ (setQ q { getQ s.crl q with held := (getQ s.crl q).held - cells.length } s.crl) j).pkts = (getQ s.crl j).pkts
  by_cases e : j = q
  · subst e; rw [getQ_setQ_same]
  · rw [getQ_setQ_other e]

@[simp] theorem listPkts_setPkts_same (q : Nat) (ps : List Pkt) (s : State) : listPkts (setPkts q ps s) q = ps :=
  congrArg Queue.pkts (getQ_setQ_same q _ s.crl)

theorem listPkts_setPkts_other {q j : Nat} (h : j ≠ q) (ps : List Pkt) (s : State) : listPkts (setPkts q ps s) j = listPkts s j :=
  congrArg Queue.pkts (getQ_setQ_other h _ s.crl)

/-! The lists that a channel's end leaves alone -/

/-- From `s` to `t` channels lose copies and change state: lists 0 to 4 of the Creel apart, no list changes, the CTRL registers of the segments
stay, an empty match table stays empty, closed entries keep their keys, and what has occurred stays. -/
structure ChannelsEnd (s t : State) : Prop where
  occ : Grows s t
  list : ∀ q, 5 ≤ q → listPkts t q = listPkts s q
  ctrl : ∀ g : Seg, getReg t (.ls g) 0x040 = getReg s (.ls g) 0x040
  openE : s.vot.openE = [] → t.vot.openE = []
  waiting : s.vot.waiting = [] → t.vot.waiting = []
  closed : ∀ f ∈ s.vot.closedE, ∃ f' ∈ t.vot.closedE, f'.k = f.k ∧ f'.pat = f.pat

namespace ChannelsEnd

variable {s t u : State}

theorem of_same (hr : t.regs = s.regs) (hc : t.crl = s.crl) (hv : t.vot.openE = s.vot.openE ∧ t.vot.waiting = s.vot.waiting ∧
    t.vot.closedE = s.vot.closedE) (hg : Grows s t) : ChannelsEnd s t where
  occ := hg
  list q _ := by unfold listPkts; rw [hc]
  ctrl g := getReg_congr hr _ _
  openE h := hv.1.trans h
  waiting h := hv.2.1.trans h
  closed f hf := ⟨f, hv.2.2 ▸ hf, rfl, rfl⟩

/-- Nothing of it changes. -/
theorem of_keeps (hr : t.regs = s.regs) (hc : t.crl = s.crl) (hv : t.vot = s.vot) (he : t.evh = s.evh) : ChannelsEnd s t :=
  of_same hr hc (by rw [hv]; exact ⟨rfl, rfl, rfl⟩) (grows_of_evh he)

theorem refl (s : State) : ChannelsEnd s s := of_keeps rfl rfl rfl rfl

theorem trans (h1 : ChannelsEnd s t) (h2 : ChannelsEnd t u) : ChannelsEnd s u where
  occ := h1.occ.trans h2.occ
  list q h := (h2.list q h).trans (h1.list q h)
  ctrl g := (h2.ctrl g).trans (h1.ctrl g)
  openE h := h2.openE (h1.openE h)
  waiting h := h2.waiting (h1.waiting h)
  closed f hf := by
    obtain ⟨f1, m1, k1, p1⟩ := h1.closed f hf
    obtain ⟨f2, m2, k2, p2⟩ := h2.closed f1 m1
    exact ⟨f2, m2, k2.trans k1, p2.trans p1⟩

theorem foldl {α : Type} {f : State → α → State} (hf : ∀ s a, ChannelsEnd s (f s a)) (l : List α) (s : State) :
    ChannelsEnd s (l.foldl f s) := by
  induction l generalizing s with
  | nil => exact refl s
  | cons a l ih => exact (hf s a).trans (ih _)

theorem ite {c : Prop} [Decidable c] (h1 : ChannelsEnd s t) (h2 : ChannelsEnd s u) : ChannelsEnd s (if c then t else u) := by
  split
  · exact h1
  · exact h2

/-- An operation that leaves the registers, the Creel and the match table, whose events follow those before. -/
theorem raised (h : ChannelsEnd s t) (ev : Nat) : ChannelsEnd s (raise ev t) :=
  h.trans (of_same rfl rfl ⟨rfl, rfl, rfl⟩ (raise_grows ev t))

theorem raisedD (h : ChannelsEnd s t) (ev : Nat) (a b : Word) : ChannelsEnd s (raiseD ev a b t) :=
  h.trans (of_same rfl rfl ⟨rfl, rfl, rfl⟩ (raiseD_grows ev a b t))

/-- A change of a channel's state. -/
theorem modCh (h : ChannelsEnd s t) (c : Port) (f : Chan → Chan) : ChannelsEnd s (modCh c f t) := h.trans (of_keeps rfl rfl rfl rfl)

/-- A change of a port's state. -/
theorem modPort (h : ChannelsEnd s t) (c : Port) (f : PortS → PortS) : ChannelsEnd s (modPort c f t) := h.trans (of_keeps rfl rfl rfl rfl)

/-- A change of the process image. -/
theorem img (h : ChannelsEnd s t) (i : Img) : ChannelsEnd s { t with img := i } := h.trans (of_keeps rfl rfl rfl rfl)

/-- A register outside the segments' pages is written. -/
theorem setReg (h : ChannelsEnd s t) {k : PageKind} {off : Nat} (hk : ∀ g : Seg, regAddr (.ls g) 0x040 ≠ regAddr k off) (w : Word) :
    ChannelsEnd s (setReg k off w t) :=
  h.trans { of_keeps (s := t) (t := t) rfl rfl rfl rfl with ctrl := fun g => getReg_setReg_ne (hk g) w t }

theorem portFlag (h : ChannelsEnd s t) (p : Port) (b : Nat) : ChannelsEnd s (portFlag p b t) :=
  h.setReg (fun g => by fin_cases g <;> fin_cases p <;> decide) _

theorem voteCount (h : ChannelsEnd s t) {off : Nat} (ho : off < 0x1000) (n : Nat) : ChannelsEnd s (incReg .vot off n t) :=
  h.setReg (fun g => by fin_cases g <;> simp [regAddr, PageKind.num] <;> omega) _

theorem completeCa (h : ChannelsEnd s t) (p : Port) (tag : Nat) : ChannelsEnd s (completeCa p tag t) :=
  h.trans (of_same (by simp) (by simp) (by simp) (completeCa_grows p tag t))

/-! Channel states, modes and the controller -/

theorem setChState (h : ChannelsEnd s t) (c : Port) (st : ChState) : ChannelsEnd s (setChState c st t) :=
  ite h ((h.modCh c _).raised _)

theorem stopController (h : ChannelsEnd s t) (cause : Nat) : ChannelsEnd s (stopController cause t) := by
  unfold Machine.stopController
  split
  · exact h
  · exact raisedD (h.img _) _ _ _

theorem setMode (h : ChannelsEnd s t) (m : VoteMode) : ChannelsEnd s (setMode m t) := by
  have mode : ChannelsEnd s (raise 53 { t with vot := { t.vot with mode := m } }) := by
    refine raised (h.trans ?_) 53
    exact of_same rfl rfl ⟨rfl, rfl, rfl⟩ (.refl t)
  exact ite h (ite (mode.stopController 3) mode)

theorem evalMode (h : ChannelsEnd s t) : ChannelsEnd s (evalMode t) := ite h (h.setMode _)

theorem promoteAll (h : ChannelsEnd s t) (n : Nat) : ChannelsEnd s (promoteAll n t) := by
  induction n generalizing t with
  | zero => exact h
  | succ n ih =>
    unfold Machine.promoteAll; split
    · exact ih ((h.setChState _ _).raised _)
    · exact h

theorem becomeReady (h : ChannelsEnd s t) (c : Port) : ChannelsEnd s (becomeReady c t) := ((h.modCh c _).setChState c .ready).raised 55

theorem observersReady (h : ChannelsEnd s t) : ChannelsEnd s (observersReady t) :=
  ite h (h.trans (foldl (fun s c => ite ((refl s).becomeReady c) (refl s)) _ _))

theorem askPush (h : ChannelsEnd s t) (p : Port) (n : Word) : ChannelsEnd s (askPush p n t) :=
  ite (h.modPort p _) ((h.portFlag p 10).raised _)

theorem takeFreeze (h : ChannelsEnd s t) (n : Word) : ChannelsEnd s (takeFreeze n t) := by
  unfold Machine.takeFreeze; dsimp only
  refine raised (h.trans (of_keeps ?_ ?_ ?_ ?_)) 66 <;> simp

theorem treatFreeze (h : ChannelsEnd s t) (c : Port) (n : Word) : ChannelsEnd s (treatFreeze c n t) := by
  unfold Machine.treatFreeze; extract_lets held unheld f next
  have hh : ChannelsEnd s (held t) := h.img _
  have hu : ChannelsEnd s (unheld t) := h.img _
  exact ite (h.raised _) (ite (hu.askPush _ _) (ite (ite ((hu.takeFreeze n).askPush _ _) hh) (hu.raised _)))

theorem retryFreezes (h : ChannelsEnd s t) : ChannelsEnd s (retryFreezes t) := by
  have one : ∀ (s : State) (c : Port), ChannelsEnd s (retryFreeze c s) := by
    intro s c; unfold retryFreeze; split
    · exact (refl s).treatFreeze _ _
    · exact refl s
  exact (h.trans (foldl one _ _)).trans (foldl one _ _)

theorem settleChannels (h : ChannelsEnd s t) : ChannelsEnd s (settleChannels t) := by
  have round : ∀ {t : State}, ChannelsEnd s t → ChannelsEnd s (Machine.observersReady (Machine.evalMode (Machine.promoteAll 3 t))) :=
    fun h => (h.promoteAll 3).evalMode.observersReady
  have h3 := round (round (round h))
  exact h3.retryFreezes

theorem endOne (h : ChannelsEnd s t) : ChannelsEnd s (endOne t) := by
  unfold Machine.endOne; extract_lets u
  have hu : ChannelsEnd s u := h.trans (foldl (fun s p => ite ((refl s).setChState p .observer) (refl s)) _ _)
  exact (hu.setMode _).settleChannels

/-! A channel's copies -/

theorem staleDrop (h : ChannelsEnd s t) (isWrite : Bool) : ChannelsEnd s (staleDrop isWrite t) :=
  (ite (h.voteCount (by decide) 1) h).raised 57

/-- A packet leaves a list of a channel or of the mailbox. -/
theorem discardPkt (h : ChannelsEnd s t) {q : Nat} (hq : q < 5) (cells : List Nat) : ChannelsEnd s (discardPkt q cells t) := by
  have same : ∀ x : State, x.regs = t.regs → x.vot = t.vot → x.evh = t.evh →
      (∀ j, 5 ≤ j → listPkts x j = listPkts t j) → ChannelsEnd s x :=
    fun x hr hv he hl => h.trans { of_keeps (s := t) (t := { t with regs := x.regs, vot := x.vot, evh := x.evh }) hr rfl hv he with
      occ := grows_of_evh he, list := hl, ctrl := fun g => getReg_congr hr _ _ }
  refine same _ (by simp) (by simp) (by simp) fun j hj => ?_
  unfold Machine.discardPkt; split
  · rw [listPkts_releaseCells, listPkts_setPkts_other (by omega)]
  · rfl

theorem dropHeld (h : ChannelsEnd s t) (k : Word) (pat : Nat) : ChannelsEnd s (dropHeld k pat t) :=
  h.trans (foldl (fun s (p : Pkt) => (refl s).discardPkt (by decide) p.cells) _ _)

theorem discardCopy (h : ChannelsEnd s t) (c : MCopy) : ChannelsEnd s (discardCopy c t) :=
  (ite h (h.discardPkt (by omega) _)).staleDrop _

theorem discardCopies (h : ChannelsEnd s t) (c : Port) : ChannelsEnd s (discardCopies c t) := by
  unfold Machine.discardCopies; extract_lets mine live gone strip v s1
  have h1 : ChannelsEnd s s1 := h.trans {
    occ := .refl t, list := fun _ _ => rfl, ctrl := fun _ => rfl
    openE := fun h => by simp [s1, h]
    waiting := fun h => by simp [s1, h]
    closed := fun f hf => ⟨strip f, List.mem_map_of_mem hf, rfl, rfl⟩ }
  exact h1.trans (foldl (fun s c => (refl s).discardCopy c) _ _)

theorem abandonPush (h : ChannelsEnd s t) (p : Port) : ChannelsEnd s (abandonPush p t) := by
  unfold Machine.abandonPush; extract_lets v s1
  have h1 : ChannelsEnd s s1 := h.trans (of_keeps rfl rfl rfl rfl)
  split
  · exact ((h1.modPort p _).portFlag p 9).raised _
  · exact h.modPort p _

theorem abortStream (h : ChannelsEnd s t) (r : Nat) : ChannelsEnd s (abortStream r t) := by
  unfold Machine.abortStream; split
  · refine ite (raised (h.trans ?_) 211) h
    exact of_keeps rfl rfl rfl rfl
  · exact h

theorem fencedVector (h : ChannelsEnd s t) (p : Port) : ChannelsEnd s (fencedVector p t) :=
  h.trans (of_keeps (by simp) (by simp) (by simp) (by simp))

/-- A channel is fenced (R126, R127). -/
theorem fence (h : ChannelsEnd s t) (c : Port) (portReset : Bool) : ChannelsEnd s (fence c portReset t) := by
  unfold Machine.fence
  split
  swap
  · exact h
  extract_lets wasOne entries s1 b r i s2 s3 rx s4 s5 s6 s7 s8
  have h1 : ChannelsEnd s s1 := (h.setChState c .fenced).modCh c _
  have h2 : ChannelsEnd s s2 := h1.trans (of_keeps rfl rfl rfl rfl)
  have h3 : ChannelsEnd s s3 := ((h2.discardCopies c).abandonPush c).trans (foldl (fun s _ => (refl s).staleDrop true) _ _)
  have h4 : ChannelsEnd s s4 := (h3.modPort c _).trans (foldl (fun s x => (refl s).staleDrop _) _ _)
  have h5 : ChannelsEnd s s5 := ite (h4.modPort c _) ((h4.trans (foldl (fun s x => (refl s).completeCa c _) _ _)).portFlag c 4)
  have h6 : ChannelsEnd s s6 := h5.abortStream _
  have h7 : ChannelsEnd s s7 := h6.raisedD _ _ _
  have h8 : ChannelsEnd s s8 := h7.fencedVector c
  exact ite h8.endOne h8.settleChannels

/-- A divergent channel is charged (R135). -/
theorem charge (h : ChannelsEnd s t) (m : VoteMode) (c : Port) : ChannelsEnd s (charge m c t) := by
  unfold Machine.charge; extract_lets now s1 s2
  have h1 : ChannelsEnd s s1 := h.modCh c _
  have h2 : ChannelsEnd s s2 := (h1.voteCount (by omega) 1).raised 50
  exact ite (ite (h2.fence c false) h2) h

theorem observerMiss (h : ChannelsEnd s t) (c : Port) : ChannelsEnd s (observerMiss c t) := by
  unfold Machine.observerMiss; extract_lets s1
  have h1 : ChannelsEnd s s1 := h.modCh c _
  exact ite (ite (h1.setChState c .observer) h1) h

end ChannelsEnd

end Sys2Proof.Machine
end

section
/-!
SUPPORT. The flush read and its completion (R70), and what is left of a match entry at its time (R135, R136).
-/

namespace Sys2Proof.Machine

open Sys2Proof

/-! Nothing queued -/

/-- A segment has nothing to do in states that agree on it, on its CTRL, on the power state and on its three lists. -/
theorem segIdle_of_lists {s t : State} {g : Seg} (hseg : t.seg[g] = s.seg[g]) (hpwr : t.pwr = s.pwr)
    (hreg : getReg t (.ls g) 0x040 = getReg s (.ls g) 0x040)
    (hl : ∀ j ∈ [vapQ g, remQ g, fwdQ g], listPkts t j = listPkts s j)
    (h : (masterOk s g = true ∨ (s.seg[g].eng = none ∧ workCount s g = 0)) ∧ BusSettled s g) :
    (masterOk t g = true ∨ (t.seg[g].eng = none ∧ workCount t g = 0)) ∧ BusSettled t g := by
  obtain ⟨hv, hr, hf⟩ : listPkts t (vapQ g) = listPkts s (vapQ g) ∧ listPkts t (remQ g) = listPkts s (remQ g) ∧
    listPkts t (fwdQ g) = listPkts s (fwdQ g) := ⟨hl _ (by simp), hl _ (by simp), hl _ (by simp)⟩
  have keeps : ∀ e, keepsOn t g e = keepsOn s g e := fun e => by simp only [keepsOn, segCfg_congr hreg, hseg, hpwr]
  simp only [BusSettled, masterOk, segAvail, workCount, hasWork, sysconAct, keeps, segCfg_congr hreg, hseg, hpwr, hv, hr, hf] at h ⊢
  exact h

/-- Where channels end and the segments, the maintenance port, the ring and the power state stay, nothing becomes queued. -/
theorem ChannelsEnd.nothingQueued {s t : State} (h : ChannelsEnd s t) (hseg : t.seg = s.seg) (hmnt : t.mnt = s.mnt) (hrng : t.rng = s.rng)
    (hpwr : t.pwr = s.pwr) (hq : NothingQueued s) : NothingQueued t := by
  obtain ⟨ho, hw, hm, hr, ha, hs, hg⟩ := hq
  refine ⟨h.openE ho, h.waiting hw, by rw [hmnt]; exact hm, (h.list 23 (by decide)).trans hr, by rw [hrng]; exact ha, fun g => ?_, fun g => ?_⟩
  · obtain ⟨h1, h2⟩ := hs g
    exact ⟨by rw [hseg]; exact h1, (h.list _ (by omega)).trans h2⟩
  · refine segIdle_of_lists (by rw [hseg]) hpwr (h.ctrl g) (fun j hj => h.list j ?_) (hg g)
    simp only [vapQ, remQ, fwdQ, List.mem_cons, List.not_mem_nil, or_false] at hj; omega

/-- Where nothing is queued, a command ends without a pump's moving anything. -/
theorem NothingQueued.idle {s : State} (h : NothingQueued s) : endPump (pump s) = s := by
  have hpump := pump_idle s h
  obtain ⟨-, -, -, -, -, hs, -⟩ := h
  rw [hpump, endPump_idle s hs]

/-! A match entry at its time -/

/-- The state without an open match entry. -/
def entriesGone (s : State) : State := { s with vot := { s.vot with openE := [] } }

/-- The state without any match entry. -/
def tableGone (s : State) : State := { s with vot := { s.vot with openE := [], closedE := [] } }

/-- An entry that joins the closed part leaves the lists of the segments and the open part alone. -/
theorem addClosed_ends (e : MEntry) (s : State) : ChannelsEnd (tableGone s) (addClosed e (entriesGone s)) := by
  have table : ∀ {t : State} {v : Vot}, v.openE = t.vot.openE → v.waiting = t.vot.waiting → ChannelsEnd (tableGone s) t →
      ChannelsEnd (tableGone s) { t with vot := v } := fun ho hw h =>
    ⟨h.occ, h.list, h.ctrl, fun hx => ho.trans (h.openE hx), fun hx => hw.trans (h.waiting hx), fun f hf => absurd hf (List.not_mem_nil)⟩
  have start : ChannelsEnd (tableGone s) (entriesGone s) := table (t := tableGone s) rfl rfl (.refl _)
  have full : ∀ (old : MEntry) (k : Option Word), ChannelsEnd (tableGone s)
      (raise 63 { dropClosed old (entriesGone s) with vot := { (dropClosed old (entriesGone s)).vot with kEvict := k } }) := by
    intro old k
    have hopen : ChannelsEnd (tableGone s) { entriesGone s with vot := { (entriesGone s).vot with
        closedE := (entriesGone s).vot.closedE.filter fun f => !(f.k == old.k && f.pat == old.pat) } } := table (t := entriesGone s) rfl rfl start
    have htaken : ChannelsEnd (tableGone s) (dropClosed old (entriesGone s)) := hopen.dropHeld _ _
    refine .raised (table ?_ ?_ htaken) 63 <;> rfl
  unfold addClosed; extract_lets s1
  have h1 : ChannelsEnd (tableGone s) s1 := by
    unfold s1; split
    · exact .ite (full _ _) start
    · exact start
  exact table rfl rfl h1

/-- The entry is the last of the closed part. -/
theorem addClosed_mem (e : MEntry) (s : State) : e ∈ (addClosed e s).vot.closedE := by unfold addClosed; simp

/-- A read of an entry that ends without a result: Completer Abort, and its channel diverges where the read may not be done again (R135). -/
def readGone (e : MEntry) (s : State) (c : MCopy) : State :=
  let s1 := completeCa c.ch c.tag s
  if e.isRead && !(patOf e.patE).idem && (patOf e.patE).kind != .rmw then
    modCh c.ch (fun x => { x with divergent := true, caStamp := some (stampNow s) }) (portFlag c.ch 3 s1)
  else s1

/-- The entry has left the open part for the closed one, and its copies their lists (R135). -/
def copiesGone (e : MEntry) (s : State) : State :=
  let s1 := addClosed e { s with vot := { s.vot with openE := s.vot.openE.filter fun f => !(f.k == e.k && f.pat == e.pat) } }
  let keep := if e.phase == .done then e.chosen else none
  (e.copies.filter fun c => !c.isRead && some c != keep).foldl (fun s c => discardPkt c.ch.val c.cells s)
    (if e.isRead && e.phase == .done then s1 else (e.copies.filter (·.isRead)).foldl (readGone e) s1)

theorem copiesGone_ends {e : MEntry} {s : State} (ho : s.vot.openE = [e]) : ChannelsEnd (addClosed e (entriesGone s)) (copiesGone e s) := by
  have hs : ({ s with vot := { s.vot with openE := s.vot.openE.filter fun f => !(f.k == e.k && f.pat == e.pat) } } : State) = entriesGone s := by
    simp [ho, entriesGone]
  have read : ∀ (s : State) (c : MCopy), ChannelsEnd s (readGone e s c) := fun s c => by
    have h1 : ChannelsEnd s (completeCa c.ch c.tag s) := (ChannelsEnd.refl s).completeCa _ _
    exact .ite ((h1.portFlag c.ch 3).modCh c.ch _) h1
  unfold copiesGone; rw [hs]
  exact .trans (.ite (.refl _) (.foldl read _ _)) (.foldl (fun s (c : MCopy) => (ChannelsEnd.refl s).discardPkt (by omega) c.cells) _ _)

/-- A write entry's end changes no channel and no register. -/
theorem copiesGone_write {e : MEntry} (s : State) (hr : e.isRead = false) : (copiesGone e s).ch = s.ch ∧ (copiesGone e s).regs = s.regs := by
  unfold copiesGone readGone; simp [hr]

/-- What decides on a charge: the states of the channels, their alignment and the mode. -/
def standing (s : State) : (Port → ChState × Bool) × VoteMode := (fun c => (s.ch[c].st, s.ch[c].aligned), s.vot.mode)

theorem standing_congr {s t : State} (hc : t.ch = s.ch) (hv : t.vot.mode = s.vot.mode) : standing t = standing s := by
  unfold standing; rw [hc, hv]

/-- A change of a channel's marks. -/
theorem standing_modCh (c : Port) (f : Chan → Chan) (s : State) (hf : ∀ x, (f x).st = x.st ∧ (f x).aligned = x.aligned) :
    standing (modCh c f s) = standing s := by
  refine Prod.ext (funext fun d => ?_) rfl
  by_cases e : d = c
  · subst e; exact Prod.ext (by simp only [standing, modCh_self, hf]) (by simp only [standing, modCh_self, hf])
  · simp only [standing, modCh_other _ _ _ _ e]

theorem addClosed_mode (e : MEntry) (s : State) : (addClosed e s).vot.mode = s.vot.mode := by
  unfold addClosed dropClosed; dsimp only; (repeat' split) <;> simp

/-- Channels keep their state and alignment through an entry's end, and the device its mode. -/
theorem copiesGone_standing (e : MEntry) (s : State) : standing (copiesGone e s) = standing s := by
  have read : ∀ (s : State) (c : MCopy), standing (readGone e s c) = standing s := fun s c => by
    have h1 : standing (completeCa c.ch c.tag s) = standing s := standing_congr (by simp) (by simp)
    unfold readGone; dsimp only; split
    · refine (standing_modCh _ _ _ ?_).trans h1
      exact fun _ => ⟨rfl, rfl⟩
    · exact h1
  unfold copiesGone; dsimp only
  rw [foldl_keeps standing _ (fun s c => standing_congr (by simp) (by simp)), apply_ite standing, foldl_keeps standing _ read, ite_self]
  exact standing_congr (by simp) (addClosed_mode _ _)

/-- Without a majority, NO_MAJORITY is reported where several channels vote. -/
theorem closeEntry_noMajority {e : MEntry} {s : State} (h : majority s e = none) (hm : s.vot.mode ≠ .m1oo1) :
    closeEntry e s = raise 54 (copiesGone e s) := by
  unfold closeEntry; dsimp only; rw [h, beq_false_of_ne hm]; rfl

/-- With one, the active channels outside it are charged and the others miss (R135). -/
theorem closeEntry_majority {e : MEntry} {s : State} {m : Option MCopy} (h : majority s e = some m) :
    ∃ missed : List MCopy, closeEntry e s = missed.foldl (fun s x => observerMiss x.ch s)
      (((activeAligned s).filter fun c => outside e m c).foldl (fun t c => charge s.vot.mode c t) (copiesGone e s)) := by
  have key : ∃ missed : List MCopy, closeEntry e s = missed.foldl (fun s x => observerMiss x.ch s)
      (((activeAligned s).filter fun c => outside e m c).foldl (fun t c => charge (copiesGone e s).vot.mode c t) (copiesGone e s)) := by
    unfold closeEntry; dsimp only; rw [h]; exact ⟨_, rfl⟩
  rwa [show (copiesGone e s).vot.mode = s.vot.mode from congrArg Prod.snd (copiesGone_standing e s)] at key

/-- A charge of an active channel is reported. -/
theorem charge_occurs {c : Port} {s : State} (ha : s.ch[c].st = .active) (hal : s.ch[c].aligned = true) :
    ∃ o ∈ (charge .m2oo3 c s).evh.occ, o.ev = 50 := by
  unfold charge; rw [ha, hal]; extract_lets now s1 s2
  have h2 : ∃ o ∈ s2.evh.occ, o.ev = 50 := raise_mem _ _
  exact Grows.has (ChannelsEnd.ite ((ChannelsEnd.refl s2).fence c false) (.refl s2)).occ h2

/-- All that an entry's end changes. -/
theorem closeEntry_ends {e : MEntry} {s : State} (ho : s.vot.openE = [e]) : ChannelsEnd (addClosed e (entriesGone s)) (closeEntry e s) := by
  cases hm : majority s e with
  | none =>
    unfold closeEntry; dsimp only; rw [hm]
    exact .ite (copiesGone_ends ho) ((copiesGone_ends ho).raised 54)
  | some m =>
    obtain ⟨missed, hx⟩ := closeEntry_majority hm
    rw [hx]
    exact ((copiesGone_ends ho).trans (.foldl (fun s c => (ChannelsEnd.refl s).charge _ c) _ _)).trans
      (.foldl (fun s (x : MCopy) => (ChannelsEnd.refl s).observerMiss x.ch) _ _)

/-- The divergence of an active channel outside the majority is reported (R135). -/
theorem closeEntry_divergence {e : MEntry} {s : State} {m : Option MCopy} {c : Port} (h : majority s e = some m) (hm : s.vot.mode = .m2oo3)
    (ha : s.ch[c].st = .active) (hal : s.ch[c].aligned = true) (hout : outside e m c = true) :
    ∃ o ∈ (closeEntry e s).evh.occ, o.ev = 50 := by
  obtain ⟨missed, hx⟩ := closeEntry_majority h
  have hc : c ∈ (activeAligned s).filter fun c => outside e m c := by
    have hall : c ∈ allPorts := by fin_cases c <;> decide
    simp [activeAligned, List.mem_filter, hall, hout, show s.ch[c.val].st = .active from ha, show s.ch[c.val].aligned = true from hal]
  rw [hx, hm]
  refine Grows.has (ChannelsEnd.foldl (fun s (x : MCopy) => (ChannelsEnd.refl s).observerMiss x.ch) _ _).occ ?_
  cases hl : (activeAligned s).filter fun c => outside e m c with
  | nil => rw [hl] at hc; cases hc
  | cons d l =>
    have hd : d ∈ (activeAligned s).filter fun c => outside e m c := by rw [hl]; exact List.mem_cons_self
    simp only [activeAligned, List.mem_filter, Bool.and_eq_true, beq_iff_eq] at hd
    have hst : ((copiesGone e s).ch[d].st, (copiesGone e s).ch[d].aligned) = (s.ch[d].st, s.ch[d].aligned) :=
      congrFun (congrArg Prod.fst (copiesGone_standing e s)) d
    rw [List.foldl_cons]
    exact Grows.has (ChannelsEnd.foldl (fun s c => (ChannelsEnd.refl s).charge _ c) l _).occ
      (charge_occurs ((congrArg Prod.fst hst).trans hd.1.2.1) ((congrArg Prod.snd hst).trans hd.1.2.2))

end Sys2Proof.Machine
end

section
/-!
SUPPORT. The four answers of R70, R135 and R136.
-/

namespace Sys2Proof.Machine

open Sys2Proof

/-! Flush reads (R70) -/

/-- A flush read is held, and noted with its channel's APSEQ.K. -/
def flushHeld (p : Port) (tag : Nat) (h : Hdr) (s : State) : State :=
  modPort p (fun q => { q with flush := q.flush ++ [(tag, s.ch[p].k.toNat)] }) (holdTag p tag h (receipt p (cleared s)))

/-- What is different then: the port holds the tag and the flush read. -/
theorem flushHeld_port (p : Port) (tag : Nat) (h : Hdr) (s : State) :
    flushHeld p tag h s = { cleared s with port := (flushHeld p tag h s).port } ∧ (∀ q, q ≠ p → (flushHeld p tag h s).port[q] = s.port[q]) ∧
      (flushHeld p tag h s).port[p] = { s.port[p] with
        l1 := false, np := ⟨tag, h⟩ :: s.port[p].np, flush := s.port[p].flush ++ [(tag, s.ch[p].k.toNat)] } := by
  refine ⟨rfl, fun q e => ?_, ?_⟩
  · unfold flushHeld holdTag receipt; rw [modPort_other _ _ _ _ e, modPort_other _ _ _ _ e, modPort_other _ _ _ _ e]; rfl
  · unfold flushHeld holdTag receipt; rw [modPort_same, modPort_same, modPort_same]; rfl

/-- A port that receives a flush read holds and notes it. -/
theorem recvFlush_held {p : Port} {tag : Nat} {h : Hdr} {s : State} (ho : portOpen s p = true) (hroom : npRoom s p = true)
    (hrx : s.port[p].rx = []) (hr : Bar4Ready p (cleared s)) :
    recvNonPosted p 0 4 tag h (.flush tag) (cleared s) = flushHeld p tag h s :=
  recvNonPosted_taken (s := cleared s) ho hroom (by decide) hrx (congrArg some (takeFlush_noted (hr.received.held h)))

/-- Either request form of a flush read is taken as one. -/
theorem flushRead_taken {p : Port} {tag : BitVec 10} {c : Instr} {s : State} (hc : c = .flushRead p tag ∨
    (∃ pat, c = .bar4Read p pat 0 ⟨4, [false, false, false, false]⟩ tag)) (ho : portOpen s p = true) (hroom : npRoom s p = true)
    (hrx : s.port[p].rx = []) (hr : Bar4Ready p (cleared s)) : ∃ h, exec c s = .next (settle (flushHeld p tag.toNat h s)) := by
  obtain rfl | ⟨pat, rfl⟩ := hc
  · exact ⟨_, exec_run (flushReadOp p tag.toNat) rfl (recvFlush_held ho hroom hrx hr)⟩
  · exact ⟨_, exec_run (bar4ReadOp p pat.toNat 0 4 [false, false, false, false] tag.toNat) rfl (recvFlush_held ho hroom hrx hr)⟩

/-- The completion of a flush read, when no earlier write of its channel waits. -/
theorem flushDone_completes {p : Port} {tag k : Nat} {s : State} (hf : s.port[p].flush = [(tag, k)]) (hw : earlierWrites s p k = false) :
    let x := flushDone p tag s
    x = { s with port := x.port, out := s.out ++ sentBy s p [.cpl p tag 0 false 4 0 [0, 0, 0, 0]] } ∧ (∀ q, q ≠ p → x.port[q] = s.port[q]) ∧
      x.port[p] = { s.port[p] with l1 := false, flush := [], np := s.port[p].np.eraseP fun x => x.tag == tag } := by
  have hfind : s.port[p].flush.find? (fun f => f.1 == tag) = some (tag, k) := by rw [hf]; simp
  let s1 := modPort p (fun q => { q with flush := q.flush.erase (tag, k) }) s
  have hx : flushDone p tag s = dropTag p tag (sendOut p [.cpl p tag 0 false 4 0 [0, 0, 0, 0]] s1) := by
    have hw0 := complete_word p tag 0 0 s1 (by decide)
    unfold flushDone; rw [hfind]; dsimp only; rw [hw]; exact hw0
  have hecrc : ecrcGen s1 p = ecrcGen s p := ecrcGen_congr (by rw [modPort_same])
  intro x
  refine ⟨?_, fun q e => ?_, ?_⟩
  · unfold sentBy; rw [← hecrc]; simp only [x, hx]; rfl
  · obtain ⟨hq, -⟩ := readEnded_sent p tag (.cpl p tag 0 false 4 0 [0, 0, 0, 0]) s1
    rw [show x = _ from hx]; exact (hq q e).trans (modPort_other _ _ _ _ e)
  · simp only [x, hx]; unfold dropTag sendOut
    rw [modPort_same, modPort_same, show ({ s1 with out := _ } : State).port[p] = s1.port[p] from rfl, modPort_same, hf, List.erase_cons_head]

/-- With an earlier write waiting, nothing happens. -/
theorem flushDone_waits {p : Port} {tag k : Nat} {s : State} (hf : s.port[p].flush = [(tag, k)]) (hw : earlierWrites s p k = true) :
    flushDone p tag s = s := by
  have hfind : s.port[p].flush.find? (fun f => f.1 == tag) = some (tag, k) := by rw [hf]; simp
  unfold flushDone; rw [hfind]; exact if_pos hw

/-! Entries at their time (R135, R136) -/

section
variable {s : State} {e : MEntry}

/-- An entry at its time is closed, and nothing else is to do. -/
theorem entryExpire_closes (hq : NothingQueued (entriesGone s)) (ho : s.vot.openE = [e]) (hp : e.phase ≠ .started) :
    endPump (entryExpire e.k e.pat s) = closeEntry e s := by
  have hfind : findOpen s e.k e.pat = some e := by unfold findOpen; rw [ho]; simp
  obtain ⟨-, ⟨hmnt, -, hpwr, -⟩, hrng, hseg⟩ := closeEntry_keeps e s
  have hidle : NothingQueued (closeEntry e s) :=
    ((addClosed_ends e s).trans (closeEntry_ends ho)).nothingQueued hseg hmnt hrng hpwr hq
  unfold entryExpire; rw [hfind]; dsimp only
  rw [beq_false_of_ne hp, if_neg Bool.false_ne_true, hidle.idle]

theorem dropClosed_last (hc : s.vot.closedE = [e]) :
    dropClosed e s = dropHeld e.k e.pat { s with vot := { s.vot with closedE := [] } } := by
  unfold dropClosed; rw [hc]; simp

/-- A closed entry is retired, and nothing else is to do. -/
theorem closedRetire_drops (hq : NothingQueued (entriesGone s)) (ho : s.vot.openE = []) (hc : s.vot.closedE = [e]) :
    endPump (closedRetire e.k e.pat s) = dropClosed e s := by
  have hfind : s.vot.closedE.find? (fun f => f.k == e.k && f.pat == e.pat) = some e := by rw [hc]; simp
  have hidle : NothingQueued (dropClosed e s) := by
    have hends : ChannelsEnd { s with vot := { s.vot with closedE := [] } } (dropClosed e s) := by
      rw [dropClosed_last hc]; exact (ChannelsEnd.refl _).dropHeld _ _
    obtain ⟨-, hq⟩ := hq
    exact hends.nothingQueued (by simp) (by simp) (by simp) (by simp) ⟨ho, hq⟩
  unfold closedRetire; rw [hfind]; dsimp only
  rw [hidle.idle]

end

end Sys2Proof.Machine

open Sys2Proof Sys2Proof.Machine
/-- Settles O26: a flush read is held until no earlier write waits; an entry at its time closes, whatever its phase but started, and is the last
of the closed part; the retirement of a closed entry drops it alone. -/
theorem matchTimes : Obligations.MatchTimes := by
  unfold Obligations.MatchTimes
  intro p s hdel hb
  refine ⟨fun tag ho => ⟨fun hon hrx hsv hrun hroom c hc => ?_, fun k hf => ⟨fun hw => ?_, fun hw => ?_⟩⟩, ?_⟩
  · obtain ⟨h, hx⟩ := flushRead_taken hc ho hroom hrx ⟨hon, hsv, hrun⟩
    obtain ⟨hs, hother, hself⟩ := flushHeld_port p tag.toNat h s
    exact completes_quiet hx hdel ⟨hs, hother, h, hself⟩
  · have hx := flushDone_completes (s := cleared s) hf hw
    obtain ⟨hx, hother, hself⟩ := hx
    refine completes_quiet (exec_run (flushDone p tag.toNat) rfl rfl) ?_ ⟨hx, hother, hself⟩
    rw [hx]; exact hdel
  · exact completes_quiet (exec_run (flushDone p tag.toNat) rfl (flushDone_waits hf hw)) hdel rfl
  · rintro k pat e rfl hpat hq hg he
    have hboot : ∀ {x : State}, x.pwr = (cleared s).pwr → x.pwr.boot ≠ .inReset := fun hp => by
      rw [hp, show (cleared s).pwr.boot = _ from hb]; decide
    refine ⟨fun hopen hph => ?_, fun hopen hclosed => ?_⟩
    · have hx : exec (.matchEntryExpire e.k pat) s = .next (settle (closeEntry e (cleared s))) := by
        refine exec_run (fun s => endPump (entryExpire e.k pat.toNat s)) rfl ?_
        rw [← hpat]; exact entryExpire_closes (s := cleared s) hq hopen hph
      have hends := closeEntry_ends (s := cleared s) hopen
      obtain ⟨-, ⟨-, -, hpwr, -⟩, -⟩ := closeEntry_keeps e (cleared s)
      have hopen2 : (closeEntry e (cleared s)).vot.openE = [] := hends.openE ((addClosed_ends e (cleared s)).openE rfl)
      obtain ⟨f, hf, hk, hp⟩ := hends.closed e (addClosed_mem e _)
      refine completes_settle hx ⟨by rw [settle_vot, hopen2], ⟨f, by rw [settle_vot]; exact hf, hk, hp.trans hpat⟩, by simp,
        fun hm hmode => ?_, fun m hm hmode ⟨c, hst, hal, hout⟩ => ?_⟩
      · have hraise := closeEntry_noMajority (s := cleared s) hm hmode
        refine ⟨event_seen rfl (hboot hpwr) (by rw [hraise]; exact raise_mem _ _), fun hr => ?_⟩
        obtain ⟨hch, hregs⟩ := copiesGone_write (cleared s) hr
        rw [hraise]; exact ⟨by simpa using hch, (settle_regs _).trans hregs⟩
      · exact event_seen rfl (hboot hpwr) (closeEntry_divergence (s := cleared s) hm hmode hst hal hout)
    · have hevh : (dropClosed e (cleared s)).evh = s.evh := by simp
      refine completes_quiet (x := dropClosed e (cleared s)) ?_ (by unfold Delivered; rw [hevh]; exact hdel)
        ⟨by rw [dropClosed_last (s := cleared s) hclosed]; simp, ?_⟩
      · refine exec_run (fun s => endPump (closedRetire e.k pat.toNat s)) rfl ?_
        rw [← hpat]; exact closedRetire_drops (s := cleared s) hq hopen hclosed
      · simp
end

section
/-!
SUPPORT. What the failure of an access leaves alone (R80, R172): the counters of the segments, the operations in progress, the accesses that wait
in a slave, an empty match table, the power state, and what has occurred.
-/

namespace Sys2Proof.Machine

open Sys2Proof

/-- What a pump looks at in a segment's state. -/
def segBusy (x : SegS) : Option Eng × Option SlvWait × Bool := (x.eng, x.slvWait, x.sysresetLow)

/-- The registers of a segment that a failure is counted in, or that say whether it masters. -/
def failRegs : List Nat := [0x040, 0x058, 0x05C]

/-- From `s` to `t` the failure of an access is worked off. -/
structure FailKeeps (s t : State) : Prop where
  occ : Grows s t
  regs : ∀ (g : Seg), ∀ off ∈ failRegs, getReg t (.ls g) off = getReg s (.ls g) off
  busy : ∀ g : Seg, segBusy t.seg[g] = segBusy s.seg[g]
  pwr : t.pwr = s.pwr
  openE : s.vot.openE = [] → t.vot.openE = []
  waiting : s.vot.waiting = [] → t.vot.waiting = []

namespace FailKeeps

variable {s t u : State}

theorem of_same (hr : t.regs = s.regs) (hs : ∀ g : Seg, segBusy t.seg[g] = segBusy s.seg[g]) (hp : t.pwr = s.pwr) (hv : t.vot = s.vot)
    (he : Grows s t) : FailKeeps s t :=
  ⟨he, fun _ _ _ => getReg_congr hr _ _, hs, hp, fun h => by rw [hv]; exact h, fun h => by rw [hv]; exact h⟩

theorem refl (s : State) : FailKeeps s s := of_same rfl (fun _ => rfl) rfl rfl (.refl s)

theorem trans (h1 : FailKeeps s t) (h2 : FailKeeps t u) : FailKeeps s u where
  occ := h1.occ.trans h2.occ
  regs g off h := (h2.regs g off h).trans (h1.regs g off h)
  busy g := (h2.busy g).trans (h1.busy g)
  pwr := h2.pwr.trans h1.pwr
  openE h := h2.openE (h1.openE h)
  waiting h := h2.waiting (h1.waiting h)

theorem eng (h : FailKeeps s t) (g : Seg) : t.seg[g].eng = s.seg[g].eng := congrArg (fun x => x.1) (h.busy g)

theorem slvWait (h : FailKeeps s t) (g : Seg) : t.seg[g].slvWait = s.seg[g].slvWait := congrArg (fun x => x.2.1) (h.busy g)

theorem sysresetLow (h : FailKeeps s t) (g : Seg) : t.seg[g].sysresetLow = s.seg[g].sysresetLow := congrArg (fun x => x.2.2) (h.busy g)

/-- Nothing of it changes. -/
theorem keeps (h : FailKeeps s t) (hr : u.regs = t.regs) (hs : u.seg = t.seg) (hp : u.pwr = t.pwr) (hv : u.vot = t.vot) (he : u.evh = t.evh) :
    FailKeeps s u := h.trans (of_same hr (fun g => by rw [hs]) hp hv (grows_of_evh he))

theorem ite {c : Prop} [Decidable c] (h1 : FailKeeps s t) (h2 : FailKeeps s u) : FailKeeps s (if c then t else u) := by
  split
  · exact h1
  · exact h2

theorem foldl {α : Type} {f : State → α → State} (hf : ∀ s a, FailKeeps s (f s a)) (l : List α) (h : FailKeeps s t) :
    FailKeeps s (l.foldl f t) := by
  induction l generalizing t with
  | nil => exact h
  | cons a l ih => exact ih (h.trans (hf t a))

theorem raisedD (h : FailKeeps s t) (ev : Nat) (a b : Word) : FailKeeps s (raiseD ev a b t) :=
  h.trans (of_same rfl (fun _ => rfl) rfl rfl (raiseD_grows ev a b t))

theorem raised (h : FailKeeps s t) (ev : Nat) : FailKeeps s (raise ev t) := h.raisedD ev 0 0

theorem modSeg (h : FailKeeps s t) (g : Seg) {f : SegS → SegS} (hf : ∀ x, segBusy (f x) = segBusy x := by intro; rfl) :
    FailKeeps s (modSeg g f t) := by
  refine h.trans (of_same rfl (fun d => ?_) rfl rfl (grows_of_evh rfl))
  by_cases e : d = g
  · subst e; rw [modSeg_self, hf]
  · rw [modSeg_other _ _ _ _ e]

theorem crl (h : FailKeeps s t) (c : Creel) : FailKeeps s { t with crl := c } := h.keeps rfl rfl rfl rfl rfl

theorem rng (h : FailKeeps s t) (r : Rng) : FailKeeps s { t with rng := r } := h.keeps rfl rfl rfl rfl rfl

/-- A register that counts no failure is written. -/
theorem setReg (h : FailKeeps s t) {k : PageKind} {off : Nat} (hk : ∀ g : Seg, ∀ o ∈ failRegs, regAddr (.ls g) o ≠ regAddr k off) (w : Word) :
    FailKeeps s (setReg k off w t) :=
  h.trans { FailKeeps.refl t with regs := fun g o ho => getReg_setReg_ne (hk g o ho) w t }

/-! Lists -/

theorem loseCopy (h : FailKeeps s t) (p : Pkt) : FailKeeps s (loseCopy p t) :=
  h.trans { refl t with openE := fun h => by simp [Machine.loseCopy, h], waiting := fun h => by simp [Machine.loseCopy, h] }

theorem resetList (h : FailKeeps s t) (q : Nat) : FailKeeps s (resetList q t) := by
  have crl : ∀ c : Creel, FailKeeps s { t with crl := c } := fun c => h.keeps rfl rfl rfl rfl rfl
  unfold Machine.resetList; extract_lets e cells pkts c c1 c2 s1
  exact raisedD (ite (foldl (fun s (x : Nat × Pkt) => (refl s).loseCopy x.2) pkts (crl c2)) (crl c2)) _ _ _

theorem useList (h : FailKeeps s t) (q : Nat) : FailKeeps s (useList q t) := ite (h.resetList q) h

theorem linkPkt (h : FailKeeps s t) (q : Nat) (p : Pkt) : FailKeeps s (linkPkt q p t) := (h.useList q).keeps rfl rfl rfl rfl rfl

theorem popPkt (h : FailKeeps s t) (q : Nat) : FailKeeps s (popPkt q t) := by
  unfold Machine.popPkt; extract_lets u
  have hu : FailKeeps s u := h.useList q
  split
  · exact hu.keeps rfl rfl rfl rfl rfl
  · exact hu.keeps rfl rfl rfl rfl rfl

theorem takeHead (h : FailKeeps s t) (q : Nat) : FailKeeps s (takeHead q t).2 := by
  unfold Machine.takeHead; extract_lets u
  have hu : FailKeeps s u := h.useList q
  split
  · exact hu.keeps rfl rfl rfl rfl rfl
  · exact hu

theorem moveHead (h : FailKeeps s t) (q q2 : Nat) (bs : List Byte) (status : Nat) : FailKeeps s (moveHead q q2 bs status t) := by
  have ht := h.takeHead q
  unfold Machine.moveHead; split
  · rename_i p s1 e
    simp only [e] at ht
    exact linkPkt (ht.crl _) _ _
  · rename_i s1 e
    simp only [e] at ht
    exact ht

theorem claim (h : FailKeeps s t) {q n : Nat} {cells : List Nat} (hc : claim q n t = some (cells, u)) : FailKeeps s u := by
  unfold Machine.claim at hc; dsimp only at hc
  split at hc
  · obtain ⟨-, rfl⟩ := Prod.mk.inj (Option.some.inj hc)
    have hl : ∀ c : Creel, FailKeeps s { Machine.useList 63 t with crl := c } := fun c => (h.useList 63).keeps rfl rfl rfl rfl rfl
    unfold raiseIf
    exact ite ((hl _).raised 118) (hl _)
  · cases hc

theorem queueResponse (h : FailKeeps s t) (p : Pkt) : FailKeeps s (queueResponse p t) := by
  unfold Machine.queueResponse; split
  · rename_i cells s1 hc
    exact linkPkt ((h.claim hc).crl _) _ _
  · exact h.keeps rfl rfl rfl rfl rfl

theorem drainAnswers (h : FailKeeps s t) (n : Nat) : FailKeeps s (drainAnswers n t) := by
  induction n generalizing t with
  | zero => exact h
  | succ n ih =>
    unfold Machine.drainAnswers; split
    · exact ite (ih (queueResponse (h.rng _) _)) h
    · exact h

theorem ringPump (h : FailKeeps s t) (n : Nat) : FailKeeps s (ringPump n t) := by
  induction n generalizing t with
  | zero => exact h
  | succ n ih =>
    have ht := h.takeHead 23
    unfold Machine.ringPump; split
    · dsimp only; refine ite h ?_
      split
      · rename_i p s1 e
        simp only [e] at ht
        exact ih (ht.linkPkt _ _)
      · rename_i s1 e
        simp only [e] at ht
        exact ht
    · exact h

theorem slavePump (h : FailKeeps s t) (g : Seg) (n : Nat) : FailKeeps s (slavePump g n t) := by
  induction n generalizing t with
  | zero => exact h
  | succ n ih =>
    have ht := h.takeHead (14 + g.val)
    unfold Machine.slavePump; split
    · dsimp only; refine ite h ?_
      split
      · rename_i p s1 e
        simp only [e] at ht
        exact ih (ite (rng (ht.linkPkt 20 _) _) (ht.linkPkt _ _))
      · rename_i s1 e
        simp only [e] at ht
        exact ht
    · exact h

/-! The end of a failed access -/

theorem pulse (h : FailKeeps s t) {pair ev : Nat} (a b : Word) : FailKeeps s (pulse pair ev a b t) := by
  have hf : FailKeeps s (tookFree t) := h.keeps rfl rfl rfl rfl rfl
  have hclk : FailKeeps s (putFld .clk 0x048 pair pair 1 (tookFree t)) :=
    hf.setReg (fun g o ho => by fin_cases g <;> fin_cases ho <;> decide) _
  exact ite (ite (hclk.raised 12) (hf.raisedD _ _ _)) (h.raisedD _ _ _)

theorem slaveAnswer (h : FailKeeps s t) (g : Seg) (a : Nat) (bs : List Byte) : FailKeeps s (slaveAnswer g a bs t) := by
  have h1 : FailKeeps s (Machine.modSeg g (fun x => { x with pins := { x.pins with
    dtack := a == 0, berr := a != 0, retry := a == 2, groupR := true } }) (emit (.slave g a bs) t)) :=
    modSeg (h.keeps (u := emit (.slave g a bs) t) rfl rfl rfl rfl rfl) g fun _ => rfl
  exact ite (h1.raised _) (ite (h1.raised _) h1)

theorem dropDr (h : FailKeeps s t) (g : Seg) (id : Nat) : FailKeeps s (dropDr g id t) :=
  h.keeps (by simp) (by simp) (by simp) (by simp) (by simp)

theorem fwdReadResult (h : FailKeeps s t) (g : Seg) (id : Nat) (r : Bool × List Byte) : FailKeeps s (fwdReadResult g id r t) := by
  have free : ∀ {t : State} (k : Fin 4), FailKeeps s t → FailKeeps s (freeSlot g k t) := by
    intro t k h; unfold freeSlot; split
    · exact (h.modSeg g).dropDr g _
    · exact h
  unfold Machine.fwdReadResult; split
  · exact ite (ite ((free _ (h.modSeg g)).slaveAnswer g 1 []) ((free _ (h.modSeg g)).slaveAnswer g 0 r.2))
      (h.modSeg g)
  · exact h.dropDr g id

theorem recError (h : FailKeeps s t) (p : Pat) : FailKeeps s (recError p t) := h.keeps (by simp) (by simp) (by simp) (by simp) (by simp)

theorem mailDone (h : FailKeeps s t) (failed : Bool) (code : Nat) (bs : List Byte) : FailKeeps s (mailDone failed code bs t) :=
  h.keeps (by simp) (by simp) (by simp) (by simp) (by simp)

/-- The outcome of a failed access, while no operation is matched. -/
theorem failOutcome (h : FailKeeps s t) (ho : s.vot.openE = []) (a : Acc) (code : Nat) : FailKeeps s (failOutcome a code t) := by
  unfold Machine.failOutcome; extract_lets p
  split
  · refine h.keeps ?_ ?_ ?_ ?_ ?_ <;> simp
  · rename_i k pat _
    have hm := h.moveHead a.queue 4 [] 0
    have hnone : findOpen (Machine.moveHead a.queue 4 [] 0 t) (BitVec.ofNat 32 k) pat = none := by unfold findOpen; rw [hm.openE ho]; rfl
    refine ite ((h.recError p).popPkt _) ?_
    unfold readResult; rw [hnone]
    exact hm.keeps (by simp) (by simp) (by simp) (by simp) (by simp)
  · refine ite ((h.recError p).popPkt _) ?_
    split
    · exact ite (h.moveHead _ _ _ _) ((h.popPkt _).queueResponse _)
    · exact h
  · exact h.popPkt _
  · exact (h.moveHead _ _ _ _).fwdReadResult _ _ _
  · exact h.mailDone _ _ _
  · rename_i g2 level _
    have h1 := (h.popPkt a.queue).modSeg g2 (f := fun x => { x with
        hdlBusy := x.hdlBusy.filter (· != level), irqIn := withBits x.irqIn level level 0 }) fun _ => rfl
    exact (h1.setReg (off := 0x004) (fun g o ho => by fin_cases g <;> fin_cases g2 <;> fin_cases ho <;> decide) _).pulse _ _

theorem finishFail (h : FailKeeps s t) (ho : s.vot.openE = []) (g : Seg) (a : Acc) (addr code : Nat) :
    FailKeeps s (finishFail g a addr code t) := ((h.modSeg g).pulse _ _).failOutcome ho a code

theorem dropBus (h : FailKeeps s t) (g : Seg) : FailKeeps s (dropBus g t) := by
  unfold Machine.dropBus; exact h.modSeg g

theorem tenureEnd (h : FailKeeps s t) (g : Seg) : FailKeeps s (tenureEnd g t) := by
  unfold Machine.tenureEnd; exact h.modSeg g

/-! The pumps after it -/

theorem master (h : FailKeeps s t) (g : Seg) : masterOk t g = masterOk s g := by
  unfold masterOk segAvail
  rw [segCfg_congr (h.regs g 0x040 (by decide)), segCfg_congr (h.regs g 0x040 (by decide)), h.pwr, h.sysresetLow g]

/-- The pump after a failure: the ring's queues go on, and a segment without work gives its bus up. -/
theorem pump_of (ho : s.vot.openE = []) (hw : s.vot.waiting = []) (hleg : s.mnt.leg = none) (hm : ∀ g, masterOk s g = true) :
    FailKeeps s (pump s) ∧ (pump s).mnt = s.mnt ∧ (pump s).img = s.img ∧ (pump s).lom = s.lom := by
  have hmail : mailPump (voteUnit s) = s := by rw [voteUnit_idle ho hw]; unfold mailPump; rw [hleg]
  have flush : ∀ {t : State} (g : Seg), FailKeeps s t → segFlush g t = Machine.dropBus g t := fun g h => by
    unfold segFlush; rw [h.master g, hm g]; rfl
  unfold pump; dsimp only; rw [hmail]
  generalize hu : Machine.drainAnswers _ _ = u
  have h2 : FailKeeps s u := by rw [← hu]; exact ((refl s).ringPump _).drainAnswers _
  have h2m : u.mnt = s.mnt ∧ u.img = s.img ∧ u.lom = s.lom := by rw [← hu]; simp
  rw [flush 0 h2, flush 1 (h2.dropBus 0)]
  exact ⟨(h2.dropBus 0).dropBus 1, by simpa using h2m⟩

/-- The end of the command then: what a slave has accepted goes on. -/
theorem endPump_of (hs : ∀ g : Seg, s.seg[g].slvWait = none) :
    FailKeeps s (endPump s) ∧ (endPump s).mnt = s.mnt ∧ (endPump s).img = s.img ∧ (endPump s).lom = s.lom := by
  have resume : ∀ {t : State} (g : Seg), FailKeeps s t → slaveResume g t = t := fun {t} g h => by
    have hn : t.seg[g].slvWait = none := (h.slvWait g).trans (hs g)
    unfold slaveResume; rw [hn]
  unfold endPump slavePumps; dsimp only
  rw [resume 0 (refl s)]
  have h0 := (refl s).slavePump 0 (slaveList s 0).length
  rw [resume 1 h0]
  exact ⟨h0.slavePump 1 _, by simp⟩

end FailKeeps

/-! A cycle that fails -/

/-- The mailbox's claim is as before a failed access. -/
theorem failOutcome_leg (a : Acc) (code : Nat) (s : State) : (failOutcome a code s).mnt.leg = s.mnt.leg := by
  unfold failOutcome; dsimp only
  split
  · split <;> simp
  · split <;> simp
  · split
    · simp
    · split
      · split <;> simp
      · rfl
  · simp
  · simp
  · unfold mailDone; simp
  · simp

theorem finishFail_leg (g : Seg) (a : Acc) (addr code : Nat) (s : State) : (finishFail g a addr code s).mnt.leg = s.mnt.leg := by
  unfold finishFail; rw [failOutcome_leg]; simp

/-- The event of a failed access occurs. -/
theorem pulse_occurs (pair ev : Nat) (a b : Word) (s : State) : ∃ o ∈ (pulse pair ev a b s).evh.occ, o.ev = ev := by
  unfold pulse; dsimp only
  split
  · rename_i h
    obtain ⟨o, ho, e⟩ := List.any_eq_true.1 h
    have hs : ∃ o ∈ s.evh.occ, o.ev = ev := ⟨o, ho, eq_of_beq e⟩
    split
    · exact Grows.has (s := s) (raise_grows 12 _) hs
    · exact raiseD_mem _ _ _ _
  · exact raiseD_mem _ _ _ _

theorem finishFail_occurs {g : Seg} (a : Acc) (addr code : Nat) {s : State} (ho : s.vot.openE = []) :
    ∃ o ∈ (finishFail g a addr code s).evh.occ, o.ev = segEv g 2 := by
  unfold finishFail
  generalize hp : pulse _ _ _ _ _ = p
  have hv : p.vot.openE = [] := by rw [← hp]; simpa using ho
  exact Grows.has (FailKeeps.failOutcome (.refl p) hv a code).occ (by rw [← hp]; exact pulse_occurs _ _ _ _ _)

/-- A stopped engine leaves what a pump looks at but the engine itself. -/
theorem engStop_busy (g h : Seg) (s : State) : (engStop g s).seg[h].slvWait = s.seg[h].slvWait ∧ masterOk (engStop g s) h = masterOk s h := by
  have hseg : (engStop g s).seg[h].slvWait = s.seg[h].slvWait ∧ (engStop g s).seg[h].sysresetLow = s.seg[h].sysresetLow := by
    unfold engStop
    by_cases e : h = g
    · subst e; rw [modSeg_self]; exact ⟨rfl, rfl⟩
    · rw [modSeg_other _ _ _ _ e]; exact ⟨rfl, rfl⟩
  refine ⟨hseg.1, ?_⟩
  unfold masterOk segAvail; rw [hseg.2]; rfl

/-- Segment `g` is in the cycle of engine `e`, the segments master, and nothing is matched or waits in the mailbox or in a slave. -/
structure InCycle (g : Seg) (e : Eng) (s : State) : Prop where
  eng : s.seg[g].eng = some e
  openE : s.vot.openE = []
  waiting : s.vot.waiting = []
  leg : s.mnt.leg = none
  master : ∀ g, masterOk s g = true
  slaves : ∀ g : Seg, s.seg[g].slvWait = none

theorem Quiet.inCycle {s : State} {g : Seg} {e : Eng} (h : Quiet s) (he : s.seg[g].eng = some e) : InCycle g e s := by
  obtain ⟨-, -, ⟨ho, hw, hl, -, -, hs, -⟩, hm, -⟩ := h
  exact ⟨he, ho, hw, hl, hm, fun g => (hs g).1⟩

theorem InCycle.keeps {s t : State} {g : Seg} {e : Eng} (h : InCycle g e s) (hk : FailKeeps s t) (hl : t.mnt = s.mnt) : InCycle g e t where
  eng := (hk.eng g).trans h.eng
  openE := hk.openE h.openE
  waiting := hk.waiting h.waiting
  leg := by rw [hl]; exact h.leg
  master d := (hk.master d).trans (h.master d)
  slaves d := (hk.slvWait d).trans (h.slaves d)

/-- A counter of the segment goes on. -/
theorem InCycle.counted {s : State} {g : Seg} {e : Eng} (h : InCycle g e s) {off : Nat} (hoff : off ≠ 0x040) (ho : off < 0x1000) (n : Nat) :
    InCycle g e (incReg (.ls g) off n s) where
  eng := h.eng
  openE := h.openE
  waiting := h.waiting
  leg := h.leg
  master d := by
    have hne : regAddr (.ls d) 0x040 ≠ regAddr (.ls g) off := by
      have hd := d.isLt; have hg := g.isLt
      unfold regAddr PageKind.num; dsimp only; omega
    have hreg : getReg (incReg (.ls g) off n s) (.ls d) 0x040 = getReg s (.ls d) 0x040 := getReg_setReg_ne hne _ s
    have hm := h.master d
    unfold masterOk segAvail at *
    rw [segCfg_congr hreg, segCfg_congr hreg]; exact hm
  slaves := h.slaves

/-- The engine has stopped, and its access has ended as failed. -/
def accessFailed (g : Seg) (e : Eng) (code : Nat) (s : State) : State := finishFail g e.acc (engAddr e) code (engStop g s)

theorem accessFailed_occurs {g : Seg} {e : Eng} (code : Nat) {s : State} (ho : s.vot.openE = []) :
    ∃ o ∈ (accessFailed g e code s).evh.occ, o.ev = segEv g 2 := by unfold accessFailed; exact finishFail_occurs _ _ _ ho

/-- A failure of the mailbox's access ends its command with the code. -/
theorem accessFailed_mailbox {g : Seg} {e : Eng} {code : Nat} (s : State) (h : e.acc.origin = .mailbox) :
    (accessFailed g e code s).mnt = { s.mnt with legEnd := some (true, code, []) } ∧ (accessFailed g e code s).img = s.img := by
  unfold accessFailed finishFail failOutcome mailDone; dsimp only; rw [h]; simp

/-- A failure of a scheduled access is the end of its entry. -/
theorem accessFailed_sched {g : Seg} {e : Eng} {code i n due : Nat} (s : State) (h : e.acc.origin = .sched i n due) :
    (accessFailed g e code s).lom = { s.lom with completed := s.lom.completed ++ (if n = cyc s then [i] else []) } ∧
      (accessFailed g e code s).mnt = s.mnt := by
  have done : ∀ t : State, t.lom = s.lom →
      (entryDone i n t).lom = { s.lom with completed := s.lom.completed ++ (if n = cyc s then [i] else []) } := by
    intro t ht
    unfold entryDone cyc; rw [ht]
    split
    · rfl
    · rw [List.append_nil]; exact ht
  unfold accessFailed finishFail failOutcome; dsimp only; rw [h]; dsimp only
  cases e.acc.write
  · exact ⟨done _ (by simp), by simp⟩
  · exact ⟨done _ (by simp), by simp⟩

theorem cycleFail_eq {g : Seg} {e : Eng} (code : Nat) {s : State} (he : s.seg[g].eng = some e) :
    cycleFail g code s = tenureEnd g (pump (accessFailed g e code s)) := by
  unfold cycleFail accessFailed; rw [he]

/-- The end of a command that fails the cycle of segment `g`. -/
def cycleFailed (g : Seg) (code : Nat) (s : State) : State := endPump (cycleFail g code s)

/-- A cycle that fails stops the engine; its access ends as failed, and what can go on does. -/
theorem cycleFail_works {g : Seg} {e : Eng} {code : Nat} {s : State} (h : InCycle g e s) :
    FailKeeps (engStop g s) (accessFailed g e code s) ∧ FailKeeps (accessFailed g e code s) (cycleFailed g code s) ∧
      (cycleFailed g code s).mnt = (accessFailed g e code s).mnt ∧ (cycleFailed g code s).img = (accessFailed g e code s).img ∧
      (cycleFailed g code s).lom = (accessFailed g e code s).lom := by
  obtain ⟨he, ho, hw, hleg, hm, hs⟩ := h
  generalize hf : accessFailed g e code s = f
  have h1 : FailKeeps (engStop g s) f := by
    rw [← hf]; exact (FailKeeps.refl (engStop g s)).finishFail ho g e.acc (engAddr e) code
  have hleg : f.mnt.leg = none := by rw [← hf]; exact (finishFail_leg _ _ _ _ _).trans hleg
  obtain ⟨h2, m2, i2, l2⟩ := FailKeeps.pump_of (s := f) (h1.openE ho) (h1.waiting hw)
    hleg fun d => (h1.master d).trans ((engStop_busy g d s).2.trans (hm d))
  have h3 : FailKeeps f (tenureEnd g (pump f)) := h2.tenureEnd g
  obtain ⟨h4, m4, i4, l4⟩ := FailKeeps.endPump_of (s := tenureEnd g (pump f)) fun d =>
    ((h3.slvWait d).trans (h1.slvWait d)).trans ((engStop_busy g d s).1.trans (hs d))
  have ht : cycleFailed g code s = endPump (tenureEnd g (pump f)) := by
    unfold cycleFailed; rw [cycleFail_eq code he, hf]
  rw [ht]
  exact ⟨h1, h3.trans h4, m4.trans (by simpa using m2), i4.trans (by simpa using i2), l4.trans (by simpa using l2)⟩

/-- A failure that is counted at register `off`: the counter, the event, the idle engine, and what the mailbox's or a scheduled access leaves. -/
theorem cycleFail_counted {g : Seg} {e : Eng} {code off : Nat} {x t : State} (h : InCycle g e x) (hoff : off = 0x058 ∨ off = 0x05C)
    (ht : cycleFailed g code (incReg (.ls g) off 1 x) = t) :
    Grows x t ∧ t.pwr = x.pwr ∧ getReg t (.ls g) off = getReg x (.ls g) off + 1 ∧ (∃ o ∈ t.evh.occ, o.ev = segEv g 2) ∧
      t.seg[g].eng = none ∧ (e.acc.origin = .mailbox → t.mnt = { x.mnt with legEnd := some (true, code, []) } ∧ t.img = x.img) ∧
      (∀ i n due, e.acc.origin = .sched i n due →
        t.lom = { x.lom with completed := x.lom.completed ++ (if n = cyc x then [i] else []) } ∧ t.mnt = x.mnt) := by
  generalize hy : incReg (.ls g) off 1 x = y at ht
  have hc : InCycle g e y := by rw [← hy]; exact h.counted (by omega) (by omega) 1
  obtain ⟨h1, h2, hmnt, himg, hlom⟩ := cycleFail_works (code := code) hc
  rw [ht] at h2 hmnt himg hlom
  have h3 := h1.trans h2
  have hocc : ∃ o ∈ t.evh.occ, o.ev = segEv g 2 := h2.occ.has (accessFailed_occurs code hc.openE)
  have hreg : getReg t (.ls g) off = getReg x (.ls g) off + 1 := by
    have hmem : off ∈ failRegs := by rcases hoff with rfl | rfl <;> decide
    rw [h3.regs g off hmem, getReg_congr (s := y) (by simp), ← hy, getReg_incReg]; rfl
  have heng : t.seg[g].eng = none := by
    rw [h3.eng g]; unfold engStop; rw [modSeg_self]
  have hsame : y.evh = x.evh ∧ y.pwr = x.pwr ∧ y.mnt = x.mnt ∧ y.img = x.img ∧ y.lom = x.lom := by rw [← hy]; simp
  obtain ⟨ye, yp, ym, yi, yl⟩ := hsame
  have hgrows : Grows x (engStop g y) := grows_of_evh (by simpa using ye)
  have hpwr : t.pwr = x.pwr := by rw [h3.pwr]; simpa using yp
  refine ⟨hgrows.trans h3.occ, hpwr, hreg, hocc, heng, fun ho => ?_, fun i n due ho => ?_⟩
  · obtain ⟨m, i⟩ := accessFailed_mailbox (g := g) (code := code) y ho
    rw [← ym, ← yi]; exact ⟨hmnt.trans m, himg.trans i⟩
  · obtain ⟨l, m⟩ := accessFailed_sched (g := g) (code := code) y ho
    rw [← ym, ← yl, show cyc x = cyc y by unfold cyc; rw [yl]]; exact ⟨hlom.trans l, hmnt.trans m⟩

end Sys2Proof.Machine
end

section
/-!
SUPPORT. RETRY* within ERRPOL's limit and the end of its gap (R81).
-/

namespace Sys2Proof.Machine

open Sys2Proof

/-- The engine whose access waits in the retry gap. -/
def gapEng (e : Eng) (c : CycS) (cs : List CycS) : Eng :=
  let p := patOf e.acc.patE
  { e with todo := retryCycle p e c :: cs, beat := 0, retries := e.retries + 1, phases := phasesOf p (retryCycle p e c), rmwWrite := false,
           gap := true, hold := false, driving := false }

/-- The access has left the bus and waits in the gap. -/
def gapped (g : Seg) (e : Eng) (c : CycS) (cs : List CycS) (s : State) : State :=
  modSeg g (fun x => { x with paused := x.paused ++ [gapEng e c cs], owner := x.owner && (patOf e.acc.patE).atomic }) (engStop g s)

theorem gapped_seg (g : Seg) (e : Eng) (c : CycS) (cs : List CycS) (s : State) :
    (∀ h, h ≠ g → (gapped g e c cs s).seg[h] = s.seg[h]) ∧
      (gapped g e c cs s).seg[g] = { s.seg[g] with
        eng := none, ahead := none, pins := idlePins s.seg[g].pins, paused := s.seg[g].paused ++ [gapEng e c cs],
        owner := s.seg[g].owner && (patOf e.acc.patE).atomic } := by
  unfold gapped engStop
  exact ⟨fun h hne => (modSeg_other _ _ _ _ hne).trans (modSeg_other _ _ _ _ hne), by rw [modSeg_self, modSeg_self]⟩

theorem gapped_slaves {g : Seg} {e : Eng} {c : CycS} {cs : List CycS} {s : State} (h : SlavesFree s) : SlavesFree (gapped g e c cs s) := by
  obtain ⟨hother, hself⟩ := gapped_seg g e c cs s
  intro d
  refine ⟨?_, (h d).2⟩
  by_cases hd : d = g
  · subst hd; rw [hself]; exact (h d).1
  · rw [hother d hd]; exact (h d).1

/-- RETRY* within the limit leaves the access among the paused ones. -/
theorem retrySeen_gap {g : Seg} {e : Eng} {c : CycS} {cs : List CycS} {s : State} (he : s.seg[g].eng = some e) (hd : e.driving = true)
    (ht : e.todo = c :: cs) (hcfg : tenureCfg s g 4 = true) (hr : e.retries < (patOf e.acc.patE).rtry) :
    retrySeen g s = gapped g e c cs s := by
  unfold retrySeen; rw [he]; dsimp only
  rw [hd, hcfg, ht]; dsimp only
  rw [if_neg (by decide), if_neg (by decide), if_neg (by omega)]; rfl

/-- RETRY* beyond the limit fails the access. -/
theorem retrySeen_fails {g : Seg} {e : Eng} {c : CycS} {cs : List CycS} {s : State} (he : s.seg[g].eng = some e) (hd : e.driving = true)
    (ht : e.todo = c :: cs) (hcfg : tenureCfg s g 4 = true) (hr : (patOf e.acc.patE).rtry ≤ e.retries) :
    retrySeen g s = cycleFail g 2 (incReg (.ls g) 0x05C 1 s) := by
  unfold retrySeen; rw [he]; dsimp only
  rw [hd, hcfg, ht]; dsimp only
  rw [if_neg (by decide), if_neg (by decide), if_pos hr]

/-- BERR* or the timer fails the access in progress. -/
theorem berrSeen_fails {g : Seg} {e : Eng} {code : Nat} {s : State} (he : s.seg[g].eng = some e) (hd : e.driving = true) :
    berrSeen g code s = cycleFail g code (incReg (.ls g) 0x058 1 s) := by
  unfold berrSeen; rw [he]; dsimp only; rw [hd, if_pos rfl]

/-- The one gap in progress ends. -/
theorem retryGapExpire_clears {g : Seg} {f : Eng} {s : State} (hp : s.seg[g].paused = [f]) (hg : f.gap = true) :
    (retryGapExpire g s).seg[g] = { s.seg[g] with paused := [{ f with gap := false }] } := by
  unfold retryGapExpire; rw [modSeg_self, hp]
  unfold retryGapExpire.clear; rw [if_pos hg]

/-- The bus timer's event, with BERR* driven for it. -/
def timerFired (g : Seg) (s : State) : State :=
  raise (segEv g 6) (modSeg g (fun x => { x with pins := { x.pins with berr := true } }) s)

theorem timerFired_keeps (g : Seg) (s : State) : FailKeeps s (timerFired g s) := by
  unfold timerFired; exact ((FailKeeps.refl s).modSeg g).raised _

theorem btoOp_fires {g : Seg} {s : State} (h : masterOk s g = true) (h3 : segCfg s g 3 = true) (hb : bitAt (getReg s (.ls g) 0x044) 2 = true) :
    btoOp g s = berrSeen g 2 (timerFired g s) := by
  unfold masterOk segAvail at h
  simp only [Bool.and_eq_true] at h
  unfold btoOp; rw [h3, hb, h.1.2]; rfl

theorem settled_seg (x : State) : (settle x).seg = x.seg := by simp
theorem settled_mnt (x : State) : (settle x).mnt = x.mnt := by simp
theorem settled_img (x : State) : (settle x).img = x.img := by simp
theorem settled_lom (x : State) : (settle x).lom = x.lom := by simp

end Sys2Proof.Machine

open Sys2Proof Sys2Proof.Machine
/-- Settles O38: a failed cycle stops the engine and ends its access, and what the pumps do after it touches neither the mailbox nor the Loom nor the
image; a retry within the limit only parks the access. -/
theorem cycleFailures : Obligations.CycleFailures := by
  unfold Obligations.CycleFailures
  intro g e c cs s hq he hdrive htodo
  have hin : InCycle g e (cleared s) := hq.inCycle (s := cleared s) he
  obtain ⟨hdel, hb, hnq, hmaster, -⟩ := hq
  have hboot : ∀ {x : State}, x.pwr = (cleared s).pwr → x.pwr.boot ≠ .inReset := fun hp => by
    rw [hp, show (cleared s).pwr.boot = _ from hb]; decide
  refine ⟨?_, fun h3 hbto => ?_, fun hcfg => ⟨fun hr => ?_, fun hr => ?_⟩, fun f hf hgap => ?_⟩
  · obtain ⟨-, hpwr, hcnt, hev, heng, hmail, hsched⟩ := cycleFail_counted (code := 1) hin (.inl rfl) rfl
    have hx : exec (.berrSeen g) s = .next (settle (cycleFailed g 1 _)) := exec_run (fun s => endPump (berrSeen g 1 s)) rfl
      (congrArg endPump (berrSeen_fails (s := cleared s) he hdrive))
    refine completes_settle hx ⟨(getReg_settle _ _ _).trans hcnt, event_seen (segEv_page g 2 (by decide)) (hboot hpwr) hev, ?_, fun ho => ?_,
      fun i n due ho => ?_⟩
    · rw [settled_seg]; exact heng
    · obtain ⟨hm, hi⟩ := hmail ho
      exact ⟨(settled_mnt _).trans hm, (settled_img _).trans hi⟩
    · obtain ⟨hl, hm⟩ := hsched i n due ho
      exact ⟨(settled_lom _).trans hl, (settled_mnt _).trans hm⟩
  · have hfired : InCycle g e (timerFired g (cleared s)) := hin.keeps (timerFired_keeps g _) rfl
    obtain ⟨hgrows, hpwr, hcnt, hev, heng, hmail, -⟩ := cycleFail_counted (code := 2) hfired (.inl rfl) rfl
    have hx : exec (.bto g) s = .next (settle (cycleFailed g 2 _)) := exec_run (fun s => endPump (btoOp g s)) rfl (congrArg endPump
      ((btoOp_fires (s := cleared s) (hmaster g) h3 hbto).trans (berrSeen_fails hfired.eng hdrive)))
    have hpwr := hpwr.trans (timerFired_keeps g (cleared s)).pwr
    have hcnt := hcnt.trans (congrArg (· + 1) ((timerFired_keeps g (cleared s)).regs g 0x058 (by decide)))
    have hseen : ∃ o ∈ (timerFired g (cleared s)).evh.occ, o.ev = segEv g 6 := raise_mem _ _
    refine completes_settle hx ⟨(getReg_settle _ _ _).trans hcnt, event_seen (segEv_page g 2 (by decide)) (hboot hpwr) hev,
      event_seen (segEv_page g 6 (by decide)) (hboot hpwr) (hgrows.has hseen), ?_, fun ho => ?_⟩
    · rw [settled_seg]; exact heng
    · exact (settled_mnt _).trans (hmail ho).1
  · obtain ⟨-, -, -, -, -, hfree, -⟩ := hnq
    have hslaves : SlavesFree (gapped g e c cs (cleared s)) := gapped_slaves hfree
    have hx := exec_run (c := .retrySeen g) (fun s => endPump (retrySeen g s)) rfl
      ((congrArg endPump (retrySeen_gap (s := cleared s) he hdrive htodo hcfg hr)).trans (endPump_idle _ hslaves))
    obtain ⟨hother, hself⟩ := gapped_seg g e c cs (cleared s)
    refine completes_quiet hx hdel ⟨⟨rfl, hother⟩, ?_⟩
    rw [hself]; exact ⟨rfl, rfl, rfl, rfl⟩
  · obtain ⟨-, hpwr, hcnt, hev, heng, hmail, -⟩ := cycleFail_counted (code := 2) hin (.inr rfl) rfl
    have hx : exec (.retrySeen g) s = .next (settle (cycleFailed g 2 _)) := exec_run (fun s => endPump (retrySeen g s)) rfl (congrArg endPump
      (retrySeen_fails (s := cleared s) he hdrive htodo hcfg hr))
    refine completes_settle hx ⟨(getReg_settle _ _ _).trans hcnt, event_seen (segEv_page g 2 (by decide)) (hboot hpwr) hev, ?_, fun ho => ?_⟩
    · rw [settled_seg]; exact heng
    · exact (settled_mnt _).trans (hmail ho).1
  · refine completes_quiet (exec_run (retryGapExpire g) rfl rfl) hdel ⟨⟨rfl, fun h hne => modSeg_other _ _ _ _ hne⟩, ?_⟩
    exact retryGapExpire_clears (s := cleared s) hf hgap
end

section
/-!
SUPPORT. The lists of the Creel through claims, releases and the delivery of events (R196 to R201, R342): the log's own list apart, a delivery
changes no list while no list has lost its pointers.
-/

namespace Sys2Proof.Machine

open Sys2Proof

/-- No list of the Creel has lost its pointers. -/
def PtrsGood (s : State) : Prop := ∀ q, (getQ s.crl q).ptrBad = false

theorem ListsGood.ptrs {s : State} (h : ListsGood s) : PtrsGood s := ptrBad_good h

/-- From `s` to `t` no list but list `q` changes, and none loses its pointers, where none had lost them. -/
def OtherLists (q : Nat) (s t : State) : Prop := PtrsGood s → PtrsGood t ∧ ∀ j, j ≠ q → listPkts t j = listPkts s j

namespace OtherLists

variable {q : Nat} {s t u : State}

theorem of_crl (h : t.crl = s.crl) : OtherLists q s t := fun hp => by
  unfold PtrsGood listPkts at *; rw [h]; exact ⟨hp, fun _ _ => rfl⟩

theorem refl (q : Nat) (s : State) : OtherLists q s s := of_crl rfl

theorem trans (h1 : OtherLists q s t) (h2 : OtherLists q t u) : OtherLists q s u := fun hp => by
  obtain ⟨p1, l1⟩ := h1 hp
  obtain ⟨p2, l2⟩ := h2 p1
  exact ⟨p2, fun j hj => (l2 j hj).trans (l1 j hj)⟩

theorem keeps (h : OtherLists q s t) (hc : u.crl = t.crl) : OtherLists q s u := h.trans (of_crl hc)

theorem ite {c : Prop} [Decidable c] (h1 : OtherLists q s t) (h2 : OtherLists q s u) : OtherLists q s (if c then t else u) := by
  split
  · exact h1
  · exact h2

theorem foldl {α : Type} {f : State → α → State} (hf : ∀ s a, OtherLists q s (f s a)) (l : List α) (h : OtherLists q s t) :
    OtherLists q s (l.foldl f t) := by
  induction l generalizing t with
  | nil => exact h
  | cons a l ih => exact ih (h.trans (hf t a))

/-- Queue `i` gets packets, or counts its cells anew. -/
theorem set {i : Nat} {c : Creel} {v : Queue} (hc : ∀ j, getQ c j = getQ s.crl j) (hi : i = q ∨ v.pkts = (getQ s.crl i).pkts)
    (hb : v.ptrBad = (getQ s.crl i).ptrBad) (ht : ∀ j, getQ t.crl j = getQ (setQ i v c) j) : OtherLists q s t := fun hp => by
  have hq : ∀ j, j ≠ i → getQ t.crl j = getQ s.crl j := fun j hj => by rw [ht, getQ_setQ_other hj, hc]
  have hv : getQ t.crl i = v := by rw [ht, getQ_setQ_same]
  refine ⟨fun j => ?_, fun j hj => ?_⟩
  · by_cases e : j = i
    · subst e; rw [hv, hb]; exact hp j
    · rw [hq j e]; exact hp j
  · unfold listPkts
    by_cases e : j = i
    · subst e; rw [hv]; exact hi.resolve_left hj
    · rw [hq j e]

theorem setPkts (h : OtherLists q s t) (ps : List Pkt) : OtherLists q s (setPkts q ps t) :=
  h.trans (set (c := t.crl) (v := { getQ t.crl q with pkts := ps }) (fun _ => rfl) (.inl rfl) rfl fun _ => rfl)

theorem releaseCells (h : OtherLists q s t) (i : Nat) (cells : List Nat) : OtherLists q s (releaseCells i cells t) :=
  h.trans (set (i := i) (c := t.crl) (v := { getQ t.crl i with held := (getQ t.crl i).held - cells.length }) (fun _ => rfl) (.inr rfl) rfl
    fun _ => rfl)

theorem useList (i : Nat) : OtherLists q s (useList i s) := fun hp => by rw [useList_sound (hp i)]; exact refl q s hp

theorem linkPkt (h : OtherLists q s t) (p : Pkt) : OtherLists q s (linkPkt q p t) := by
  let c := (Machine.useList q t).crl
  exact (h.trans (useList q)).trans
    (set (c := c) (v := { getQ c q with pkts := (getQ c q).pkts ++ [p] }) (fun _ => rfl) (.inl rfl) rfl fun _ => rfl)

theorem claim {i n : Nat} {cells : List Nat} (hc : claim i n s = some (cells, t)) : OtherLists q s t := by
  unfold Machine.claim at hc; dsimp only at hc
  split at hc
  · obtain ⟨-, rfl⟩ := Prod.mk.inj (Option.some.inj hc)
    refine (useList 63).trans ?_
    rw [raiseIf_eq]
    let c := (takeCells n (Machine.useList 63 s).crl).2
    exact set (i := i) (c := c) (v := { getQ c i with held := (getQ c i).held + n }) (fun _ => rfl) (.inr rfl) rfl fun _ => rfl
  · cases hc

/-- A log record goes to list 26 (R344). -/
theorem logRecord (o : Occ) : OtherLists 26 s (logRecord o s) := by
  have fill : ∀ {t : State} (m : SMap Byte), OtherLists 26 s t → OtherLists 26 s { t with crl := { t.crl with cell := m } } := fun m h hp => h hp
  unfold Machine.logRecord; extract_lets bs u
  have hu : OtherLists 26 s u := useList 26
  have lose : OtherLists 26 s (loseRecord o.ev u) := hu.keeps (by simp)
  split
  · refine ite ?_ (fill _ (hu.setPkts _))
    split
    · exact (fill _ (hu.trans (claim ‹_›))).linkPkt _
    · exact lose
  · split
    · exact (fill _ (hu.trans (claim ‹_›))).setPkts _
    · exact lose

theorem deliver (o : Occ) : OtherLists 26 s (deliver o s) := by
  have log : ∀ (b : Bool) {t : State}, OtherLists 26 s t → OtherLists 26 s (if b then Machine.logRecord o t else t) :=
    fun b t h => ite (h.trans (logRecord o)) h
  unfold Machine.deliver; dsimp only
  refine log _ (of_crl ?_)
  (repeat' split) <;> simp

theorem wave (s : State) : OtherLists 26 s (wave s) := by
  unfold Machine.wave; dsimp only
  exact foldl (fun s o => deliver o) _ (foldl (fun s e => of_crl (by simp)) _ (of_crl rfl))

theorem waves (n : Nat) (s : State) : OtherLists 26 s (waves n s) := by
  induction n generalizing s with
  | zero => exact of_crl rfl
  | succ n ih => unfold Machine.waves; exact ite (refl 26 s) ((wave s).trans (ih _))

end OtherLists

/-- The delivery of events changes the log's list alone. -/
theorem settle_lists {x : State} (h : PtrsGood x) {q : Nat} (hq : q ≠ 26) : listPkts (settle x) q = listPkts x q := by
  have hw : (settleWoken x).crl = x.crl := by unfold settleWoken settleStart; (repeat' split) <;> simp
  have he : (settle x).crl = (waves 300 (settleWoken x)).crl := by unfold settle settleWoken settleStart; generalize 300 = n; rfl
  obtain ⟨-, hl⟩ := ((OtherLists.of_crl hw).trans (OtherLists.waves 300 _)) h
  rw [← hl q hq]; unfold listPkts; rw [he]

/-! Claims -/

theorem claim_refused {q n : Nat} {s : State} (h : PtrsGood s) (hc : claimOk s.crl q n = false) : claim q n s = none := by
  unfold claim; rw [useList_sound (h 63)]; dsimp only; rw [hc]; rfl

end Sys2Proof.Machine
end

section
/-!
SUPPORT. A pump after a change of the lists of the ring (R312, R313): what it moves on, and when it does nothing.
-/

namespace Sys2Proof.Machine

open Sys2Proof

/-- The lists that a pump looks at. -/
def pumpLists : List Nat := [8, 9, 10, 11, 12, 13, 14, 15, 23]

theorem vapQ_mem (g : Seg) : vapQ g ∈ pumpLists := by fin_cases g <;> decide
theorem remQ_mem (g : Seg) : remQ g ∈ pumpLists := by fin_cases g <;> decide
theorem fwdQ_mem (g : Seg) : fwdQ g ∈ pumpLists := by fin_cases g <;> decide

/-- The state differs from `s` in the Creel, the event hub, the ring's requests and the mailbox's outcome alone. -/
def RingOnly (s t : State) : Prop :=
  t = { s with crl := t.crl, evh := t.evh, rng := t.rng, mnt := t.mnt } ∧ t.rng.answers = s.rng.answers ∧ t.mnt.leg = s.mnt.leg

theorem RingOnly.trans {s t u : State} (h1 : RingOnly s t) (h2 : RingOnly t u) : RingOnly s u := by
  obtain ⟨e1, a1, l1⟩ := h1
  obtain ⟨e2, a2, l2⟩ := h2
  refine ⟨?_, a2.trans a1, l2.trans l1⟩
  rw [e2, e1]

/-- With the lists of a pump as they were, nothing is queued. -/
theorem RingOnly.nothingQueued {s t : State} (h : RingOnly s t) (hl : ∀ j ∈ pumpLists, listPkts t j = listPkts s j) (hq : NothingQueued s) :
    NothingQueued t := by
  obtain ⟨e, ha, hleg⟩ := h
  obtain ⟨ho, hw, hm, hr, hans, hs, hg⟩ := hq
  have hvot : t.vot = s.vot := by rw [e]
  have hseg : t.seg = s.seg := by rw [e]
  refine ⟨by rw [hvot]; exact ho, by rw [hvot]; exact hw, hleg.trans hm, (hl 23 (by decide)).trans hr, ha.trans hans, fun g => ?_, fun g => ?_⟩
  · obtain ⟨h1, h2⟩ := hs g
    exact ⟨by rw [hseg]; exact h1, (hl _ (by fin_cases g <;> decide)).trans h2⟩
  · refine segIdle_of_lists (by rw [hseg]) (by rw [e]) (getReg_congr (by rw [e]) _ _) (fun j hj => hl j ?_) (hg g)
    simp only [List.mem_cons, List.not_mem_nil, or_false] at hj
    rcases hj with rfl | rfl | rfl
    · exact vapQ_mem g
    · exact remQ_mem g
    · exact fwdQ_mem g

/-- So the end of a command that pumps does nothing. -/
theorem RingOnly.pump_idle {s t : State} (h : RingOnly s t) (hl : ∀ j ∈ pumpLists, listPkts t j = listPkts s j) (hq : NothingQueued s) :
    endPump (pump t) = t := (h.nothingQueued hl hq).idle

theorem RingOnly.restSame {s t : State} (h : RingOnly (cleared s) t) :
    RestSame { s with rng := t.rng, mnt := t.mnt } (settle t) ∧ (settle t).regs = s.regs := by
  obtain ⟨e, -⟩ := h
  refine ⟨restSame_settle ((restSame_iff _ _).2 ?_), (settle_regs t).trans (by rw [e]; rfl)⟩
  rw [e]; exact ⟨⟨rfl, rfl, rfl, rfl⟩, ⟨rfl, rfl, rfl, rfl⟩, ⟨rfl, rfl, rfl, rfl⟩, rfl, rfl, rfl, portsBut_same rfl⟩

/-- The state differs from `s` in the Creel and the event hub alone. -/
def HubOnly (s t : State) : Prop := t = { s with crl := t.crl, evh := t.evh }

theorem HubOnly.trans {s t u : State} (h1 : HubOnly s t) (h2 : HubOnly t u) : HubOnly s u := by
  unfold HubOnly at *; rw [h2, h1]

theorem HubOnly.ring {s t : State} (h : HubOnly s t) : RingOnly s t := by
  unfold HubOnly at h
  have hr : t.rng = s.rng ∧ t.mnt = s.mnt := by rw [h]; exact ⟨rfl, rfl⟩
  refine ⟨?_, by rw [hr.1], by rw [hr.2]⟩
  rw [hr.1, hr.2]; exact h

theorem HubOnly.restSame {s t : State} (h : HubOnly (cleared s) t) : RestSame s (settle t) ∧ (settle t).regs = s.regs := by
  have hr : t.rng = s.rng ∧ t.mnt = s.mnt := by unfold HubOnly at h; rw [h]; exact ⟨rfl, rfl⟩
  obtain ⟨h1, h2⟩ := h.ring.restSame
  rw [hr.1, hr.2] at h1
  exact ⟨h1, h2⟩

/-! A packet that leaves RNG_RX (R312) -/

/-- The head of RNG_RX goes to the list of its segment. -/
theorem ringPump_moves {s : State} {y : Pkt} (hp : PtrsGood s) (hl : listPkts s 23 = [y])
    (hr : resetNow s.crl (remQ (patOf y.patE).seg) = false) :
    ringPump 1 s = linkPkt (remQ (patOf y.patE).seg) y (setPkts 23 [] s) := by
  have ht : takeHead 23 s = (some y, setPkts 23 [] s) := by unfold takeHead; rw [useList_sound (hp 23)]; dsimp only; rw [hl]
  unfold ringPump; rw [hl]; dsimp only; rw [hr, ht]; rfl

/-- A segment whose remote list grows keeps its bus. -/
theorem busSettled_more {s t : State} {g : Seg} (hseg : t.seg[g] = s.seg[g]) (hpwr : t.pwr = s.pwr) (hregs : t.regs = s.regs)
    (hl : ∀ j ∈ [vapQ g, fwdQ g], listPkts t j = listPkts s j) (hr : listPkts s (remQ g) <+: listPkts t (remQ g)) (h : BusSettled s g) :
    BusSettled t g := by
  obtain ⟨hv, hf⟩ : listPkts t (vapQ g) = listPkts s (vapQ g) ∧ listPkts t (fwdQ g) = listPkts s (fwdQ g) :=
    ⟨hl _ (by simp), hl _ (by simp)⟩
  obtain ⟨h1, h2⟩ := h
  have hctl : sysconAct t g = sysconAct s g := by unfold sysconAct; rw [segCfg_congr (getReg_congr hregs _ _), hpwr]
  refine ⟨fun ho => ?_, by rw [hctl, hseg]; exact h2⟩
  have hw : hasWork s g = true := h1 (by rw [← hseg]; exact ho)
  have hne : listPkts s (remQ g) ≠ [] → listPkts t (remQ g) ≠ [] := fun hne h0 => hne (List.prefix_nil.1 (h0 ▸ hr))
  unfold hasWork at *
  simp only [hseg, hv, hf, Bool.or_eq_true, Bool.not_eq_true', List.isEmpty_eq_false_iff] at hw ⊢
  exact hw.imp_left fun hw => hw.imp_right hne

theorem listPkts_linkPkt_same {q : Nat} {s : State} (p : Pkt) (h : PtrsGood s) : listPkts (linkPkt q p s) q = listPkts s q ++ [p] := by
  rw [linkPkt_joins p (h q)]; exact congrArg Queue.pkts (getQ_setQ_same q _ s.crl)

theorem linkPkt_crl {q : Nat} {s : State} (p : Pkt) (h : PtrsGood s) : linkPkt q p s = { s with crl := (linkPkt q p s).crl } := by
  rw [linkPkt_joins p (h q)]

/-- RNG_RX has handed its one packet `y` to the list of its segment. -/
def handedOn (y : Pkt) (s : State) : State := linkPkt (remQ (patOf y.patE).seg) y (setPkts 23 [] s)

theorem handedOn_lists {s : State} {y : Pkt} (hp : PtrsGood s) :
    PtrsGood (handedOn y s) ∧ handedOn y s = { s with crl := (handedOn y s).crl } ∧ listPkts (handedOn y s) 23 = [] ∧
      listPkts (handedOn y s) (remQ (patOf y.patE).seg) = listPkts s (remQ (patOf y.patE).seg) ++ [y] ∧
      ∀ j, j ≠ 23 → j ≠ remQ (patOf y.patE).seg → listPkts (handedOn y s) j = listPkts s j := by
  have hq : remQ (patOf y.patE).seg ≠ 23 := by unfold remQ; omega
  obtain ⟨hpw, hlw⟩ := (OtherLists.refl 23 s).setPkts [] hp
  obtain ⟨hpt, hlt⟩ := (OtherLists.refl (remQ (patOf y.patE).seg) (setPkts 23 [] s)).linkPkt y hpw
  refine ⟨hpt, ?_, (hlt 23 hq.symm).trans (listPkts_setPkts_same 23 [] s), ?_, fun j h1 h2 => (hlt j h2).trans (hlw j h1)⟩
  · exact linkPkt_crl y hpw
  · exact (listPkts_linkPkt_same y hpw).trans (congrArg (· ++ [y]) (hlw _ hq))

/-- A pump that finds one packet in RNG_RX, and nothing else to do, hands it on. -/
theorem pump_handsOn {s v : State} {y : Pkt} (hq : NothingQueued s) (hm : ∀ g, masterOk s g = true)
    (hv : v = { s with crl := v.crl, evh := v.evh }) (hp : PtrsGood v) (hl : ∀ j, j ≠ 23 → listPkts v j = listPkts s j)
    (h23 : listPkts v 23 = [y]) (hr : ∀ q, resetNow v.crl q = false) : endPump (pump v) = handedOn y v := by
  obtain ⟨ho, hw, hmail, -, hans, hs, hg⟩ := hq
  have hvs : v.vot = s.vot ∧ v.mnt = s.mnt ∧ v.rng = s.rng ∧ v.seg = s.seg ∧ v.pwr = s.pwr ∧ v.regs = s.regs := by rw [hv]; simp
  obtain ⟨hvot, hmnt, hrng, hseg, hpwr, hregs⟩ := hvs
  obtain ⟨hpt, he, ht23, htq, htl⟩ := handedOn_lists (y := y) hp
  generalize hgen : handedOn y v = t at *
  have hts : t.rng = s.rng ∧ t.seg = s.seg ∧ t.pwr = s.pwr ∧ t.regs = s.regs := by rw [he]; exact ⟨hrng, hseg, hpwr, hregs⟩
  obtain ⟨trng, tseg, tpwr, tregs⟩ := hts
  have hrem : ∀ g : Seg, listPkts s (remQ g) <+: listPkts t (remQ g) := fun g => by
    rw [← hl _ (by unfold remQ; omega)]
    by_cases e : g = (patOf y.patE).seg
    · subst e; rw [htq]; exact List.prefix_append _ _
    · have hne : g.val ≠ (patOf y.patE).seg.val := Fin.val_ne_of_ne e
      rw [htl _ (by unfold remQ; omega) (by unfold remQ; omega)]
  have hsame : ∀ g : Seg, ∀ j ∈ [vapQ g, fwdQ g], listPkts t j = listPkts s j := fun g j hj => by
    have hj2 : j ≠ 23 ∧ j ≠ remQ (patOf y.patE).seg := by
      simp only [vapQ, fwdQ, List.mem_cons, List.not_mem_nil, or_false] at hj; unfold remQ; omega
    rw [htl j hj2.1 hj2.2, hl j hj2.1]
  have flush : ∀ g, segFlush g t = t := fun g => by
    refine segFlush_idle (.inl ?_) (busSettled_more (by rw [tseg]) tpwr tregs (hsame g) (hrem g) (hg g).2)
    rw [← hm g]; unfold masterOk segAvail
    rw [segCfg_congr (getReg_congr tregs _ _), segCfg_congr (getReg_congr tregs _ _), tseg, tpwr]
  have hfirst : mailPump (voteUnit v) = v := by
    rw [voteUnit_idle (by rw [hvot]; exact ho) (by rw [hvot]; exact hw)]; unfold mailPump; rw [hmnt, hmail]
  have hpump : pump v = t := by
    have hmove : ringPump 1 v = t := (ringPump_moves hp h23 (hr _)).trans hgen
    unfold pump; dsimp only
    rw [hfirst, h23, List.length_singleton, hmove, show t.rng.answers = [] by rw [trng]; exact hans]
    exact (congrArg _ (flush 0)).trans (flush 1)
  rw [hpump]
  refine endPump_idle t fun g => ⟨by rw [tseg]; exact (hs g).1, ?_⟩
  have hj : 14 + g.val ≠ 23 ∧ 14 + g.val ≠ remQ (patOf y.patE).seg := by unfold remQ; omega
  exact ((htl _ hj.1 hj.2).trans (hl _ hj.1)).trans (hs g).2

end Sys2Proof.Machine
end

section
/-!
SUPPORT. A request of another node: queued, refused or out of cells (R312, R313).
-/

namespace Sys2Proof.Machine

open Sys2Proof

section
variable {rp : RingPort} {h : SubHdr} {data : List Byte} {s : State}

/-- The request as RNG_RX holds it (R312). -/
def requestPkt (rp : RingPort) (h : SubHdr) (bs : List Byte) (s : State) (cells : List Nat) : Pkt :=
  { owner := 23, cells := cells, eop := h.kind ≠ 2 || (h.last && bs.length == h.size), epoch := 0, cy := cyc s % 65536,
    src := 7 + bnat (rp == 1), pat := h.pat, off := h.off, len := h.size, aux := h.tag, data := bs, en := [],
    isRead := h.kind ≠ 2, trunc := false, cont := false, poison := false, sent := 0, patE := patEntry s.lom.act h.pat,
    origin := .remote h.src h.tag }

/-- R313 refuses the request: its pattern is not valid here or not of this node, or the access is none of the pattern's. -/
def requestRefused (h : SubHdr) (s : State) : Bool :=
  let p := patOf (patEntry s.lom.act h.pat)
  !p.valid || p.node ≠ 0 || accessRefused p (decide (h.kind = 2)) h.off h.size

theorem patUncorr_clean (hc : s.tap.ecc = []) (j : Nat) : patUncorr s j = false := by unfold patUncorr uncorrIn; rw [hc]; rfl

theorem fetchOne_clean (hc : s.tap.ecc = []) (j : Nat) : fetchOne j s = s := by
  have hr : ∀ m lo hi, readEcc m lo hi s = s := fun m lo hi => by unfold readEcc; rw [hc]; rfl
  unfold fetchOne; dsimp only; rw [hr, patUncorr_clean hc]; rfl

theorem firstRequest_refused (hc : s.tap.ecc = []) (hr : requestRefused h s = true) :
    firstRequest rp h data s = if h.kind = 2 then s else respondStatus rp h.src h.tag 2 (cyc s % 65536) s := by
  unfold requestRefused at hr
  unfold firstRequest; dsimp only
  rw [fetchOne_clean hc, patUncorr_clean hc, Bool.false_or, if_pos hr]

theorem firstRequest_noCells (hc : s.tap.ecc = []) (hr : requestRefused h s = false)
    (hclaim : claim 23 (if h.kind = 2 then cellsFor h.size else 1) s = none) : firstRequest rp h data s = raise 119 s := by
  unfold requestRefused at hr
  unfold firstRequest; dsimp only
  rw [fetchOne_clean hc, patUncorr_clean hc, Bool.false_or, if_neg (by rw [hr]; decide), hclaim]

theorem firstRequest_queued {s1 : State} {cells : List Nat} (hc : s.tap.ecc = []) (hr : requestRefused h s = false)
    (hclaim : claim 23 (if h.kind = 2 then cellsFor h.size else 1) s = some (cells, s1)) :
    firstRequest rp h data s = linkPkt 23 (requestPkt rp h data s cells)
      { s1 with crl := { s1.crl with cell := fillCells cells data s1.crl.cell } } := by
  unfold requestRefused at hr
  unfold firstRequest; dsimp only
  rw [fetchOne_clean hc, patUncorr_clean hc, Bool.false_or, if_neg (by rw [hr]; decide), hclaim]
  simp [requestPkt]

/-- A request for this node that is a first fragment. -/
theorem remoteRequest_first (hd : h.dst = s.rng.num) (hn : s.rng.num ≠ 0) (hst : s.pwr.st = .run) (hk : h.kind = 1 ∨ h.kind = 2)
    (hf : h.first = true) : remoteRequest rp h data s = pump (firstRequest rp h (data.take h.dlen) s) := by
  unfold remoteRequest; dsimp only
  rw [if_neg, if_pos hf]
  rintro (h1 | h1 | h1 | h1)
  · exact h1 hd
  · exact hn (hd ▸ h1)
  · exact h1 hst
  · omega

/-- The state that a granted claim leaves, with the bytes stored. -/
theorem claim_filled {q n : Nat} (hp : PtrsGood s) (hc : claimOk s.crl q n = true) (bs : List Byte) :
    ∃ cells s1, claim q n s = some (cells, s1) ∧
      let u : State := { s1 with crl := { s1.crl with cell := fillCells cells bs s1.crl.cell } }
      HubOnly s u ∧ PtrsGood u ∧ (∀ j, listPkts u j = listPkts s j) ∧ ∀ j, resetNow u.crl j = resetNow s.crl j := by
  have hclaim : ∃ evh, claim q n s = some ((takeCells n s.crl).1, { s with crl := claimed q n s.crl, evh := evh }) := by
    unfold claim; dsimp only
    rw [useList_sound (hp 63), if_pos hc, raiseIf_eq]; exact ⟨_, rfl⟩
  obtain ⟨evh, hclaim⟩ := hclaim
  have hcl : ∀ j, (getQ (claimed q n s.crl) j).ptrBad = false := fun j => by
    unfold claimed
    by_cases e : j = q
    · subst e; rw [getQ_setQ_same]; exact hp j
    · rw [getQ_setQ_other e]; exact hp j
  exact ⟨_, _, hclaim, rfl, hcl, fun j => claimed_pkts q n s.crl j, fun _ => rfl⟩

theorem ListsGood.noReset (h : ListsGood s) (q : Nat) : resetNow s.crl q = false := by unfold resetNow; rw [h.2.1, h.2.2]; rfl

/-- A request for which cells are granted comes to the list of its segment (R312). -/
theorem firstRequest_moves (hq : Quiet s) (hr : requestRefused h s = false)
    (hc : claimOk s.crl 23 (if h.kind = 2 then cellsFor h.size else 1) = true) :
    ∃ cells x, endPump (pump (firstRequest rp h data s)) = x ∧ HubOnly s x ∧ PtrsGood x ∧
      requestPkt rp h data s cells ∈ listPkts x (remQ (patOf (patEntry s.lom.act h.pat)).seg) := by
  obtain ⟨-, -, hnq, hm, hecc, hgood⟩ := hq
  obtain ⟨cells, s1, hclaim, hu, hpu, hlu, hres⟩ := claim_filled hgood.ptrs hc data
  generalize hgen : ({ s1 with crl := { s1.crl with cell := fillCells cells data s1.crl.cell } } : State) = u at *
  let y := requestPkt rp h data s cells
  let v := linkPkt 23 y u
  obtain ⟨hpv, hlv⟩ := (OtherLists.refl 23 u).linkPkt y hpu
  have hv : HubOnly u v := by unfold HubOnly v; rw [linkPkt_joins y (hpu 23)]
  have hv23 : listPkts v 23 = [y] := by
    obtain ⟨-, -, -, hrx, -⟩ := hnq
    unfold v; rw [listPkts_linkPkt_same y hpu, hlu, hrx]; rfl
  have hvr : ∀ q, resetNow v.crl q = false := fun q => by unfold v; rw [linkPkt_joins y (hpu 23)]; exact (hres q).trans (hgood.noReset q)
  obtain ⟨hpt, he, -, htq, -⟩ := handedOn_lists (y := y) hpv
  have hsv : HubOnly s v := hu.trans hv
  refine ⟨cells, handedOn y v, ?_, hsv.trans ?_, hpt, ?_⟩
  · rw [firstRequest_queued hecc hr hclaim, hgen]
    exact pump_handsOn hnq hm hsv hpv (fun j hj => (hlv j hj).trans (hlu j)) hv23 hvr
  · unfold HubOnly; rw [he]
  · have hmem : y ∈ listPkts (handedOn y (linkPkt 23 y u)) (remQ (patOf y.patE).seg) := by
      rw [htq]; exact List.mem_append_right _ (List.mem_singleton.2 rfl)
    exact hmem

/-- A response for which a cell is granted is queued, and nothing else moves. -/
theorem respondStatus_queued (hq : Quiet s) (hc : claimOk s.crl 21 1 = true) (src tag st cy : Nat) :
    ∃ x, endPump (pump (respondStatus rp src tag st cy s)) = x ∧ HubOnly s x ∧ PtrsGood x ∧
      ∃ y ∈ listPkts x 21, y.origin = .remote src tag ∧ y.sent = st ∧ y.data = [] := by
  obtain ⟨-, -, hnq, -, -, hgood⟩ := hq
  obtain ⟨cells, s1, hclaim, hu, hpu, hlu, -⟩ := claim_filled hgood.ptrs hc []
  let y : Pkt := { responsePkt rp src tag st cy [] [] with cells := cells }
  have hx : respondStatus rp src tag st cy s = linkPkt 21 y { s1 with crl := { s1.crl with cell := fillCells cells [] s1.crl.cell } } := by
    have hn : claim 21 (cellsFor (responsePkt rp src tag st cy [] []).data.length) s = some (cells, s1) := by
      rw [show cellsFor (responsePkt rp src tag st cy [] []).data.length = 1 from (by decide : cellsFor 0 = 1)]; exact hclaim
    unfold respondStatus queueResponse; rw [hn]; rfl
  generalize ({ s1 with crl := { s1.crl with cell := fillCells cells [] s1.crl.cell } } : State) = u at *
  obtain ⟨hpx, hlx⟩ := (OtherLists.refl 21 u).linkPkt y hpu
  have hux : HubOnly s (linkPkt 21 y u) := hu.trans (by unfold HubOnly; rw [linkPkt_joins y (hpu 21)])
  refine ⟨linkPkt 21 y u, ?_, hux, hpx, y, ?_, rfl, rfl, rfl⟩
  · rw [hx]
    exact hux.ring.pump_idle (fun j hj => (hlx j (by rintro rfl; revert hj; decide)).trans (hlu j)) hnq
  · rw [listPkts_linkPkt_same y hpu]; exact List.mem_append_right _ (List.mem_singleton.2 rfl)

end

/-- A first fragment for this node runs to the pump behind it. -/
theorem exec_request {rp : RingPort} {hdr data : List Byte} {s : State} (hd : (subHdr hdr).dst = s.rng.num) (hn : s.rng.num ≠ 0)
    (hst : s.pwr.st = .run) (hk : (subHdr hdr).kind = 1 ∨ (subHdr hdr).kind = 2) (hf : (subHdr hdr).first = true) :
    exec (.remoteRequestReceive ⟨rp, hdr⟩ data) s =
      .next (settle (endPump (pump (firstRequest rp (subHdr hdr) (data.take (subHdr hdr).dlen) (cleared s))))) :=
  exec_run (fun s => endPump (remoteRequest rp (subHdr hdr) data s)) rfl
    (congrArg endPump (remoteRequest_first (s := cleared s) hd hn hst hk hf))

end Sys2Proof.Machine
end

section
/-!
SUPPORT. The outcome of a remote access of the mailbox (R73, R314): a response, a refusal or a timeout.
-/

namespace Sys2Proof.Machine

open Sys2Proof

/-! Cells that are released -/

/-- Queue 24 of `c'` holds no more cells than in `c`, and the free list has lost none. -/
structure Freed (c c' : Creel) : Prop where
  other : ∀ j, j ≠ 24 → getQ c' j = getQ c j
  held : (getQ c' 24).held ≤ (getQ c 24).held
  resv : (getQ c' 24).resv = (getQ c 24).resv
  limit : (getQ c' 24).limit = (getQ c 24).limit
  uncovered : c'.uncovered ≤ c.uncovered
  free : freeListLen c ≤ freeListLen c'
  resets : ∀ q, resetNow c' q = resetNow c q

theorem Freed.refl (c : Creel) : Freed c c := ⟨fun _ _ => rfl, le_rfl, rfl, rfl, le_rfl, le_rfl, fun _ => rfl⟩

theorem Freed.trans {a b c : Creel} (h1 : Freed a b) (h2 : Freed b c) : Freed a c where
  other j hj := (h2.other j hj).trans (h1.other j hj)
  held := h2.held.trans h1.held
  resv := h2.resv.trans h1.resv
  limit := h2.limit.trans h1.limit
  uncovered := h2.uncovered.trans h1.uncovered
  free := h1.free.trans h2.free
  resets q := (h2.resets q).trans (h1.resets q)

/-- The other queues' share of a sum over the queues that own cells. -/
def otherShare (f : Nat → Nat) : Nat := ((owningQueues.erase 24).map f).foldl (· + ·) 0

theorem ownedSum_split (f : Nat → Nat) : (owningQueues.map f).foldl (· + ·) 0 = otherShare f + f 24 := by
  have he : owningQueues.erase 24 = [0, 1, 2, 3, 4, 14, 15, 16, 17, 18, 21, 22, 23, 25, 26] := by decide
  unfold otherShare; rw [he]
  simp only [owningQueues, List.map_cons, List.map_nil, List.foldl_cons, List.foldl_nil]
  omega

theorem otherShare_congr {f g : Nat → Nat} (h : ∀ j, j ≠ 24 → f j = g j) : otherShare f = otherShare g := by
  have hm : (owningQueues.erase 24).map f = (owningQueues.erase 24).map g :=
    List.map_congr_left fun j hj => h j (by rintro rfl; revert hj; decide)
  unfold otherShare; rw [hm]

/-- The cells that queue 24 has given back are free, or come under its reservation (R199). -/
theorem Freed.headroom {c c' : Creel} (h : Freed c c') {n : Nat} (hn : n - ((getQ c 24).resv - (getQ c 24).held) ≤ headroom c) :
    n - ((getQ c' 24).resv - (getQ c' 24).held) ≤ headroom c' := by
  have hheld : otherShare (fun q => (getQ c' q).held) = otherShare fun q => (getQ c q).held :=
    otherShare_congr fun j hj => by rw [h.other j hj]
  have hunused : otherShare (fun q => (getQ c' q).resv - (getQ c' q).held) = otherShare fun q => (getQ c q).resv - (getQ c q).held :=
    otherShare_congr fun j hj => by rw [h.other j hj]
  have hless := h.held
  unfold Machine.headroom creelFree creelU at *
  rw [ownedSum_split, ownedSum_split] at *
  rw [hheld, hunused, h.resv]
  omega

/-- A claim of queue 24 that is granted is granted with more cells free. -/
theorem Freed.claimOk {c c' : Creel} (h : Freed c c') {n : Nat} (hc : claimOk c 24 n = true) : claimOk c' 24 n = true := by
  unfold Machine.claimOk at *
  simp only [Bool.and_eq_true, decide_eq_true_eq, Bool.or_eq_true, beq_iff_eq, h.resets, h.resv, h.limit] at hc ⊢
  obtain ⟨⟨⟨⟨h1, h2⟩, h3⟩, h4⟩, h5⟩ := hc
  have hh := h.headroom h2
  have hheld := h.held
  have hunc := h.uncovered
  have hfree := h.free
  rw [h.resv] at hh
  exact ⟨⟨⟨⟨by omega, hh⟩, by omega⟩, by omega⟩, h5⟩

theorem setPkts_frees (ps : List Pkt) (s : State) : Freed s.crl (setPkts 24 ps s).crl := by
  have h : getQ (setPkts 24 ps s).crl 24 = { getQ s.crl 24 with pkts := ps } := getQ_setQ_same 24 _ s.crl
  exact ⟨fun j hj => getQ_setQ_other hj _ s.crl, by rw [h], by rw [h], by rw [h], le_rfl, le_rfl, fun _ => rfl⟩

theorem releaseCells_frees (cells : List Nat) (s : State) : Freed s.crl (releaseCells 24 cells s).crl := by
  have h : getQ (releaseCells 24 cells s).crl 24 = { getQ s.crl 24 with held := (getQ s.crl 24).held - cells.length } :=
    getQ_setQ_same 24 _ s.crl
  refine ⟨fun j hj => getQ_setQ_other hj _ s.crl, by rw [h]; exact Nat.sub_le _ _, by rw [h], by rw [h], Nat.sub_le _ _, ?_, fun _ => rfl⟩
  show 16384 - s.crl.fresh + s.crl.free.length ≤ 16384 - s.crl.fresh + (s.crl.free ++ cells).length
  rw [List.length_append]; omega

/-! What a request leaves when it ends -/

theorem discardPkt_lists (q : Nat) (cells : List Nat) (s : State) : OtherLists q s (discardPkt q cells s) := by
  unfold discardPkt
  exact .ite (.releaseCells (.setPkts (.refl q s) _) _ _) (.refl q s)

theorem dropAnswer_lists (tag : Nat) (s : State) : OtherLists 24 s (dropAnswer tag s) :=
  .foldl (fun s (p : Pkt) => discardPkt_lists 24 p.cells s) _ (.refl 24 s)

theorem dropAnswer_frees (tag : Nat) (s : State) : Freed s.crl (dropAnswer tag s).crl := by
  have one : ∀ (cells : List Nat) (s : State), Freed s.crl (discardPkt 24 cells s).crl := fun cells s => by
    unfold discardPkt; split
    · exact (setPkts_frees _ s).trans (releaseCells_frees _ _)
    · exact .refl _
  unfold dropAnswer
  induction (listPkts s 24).filter (fun p => p.aux == tag) generalizing s with
  | nil => exact .refl _
  | cons p ps ih => exact (one p.cells s).trans (ih _)

theorem HubOnly.of_crl {s t : State} (h : OnlyCrl s t) : HubOnly s t := by
  obtain ⟨⟨h1, h2, h3, h4⟩, ⟨h5, h6, h7, h8⟩, ⟨h9, h10, h11, h12⟩, ⟨h13, h14, h15⟩, ⟨h16, h17, h18, h19⟩, h20, h21, h22⟩ := h
  unfold HubOnly
  rw [← h1, ← h2, ← h3, ← h4, ← h5, ← h6, ← h7, ← h8, ← h9, ← h10, ← h11, ← h12,
    ← h13, ← h14, ← h15, ← h16, ← h17, ← h18, ← h19, ← h20, ← h21]

theorem dropAnswer_hub (tag : Nat) (s : State) : HubOnly s (dropAnswer tag s) := .of_crl (by simp [dropAnswer])

/-- The state once the mailbox's remote access has ended. -/
def mailEnded (tag : Nat) (failed : Bool) (code : Nat) (bs : List Byte) (s : State) : State :=
  mailDone failed code bs (dropRem tag (dropAnswer tag s))

theorem mailEnded_mnt (tag : Nat) (failed : Bool) (code : Nat) (bs : List Byte) (s : State) :
    (mailEnded tag failed code bs s).mnt = { s.mnt with legEnd := some (failed, code, bs) } ∧
      remOf (mailEnded tag failed code bs s) tag = none ∧ (mailEnded tag failed code bs s).evh = s.evh := by
  have hrng : (mailEnded tag failed code bs s).rng = (dropRem tag (dropAnswer tag s)).rng := by unfold mailEnded; simp
  refine ⟨?_, ?_, ?_⟩
  · unfold mailEnded mailDone dropRem dropAnswer; simp
  · unfold remOf; rw [hrng]; unfold dropRem
    exact List.find?_eq_none.2 fun r hr => by
      have := (List.mem_filter.1 hr).2
      simpa [bne] using this
  · unfold mailEnded dropRem dropAnswer; simp

/-- Nothing is queued then that a pump would move. -/
theorem mailEnded_idle {s u : State} {tag : Nat} {failed : Bool} {code : Nat} {bs : List Byte} (hq : NothingQueued s) (hp : PtrsGood s)
    (hub : HubOnly s u) (hl : OtherLists 24 s u) :
    RingOnly s (mailEnded tag failed code bs u) ∧ endPump (pump (mailEnded tag failed code bs u)) = mailEnded tag failed code bs u := by
  let d := dropRem tag (dropAnswer tag u)
  let m := ((listPkts d 4).filter fun p => p.origin == .mailbox).foldl (fun s p => discardPkt 4 p.cells s) d
  obtain ⟨hpa, hla⟩ := (hl.trans (dropAnswer_lists tag u)) hp
  have hring : RingOnly s d := (hub.trans (dropAnswer_hub tag u)).ring.trans ⟨rfl, rfl, rfl⟩
  have hm : HubOnly d m := .of_crl (by simp [m])
  obtain ⟨-, hlm⟩ := (OtherLists.foldl (fun s (p : Pkt) => discardPkt_lists 4 p.cells s) _ (.refl 4 d) : OtherLists 4 d m) hpa
  have hend : RingOnly s (mailEnded tag failed code bs u) := (hring.trans hm.ring).trans (t := m) ⟨rfl, rfl, rfl⟩
  refine ⟨hend, hend.pump_idle (fun j hj => ?_) hq⟩
  have hne : j ≠ 4 ∧ j ≠ 24 := by constructor <;> (rintro rfl; revert hj; decide)
  exact (hlm j hne.1).trans (hla j hne.2)

/-! The outcome of the request (R73, R314) -/

/-- The outcome that the mailbox gets. -/
theorem remoteOutcome_mailbox {r : RemTx} {failed : Bool} {bs : List Byte} {s : State} (ho : r.origin = .mailbox) :
    remoteOutcome r failed bs s = pump (mailEnded r.tag failed (if failed then 6 else 0) bs s) := by
  unfold remoteOutcome mailEnded; dsimp only; rw [ho]

theorem remOf_tag {s : State} {tag : Nat} {r : RemTx} (h : remOf s tag = some r) : r.tag = tag := by
  have := List.find?_some h
  simpa using this

section
variable {rp : RingPort} {h : SubHdr} {data : List Byte} {s : State} {r : RemTx}

/-- A response with a failure. -/
theorem remoteResponse_failed (hd : h.dst = s.rng.num) (hst : s.pwr.st = .run) (hk : h.kind = 3) (hr : remOf s h.tag = some r)
    (hleft : r.left = true) (hsrc : r.dst = h.src) (hs : h.status ≠ 0) : remoteResponse rp h data s = remoteOutcome r true [] s := by
  unfold remoteResponse
  rw [if_neg (by rintro (h1 | h1); exacts [h1 hd, h1 hst]), if_neg (by omega), if_neg (by omega), hr]; dsimp only
  rw [if_neg, if_pos hs]
  rw [hleft, hsrc]; simp

/-- A response from another node than the request's. -/
theorem remoteResponse_other (hd : h.dst = s.rng.num) (hst : s.pwr.st = .run) (hk : h.kind = 3) (hr : remOf s h.tag = some r)
    (hsrc : r.dst ≠ h.src) : remoteResponse rp h data s = s := by
  unfold remoteResponse
  rw [if_neg (by rintro (h1 | h1); exacts [h1 hd, h1 hst]), if_neg (by omega), if_neg (by omega), hr]; dsimp only
  exact if_pos (.inl hsrc)

/-- A response in one fragment, for which cells are granted. -/
theorem remoteResponse_whole {got : List Byte} {s1 : State} (hd : h.dst = s.rng.num) (hst : s.pwr.st = .run) (hk : h.kind = 3)
    (hr : remOf s h.tag = some r) (hleft : r.left = true) (hsrc : r.dst = h.src) (hs : h.status = 0)
    (ht : takeFragment rp h r (data.take h.dlen) s = some (got, s1)) (hlast : h.last = true) (hlen : got.length = h.size) :
    remoteResponse rp h data s = remoteOutcome r false got s1 := by
  unfold remoteResponse
  rw [if_neg (by rintro (h1 | h1); exacts [h1 hd, h1 hst]), if_neg (by omega), if_neg (by omega), hr]; dsimp only
  rw [if_neg (by rw [hleft, hsrc]; simp), if_neg (by omega), ht]; dsimp only
  rw [hlast, hlen]; simp

/-- The first fragment is stored (R312). -/
theorem takeFragment_stored {bs : List Byte} (hg : ListsGood s) (hf : h.first = true) (hc : claimOk s.crl 24 (cellsFor h.size) = true) :
    ∃ s1, takeFragment rp h r bs s = some (bs, s1) ∧ HubOnly s s1 ∧ OtherLists 24 s s1 := by
  have hl0 := dropAnswer_lists h.tag s
  obtain ⟨hp0, -⟩ := hl0 hg.ptrs
  obtain ⟨cells, s1, hclaim, hu, hpu, -, -⟩ := claim_filled hp0 ((dropAnswer_frees h.tag s).claimOk hc) bs
  have hlu : OtherLists 24 s { s1 with crl := { s1.crl with cell := fillCells cells bs s1.crl.cell } } :=
    hl0.trans ((OtherLists.claim hclaim).trans fun hp => ⟨hp, fun _ _ => rfl⟩)
  let y : Pkt := { responsePkt rp h.src h.tag 0 0 cells bs with owner := 24, aux := h.tag, len := h.size, eop := h.last, origin := r.origin }
  refine ⟨linkPkt 24 y _, ?_, ((dropAnswer_hub h.tag s).trans hu).trans ?_, hlu.linkPkt _⟩
  · unfold takeFragment; rw [if_pos hf]; dsimp only; rw [hclaim]; rfl
  · unfold HubOnly; rw [linkPkt_joins _ (hpu 24)]

/-- A request whose time has passed, and one whose time has not (R314). -/
theorem remTimeoutOp_expires {tag : Nat} (hr : remOf s tag = some r) (hleft : r.left = true)
    (ht : remTimeout s ≤ (s.lom.cycle - r.cycle).toNat) :
    ∃ a b, remTimeoutOp tag s = remoteOutcome r true [] (raiseD 185 a b s) := by
  refine ⟨BitVec.ofNat 32 (r.dst + r.tag * 65536), BitVec.ofNat 32 r.pat, ?_⟩
  unfold remTimeoutOp; rw [hr]; dsimp only
  rw [hleft, decide_eq_true ht]; rfl

theorem remTimeoutOp_waits {tag : Nat} (hr : remOf s tag = some r) (ht : (s.lom.cycle - r.cycle).toNat < remTimeout s) :
    remTimeoutOp tag s = s := by
  unfold remTimeoutOp; rw [hr]; dsimp only
  rw [decide_eq_false (Nat.not_le.2 ht), Bool.and_false]; rfl

end

theorem settled_rng (x : State) : (settle x).rng = x.rng := by simp

/-- The command that ends a remote access of the mailbox: nothing else moves, and what `u` has raised is set. -/
theorem mailOutcome_completes {c : Instr} {s u : State} {r : RemTx} {failed : Bool} {bs : List Byte} (hq : Quiet s)
    (hx : exec c s = .next (settle (endPump (remoteOutcome r failed bs u)))) (ho : r.origin = .mailbox) (hub : HubOnly (cleared s) u)
    (hl : OtherLists 24 (cleared s) u) :
    Completes c s fun t => RestSame { s with rng := t.rng, mnt := t.mnt } t ∧ t.regs = s.regs ∧ remOf t r.tag = none ∧
      t.mnt = { s.mnt with legEnd := some (failed, if failed then 6 else 0, bs) } ∧
      ∀ ev k b, eventPage ev = some (k, b) → (∃ o ∈ u.evh.occ, o.ev = ev) → EventSet t ev := by
  have hqc : Quiet (cleared s) := hq
  obtain ⟨-, hb, hnq, -, -, hgood⟩ := hqc
  obtain ⟨hring, hend⟩ := mailEnded_idle (tag := r.tag) (failed := failed) (code := if failed then 6 else 0) (bs := bs) hnq hgood.ptrs hub hl
  obtain ⟨hmnt, hrem, hevh⟩ := mailEnded_mnt r.tag failed (if failed then 6 else 0) bs u
  rw [remoteOutcome_mailbox ho, hend] at hx
  generalize mailEnded r.tag failed (if failed then 6 else 0) bs u = x at *
  obtain ⟨h1, h2⟩ := hring.restSame
  have hum : u.mnt = s.mnt := by unfold HubOnly at hub; rw [hub]; rfl
  refine completes_settle hx ⟨?_, h2, ?_, ?_, fun ev k b hp ho => event_seen hp ?_ (by rw [hevh]; exact ho)⟩
  · rw [settled_rng, settled_mnt]; exact h1
  · unfold remOf at hrem ⊢; rw [settled_rng]; exact hrem
  · rw [settled_mnt, hmnt, hum]
  · obtain ⟨e, -⟩ := hring
    rw [e]; rw [show (cleared s).pwr.boot = _ from hb]; decide

end Sys2Proof.Machine
end

section
/-!
SUPPORT. The rest of a write that does not come (R313): its operation fails, and its packet leaves the list of its segment.
-/

namespace Sys2Proof.Machine

open Sys2Proof

section
variable {g : Seg} {s : State} {x : Pkt} {src tag : Nat}

/-- The segment forgets that it has waived the packet's cells. -/
def waivedGone (g : Seg) (x : Pkt) (s : State) : State :=
  modSeg g (fun y => { y with waived := y.waived.filter fun w => !(w.1 == remQ g && w.2.1 == x.origin) }) s

/-- The packet has left its list, and its record is marked. -/
def partFailed (g : Seg) (x : Pkt) (a b : Word) (s : State) : State :=
  popPkt (remQ g) (recError (patOf x.patE) (raiseD (segEv g 2) a b (waivedGone g x s)))

/-- The failure of a write's part (R172, R313). -/
theorem finishFail_part (hw : x.isRead = false) (ho : x.origin = .remote src tag) (hd : s.evh.occ = []) (addr : Nat) :
    finishFail g (accOfPkt (remQ g) .remote x) addr 1 s =
      partFailed g x (BitVec.ofNat 32 (x.pat % 65536)) (BitVec.ofNat 32 addr) s := by
  have hpulse : ∀ a b : Word, pulse (4 + g.val) (segEv g 2) a b (waivedGone g x s) = raiseD (segEv g 2) a b (waivedGone g x s) := fun a b => by
    unfold pulse; rw [show (waivedGone g x s).evh.occ = [] from hd]; rfl
  have hgone : modSeg g (fun y => { y with waived := y.waived.filter fun w => !(w.1 == remQ g && w.2.1 == x.origin) }) s = waivedGone g x s := rfl
  unfold finishFail accOfPkt; dsimp only
  rw [hgone, hpulse]
  unfold failOutcome partFailed; dsimp only
  rw [ho, hw]; rfl

/-- The head of a remote list fails while no cycle of it is in progress. -/
theorem failHead_part (hl : listPkts s (remQ g) = [x]) (hw : x.isRead = false) (ho : x.origin = .remote src tag) (he : s.seg[g].eng = none)
    (hp : s.seg[g].paused = []) (hd : s.evh.occ = []) : ∃ a b, failHead g (remQ g) s = partFailed g x a b s := by
  have hon : engOn s g (remQ g) = false := by unfold engOn; rw [he]
  have hfail : failHead g (remQ g) s = finishFail g (accOfPkt (remQ g) .remote x)
      (if x.sent = 0 then firstAddr (accOfPkt (remQ g) .remote x) else dropAddr (engOf (accOfPkt (remQ g) .remote x) x.sent)) 1 s := by
    unfold failHead; rw [hon, hp, hl]; rfl
  exact ⟨_, _, hfail.trans (finishFail_part hw ho hd _)⟩

/-- A part of a write that is at the head of its list. -/
theorem partOf_head (h : partOf s src tag = some (remQ g)) (hl : listPkts s (remQ g) = [x]) : x.origin = .remote src tag := by
  have := List.find?_some h
  rw [hl] at this
  simp only [List.any_cons, List.any_nil, Bool.or_false, Bool.and_eq_true, beq_iff_eq] at this
  exact this.1

/-- The part's time has passed: it fails where it stands. -/
theorem fragmentTimeout_fails (h : partOf s src tag = some (remQ g)) (hl : listPkts s (remQ g) = [x]) (hw : x.isRead = false)
    (he : s.seg[g].eng = none) (hp : s.seg[g].paused = []) (hd : s.evh.occ = []) :
    ∃ a b, fragmentTimeout src tag s = pump (raise 121 (partFailed g x a b s)) := by
  have ho := partOf_head h hl
  obtain ⟨a, b, hf⟩ := failHead_part hl hw ho he hp hd
  have hg : (if remQ g = 10 then 0 else 1 : Seg) = g := by fin_cases g <;> rfl
  have hq : (remQ g != 23) = true := by fin_cases g <;> rfl
  refine ⟨a, b, ?_⟩
  unfold fragmentTimeout; rw [h]; dsimp only
  rw [hl]; dsimp only
  rw [if_pos (by rw [ho, hq, beq_self_eq_true]; rfl), hg, hf]

/-- The state differs from `s` in segment `g`, the process image, the Creel and the event hub alone. -/
def SegImgOnly (g : Seg) (s t : State) : Prop :=
  t = { s with seg := t.seg, img := t.img, crl := t.crl, evh := t.evh } ∧ ∀ h, h ≠ g → t.seg[h] = s.seg[h]

theorem SegImgOnly.trans {t u : State} (h1 : SegImgOnly g s t) (h2 : SegImgOnly g t u) : SegImgOnly g s u := by
  obtain ⟨e1, o1⟩ := h1
  obtain ⟨e2, o2⟩ := h2
  exact ⟨by rw [e2, e1], fun h hne => (o2 h hne).trans (o1 h hne)⟩

theorem segImgOnly_modSeg (g : Seg) (f : SegS → SegS) (s : State) : SegImgOnly g s (modSeg g f s) :=
  ⟨rfl, fun _ hne => modSeg_other _ _ _ _ hne⟩

theorem HubOnly.segImg {t : State} (h : HubOnly s t) : SegImgOnly g s t := by
  unfold HubOnly at h
  have hs : t.seg = s.seg ∧ t.img = s.img := by rw [h]; exact ⟨rfl, rfl⟩
  refine ⟨?_, fun d _ => by rw [hs.1]⟩
  rw [hs.1, hs.2]; exact h

theorem segImgOnly_recError (p : Pat) (s : State) : SegImgOnly g s (recError p s) := by
  obtain ⟨⟨h1, h2, h3, h4⟩, ⟨h5, h6, h7, h8⟩, ⟨h9, h10, h11, h12⟩, ⟨h13, h14, h15⟩, ⟨h16, h17⟩,
    ⟨h18, h19, h20⟩, h21, h22⟩ := recError_keeps p s
  refine ⟨?_, fun d _ => by rw [h20]⟩
  rw [← h1, ← h2, ← h3, ← h4, ← h5, ← h6, ← h7, ← h8, ← h9, ← h10, ← h11, ← h12,
    ← h13, ← h14, ← h15, ← h16, ← h18, ← h19, ← h21]

/-- The one packet of a list leaves it. -/
theorem popPkt_last {q : Nat} (hp : PtrsGood s) (hl : listPkts s q = [x]) : popPkt q s = releaseCells x.owner x.cells (setPkts q [] s) := by
  unfold popPkt; rw [useList_sound (hp q)]; dsimp only; rw [hl]

/-- What the failed part leaves. -/
theorem partFailed_leaves (a b : Word) (hp : PtrsGood s) (hl : listPkts s (remQ g) = [x]) :
    SegImgOnly g s (partFailed g x a b s) ∧ FailKeeps s (partFailed g x a b s) ∧ OtherLists (remQ g) s (partFailed g x a b s) ∧
      listPkts (partFailed g x a b s) (remQ g) = [] ∧ ∃ o ∈ (partFailed g x a b s).evh.occ, o.ev = segEv g 2 := by
  let r := raiseD (segEv g 2) a b (waivedGone g x s)
  let u := recError (patOf x.patE) r
  have hcrl : u.crl = s.crl := by simp [u, r, waivedGone]
  have hu : OtherLists (remQ g) s u := .of_crl hcrl
  have hpu : PtrsGood u := (hu hp).1
  have hlu : listPkts u (remQ g) = [x] := by unfold listPkts; rw [hcrl]; exact hl
  have hv : partFailed g x a b s = releaseCells x.owner x.cells (setPkts (remQ g) [] u) := popPkt_last hpu hlu
  have hr : SegImgOnly g s r := (segImgOnly_modSeg g _ s).trans ⟨rfl, fun _ _ => rfl⟩
  have hsu : SegImgOnly g s u := hr.trans (segImgOnly_recError _ _)
  have hrk : FailKeeps s r := by unfold r waivedGone; exact ((FailKeeps.refl s).modSeg g).raisedD _ _ _
  have hpop : FailKeeps s (popPkt (remQ g) u) := (hrk.recError _).popPkt _
  refine ⟨?_, hpop, ?_, ?_, ?_⟩
  · rw [hv]; exact hsu.trans (HubOnly.segImg rfl)
  · rw [hv]; exact (hu.setPkts []).releaseCells _ _
  · rw [hv, listPkts_releaseCells, listPkts_setPkts_same]
  · have hocc : ∃ o ∈ r.evh.occ, o.ev = segEv g 2 := raiseD_mem _ _ _ _
    exact (((FailKeeps.refl r).recError (patOf x.patE)).popPkt (remQ g)).occ.has hocc

/-- Where segment `g` alone may have something to do, a pump gives up its bus at most. -/
theorem pump_oneSegment {u : State} (ho : u.vot.openE = []) (hw : u.vot.waiting = []) (hleg : u.mnt.leg = none) (hr : listPkts u 23 = [])
    (ha : u.rng.answers = []) (hm : ∀ d, masterOk u d = true) (hb : ∀ d, d ≠ g → BusSettled u d) : pump u = dropBus g u := by
  have hmail : mailPump (voteUnit u) = u := by rw [voteUnit_idle ho hw]; unfold mailPump; rw [hleg]
  have flush : ∀ {t : State} (d : Seg), FailKeeps u t → segFlush d t = dropBus d t := fun {t} d h => by
    unfold segFlush; rw [h.master d, hm d]; rfl
  have kept : ∀ d e : Seg, e ≠ d → BusSettled u e → BusSettled (dropBus d u) e := fun d e hne h =>
    busSettled_more (modSeg_other _ _ _ _ hne) rfl rfl (fun _ _ => rfl) (List.prefix_refl _) h
  have hu := FailKeeps.refl u
  have hpump : pump u = dropBus 1 (dropBus 0 u) := by
    unfold pump; dsimp only
    rw [hmail, hr, List.length_nil, show ringPump 0 u = u from rfl, ha, List.length_nil, show drainAnswers 0 u = u from rfl,
      flush 0 hu, flush 1 (hu.dropBus 0)]
  rw [hpump]
  by_cases hg : g = 0
  · subst hg; exact dropBus_idle 1 _ (kept 0 1 (by decide) (hb 1 (by decide)))
  · have h1 : g = 1 := Fin.eq_one_of_ne_zero g hg
    subst h1; rw [dropBus_idle 0 u (hb 0 (by decide))]

/-- The whole of a part's time-out. -/
theorem fragmentTimeout_works (hq : Quiet s) (h : partOf s src tag = some (remQ g)) (hl : listPkts s (remQ g) = [x]) (hw : x.isRead = false)
    (he : s.seg[g].eng = none) (hp : s.seg[g].paused = []) :
    ∃ t, endPump (fragmentTimeout src tag s) = t ∧ SegImgOnly g s t ∧ PtrsGood t ∧ listPkts t (remQ g) = [] ∧
      (∃ o ∈ t.evh.occ, o.ev = 121) ∧ ∃ o ∈ t.evh.occ, o.ev = segEv g 2 := by
  obtain ⟨hdel, -, ⟨ho, hwait, hleg, hr, ha, hs, hg⟩, hm, -, hgood⟩ := hq
  obtain ⟨a, b, hf⟩ := fragmentTimeout_fails h hl hw he hp hdel.1
  obtain ⟨hseg, hkeep, hother, hempty, hocc⟩ := partFailed_leaves (g := g) a b hgood.ptrs hl
  generalize hv : partFailed g x a b s = v at *
  obtain ⟨hpv, hlv⟩ := hother hgood.ptrs
  have hu : FailKeeps s (raise 121 v) := hkeep.raised 121
  have hsu : SegImgOnly g s (raise 121 v) := hseg.trans ⟨rfl, fun _ _ => rfl⟩
  have hfree : ∀ j, j ≠ remQ g → listPkts (dropBus g (raise 121 v)) j = listPkts s j := hlv
  have hsegs : v.mnt = s.mnt ∧ v.rng = s.rng ∧ v.pwr = s.pwr ∧ v.regs = s.regs := by rw [hseg.1]; exact ⟨rfl, rfl, rfl, rfl⟩
  obtain ⟨hmnt, hrng, hpwr, hregs⟩ := hsegs
  have hpump : pump (raise 121 v) = dropBus g (raise 121 v) := by
    refine pump_oneSegment (hu.openE ho) (hu.waiting hwait) ((congrArg Mnt.leg hmnt).trans hleg) ((hlv 23 (by unfold remQ; omega)).trans hr)
      ((congrArg Rng.answers hrng).trans ha) (fun d => (hu.master d).trans (hm d)) fun d hne => ?_
    have hd : d.val ≠ g.val := Fin.val_ne_of_ne hne
    refine busSettled_more (hsu.2 d hne) hpwr hregs (fun j hj => hlv j ?_) ?_ (hg d).2
    · simp only [vapQ, fwdQ, List.mem_cons, List.not_mem_nil, or_false] at hj; unfold remQ; omega
    · rw [show listPkts (raise 121 v) (remQ d) = listPkts s (remQ d) from hlv _ (by unfold remQ; omega)]
  have hend : endPump (dropBus g (raise 121 v)) = dropBus g (raise 121 v) := endPump_idle _ fun d =>
    ⟨((hu.dropBus g).slvWait d).trans (hs d).1, (hfree (14 + d.val) (by unfold remQ; omega)).trans (hs d).2⟩
  refine ⟨dropBus g (raise 121 v), by rw [hf, hpump, hend],
    hsu.trans ⟨rfl, fun _ hne => modSeg_other _ _ _ _ hne⟩, hpv, hempty, raise_mem 121 v, ?_⟩
  exact Grows.has (s := v) (raise_grows 121 v) hocc

/-- What the whole command changes then. -/
theorem SegImgOnly.segOnly {t : State} (h : SegImgOnly g (cleared s) t) :
    SegOnly g { s with img := (settle t).img } (settle t) ∧ (settle t).regs = s.regs := by
  obtain ⟨e, ho⟩ := h
  refine ⟨⟨?_, fun d hne => by rw [settled_seg]; exact ho d hne⟩, (settle_regs t).trans (by rw [e]; rfl)⟩
  rw [settled_seg, settled_img]
  refine restSame_settle ((restSame_iff _ _).2 ?_)
  rw [e]; exact ⟨⟨rfl, rfl, rfl, rfl⟩, ⟨rfl, rfl, rfl, rfl⟩, ⟨rfl, rfl, rfl, rfl⟩, rfl, rfl, rfl, portsBut_same rfl⟩

/-- Without a part of the write, or one that is dropped, nothing has a time to keep. -/
theorem fragmentTimeout_none (h1 : partOf s src tag = none) (h2 : droppedOf s src tag = none) : fragmentTimeout src tag s = s := by
  unfold fragmentTimeout; rw [h1, h2]

end

end Sys2Proof.Machine
end

section
/-!
SUPPORT. A ring command of another node (R207): its answer, and the withdrawal.
-/

namespace Sys2Proof.Machine

open Sys2Proof

/-! The answer -/

theorem subBytes_length (h : SubHdr) : (subBytes h).length = 16 := rfl

/-- What another node reads of the answer. -/
theorem subHdr_answer {h : SubHdr} (hk : h.kind = 5) (hd : h.dst < 128) (hs : h.status < 256) :
    (subHdr (subBytes h)).kind = 5 ∧ (subHdr (subBytes h)).dst = h.dst ∧ (subHdr (subBytes h)).status = h.status := by
  have h0 : (BitVec.ofNat 8 (h.kind + 16 * bnat h.first + 32 * bnat h.last)).toNat % 16 = 5 := by
    rw [BitVec.toNat_ofNat, hk]; omega
  have h1 : (BitVec.ofNat 8 h.dst).toNat % 128 = h.dst := by rw [BitVec.toNat_ofNat]; omega
  have h3 : (BitVec.ofNat 8 h.status).toNat = h.status := by rw [BitVec.toNat_ofNat]; omega
  exact ⟨h0, h1, h3⟩

/-- A header's source is a node number. -/
theorem subHdr_src_lt (bs : List Byte) : (subHdr bs).src < 128 := Nat.mod_lt _ (by decide)

/-! A node that leaves the ring's cycle -/

/-- The state with the Loom stopped, before group 7 is taken over. -/
def loomHalted (s : State) : State := ungateAll (dropUnstarted { s with lom := { s.lom with run := false } })

/-- Without a pending group 7, the end of the Loom's run is all that happens. -/
theorem loomStop_halts {s : State} (h7 : getFld s .glb 0x064 7 7 = 0) (hr : s.lom.run = true) : loomStop s = loomHalted s := by
  have hf : getFld (loomHalted s) .glb 0x064 7 7 = 0 := (getFld_congr (by simp [loomHalted]) _ _ _ _).trans h7
  unfold loomStop; rw [if_pos hr]
  show group7Apply (loomHalted s) = loomHalted s
  unfold group7Apply; rw [hf]; rfl

theorem loomHalted_leaves (s : State) :
    (loomHalted s).rng = s.rng ∧ (loomHalted s).pwr.boot = s.pwr.boot ∧ (loomHalted s).evh = s.evh := by
  have hb : ∀ t : State, (ungateAll t).pwr.boot = t.pwr.boot := fun _ => rfl
  unfold loomHalted; rw [hb]; simp

theorem newCycle_grows (n : Word) (s : State) : Grows s (newCycle n s) := by
  unfold Grows newCycle; exact List.prefix_append _ _

/-- What a change of the Loom's run leaves: the ring, the boot phase, and what has occurred. -/
theorem loomEval_leaves {s : State} (h7 : getFld s .glb 0x064 7 7 = 0) :
    (loomEval s).rng = s.rng ∧ (loomEval s).pwr.boot = s.pwr.boot ∧ Grows s (loomEval s) := by
  unfold loomEval; split
  · refine ⟨by simp, by simp, ?_⟩
    unfold loomStart; dsimp only; split
    · exact grows_of_evh rfl
    · refine Grows.trans ?_ (newCycle_grows _ _)
      exact grows_of_evh rfl
  · split
    · rename_i h
      obtain ⟨-, hr⟩ := Bool.and_eq_true_iff.1 h
      obtain ⟨h1, h2, h3⟩ := loomHalted_leaves s
      rw [loomStop_halts h7 hr]
      exact ⟨h1, h2, grows_of_evh h3⟩
    · exact ⟨rfl, rfl, .refl s⟩

/-- The loss of synchronisation leaves the node's state and what it has to send. -/
theorem setSynced_leaves (b : Bool) (s : State) :
    (setSynced b s).rng.node = s.rng.node ∧ (setSynced b s).rng.carry = s.rng.carry ∧ Grows s (setSynced b s) := by
  unfold setSynced; split
  · exact ⟨rfl, rfl, .refl s⟩
  · refine ⟨rfl, rfl, ?_⟩
    unfold Grows; exact List.prefix_append _ _

theorem setNode_listen {s : State} (hn : s.rng.node ≠ .listen) :
    setNode .listen s = setSynced false (raise 178 { s with rng := { s.rng with node := .listen, goodCycles := 0 } }) := by
  unfold setNode; rw [beq_false_of_ne hn]; rfl

/-- A node that was in the ring's cycle leaves it for LISTEN. -/
theorem enterListen_leaves {s : State} (h7 : getFld s .glb 0x064 7 7 = 0) (hn : s.rng.node ≠ .listen) :
    (enterListen s).rng.node = .listen ∧ (enterListen s).rng.carry = s.rng.carry ∧ (enterListen s).pwr.boot = s.pwr.boot ∧
      Grows s (enterListen s) := by
  obtain ⟨hnode, hcarry, hgrows⟩ := setSynced_leaves false (raise 178 { s with rng := { s.rng with node := .listen, goodCycles := 0 } })
  rw [← setNode_listen hn] at hnode hcarry hgrows
  have hs : Grows s (setNode .listen s) := by
    refine Grows.trans ?_ hgrows
    unfold Grows; exact List.prefix_append _ _
  have h7' : getFld (setNode .listen s) .glb 0x064 7 7 = 0 := (getFld_congr (by simp) _ _ _ _).trans h7
  obtain ⟨hrng, hboot, hloom⟩ := loomEval_leaves h7'
  unfold enterListen
  rw [hrng]
  exact ⟨hnode, hcarry, hboot.trans (by simp), hs.trans hloom⟩

/-! The command -/

section
variable {h : SubHdr} {s : State}

/-- The answer with status `st`. -/
def cmdAnswer (h : SubHdr) (st : Nat) (s : State) : SubHdr :=
  { h with kind := 5, dst := h.src, src := s.rng.num, status := st, dlen := 0 }

/-- The command is answered with status `st`, and reported (R207). -/
def cmdAnswered (h : SubHdr) (st : Nat) (s : State) : State :=
  raiseD 188 (BitVec.ofNat 32 (h.pat % 16 + h.src * 256 + 65536 + st * 2 ^ 24)) 0
    { s with rng := { s.rng with carry := s.rng.carry ++ [subBytes (cmdAnswer h st s)] } }

theorem execCommand_refused (hp : s.lcc.presence = false) : execCommand h s = cmdAnswered h 2 s := by
  unfold execCommand; rw [hp]; rfl

theorem execCommand_withdraws (hp : s.lcc.presence = true) (hpat : h.pat = 4) (hc : canWithdraw s = true) :
    execCommand h s = enterListen (cmdAnswered h 0 s) := by
  have hc2 : canWithdraw (cmdAnswered h 0 s) = true := hc
  have hw : ringWithdraw (cmdAnswered h 0 s) = enterListen (cmdAnswered h 0 s) := if_pos hc2
  have hcan : (s.lcc.presence && ((h.pat == 4 && canWithdraw s) || (h.pat == 5 && s.rng.taken))) = true := by rw [hp, hc, hpat]; rfl
  unfold execCommand; rw [hcan]; dsimp only
  rw [if_neg (by decide), if_pos hpat, if_pos rfl]; exact hw

/-- A command for this node finds a cell and is executed. -/
theorem remCmdOp_executes (hk : h.kind = 4) (hd : h.dst = s.rng.num) (hn : s.rng.num ≠ 0) (hst : s.pwr.st = .run) (hg : PtrsGood s)
    (hc : claimOk s.crl 25 1 = true) : ∃ cells u, remCmdOp h s = releaseCells 25 cells (execCommand h u) ∧ HubOnly s u := by
  obtain ⟨cells, s1, hclaim, hu, -⟩ := claim_filled hg hc (subBytes h)
  refine ⟨cells, _, ?_, hu⟩
  have hlen : claim 25 (cellsFor (subBytes h).length) s = some (cells, s1) := by
    rw [subBytes_length, show cellsFor 16 = 1 by decide]; exact hclaim
  unfold remCmdOp
  rw [if_neg]
  · unfold withProto; rw [hlen]
  · rintro (h1 | h1 | h1 | h1)
    · exact h1 hk
    · exact h1 hd
    · exact hn (hd ▸ h1)
    · exact h1 hst

theorem cmdAnswered_ring (st : Nat) (s : State) : RingOnly s (cmdAnswered h st s) ∧ (cmdAnswered h st s).mnt = s.mnt ∧
    (cmdAnswered h st s).rng = { s.rng with carry := s.rng.carry ++ [subBytes (cmdAnswer h st s)] } ∧
    ∃ o ∈ (cmdAnswered h st s).evh.occ, o.ev = 188 := ⟨⟨rfl, rfl, rfl⟩, rfl, rfl, raiseD_mem _ _ _ _⟩

/-- What the other node reads of the answer. -/
theorem cmdAnswer_read {st : Nat} (hsrc : h.src < 128) (hst : st < 256) :
    (subHdr (subBytes (cmdAnswer h st s))).kind = 5 ∧ (subHdr (subBytes (cmdAnswer h st s))).dst = h.src ∧
      (subHdr (subBytes (cmdAnswer h st s))).status = st := subHdr_answer (h := cmdAnswer h st s) rfl hsrc hst

/-- A command without presence is refused: it is answered and reported, and the ring goes on. -/
theorem remCmdOp_refused (hk : h.kind = 4) (hd : h.dst = s.rng.num) (hn : s.rng.num ≠ 0) (hst : s.pwr.st = .run) (hg : PtrsGood s)
    (hc : claimOk s.crl 25 1 = true) (hp : s.lcc.presence = false) :
    RingOnly s (remCmdOp h s) ∧ (remCmdOp h s).mnt = s.mnt ∧
      (remCmdOp h s).rng = { s.rng with carry := s.rng.carry ++ [subBytes (cmdAnswer h 2 s)] } ∧
      ∃ o ∈ (remCmdOp h s).evh.occ, o.ev = 188 := by
  obtain ⟨cells, u, hop, hub⟩ := remCmdOp_executes hk hd hn hst hg hc
  have hu : u.lcc = s.lcc ∧ u.rng = s.rng ∧ u.mnt = s.mnt := by unfold HubOnly at hub; rw [hub]; exact ⟨rfl, rfl, rfl⟩
  obtain ⟨hlcc, hrng, hmnt⟩ := hu
  obtain ⟨h1, h2, h3, h4⟩ := cmdAnswered_ring (h := h) 2 u
  rw [hop, execCommand_refused (by rw [hlcc]; exact hp)]
  generalize cmdAnswered h 2 u = v at *
  have hv : HubOnly v (releaseCells 25 cells v) := rfl
  refine ⟨(hub.ring.trans h1).trans hv.ring, h2.trans hmnt, ?_, h4⟩
  have ha : cmdAnswer h 2 u = cmdAnswer h 2 s := by unfold cmdAnswer; rw [hrng]
  rw [← ha, ← hrng]; exact h3

/-- A withdrawal with presence: it is answered and reported, and the node is in LISTEN. -/
theorem remCmdOp_withdraws (hk : h.kind = 4) (hd : h.dst = s.rng.num) (hn : s.rng.num ≠ 0) (hst : s.pwr.st = .run) (hg : PtrsGood s)
    (hc : claimOk s.crl 25 1 = true) (hp : s.lcc.presence = true) (hpat : h.pat = 4) (hcan : canWithdraw s = true)
    (h7 : getFld s .glb 0x064 7 7 = 0) :
    (remCmdOp h s).rng.node = .listen ∧ (remCmdOp h s).rng.carry = s.rng.carry ++ [subBytes (cmdAnswer h 0 s)] ∧
      (remCmdOp h s).pwr.boot = s.pwr.boot ∧ ∃ o ∈ (remCmdOp h s).evh.occ, o.ev = 188 := by
  obtain ⟨cells, u, hop, hub⟩ := remCmdOp_executes hk hd hn hst hg hc
  have hu : u.lcc = s.lcc ∧ u.rng = s.rng ∧ u.pwr = s.pwr ∧ u.regs = s.regs := by
    unfold HubOnly at hub; rw [hub]; exact ⟨rfl, rfl, rfl, rfl⟩
  obtain ⟨hlcc, hrng, hpwr, hregs⟩ := hu
  have hcu : canWithdraw u = true := by unfold canWithdraw at *; rw [hrng]; exact hcan
  obtain ⟨⟨hx, -⟩, -, hr, hocc⟩ := cmdAnswered_ring (h := h) 0 u
  rw [hop, execCommand_withdraws (by rw [hlcc]; exact hp) hpat hcu]
  have ha : cmdAnswer h 0 u = cmdAnswer h 0 s := by unfold cmdAnswer; rw [hrng]
  rw [ha, hrng] at hr
  generalize cmdAnswered h 0 u = v at *
  have hv7 : getFld v .glb 0x064 7 7 = 0 := (getFld_congr (by rw [hx]; exact hregs) _ _ _ _).trans h7
  have hnode : v.rng.node ≠ .listen := by
    intro hl
    rw [hr] at hl
    unfold canWithdraw at hcan
    rw [show s.rng.node = .listen from hl] at hcan
    revert hcan; decide
  obtain ⟨e1, e2, e3, e4⟩ := enterListen_leaves hv7 hnode
  have hcarry : v.rng.carry = s.rng.carry ++ [subBytes (cmdAnswer h 0 s)] := by rw [hr]
  have hboot : v.pwr.boot = s.pwr.boot := by rw [hx]; exact congrArg (·.boot) hpwr
  exact ⟨e1, e2.trans hcarry, e3.trans hboot, e4.has hocc⟩

end

end Sys2Proof.Machine
end

section
/-!
SUPPORT. The commands of chapter 10 that another node causes, as they complete (R312, R313, R314, R207).
-/

namespace Sys2Proof.Machine

open Sys2Proof

theorem requestRefused_iff (h : SubHdr) (s : State) :
    requestRefused h s = true ↔ (patOf (patEntry s.lom.act h.pat)).valid = false ∨ (patOf (patEntry s.lom.act h.pat)).node ≠ 0 ∨
      accessRefused (patOf (patEntry s.lom.act h.pat)) (decide (h.kind = 2)) h.off h.size = true := by
  unfold requestRefused
  simp only [Bool.or_eq_true, Bool.not_eq_true', decide_eq_true_eq, or_assoc]

theorem requestRefused_false {h : SubHdr} {s : State} (hv : (patOf (patEntry s.lom.act h.pat)).valid = true)
    (hn : (patOf (patEntry s.lom.act h.pat)).node = 0)
    (ha : accessRefused (patOf (patEntry s.lom.act h.pat)) (decide (h.kind = 2)) h.off h.size = false) : requestRefused h s = false := by
  unfold requestRefused; dsimp only
  rw [hv, ha, decide_eq_false (not_not.2 hn)]; rfl

theorem Quiet.notInReset {s : State} (h : Quiet s) : s.pwr.boot ≠ .inReset := by
  obtain ⟨-, hb, -⟩ := h
  rw [hb]; decide

theorem Quiet.endPump {s : State} (h : Quiet s) : endPump s = s := by
  obtain ⟨-, -, ⟨-, -, -, -, -, hs, -⟩, -⟩ := h
  exact endPump_idle s hs

theorem Quiet.nothingQueued {s : State} (h : Quiet s) : NothingQueued s := by
  obtain ⟨-, -, hn, -⟩ := h
  exact hn

theorem Quiet.lists {s : State} (h : Quiet s) : ListsGood s := by
  obtain ⟨-, -, -, -, -, hg⟩ := h
  exact hg

theorem Quiet.ptrs {s : State} (h : Quiet s) : PtrsGood s := h.lists.ptrs

theorem Quiet.eccClean {s : State} (h : Quiet s) : s.tap.ecc = [] := by
  obtain ⟨-, -, -, -, he, -⟩ := h
  exact he

/-! A request of another node -/

section
variable {rp : RingPort} {hdr data : List Byte} {s : State} (hq : Quiet s) (hrun : s.pwr.st = .run) (hnum : s.rng.num ≠ 0)
  (hdst : (subHdr hdr).dst = s.rng.num) (hfirst : (subHdr hdr).first = true)
include hq hrun hnum hdst hfirst

/-- An accepted request is in the list of its segment. -/
theorem request_queued (hr : requestRefused (subHdr hdr) (cleared s) = false) (hk : (subHdr hdr).kind = 1 ∨ (subHdr hdr).kind = 2)
    (hc : claimOk s.crl 23 (if (subHdr hdr).kind = 2 then cellsFor (subHdr hdr).size else 1) = true) :
    ∃ cells, Completes (.remoteRequestReceive ⟨rp, hdr⟩ data) s fun t => RestSame s t ∧ t.regs = s.regs ∧
      requestPkt rp (subHdr hdr) (data.take (subHdr hdr).dlen) (cleared s) cells ∈
        listPkts t (remQ (patOf (patEntry s.lom.act (subHdr hdr).pat)).seg) := by
  have hqc : Quiet (cleared s) := hq
  obtain ⟨cells, x, hx, hub, hp, hy⟩ := firstRequest_moves (rp := rp) (data := data.take (subHdr hdr).dlen) hqc hr hc
  obtain ⟨h1, h2⟩ := hub.restSame
  refine ⟨cells, completes_settle ((exec_request hdst hnum hrun hk hfirst).trans (by rw [hx])) ⟨h1, h2, ?_⟩⟩
  rw [settle_lists hp (by unfold remQ; omega)]; exact hy

/-- A request without cells is reported. -/
theorem request_noCells (hr : requestRefused (subHdr hdr) (cleared s) = false) (hk : (subHdr hdr).kind = 1 ∨ (subHdr hdr).kind = 2)
    (hc : claimOk s.crl 23 (if (subHdr hdr).kind = 2 then cellsFor (subHdr hdr).size else 1) = false) :
    Completes (.remoteRequestReceive ⟨rp, hdr⟩ data) s fun t => RestSame s t ∧ t.regs = s.regs ∧ EventSet t 119 := by
  have hqc : Quiet (cleared s) := hq
  have hub : HubOnly (cleared s) (raise 119 (cleared s)) := rfl
  have hend := hub.ring.pump_idle (fun _ _ => rfl) hqc.nothingQueued
  obtain ⟨h1, h2⟩ := hub.restSame
  have hx := firstRequest_noCells (rp := rp) (data := data.take (subHdr hdr).dlen) hqc.eccClean hr (claim_refused hqc.ptrs hc)
  exact completes_settle ((exec_request hdst hnum hrun hk hfirst).trans (by rw [hx, hend]))
    ⟨h1, h2, event_seen rfl hqc.notInReset (raise_mem _ _)⟩

/-- A refused write is discarded. -/
theorem request_writeRefused (hr : requestRefused (subHdr hdr) (cleared s) = true) (hk : (subHdr hdr).kind = 2) :
    Completes (.remoteRequestReceive ⟨rp, hdr⟩ data) s fun t => t = cleared s := by
  have hqc : Quiet (cleared s) := hq
  have hx : firstRequest rp (subHdr hdr) (data.take (subHdr hdr).dlen) (cleared s) = cleared s :=
    (firstRequest_refused hqc.eccClean hr).trans (if_pos hk)
  have hrest : exec (.remoteRequestReceive ⟨rp, hdr⟩ data) s = .next (settle (cleared s)) :=
    (exec_request hdst hnum hrun (.inr hk) hfirst).trans (by rw [hx, hqc.nothingQueued.idle])
  exact completes_quiet hrest hq.1 rfl

/-- A refused read is answered with STATUS 0x02. -/
theorem request_readRefused (hr : requestRefused (subHdr hdr) (cleared s) = true) (hk : (subHdr hdr).kind = 1)
    (hc : claimOk s.crl 21 1 = true) :
    Completes (.remoteRequestReceive ⟨rp, hdr⟩ data) s fun t => RestSame s t ∧ t.regs = s.regs ∧
      ∃ y ∈ listPkts t 21, y.origin = .remote (subHdr hdr).src (subHdr hdr).tag ∧ y.sent = 2 ∧ y.data = [] := by
  have hqc : Quiet (cleared s) := hq
  have hx := (firstRequest_refused (rp := rp) (data := data.take (subHdr hdr).dlen) hqc.eccClean hr).trans (if_neg (by omega))
  obtain ⟨x, hend, hub, hp, y, hy, hyo⟩ :=
    respondStatus_queued (rp := rp) hqc hc (subHdr hdr).src (subHdr hdr).tag 2 (cyc (cleared s) % 65536)
  obtain ⟨h1, h2⟩ := hub.restSame
  refine completes_settle ((exec_request hdst hnum hrun (.inl hk) hfirst).trans (by rw [hx, hend])) ⟨h1, h2, y, ?_, hyo⟩
  rw [settle_lists hp (by decide)]; exact hy

end

/-! A response, and the time of a request of this node -/

section
variable {rp : RingPort} {hdr data : List Byte} {s : State} {r : RemTx} (hq : Quiet s)
include hq

section
variable (hrun : s.pwr.st = .run) (hdst : (subHdr hdr).dst = s.rng.num) (hr : remOf s (subHdr hdr).tag = some r)
  (hk : (subHdr hdr).kind = 3)
include hrun hdst hr hk

/-- A response with a failure ends the mailbox's request with code 6. -/
theorem response_failed (ho : r.origin = .mailbox) (hleft : r.left = true) (hsrc : r.dst = (subHdr hdr).src)
    (hst : (subHdr hdr).status ≠ 0) :
    Completes (.remoteResponseReceive ⟨rp, hdr⟩ data) s fun t => RestSame { s with rng := t.rng, mnt := t.mnt } t ∧ t.regs = s.regs ∧
      remOf t (subHdr hdr).tag = none ∧ t.mnt = { s.mnt with legEnd := some (true, 6, []) } := by
  have hx := exec_run (c := .remoteResponseReceive ⟨rp, hdr⟩ data) (fun s => endPump (remoteResponse rp (subHdr hdr) data s)) rfl
    (congrArg endPump (remoteResponse_failed (s := cleared s) hdst hrun hk hr hleft hsrc hst))
  obtain ⟨t, ht, h1, h2, h3, h4, -⟩ := mailOutcome_completes hq hx ho rfl (.refl 24 _)
  exact ⟨t, ht, h1, h2, remOf_tag hr ▸ h3, h4⟩

/-- A whole response ends it with its bytes. -/
theorem response_whole (ho : r.origin = .mailbox) (hleft : r.left = true) (hsrc : r.dst = (subHdr hdr).src)
    (hst : (subHdr hdr).status = 0) (hf : (subHdr hdr).first = true) (hlast : (subHdr hdr).last = true)
    (hlen : (data.take (subHdr hdr).dlen).length = (subHdr hdr).size) (hc : claimOk s.crl 24 (cellsFor (subHdr hdr).size) = true) :
    Completes (.remoteResponseReceive ⟨rp, hdr⟩ data) s fun t => RestSame { s with rng := t.rng, mnt := t.mnt } t ∧ t.regs = s.regs ∧
      remOf t (subHdr hdr).tag = none ∧ t.mnt = { s.mnt with legEnd := some (false, 0, data.take (subHdr hdr).dlen) } := by
  have hqc : Quiet (cleared s) := hq
  obtain ⟨s1, htake, hub, hl⟩ :=
    takeFragment_stored (rp := rp) (r := r) (bs := data.take (subHdr hdr).dlen) hqc.lists hf hc
  have hx := exec_run (c := .remoteResponseReceive ⟨rp, hdr⟩ data) (fun s => endPump (remoteResponse rp (subHdr hdr) data s)) rfl
    (congrArg endPump (remoteResponse_whole (s := cleared s) hdst hrun hk hr hleft hsrc hst htake hlast hlen))
  obtain ⟨t, ht, h1, h2, h3, h4, -⟩ := mailOutcome_completes hq hx ho hub hl
  exact ⟨t, ht, h1, h2, remOf_tag hr ▸ h3, h4⟩

/-- A response of another node than the one asked does nothing. -/
theorem response_other (hsrc : r.dst ≠ (subHdr hdr).src) :
    Completes (.remoteResponseReceive ⟨rp, hdr⟩ data) s fun t => t = cleared s := by
  have hqc : Quiet (cleared s) := hq
  have hx := exec_run (c := .remoteResponseReceive ⟨rp, hdr⟩ data) (fun s => endPump (remoteResponse rp (subHdr hdr) data s)) rfl
    ((congrArg endPump (remoteResponse_other (s := cleared s) hdst hrun hk hr hsrc)).trans hqc.endPump)
  exact completes_quiet hx hq.1 rfl

end

section
variable {tag : BitVec 12} (hr : remOf s tag.toNat = some r)
include hr

/-- The time of a request has passed: it ends with code 6. -/
theorem remTimeout_expires (ho : r.origin = .mailbox) (hleft : r.left = true) (hold : remTimeout s ≤ (s.lom.cycle - r.cycle).toNat) :
    Completes (.remTimeout tag) s fun t => RestSame { s with rng := t.rng, mnt := t.mnt } t ∧ t.regs = s.regs ∧
      remOf t tag.toNat = none ∧ EventSet t 185 ∧ t.mnt = { s.mnt with legEnd := some (true, 6, []) } := by
  obtain ⟨a, b, hop⟩ := remTimeoutOp_expires (s := cleared s) hr hleft hold
  have hx := exec_run (c := .remTimeout tag) (fun s => endPump (remTimeoutOp tag.toNat s)) rfl (congrArg endPump hop)
  obtain ⟨t, ht, h1, h2, h3, h4, h5⟩ := mailOutcome_completes hq hx ho rfl (.of_crl rfl)
  exact ⟨t, ht, h1, h2, remOf_tag hr ▸ h3, h5 185 .rng _ rfl (raiseD_mem _ _ _ _), h4⟩

/-- Before its time nothing happens to it. -/
theorem remTimeout_waits (hnew : (s.lom.cycle - r.cycle).toNat < remTimeout s) :
    Completes (.remTimeout tag) s fun t => t = cleared s := by
  have hqc : Quiet (cleared s) := hq
  have hx := exec_run (c := .remTimeout tag) (fun s => endPump (remTimeoutOp tag.toNat s)) rfl
    ((congrArg endPump (remTimeoutOp_waits (s := cleared s) hr hnew)).trans hqc.endPump)
  exact completes_quiet hx hq.1 rfl

end

/-! The rest of a write -/

section
variable {src : BitVec 7} {tag : BitVec 12}

/-- A part of a write whose rest does not come leaves its segment. -/
theorem fragmentTimeout_drops {g : Seg} {x : Pkt} (hpart : partOf s src.toNat tag.toNat = some (remQ g))
    (hl : listPkts s (remQ g) = [x]) (hw : x.isRead = false) (he : s.seg[g].eng = none) (hp : s.seg[g].paused = []) :
    Completes (.remoteWriteFragmentTimeout src tag) s fun t =>
      listPkts t (remQ g) = [] ∧ EventSet t 121 ∧ EventSet t (segEv g 2) ∧ t.regs = s.regs ∧ SegOnly g { s with img := t.img } t := by
  have hqc : Quiet (cleared s) := hq
  obtain ⟨x, hx, hseg, hgood, hlist, h121, hev⟩ := fragmentTimeout_works (s := cleared s) hqc hpart hl hw he hp
  obtain ⟨hsegOnly, hregs⟩ := hseg.segOnly
  have hbx : x.pwr.boot ≠ .inReset := by rw [hseg.1]; exact hqc.notInReset
  refine completes_settle (exec_run (fun s => endPump (fragmentTimeout src.toNat tag.toNat s)) rfl hx)
    ⟨?_, event_seen rfl hbx h121, event_seen (segEv_page g 2 (by decide)) hbx hev, hregs, hsegOnly⟩
  rw [settle_lists hgood (by unfold remQ; omega)]; exact hlist

/-- Without a part of it nothing happens. -/
theorem fragmentTimeout_idle (hpart : partOf s src.toNat tag.toNat = none) (hdrop : droppedOf s src.toNat tag.toNat = none) :
    Completes (.remoteWriteFragmentTimeout src tag) s fun t => t = cleared s := by
  have hqc : Quiet (cleared s) := hq
  have hx := exec_run (c := .remoteWriteFragmentTimeout src tag) (fun s => endPump (fragmentTimeout src.toNat tag.toNat s)) rfl
    ((congrArg endPump (fragmentTimeout_none (s := cleared s) hpart hdrop)).trans hqc.endPump)
  exact completes_quiet hx hq.1 rfl

end

/-! A ring command -/

section
variable (hrun : s.pwr.st = .run) (hnum : s.rng.num ≠ 0) (hdst : (subHdr hdr).dst = s.rng.num) (hk : (subHdr hdr).kind = 4)
  (hc : claimOk s.crl 25 1 = true)
include hrun hnum hdst hk hc

/-- Without presence it is refused. -/
theorem remCmd_refused (hp : s.lcc.presence = false) :
    Completes (.remCmd hdr) s fun t => RestSame { s with rng := t.rng } t ∧ t.regs = s.regs ∧ t.rng.node = s.rng.node ∧ EventSet t 188 ∧
      ∃ b, t.rng.carry = s.rng.carry ++ [b] ∧ (subHdr b).kind = 5 ∧ (subHdr b).dst = (subHdr hdr).src ∧ (subHdr b).status = 2 := by
  have hqc : Quiet (cleared s) := hq
  have hx : exec (.remCmd hdr) s = .next (settle (remCmdOp (subHdr hdr) (cleared s))) := exec_run (remCmdOp (subHdr hdr)) rfl rfl
  obtain ⟨hring, hmnt, hrng, hocc⟩ := remCmdOp_refused (s := cleared s) hk hdst hnum hrun hqc.ptrs hc hp
  generalize remCmdOp (subHdr hdr) (cleared s) = x at *
  obtain ⟨h1, h2⟩ := hring.restSame
  have hbx : x.pwr.boot ≠ .inReset := by rw [hring.1]; exact hqc.notInReset
  rw [hmnt] at h1
  exact completes_settle hx ⟨by rw [settled_rng]; exact h1, h2, by rw [settled_rng, hrng]; rfl, event_seen rfl hbx hocc,
    _, by rw [settled_rng, hrng]; rfl, cmdAnswer_read (subHdr_src_lt hdr) (by decide)⟩

/-- With presence a withdrawal is executed. -/
theorem remCmd_withdraws (hp : s.lcc.presence = true) (hpat : (subHdr hdr).pat = 4) (hcan : canWithdraw s = true)
    (hg7 : getFld s .glb 0x064 7 7 = 0) :
    Completes (.remCmd hdr) s fun t => t.rng.node = .listen ∧ EventSet t 188 ∧
      ∃ b, t.rng.carry = s.rng.carry ++ [b] ∧ (subHdr b).kind = 5 ∧ (subHdr b).dst = (subHdr hdr).src ∧ (subHdr b).status = 0 := by
  have hqc : Quiet (cleared s) := hq
  have hx : exec (.remCmd hdr) s = .next (settle (remCmdOp (subHdr hdr) (cleared s))) := exec_run (remCmdOp (subHdr hdr)) rfl rfl
  obtain ⟨hnode, hcarry, hb, hocc⟩ := remCmdOp_withdraws (s := cleared s) hk hdst hnum hrun hqc.ptrs hc hp hpat hcan hg7
  generalize remCmdOp (subHdr hdr) (cleared s) = x at *
  have hbx : x.pwr.boot ≠ .inReset := by rw [hb]; exact hqc.notInReset
  exact completes_settle hx ⟨by rw [settled_rng]; exact hnode, event_seen rfl hbx hocc,
    _, by rw [settled_rng]; exact hcarry, cmdAnswer_read (subHdr_src_lt hdr) (by decide)⟩

end

end

end Sys2Proof.Machine
end

section
open Sys2Proof Sys2Proof.Machine

/-- Settles O49: each request, response, time-out and ring command of another node completes as the lemma on it says. -/
theorem remoteAccesses : Obligations.RemoteAccesses := by
  unfold Obligations.RemoteAccesses
  intro rp hdr data s hq hrun hg7 hnum hdst h p
  refine ⟨fun hfirst => ⟨fun hv hnode hacc => ?accepted, fun hbad => ?refused⟩, ?responses, ?timeouts, ?fragments, ?idle, ?commands⟩
  case accepted =>
    have hr : requestRefused h (cleared s) = false := requestRefused_false hv hnode hacc
    refine ⟨fun hk hlast hlen hc => ?_, fun hk _ hc => ?_, fun hk hc => ?_⟩
    · obtain ⟨cells, t, ht, h1, h2, hy⟩ :=
        request_queued (rp := rp) (data := data) hq hrun hnum hdst hfirst hr (.inr hk) (by rw [if_pos hk]; exact hc)
      refine ⟨t, ht, h1, h2, _, hy, rfl, decide_eq_false (not_not.2 hk), ?_, rfl, rfl⟩
      show (decide (h.kind ≠ 2) || (h.last && (data.take h.dlen).length == h.size)) = true
      rw [hlast, hlen]; simp
    · have hk2 : h.kind ≠ 2 := by rw [hk]; decide
      obtain ⟨cells, t, ht, h1, h2, hy⟩ :=
        request_queued (rp := rp) (data := data) hq hrun hnum hdst hfirst hr (.inl hk) (by rw [if_neg hk2]; exact hc)
      exact ⟨t, ht, h1, h2, _, hy, rfl, decide_eq_true hk2, rfl, rfl⟩
    · exact request_noCells hq hrun hnum hdst hfirst hr (.inr hk) (by rw [if_pos hk]; exact hc)
  case refused =>
    have hr : requestRefused h (cleared s) = true := (requestRefused_iff h (cleared s)).2 hbad
    exact ⟨request_writeRefused hq hrun hnum hdst hfirst hr, request_readRefused hq hrun hnum hdst hfirst hr⟩
  case responses =>
    intro r hr ho hleft
    refine ⟨fun hk hsrc => ⟨?_, ?_⟩, fun hk => response_other hq hrun hdst hr hk⟩
    · exact response_failed hq hrun hdst hr hk ho hleft hsrc
    · exact response_whole hq hrun hdst hr hk ho hleft hsrc
  case timeouts => exact fun tag r hr ho hleft => ⟨remTimeout_expires hq hr ho hleft, remTimeout_waits hq hr⟩
  case fragments => exact fun src tag g x => fragmentTimeout_drops hq
  case idle => exact fun src tag => fragmentTimeout_idle hq
  case commands =>
    intro hk hc
    refine ⟨remCmd_refused hq hrun hnum hdst hk hc, fun hp hpat hcan => ?_⟩
    exact remCmd_withdraws hq hrun hnum hdst hk hc hp hpat hcan hg7

end

section
/-!
SUPPORT. The configuration space of a port (R92, R93), and a non-posted request that its port answers at once (R98, R117).
-/

namespace Sys2Proof.Machine

open Sys2Proof

/-! The configuration space -/

section
variable {p : Port} {s : State}

theorem cfgGet_congr {t : State} (h : t.port[p].cfg = s.port[p].cfg) (n : Nat) : cfgGet t p n = cfgGet s p n := by unfold cfgGet; rw [h]

theorem cfgGet_cfgSet_same (dw : Nat) (w : Word) : cfgGet (cfgSet p dw w s) p dw = w := by
  unfold cfgGet cfgSet; rw [modPort_same]; exact mget_mset_same _ _ _ _

theorem cfgGet_cfgSet_other {dw n : Nat} (h : n ≠ dw) (w : Word) : cfgGet (cfgSet p dw w s) p n = cfgGet s p n := by
  unfold cfgGet cfgSet; rw [modPort_same]; exact mget_mset_other _ _ _ h _

theorem sentBy_congr {t : State} {os : List Out} (h : t.port[p].cfg = s.port[p].cfg) : sentBy t p os = sentBy s p os := by
  unfold sentBy; rw [ecrcGen_congr h]

/-- The byte of Interrupt Line is the one writable field of its DWORD (Table 4.2). -/
theorem cfgWrite_interruptLine (d : Word) :
    cfgWrite p 0x0F 0xF d s = cfgSet p 0x0F ((cfgGet s p 0x0F &&& 0xFFFFFF00#32) ||| (d &&& 0xFF#32)) s := by
  have hm : cfgMasks 0x0F = (0xFF, 0) := rfl
  have hrw : BitVec.ofNat 32 0xFF &&& beMask 0xF = 0xFF#32 := by decide
  have hclear : ~~~(BitVec.ofNat 32 0 &&& beMask 0xF &&& d) = BitVec.allOnes 32 := by simp
  unfold cfgWrite; dsimp only
  rw [if_neg fun h => absurd h.1 (by decide), hm, hrw, hclear, BitVec.and_allOnes]
  rfl

end

/-! The answer to a non-posted request -/

section
variable {p : Port} {tag : Nat} {hd : Hdr} {os : List Out} {s : State}

/-- The configuration is the one before the request. -/
theorem requested_cfg : (requested p tag hd s).port[p].cfg = s.port[p].cfg := by
  unfold requested holdTag receipt; rw [modPort_same, modPort_same]; rfl

/-- What leaves in answer to it. -/
theorem requested_out : (dropTag p tag (sendOut p os (requested p tag hd s))).out = sentBy s p os := by
  have e : (dropTag p tag (sendOut p os (requested p tag hd s))).out = [] ++ sentBy (requested p tag hd s) p os := rfl
  rw [e, List.nil_append, sentBy_congr requested_cfg]

/-- A request that is answered leaves its port as one that has received it (R98). -/
theorem answered_requested :
    dropTag p tag (sendOut p os (requested p tag hd s)) = { receipt p (cleared s) with out := sentBy s p os } := by
  have hport : (dropTag p tag (sendOut p os (requested p tag hd s))).port = (receipt p (cleared s)).port := by
    have e : (dropTag p tag (sendOut p os (requested p tag hd s))).port =
        (modPort p (fun q => { q with np := q.np.eraseP fun x => x.tag == tag })
          (modPort p (fun q => { q with l1 := false })
            (modPort p (fun q => { q with np := ⟨tag, hd⟩ :: q.np }) (receipt p (cleared s))))).port := rfl
    rw [e, modPort_twice, modPort_twice, modPort_id]
    unfold receipt; rw [modPort_same]; simp
  have hrest : dropTag p tag (sendOut p os (requested p tag hd s)) = { receipt p (cleared s) with
      out := (dropTag p tag (sendOut p os (requested p tag hd s))).out,
      port := (dropTag p tag (sendOut p os (requested p tag hd s))).port } := rfl
  rw [hrest, requested_out, hport]

/-- Outside the ECRC controls, a change of the configuration and an answer do not meet. -/
theorem answered_cfgSet {dw : Nat} (h : dw ≠ 0x46) (w : Word) :
    dropTag p tag (sendOut p os (cfgSet p dw w s)) = cfgSet p dw w (dropTag p tag (sendOut p os s)) := by
  have hgen : ecrcGen (cfgSet p dw w s) p = ecrcGen s p := by unfold ecrcGen; rw [cfgGet_cfgSet_other h.symm]
  have hport : (dropTag p tag (sendOut p os (cfgSet p dw w s))).port = (cfgSet p dw w (dropTag p tag (sendOut p os s))).port := by
    have e1 : (dropTag p tag (sendOut p os (cfgSet p dw w s))).port = (modPort p (fun q => { q with np := q.np.eraseP fun x => x.tag == tag })
      (modPort p (fun q => { q with l1 := false }) (modPort p (fun q => { q with cfg := mset (cfgDefault dw) dw w q.cfg }) s))).port := rfl
    have e2 : (cfgSet p dw w (dropTag p tag (sendOut p os s))).port = (modPort p (fun q => { q with cfg := mset (cfgDefault dw) dw w q.cfg })
      (modPort p (fun q => { q with np := q.np.eraseP fun x => x.tag == tag }) (modPort p (fun q => { q with l1 := false }) s))).port := rfl
    rw [e1, e2, modPort_twice, modPort_twice, modPort_twice, modPort_twice]
  have hout : (dropTag p tag (sendOut p os (cfgSet p dw w s))).out = (cfgSet p dw w (dropTag p tag (sendOut p os s))).out := by
    have e1 : (dropTag p tag (sendOut p os (cfgSet p dw w s))).out = s.out ++ sentBy (cfgSet p dw w s) p os := rfl
    have e2 : (cfgSet p dw w (dropTag p tag (sendOut p os s))).out = s.out ++ sentBy s p os := rfl
    rw [e1, e2]; unfold sentBy; rw [hgen]
  have hrest : dropTag p tag (sendOut p os (cfgSet p dw w s)) = { cfgSet p dw w (dropTag p tag (sendOut p os s)) with
      out := (dropTag p tag (sendOut p os (cfgSet p dw w s))).out,
      port := (dropTag p tag (sendOut p os (cfgSet p dw w s))).port } := rfl
  rw [hrest, hout, hport]

end

/-! The turn of a configuration request (R92, R93, R117) -/

section
variable {p : Port} {dw : Nat} {w : Bool} {be : BitVec 4} {d : Word} {tag : Nat} {s : State}

theorem configTake_retry (h : s.port[p].crs = true) :
    configTake p dw w be d tag s = dropTag p tag (sendOut p [.cpl p tag 2 false 0 0 []] s) := by
  unfold configTake; dsimp only; rw [if_pos h]

theorem configTake_read (h : s.port[p].crs = false) : configTake p dw false be d tag s =
    dropTag p tag (sendOut p [.cpl p tag 0 false 4 0 (bytesLE 4 (cfgRead s p dw).toNat)] (if margins dw then tookFree s else s)) := by
  unfold configTake; dsimp only; rw [h]; rfl

/-- A write of Interrupt Line resets nothing and lets no message go. -/
theorem configTake_interruptLine (h : s.port[p].crs = false) (hp : s.msix[p].pba = []) : configTake p 0x0F true 0xF d tag s =
    cfgSet p 0x0F ((cfgGet s p 0x0F &&& 0xFFFFFF00#32) ||| (d &&& 0xFF#32)) (dropTag p tag (sendOut p [.cpl p tag 0 false 4 0 []] s)) := by
  have hflush : ∀ t : State, t.msix = s.msix → msixFlush p t = t := fun t ht => by unfold msixFlush; rw [ht, hp]; rfl
  unfold configTake; dsimp only
  rw [h, cfgWrite_interruptLine, answered_cfgSet (by decide)]
  exact hflush _ rfl

/-- What a read shows depends on its port, the identity of the device and the free values. -/
theorem cfgRead_requested {hd : Hdr} : cfgRead (requested p tag hd s) p dw = cfgRead s p dw := by
  have hw : cfgGet (requested p tag hd s) p dw = cfgGet s p dw := cfgGet_congr requested_cfg dw
  have hport : (requested p tag hd s).port[p].speed = s.port[p].speed ∧ (requested p tag hd s).port[p].width = s.port[p].width := by
    unfold requested holdTag receipt; rw [modPort_same, modPort_same]; exact ⟨rfl, rfl⟩
  have hfree : freeVal (requested p tag hd s) = freeVal s := rfl
  have hlcc : (requested p tag hd s).lcc = s.lcc := rfl
  unfold cfgRead; rw [hw, hport.1, hport.2, hfree, hlcc]

end

/-- What CONFIG_REQUEST answers when its port takes it at once. -/
theorem exec_configRequest {p : Port} {dw : BitVec 10} {w : Bool} {be : BitVec 4} {d : Word} {tag : BitVec 10} {s : State}
    (hup : s.port[p].dlUp = true) (hrx : s.port[p].rx = []) (hroom : npRoom s p = true) :
    exec (.configRequest p dw w be d tag) s = .next (settle (configTake p dw.toNat w be d tag.toNat (requested p tag.toNat noHdr s))) :=
  exec_run (configOp p dw.toNat w be d tag.toNat) rfl (recvNonPosted_taken (s := cleared s) hup hroom rfl hrx rfl)

end Sys2Proof.Machine

open Sys2Proof Sys2Proof.Machine

/-- Settles O18: the port takes the request at once, and its turn answers it in each of the three cases. -/
theorem configurationRequests : Obligations.ConfigurationRequests := by
  unfold Obligations.ConfigurationRequests
  intro p dw be d tag s hd hup hrx hroom
  have crsKept : (requested p tag.toNat noHdr s).port[p].crs = s.port[p].crs := by
    unfold requested holdTag receipt; rw [modPort_same, modPort_same]; rfl
  refine ⟨fun hcrs w => ?retry, fun hcrs => ?read, fun hcrs hpba => ?write⟩
  case retry =>
    have hx := exec_configRequest (dw := dw) (w := w) (be := be) (d := d) (tag := tag) hup hrx hroom
    rw [configTake_retry (crsKept.trans hcrs), answered_requested] at hx
    exact completes_quiet hx hd rfl
  case read =>
    have hx := exec_configRequest (dw := dw) (w := false) (be := be) (d := d) (tag := tag) hup hrx hroom
    rw [configTake_read (crsKept.trans hcrs), cfgRead_requested] at hx
    split at hx
    · exact completes_quiet hx hd (congrArg (fun x : State => { x with freeCount := s.freeCount + 1 }) answered_requested)
    · rw [answered_requested] at hx
      exact completes_quiet hx hd rfl
  case write =>
    have hx := exec_configRequest (dw := 0x0F) (w := true) (be := 0xF) (d := d) (tag := tag) hup hrx hroom
    rw [show (0x0F : BitVec 10).toNat = 0x0F from rfl, configTake_interruptLine (crsKept.trans hcrs) hpba, answered_requested,
      cfgGet_congr requested_cfg] at hx
    refine completes_quiet hx hd ⟨rfl, fun q hq => ?_, ?_, cfgGet_cfgSet_same _ _, fun n hn => ?_⟩
    · exact (modPort_other _ _ _ _ hq).trans (receipt_other hq _)
    · unfold cfgSet; rw [modPort_same]; show ({ (receipt p (cleared s)).port[p] with cfg := _ } : PortS) = _
      unfold receipt; rw [modPort_same]; rfl
    · rw [cfgGet_cfgSet_other hn]
      exact cfgGet_congr (by unfold receipt; rw [modPort_same]; rfl) n
end

section
/-!
SUPPORT. What changes at one port alone (PortOnly), and what an error report of a port leaves in its status registers (R113, R114).
-/

namespace Sys2Proof.Machine

open Sys2Proof

/-! Changes of one port -/

section
variable {p : Port} {s t u x : State}

/-- The parts that `PortOnly` compares. -/
theorem portOnly_iff : PortOnly p s t ↔
    SameStill s t ∧ Same3 State.bus State.ch State.mnt s t ∧ SamePlant s t ∧ Same3 State.vot State.alm State.tap s t ∧
      ∀ q, q ≠ p → t.port[q] = { s.port[q] with l1 := t.port[q].l1 } := by
  unfold PortOnly; rw [restSame_iff]
  constructor
  · rintro ⟨⟨h1, ⟨h2, h3, h4, -⟩, h5, h6, h7, h8, -⟩, h9⟩
    exact ⟨h1, ⟨h2, h3, h4⟩, h5, ⟨h6, h7, h8⟩, h9⟩
  · rintro ⟨h1, ⟨h2, h3, h4⟩, h5, ⟨h6, h7, h8⟩, h9⟩
    exact ⟨⟨h1, ⟨h2, h3, h4, rfl⟩, h5, h6, h7, h8, portsBut_same rfl⟩, h9⟩

theorem PortOnly.trans (h1 : PortOnly p s t) (h2 : PortOnly p t u) : PortOnly p s u := by
  rw [portOnly_iff] at *
  obtain ⟨a1, a2, a3, a4, a5⟩ := h1
  obtain ⟨b1, b2, b3, b4, b5⟩ := h2
  refine ⟨?_, ?_, ?_, ?_, fun q e => by rw [b5 q e, a5 q e]⟩ <;> clear a5 b5 <;> simp_all

/-- The link states of the other ports may differ too. -/
theorem portOnly_links (h : OnlyLinks s t) (hp : t.port = portsBut s t) : PortOnly p s t := by
  obtain ⟨h1, ⟨h2, h3, h4, -⟩, ⟨h5, h6, -⟩, h7, ⟨h8, -⟩, -⟩ := h
  exact portOnly_iff.2 ⟨h1, ⟨h2, h3, h4⟩, h7, ⟨h8, h5, h6⟩, fun q _ => (portsBut_iff s t).1 hp q⟩

theorem portOnly_reports (h : OnlyReports s t) : PortOnly p s t := by
  obtain ⟨h1, ⟨-, hp, -⟩, ⟨h2, h3, h4, -⟩, ⟨h5, h6, -⟩, h7, ⟨h8, -⟩⟩ := h
  exact portOnly_iff.2 ⟨h1, ⟨h2, h3, h4⟩, h7, ⟨h8, h5, h6⟩, fun q _ => by rw [hp]⟩

theorem portOnly_cleared : PortOnly p s (cleared s) := portOnly_links (by simp) (portsBut_same rfl)

theorem portOnly_modPort (f : PortS → PortS) : PortOnly p s (modPort p f s) :=
  portOnly_iff.2 ⟨by simp, by simp, by simp, by simp, fun q e => by rw [modPort_other _ _ _ _ e]⟩

/-- The state as a request of the port finds it. -/
theorem portOnly_receipt : PortOnly p s (receipt p (cleared s)) := portOnly_cleared.trans (portOnly_modPort _)

theorem portOnly_requested {tag : Nat} {hd : Hdr} : PortOnly p s (requested p tag hd s) := portOnly_receipt.trans (portOnly_modPort _)

theorem portOnly_portFlag (b : Nat) : PortOnly p s (portFlag p b s) := portOnly_reports (by simp)

theorem portOnly_raise (ev : Nat) : PortOnly p s (raise ev s) := portOnly_reports (by simp)

theorem portOnly_answered {tag : Nat} {os : List Out} : PortOnly p s (dropTag p tag (sendOut p os s)) :=
  (portOnly_links (by simp) (sendOut_sends p os s).1).trans (portOnly_modPort _)

/-- A bit of ERR_STAT that is set (Table 4.18) is one register's. -/
theorem portFlag_regs {b : Nat} (h : t.regs = s.regs) : (portFlag p b t).regs = (portFlag p b s).regs := by
  unfold portFlag putFld setReg; rw [getReg_congr h, h]

/-! Error reports -/

theorem aerUncorr_portOnly (b : Nat) (advisory : Bool) (h : Hdr) : PortOnly p s (aerUncorr p b advisory h s) :=
  portOnly_iff.2 ⟨by simp, by simp, by simp, by simp, fun q e => by rw [(aerUncorr_reports p b advisory h s).other e]⟩

theorem aerCorr_portOnly (b : Nat) : PortOnly p s (aerCorr p b s) := by
  have set : ∀ (t : State) (dw n : Nat), PortOnly p t (cfgOr p dw n t) := fun t dw n => portOnly_modPort _
  have sent : ∀ t : State, PortOnly p t (emit (.msg p "ERR_COR") t) := fun t => portOnly_links (by simp) (portsBut_same rfl)
  unfold aerCorr; dsimp only
  refine PortOnly.trans ?_ (portOnly_raise _)
  split
  · exact ((set _ _ _).trans (set _ _ _)).trans (sent _)
  · exact (set _ _ _).trans (set _ _ _)

/-- Bit `b` of the configuration DWORD `dw` of port `p` is set. -/
def CfgBit (p : Port) (dw b : Nat) (s : State) : Prop := bitAt (cfgGet s p dw) b = true

section
variable {dw b : Nat}

theorem CfgBit.congr (h : CfgBit p dw b s) (hp : t.port[p].cfg = s.port[p].cfg) : CfgBit p dw b t := by
  unfold CfgBit; rw [cfgGet_congr hp]; exact h

theorem CfgBit.ite {c : Prop} [Decidable c] (h1 : CfgBit p dw b t) (h2 : CfgBit p dw b u) : CfgBit p dw b (if c then t else u) := by
  split
  · exact h1
  · exact h2

/-- A bit that is set stays set while others are. -/
theorem CfgBit.cfgOr (h : CfgBit p dw b s) (n w : Nat) : CfgBit p dw b (cfgOr p n w s) := by
  unfold CfgBit Machine.cfgOr at *
  by_cases e : dw = n
  · subst e; rw [cfgGet_cfgSet_same]; unfold bitAt at *; rw [BitVec.getLsbD_or, h]; rfl
  · rw [cfgGet_cfgSet_other e]; exact h

theorem cfgOr_sets (hb : b < 32) : CfgBit p dw b (cfgOr p dw (2 ^ b) s) := by
  have hbit : (BitVec.ofNat 32 (2 ^ b)).getLsbD b = true := by
    rw [BitVec.getLsbD_ofNat, Nat.testBit_two_pow_self, decide_eq_true hb]; rfl
  unfold CfgBit cfgOr bitAt; rw [cfgGet_cfgSet_same, BitVec.getLsbD_or, hbit, Bool.or_true]

/-- The pointer and the header log lie behind the status registers. -/
theorem CfgBit.aerFirst (h : CfgBit p dw b s) (hdw : dw < 0x46) (n : Nat) (hd : Hdr) : CfgBit p dw b (aerFirst p n hd s) := by
  have set : ∀ (t : State) (m : Nat) (w : Word), 0x46 ≤ m → CfgBit p dw b t → CfgBit p dw b (cfgSet p m w t) := fun t m w hm ht => by
    unfold CfgBit; rw [cfgGet_cfgSet_other (by omega)]; exact ht
  unfold Machine.aerFirst; dsimp only
  exact set _ _ _ (by decide) (set _ _ _ (by decide) (set _ _ _ (by decide) (set _ _ _ (by decide) (set _ _ _ (by decide) h))))

/-- An uncorrectable error sets its bit of the status register (R113). -/
theorem aerUncorr_status (hb : b < 32) (advisory : Bool) (h : Hdr) : CfgBit p 0x41 b (aerUncorr p b advisory h s) := by
  unfold aerUncorr
  extract_lets masked fatal s1 adv s2 s3 s4 ctl serr s5 s6
  have h1 : CfgBit p 0x41 b s1 := cfgOr_sets hb
  have h2 : CfgBit p 0x41 b s2 := .ite (h1.cfgOr _ _) h1
  have h3 : CfgBit p 0x41 b s3 := h2.cfgOr _ _
  have h4 : CfgBit p 0x41 b s4 := .ite (h3.cfgOr _ _) (.ite (h3.cfgOr _ _) (.ite (h3.cfgOr _ _) h3))
  have h4s : CfgBit p 0x41 b (if serr then cfgOr p 0x01 (2 ^ 30) s4 else s4) := .ite (h4.cfgOr _ _) h4
  have h5 : CfgBit p 0x41 b s5 := .ite (.ite h4 h4) (.ite h4s (.ite h4s h4))
  exact (.ite h5 (h5.aerFirst (by decide) _ _) : CfgBit p 0x41 b s6)

/-- A correctable error sets its bit of its status register. -/
theorem aerCorr_status (hb : b < 32) : CfgBit p 0x44 b (aerCorr p b s) := by
  unfold aerCorr
  extract_lets s1 s2
  have h1 : CfgBit p 0x44 b s1 := (cfgOr_sets hb).cfgOr _ _
  exact (.ite h1 h1 : CfgBit p 0x44 b s2)

/-- The delivery of events leaves the configuration. -/
theorem CfgBit.settled (h : CfgBit p dw b s) : CfgBit p dw b (settle s) :=
  h.congr (by rw [(portsBut_iff s (settle s)).1 (settle_sends s).1 p])

end

theorem aerUncorr_raises (b : Nat) (advisory : Bool) (h : Hdr) : ∃ o ∈ (aerUncorr p b advisory h s).evh.occ, o.ev = cpEv p 6 := by
  unfold aerUncorr; exact raise_mem _ _

theorem aerCorr_raises (b : Nat) : ∃ o ∈ (aerCorr p b s).evh.occ, o.ev = cpEv p 6 := by
  unfold aerCorr; exact raise_mem _ _

/-- What a port shows of an error it reports: a status bit and its event, and no register. -/
def ErrorShown (p : Port) (dw b : Nat) (s t : State) : Prop :=
  PortOnly p s t ∧ t.regs = s.regs ∧ EventSet t (cpEv p 6) ∧ CfgBit p dw b t

theorem errorShown_settle {dw b : Nat} (hb : s.pwr.boot ≠ .inReset) (hp : PortOnly p s x) (hpwr : x.pwr = s.pwr) (hr : x.regs = s.regs)
    (ho : ∃ o ∈ x.evh.occ, o.ev = cpEv p 6) (hbit : CfgBit p dw b x) : ErrorShown p dw b s (settle x) :=
  ⟨portOnly_settle hp, (settle_regs x).trans hr, event_seen (cpEv_page p 6 (by decide)) (by rw [hpwr]; exact hb) ho, hbit.settled⟩

theorem aerUncorr_shown {b : Nat} (hn : s.pwr.boot ≠ .inReset) (hb : b < 32) (advisory : Bool) (h : Hdr) (hp : PortOnly p s x)
    (hpwr : x.pwr = s.pwr) (hr : x.regs = s.regs) : ErrorShown p 0x41 b s (settle (aerUncorr p b advisory h x)) :=
  errorShown_settle hn (hp.trans (aerUncorr_portOnly b advisory h)) (by simp [hpwr]) (by simp [hr]) (aerUncorr_raises _ _ _)
    (aerUncorr_status hb _ _)

theorem aerCorr_shown {b : Nat} (hn : s.pwr.boot ≠ .inReset) (hb : b < 32) (hp : PortOnly p s x)
    (hpwr : x.pwr = s.pwr) (hr : x.regs = s.regs) : ErrorShown p 0x44 b s (settle (aerCorr p b x)) :=
  errorShown_settle hn (hp.trans (aerCorr_portOnly b)) (by simp [hpwr]) (by simp [hr]) (aerCorr_raises b) (aerCorr_status hb)

end

end Sys2Proof.Machine
end

section
/-!
SUPPORT. The answers of Table 4.8 to a request that reaches no BAR (R91, R94).
-/

namespace Sys2Proof.Machine

open Sys2Proof

section
variable {p : Port} {tag : Nat} {s x : State}

/-- What a port shows of an error with a flag of its own: bit `b` of ERR_STAT and bit `e` of its EVENT (Tables 4.8 and 4.18). -/
def FlagShown (p : Port) (b e : Nat) (s t : State) : Prop :=
  PortOnly p s t ∧ OtherRegs (.cp p) 0x068 s t ∧ getFld t (.cp p) 0x068 b b = 1 ∧ EventSet t (cpEv p e)

theorem flagShown_settle {b e : Nat} (hb : b < 32) (he : e < 8) (hn : s.pwr.boot ≠ .inReset) (hp : PortOnly p s x) (hpwr : x.pwr = s.pwr)
    (hr : x.regs = (portFlag p b s).regs) (ho : ∃ o ∈ x.evh.occ, o.ev = cpEv p e) : FlagShown p b e s (settle x) := by
  have hregs := (settle_regs x).trans hr
  exact ⟨portOnly_settle hp, otherRegs_congr (otherRegs_putFld _ _ _ _ _ s) rfl hregs,
    (getFld_congr hregs _ _ _ _).trans (getFld_flag_one _ _ hb s), event_seen (cpEv_page p e he) (by rw [hpwr]; exact hn) ho⟩

/-- A non-posted request is answered with Unsupported Request. -/
theorem urRead_shown {hd : Hdr} (hn : s.pwr.boot ≠ .inReset) :
    let t := settle (urRead p tag (requested p tag hd s))
    FlagShown p 5 6 s t ∧ sentBy s p [.cpl p tag 1 false 0 0 []] <+: t.out := by
  intro t
  have hout : sentBy s p [.cpl p tag 1 false 0 0 []] <+: (urRead p tag (requested p tag hd s)).out := by
    rw [show (urRead p tag (requested p tag hd s)).out = (completeUr p tag (requested p tag hd s)).out by simp [urRead],
      ← requested_out (tag := tag) (hd := hd)]
    exact (aerUncorr_reports p 20 true (tagHdr _ p tag) _).2.1
  refine ⟨flagShown_settle (by decide) (by decide) hn ?_ (by simp [urRead, completeUr]) (portFlag_regs (by simp [completeUr])) (aerUncorr_raises _ _ _),
    hout.trans (settle_sends _).2⟩
  exact ((portOnly_requested.trans portOnly_answered).trans (aerUncorr_portOnly _ _ _)).trans (portOnly_portFlag 5)

/-- A posted one is discarded. -/
theorem urWrite_shown (hn : s.pwr.boot ≠ .inReset) (h : Hdr) : FlagShown p 5 6 s (settle (urWrite p h (receipt p (cleared s)))) :=
  flagShown_settle (by decide) (by decide) hn ((portOnly_receipt.trans (aerUncorr_portOnly _ _ _)).trans (portOnly_portFlag 5)) (by simp [urWrite])
    (portFlag_regs (by simp)) (aerUncorr_raises _ _ _)

theorem unsupportedOp_held {kind : UrKind} (h : urHeld kind = true) : unsupportedOp p kind tag s = urRead p tag s := by
  cases kind with
  | unsupportedNonPosted => rfl
  | noBarNonPosted => rfl
  | disabledNonPosted => rfl
  | _ => cases h

theorem unsupportedOp_posted {kind : UrKind} (h : urHeld kind = false) (hv : kind ≠ .vendorMessage1) :
    unsupportedOp p kind tag s = urWrite p noHdr s := by
  cases kind with
  | unsupportedPosted => rfl
  | noBarPosted => rfl
  | disabledPosted => rfl
  | vendorMessage0 => rfl
  | vendorMessage1 => exact absurd rfl hv
  | _ => cases h

end

section
variable {p : Port} {kind : UrKind} {tag : BitVec 10} {s : State} (hup : s.port[p].dlUp = true) (hrx : s.port[p].rx = [])
include hup hrx

/-- What UNSUPPORTED_REQUEST answers for a request that is held. -/
theorem exec_unsupported_held (ha : urApplies s p kind = true) (hh : urHeld kind = true) (hroom : npRoom s p = true) :
    exec (.unsupportedRequest p kind tag) s = .next (settle (urRead p tag.toNat (requested p tag.toNat noHdr s))) := by
  refine exec_run (fun s => if urApplies s p kind then unsupportedIn p kind tag.toNat s else s) rfl ?_
  rw [if_pos (show urApplies (cleared s) p kind = true from ha)]
  unfold unsupportedIn; rw [if_pos hh]
  exact recvNonPosted_taken (s := cleared s) hup hroom rfl hrx (congrArg some (unsupportedOp_held hh))

/-- What it answers for one that is not. -/
theorem exec_unsupported_posted (ha : urApplies s p kind = true) (hh : urHeld kind = false) :
    exec (.unsupportedRequest p kind tag) s = .next (settle (unsupportedOp p kind tag.toNat (receipt p (cleared s)))) := by
  refine exec_run (fun s => if urApplies s p kind then unsupportedIn p kind tag.toNat s else s) rfl ?_
  have hrx2 : (receipt p (cleared s)).port[p].rx = [] := by unfold receipt; rw [modPort_same]; exact hrx
  rw [if_pos (show urApplies (cleared s) p kind = true from ha)]
  unfold unsupportedIn; rw [hh, if_neg Bool.false_ne_true, if_pos (show portOpen (cleared s) p = true from hup)]
  unfold arrive; rw [hrx2]; rfl

omit hrx in
/-- What a command of a port whose link is up answers. -/
theorem exec_linkUp {c : Instr} {f : State → State} (hc : exec c s = run (linkUp p f) s) : exec c s = .next (settle (f (cleared s))) :=
  exec_run (linkUp p f) hc (if_pos hup)

end

end Sys2Proof.Machine

open Sys2Proof Sys2Proof.Machine

/-- Settles O19: every error is reported by its port; a request that is held is answered besides. -/
theorem requestErrors : Obligations.RequestErrors := by
  unfold Obligations.RequestErrors
  intro p s hd hn hup hrx
  refine ⟨fun kind tag ha hv hroom => ?unsupported, fun tag => ?ignored, fun kind hk => ?malformed, ?unexpected, fun kind => ?link⟩
  case unsupported =>
    cases hh : urHeld kind with
    | true =>
      obtain ⟨⟨h1, h2, h3, h4⟩, hout⟩ := urRead_shown (p := p) (tag := tag.toNat) (hd := noHdr) hn
      exact completes_settle (exec_unsupported_held hup hrx ha hh (hroom hh)) ⟨h1, h2, h3, h4, fun _ => hout⟩
    | false =>
      obtain ⟨h1, h2, h3, h4⟩ := urWrite_shown (p := p) hn noHdr
      have hx := exec_unsupported_posted (tag := tag) hup hrx ha hh
      rw [unsupportedOp_posted hh hv] at hx
      exact completes_settle hx ⟨h1, h2, h3, h4, fun h => by cases h⟩
  case ignored => exact completes_quiet (exec_unsupported_posted hup hrx rfl rfl) hd rfl
  case malformed =>
    have hx : exec (.malformedTlp p kind) s = .next (settle (malformedOp p kind (cleared s))) := exec_linkUp hup rfl
    have hchecked : ¬ (kind = .ecrc ∧ ecrcCheck (cleared s) p = false) := fun ⟨he, h⟩ => by
      rw [show ecrcCheck (cleared s) p = true from hk he] at h; cases h
    unfold malformedOp at hx; rw [if_neg hchecked] at hx
    refine completes_settle hx ?_
    cases kind with
    | _ => exact aerUncorr_shown hn (by decide) false noHdr portOnly_cleared rfl rfl
  case unexpected =>
    exact completes_settle (exec_linkUp (f := unexpectedCpl p) hup rfl) (aerUncorr_shown hn (by decide) true noHdr portOnly_cleared rfl rfl)
  case link =>
    have hx : exec (.linkLayerError p kind) s = .next (settle (linkLayerError p kind (cleared s))) := exec_linkUp hup rfl
    refine completes_settle hx ?_
    cases kind with
    | _ => exact aerCorr_shown hn (by decide) portOnly_cleared rfl rfl
end

section
/-!
SUPPORT. A BAR2 request that finds its port free (R95, R99, R100), and the regions that its bytes lie in (Table 2.15).
-/

namespace Sys2Proof.Machine

open Sys2Proof

/-! Enabled bytes -/

theorem putEnabled_cons (a : Nat) (b : Byte) (bs : List Byte) (e : Bool) (en : List Bool) (m : SMap Byte) :
    putEnabled a (b :: bs) (e :: en) m = putEnabled (a + 1) bs en (if e then mset 0 a b m else m) := by
  unfold putEnabled
  rw [List.zip_cons_cons, List.zipIdx_cons, List.foldl_cons, List.zipIdx_succ, List.foldl_map]
  simp only [Nat.add_zero, Nat.add_comm 1, Nat.add_assoc]

/-- A write stores the enabled bytes and no other (R260). -/
theorem mget_putEnabled (bs : List Byte) (en : List Bool) (hl : en.length = bs.length) (a x : Nat) (m : SMap Byte) :
    mget 0 (putEnabled a bs en m) x =
      if a ≤ x ∧ x < a + bs.length ∧ en.getD (x - a) false = true then bs.getD (x - a) 0 else mget 0 m x := by
  induction bs generalizing en a m with
  | nil => rw [if_neg (by simp only [List.length_nil]; omega)]; rfl
  | cons b bs ih =>
    obtain _ | ⟨e, en⟩ := en
    · cases hl
    rw [putEnabled_cons, ih en (by simpa using hl), List.length_cons]
    have hm : x ≠ a → mget 0 (if e then mset 0 a b m else m) x = mget 0 m x := fun hne => by
      split
      · exact mget_mset_ne _ _ hne m
      · rfl
    rcases Nat.lt_trichotomy x a with h | rfl | h
    · rw [hm (by omega), if_neg (by omega), if_neg (by omega)]
    · rw [if_neg (by omega), Nat.sub_self]
      cases e <;> simp
    · obtain ⟨i, rfl⟩ : ∃ i, x = a + 1 + i := ⟨x - (a + 1), by omega⟩
      have h1 : a + 1 + i - (a + 1) = i := by omega
      have h2 : a + 1 + i - a = i + 1 := by omega
      rw [hm (by omega), h1, h2, List.getD_cons_succ, List.getD_cons_succ]
      congr 1
      simp only [eq_iff_iff]; constructor <;> rintro ⟨-, h4, h5⟩ <;> exact ⟨by omega, by omega, h5⟩

/-- Where every byte is permitted the enables stand. -/
theorem enables_permitted (f : Nat → Bool) (en : List Bool) (h : ∀ i, i < en.length → f i = true) :
    (en.zipIdx.map fun e => e.1 && f e.2) = en := by
  refine List.ext_getElem (by simp) fun i h1 h2 => ?_
  simp [h i h2]

/-! Regions -/

theorem bar2Region_image {off : Nat} (h : off < 0x800000) : bar2Region off = (.image, off) := by unfold bar2Region; rw [if_pos h]

/-- The bytes from 0xC0_0000 to 0xD3_FFFF are those of the active bank that LOM reports (R244). -/
theorem bar2Store_active {off : Nat} (hl : 0xC00000 ≤ off) (hh : off < 0xD40000) (r : Req) (bs : List Byte) (en : List Bool) (s : State) :
    bar2Store r off bs en s = bar2Refuse r .lom off bs s := by
  have hr : (bar2Region off).1 = .patAct ∨ (bar2Region off).1 = .ephAct := by
    unfold bar2Region
    simp only [Bool.and_eq_true, decide_eq_true_eq]
    repeat rw [if_neg (by omega)]
    split
    · exact .inl rfl
    · rw [if_pos (by omega)]; exact .inr rfl
  unfold bar2Store
  rcases h : bar2Region off with ⟨g, o⟩
  rw [h] at hr
  rcases hr with hg | hg <;> (obtain rfl : g = _ := hg; rfl)

/-- A write of the channel's own staging area is permitted in full (R260). -/
theorem bar2Store_own {p : Port} {off : Nat} {bs : List Byte} {en : List Bool} {s : State} (h : off < 0x800000)
    (ho : ∀ i, i < en.length → areaOf s.lom.act (off + i) = 3 + p.val) :
    bar2Store (portReq p) off bs en s = { s with img := { s.img with mem := putEnabled off bs en s.img.mem } } := by
  have hmay : (en.zipIdx.map fun e => e.1 && imgMay s (portReq p) (areaOf s.lom.act (off + e.2))) = en := by
    refine enables_permitted (fun i => imgMay s (portReq p) (areaOf s.lom.act (off + i))) en fun i hi => ?_
    have h7 : 3 + p.val < 7 := by omega
    unfold imgMay portReq; simp [ho i hi, h7]
  unfold bar2Store; rw [bar2Region_image h]; dsimp only
  rw [hmay, if_pos rfl]

/-- What a READY or OBSERVER channel may write. -/
theorem ownStaging_own {p : Port} {off : Nat} {s : State} (h : off < 0x800000) (ho : areaOf s.lom.act off = 3 + p.val) :
    ownStaging s p off = true := by
  unfold ownStaging; rw [bar2Region_image h]; simpa using ho

/-! A read without a word in error (R99) -/

section
variable {p : Port} {off n tag : Nat} {s : State}

theorem markEp_clean (bad : Nat → Bool) (hb : ∀ a, bad a = false) (a : Nat) (os : List Out) : markEp bad a os = os := by
  induction os generalizing a with
  | nil => cases a <;> rfl
  | cons o os ih =>
    cases o with
    | cpl p tag st ep bc lo d => simp [markEp, ih, hb]
    | _ => simp [markEp, ih]

theorem bar2Ecc_clean (he : s.tap.ecc = []) (a : Nat) : bar2Ecc s a = none := by
  unfold bar2Ecc; split
  · unfold eccOf; rw [he]; rfl
  · rfl

theorem bar2Complete_clean (he : s.tap.ecc = []) : bar2Complete p off n tag s =
    dropTag p tag (sendOut p (splitCpl p tag 0 off (mps s p) 0 n (bar2Bytes s off n)) s) := by
  have hdata : bar2Data s off n = bar2Bytes s off n := by unfold bar2Data; rw [he]; rfl
  have hmeet : ∀ t : State, t.tap = s.tap → bar2Meet off n t = t := fun t ht => by unfold bar2Meet; rw [ht, he]; rfl
  unfold bar2Complete; simp only [bar2Ecc_clean he]
  rw [markEp_clean _ (fun _ => by simp), hdata]
  simp [hmeet]

end

end Sys2Proof.Machine
end

section
/-!
SUPPORT. The turn of a BAR2 request of a channel in service (R50, R95, R128, R259, R260).
-/

namespace Sys2Proof.Machine

open Sys2Proof

section
variable {p : Port} {off n tag : Nat} {bs : List Byte} {en : List Bool} {s y : State}

/-- A request that finds its BAR free takes its turn at once (R100). -/
theorem takeRx_free {x : RxTlp} (hrx : s.port[p].rx = []) (hbar : s.port[p].bar = []) (hx : takeRx p x s = some (barIn p x s))
    (ht : barTake p x s = (none, y)) : takeRx p x s = some y := by
  have h := arrive_free p x s hrx hbar hx
  rw [ht] at h; unfold arrive at h
  rw [hrx, hx] at h
  exact hx.trans (congrArg some h)

/-- A BAR2 access of port `p` reaches its region: its BARs respond, its channel is in service, CORE runs, and no earlier request waits. -/
structure Bar2Ready (p : Port) (s : State) : Prop where
  on : barOn s p = true
  service : s.ch[p].st.inService = true
  core : CoreRuns s
  rx : s.port[p].rx = []
  bar : s.port[p].bar = []

theorem Bar2Ready.wake (h : Bar2Ready p s) : portWake p s = s := wakeCore_runs _ _ s h.core

theorem Bar2Ready.received (h : Bar2Ready p s) : Bar2Ready p (receipt p (cleared s)) where
  on := (barOn_receipt p (cleared s)).trans h.on
  service := h.service
  core := h.core
  rx := by unfold receipt; rw [modPort_same]; exact h.rx
  bar := by unfold receipt; rw [modPort_same]; exact h.bar

theorem Bar2Ready.requested {hd : Hdr} (h : Bar2Ready p s) : Bar2Ready p (requested p tag hd s) where
  on := (barOn_congr requested_cfg rfl).trans h.on
  service := h.service
  core := h.core
  rx := by unfold Machine.requested holdTag receipt; rw [modPort_same, modPort_same]; exact h.rx
  bar := by unfold Machine.requested holdTag receipt; rw [modPort_same, modPort_same]; exact h.bar

theorem takeRx_bar2Read (h : Bar2Ready p s) (he : s.tap.ecc = []) : takeRx p (.bar2Read off n tag) s =
    some (dropTag p tag (sendOut p (splitCpl p tag 0 off (mps s p) 0 n (bar2Bytes s off n)) s)) := by
  refine takeRx_free h.rx h.bar rfl (congrArg (Prod.mk none) ?_)
  unfold bar2ReadTake
  simp only [h.on, h.wake, h.service, Bool.not_true, Bool.false_eq_true, if_false, if_true]
  exact bar2Complete_clean he

theorem takeRx_bar2Poisoned (h : Bar2Ready p s) : takeRx p (.bar2Write off bs en true) s =
    some (poisonRx p (memHdr true (barBase s p 2 + off) en 0 true) s) := by
  refine takeRx_free h.rx h.bar rfl (congrArg (Prod.mk none) ?_)
  unfold bar2WriteTake
  simp only [h.on, h.wake, Bool.not_true, Bool.false_eq_true, if_false, if_true]

/-- An ACTIVE channel writes with every right of Table 5.3. -/
theorem takeRx_bar2Active (h : Bar2Ready p s) (ha : s.ch[p].st = .active) : takeRx p (.bar2Write off bs en false) s =
    some (bar2Store (portReq p) off bs en s) := by
  refine takeRx_free h.rx h.bar rfl (congrArg (Prod.mk none) ?_)
  unfold bar2WriteTake
  simp only [h.on, h.wake, ha, Bool.not_true, Bool.false_eq_true, if_false]

/-- Every channel in service writes its own staging area. -/
theorem takeRx_bar2Staging (h : Bar2Ready p s) (hoff : ∀ i, i < en.length → off + i < 0x800000)
    (ho : ∀ i, i < en.length → areaOf s.lom.act (off + i) = 3 + p.val) :
    takeRx p (.bar2Write off bs en false) s = some (bar2Store (portReq p) off bs en s) := by
  have hmask : (en.zipIdx.map fun e => e.1 && ownStaging s p (off + e.2)) = en :=
    enables_permitted (fun i => ownStaging s p (off + i)) en fun i hi => ownStaging_own (hoff i hi) (ho i hi)
  have hsv := h.service
  refine takeRx_free h.rx h.bar rfl (congrArg (Prod.mk none) ?_)
  unfold bar2WriteTake
  simp only [h.on, h.wake, Bool.not_true, Bool.false_eq_true, if_false]
  cases hst : s.ch[p].st with
  | active => rfl
  | ready => exact congrArg (bar2Store (portReq p) off bs · s) hmask
  | observer => exact congrArg (bar2Store (portReq p) off bs · s) hmask
  | absent => rw [hst] at hsv; cases hsv
  | fenced => rw [hst] at hsv; cases hsv

theorem mps_congr {t : State} (h : t.port[p].cfg = s.port[p].cfg) : mps t p = mps s p := by unfold mps; rw [cfgGet_congr h]

theorem bar2Bytes_requested {hd : Hdr} : bar2Bytes (requested p tag hd s) off n = bar2Bytes s off n := rfl

/-- A write beyond Max Payload Size is malformed (R95). -/
theorem recvPosted_long {a : Nat} {h : Hdr} {x : RxTlp} (ho : portOpen s p = true) (hroom : postedRoom s p n = true) (hm : mps s p < n) :
    recvPosted p a n h x s = aerUncorr p 18 false h (receipt p s) := by
  unfold recvPosted; rw [ho, hroom, decide_eq_true hm, Bool.or_true]; rfl

/-- A poisoned TLP shows its flag and the event (Table 4.8). -/
theorem poisonRx_shown (hn : s.pwr.boot ≠ .inReset) (h : Hdr) : FlagShown p 6 6 s (settle (poisonRx p h (receipt p (cleared s)))) :=
  flagShown_settle (by decide) (by decide) hn ((portOnly_receipt.trans (portOnly_portFlag 6)).trans (aerUncorr_portOnly _ _ _)) (by simp [poisonRx])
    ((show _ = (portFlag p 6 (receipt p (cleared s))).regs by simp [poisonRx]).trans (portFlag_regs (by simp))) (aerUncorr_raises _ _ _)

end

end Sys2Proof.Machine

open Sys2Proof Sys2Proof.Machine

/-- Settles O20: the request takes its turn at once; what it reads or stores is that of its region. -/
theorem imageThroughBar2 : Obligations.ImageThroughBar2 := by
  unfold Obligations.ImageThroughBar2
  intro p off s ⟨hd, hc⟩ ⟨hup, hrx, hbar⟩ hon hsv
  have ready : Bar2Ready p s := ⟨hon, hsv, hc, hrx, hbar⟩
  have hn : s.pwr.boot ≠ .inReset := by
    simp only [barOn, Bool.and_eq_true, beq_iff_eq] at hon
    rw [hon.2]; decide
  refine ⟨fun len tag hroom hcut he => ?read, fun data be hbe hroom hcut => ⟨fun hm poisoned => ?long, fun hm => ⟨?staging, ?active, ?poisoned⟩⟩⟩
  case read =>
    let h := memHdr false (barBase s p 2 + off.toNat) (List.replicate len true) tag.toNat false
    have ht := takeRx_bar2Read (off := off.toNat) (n := len) (tag := tag.toNat) (ready.requested (tag := tag.toNat) (hd := h)) he
    rw [answered_requested, mps_congr requested_cfg, bar2Bytes_requested] at ht
    exact completes_quiet (exec_run (bar2ReadOp p off.toNat len tag.toNat) rfl (recvNonPosted_taken (s := cleared s) hup hroom hcut hrx ht))
      hd rfl
  case long =>
    have hx := exec_run (c := .bar2Write p off data be poisoned) (s := s) (bar2WriteOp p off.toNat data be poisoned) rfl
      (recvPosted_long (s := cleared s) hup hroom hm)
    exact completes_settle hx (aerUncorr_shown hn (by decide) false _ portOnly_receipt rfl rfl)
  all_goals
    have written : ∀ {poisoned : Bool} {y : State}, takeRx p (.bar2Write off.toNat data be poisoned) (receipt p (cleared s)) = some y →
        exec (.bar2Write p off data be poisoned) s = .next (settle y) := fun ht =>
      exec_run (bar2WriteOp p off.toNat data be _) rfl (recvPosted_taken (s := cleared s) hup hroom hcut hm hrx ht)
  case staging =>
    intro hoff ho
    have hin : ∀ i, i < be.length → off.toNat + i < 0x800000 := fun i hi => by
      simp only [crosses, decide_eq_false_iff_not] at hcut; omega
    have hown : ∀ i, i < be.length → areaOf s.lom.act (off.toNat + i) = 3 + p.val := fun i hi => ho i (by omega)
    have hx := written (takeRx_bar2Staging (bs := data) ready.received hin hown)
    rw [bar2Store_own (s := receipt p (cleared s)) hoff hown] at hx
    exact completes_quiet hx hd ⟨rfl, fun a => mget_putEnabled data be hbe off.toNat a s.img.mem⟩
  case active =>
    intro hl hh ha
    have hx := written (takeRx_bar2Active ready.received ha)
    rw [bar2Store_active hl hh] at hx
    have hreached : RestSame s (receipt p (cleared s)) := by
      have h := restSame_reached (portReq p) s
      unfold reached at h; rw [reqPort_portReq] at h; exact h
    exact completes_settle hx ⟨restSame_capture hreached, capture_lockViol (by decide) hn (.inl rfl), captured_settle rfl rfl⟩
  case poisoned =>
    exact completes_settle (written (takeRx_bar2Poisoned ready.received)) (poisonRx_shown hn _)
end

section
/-!
SUPPORT. A push: what it sends, what its start and its end leave of the port (R105 to R108).
-/

namespace Sys2Proof.Machine

open Sys2Proof

section
variable {p : Port} {s : State}

/-! TLPs of a port -/

theorem sendTlp_sends (kd : Nat) (t : PTlp) (s : State) : SendsOnly s (sendTlp p kd t s) := (tx_sends s _).trans (drainTx_sends p _ _)

/-- The port sends TLPs of a push, in order. -/
def sendAll (p : Port) (ts : List PTlp) (s : State) : State := ts.foldl (fun s t => sendTlp p 0 t s) s

@[simp] theorem sendAll_keeps (ts : List PTlp) (s : State) : OnlyLinks s (sendAll p ts s) := by simp [sendAll]

theorem sendAll_port (ts : List PTlp) (s : State) : (sendAll p ts s).port = portsBut s (sendAll p ts s) :=
  (foldl_sendsOnly _ (fun s t => sendTlp_sends 0 t s) ts s).1

/-- A TLP at the head that the credits cover leaves (R98). -/
theorem drainTx_issues {n kd : Nat} {t : PTlp} {rest : List (Nat × PTlp)} (hw : s.tx[p].waiting = (kd, t) :: rest) (hk : kd < 2)
    (hc : creditsFor s.tx[p].credits t = true) :
    drainTx p (n + 1) s = drainTx p n (issueTlp p kd t { s with tx := s.tx.set p ⟨creditsAfter s.tx[p].credits t, rest⟩ }) := by
  rw [drainTx, hw]; dsimp only
  rw [if_neg (by omega), if_pos hc]

/-- Without a limit of the partner a TLP leaves at once (R98). -/
theorem sendTlp_unlimited {t : PTlp} (hc : s.tx[p].credits = none) (hw : s.tx[p].waiting = []) :
    sendTlp p 0 t s = sendOut p [.mwr p (decide (2 ^ 32 ≤ t.addr)) t] s := by
  let q : State := { s with tx := s.tx.set p ⟨s.tx[p].credits, s.tx[p].waiting ++ [(0, t)]⟩ }
  have hq : q.tx[p] = ⟨none, [(0, t)]⟩ := by simp only [q]; rw [hc, hw]; simp
  have hback : q.tx.set p ⟨none, []⟩ = s.tx := by
    have h0 : s.tx[p] = ⟨none, []⟩ := by rw [← hc, ← hw]
    simp only [q, Vector.set_set]; rw [← h0]; exact Vector.set_getElem_self _
  calc sendTlp p 0 t s = drainTx p q.tx[p].waiting.length q := rfl
    _ = drainTx p 1 q := by rw [hq]; rfl
    _ = issueTlp p 0 t { q with tx := q.tx.set p ⟨creditsAfter q.tx[p].credits t, []⟩ } :=
        drainTx_issues (n := 0) (by rw [hq]) (by decide) (by rw [hq]; rfl)
    _ = issueTlp p 0 t s := by rw [hq]; dsimp only [creditsAfter, Option.map]; rw [hback]
    _ = sendOut p [.mwr p (decide (2 ^ 32 ≤ t.addr)) t] s := by unfold issueTlp; rw [if_pos (by decide)]

theorem sentBy_append (os1 os2 : List Out) : sentBy s p (os1 ++ os2) = sentBy s p os1 ++ sentBy s p os2 := by
  unfold sentBy; split
  · exact List.flatMap_append
  · rfl

theorem sendAll_unlimited (ts : List PTlp) (hc : s.tx[p].credits = none) (hw : s.tx[p].waiting = []) :
    (sendAll p ts s).out = s.out ++ sentBy s p (ts.map fun t => .mwr p (decide (2 ^ 32 ≤ t.addr)) t) := by
  induction ts generalizing s with
  | nil => unfold sentBy; split <;> exact (List.append_nil _).symm
  | cons t ts ih =>
    let o : Out := .mwr p (decide (2 ^ 32 ≤ t.addr)) t
    have hcfg : (sendOut p [o] s).port[p].cfg = s.port[p].cfg := by unfold sendOut; rw [modPort_same]
    have hstep : sendAll p (t :: ts) s = sendAll p ts (sendOut p [o] s) := congrArg (sendAll p ts) (sendTlp_unlimited hc hw)
    have hout : (sendOut p [o] s).out = s.out ++ sentBy s p [o] := rfl
    rw [hstep, ih (s := sendOut p [o] s) hc hw, sentBy_congr hcfg, hout, List.append_assoc, ← sentBy_append]; rfl

/-! The start of a push -/

/-- The push that starts for `ask` when none of its records is left out. -/
def pushRun (p : Port) (ask : PushAsk) (s : State) : Push :=
  { n := ask.n, bytes := (ask.recs.flatMap (·.2.2)).length, records := ask.recs.length, crc := crc32c (ask.recs.flatMap (·.2.2)),
    truncated := false, epoch := s.ch[p].epoch, st := s.ch[p].st, ftime := ask.ftime, base := pushBase s p, limit := pushLimit s p }

/-- The memory writes that carry its records: joined, then cut (R107). -/
def pushTlps (p : Port) (ask : PushAsk) (s : State) : List PTlp :=
  (joinRuns (ask.recs.map fun r => (r.1, r.2.2))).flatMap fun r => cutRun (mps s p) r.2.length (pushBase s p + r.1) r.2

theorem pushBytes_clean (he : s.tap.ecc = []) (r : Nat × Nat × List Byte) : pushBytes s r = r.2.2 := by
  unfold pushBytes imgBad uncorrIn; rw [he]; rfl

theorem imgMeet_clean (he : s.tap.ecc = []) (a n : Nat) : imgMeet a n s = s := by
  unfold imgMeet readEcc; rw [he]; rfl

variable {ask : PushAsk} {rest : List PushAsk}

/-- The push is skipped (R105). -/
theorem pushStartOp_skips (hw : s.port[p].pushWaiting = ask :: rest) (hp : s.port[p].push = none) (ho : pushOk s p = false) :
    pushStartOp p s = raise (cpEv p 3) (portFlag p 10 (modPort p (fun q => { q with pushWaiting := rest }) s)) := by
  unfold pushStartOp; rw [hw, hp]; dsimp only; rw [ho]; rfl

theorem pushSkipped_port {q : Port} {f : PortS → PortS} :
    (raise (cpEv p 3) (portFlag p 10 (modPort p f s))).port[q] = (modPort p f s).port[q] := by
  simp

/-- What a skipped push shows: PUSH_SKIP, as a flag and as the event (R105). -/
theorem pushSkipped_shown (f : PortS → PortS) (hn : s.pwr.boot ≠ .inReset) :
    FlagShown p 10 3 s (settle (raise (cpEv p 3) (portFlag p 10 (modPort p f (cleared s))))) :=
  flagShown_settle (by decide) (by decide) hn
    (((portOnly_cleared.trans (portOnly_modPort f)).trans (portOnly_portFlag 10)).trans (portOnly_raise _)) (by simp)
    ((raise_regs _ _).trans (portFlag_regs (by simp))) (raise_mem _ _)

/-- The state in which the push sends: it is taken from those that wait. -/
def pushBegun (p : Port) (ask : PushAsk) (rest : List PushAsk) (s : State) : State :=
  modPort p (fun q => { q with pushWaiting := rest, push := some (pushRun p ask s) }) s

/-- The push sends all its records (R106, R107). -/
theorem pushStartOp_sends (hw : s.port[p].pushWaiting = ask :: rest) (hp : s.port[p].push = none) (ho : pushOk s p = true)
    (hfit : ∀ r ∈ ask.recs, r.1 + r.2.2.length ≤ pushLimit s p * 4096) (he : s.tap.ecc = []) :
    pushStartOp p s = sendAll p (pushTlps p ask s) (pushBegun p ask rest s) := by
  have hkept : (ask.recs.filter fun r => decide (r.1 + r.2.2.length ≤ pushLimit s p * 4096)) = ask.recs :=
    List.filter_eq_self.2 fun r hr => decide_eq_true (hfit r hr)
  have hmeet : ∀ (l : List (Nat × Nat × List Byte)) (t : State), t.tap = s.tap →
      l.foldl (fun s r => imgMeet r.2.1 r.2.2.length s) t = t := fun l t ht => by
    induction l with
    | nil => rfl
    | cons r l ih => rw [List.foldl_cons, imgMeet_clean (by rw [ht, he]), ih]
  unfold pushStartOp; rw [hw, hp]; dsimp only
  rw [hkept]
  simp only [pushBytes_clean he, List.length_map, List.flatMap_map, Nat.lt_irrefl, decide_false, ho, Bool.not_true, Bool.false_eq_true, if_false,
    modPort_twice]
  exact congrArg (sendAll p (pushTlps p ask s)) (hmeet ask.recs _ rfl)

/-- What the delivery of events leaves of a port. -/
theorem settled_port {x : State} {v : PortS} (h : x.port[p] = v) : (settle x).port[p] = { v with l1 := (settle x).port[p].l1 } := by
  rw [(portsBut_iff x (settle x)).1 (settle_sends x).1 p, h]

/-! Its end -/

theorem portOnly_reported {q : Port} {a : PageKind} {r e : Nat} {v : Word} : PortOnly q s (raise e (setReg a r v s)) :=
  portOnly_reports (by simp)

theorem reported_port {a : PageKind} {r e : Nat} {v : Word} : (raise e (setReg a r v s)).port[p] = s.port[p] := rfl

/-- The trailer of a push (Table 4.6). -/
def pushTrailer (p : Port) (u : Push) (s : State) : PTlp := ⟨u.base + u.limit * 4096, trailerBytes u (s.port[p].pseq + 1)⟩

/-- With the records sent and the credits there, the trailer leaves (R106). -/
theorem pushDoneOp_ends {u : Push} (hp : s.port[p].push = some u) (hw : ∀ e ∈ s.tx[p].waiting, e.1 ≠ 0)
    (hc : creditsFor s.tx[p].credits (pushTrailer p u s) = true) :
    pushDoneOp p s = raise (cpEv p 2) (setReg (.cp p) 0x05C u.n
      (modPort p (fun q => { q with push := none, pseq := q.pseq + 1 }) (sendAll p [pushTrailer p u s] s))) := by
  have hnone : (s.tx[p].waiting.any fun e => e.1 == 0) = false := by simpa using hw
  unfold pushDoneOp; rw [hp]; dsimp only
  rw [hnone, if_neg Bool.false_ne_true]
  exact if_neg (by simpa [pushTrailer] using hc)

end

end Sys2Proof.Machine

open Sys2Proof Sys2Proof.Machine

/-- Settles O21: a skipped push reports, one that starts sends what was frozen for it, and the trailer of its end is followed by its report. -/
theorem pushes : Obligations.Pushes := by
  unfold Obligations.Pushes
  intro p s hd hn
  refine ⟨fun ask rest hw hp => ⟨fun ho => ?skipped, fun ho hfit he => ?started⟩, fun u hp hw hc => ?ended⟩
  case skipped =>
    have hx := exec_run (c := .pushStart p) (pushStartOp p) rfl (pushStartOp_skips (s := cleared s) hw hp ho)
    obtain ⟨h1, h2, h3, h4⟩ := pushSkipped_shown (p := p) (fun q => { q with pushWaiting := rest }) hn
    refine completes_settle hx ⟨h1, ?_, h2, h3, h4⟩
    exact settled_port (pushSkipped_port.trans (modPort_same p _ (cleared s)))
  case started =>
    have hx := exec_run (c := .pushStart p) (pushStartOp p) rfl (pushStartOp_sends (s := cleared s) hw hp ho hfit he)
    refine completes_quiet hx (by unfold Delivered; simpa [pushBegun] using hd) ⟨?_, by simp [pushBegun], ?_, fun hc hw => ?_⟩
    · exact (portOnly_cleared.trans (portOnly_modPort _)).trans (portOnly_links (sendAll_keeps _ _) (sendAll_port _ _))
    · rw [(portsBut_iff _ _).1 (sendAll_port _ _) p]; unfold pushBegun; rw [modPort_same]; rfl
    · refine (sendAll_unlimited (s := pushBegun p ask rest (cleared s)) _ hc hw).trans ((List.nil_append _).trans ?_)
      rw [sentBy_congr (s := s) (by unfold pushBegun; rw [modPort_same]; rfl), ← List.map_flatMap]; rfl
  case ended =>
    have hx := exec_run (c := .pushDone p) (pushDoneOp p) rfl (pushDoneOp_ends (s := cleared s) hp hw hc)
    let y := sendAll p [pushTrailer p u (cleared s)] (cleared s)
    let z := modPort p (fun q => { q with push := none, pseq := q.pseq + 1 }) y
    have hy : y.port[p] = { s.port[p] with l1 := y.port[p].l1 } := (portsBut_iff _ _).1 (sendAll_port _ _) p
    have hz : z.port[p] = { s.port[p] with push := none, pseq := s.port[p].pseq + 1, l1 := y.port[p].l1 } := by
      rw [modPort_same, hy]
    have hports : PortOnly p s z :=
      (portOnly_cleared.trans (portOnly_links (sendAll_keeps _ _) (sendAll_port _ _))).trans (portOnly_modPort _)
    have hregs : z.regs = s.regs := by simp [z, y]
    have hboot : z.pwr = s.pwr := by simp [z, y]
    refine completes_settle hx ⟨portOnly_settle ?_, settled_port (reported_port.trans hz), ?_, ?_, ?_⟩
    · exact hports.trans portOnly_reported
    · exact otherRegs_congr (otherRegs_setReg _ _ u.n z) hregs.symm (settle_regs _)
    · rw [getReg_settle]; exact getReg_setReg _ _ _ z
    · exact event_seen (cpEv_page p 2 (by decide)) (show z.pwr.boot ≠ _ by rw [hboot]; exact hn) (raise_mem _ _)
end

section
/-!
SUPPORT. The counterexample to O23: credits return while the pointers of the list of the event log disagree. The cells of its stored
records are released then (R348), and that use of the list finds the disagreement (R211), whose event may call for an MSI-X message (R344).
-/

namespace Sys2Proof.Machine

open Sys2Proof

/-- A record of the event log that is stored: its cells are due for release. -/
def storedRecord : Pkt :=
  { owner := 26, cells := [], eop := true, epoch := 0, cy := 0, src := 0, pat := 0, off := 0, len := 0, aux := 0, data := [], en := [],
    isRead := false, trunc := false, cont := false, poison := false, sent := 0, patE := 0, origin := .sched 0 0 0 }

/-- Port 0 is up without credits and no TLP waits there; event 114 (a list reset by R211) is enabled and routed to vector 0 of the ports,
which port 0 may send; the list of the event log holds a stored record and its pointers disagree. -/
def pointersDisagree : State :=
  let s := State.reset
  setReg .crl 0x014 4#32 { s with
    pwr := { s.pwr with boot := .opened }
    ch := s.ch.set 0 { chanInit with st := .active }
    port := s.port.set 0 { portInit with dlUp := true, cfg := [(1, 0x00100006#32), (0x14, 0x80000000#32)] }
    tx := s.tx.set 0 ⟨some (0, 0), []⟩
    msix := s.msix.set 0 { msixInit with table := [(3, 0)] }
    evh := { s.evh with routes := [(114, 0x80000100#32)] }
    crl := setQ 26 { queueInit 26 with pkts := [storedRecord], ptrBad := true } s.crl }

theorem pointersDisagree_ready : Delivered pointersDisagree ∧ pointersDisagree.pwr.boot ≠ .inReset ∧
    pointersDisagree.port[(0 : Port)].dlUp = true ∧ pointersDisagree.tx[(0 : Port)].credits = some (0, 0) ∧
    pointersDisagree.tx[(0 : Port)].waiting = [] := by and_intros <;> decide +kernel

/-- What leaves the device in a command, if the command completes. -/
def outputs (c : Instr) (s : State) : List Out :=
  match exec c s with
  | .next t => t.out
  | .fault _ => []
  | .refused _ => []

theorem outputs_of_exec {c : Instr} {s t : State} (h : exec c s = .next t) : outputs c s = t.out := by unfold outputs; rw [h]

/-- The returned credits let the message of the event leave. -/
theorem pointersDisagree_sends :
    outputs (.postedCreditReturn 0 1 1) pointersDisagree = [.mwr 0 false ⟨0, [0, 0, 0, 0]⟩] := by decide +kernel

end Sys2Proof.Machine

open Sys2Proof Sys2Proof.Machine

/-- Refutes O23: no posted TLP waits at port 0 of `pointersDisagree`, and the command that returns its credits sends one all the same. The clause
lacks the hypothesis `ListsGood`. -/
theorem not_links : ¬ Obligations.Links := by
  unfold Obligations.Links
  rintro ⟨h, -⟩
  obtain ⟨hd, hn, hup, hc, hw⟩ := pointersDisagree_ready
  obtain ⟨-, -, -, -, hcredits⟩ := h 0 pointersDisagree hd hn hup
  obtain ⟨t, hx, -, -, -, hout⟩ := (hcredits 0 0 1 1 hc).1 hw
  have hsent := (outputs_of_exec hx).symm.trans pointersDisagree_sends
  rw [hout] at hsent
  cases hsent
end

section
/-!
SUPPORT. The counterexample to O30: the third channel's copy agrees, but a word of it holds a correctable memory error. The comparison that
reads the copy meets the error: it is corrected, counted in IMG.ECC_CORR and captured (R272, R419).
-/

namespace Sys2Proof.Machine

open Sys2Proof

/-- A commit of controller cycle 5 by channels 0 and 1 in 2OO3, with one agreed output record of eight zero bytes. -/
def zeroCommit : CommitInfo :=
  { n := 5, first := 0, second := 1, kc := 0, digestValid := true, thirdDone := false, three := true,
    digest := [⟨0, 8, true, crc32c (List.replicate 8 0), crc32c (List.replicate 8 0)⟩] }

/-- Channel 2 is ACTIVE and has made its copy of that record, whose word holds a correctable error. -/
def correctableCopy : State :=
  let s := State.reset
  { s with
    pwr := { s.pwr with boot := .opened }
    ch := s.ch.set 2 { chanInit with st := .active, aligned := true, copyOf := some 5 }
    vot := { s.vot with mode := .m2oo3, last := some zeroCommit }
    tap := { s.tap with ecc := [(stagingAddr s 2 0 / 8, false)] } }

theorem correctableCopy_ready : Delivered correctableCopy ∧ NothingQueued correctableCopy ∧ correctableCopy.pwr.boot = .opened ∧
    correctableCopy.ch[(2 : Port)].st = .active ∧ correctableCopy.ch[(2 : Port)].aligned = true ∧ correctableCopy.vot.mode = .m2oo3 ∧
    correctableCopy.ch[(2 : Port)].copyOf = some zeroCommit.n ∧ (compareDigest correctableCopy 2 zeroCommit.digest).1 = true ∧
    ∀ d ∈ zeroCommit.digest, d.agreed = true := by and_intros <;> decide +kernel

/-- The registers after a command, if the command completes. -/
def registersAfter (c : Instr) (s : State) : SMap Word :=
  match exec c s with
  | .next t => t.regs
  | .fault _ => []
  | .refused _ => []

theorem registersAfter_of_exec {c : Instr} {s t : State} (h : exec c s = .next t) : registersAfter c s = t.regs := by
  unfold registersAfter; rw [h]

/-- The comparison counts the corrected word. -/
theorem correctableCopy_counts : registersAfter (.thirdCopyCompareDone 2) correctableCopy ≠ correctableCopy.regs := by decide +kernel

end Sys2Proof.Machine

open Sys2Proof Sys2Proof.Machine

/-- Refutes O30: the third channel's copy in `correctableCopy` agrees, and its comparison changes registers all the same, for it meets a
correctable memory error. The clause lacks the hypothesis that no memory word is in error. -/
theorem not_copiesCompared : ¬ Obligations.CopiesCompared := by
  unfold Obligations.CopiesCompared
  intro h
  obtain ⟨hd, hq, hb, hst, hal, hmode, hcopy, hok, hagreed⟩ := correctableCopy_ready
  obtain ⟨hthird, -⟩ := h 2 zeroCommit correctableCopy hd hq hb rfl rfl
  obtain ⟨hequal, -⟩ := hthird hst hal hmode rfl rfl (by decide) (by decide)
  obtain ⟨t, hx, -, -, hregs, -⟩ := hequal hcopy hok hagreed
  exact correctableCopy_counts ((registersAfter_of_exec hx).trans hregs)
end

section
/-!
SUPPORT. What a settlement of the channels can do (R124, R129, R151, R264): one step promotes a READY channel, makes an OBSERVER READY, evaluates
the vote mode anew or treats a held freeze again. Each invariant of a settlement is shown for one such step.
-/

namespace Sys2Proof.Machine

open Sys2Proof

theorem mem_allPorts (c : Port) : c ∈ allPorts := by fin_cases c <;> decide

/-- A new evaluation of the mode never selects 1OO1. -/
theorem modeByCount_ne (s : State) : modeByCount s ≠ .m1oo1 := by unfold modeByCount; dsimp only; (repeat' split) <;> decide

/-! The steps -/

/-- One step of a settlement of the channels. -/
inductive SettleStep : State → State → Prop
  | promote {s : State} (c : Port) (hr : s.ch[c].st = .ready) (hm : s.vot.mode ≠ .m1oo1) : SettleStep s (raise 52 (setChState c .active s))
  | ready {s : State} (c : Port) (ho : s.ch[c].st = .observer) : SettleStep s (becomeReady c s)
  | mode {s : State} (hm : s.vot.mode ≠ .m1oo1) : SettleStep s (setMode (modeByCount s) s)
  | freeze {s : State} (c : Port) (n : Word) (hf : (c.val, n) ∈ s.img.heldFreeze) : SettleStep s (treatFreeze c n s)

/-- From `s` to `t` the channels settle. -/
abbrev Settles : State → State → Prop := Relation.ReflTransGen SettleStep

/-- What every step keeps, a settlement keeps. -/
theorem Settles.keeps {P : State → Prop} (hstep : ∀ {s t : State}, SettleStep s t → P s → P t) {s t : State} (h : Settles s t) (hs : P s) : P t := by
  induction h with
  | refl => exact hs
  | tail _ hst ih => exact hstep hst ih

theorem settles_foldl {α : Type} {f : State → α → State} (hf : ∀ s a, Settles s (f s a)) (l : List α) (s : State) : Settles s (l.foldl f s) := by
  induction l generalizing s with
  | nil => exact .refl
  | cons a l ih => exact (hf s a).trans (ih _)

/-- A channel is promoted from READY, outside 1OO1 (R151). -/
theorem promotable_ready {s : State} {c : Port} (h : promotable s = some c) : s.ch[c].st = .ready ∧ s.vot.mode ≠ .m1oo1 := by
  unfold promotable at h
  split at h
  case isFalse => cases h
  case isTrue hc =>
    obtain ⟨-, -, -, hm⟩ := hc
    refine ⟨?_, hm⟩
    have hmem : c ∈ allPorts.filter fun c => s.ch[c].st == .ready := by
      dsimp only at h; split at h
      · rename_i x hx; cases h; exact List.mem_of_find?_eq_some hx
      · exact List.mem_of_head? h
    simpa using (List.mem_filter.1 hmem).2

theorem promoteAll_settles (n : Nat) (s : State) : Settles s (promoteAll n s) := by
  induction n generalizing s with
  | zero => exact .refl
  | succ n ih =>
    unfold promoteAll; split
    · rename_i c hc
      obtain ⟨hr, hm⟩ := promotable_ready hc
      exact .head (.promote c hr hm) (ih _)
    · exact .refl

theorem evalMode_settles (s : State) : Settles s (evalMode s) := by
  unfold evalMode; split
  · exact .refl
  · rename_i hm; exact .single (.mode (by simpa using hm))

theorem observersReady_settles (s : State) : Settles s (observersReady s) := by
  unfold observersReady; split
  · exact .refl
  · refine settles_foldl (fun s c => ?_) _ s
    split
    · rename_i ho; exact .single (.ready c (by simpa using ho))
    · exact .refl

theorem retryFreeze_settles (c : Port) (s : State) : Settles s (retryFreeze c s) := by
  unfold retryFreeze; split
  · rename_i e he
    have hc : e.1 = c.val := by simpa using List.find?_some he
    exact .single (.freeze c e.2 (by rw [← hc]; exact List.mem_of_find?_eq_some he))
  · exact .refl

theorem retryFreezes_settles (s : State) : Settles s (retryFreezes s) :=
  (settles_foldl (fun s c => retryFreeze_settles c s) _ s).trans (settles_foldl (fun s c => retryFreeze_settles c s) _ _)

theorem settleChannels_settles (s : State) : Settles s (settleChannels s) := by
  have round : ∀ s, Settles s (observersReady (evalMode (promoteAll 3 s))) := fun s =>
    ((promoteAll_settles 3 s).trans (evalMode_settles _)).trans (observersReady_settles _)
  exact (((round s).trans (round _)).trans (round _)).trans (retryFreezes_settles _)

/-! The states of the channels -/

theorem setChState_st (c d : Port) (st : ChState) (s : State) : (setChState c st s).ch[d].st = if d = c then st else s.ch[d].st := by
  by_cases e : d = c
  · subst e; rw [if_pos rfl]; unfold setChState; split
    · rename_i h; simpa using h
    · simp only [raise, raiseD, modCh_self]
  · rw [if_neg e]; unfold setChState; split
    · rfl
    · simp only [raise, raiseD, modCh_other _ _ _ _ e]

theorem becomeReady_st (c d : Port) (s : State) : (becomeReady c s).ch[d].st = if d = c then .ready else s.ch[d].st := by
  have h := setChState_st c d .ready (modCh c (fun x => { x with matchCnt := 0 }) s)
  by_cases e : d = c
  · rw [if_pos e] at h ⊢; exact h
  · rw [if_neg e] at h ⊢; exact h.trans (congrArg Chan.st (modCh_other c d _ s e))

/-- In a step a channel's state changes from READY to ACTIVE or from OBSERVER to READY. -/
theorem SettleStep.st {s t : State} (h : SettleStep s t) (d : Port) :
    t.ch[d].st = s.ch[d].st ∨ (s.ch[d].st = .ready ∧ t.ch[d].st = .active ∧ s.vot.mode ≠ .m1oo1) ∨ (s.ch[d].st = .observer ∧ t.ch[d].st = .ready) := by
  cases h with
  | promote c hr hm =>
    have h := setChState_st c d .active s
    by_cases e : d = c
    · subst e; rw [if_pos rfl] at h; exact .inr (.inl ⟨hr, h, hm⟩)
    · rw [if_neg e] at h; exact .inl h
  | ready c ho =>
    have h := becomeReady_st c d s
    by_cases e : d = c
    · subst e; rw [if_pos rfl] at h; exact .inr (.inr ⟨ho, h⟩)
    · rw [if_neg e] at h; exact .inl h
  | mode hm => exact .inl (by simp)
  | freeze c n hf => exact .inl (by simp)

/-- An ACTIVE channel stays ACTIVE. -/
theorem SettleStep.active {s t : State} (h : SettleStep s t) {d : Port} (ha : s.ch[d].st = .active) : t.ch[d].st = .active := by
  rcases h.st d with h | ⟨hr, -⟩ | ⟨ho, -⟩
  · exact h.trans ha
  · rw [ha] at hr; cases hr
  · rw [ha] at ho; cases ho

theorem SettleStep.activeCount {s t : State} (h : SettleStep s t) : (activeChs s).length ≤ (activeChs t).length := by
  refine (List.monotone_filter_right _ fun d hd => ?_).length_le
  exact beq_iff_eq.2 (h.active (beq_iff_eq.1 hd))

/-! The vote unit -/

/-- The vote unit but for its mode. -/
def voteRest (s : State) : Vot := { s.vot with mode := .halt }

theorem voteRest_congr {s t : State} (h : t.vot = s.vot) : voteRest t = voteRest s := by unfold voteRest; rw [h]

theorem setMode_vot (m : VoteMode) (s : State) : (setMode m s).vot = { s.vot with mode := m } := by
  unfold setMode; split
  · rename_i h; rw [← beq_iff_eq.1 h]
  · dsimp only; split
    · simp
    · rfl

/-- A step changes the mode of the vote unit at most. -/
theorem SettleStep.vote {s t : State} (h : SettleStep s t) : voteRest t = voteRest s := by
  cases h with
  | promote c hr hm => exact voteRest_congr (by simp)
  | ready c ho => exact voteRest_congr (by simp)
  | mode hm => unfold voteRest; rw [setMode_vot]
  | freeze c n hf => exact voteRest_congr (by simp)

theorem Settles.vote {s t : State} (h : Settles s t) : voteRest t = voteRest s :=
  h.keeps (P := fun x => voteRest x = voteRest s) (fun hst hs => hst.vote.trans hs) rfl

/-- A settlement changes no part of the vote unit but its mode. -/
theorem Settles.votes {s t : State} (h : Settles s t) : Same4 (·.vot.admitOn) (·.vot.last) (·.vot.attempts) (·.vot.openE) s t ∧
    Same3 (·.vot.closedE) (·.vot.waiting) (·.vot.oneCh) s t := by
  have part : ∀ {α : Type} (f : Vot → α), f (voteRest t) = f (voteRest s) := fun f => congrArg f h.vote
  exact ⟨⟨part Vot.admitOn, part Vot.last, part Vot.attempts, part Vot.openE⟩, part Vot.closedE, part Vot.waiting, part Vot.oneCh⟩

/-- The mode is 1OO1 after a step exactly when it was before. -/
theorem SettleStep.oneOfOne {s t : State} (h : SettleStep s t) : t.vot.mode = .m1oo1 ↔ s.vot.mode = .m1oo1 := by
  cases h with
  | promote c hr hm => simp
  | ready c ho => simp
  | freeze c n hf => simp
  | mode hm =>
    rw [setMode_vot]; exact iff_of_false (modeByCount_ne s) hm

theorem Settles.oneOfOne {s t : State} (h : Settles s t) : t.vot.mode = .m1oo1 ↔ s.vot.mode = .m1oo1 :=
  h.keeps (P := fun x => x.vot.mode = .m1oo1 ↔ s.vot.mode = .m1oo1) (fun hst hs => hst.oneOfOne.trans hs) .rfl

end Sys2Proof.Machine
end

section
/-!
SUPPORT. What a settlement of the channels leaves of the process image: its bytes and the restart always; a stop of the controller; and the
running controller, where the vote mode does not fall to HALT (R129, R264, R280).
-/

namespace Sys2Proof.Machine

open Sys2Proof

/-! A freeze -/

/-- The process image but for what a freeze takes. -/
def freezeRest (s : State) : Img :=
  { s.img with slot := [], frozen := 0, committed := 0, frozenRecs := [], freezeCycle := 0, freezeTime := 0, wdogRun := 0, heldFreeze := [] }

theorem freezeRest_congr {s t : State} (h : t.img = s.img) : freezeRest t = freezeRest s := by unfold freezeRest; rw [h]

theorem putSlot_rest (i v : Nat) (s : State) : freezeRest (putSlot i v s) = freezeRest s := rfl

theorem takeFreeze_rest (n : Word) (s : State) : freezeRest (takeFreeze n s) = freezeRest s := by
  let f (s : State) (e : Nat × InitRec) : State := putSlot e.1 (withBits (slotOf s e.1) 3 2 (slotNewest s e.1)) s
  have hfold : freezeRest ((areaRecs s.lom.act 0).foldl f s) = freezeRest s :=
    foldl_keeps freezeRest f (fun s e => putSlot_rest _ _ s) _ s
  have htake : freezeRest (takeFreeze n s) = freezeRest ((areaRecs s.lom.act 0).foldl f s) := by
    unfold takeFreeze; dsimp only; generalize (areaRecs s.lom.act 0).foldl _ s = t; rfl
  exact htake.trans hfold

theorem treatFreeze_rest (c : Port) (n : Word) (s : State) : freezeRest (treatFreeze c n s) = freezeRest s := by
  have ask : ∀ t, freezeRest (askPush c n t) = freezeRest t := fun t => freezeRest_congr (by simp)
  unfold treatFreeze; extract_lets held unheld f next
  split
  · rfl
  · split
    · exact ask _
    · split
      · split
        · exact (ask _).trans (takeFreeze_rest n (unheld s))
        · rfl
      · rfl

/-- A freeze leaves COMMITTED while the controller runs. -/
theorem treatFreeze_committed (c : Port) (n : Word) {s : State} (h : s.img.ctl = .running) :
    (treatFreeze c n s).img.committed = s.img.committed := by
  have ask : ∀ t, (askPush c n t).img = t.img := fun t => by simp
  have take : ∀ t : State, t.img.ctl = .running → (takeFreeze n t).img.committed = t.img.committed := fun t h => by
    show (if (t.img.ctl == .running) = true then t.img.committed else _) = _
    rw [h]; rfl
  unfold treatFreeze; extract_lets held unheld f next
  split
  · rfl
  · split
    · rw [ask]
    · split
      · split
        · rw [ask]; exact take (unheld s) h
        · rfl
      · rfl

/-! The bytes of the image, and the restart -/

/-- The image's bytes and the marks of a restart. -/
def imgStill (s : State) : SMap Byte × Bool × Bool × Bool := (s.img.mem, s.img.restarting, s.img.restartCold, s.img.lastCold)

theorem imgStill_congr {s t : State} (h : t.img = s.img) : imgStill t = imgStill s := by unfold imgStill; rw [h]

theorem stopController_still (cause : Nat) (s : State) : imgStill (stopController cause s) = imgStill s := by
  unfold stopController; split <;> rfl

theorem setMode_still (m : VoteMode) (s : State) : imgStill (setMode m s) = imgStill s := by
  unfold setMode; split
  · rfl
  · dsimp only; split
    · exact stopController_still 3 _
    · rfl

theorem SettleStep.still {s t : State} (h : SettleStep s t) : imgStill t = imgStill s := by
  cases h with
  | promote c hr hm => exact imgStill_congr (by simp)
  | ready c ho => exact imgStill_congr (by simp)
  | mode hm => exact setMode_still _ s
  | freeze c n hf =>
    have h := congrArg (fun i : Img => (i.mem, i.restarting, i.restartCold, i.lastCold)) (treatFreeze_rest c n s)
    exact h

theorem Settles.still {s t : State} (h : Settles s t) : imgStill t = imgStill s :=
  h.keeps (P := fun x => imgStill x = imgStill s) (fun hst hs => hst.still.trans hs) rfl

/-! A stopped controller -/

/-- The controller is STOPPED with this cause, and the safe image shows. -/
def StoppedBy (cause : Nat) (s : State) : Prop := s.img.ctl = .stopped ∧ s.img.stopCause = cause ∧ s.img.safeShown = true

theorem StoppedBy.congr {cause : Nat} {s t : State} (h : StoppedBy cause s) (hi : t.img = s.img) : StoppedBy cause t := by
  unfold StoppedBy; rw [hi]; exact h

theorem stopController_stops {s : State} (cause : Nat) (h : s.img.ctl ≠ .stopped) :
    StoppedBy cause (stopController cause s) ∧ ∃ o ∈ (stopController cause s).evh.occ, o.ev = 70 := by
  unfold stopController; rw [beq_false_of_ne h]; exact ⟨⟨rfl, rfl, rfl⟩, raiseD_mem _ _ _ _⟩

/-- A second cause changes nothing. -/
theorem StoppedBy.stop {cause : Nat} {s : State} (h : StoppedBy cause s) (c2 : Nat) : stopController c2 s = s := by
  obtain ⟨hc, -⟩ := h
  unfold stopController; rw [hc]; rfl

theorem StoppedBy.setMode {cause : Nat} {s : State} (h : StoppedBy cause s) (m : VoteMode) : StoppedBy cause (setMode m s) := by
  have hm : StoppedBy cause (raise 53 { s with vot := { s.vot with mode := m } }) := h
  unfold Machine.setMode; split
  · exact h
  · dsimp only; split
    · rw [hm.stop]; exact hm
    · exact hm

theorem StoppedBy.step {cause : Nat} {s t : State} (hst : SettleStep s t) (h : StoppedBy cause s) : StoppedBy cause t := by
  cases hst with
  | promote c hr hm => exact h.congr (by simp)
  | ready c ho => exact h.congr (by simp)
  | mode hm => exact h.setMode _
  | freeze c n hf =>
    obtain ⟨h1, h2, h3⟩ := h
    have hrest := treatFreeze_rest c n s
    exact ⟨(congrArg Img.ctl hrest).trans h1, (congrArg Img.stopCause hrest).trans h2, (congrArg Img.safeShown hrest).trans h3⟩

/-- A stopped controller stays stopped while the channels settle. -/
theorem StoppedBy.settles {cause : Nat} {s t : State} (h : StoppedBy cause s) (hs : Settles s t) : StoppedBy cause t :=
  hs.keeps (fun hst h => h.step hst) h

/-! Modes that do not fall to HALT -/

/-- No new evaluation of the mode leads into HALT: the mode is selected, or HALT already, or two channels at least are ACTIVE (R129). -/
def Steady (s : State) : Prop := s.vot.mode = .m1oo1 ∨ s.vot.mode = .halt ∨ 2 ≤ (activeChs s).length

/-- Every mode but HALT stands for two ACTIVE channels at least (R129). -/
theorem modeByCount_halt_or (s : State) : modeByCount s = .halt ∨ 2 ≤ (activeChs s).length := by
  unfold modeByCount; dsimp only
  split
  · right; omega
  · split
    · right; omega
    · exact .inl rfl

theorem steady_of_count {s : State} (h : s.vot.mode = .m1oo1 ∨ s.vot.mode = modeByCount s) : Steady s := by
  unfold Steady
  exact h.imp_right fun h => by rw [h]; exact modeByCount_halt_or s

/-- Two ACTIVE channels. -/
theorem two_active {s : State} {p q : Port} (hp : s.ch[p].st = .active) (hq : s.ch[q].st = .active) (hne : p ≠ q) : 2 ≤ (activeChs s).length := by
  have hall : ∀ c : Port, s.ch[c].st = .active → c ∈ activeChs s := fun c hc =>
    List.mem_filter.2 ⟨mem_allPorts c, beq_iff_eq.2 hc⟩
  have hnd : [p, q].Nodup := by simpa using hne
  refine (hnd.subperm fun c hc => ?_).length_le
  rcases List.mem_pair.1 hc with rfl | rfl
  · exact hall c hp
  · exact hall c hq

theorem Steady.congr {s t : State} (h : Steady s) (hc : t.ch = s.ch) (hv : t.vot.mode = s.vot.mode) : Steady t := by
  unfold Steady activeChs; rw [hc, hv]; exact h

/-- In a steady state a new evaluation of the mode leaves the controller alone. -/
theorem Steady.setMode {s : State} (h : Steady s) (hm : s.vot.mode ≠ .m1oo1) :
    (setMode (modeByCount s) s).img = s.img ∧ Steady (setMode (modeByCount s) s) := by
  have hsteady : Steady (Machine.setMode (modeByCount s) s) := by
    unfold Steady activeChs; rw [setMode_vot, (setMode_keeps _ _).2.2.1.2.1]
    exact .inr (modeByCount_halt_or s)
  refine ⟨?_, hsteady⟩
  unfold Machine.setMode; split
  · rfl
  · rename_i hne
    have hne : s.vot.mode ≠ modeByCount s := by simpa using hne
    have hnh : modeByCount s ≠ .halt := fun e => by
      rcases h with h | h | h
      · exact hm h
      · exact hne (h.trans e.symm)
      · unfold modeByCount at e; dsimp only at e; split at e
        · cases e
        · split at e
          · cases e
          · omega
    dsimp only; rw [beq_false_of_ne hnh]; rfl

/-- A steady state stays steady, and only a freeze changes its process image. -/
theorem Steady.step {s t : State} (hst : SettleStep s t) (h : Steady s) :
    Steady t ∧ (t.img = s.img ∨ ∃ c n, (c.val, n) ∈ s.img.heldFreeze ∧ t.img = (treatFreeze c n s).img) := by
  have more : ∀ {u : State}, SettleStep s u → u.vot = s.vot → Steady u := fun hu hv => by
    unfold Steady; rw [hv]; exact h.imp_right (Or.imp_right fun h2 => h2.trans hu.activeCount)
  cases hst with
  | promote c hr hm => exact ⟨more (.promote c hr hm) (by simp), .inl (by simp)⟩
  | ready c ho => exact ⟨more (.ready c ho) (by simp), .inl (by simp)⟩
  | mode hm => obtain ⟨hi, hs⟩ := h.setMode hm; exact ⟨hs, .inl hi⟩
  | freeze c n hf => exact ⟨h.congr (by simp) (by simp), .inr ⟨c, n, hf, rfl⟩⟩

/-- Where no freeze is held, a steady settlement leaves the process image alone. -/
theorem Steady.img {s t : State} (h : Steady s) (hf : s.img.heldFreeze = []) (hs : Settles s t) : t.img = s.img := by
  have key : Steady t ∧ t.img = s.img := by
    refine hs.keeps (P := fun x => Steady x ∧ x.img = s.img) (fun {x y} hst ⟨hx, hi⟩ => ?_) ⟨h, rfl⟩
    obtain ⟨hy, hyi | ⟨c, n, hc, -⟩⟩ := hx.step hst
    · exact ⟨hy, hyi.trans hi⟩
    · rw [hi, hf] at hc; cases hc
  exact key.2

/-- A steady settlement leaves a running controller, its commit runs and COMMITTED. -/
theorem Steady.running {s t : State} (h : Steady s) (hr : s.img.ctl = .running) (hs : Settles s t) :
    t.img.ctl = .running ∧ t.img.runs = s.img.runs ∧ t.img.committed = s.img.committed := by
  have key : Steady t ∧ t.img.ctl = .running ∧ t.img.runs = s.img.runs ∧ t.img.committed = s.img.committed := by
    refine hs.keeps (P := fun x => Steady x ∧ x.img.ctl = .running ∧ x.img.runs = s.img.runs ∧ x.img.committed = s.img.committed)
      (fun {x y} hst ⟨hx, hc, hruns, hcom⟩ => ?_) ⟨h, hr, rfl, rfl⟩
    obtain ⟨hy, hyi | ⟨c, n, -, hyi⟩⟩ := hx.step hst
    · rw [hyi]; exact ⟨hy, hc, hruns, hcom⟩
    · have hrest := treatFreeze_rest c n x
      rw [hyi]
      exact ⟨hy, (congrArg Img.ctl hrest).trans hc, (congrArg Img.runs hrest).trans hruns, (treatFreeze_committed c n hc).trans hcom⟩
  exact key.2

end Sys2Proof.Machine
end

section
/-!
SUPPORT. A command of the vote unit that ends with a pump where nothing waits (R123, R129, R144): the channels, the vote unit and the controller
change, and nothing moves on.
-/

namespace Sys2Proof.Machine

open Sys2Proof

/-- From `s` to `t` channels, the vote unit and the controller have changed; the Loom, the ring, the segments, the life cycle and the power
state are those before. -/
structure ChannelWork (s t : State) : Prop where
  ends : ChannelsEnd s t
  plant : Same4 State.lom State.rng State.seg State.mnt s t
  held : Same3 State.pwr State.lcc State.tap s t

theorem ChannelWork.settles {s t : State} (h : ChannelWork s t) : ChannelWork s (settleChannels t) := by
  obtain ⟨he, ⟨h1, h2, h3, h4⟩, h5, h6, h7⟩ := h
  exact ⟨he.settleChannels, by simp [h1, h2, h3, h4], by simp [h5, h6, h7]⟩

/-- Where nothing waited, nothing moves on. -/
theorem ChannelWork.pump {s t : State} (h : ChannelWork s t) (hq : NothingQueued s) : pump t = t := by
  obtain ⟨he, ⟨-, hrng, hseg, hmnt⟩, hpwr, -⟩ := h
  exact pump_idle t (he.nothingQueued hseg hmnt hrng hpwr hq)

/-- What stands of it once the events are delivered. -/
theorem ChannelWork.shown {s x : State} (h : ChannelWork (cleared s) x) :
    (settle x).seg = s.seg ∧ (settle x).lom = s.lom ∧ (settle x).lcc = s.lcc := by
  obtain ⟨-, ⟨hlom, -, hseg, -⟩, -, hlcc, -⟩ := h
  simp [hlom, hseg, hlcc]

theorem ChannelWork.boot {s x : State} (h : ChannelWork (cleared s) x) (hb : s.pwr.boot = .opened) : x.pwr.boot ≠ .inReset := by
  obtain ⟨-, -, hpwr, -⟩ := h
  rw [hpwr, show (cleared s).pwr.boot = .opened from hb]; decide

/-- Such a command's answer. -/
theorem exec_channelWork {c : Instr} {s x : State} {f : State → State} (hx : exec c s = run f s) (hf : f (cleared s) = pump x)
    (hw : ChannelWork (cleared s) x) (hq : NothingQueued s) : exec c s = .next (settle x) :=
  exec_run f hx (hf.trans (hw.pump hq))

/-- While the ports are open, a command has its effect. -/
theorem opened_eq {f : State → State} {s : State} (h : s.pwr.boot = .opened) : opened f (cleared s) = f (cleared s) := if_pos h

/-- A command that is refused with an event changes nothing else. -/
theorem refused_shown {s : State} {ev : Nat} {k : PageKind} {b : Nat} (he : eventPage ev = some (k, b)) (hb : s.pwr.boot = .opened) :
    RestSame s (settle (raise ev (cleared s))) ∧ (settle (raise ev (cleared s))).regs = s.regs ∧ EventSet (settle (raise ev (cleared s))) ev :=
  ⟨restSame_settle (restSame_trans (restSame_cleared s) (restSame_of_reports (by simp))), (settle_regs _).trans (by simp),
    event_seen he (by rw [show (raise ev (cleared s)).pwr.boot = .opened from hb]; decide) (raise_mem ev _)⟩

/-! 1OO1 (R129) -/

/-- The other ACTIVE channels become READY, and 1OO1 is selected with channel `c`. -/
def selectOne (c : Port) (s : State) : State :=
  let s1 := ((activeChs s).filter fun d => d != c).foldl (fun s d => setChState d .ready s) s
  setMode .m1oo1 { s1 with vot := { s1.vot with oneCh := c } }

/-- Channel `c` is the one ACTIVE channel of 1OO1. -/
def OneActive (c : Port) (s : State) : Prop :=
  s.vot.mode = .m1oo1 ∧ s.vot.oneCh = c ∧ s.ch[c].st = .active ∧ ∀ d, d ≠ c → s.ch[d].st ≠ .active

theorem OneActive.step {c : Port} {s t : State} (hst : SettleStep s t) (h : OneActive c s) : OneActive c t := by
  obtain ⟨hm, hone, hc, hd⟩ := h
  refine ⟨hst.oneOfOne.2 hm, (congrArg Vot.oneCh hst.vote).trans hone, hst.active hc, fun d e => ?_⟩
  rcases hst.st d with h | ⟨-, -, h⟩ | ⟨-, h⟩
  · rw [h]; exact hd d e
  · exact absurd hm h
  · rw [h]; decide

/-- The states of the channels after several have become READY. -/
theorem readyAll_st (l : List Port) (s : State) (d : Port) :
    (l.foldl (fun s d => setChState d .ready s) s).ch[d].st = if d ∈ l then .ready else s.ch[d].st := by
  induction l generalizing s with
  | nil => simp
  | cons c l ih =>
    rw [List.foldl_cons, ih, setChState_st]
    by_cases hl : d ∈ l
    · simp [hl]
    · by_cases hc : d = c
      · simp [hc]
      · simp [hl, hc]

theorem selectOne_active {c : Port} {s : State} (h : s.ch[c].st = .active) : OneActive c (selectOne c s) := by
  have hst := readyAll_st ((activeChs s).filter fun d => d != c) s
  unfold selectOne; extract_lets s1
  have hch : (setMode .m1oo1 { s1 with vot := { s1.vot with oneCh := c } }).ch = s1.ch := by simp
  unfold OneActive; rw [hch, setMode_vot]
  refine ⟨rfl, rfl, ?_, fun d e => ?_⟩
  · rw [hst, if_neg (by simp)]; exact h
  · rw [hst]; split
    · decide
    · rename_i hd
      intro ha
      exact hd (List.mem_filter.2 ⟨List.mem_filter.2 ⟨mem_allPorts d, beq_iff_eq.2 ha⟩, bne_iff_ne.2 e⟩)

theorem selectOne_work (c : Port) (s : State) : ChannelWork s (selectOne c s) := by
  have h1 : ChannelsEnd s (((activeChs s).filter fun d => d != c).foldl (fun s d => setChState d .ready s) s) :=
    .foldl (fun s d => (ChannelsEnd.refl s).setChState d .ready) _ _
  unfold selectOne; extract_lets s1
  refine ⟨.setMode (h1.trans ?_) _, by simp [s1], by simp [s1]⟩
  exact ChannelsEnd.of_same rfl rfl ⟨rfl, rfl, rfl⟩ (.refl _)

theorem modeSelect_selects {c : Port} {s : State} (hst : s.lcc.st = .maintenance) (hp : s.lcc.presence = true) (ha : s.ch[c].st = .active) :
    modeSelect c s = pump (settleChannels (selectOne c s)) := by
  unfold modeSelect; exact if_pos (by rw [hst, hp, ha]; rfl)

theorem modeSelect_refused {c : Port} {s : State} (h : s.lcc.st ≠ .maintenance ∨ s.lcc.presence = false ∨ s.ch[c].st ≠ .active) :
    modeSelect c s = raise 62 s := by
  unfold modeSelect; rw [if_neg]
  simp only [Bool.and_eq_true, beq_iff_eq, not_and_or, Bool.not_eq_true, ← ne_eq]
  exact or_assoc.2 h

/-- READY channels become OBSERVERs when 1OO1 ends. -/
def unready (s : State) : State := allPorts.foldl (fun s p => if s.ch[p].st == .ready then setChState p .observer s else s) s

theorem endOne_eq (s : State) : endOne s = settleChannels (setMode (modeByCount (unready s)) (unready s)) := rfl

theorem settleCount_mode (s u : State) : (settleChannels (setMode (modeByCount u) s)).vot.mode ≠ .m1oo1 := by
  rw [ne_eq, (settleChannels_settles _).oneOfOne, setMode_vot]
  exact modeByCount_ne u

theorem endOne_mode (s : State) : (endOne s).vot.mode ≠ .m1oo1 := by
  rw [endOne_eq]
  exact settleCount_mode _ _

theorem modeAuto_ends {s : State} (h : s.vot.mode = .m1oo1) : modeAuto s = pump (endOne s) := by unfold modeAuto; exact if_pos (by rw [h]; rfl)

theorem modeAuto_idle {s : State} (h : s.vot.mode ≠ .m1oo1) : modeAuto s = s := by unfold modeAuto; exact if_neg (by simpa using h)

theorem endOne_work (s : State) : ChannelWork s (endOne s) := ⟨(ChannelsEnd.refl s).endOne, by simp, by simp⟩

/-! The end of admission (R123) -/

/-- Admission is over. -/
def admitted (s : State) : State := { s with vot := { s.vot with admitOn := false } }

theorem admissionEnd_settles {s : State} (hon : s.vot.admitOn = true) (hb : s.pwr.boot = .opened) :
    admissionEnd s = pump (settleChannels (admitted s)) := by unfold admissionEnd; exact if_pos (by rw [hon, hb]; rfl)

theorem admitted_work (s : State) : ChannelWork s (admitted s) :=
  ⟨.of_same rfl rfl ⟨rfl, rfl, rfl⟩ (.refl _), ⟨rfl, rfl, rfl, rfl⟩, rfl, rfl, rfl⟩

end Sys2Proof.Machine

open Sys2Proof Sys2Proof.Machine

/-- Settles O28: a settlement of the channels keeps 1OO1 and its one ACTIVE channel, leaves it only where AUTO has ended it, and keeps the end of
admission; what a refused command reports is all it does. -/
theorem voteModes : Obligations.VoteModes := by
  unfold Obligations.VoteModes
  intro c s hd hq hb
  have hboot : (cleared s).pwr.boot = .opened := hb
  refine ⟨fun hst hpres hact => ?_, fun hno => ?_, fun hm => ?_, fun hm => ?_, fun hon => ?_⟩
  · have hw := (selectOne_work c (cleared s)).settles
    have hx := exec_channelWork (c := .modeCmdSelect1oo1 c) rfl ((opened_eq hb).trans (modeSelect_selects (s := cleared s) hst hpres hact)) hw hq
    obtain ⟨hmode, hone, hself, hother⟩ := (settleChannels_settles _).keeps OneActive.step (selectOne_active (s := cleared s) hact)
    have hch : (settle (settleChannels (selectOne c (cleared s)))).ch = (settleChannels (selectOne c (cleared s))).ch := by simp
    refine completes_settle hx ⟨by rw [settle_vot]; exact hmode, by rw [settle_vot]; exact hone, ?_, ?_, hw.shown⟩
    · rw [hch]; exact hself
    · rw [hch]; exact hother
  · have hx := exec_run (c := .modeCmdSelect1oo1 c) (opened (modeSelect c)) rfl ((opened_eq hb).trans (modeSelect_refused (s := cleared s) hno))
    exact completes_settle hx (refused_shown rfl hb)
  · have hw := endOne_work (cleared s)
    have hx := exec_channelWork (c := .modeCmdAuto) rfl ((opened_eq hb).trans (modeAuto_ends (s := cleared s) hm)) hw hq
    exact completes_settle hx ⟨by rw [settle_vot]; exact endOne_mode _, hw.shown⟩
  · have hx := exec_run (c := .modeCmdAuto) (opened modeAuto) rfl ((opened_eq hb).trans (modeAuto_idle (s := cleared s) hm))
    exact completes_quiet hx hd rfl
  · have hw := (admitted_work (cleared s)).settles
    have hx := exec_channelWork (c := .admissionEnd) rfl (admissionEnd_settles (s := cleared s) hon hb) hw hq
    obtain ⟨⟨hadm, -⟩, -⟩ := (settleChannels_settles (admitted (cleared s))).votes
    exact completes_settle hx ⟨by rw [settle_vot]; exact hadm, hw.shown⟩
end

section
/-!
SUPPORT. A commit of the controller cycle (R143, R144, R145, R270): the channels' copies are noted and dropped, which changes no more of the
vote unit and of the process image than the attempts and STG_BUSY; a commit that is carried out stays so while the channels settle.
-/

namespace Sys2Proof.Machine

open Sys2Proof

theorem ChannelWork.refl (s : State) : ChannelWork s s := ⟨.refl s, ⟨rfl, rfl, rfl, rfl⟩, rfl, rfl, rfl⟩

theorem ChannelWork.trans {s t u : State} (h1 : ChannelWork s t) (h2 : ChannelWork t u) : ChannelWork s u := by
  obtain ⟨ends1, ⟨lom1, rng1, seg1, mnt1⟩, pwr1, lcc1, tap1⟩ := h1
  obtain ⟨ends2, ⟨lom2, rng2, seg2, mnt2⟩, pwr2, lcc2, tap2⟩ := h2
  exact ⟨ends1.trans ends2, ⟨lom2.trans lom1, rng2.trans rng1, seg2.trans seg1, mnt2.trans mnt1⟩, pwr2.trans pwr1, lcc2.trans lcc1,
    tap2.trans tap1⟩

/-! The channels' copies -/

/-- The process image but for STG_BUSY. -/
def copyImg (s : State) : Img := { s.img with stgBusy := [] }

/-- From `s` to `t` copies of commits have been noted, missed or dropped: an ACTIVE channel stays ACTIVE. -/
structure CopyWork (s t : State) : Prop where
  work : ChannelWork s t
  vote : Same3 (·.vot.mode) (·.vot.last) (·.vot.admitOn) s t
  img : copyImg t = copyImg s
  active : ∀ d : Port, s.ch[d].st = .active → t.ch[d].st = .active

namespace CopyWork

variable {s t u : State}

theorem refl (s : State) : CopyWork s s := ⟨.refl s, ⟨rfl, rfl, rfl⟩, rfl, fun _ => id⟩

theorem trans (h1 : CopyWork s t) (h2 : CopyWork t u) : CopyWork s u := by
  obtain ⟨work1, ⟨mode1, last1, adm1⟩, img1, active1⟩ := h1
  obtain ⟨work2, ⟨mode2, last2, adm2⟩, img2, active2⟩ := h2
  exact ⟨work1.trans work2, ⟨mode2.trans mode1, last2.trans last1, adm2.trans adm1⟩, img2.trans img1, fun d h => active2 d (active1 d h)⟩

theorem foldl {α : Type} {f : State → α → State} (hf : ∀ s a, CopyWork s (f s a)) (l : List α) (s : State) : CopyWork s (l.foldl f s) := by
  induction l generalizing s with
  | nil => exact refl s
  | cons a l ih => exact (hf s a).trans (ih _)

/-- What the image shows but STG_BUSY stays. -/
theorem shows (h : CopyWork s t) : Same4 (·.img.committed) (·.img.ctl) (·.img.runs) (·.img.mem) s t ∧
    Same3 (·.img.restarting) (·.img.frozen) (·.img.heldFreeze) s t := by
  have part : ∀ {α : Type} (f : Img → α), f (copyImg t) = f (copyImg s) := fun f => congrArg f h.img
  exact ⟨⟨part Img.committed, part Img.ctl, part Img.runs, part Img.mem⟩, part Img.restarting, part Img.frozen, part Img.heldFreeze⟩

theorem steady (h : CopyWork s t) (hs : Steady s) : Steady t := by
  obtain ⟨mode, -⟩ := h.vote
  have count : (activeChs s).length ≤ (activeChs t).length :=
    (List.monotone_filter_right _ fun d hd => beq_iff_eq.2 (h.active d (beq_iff_eq.1 hd))).length_le
  exact hs.imp mode.trans (Or.imp mode.trans fun h2 => h2.trans count)

end CopyWork

theorem raise_copy (ev : Nat) (s : State) : CopyWork s (raise ev s) :=
  ⟨⟨(ChannelsEnd.refl s).raised ev, ⟨rfl, rfl, rfl, rfl⟩, rfl, rfl, rfl⟩, ⟨rfl, rfl, rfl⟩, rfl, fun _ => id⟩

theorem raiseIf_copy (b : Bool) (ev : Nat) (s : State) : CopyWork s (raiseIf b ev s) := by
  unfold raiseIf; split
  · exact raise_copy ev s
  · exact .refl s

/-- Changes of the voted writes' tables, of the attempts and of STG_BUSY. -/
theorem tables_copy (bus : Bus) (attempts : List Word) (busy : List Nat) (s : State) :
    CopyWork s { s with bus := bus, vot := { s.vot with attempts := attempts }, img := { s.img with stgBusy := busy } } :=
  ⟨⟨.of_same rfl rfl ⟨rfl, rfl, rfl⟩ (.refl _), ⟨rfl, rfl, rfl, rfl⟩, rfl, rfl, rfl⟩, ⟨rfl, rfl, rfl⟩, rfl, fun _ => id⟩

/-- A change of a channel that keeps its state. -/
theorem modCh_copy (c : Port) {f : Chan → Chan} (hf : ∀ x, (f x).st = x.st) (s : State) : CopyWork s (modCh c f s) := by
  refine ⟨⟨(ChannelsEnd.refl s).modCh c f, ⟨rfl, rfl, rfl, rfl⟩, rfl, rfl, rfl⟩, ⟨rfl, rfl, rfl⟩, rfl, fun d h => ?_⟩
  by_cases e : d = c
  · subst e; rw [modCh_self, hf]; exact h
  · rw [modCh_other _ _ _ _ e]; exact h

theorem commitSeen_copy (c : Port) (n : Word) (s : State) : CopyWork s (commitSeen c n s) := by
  have attempt : CopyWork s (commitAttempt c n s) := by
    unfold commitAttempt; split
    · exact tables_copy s.bus _ s.img.stgBusy s
    · exact .refl s
  unfold commitSeen; dsimp only; split
  · exact (attempt.trans (modCh_copy c (f := fun x => { x with copyOf := some n, opsSince := 0 }) (fun _ => rfl) _)).trans (tables_copy _ _ _ _)
  · exact attempt

theorem dropCopy_copy (s : State) (c : Port) : CopyWork s (dropCopy s c) := by
  refine (modCh_copy c (f := fun x => { x with copyOf := none }) (fun _ => rfl) s).trans ?_
  unfold dropCopy releaseStg; split
  · exact .refl _
  · exact tables_copy _ _ _ _

theorem observerMiss_copy (s : State) (c : Port) : CopyWork s (observerMiss c s) := by
  refine ⟨⟨(ChannelsEnd.refl s).observerMiss c, by simp, by simp⟩, by simp, ?_, fun d h => ?_⟩
  · have himg : (observerMiss c s).img = s.img := by simp [observerMiss]
    unfold copyImg; rw [himg]
  · have kept := modCh_copy c (f := fun x => { x with matchCnt := 0 }) (fun _ => rfl) s
    unfold observerMiss; split
    · dsimp only; split
      · rename_i hr
        rw [setChState_st, if_neg]
        · exact kept.active d h
        · rintro rfl
          rw [Bool.and_eq_true, beq_iff_eq, kept.active d h] at hr
          exact absurd hr.1 (by decide)
      · exact kept.active d h
    · exact h

/-- The observers miss; where the comparison of the third channel is done or there is none, nobody is charged. -/
theorem closeAccount_copy {ci : Option CommitInfo} {s : State} (h : ∀ x, ci = some x → x.three = false ∨ x.thirdDone = true) :
    CopyWork s (closeAccount ci s) := by
  have habsent : thirdAbsent ci s = [] := by
    unfold thirdAbsent; split
    · rename_i x
      refine if_neg ?_
      rcases h x rfl with h | h <;> simp [h]
    · rfl
  unfold closeAccount; dsimp only; rw [habsent]
  exact .foldl observerMiss_copy _ s

/-! The commit -/

/-- The commit of cycle `n` by `p` and `q` has been carried out. -/
def CommitShown (n : Word) (p q : Port) (s : State) : Prop :=
  s.img.committed = n ∧ s.img.ctl = .running ∧ (∃ r ∈ s.img.runs, r.n = n ∧ r.first = p ∧ r.second = q) ∧
    s.vot.last.map (·.n) = some n ∧ s.vot.admitOn = false

theorem CommitShown.copy {n : Word} {p q : Port} {s t : State} (h : CommitShown n p q s) (hc : CopyWork s t) : CommitShown n p q t := by
  obtain ⟨⟨com, ctl, runs, -⟩, -⟩ := hc.shows
  obtain ⟨-, last, adm⟩ := hc.vote
  dsimp only at com ctl runs last adm
  unfold CommitShown; rw [com, ctl, runs, last, adm]; exact h

theorem CommitShown.settles {n : Word} {p q : Port} {s t : State} (h : CommitShown n p q s) (hs : Steady s) (hst : Settles s t) :
    CommitShown n p q t := by
  obtain ⟨⟨adm, last, -⟩, -⟩ := hst.votes
  obtain ⟨com, ctl, run, hlast, hadm⟩ := h
  obtain ⟨ctl', runs, com'⟩ := hs.running ctl hst
  dsimp only at adm last
  refine ⟨com'.trans com, ctl', ?_, ?_, adm.trans hadm⟩
  · rw [runs]; exact run
  · rw [last]; exact hlast

/-- What a commit of the two channels has noted before it takes effect (R32, R144). -/
def commitNoted (n : Word) (p q : Port) (s : State) : State :=
  if s.vot.mode == .m1oo1 then commitSeen p n s
  else
    noteRecent (voteKey .img 0x04C) (n.setWidth 64)
      (dropEntry p (voteKey .img 0x04C) (dropEntry q (voteKey .img 0x04C) (commitSeen q n (commitHeld p n s))))

theorem commitNoted_copy (n : Word) (p q : Port) (s : State) : CopyWork s (commitNoted n p q s) := by
  unfold commitNoted; split
  · exact commitSeen_copy p n s
  · have held : CopyWork s (commitHeld p n s) := (commitSeen_copy p n s).trans (tables_copy _ _ _ _)
    exact (held.trans (commitSeen_copy q n _)).trans (tables_copy _ _ _ _)

/-- The channels of 1OO1 or two ACTIVE channels commit. -/
theorem commitCmd_commits {n : Word} {p q : Port} {s : State} (hp : s.ch[p].st = .active) (hq : s.ch[q].st = .active)
    (hm : s.vot.mode = .m1oo1 ↔ p = q) : ∃ kp kq, commitCmd n p q s = pump (commitOp n p q kp kq (commitNoted n p q s)) := by
  unfold commitCmd commitNoted; extract_lets key held kOf act
  have hap : act p = true := beq_iff_eq.2 hp
  have haq : act q = true := beq_iff_eq.2 hq
  by_cases h : s.vot.mode = .m1oo1
  · obtain rfl := hm.1 h
    exact ⟨kOf p, kOf p, by rw [if_pos (by simpa using h), if_pos (by simp [hap]), if_pos (by simpa using h)]⟩
  · have hne : p ≠ q := fun e => h (hm.2 e)
    exact ⟨kOf p, kOf q, by rw [if_neg (by simpa using h), if_pos (by simp [hap, haq, hne]), if_neg (by simpa using h)]⟩

/-! The commit takes effect -/

/-- The controller cycle `n` is committed, and a commit run starts. -/
def commitTaken (n : Word) (ci : CommitInfo) (run : CommitRun) (busy : List Nat) (s : State) : State :=
  { s with
    vot := { s.vot with last := some ci, admitOn := false, attempts := s.vot.attempts.filter fun a => a != n }
    img := { s.img with committed := n, ctl := .running, runs := s.img.runs ++ [run], wdogRun := 2, stgBusy := busy } }

theorem commitTaken_work (n : Word) (ci : CommitInfo) (run : CommitRun) (busy : List Nat) (s : State) :
    ChannelWork s (commitTaken n ci run busy s) :=
  ⟨.of_same rfl rfl ⟨rfl, rfl, rfl⟩ (.refl _), ⟨rfl, rfl, rfl, rfl⟩, rfl, rfl, rfl⟩

/-- A commit of the frozen cycle is carried out: the earlier one's account is closed, late copies are dropped and the channels settle. -/
theorem commitOp_carries {n : Word} {p q : Port} (kp kq : Word) {s : State} (hctl : s.img.ctl ≠ .stopped) (hres : s.img.restarting = false)
    (hn : n = s.img.frozen) (h0 : n ≠ 0) (hcom : s.img.committed ≠ n) :
    ∃ ci run busy t, ci.n = n ∧ (run.n = n ∧ run.first = p ∧ run.second = q) ∧ CopyWork s t ∧
      commitOp n p q kp kq s =
        (let s4 := closeAccount t.vot.last (raiseIf (t.img.ctl == .waiting) 71 (commitTaken n ci run busy t))
        retryFreezes (settleChannels ((lateCopies n s4).foldl dropCopy s4))) := by
  unfold commitOp; extract_lets t one outs ci wasWaiting run s2 s3 s4
  have himg : t.img = s.img := by simp [t]
  have hgoes : t.img.ctl = .waiting ∨ t.img.ctl = .running := by
    rw [himg]; cases h : s.img.ctl
    case stopped => exact absurd h hctl
    all_goals simp
  refine ⟨ci, run, _, t, rfl, ⟨rfl, rfl, rfl⟩, raiseIf_copy _ _ s, if_pos ?_⟩
  simp only [Bool.and_eq_true, Bool.or_eq_true, beq_iff_eq, Bool.not_eq_true', bne_iff_ne]
  rw [himg] at hgoes ⊢
  exact ⟨⟨⟨⟨hgoes, hres⟩, hn⟩, h0⟩, hcom⟩

/-- A commit of another cycle is refused: copies may be dropped. -/
theorem commitOp_refuses {n : Word} (p q : Port) (kp kq : Word) {s : State} (hn : n ≠ s.img.frozen) :
    ∃ t, CopyWork s t ∧ commitOp n p q kp kq s = raise 74 t := by
  unfold commitOp; extract_lets t one outs ci wasWaiting run s2 s3 s4
  have himg : t.img = s.img := by simp [t]
  refine ⟨_, (raiseIf_copy _ _ s).trans (.foldl dropCopy_copy _ t), if_neg ?_⟩
  rw [himg]
  simp [hn]

/-- What a commit that is carried out leaves: the commit, its event, and the rest of the device as it was. -/
theorem commitCmd_carried {n : Word} {p q : Port} {s : State} (hp : s.ch[p].st = .active) (hq : s.ch[q].st = .active)
    (hm : s.vot.mode = .m1oo1 ↔ p = q) (hctl : s.img.ctl ≠ .stopped) (hres : s.img.restarting = false)
    (hn : n = s.img.frozen) (h0 : n ≠ 0) (hcom : s.img.committed ≠ n) (hlast : ∀ ci, s.vot.last = some ci → ci.three = false ∨ ci.thirdDone = true) :
    ∃ x, commitCmd n p q s = pump x ∧ ChannelWork s x ∧ CommitShown n p q x ∧ (s.img.ctl = .waiting → ∃ o ∈ x.evh.occ, o.ev = 71) := by
  obtain ⟨kp, kq, hcmd⟩ := commitCmd_commits (n := n) hp hq hm
  have hnoted := commitNoted_copy n p q s
  generalize commitNoted n p q s = u at hcmd hnoted
  obtain ⟨⟨com, ctl, -⟩, res, frozen, -⟩ := hnoted.shows
  dsimp only at com ctl res frozen
  obtain ⟨ci, run, busy, t, hci, hrun, hcopy, hop⟩ :=
    commitOp_carries (p := p) (q := q) kp kq (ctl ▸ hctl) (res.trans hres) (hn.trans frozen.symm) h0 (com ▸ hcom)
  have hst := hnoted.trans hcopy
  obtain ⟨mode, last, -⟩ := hst.vote
  obtain ⟨⟨-, ctl', -⟩, -⟩ := hst.shows
  dsimp only at mode last ctl'
  rw [last, ctl'] at hop
  have hsteady : Steady (commitTaken n ci run busy t) := by
    by_cases e : p = q
    · exact .inl (mode.trans (hm.2 e))
    · exact .inr (.inr (two_active (s := t) (hst.active p hp) (hst.active q hq) e))
  have htaken : CommitShown n p q (commitTaken n ci run busy t) :=
    ⟨rfl, rfl, ⟨run, List.mem_append_right _ (List.mem_singleton_self run), hrun⟩, congrArg some hci, rfl⟩
  have hwork : ChannelWork s (commitTaken n ci run busy t) := hst.work.trans (commitTaken_work n ci run busy t)
  generalize commitTaken n ci run busy t = v at hop hsteady htaken hwork
  have hraised := raiseIf_copy (s.img.ctl == .waiting) 71 v
  have hevent : s.img.ctl = .waiting → ∃ o ∈ (raiseIf (s.img.ctl == .waiting) 71 v).evh.occ, o.ev = 71 := fun h => by
    rw [h]; exact raise_mem 71 v
  generalize raiseIf (s.img.ctl == .waiting) 71 v = w at hop hraised hevent
  have hclosed := closeAccount_copy (ci := s.vot.last) (s := w) hlast
  generalize closeAccount s.vot.last w = y at hop hclosed
  have hall := hclosed.trans (.foldl dropCopy_copy (lateCopies n y) y)
  dsimp only at hop
  generalize (lateCopies n y).foldl dropCopy y = z at hop hall
  have hz := hraised.trans hall
  have hsettles := (settleChannels_settles z).trans (retryFreezes_settles _)
  have hends : ChannelWork z (retryFreezes (settleChannels z)) := by
    refine ⟨(ChannelsEnd.refl z).settleChannels.retryFreezes, by simp, by simp⟩
  exact ⟨_, hcmd.trans (congrArg pump hop), (hwork.trans hz.work).trans hends, (htaken.copy hz).settles (hz.steady hsteady) hsettles,
    fun h => Grows.has (hall.work.ends.occ.trans hends.ends.occ) (hevent h)⟩

end Sys2Proof.Machine
end

section
/-!
SUPPORT. No majority for a commit (R144, R270, R282): the controller stops with cause 2.
-/

namespace Sys2Proof.Machine

open Sys2Proof

/-- The attempts for cycle `n` are forgotten. -/
def attemptGone (n : Word) (s : State) : State := { s with vot := { s.vot with attempts := s.vot.attempts.filter (· != n) } }

theorem noMajority_stops {n : Word} {s : State} (ha : s.vot.attempts.contains n = true) (hr : commitReached s n = false) :
    noMajority n s = pump (settleChannels (stopController 2 (raise 54 (attemptGone n s)))) := by
  unfold noMajority
  rw [if_neg (by rw [ha]; decide), if_neg]
  · rfl
  · rw [show commitReached _ n = commitReached s n from rfl, hr]; decide

/-- A stop with an event before it: the controller is STOPPED, and both events have occurred. -/
theorem stopWork (cause ev : Nat) {s t : State} (h : ChannelWork s t) (hctl : t.img.ctl ≠ .stopped) :
    ChannelWork s (settleChannels (stopController cause (raise ev t))) ∧ StoppedBy cause (settleChannels (stopController cause (raise ev t))) ∧
      ∀ e ∈ [ev, 70], ∃ o ∈ (settleChannels (stopController cause (raise ev t))).evh.occ, o.ev = e := by
  have hraised : ChannelWork t (raise ev t) := (raise_copy ev t).work
  have hstop : ChannelWork (raise ev t) (stopController cause (raise ev t)) := ⟨(ChannelsEnd.refl _).stopController cause, by simp, by simp⟩
  obtain ⟨hby, h70⟩ := stopController_stops (s := raise ev t) cause hctl
  have hev := raise_mem ev t
  generalize raise ev t = u at hraised hstop hby h70 hev
  have hg := hstop.ends.occ
  generalize stopController cause u = v at hstop hby h70 hg
  have hsettled : Grows v (settleChannels v) := ((ChannelsEnd.refl v).settleChannels).occ
  refine ⟨((h.trans hraised).trans hstop).settles, hby.settles (settleChannels_settles v), fun e he => ?_⟩
  rcases List.mem_pair.1 he with rfl | rfl
  · exact Grows.has (hg.trans hsettled) hev
  · exact Grows.has hsettled h70

/-- The delivery of events leaves the process image and the test access port. -/
theorem settle_image (x : State) : Same2 State.img State.tap x (settle x) := by simp

/-- While the controller is stopped SAFE_N is low (R282). -/
theorem safeN_low {s : State} (htap : s.tap.taken = false) (hctl : s.img.ctl = .stopped) : ballLevel s .safeN = .low := by
  have hsafe : safeReleased s = false := by unfold safeReleased; rw [hctl]; rfl
  unfold ballLevel; rw [htap]
  simp only [Bool.false_and, Bool.false_eq_true, if_false]
  split
  · rfl
  · simp [functionalLevel, hsafe, pulled]

end Sys2Proof.Machine

open Sys2Proof Sys2Proof.Machine

/-- Settles O29: two ACTIVE channels, or the one of 1OO1, leave a vote mode that does not fall to HALT, so the commit that they have carried out
stands after the channels settle; a commit of another cycle drops copies at most; without a majority the stop stands. -/
theorem commitsAndMajority : Obligations.CommitsAndMajority := by
  unfold Obligations.CommitsAndMajority
  intro n p q s hd hq hb
  refine ⟨fun hp hpq hm => ⟨fun hctl hres hn h0 hcom hlast => ?_, fun hn => ?_⟩, fun ha hr hctl hres => ?_⟩
  · obtain ⟨x, hcmd, hw, ⟨hcommitted, hrun, hruns, hl, hadm⟩, hwait⟩ :=
      commitCmd_carried (s := cleared s) (n := n) hp hpq hm hctl hres hn h0 hcom hlast
    have hx := exec_channelWork (c := .commit n p q) rfl hcmd hw hq
    refine completes_settle hx ⟨?_, ?_, ?_, ?_, ?_, fun h => event_seen rfl (hw.boot hb) (hwait h), hw.shown⟩
    · rw [(settle_image _).1]; exact hcommitted
    · rw [(settle_image _).1]; exact hrun
    · rw [(settle_image _).1]; exact hruns
    · rw [settle_vot]; exact hl
    · rw [settle_vot]; exact hadm
  · obtain ⟨kp, kq, hcmd⟩ := commitCmd_commits (s := cleared s) (n := n) hp hpq hm
    have hnoted := commitNoted_copy n p q (cleared s)
    generalize commitNoted n p q (cleared s) = u at hcmd hnoted
    obtain ⟨-, -, hfrozen, -⟩ := hnoted.shows
    obtain ⟨t, hcopy, hop⟩ := commitOp_refuses (n := n) (s := u) p q kp kq (fun e => hn (e.trans hfrozen))
    have hall := (hnoted.trans hcopy).trans (raise_copy 74 t)
    obtain ⟨⟨hcom, hctl, hruns, hmem⟩, -⟩ := hall.shows
    have hx := exec_channelWork (c := .commit n p q) rfl (hcmd.trans (congrArg pump hop)) hall.work hq
    refine completes_settle hx ⟨event_seen rfl (hall.work.boot hb) (raise_mem 74 t), ?_, ?_, ?_, ?_, hall.work.shown⟩
    · rw [(settle_image _).1]; exact hcom
    · rw [(settle_image _).1]; exact hctl
    · rw [(settle_image _).1]; exact hruns
    · rw [(settle_image _).1]; exact hmem
  · have hgone : ChannelWork (cleared s) (attemptGone n (cleared s)) := (tables_copy s.bus _ s.img.stgBusy (cleared s)).work
    have hcmd := noMajority_stops (s := cleared s) ha hr
    obtain ⟨hw, ⟨hstop, hcause, -⟩, hev⟩ := stopWork 2 54 hgone hctl
    have hx := exec_channelWork (c := .noMajority n) rfl hcmd hw hq
    have hattempts : (settleChannels (stopController 2 (raise 54 (attemptGone n (cleared s))))).vot.attempts = s.vot.attempts.filter (· != n) := by
      obtain ⟨⟨-, -, hatt, -⟩, -⟩ := (settleChannels_settles (stopController 2 (raise 54 (attemptGone n (cleared s))))).votes
      exact hatt.trans (by simp [attemptGone])
    have htap : (settleChannels (stopController 2 (raise 54 (attemptGone n (cleared s))))).tap = s.tap := hw.held.2.2
    generalize settleChannels (stopController 2 (raise 54 (attemptGone n (cleared s)))) = x at *
    refine completes_settle hx ⟨?_, ?_, ?_, ?_, ?_, fun ht => ?_⟩
    · rw [(settle_image _).1]; exact hstop
    · rw [(settle_image _).1]; exact hcause
    · rw [settle_vot, hattempts]; simp
    · exact event_seen rfl (hw.boot hb) (hev 54 (by simp))
    · exact event_seen rfl (hw.boot hb) (hev 70 (by simp))
    · exact safeN_low (by rw [(settle_image x).2, htap]; exact ht) ((congrArg Img.ctl (settle_image x).1).trans hstop)
end

section
/-!
SUPPORT. What no pump changes: the marks of a restart in the process image. The vote unit changes the image by the end of a channel alone; work
that fails writes record headers and input slots (R264, R283).
-/

namespace Sys2Proof.Machine

open Sys2Proof

/-! The vote unit -/

theorem endOne_still (s : State) : imgStill (endOne s) = imgStill s := by
  have h : imgStill (unready s) = imgStill s := imgStill_congr (by simp [unready])
  rw [endOne_eq, (settleChannels_settles _).still, setMode_still, h]

theorem fence_still (c : Port) (portReset : Bool) (s : State) : imgStill (fence c portReset s) = imgStill s := by
  unfold fence; split
  · extract_lets wasOne entries s1 b r i s2 s3 rx s4 s5 s6 s7 s8
    have h2 : imgStill s2 = imgStill s1 := rfl
    have h1 : imgStill s1 = imgStill s := imgStill_congr (by simp [s1])
    have h8 : imgStill s8 = imgStill s2 := imgStill_congr (by simp [s8, s7, s6, s5, s4, s3, apply_ite])
    have h := h8.trans (h2.trans h1)
    split
    · rw [endOne_still, h]
    · rw [(settleChannels_settles s8).still, h]
  · rfl

theorem charge_still (mode : VoteMode) (c : Port) (s : State) : imgStill (charge mode c s) = imgStill s := by
  unfold charge; split
  · extract_lets now s1 s2
    have h2 : imgStill s2 = imgStill s := rfl
    split
    · rw [fence_still, h2]
    · exact h2
  · rfl

theorem copiesGone_img (e : MEntry) (s : State) : (copiesGone e s).img = s.img := by
  have read : ∀ (t : State) (c : MCopy), (readGone e t c).img = t.img := fun t c => by unfold readGone; dsimp only; split <;> simp
  have all : ∀ (l : List MCopy) (t : State), (l.foldl (readGone e) t).img = t.img := foldl_keeps State.img _ read
  unfold copiesGone; simp [apply_ite State.img, all]

theorem closeEntry_still (e : MEntry) (s : State) : imgStill (closeEntry e s) = imgStill s := by
  have gone : imgStill (copiesGone e s) = imgStill s := imgStill_congr (copiesGone_img e s)
  cases hm : majority s e with
  | none =>
    have h : closeEntry e s = if s.vot.mode == .m1oo1 then copiesGone e s else raise 54 (copiesGone e s) := by
      unfold closeEntry; dsimp only; rw [hm]; rfl
    rw [h, apply_ite imgStill, show imgStill (raise 54 (copiesGone e s)) = imgStill (copiesGone e s) from rfl, ite_self, gone]
  | some m =>
    obtain ⟨missed, h⟩ := closeEntry_majority hm
    have charged := foldl_keeps imgStill (fun t c => charge s.vot.mode c t) (fun t c => charge_still _ c t)
      ((activeAligned s).filter fun c => outside e m c) (copiesGone e s)
    rw [h]
    exact (imgStill_congr (by simp)).trans (charged.trans gone)

theorem voteRound_still (s : State) : imgStill (voteRound s) = imgStill s := by
  have same : ∀ {t : State}, t.img = s.img → imgStill t = imgStill s := imgStill_congr
  unfold voteRound; extract_lets ready
  cases ready with
  | some e =>
    dsimp only; split
    · split
      · exact same (by simp)
      · exact same (by simp)
    · rfl
  | none =>
    dsimp only; split
    · exact closeEntry_still _ s
    · split
      · split
        · exact same (by simp)
        · rfl
      · rfl

theorem voteUnit_still (s : State) : imgStill (voteUnit s) = imgStill s := by
  have rounds : ∀ (n : Nat) (t : State), imgStill (voteRounds n t) = imgStill t := fun n => by
    induction n with
    | zero => exact fun _ => rfl
    | succ n ih => exact fun t => (ih _).trans (voteRound_still t)
  exact rounds _ s

/-! Work that fails -/

/-- The marks of a restart: it is in progress, and the last one was cold. -/
def restartMarks (s : State) : Bool × Bool := (s.img.restarting, s.img.lastCold)

theorem restartMarks_congr {s t : State} (h : t.img = s.img) : restartMarks t = restartMarks s := by unfold restartMarks; rw [h]

theorem restartMarks_still {s t : State} (h : imgStill t = imgStill s) : restartMarks t = restartMarks s :=
  congrArg (fun x : SMap Byte × Bool × Bool × Bool => (x.2.1, x.2.2.2)) h

theorem putImg_marks (off : Nat) (bs : List Byte) (s : State) : restartMarks (putImg off bs s) = restartMarks s := rfl

theorem putFlags_marks (off set clear : Nat) (s : State) : restartMarks (putFlags off set clear s) = restartMarks s := putImg_marks _ _ s

theorem busError_marks (h : Nat) (s : State) : restartMarks (busError h s) = restartMarks s := by
  have note : ∀ t, restartMarks (noteBus h true t) = restartMarks t := fun _ => rfl
  unfold busError; rw [note, putFlags_marks]

theorem writeInput_marks (i : Nat) (bs : List Byte) (f x a cy : Nat) (s : State) : restartMarks (writeInput i bs f x a cy s) = restartMarks s := by
  have slot : ∀ i v t, restartMarks (putSlot i v t) = restartMarks t := fun _ _ _ => rfl
  unfold writeInput putRec; dsimp only
  rw [slot, putImg_marks, putImg_marks]

theorem schedReadFail_marks (p : Pat) (s : State) : restartMarks (schedReadFail p s) = restartMarks s := by
  unfold schedReadFail; split
  · exact writeInput_marks ..
  · split
    · rfl
    · exact putFlags_marks ..

theorem failOutcome_marks (a : Acc) (code : Nat) (s : State) : restartMarks (failOutcome a code s) = restartMarks s := by
  have same : ∀ {t u : State}, t.img = u.img → restartMarks t = restartMarks u := restartMarks_congr
  have errors : ∀ (p : Pat) (t : State), restartMarks (recError p t) = restartMarks t := fun p t => by
    unfold recError; split
    · rfl
    · exact busError_marks _ t
  have written : ∀ (q : Nat) (p : Pat) (t : State), restartMarks (popPkt q (recError p t)) = restartMarks t := fun q p t =>
    (same (by simp)).trans (errors p t)
  unfold failOutcome; extract_lets p
  split
  case h_1 =>
    have done : ∀ i c t, restartMarks (entryDone i c t) = restartMarks t := fun i c t => same (by simp)
    rw [done]; split
    · exact busError_marks _ s
    · exact schedReadFail_marks p s
  case h_2 =>
    split
    · exact written _ p s
    · exact same (by simp)
  case h_3 =>
    split
    · exact written _ p s
    · (repeat' split) <;> exact same (by simp)
  case h_4 => exact same (by simp)
  case h_5 => exact same (by simp)
  case h_6 => exact same (by simp)
  case h_7 => exact same (by simp)

theorem segFlush_marks (g : Seg) (s : State) : restartMarks (segFlush g s) = restartMarks s := by
  have finish : ∀ (a : Acc) (addr code : Nat) {t u : State}, u.img = t.img → restartMarks (finishFail g a addr code u) = restartMarks t :=
    fun a addr code t u h => (failOutcome_marks _ _ _).trans (restartMarks_congr (by simp [h]))
  have one : ∀ t, restartMarks (failOne g t) = restartMarks t := fun t => by
    unfold failOne; extract_lets u
    have hu : u.img = t.img := by simp [u]
    split
    · exact finish _ _ _ (by simp [hu])
    · exact finish _ _ _ (by simp [hu])
    · exact finish _ _ _ (by simp [hu])
    · split
      · split
        · exact finish _ _ _ hu
        · exact restartMarks_congr hu
      · exact restartMarks_congr hu
  have work : ∀ (n : Nat) (t : State), restartMarks (failWork g n t) = restartMarks t := fun n => by
    induction n with
    | zero => exact fun _ => rfl
    | succ n ih => exact fun t => (ih _).trans (one t)
  have same : ∀ {t u : State}, t.img = u.img → restartMarks t = restartMarks u := restartMarks_congr
  unfold segFlush; split
  · exact same (by simp)
  · extract_lets s1
    have h1 : restartMarks s1 = restartMarks s := same (by simp [s1])
    have dropped : ∀ t, restartMarks (dropBus g t) = restartMarks t := fun t => same (by simp)
    rw [dropped]
    split
    · exact h1
    · exact (work _ s1).trans h1

/-- No pump changes the marks of a restart. -/
theorem pump_marks (s : State) : restartMarks (pump s) = restartMarks s := by
  unfold pump; extract_lets s1 s2
  have h1 : restartMarks s1 = restartMarks s := (restartMarks_congr (by simp [s1])).trans (restartMarks_still (voteUnit_still s))
  have h2 : restartMarks s2 = restartMarks s := (restartMarks_congr (by simp [s2])).trans h1
  rw [segFlush_marks, segFlush_marks]
  exact (restartMarks_congr (by simp)).trans h2

/-! The evaluation of the Loom's run -/

/-- What the end of a restart leaves of the power state: whether the restart runs, and the boot phase. -/
def restartPower (s : State) : Bool × BootPhase := (s.pwr.seqRun, s.pwr.boot)

theorem restartPower_congr {s t : State} (h : t.pwr = s.pwr) : restartPower t = restartPower s := by unfold restartPower; rw [h]

theorem applyWhere_leaves (c : PageKind → Bool) (s : State) :
    restartMarks (applyWhere c s) = restartMarks s ∧ restartPower (applyWhere c s) = restartPower s := by
  have shadow : ∀ (k : PageKind) (off idx : Nat) (w : Word) (t : State), restartPower (applyShadow k off idx w t) = restartPower t := by
    intro k off idx w t
    unfold applyShadow; split
    case h_4 => dsimp only; split <;> rfl
    all_goals exact restartPower_congr (by simp [apply_ite State.pwr])
  have key : ∀ (s : State) (e : Nat × Word), restartPower (applyKey e.1 e.2 s) = restartPower s := fun s e => by
    unfold applyKey; dsimp only; split
    · exact shadow ..
    · rfl
  unfold applyWhere; extract_lets due
  rw [pump_marks, restartPower_congr (pump_keeps _).2]
  exact ⟨restartMarks_congr (by simp), foldl_keeps restartPower _ key due s⟩

theorem group7Apply_leaves (s : State) : restartMarks (group7Apply s) = restartMarks s ∧ restartPower (group7Apply s) = restartPower s := by
  unfold group7Apply; split
  · exact applyWhere_leaves (fun k => k != .arb && pageGroup (putFld .glb 0x064 7 7 0 s) k == 7) (putFld .glb 0x064 7 7 0 s)
  · exact ⟨rfl, rfl⟩

theorem loomHalted_marks (s : State) : restartMarks (loomHalted s) = restartMarks s ∧ restartPower (loomHalted s) = restartPower s := by
  have ungate : ∀ t, restartPower (ungateAll t) = restartPower t := fun _ => rfl
  unfold loomHalted; rw [ungate]
  exact ⟨restartMarks_congr (by simp), restartPower_congr (by simp)⟩

theorem loomStop_leaves (s : State) : restartMarks (loomStop s) = restartMarks s ∧ restartPower (loomStop s) = restartPower s := by
  unfold loomStop; split
  · obtain ⟨h1, h2⟩ := group7Apply_leaves (loomHalted s)
    obtain ⟨h3, h4⟩ := loomHalted_marks s
    exact ⟨h1.trans h3, h2.trans h4⟩
  · exact ⟨rfl, rfl⟩

theorem loomEval_leaves_marks (s : State) : restartMarks (loomEval s) = restartMarks s ∧ restartPower (loomEval s) = restartPower s := by
  unfold loomEval; split
  · exact ⟨restartMarks_congr (by simp), restartPower_congr (by simp)⟩
  · split
    · exact loomStop_leaves s
    · exact ⟨rfl, rfl⟩

end Sys2Proof.Machine
end

section
/-!
SUPPORT. The begin of a restart (R283): the match table is empty, every channel in service starts aligned at APSEQ.K 0, and the Loom has stopped.
-/

namespace Sys2Proof.Machine

open Sys2Proof

/-- An idempotent change made once or more at each channel of a list. -/
theorem foldl_eachCh {g : State → Port → State} {f : Chan → Chan} (hsame : ∀ s c, (g s c).ch[c] = f s.ch[c])
    (hother : ∀ s c (d : Port), d ≠ c → (g s c).ch[d] = s.ch[d]) (hf : ∀ x, f (f x) = f x) (l : List Port) (s : State) (d : Port) :
    (l.foldl g s).ch[d] = if d ∈ l then f s.ch[d] else s.ch[d] := by
  induction l generalizing s with
  | nil => simp
  | cons c l ih =>
    rw [List.foldl_cons, ih]
    by_cases hc : d = c
    · subst hc; rw [hsame, hf, ite_self, if_pos List.mem_cons_self]
    · rw [hother s c d hc]; simp [hc]

/-! The steps -/

/-- The process image at the begin of a restart. -/
def restartShown (cold : Bool) (s : State) : State :=
  let slots := (areaRecs s.lom.act 0).foldl (fun s e => putSlot e.1 (withBits (slotOf s e.1) 3 2 3) s) s
  { slots with
    img := { slots.img with
      ctl := .waiting, restarting := true, restartCold := cold, safeShown := true, frozen := 0, committed := 0,
      frozenRecs := [], heldFreeze := [], wdogRun := 0, runs := [], stgBusy := [], retainReady := false },
    vot := { slots.vot with last := none, attempts := [] } }

/-- The channels' commit writes are forgotten. -/
def copiesForgotten (s : State) : State := allPorts.foldl (fun s c => modCh c (fun x => { x with copyOf := none, cmpOf := none }) s) s

theorem restartBegin_eq (cold : Bool) (s : State) :
    restartBegin cold s = settleChannels (loomStop (copiesForgotten (restartMatch (restartShown cold s)))) := rfl

/-- The image of a restart that begins, over the bytes of `s`. -/
def RestartImg (cold : Bool) (s t : State) : Prop :=
  t.img.restarting = true ∧ t.img.restartCold = cold ∧ t.img.ctl = .waiting ∧ t.img.frozen = 0 ∧ t.img.committed = 0 ∧
    t.img.heldFreeze = [] ∧ t.img.mem = s.img.mem

theorem RestartImg.congr {cold : Bool} {s t u : State} (h : RestartImg cold s t) (hi : u.img = t.img) : RestartImg cold s u := by
  unfold RestartImg; rw [hi]; exact h

theorem restartShown_img (cold : Bool) (s : State) : RestartImg cold s (restartShown cold s) := by
  let f (s : State) (e : Nat × InitRec) : State := putSlot e.1 (withBits (slotOf s e.1) 3 2 3) s
  have hmem : ((areaRecs s.lom.act 0).foldl f s).img.mem = s.img.mem := foldl_keeps (·.img.mem) f (fun _ _ => rfl) _ s
  unfold restartShown; dsimp only
  generalize (areaRecs s.lom.act 0).foldl _ s = t at hmem ⊢
  exact ⟨rfl, rfl, rfl, rfl, rfl, rfl, hmem⟩

/-- The rest of the device at the begin of a restart. -/
theorem restartShown_leaves (cold : Bool) (s : State) :
    Same4 State.lom State.lcc State.rng State.regs s (restartShown cold s) ∧ Same2 State.ch State.pwr s (restartShown cold s) ∧
      (restartShown cold s).vot = { s.vot with last := none, attempts := [] } := by
  have hvot : ((areaRecs s.lom.act 0).foldl (fun s e => putSlot e.1 (withBits (slotOf s e.1) 3 2 3) s) s).vot = s.vot := by simp
  refine ⟨by simp [restartShown], by simp [restartShown], ?_⟩
  unfold restartShown; dsimp only; rw [hvot]

/-- A channel in service starts aligned at APSEQ.K 0 (R154). -/
def aligned0 (x : Chan) : Chan := if x.st.inService then { x with k := 0, aligned := true } else x

theorem aligned0_st (x : Chan) : (aligned0 x).st = x.st := by unfold aligned0; split <;> rfl

/-- The match table is emptied where no entry is open and no copy waits. -/
theorem restartMatch_empties {s : State} (ho : s.vot.openE = []) (hw : s.vot.waiting = []) :
    (restartMatch s).vot = { s.vot with openE := [], closedE := [], waiting := [], kEvict := none } ∧
      ∀ d : Port, (restartMatch s).ch[d] = aligned0 s.ch[d] := by
  let held (t : State) (e : MEntry) : State := dropHeld e.k e.pat t
  let serve (t : State) (c : Port) : State := if t.ch[c].st.inService then modCh c (fun x => { x with k := 0, aligned := true }) t else t
  let emptied (t : State) : State := { t with vot := { t.vot with openE := [], closedE := [], waiting := [], kEvict := none } }
  have heq : restartMatch s = allPorts.foldl serve (emptied (s.vot.closedE.foldl held s)) := by
    unfold restartMatch; rw [ho, hw]; rfl
  have hdropped : (s.vot.closedE.foldl held s).vot = s.vot ∧ (s.vot.closedE.foldl held s).ch = s.ch :=
    ⟨foldl_keeps State.vot held (fun _ _ => by simp [held]) _ s, foldl_keeps State.ch held (fun _ _ => by simp [held]) _ s⟩
  rw [heq]
  generalize s.vot.closedE.foldl held s = t at hdropped
  obtain ⟨hvot, hch⟩ := hdropped
  refine ⟨?_, fun d => ?_⟩
  · have hserve : (allPorts.foldl serve (emptied t)).vot = (emptied t).vot :=
      foldl_keeps State.vot serve (fun t c => by simp only [serve]; split <;> rfl) _ _
    rw [hserve]; dsimp only [emptied]; rw [hvot]
  · have hsame : ∀ (t : State) (c : Port), (serve t c).ch[c] = aligned0 t.ch[c] := fun t c => by
      simp only [serve, aligned0]; split
      · exact modCh_self _ _ _
      · rfl
    have hother : ∀ (t : State) (c d : Port), d ≠ c → (serve t c).ch[d] = t.ch[d] := fun t c d e => by
      simp only [serve]; split
      · exact modCh_other _ _ _ _ e
      · rfl
    have hidem : ∀ x, aligned0 (aligned0 x) = aligned0 x := fun x => by unfold aligned0; split <;> simp_all
    rw [foldl_eachCh hsame hother hidem, if_pos (mem_allPorts d)]
    show aligned0 t.ch[d] = _
    rw [hch]

theorem copiesForgotten_ch (s : State) (d : Port) : (copiesForgotten s).ch[d] = { s.ch[d] with copyOf := none, cmpOf := none } := by
  unfold copiesForgotten
  rw [foldl_eachCh (f := fun x => { x with copyOf := none, cmpOf := none }) (fun s c => modCh_self _ _ _)
    (fun s c d e => modCh_other _ _ _ _ e) (fun _ => rfl), if_pos (mem_allPorts d)]

/-- The Loom stops (R265): nothing but its run, the segments and the clocks' gates changes while no group 7 is pending. -/
theorem loomStop_stops {s : State} (h7 : getFld s .glb 0x064 7 7 = 0) : (loomStop s).lom.run = false ∧
    Same4 State.img State.vot State.ch State.lcc s (loomStop s) ∧ (loomStop s).rng = s.rng ∧ (loomStop s).pwr.boot = s.pwr.boot := by
  by_cases hr : s.lom.run = true
  · obtain ⟨hrng, hboot, -⟩ := loomHalted_leaves s
    rw [loomStop_halts h7 hr]
    refine ⟨?_, by simp [loomHalted], hrng, hboot⟩
    have hlom : (loomHalted s).lom = { s.lom with run := false } := by simp [loomHalted]
    rw [hlom]
  · have h : loomStop s = s := by unfold loomStop; exact if_neg hr
    rw [h]
    exact ⟨by simpa using hr, ⟨rfl, rfl, rfl, rfl⟩, rfl, rfl⟩

theorem Steady.same {s t : State} (h : Steady s) (hst : ∀ d : Port, t.ch[d].st = s.ch[d].st) (hm : t.vot.mode = s.vot.mode) : Steady t := by
  have hact : activeChs t = activeChs s := List.filter_congr fun d _ => by rw [hst d]
  unfold Steady; rw [hact, hm]; exact h

/-- A restart that has begun, before the channels settle. -/
structure RestartReady (cold : Bool) (s t : State) : Prop where
  img : RestartImg cold s t
  vot : t.vot = { s.vot with last := none, attempts := [], openE := [], closedE := [], waiting := [], kEvict := none }
  run : t.lom.run = false
  st : ∀ d : Port, t.ch[d].st = s.ch[d].st
  served : ∀ d : Port, s.ch[d].st.inService = true → t.ch[d].k = 0 ∧ t.ch[d].aligned = true
  rest : Same2 State.lcc State.rng s t

theorem restart_ready (cold : Bool) {s : State} (ho : s.vot.openE = []) (hw : s.vot.waiting = []) (h7 : getFld s .glb 0x064 7 7 = 0) :
    RestartReady cold s (loomStop (copiesForgotten (restartMatch (restartShown cold s)))) := by
  obtain ⟨⟨-, hlcc, hrng, hregs⟩, ⟨hch, -⟩, hvot⟩ := restartShown_leaves cold s
  have himg := restartShown_img cold s
  generalize restartShown cold s = a at *
  obtain ⟨hvot1, hch1⟩ := restartMatch_empties (s := a) (by rw [hvot]; exact ho) (by rw [hvot]; exact hw)
  have h1 : Same4 State.img State.lcc State.rng State.regs a (restartMatch a) := by simp
  generalize restartMatch a = b at *
  have hch2 := copiesForgotten_ch b
  have h2 : Same4 State.img State.lcc State.rng State.regs b (copiesForgotten b) ∧ Same1 State.vot b (copiesForgotten b) := by simp [copiesForgotten]
  generalize copiesForgotten b = c at *
  obtain ⟨himg1, hlcc1, hrng1, hregs1⟩ := h1
  obtain ⟨⟨himg2, hlcc2, hrng2, hregs2⟩, hvot2⟩ := h2
  obtain ⟨hrun, ⟨himg3, hvot3, hch3, hlcc3⟩, hrng3, -⟩ := loomStop_stops (s := c)
    ((getFld_congr (hregs2.trans (hregs1.trans hregs)) _ _ _ _).trans h7)
  generalize loomStop c = t at *
  have hd : ∀ d : Port, t.ch[d] = { aligned0 s.ch[d] with copyOf := none, cmpOf := none } := fun d => by
    rw [hch3, hch2, hch1, hch]
  refine ⟨himg.congr (himg3.trans (himg2.trans himg1)), ?_, hrun, fun d => ?_, fun d hs => ?_, hlcc3.trans (hlcc2.trans (hlcc1.trans hlcc)),
    hrng3.trans (hrng2.trans (hrng1.trans hrng))⟩
  · rw [hvot3, show c.vot = b.vot from hvot2, hvot1, hvot]
  · rw [hd]; exact aligned0_st _
  · rw [hd]; unfold aligned0; rw [if_pos hs]; exact ⟨rfl, rfl⟩

/-- What the statement says of a restart that has begun. -/
theorem RestartReady.settled {cold : Bool} {s t : State} (h : RestartReady cold s t) (hs : Steady s) :
    RestartImg cold s (settleChannels t) ∧
      ((settleChannels t).vot.openE = [] ∧ (settleChannels t).vot.closedE = [] ∧ (settleChannels t).vot.last = none) ∧
      (settleChannels t).lom.run = false ∧
      (∀ d : Port, s.ch[d].st.inService = true → (settleChannels t).ch[d].k = 0 ∧ (settleChannels t).ch[d].aligned = true) ∧
      Same2 State.lcc State.rng s (settleChannels t) := by
  obtain ⟨himg, vot, run, st, served, lcc, rng⟩ := h
  have hsteady : Steady t := hs.same st (by rw [vot])
  have hsettles := settleChannels_settles t
  have hcore := fun d => settleChannels_core d t
  have hrest : Same3 State.lom State.lcc State.rng t (settleChannels t) := by simp
  generalize settleChannels t = u at *
  have hheld : t.img.heldFreeze = [] := by obtain ⟨-, -, -, -, -, hheld, -⟩ := himg; exact hheld
  obtain ⟨⟨-, hlast, -, hopen⟩, hclosed, -⟩ := hsettles.votes
  obtain ⟨hlom, hlcc, hrng⟩ := hrest
  refine ⟨RestartImg.congr himg (hsteady.img hheld hsettles), ⟨?_, ?_, ?_⟩, ?_, fun d hd => ?_, hlcc.trans lcc, hrng.trans rng⟩
  · exact hopen.trans (by simp [vot])
  · exact hclosed.trans (by simp [vot])
  · exact hlast.trans (by simp [vot])
  · rw [hlom]; exact run
  · obtain ⟨hk, hal⟩ := served d hd
    have hc := hcore d
    exact ⟨(congrArg Prod.fst hc).trans hk, (congrArg (·.2.2) hc).trans hal⟩

end Sys2Proof.Machine
end

section
/-!
SUPPORT. The other commands of a restart (R280, R284): STOP, and the end.
-/

namespace Sys2Proof.Machine

open Sys2Proof

theorem restartCmd_begins {cold : Bool} {s : State} (hres : s.img.restarting = false) (hctl : s.img.ctl ≠ .running) :
    restartCmd cold s = restartBegin cold s := by
  unfold restartCmd; exact if_neg (by simp [hres, hctl])

theorem restartCmd_refused {cold : Bool} {s : State} (h : s.img.restarting = true ∨ s.img.ctl = .running) : restartCmd cold s = raise 74 s := by
  unfold restartCmd; exact if_pos (by simpa using h)

theorem mem_of_still {s t : State} (h : imgStill t = imgStill s) : t.img.mem = s.img.mem := congrArg Prod.fst h

/-- STOP stops the controller with cause 4; the bytes of the process image stay. -/
theorem restartStop_stops {s : State} (hres : s.img.restarting = false) (hctl : s.img.ctl ≠ .stopped) :
    ∃ x, restartStopCmd s = pump x ∧ ChannelWork s x ∧ StoppedBy 4 x ∧ x.img.mem = s.img.mem ∧ ∃ o ∈ x.evh.occ, o.ev = 70 := by
  have hstop : ChannelWork s (stopController 4 s) := ⟨(ChannelsEnd.refl s).stopController 4, by simp, by simp⟩
  obtain ⟨hby, h70⟩ := stopController_stops 4 hctl
  have hmem := stopController_still 4 s
  have heq : restartStopCmd s = pump (retryFreezes (settleChannels (stopController 4 s))) := by
    unfold restartStopCmd; rw [if_neg (by simp [hres]), if_neg (by simpa using hctl)]
  generalize stopController 4 s = a at *
  have hsettles : Settles a (retryFreezes (settleChannels a)) := (settleChannels_settles a).trans (retryFreezes_settles _)
  have hwork : ChannelWork a (retryFreezes (settleChannels a)) := ⟨(ChannelsEnd.refl a).settleChannels.retryFreezes, by simp, by simp⟩
  exact ⟨_, heq, hstop.trans hwork, hby.settles hsettles, mem_of_still (hsettles.still.trans hmem), Grows.has hwork.ends.occ h70⟩

/-! The end of a restart -/

theorem writeMark_power (active target cycle : Nat) (s : State) : restartPower (writeMark active target cycle s) = restartPower s := by
  have woken : restartPower (wakeAlm s) = restartPower s := rfl
  unfold writeMark; extract_lets s1
  split
  · exact woken
  · exact (restartPower_congr (by simp [s1, putMark])).trans woken

theorem loadActive_power (s : State) : restartPower (loadActive s) = restartPower s := by
  unfold loadActive; dsimp only; (repeat' split)
  · exact restartPower_congr (by simp)
  · exact restartPower_congr (by simp)
  · exact (writeMark_power ..).trans (restartPower_congr (by simp))

theorem loadTarget_power (s : State) : restartPower (loadTarget s) = restartPower s := by
  have marked : ∀ (a b c : Nat) (u : State), u.pwr = s.pwr → restartPower (writeMark a b c u) = restartPower s := fun a b c u hu =>
    (writeMark_power a b c u).trans (restartPower_congr hu)
  have event : ∀ ev a b t, restartPower (raiseD ev a b t) = restartPower t := fun _ _ _ _ => rfl
  have hread : (readSlot (markTarget s) s).pwr = s.pwr := by simp
  unfold loadTarget; dsimp only; split
  · rfl
  · generalize loadChecked s (markTarget s) _ = bw
    split
    · exact marked _ _ _ _ (by simp)
    · split
      · rw [event]; exact marked _ _ _ _ hread
      · exact restartPower_congr hread

/-- The image and the Weave that the end of a restart builds (R283). -/
def restartBuilt (s : State) : State :=
  let s1 := loadTarget (loadActive s)
  if activePresent s1 then restartRetain (restartImage s1) else
    (activeForces s1).foldl (fun s i => releaseForce i false s) { s1 with img := { s1.img with build := [], slot := [] } }

theorem restartBuilt_power (s : State) : restartPower (restartBuilt s) = restartPower s := by
  unfold restartBuilt; extract_lets s1
  have h1 : restartPower s1 = restartPower s := (loadTarget_power _).trans (loadActive_power s)
  refine Eq.trans (restartPower_congr ?_) h1
  split <;> simp

/-- The marks of the restart are cleared. -/
def restartCleared (s : State) : State :=
  let s2 := restartBuilt s
  { s2 with
    pwr := { s2.pwr with seqRun := false },
    img := { s2.img with restarting := false, lastCold := s.img.restartCold, retainReady := activePresent s2, relayMiss := [] },
    rng := { s2.rng with rxMiss := [] } }

theorem restartCleared_marks (s : State) : restartMarks (restartCleared s) = (false, s.img.restartCold) ∧
    restartPower (restartCleared s) = (false, s.pwr.boot) := by
  have hpower := restartBuilt_power s
  unfold restartCleared; generalize restartBuilt s = t at hpower
  exact ⟨rfl, congrArg (Prod.mk false) (congrArg Prod.snd hpower)⟩

theorem restartDone_clears {s : State} (hres : s.img.restarting = true) (hsched : schedBusy s = false) (halm : almFree s = true)
    (hb : s.pwr.boot = .opened) (hscan : s.evh.scanning = false) : restartDone s = raise 72 (loomEval (pump (restartCleared s))) := by
  unfold restartDone
  exact if_neg (by simp [hres, hsched, halm, hb, hscan])

end Sys2Proof.Machine

open Sys2Proof Sys2Proof.Machine

/-- Settles O32: a restart keeps the channels' states and the mode, so the settlement that follows does not stop the controller; no pump and no
evaluation of the Loom touches the marks that the end of a restart clears. -/
theorem restarts : Obligations.Restarts := by
  unfold Obligations.Restarts
  intro s hd hq hb hmode
  refine ⟨fun c cold hc => ⟨fun hres hctl h7 => ?_, fun hno => ?_⟩, fun hres hctl => ?_, fun hres hsched halm hscan => ?_⟩
  · have hx : exec c s = .next (settle (restartBegin cold (cleared s))) := by
      have hcmd := (opened_eq (f := restartCmd cold) hb).trans (restartCmd_begins (s := cleared s) hres hctl)
      rcases hc with ⟨rfl, rfl⟩ | ⟨rfl, rfl⟩
      · exact exec_run _ rfl hcmd
      · exact exec_run _ rfl hcmd
    obtain ⟨ho, hw, -⟩ := hq
    obtain ⟨⟨hr, hcold, hctl', hfrozen, hcom, -, hmem⟩, hvot, hrun, hserved, hlcc, hrng⟩ :=
      (restart_ready cold (s := cleared s) ho hw h7).settled (steady_of_count (s := cleared s) hmode)
    rw [restartBegin_eq] at hx
    generalize settleChannels (loomStop (copiesForgotten (restartMatch (restartShown cold (cleared s))))) = x at *
    have hkeeps : Same4 State.img State.lom State.lcc State.rng x (settle x) ∧ Same2 State.vot State.ch x (settle x) := by simp
    refine completes_settle hx ?_
    obtain ⟨⟨himg, hlom, hlcc', hrng'⟩, hvot', hch⟩ := hkeeps
    rw [himg, hlom, hlcc', hrng', hvot', hch]
    obtain ⟨hopen, hclosed, hlast⟩ := hvot
    exact ⟨hr, hcold, hctl', hfrozen, hcom, hopen, hclosed, hlast, hrun, hserved, hmem, hlcc, by rw [hrng]; rfl⟩
  · have hcmd := (opened_eq (f := restartCmd cold) hb).trans (restartCmd_refused (s := cleared s) hno)
    have hx : exec c s = .next (settle (raise 74 (cleared s))) := by
      rcases hc with ⟨rfl, rfl⟩ | ⟨rfl, rfl⟩
      · exact exec_run _ rfl hcmd
      · exact exec_run _ rfl hcmd
    exact completes_settle hx (refused_shown rfl hb)
  · obtain ⟨x, hcmd, hw, ⟨hstop, hcause, hsafe⟩, hmem, h70⟩ := restartStop_stops (s := cleared s) hres hctl
    have hx := exec_channelWork (c := .restartStop) rfl ((opened_eq hb).trans hcmd) hw hq
    refine completes_settle hx ⟨?_, ?_, ?_, event_seen rfl (hw.boot hb) h70, ?_⟩
    · rw [(settle_image _).1]; exact hstop
    · rw [(settle_image _).1]; exact hcause
    · rw [(settle_image _).1]; exact hsafe
    · rw [(settle_image _).1]; exact hmem
  · have hcmd := restartDone_clears (s := cleared s) hres hsched halm hb hscan
    obtain ⟨hmarks, hpower⟩ := restartCleared_marks (cleared s)
    generalize restartCleared (cleared s) = y at hcmd hmarks hpower
    have hx := exec_run (c := .restartDone) _ rfl hcmd
    obtain ⟨hmarks', hpower'⟩ := loomEval_leaves_marks (pump y)
    rw [pump_marks, hmarks] at hmarks'
    rw [restartPower_congr (pump_keeps y).2, hpower] at hpower'
    generalize loomEval (pump y) = z at hx hmarks' hpower'
    obtain ⟨a, l, b, hwake⟩ := settle_wake (raise 72 z)
    refine completes_settle hx ⟨?_, ?_, ?_, event_seen rfl ?_ (raise_mem 72 z)⟩
    · rw [(settle_image _).1]; exact congrArg Prod.fst hmarks'
    · rw [(settle_image _).1]; exact congrArg Prod.snd hmarks'
    · rw [hwake]; exact congrArg Prod.fst hpower'
    · rw [show (raise 72 z).pwr.boot = .opened from (congrArg Prod.snd hpower').trans hb]; decide
end

section
/-!
SUPPORT. A copy comes to the match table (R131 to R134): what a BAR4 access that is accepted leaves before the vote unit looks at it, and the
rounds of the vote unit over one open entry.
-/

namespace Sys2Proof.Machine

open Sys2Proof

/-! The state between acceptance and the end of the pump -/

/-- From `s` to `t` a copy has been taken and voted on: channels, ports, the match table, the event hub and the Creel differ, where the lists
of the segments have grown at most. -/
structure Presented (s t : State) : Prop where
  frame : t = { s with crl := t.crl, evh := t.evh, vot := t.vot, ch := t.ch, port := t.port }
  ptrs : PtrsGood s → PtrsGood t
  grows : PtrsGood s → ∀ j, 5 ≤ j → listPkts s j <+: listPkts t j
  ring : PtrsGood s → listPkts t 23 = listPkts s 23
  resets : (∀ j, resetNow s.crl j = false) → ∀ j, resetNow t.crl j = false

namespace Presented

variable {s t u : State}

theorem of_crl (hf : t = { s with crl := t.crl, evh := t.evh, vot := t.vot, ch := t.ch, port := t.port }) (hc : t.crl = s.crl) : Presented s t := by
  have hl : ∀ j, listPkts t j = listPkts s j := fun j => by unfold listPkts; rw [hc]
  refine ⟨hf, fun hp => ?_, fun _ j _ => ?_, fun _ => hl 23, fun hr => ?_⟩
  · unfold PtrsGood; rw [hc]; exact hp
  · rw [hl]
  · rw [hc]; exact hr

theorem trans (h1 : Presented s t) (h2 : Presented t u) : Presented s u where
  frame := by rw [h2.frame, h1.frame]
  ptrs hp := h2.ptrs (h1.ptrs hp)
  grows hp j hj := (h1.grows hp j hj).trans (h2.grows (h1.ptrs hp) j hj)
  ring hp := (h2.ring (h1.ptrs hp)).trans (h1.ring hp)
  resets hr := h2.resets (h1.resets hr)

/-- Only a channel's list changes. -/
theorem of_hub (hh : HubOnly s t) {q : Nat} (hq : q < 5) (hl : OtherLists q s t) (hr : ∀ j, resetNow t.crl j = resetNow s.crl j) : Presented s t where
  frame := by unfold HubOnly at hh; rw [hh]
  ptrs hp := (hl hp).1
  grows hp j hj := by rw [(hl hp).2 j (by omega)]
  ring hp := (hl hp).2 23 (by omega)
  resets h j := (hr j).trans (h j)

/-- What the pump and the answer read. -/
theorem rest (h : Presented s t) : Same4 State.seg State.mnt State.rng State.pwr s t ∧ Same4 State.lom State.img State.lcc State.regs s t ∧
    Same1 State.tap s t := by
  have hf := h.frame
  refine ⟨⟨?_, ?_, ?_, ?_⟩, ⟨?_, ?_, ?_, ?_⟩, ?_⟩ <;> rw [hf]

end Presented

/-- What a pump after the vote unit finds idle: no mailbox, no remote packets, and segments that master their buses. -/
structure PumpQuiet (s : State) : Prop where
  ptrs : PtrsGood s
  leg : s.mnt.leg = none
  ring : listPkts s 23 = []
  answers : s.rng.answers = []
  master : ∀ g : Seg, masterOk s g = true
  bus : ∀ g : Seg, BusSettled s g

/-- A segment whose lists grow keeps its bus. -/
theorem busSettled_grown {s t : State} {g : Seg} (hseg : t.seg[g] = s.seg[g]) (hpwr : t.pwr = s.pwr) (hregs : t.regs = s.regs)
    (hl : ∀ j, 5 ≤ j → listPkts s j <+: listPkts t j) (h : BusSettled s g) : BusSettled t g := by
  obtain ⟨hown, hctl⟩ := h
  have hsys : sysconAct t g = sysconAct s g := by unfold sysconAct; rw [segCfg_congr (getReg_congr hregs _ _), hpwr]
  have hne : ∀ j, 5 ≤ j → listPkts s j ≠ [] → listPkts t j ≠ [] := fun j hj hne h0 => hne (List.prefix_nil.1 (h0 ▸ hl j hj))
  refine ⟨fun ho => ?_, by rw [hsys, hseg]; exact hctl⟩
  have hw : hasWork s g = true := hown (by rw [← hseg]; exact ho)
  unfold hasWork at *
  simp only [hseg, Bool.or_eq_true, Bool.not_eq_true', List.isEmpty_eq_false_iff] at hw ⊢
  exact hw.imp (Or.imp (Or.imp_right (hne _ (by unfold vapQ; omega))) (hne _ (by unfold remQ; omega))) (hne _ (by unfold fwdQ; omega))

theorem PumpQuiet.presented {s t : State} (hs : PumpQuiet s) (h : Presented s t) : PumpQuiet t := by
  obtain ⟨⟨hseg, hmnt, hrng, hpwr⟩, ⟨-, -, -, hregs⟩, -⟩ := h.rest
  refine ⟨h.ptrs hs.ptrs, by rw [hmnt]; exact hs.leg, (h.ring hs.ptrs).trans hs.ring, by rw [hrng]; exact hs.answers, fun g => ?_, fun g => ?_⟩
  · refine Eq.trans ?_ (hs.master g)
    unfold masterOk segAvail
    simp only [segCfg_congr (getReg_congr hregs _ _), hseg, hpwr]
  · exact busSettled_grown (by rw [hseg]) hpwr hregs (h.grows hs.ptrs) (hs.bus g)

/-- A pump that finds the rest idle ends where the vote unit does. -/
theorem PumpQuiet.pump {s t : State} (ht : PumpQuiet t) (hv : voteUnit s = t) : pump s = t := by
  have hm : mailPump t = t := by unfold mailPump; rw [ht.leg]
  exact pump_settled (by rw [hv, hm]) ht.ring ht.answers fun g => ⟨.inl (ht.master g), ht.bus g⟩

/-! Rounds of the vote unit -/

/-- No open entry may be issued, started or closed, and no copy waits: a round does nothing. -/
theorem voteRound_idle {s : State} (hready : ∀ e ∈ s.vot.openE, e.phase = .waiting → entryChoice s e = none)
    (hclose : ∀ e ∈ s.vot.openE, mustClose s e = false) (hw : s.vot.waiting = []) : voteRound s = s := by
  have hnone : s.vot.openE.find? (mustClose s) = none := List.find?_eq_none.2 fun e he => by rw [hclose e he]; decide
  have hfind : s.vot.openE.find? (fun e => e.phase == .waiting &&
      (match entryChoice s e with
        | some (c, chs) => !heldBack s e chs && !resetNow s.crl (targetList e) && (!e.isRead || canStart s { e with copies := [c] })
        | none => false)) = none := by
    refine List.find?_eq_none.2 fun e he => ?_
    cases hp : e.phase == .waiting with
    | false => simp
    | true => rw [hready e he (beq_iff_eq.1 hp)]; simp
  unfold voteRound; dsimp only
  rw [hnone, hw]
  split
  · rename_i e he; exact absurd (hfind.symm.trans he) (by simp)
  · rfl

theorem voteRounds_idle {s : State} (h : voteRound s = s) (n : Nat) : voteRounds n s = s := by
  induction n with
  | zero => rfl
  | succ n ih => unfold voteRounds; rw [h, ih]

/-- One copy alone does not meet a condition that asks for two (R134, R138). -/
theorem entryChoice_single {s : State} {e : MEntry} {c : MCopy} (hc : e.copies = [c]) (hm : s.vot.mode ≠ .m1oo1)
    (hr : e.isRead = true → (patOf e.patE).idem = false ∧ (patOf e.patE).kind ≠ .rmw) : entryChoice s e = none := by
  have hlen : ∀ x, ((votingCopies s e).filter (copyEq x)).length ≤ 1 := fun x =>
    (List.length_filter_le _ _).trans ((List.length_filter_le _ _).trans (by rw [hc]; rfl))
  have hpair : ((votingCopies s e).find? fun x => decide (2 ≤ ((votingCopies s e).filter (copyEq x)).length)) = none :=
    List.find?_eq_none.2 fun x _ => by have := hlen x; simp; omega
  unfold entryChoice; dsimp only
  rw [hpair, beq_false_of_ne hm]
  cases hread : e.isRead with
  | true =>
    obtain ⟨hi, hk⟩ := hr hread
    rw [hi, beq_false_of_ne hk]; rfl
  | false => simp

/-- An entry without a copy of every ACTIVE, aligned channel is not closed before its time. -/
theorem mustClose_absent {s : State} {e : MEntry} {d : Port} (hd : s.ch[d].st = .active) (ha : s.ch[d].aligned = true)
    (hc : ∀ x ∈ e.copies, x.ch ≠ d) : mustClose s e = false := by
  have hall : allPresented s e = false := by
    unfold allPresented activeAligned
    refine List.all_eq_false.2 ⟨d, List.mem_filter.2 ⟨mem_allPorts d, by simp only [hd, ha]; rfl⟩, ?_⟩
    simpa using fun x hx => hc x hx
  unfold mustClose; rw [hall]; rfl

end Sys2Proof.Machine
end

section
/-!
SUPPORT. A BAR4 access whose copy is taken (R131, R203): what its turn leaves, and how its command completes.
-/

namespace Sys2Proof.Machine

open Sys2Proof

section
variable {p : Port} {s : State} {pat off n tag : Nat} {bs : List Byte} {en : List Bool}

/-! The turn of an access -/

/-- Without cells a write stays in the receive buffer (R203). -/
theorem takeWrite_waits (h : Bar4Ready p s) (hcl : s.tap.ecc = []) (hr : bar4Refused s pat off bs.length true = false)
    (ha : s.ch[p].aligned = true) (hp : PtrsGood s) (hc : claimOk s.crl p.val (cellsFor bs.length) = false) :
    takeWrite p pat off bs en false s = none := by
  unfold takeWrite
  simp only [h.on, h.service, h.run, fetchMeet_clean hcl, hr, ha, claim_refused hp hc, Bool.not_true, bne_self_eq_false, Bool.false_eq_true, if_false]

/-- With cells its copy comes to the match table. -/
theorem takeWrite_presents (h : Bar4Ready p s) (hcl : s.tap.ecc = []) (hr : bar4Refused s pat off bs.length true = false)
    (ha : s.ch[p].aligned = true) (hp : PtrsGood s) (hc : claimOk s.crl p.val (cellsFor bs.length) = true) :
    ∃ cells u, takeWrite p pat off bs en false s =
        some (pump (presentCopy (copyOfOp u p pat off bs.length bs en false false 0 cells) (takeKey p u))) ∧
      Presented s u ∧ HubOnly s u := by
  obtain ⟨cells, s1, hclaim, hub, hpu, hl, hres⟩ := claim_filled hp hc bs
  let u : State := { s1 with crl := { s1.crl with cell := fillCells cells bs s1.crl.cell } }
  let y := holdPkt s1 p pat off bs en false cells
  have hlink : HubOnly u (linkPkt p.val y u) := by unfold HubOnly; rw [linkPkt_joins y (hpu p.val)]
  have hjoin : ∀ j, resetNow (linkPkt p.val y u).crl j = resetNow u.crl j := fun j => by rw [linkPkt_joins y (hpu p.val)]; rfl
  have hlists : OtherLists p.val s (linkPkt p.val y u) := OtherLists.linkPkt (fun _ => ⟨hpu, fun j _ => hl j⟩) y
  have hall : HubOnly s (linkPkt p.val y u) := HubOnly.trans hub hlink
  refine ⟨cells, linkPkt p.val y u, ?_, .of_hub hall (by omega) hlists fun j => (hjoin j).trans (hres j), hall⟩
  unfold takeWrite
  simp only [h.on, h.service, h.run, fetchMeet_clean hcl, hr, ha, hclaim, Bool.not_true, bne_self_eq_false, Bool.false_eq_true, if_false]
  rfl

/-- A read's copy comes to the match table. -/
theorem takeRead_presents (h : Bar4Ready p s) (hcl : s.tap.ecc = []) (hr : bar4Refused s pat off n false = false) (ha : s.ch[p].aligned = true) :
    takeRead p pat off n en tag s = pump (presentCopy (copyOfOp s p pat off n [] en false true tag []) (takeKey p s)) := by
  unfold takeRead
  simp only [h.on, h.service, h.run, fetchMeet_clean hcl, hr, ha, Bool.not_true, bne_self_eq_false, Bool.false_eq_true, if_false]

/-! The copy -/

/-- Without a word in error the vote unit reads a copy as it is. -/
theorem readCopy_clean (h : s.tap.ecc = []) (c : MCopy) : readCopy c s = (c, s) := by
  have hbad : ∀ ws, wordsBad s ws = false := fun ws => by unfold wordsBad uncorrIn; rw [h]; simp
  have hmeet : ∀ ws, meetWords ws s = s := fun ws => by
    have hread : ∀ w, readEcc 6 w (w + 1) s = s := fun w => by unfold readEcc; rw [h]; rfl
    unfold meetWords
    induction ws with
    | nil => rfl
    | cons w ws ih => rw [List.foldl_cons, hread, ih]
  unfold readCopy; dsimp only; split
  · rw [hbad, hmeet]; rfl
  · rfl

/-- The entry that a first copy opens. -/
def firstEntry (c : MCopy) (s : State) : MEntry :=
  ⟨c.k, c.pat, patEntry s.lom.act c.pat, localPat s (patEntry s.lom.act c.pat), c.isRead, [c], .waiting, none, none, []⟩

/-- The match table holds these open entries. -/
def withOpen (l : List MEntry) (s : State) : State := { s with vot := { s.vot with openE := l } }

/-- The first copy of a key opens an entry (R132). -/
theorem presentCopy_opens {c : MCopy} (h : s.tap.ecc = []) (ho : s.vot.openE = []) (hc : s.vot.closedE = []) (hk : s.vot.kEvict = none) :
    presentCopy c s = withOpen [firstEntry c s] s := by
  have hfind : findOpen s c.k c.pat = none := by unfold findOpen; rw [ho]; rfl
  unfold presentCopy; rw [readCopy_clean h]; dsimp only
  rw [hfind, hc]; dsimp only [List.find?_nil]
  rw [hk]; dsimp only
  unfold openEntry; rw [ho, if_pos (by decide)]; rfl

/-- A further copy of a write's key joins its entry. -/
theorem presentCopy_joins {c : MCopy} {e : MEntry} (h : s.tap.ecc = []) (ho : s.vot.openE = [e]) (hk : e.k = c.k) (hpat : e.pat = c.pat)
    (hr : e.isRead = false) : presentCopy c s = withOpen [{ e with copies := e.copies ++ [c] }] s := by
  have hfind : findOpen s c.k c.pat = some e := by unfold findOpen; rw [ho]; simp [hk, hpat]
  unfold presentCopy; rw [readCopy_clean h]; dsimp only
  rw [hfind]; dsimp only; rw [hr]
  unfold putEntry withOpen; simp [ho]

end

/-! How the commands complete -/

/-- The delivery of events leaves a port's receive buffer. -/
theorem settle_rx (x : State) (p : Port) : (settle x).port[p].rx = x.port[p].rx := by
  rw [(portsBut_iff x (settle x)).1 (settle_sends x).1 p]

/-- What a taken write finds: its port's receive buffer is empty. -/
structure RxEmpty (p : Port) (s u : State) : Prop where
  frame : u = { s with port := u.port }
  cfg : u.port[p].cfg = s.port[p].cfg
  rx : u.port[p].rx = []

/-- A posted write within its limits that is not granted its cells waits alone (R95, R203). -/
theorem recvPosted_waits {p : Port} {a n : Nat} {h : Hdr} {x : RxTlp} {s : State} (ho : portOpen s p = true) (hroom : postedRoom s p n = true)
    (hcut : crosses a n = false) (hm : n ≤ mps s p) (hrx : s.port[p].rx = []) (ht : takeRx p x (receipt p s) = none) :
    recvPosted p a n h x s = modPort p (fun q => { q with rx := [x] }) (receipt p s) := by
  have hempty : (receipt p s).port[p].rx = [] := by unfold receipt; rw [modPort_same, hrx]
  have hlen : decide (mps s p < n) = false := decide_eq_false (Nat.not_lt.2 hm)
  unfold recvPosted arrive
  simp only [ho, hroom, hcut, hlen, hempty, ht, Bool.not_true, Bool.or_self, Bool.false_eq_true, if_false, List.isEmpty_nil, if_true]

/-- One request that waits: it is taken, or stays. -/
theorem claimGrant_single {p : Port} {x : RxTlp} {s : State} (hrx : s.port[p].rx = [x]) :
    claimGrant p s = (takeRx p x (modPort p (fun q => { q with rx := [] }) s)).getD s := by
  have hone : drainRx p 1 s = (takeRx p x (modPort p (fun q => { q with rx := [] }) s)).getD s := by
    simp only [drainRx, hrx]
    cases takeRx p x (modPort p (fun q => { q with rx := [] }) s) <;> rfl
  unfold claimGrant; rw [hrx]; exact hone

/-- The ways in which a BAR4 write takes its turn: it arrives, or it waits at the head of the receive buffer. -/
abbrev WriteTurn (p : Port) (pat : BitVec 16) (off : BitVec 12) (data : List Byte) (be : List Bool) (c : Instr) (s : State) : Prop :=
  (c = .bar4Write p pat off data be false false ∧ s.port[p].rx = [] ∧ postedRoom s p data.length = true ∧
      crosses off.toNat data.length = false ∧ data.length ≤ mps s p) ∨
    (c = .bar4TlpClaimGrant p ∧ s.port[p].rx = [.write pat.toNat off.toNat data be false])

/-- A BAR4 write that arrives, or one that waits and is granted its cells, is taken at once or waits at the head of the receive buffer. -/
theorem bar4_write_turn {p : Port} {pat : BitVec 16} {off : BitVec 12} {data : List Byte} {be : List Bool} {c : Instr} {s : State}
    (ho : portOpen s p = true) (hc : WriteTurn p pat off data be c s) :
    ∃ u, RxEmpty p (cleared s) u ∧
      (∀ y, takeWrite p pat.toNat off.toNat data be false u = some y → exec c s = .next (settle y)) ∧
      (takeWrite p pat.toNat off.toNat data be false u = none →
        ∃ v, exec c s = .next (settle v) ∧ v = { cleared s with port := v.port } ∧
          v.port[p].rx = [.write pat.toNat off.toNat data be false]) := by
  rcases hc with ⟨rfl, hrx, hroom, hcut, hm⟩ | ⟨rfl, hrx⟩
  · have hop : ∀ {x}, recvPosted p off.toNat data.length (memHdr true (barBase s p 4 + pat.toNat * 4096 + off.toNat) be 0 false)
        (.write pat.toNat off.toNat data be false) (cleared s) = x → exec (.bar4Write p pat off data be false false) s = .next (settle x) :=
      fun {x} hx => exec_run (bar4WriteOp p pat.toNat off.toNat data be false false) rfl (by
        unfold bar4WriteOp; simp only [Bool.and_false, Bool.false_and, Bool.false_eq_true, if_false]; exact hx)
    refine ⟨receipt p (cleared s), ⟨rfl, by unfold receipt; rw [modPort_same], by unfold receipt; rw [modPort_same]; exact hrx⟩,
      fun y hy => hop (recvPosted_taken (s := cleared s) ho hroom hcut hm hrx hy), fun hn => ?_⟩
    exact ⟨_, hop (recvPosted_waits (s := cleared s) ho hroom hcut hm hrx hn), rfl, by rw [modPort_same]⟩
  · have hgrant := claimGrant_single (s := cleared s) hrx
    refine ⟨modPort p (fun q => { q with rx := [] }) (cleared s), ⟨rfl, by rw [modPort_same], by rw [modPort_same]⟩, fun y hy => ?_, fun hn => ?_⟩
    · exact exec_run (claimGrant p) rfl (hgrant.trans (congrArg (Option.getD · (cleared s)) hy))
    · exact ⟨cleared s, exec_run (claimGrant p) rfl (hgrant.trans (congrArg (Option.getD · (cleared s)) hn)), rfl, hrx⟩

end Sys2Proof.Machine
end

section
/-!
SUPPORT. The second equal copy (R134): the vote unit issues the write once, to the list of its segment; the entry stays until every ACTIVE,
aligned channel has presented its copy, and nobody is charged when it closes.
-/

namespace Sys2Proof.Machine

open Sys2Proof

/-- The two copies of a write are equal, of two channels that vote. -/
structure Agree (s : State) (e : MEntry) (x c : MCopy) : Prop where
  copies : e.copies = [x, c]
  write : e.isRead = false
  writes : x.isRead = false ∧ c.isRead = false
  other : x.ch ≠ c.ch
  first : s.ch[x.ch].st = .active ∧ s.ch[x.ch].aligned = true
  second : s.ch[c.ch].st = .active ∧ s.ch[c.ch].aligned = true
  self : copyEq x x = true
  equal : copyEq x c = true

section
variable {s : State} {e : MEntry} {x c : MCopy}

theorem Agree.congr {t : State} (h : Agree s e x c) (hch : t.ch = s.ch) : Agree t e x c := by
  obtain ⟨h1, h2, h3, h4, h5, h6, h7, h8⟩ := h
  exact ⟨h1, h2, h3, h4, by rw [hch]; exact h5, by rw [hch]; exact h6, h7, h8⟩

/-- The entry once its write has been issued. -/
def issued (e : MEntry) (x : MCopy) : MEntry := { e with phase := .done, chosen := some x }

theorem Agree.after (h : Agree s e x c) : Agree s (issued e x) x c := by
  obtain ⟨h1, h2, h3, h4, h5, h6, h7, h8⟩ := h
  exact ⟨h1, h2, h3, h4, h5, h6, h7, h8⟩

/-- The first of the two is chosen. -/
theorem Agree.choice (h : Agree s e x c) (hm : s.vot.mode ≠ .m1oo1) (hh : s.vot.mode ≠ .halt) (hv : (patOf e.patE).vclass = 0) :
    entryChoice s e = some (x, [x.ch, c.ch]) := by
  obtain ⟨hx, hxa⟩ := h.first
  obtain ⟨hc, hca⟩ := h.second
  have hvoting : votingCopies s e = [x, c] := by
    unfold votingCopies; rw [h.copies]
    simp only [List.filter_cons, hx, hxa, hc, hca, beq_self_eq_true, Bool.and_self, if_true, List.filter_nil]
  have hequal : [x, c].filter (copyEq x) = [x, c] := by
    simp only [List.filter_cons, h.self, h.equal, if_true, List.filter_nil]
  have hpair : [x, c].find? (fun y => decide (2 ≤ ([x, c].filter (copyEq y)).length)) = some x :=
    List.find?_cons_of_pos (p := fun y => decide (2 ≤ ([x, c].filter (copyEq y)).length)) (by rw [hequal]; rfl)
  unfold entryChoice; dsimp only
  rw [hvoting, beq_false_of_ne hm, beq_false_of_ne hh, h.write, hv, hpair, Option.map_some, hequal]; rfl

/-- The chosen write is issued. -/
theorem voteRound_issues {chs : List Port} (ho : s.vot.openE = [e]) (hp : e.phase = .waiting) (hr : e.isRead = false)
    (hchoice : entryChoice s e = some (x, chs)) (hres : ∀ j, resetNow s.crl j = false) : voteRound s = issueWrite e x s := by
  have hheld : heldBack s e chs = false := by unfold heldBack; rw [ho]; simp
  unfold voteRound; dsimp only
  rw [ho, List.find?_cons_of_pos]
  · dsimp only; rw [hchoice, hr]; rfl
  · simp only [hp, hchoice, hheld, hres, hr]; rfl

/-- The issued write stands at the end of its segment's list. -/
theorem issueWrite_joins {le : Nat} (ho : s.vot.openE = [e]) (hl : e.locE = some le) (hp : PtrsGood s) :
    (issueWrite e x s).vot = { s.vot with openE := [issued e x] } ∧ Same2 State.ch State.port s (issueWrite e x s) ∧
      Presented s (issueWrite e x s) ∧ accessPkt e x x.ch.val x.cells le ∈ listPkts (issueWrite e x s) (8 + (patOf le).seg.val) := by
  let s1 := withOpen [issued e x] s
  let ps := (listPkts s1 x.ch.val).filter fun p => p.cells != x.cells
  let y := accessPkt e x x.ch.val x.cells le
  have hput : putEntry (issued e x) s = s1 := by unfold putEntry; rw [ho]; simp [issued, s1, withOpen]
  have heq : issueWrite e x s = linkPkt (8 + (patOf le).seg.val) y (setPkts x.ch.val ps s1) := by
    unfold issueWrite; dsimp only
    rw [show putEntry { e with phase := .done, chosen := some x } s = s1 from hput, hl]
  obtain ⟨hpw, hlw⟩ := (OtherLists.refl x.ch.val s1).setPkts ps hp
  obtain ⟨hpt, hlt⟩ := (OtherLists.refl (8 + (patOf le).seg.val) (setPkts x.ch.val ps s1)).linkPkt y hpw
  have hsame := listPkts_linkPkt_same (q := 8 + (patOf le).seg.val) y hpw
  have hjoin := linkPkt_joins y (hpw (8 + (patOf le).seg.val))
  have hch5 : x.ch.val < 5 := by omega
  rw [heq]
  refine ⟨by rw [hjoin]; rfl, by rw [hjoin]; exact ⟨rfl, rfl⟩, ⟨by rw [hjoin]; rfl, fun _ => hpt, fun _ j hj => ?_, fun _ => ?_, fun hr j => ?_⟩, ?_⟩
  · by_cases e8 : j = 8 + (patOf le).seg.val
    · subst e8; rw [hsame, hlw _ (by omega)]; exact List.prefix_append _ _
    · rw [hlt j e8, hlw j (by omega)]; exact List.prefix_rfl
  · exact (hlt 23 (by omega)).trans (hlw 23 (by omega))
  · rw [hjoin]; exact hr j
  · rw [hsame]; exact List.mem_append_right _ (List.mem_singleton_self y)

/-- The entry is closed: no open entry is left. -/
def closedAlone (e : MEntry) (s : State) : State := { s with vot := { s.vot with openE := [], closedE := [e] } }

/-- Every ACTIVE, aligned channel is one of the two, so none is outside the majority. -/
theorem Agree.nobody_outside (h : Agree s e x c) (hall : allPresented s e = true) : (activeAligned s).filter (fun d => outside e (some x) d) = [] := by
  refine List.filter_eq_nil_iff.2 fun d hd => ?_
  have hone : d = x.ch ∨ d = c.ch := by
    unfold allPresented at hall; rw [h.copies] at hall
    have := List.all_eq_true.1 hall d hd
    simp only [List.any_cons, List.any_nil, Bool.or_false, Bool.or_eq_true, beq_iff_eq] at this
    exact this.imp Eq.symm Eq.symm
  unfold outside; rw [h.copies]
  rcases hone with rfl | rfl
  · simp
  · simp [h.other, h.equal]

/-- An issued entry of equal copies closes without a charge: the other copy is discarded. -/
theorem Agree.closes (h : Agree s e x c) (ho : s.vot.openE = [e]) (hc : s.vot.closedE = []) (hp : e.phase = .done) (hch : e.chosen = some x)
    (hall : allPresented s e = true) : closeEntry e s = discardPkt c.ch.val c.cells (closedAlone e s) := by
  obtain ⟨hx, -⟩ := h.first
  obtain ⟨hc2, -⟩ := h.second
  obtain ⟨hxw, hcw⟩ := h.writes
  have hne : c ≠ x := fun e => h.other (by rw [e])
  have hmaj : majority s e = some (some x) := by unfold majority; rw [hp, hch]
  have hmissed : (e.copies.filter fun y => s.ch[y.ch].aligned && s.ch[y.ch].st != .active && outside e (some x) y.ch) = [] := by
    rw [h.copies]; simp only [List.filter_cons, hx, hc2, bne_self_eq_false, Bool.and_false, Bool.false_and, Bool.false_eq_true, if_false, List.filter_nil]
  have hreads : e.copies.filter (·.isRead) = [] := by rw [h.copies]; simp [hxw, hcw]
  have hdrop : (e.copies.filter fun y => !y.isRead && some y != some x) = [c] := by rw [h.copies]; simp [hcw, hne]
  have hadd : addClosed e { s with vot := { s.vot with openE := s.vot.openE.filter fun f => !(f.k == e.k && f.pat == e.pat) } } = closedAlone e s := by
    unfold addClosed closedAlone; simp [ho, hc]
  unfold closeEntry; dsimp only
  rw [hmaj]; dsimp only
  rw [h.nobody_outside hall, hmissed, hreads, hp, hch, hadd]
  simp [hdrop]

theorem discardPkt_presented (q : Nat) (hq : q < 5) (cells : List Nat) (s : State) : Presented s (discardPkt q cells s) := by
  refine .of_hub (.of_crl (by simp)) hq (discardPkt_lists q cells s) fun j => ?_
  unfold discardPkt; split <;> rfl

/-- The vote unit over the one open entry: the write is issued once. -/
theorem Agree.voted {le : Nat} (h : Agree s e x c) (ho : s.vot.openE = [e]) (hc : s.vot.closedE = []) (hw : s.vot.waiting = [])
    (hp : e.phase = .waiting) (hl : e.locE = some le) (hm : s.vot.mode ≠ .m1oo1) (hh : s.vot.mode ≠ .halt) (hv : (patOf e.patE).vclass = 0)
    (hptr : PtrsGood s) (hres : ∀ j, resetNow s.crl j = false) :
    ∃ t, voteUnit s = t ∧ Presented s t ∧ t.ch = s.ch ∧ issued e x ∈ t.vot.openE ++ t.vot.closedE ∧
      accessPkt e x x.ch.val x.cells le ∈ listPkts t (8 + (patOf le).seg.val) := by
  have hround := voteRound_issues ho hp h.write (h.choice hm hh hv) hres
  obtain ⟨hvot, ⟨hch, -⟩, hpres, hpkt⟩ := issueWrite_joins (x := x) ho hl hptr
  have hunit : voteUnit s = voteRounds 3 (issueWrite e x s) := by
    unfold voteUnit; rw [ho, hw]
    show voteRounds 3 (voteRound s) = _
    rw [hround]
  generalize issueWrite e x s = t at hvot hch hpres hpkt hunit
  have hopen : t.vot.openE = [issued e x] := by rw [hvot]
  have hclosed : t.vot.closedE = [] := by rw [hvot]; exact hc
  have hwait : t.vot.waiting = [] := by rw [hvot]; exact hw
  have hno : ∀ f ∈ t.vot.openE, f.phase = .waiting → entryChoice t f = none := fun f hf hph => by
    rw [hopen, List.mem_singleton] at hf; subst hf; cases hph
  have hagree : Agree t (issued e x) x c := h.after.congr hch
  by_cases hall : allPresented t (issued e x) = true
  · have hmust : mustClose t (issued e x) = true := by unfold mustClose; rw [hall]; rfl
    have hcloses := hagree.closes hopen hclosed rfl rfl hall
    have hclose : voteRound t = closeEntry (issued e x) t := by
      unfold voteRound; dsimp only; rw [hopen]
      simp only [List.find?_cons, hmust]; rfl
    have hgone := discardPkt_presented c.ch.val (by omega) c.cells (closedAlone (issued e x) t)
    have hlist := (discardPkt_lists c.ch.val c.cells (closedAlone (issued e x) t) (hpres.ptrs hptr)).2 (8 + (patOf le).seg.val) (by omega)
    have hkept : (discardPkt c.ch.val c.cells (closedAlone (issued e x) t)).vot = (closedAlone (issued e x) t).vot ∧
        (discardPkt c.ch.val c.cells (closedAlone (issued e x) t)).ch = t.ch := by simp [closedAlone]
    rw [hcloses] at hclose
    generalize discardPkt c.ch.val c.cells (closedAlone (issued e x) t) = u at hclose hgone hlist hkept
    obtain ⟨hvu, hcu⟩ := hkept
    have hidle : voteRound u = u := voteRound_idle (fun f hf => by rw [hvu] at hf; cases hf) (fun f hf => by rw [hvu] at hf; cases hf)
      (by rw [hvu]; exact hwait)
    have hshut : Presented t (closedAlone (issued e x) t) := .of_crl rfl rfl
    refine ⟨u, ?_, hpres.trans (hshut.trans hgone), hcu.trans hch, ?_, ?_⟩
    · rw [hunit]; show voteRounds 2 (voteRound t) = u
      rw [hclose, voteRounds_idle hidle]
    · rw [hvu]; exact List.mem_append_right _ (List.mem_singleton_self _)
    · rw [hlist]; exact hpkt
  · have hstays : ∀ f ∈ t.vot.openE, mustClose t f = false := fun f hf => by
      rw [hopen, List.mem_singleton] at hf; subst hf
      unfold mustClose; rw [Bool.not_eq_true] at hall; rw [hall]; rfl
    exact ⟨t, hunit.trans (voteRounds_idle (voteRound_idle hno hstays hwait) 3), hpres, hch,
      List.mem_append_left _ (by rw [hopen]; exact List.mem_singleton_self _), hpkt⟩

end

end Sys2Proof.Machine
end

section
/-!
SUPPORT. The commands that bring a copy to the match table (R131, R132, R138), from the write or read that arrives to the answer.
-/

namespace Sys2Proof.Machine

open Sys2Proof

section
variable {p : Port} {s u : State}

/-- Another ACTIVE, aligned channel has not presented its copy yet. -/
def Awaited (p : Port) (s : State) : Prop := ∃ d : Port, d ≠ p ∧ s.ch[d].st = .active ∧ s.ch[d].aligned = true

/-- A first copy waits in its entry (R132, R134, R138): the pump moves nothing. -/
theorem first_copy_waits {c : MCopy} (hq : PumpQuiet s) (hecc : s.tap.ecc = []) (ho : s.vot.openE = []) (hc : s.vot.closedE = [])
    (hk : s.vot.kEvict = none) (hw : s.vot.waiting = []) (hm : s.vot.mode ≠ .m1oo1) (ha : Awaited c.ch s)
    (hr : c.isRead = true → (patOf (patEntry s.lom.act c.pat)).idem = false ∧ (patOf (patEntry s.lom.act c.pat)).kind ≠ .rmw) :
    pump (presentCopy c s) = withOpen [firstEntry c s] s := by
  obtain ⟨d, hd, hst, hal⟩ := ha
  have hround : voteRound (withOpen [firstEntry c s] s) = withOpen [firstEntry c s] s := by
    refine voteRound_idle (fun e he _ => ?_) (fun e he => ?_) hw
    · obtain rfl := List.mem_singleton.1 he
      exact entryChoice_single rfl hm hr
    · obtain rfl := List.mem_singleton.1 he
      refine mustClose_absent (s := withOpen [firstEntry c s] s) hst hal fun x hx => ?_
      obtain rfl := List.mem_singleton.1 hx
      exact hd.symm
  rw [presentCopy_opens hecc ho hc hk]
  have hpres : Presented s (withOpen [firstEntry c s] s) := .of_crl rfl rfl
  exact (hq.presented hpres).pump (voteRounds_idle hround _)

/-- A copy is taken: its channel's APSEQ.K counts it. -/
theorem takeKey_presented (p : Port) (s : State) : Presented s (takeKey p s) := .of_crl rfl rfl

theorem takeKey_awaited (h : Awaited p s) : Awaited p (takeKey p s) := by
  obtain ⟨d, hd, hst, hal⟩ := h
  have hch : (takeKey p s).ch[d] = s.ch[d] := (takeKey_counts p s).1 d hd
  exact ⟨d, hd, by rw [hch]; exact hst, by rw [hch]; exact hal⟩

/-- The conditions on the device under which a copy is taken. -/
structure MatchReady (p : Port) (s : State) : Prop where
  bar : Bar4Ready p s
  quiet : PumpQuiet s
  clean : s.tap.ecc = []
  aligned : s.ch[p].aligned = true
  closed : s.vot.closedE = []
  evict : s.vot.kEvict = none
  waiting : s.vot.waiting = []
  mode : s.vot.mode ≠ .m1oo1
  resets : ∀ j, resetNow s.crl j = false

/-- A change of the ports that keeps port `p`'s configuration keeps them. -/
theorem MatchReady.ports (h : MatchReady p s) (hf : u = { s with port := u.port }) (hc : u.port[p].cfg = s.port[p].cfg) : MatchReady p u := by
  have hpres : Presented s u := .of_crl (by rw [hf]) (by rw [hf])
  obtain ⟨bar, quiet, clean, aligned, closed, evict, waiting, mode, resets⟩ := h
  refine ⟨bar.congr hc (by rw [hf]) (by rw [hf]), quiet.presented hpres, ?_, ?_, ?_, ?_, ?_, ?_, hpres.resets resets⟩ <;> rw [hf] <;> assumption

/-! What the commands leave -/

/-- What stands of a first copy once the events are delivered, from a state `w` in which the Creel, the event hub and the ports differ. -/
theorem first_copy_shown {pat off n tag : Nat} {bs : List Byte} {en : List Bool} {isRead : Bool} {cells : List Nat} {w : State}
    (hw : w = { cleared s with crl := w.crl, evh := w.evh, port := w.port }) :
    let c := copyOfOp w p pat off n bs en false isRead tag cells
    let t := settle (withOpen [firstEntry c (takeKey p w)] (takeKey p w))
    (t.port[p].rx = w.port[p].rx ∧ t.port[p].np = w.port[p].np) ∧
      t.ch[p] = { s.ch[p] with k := s.ch[p].k + 1, opsSince := s.ch[p].opsSince + 1 } ∧
      c.k = s.ch[p].k ∧
      t.vot = { s.vot with openE := [⟨s.ch[p].k, pat, patEntry s.lom.act pat, localPat s (patEntry s.lom.act pat), isRead, [c], .waiting,
        none, none, []⟩] } ∧
      (∀ d : Port, d ≠ p → t.ch[d] = s.ch[d]) ∧ Same4 State.regs State.seg State.img State.lom s t ∧ Same1 State.lcc s t := by
  intro c t
  obtain ⟨crl, evh, port, rfl⟩ : ∃ crl evh port, w = { cleared s with crl := crl, evh := evh, port := port } := ⟨_, _, _, hw⟩
  obtain ⟨hother, hself⟩ := takeKey_counts p { cleared s with crl := crl, evh := evh, port := port }
  have hport : ∀ x : State, (settle x).port[p].rx = x.port[p].rx ∧ (settle x).port[p].np = x.port[p].np := fun x => ⟨settle_rx x p, settle_np x p⟩
  have hkeeps : ∀ x : State, Same2 State.ch State.vot x (settle x) ∧ Same4 State.regs State.seg State.img State.lom x (settle x) ∧
      Same1 State.lcc x (settle x) := fun x => by simp
  obtain ⟨⟨hch, hvot⟩, hplant, hlcc⟩ := hkeeps (withOpen [firstEntry c (takeKey p { cleared s with crl := crl, evh := evh, port := port })]
    (takeKey p { cleared s with crl := crl, evh := evh, port := port }))
  refine ⟨hport _, ?_, rfl, hvot, fun d hd => ?_, hplant, hlcc⟩
  · rw [hch]; exact hself
  · rw [hch]; exact hother d hd

/-- The entry of a write that a further copy has joined. -/
def joined (e : MEntry) (c : MCopy) : MEntry := { e with copies := e.copies ++ [c] }

/-- An equal copy joins the one open entry: the write is issued, and the pump ends there. -/
theorem equal_copy_issues {e : MEntry} {x c : MCopy} {patE : Nat} (hq : PumpQuiet s) (hecc : s.tap.ecc = []) (hres : ∀ j, resetNow s.crl j = false)
    (hclosed : s.vot.closedE = []) (hwait : s.vot.waiting = []) (hmode : s.vot.mode ≠ .m1oo1) (hhalt : s.vot.mode ≠ .halt)
    (hopen : s.vot.openE = [e]) (hk : e.k = c.k) (hpat : e.pat = c.pat) (hp : e.phase = .waiting) (hl : e.locE = some patE)
    (hv : (patOf e.patE).vclass = 0) (hagree : Agree s (joined e c) x c) :
    ∃ t, pump (presentCopy c s) = t ∧ Presented s t ∧ t.ch = s.ch ∧ issued (joined e c) x ∈ t.vot.openE ++ t.vot.closedE ∧
      accessPkt (joined e c) x x.ch.val x.cells patE ∈ listPkts t (8 + (patOf patE).seg.val) := by
  have hjoin : presentCopy c s = withOpen [joined e c] s := presentCopy_joins hecc hopen hk hpat hagree.write
  have hpres : Presented s (withOpen [joined e c] s) := .of_crl rfl rfl
  have hagree' : Agree (withOpen [joined e c] s) (joined e c) x c := hagree.congr rfl
  obtain ⟨t, hunit, ht, hch, he, hy⟩ := hagree'.voted rfl hclosed hwait hp hl hmode hhalt hv (hpres.ptrs hq.ptrs) (hpres.resets hres)
  have hall := hpres.trans ht
  exact ⟨t, by rw [hjoin]; exact (hq.presented hall).pump hunit, hall, hch, he, hy⟩

/-- The first copy of a write whose entry waits, by another channel (R133). -/
structure FirstCopy (p : Port) (k : Word) (pat off patE : Nat) (data : List Byte) (be : List Bool) (x : MCopy) (s : State) : Prop where
  entry : s.vot.openE = [⟨k, pat, patE, some patE, false, [x], .waiting, none, none, []⟩]
  other : x.ch ≠ p
  active : s.ch[x.ch].st = .active ∧ s.ch[x.ch].aligned = true
  write : x.isRead = false
  sound : x.poisoned = false
  same : x.off = off ∧ x.len = data.length ∧ x.data = data ∧ x.en = be

/-- The second equal copy agrees with it. -/
theorem FirstCopy.agree {pat off patE : Nat} {data : List Byte} {be : List Bool} {cells : List Nat} {x : MCopy}
    (h : FirstCopy p s.ch[p].k pat off patE data be x s) (hact : s.ch[p].st = .active) (hal : s.ch[p].aligned = true) :
    Agree (takeKey p s) (joined ⟨s.ch[p].k, pat, patE, some patE, false, [x], .waiting, none, none, []⟩
      (copyOfOp s p pat off data.length data be false false 0 cells)) x (copyOfOp s p pat off data.length data be false false 0 cells) := by
  obtain ⟨hother, hself⟩ := takeKey_counts p s
  obtain ⟨-, hne, hx, hxr, hxp, hxo, hxl, hxd, hxe⟩ := h
  refine ⟨rfl, rfl, ⟨hxr, rfl⟩, hne, by rw [hother _ hne]; exact hx, ?_, ?_, ?_⟩
  · show (takeKey p s).ch[p].st = .active ∧ (takeKey p s).ch[p].aligned = true
    rw [hself]; exact ⟨hact, hal⟩
  · simp [copyEq, hxp]
  · simp [copyEq, copyOfOp, hxp, hxo, hxl, hxd, hxe]

/-- The second equal copy of a write issues it (R134). -/
theorem second_copy_issues {pat off patE : Nat} {data : List Byte} {be : List Bool} {cells : List Nat} {x : MCopy}
    (hs : MatchReady p s) (h : FirstCopy p s.ch[p].k pat off patE data be x s) (hact : s.ch[p].st = .active) (hv : (patOf patE).vclass = 0)
    (hhalt : s.vot.mode ≠ .halt) :
    ∃ t e, pump (presentCopy (copyOfOp s p pat off data.length data be false false 0 cells) (takeKey p s)) = t ∧ Presented s t ∧
      t.ch = (takeKey p s).ch ∧ (e.k = s.ch[p].k ∧ e.pat = pat ∧ e.isRead = false) ∧ issued e x ∈ t.vot.openE ++ t.vot.closedE ∧
      accessPkt e x x.ch.val x.cells patE ∈ listPkts t (8 + (patOf patE).seg.val) := by
  have hkey := takeKey_presented p s
  obtain ⟨t, hpump, ht, hch, he, hy⟩ := equal_copy_issues (hs.quiet.presented hkey) hs.clean (hkey.resets hs.resets) hs.closed hs.waiting
    hs.mode hhalt h.entry rfl rfl rfl rfl hv (h.agree (cells := cells) hact hs.aligned)
  exact ⟨t, _, hpump, hkey.trans ht, hch, ⟨rfl, rfl, rfl⟩, he, hy⟩

/-- The state once cells are granted: the Creel, the event hub and the ports differ. -/
def granted (crl : Creel) (evh : Evh) (port : Vector PortS 4) (s : State) : State := { cleared s with crl := crl, evh := evh, port := port }

variable {pat : BitVec 16} {off : BitVec 12} {data : List Byte} {be : List Bool} {c : Instr}

/-- A write without cells changes its port alone. -/
theorem write_waits (hready : MatchReady p (cleared s)) (ho : portOpen s p = true) (hc : WriteTurn p pat off data be c s)
    (hr : bar4Refused s pat.toNat off.toNat data.length true = false) (hclaim : claimOk s.crl p.val (cellsFor data.length) = false) :
    ∃ v, exec c s = .next (settle v) ∧ v = { cleared s with port := v.port } ∧ v.port[p].rx = [.write pat.toNat off.toNat data be false] := by
  obtain ⟨u, hu, -, hwaits⟩ := bar4_write_turn ho hc
  have hur : MatchReady p u := hready.ports hu.frame hu.cfg
  have hru : bar4Refused u pat.toNat off.toNat data.length true = false := by rw [hu.frame]; exact hr
  have hcrl : u.crl = s.crl := by rw [hu.frame]; rfl
  exact hwaits (takeWrite_waits hur.bar hur.clean hru hur.aligned hur.quiet.ptrs (by rw [hcrl]; exact hclaim))

/-- A write that is granted its cells presents its copy. -/
theorem write_granted (hready : MatchReady p (cleared s)) (ho : portOpen s p = true) (hc : WriteTurn p pat off data be c s)
    (hr : bar4Refused s pat.toNat off.toNat data.length true = false) (hclaim : claimOk s.crl p.val (cellsFor data.length) = true) :
    ∃ cells crl evh port, MatchReady p (granted crl evh port s) ∧ port[p].rx = [] ∧
      exec c s = .next (settle (pump (presentCopy
        (copyOfOp (granted crl evh port s) p pat.toNat off.toNat data.length data be false false 0 cells) (takeKey p (granted crl evh port s))))) := by
  obtain ⟨u, hu, htake, -⟩ := bar4_write_turn ho hc
  have hur : MatchReady p u := hready.ports hu.frame hu.cfg
  have hru : bar4Refused u pat.toNat off.toNat data.length true = false := by rw [hu.frame]; exact hr
  have hcrl : u.crl = s.crl := by rw [hu.frame]; rfl
  obtain ⟨cells, w, hw, hpres, hub⟩ := takeWrite_presents (en := be) hur.bar hur.clean hru hur.aligned hur.quiet.ptrs (by rw [hcrl]; exact hclaim)
  have hframe : w = granted w.crl w.evh u.port s := by
    have hf := hu.frame
    unfold HubOnly at hub; rw [hub, hf]; rfl
  have hquiet := hur.quiet.presented hpres
  have hresets := hpres.resets hur.resets
  have hx := htake _ hw
  generalize w.crl = crl, w.evh = evh at hframe
  subst hframe
  obtain ⟨bar, -, clean, aligned, closed, evict, waiting, mode, -⟩ := hready
  exact ⟨cells, crl, evh, u.port, ⟨bar.congr hu.cfg rfl rfl, hquiet, clean, aligned, closed, evict, waiting, mode, hresets⟩, hu.rx, hx⟩

end

/-- A BAR4 read that arrives takes its turn at once; its tag is held. -/
theorem bar4_read_turn {p : Port} {pat : BitVec 16} {off : BitVec 12} {len : Nat} {be : List Bool} {tag : BitVec 10} {s : State}
    (ho : portOpen s p = true) (hroom : npRoom s p = true) (hcut : crosses off.toNat len = false) (hbe : 4 < len ∨ true ∈ be)
    (hrx : s.port[p].rx = []) : ∃ hd, exec (.bar4Read p pat off ⟨len, be⟩ tag) s =
      .next (settle (takeRead p pat.toNat off.toNat len be tag.toNat (requested p tag.toNat hd s))) := by
  have hread : (decide (len ≤ 4) && be.all (! ·)) = false := by
    rcases hbe with hl | hl
    · rw [decide_eq_false (Nat.not_le.2 hl)]; rfl
    · rw [Bool.and_eq_false_iff]
      exact .inr (List.all_eq_false.2 ⟨true, hl, by decide⟩)
  refine ⟨memHdr false (barBase s p 4 + pat.toNat * 4096 + off.toNat) be tag.toNat false,
    exec_run (bar4ReadOp p pat.toNat off.toNat len be tag.toNat) rfl ?_⟩
  unfold bar4ReadOp; dsimp only; rw [hread]
  exact recvNonPosted_taken (s := cleared s) ho hroom hcut hrx rfl

end Sys2Proof.Machine

open Sys2Proof Sys2Proof.Machine

/-- Settles O25: a first copy alone meets no condition, so the pump leaves it in its entry; the second equal copy makes the vote unit issue the
write, which a close of the entry then leaves on its segment's list. -/
theorem aperiodicMatching : Obligations.AperiodicMatching := by
  unfold Obligations.AperiodicMatching
  intro p pat off s hdel hb ho hon hsv hrun hecc hal hclosed hevict hmode hmaster hlists hq
  obtain ⟨-, hwait, hleg, hring, hans, -, hbus⟩ := hq
  have hready : MatchReady p (cleared s) :=
    ⟨⟨hon, hsv, hrun⟩, ⟨hlists.ptrs, hleg, hring, hans, hmaster, fun g => (hbus g).2⟩, hecc, hal, hclosed, hevict, hwait, hmode, hlists.noReset⟩
  obtain ⟨hother, hself⟩ := takeKey_counts p (cleared s)
  refine ⟨fun data be hr c hc => ⟨fun hclaim => ?_, fun hclaim hopen hawait => ?_, fun hclaim hact hhalt x patE hopen hne hx1 hxa hxr hxp hxo hxl hxd hxe hv => ?_⟩,
    fun len be tag hroom hcut hbe hrx hopen hr hidem hkind hawait => ?_⟩
  · obtain ⟨v, hx, hv, hrx⟩ := write_waits hready ho hc hr hclaim
    have hkeeps : Same3 State.vot State.ch State.regs v (settle v) := by simp
    obtain ⟨hvot, hch, hregs⟩ := hkeeps
    refine completes_settle hx ⟨(settle_rx v p).trans hrx, hvot.trans ?_, hch.trans ?_, hregs.trans ?_⟩ <;> rw [hv] <;> rfl
  · obtain ⟨cells, crl, evh, port, hw, hrx, hx⟩ := write_granted hready ho hc hr hclaim
    have hkey := hw.quiet.presented (takeKey_presented p _)
    have hawaited : Awaited p (takeKey p (granted crl evh port s)) := takeKey_awaited hawait
    have hpump := first_copy_waits (c := copyOfOp (granted crl evh port s) p pat.toNat off.toNat data.length data be false false 0 cells)
      hkey hecc hopen hclosed hevict hwait hmode hawaited (fun h => by cases h)
    rw [hpump] at hx
    obtain ⟨⟨hrx', -⟩, hself, hk, hvot, hother, ⟨hregs, hseg, himg, hlom⟩, hlcc⟩ := first_copy_shown (s := s) (p := p) (pat := pat.toNat)
      (off := off.toNat) (n := data.length) (tag := 0) (bs := data) (en := be) (isRead := false) (cells := cells) (w := granted crl evh port s) rfl
    exact completes_settle hx ⟨hrx'.trans hrx, hself, ⟨_, rfl, hk, rfl, rfl, rfl, rfl, hvot⟩, hother, hregs, hseg, himg, hlom, hlcc⟩
  · obtain ⟨cells, crl, evh, port, hw, -, hx⟩ := write_granted hready ho hc hr hclaim
    obtain ⟨t, e, hpump, hpres, hch, ⟨hk, hpat, hread⟩, he, hy⟩ :=
      second_copy_issues (cells := cells) hw ⟨hopen, hne, ⟨hx1, hxa⟩, hxr, hxp, hxo, hxl, hxd, hxe⟩ hact hv hhalt
    rw [hpump] at hx
    have hptr : PtrsGood t := hpres.ptrs hw.quiet.ptrs
    obtain ⟨-, ⟨hlom, -, hlcc, hregs⟩, -⟩ := hpres.rest
    have hkeeps : Same4 State.vot State.ch State.regs State.lom t (settle t) ∧ Same1 State.lcc t (settle t) := by simp
    obtain ⟨⟨hvot', hch', hregs', hlom'⟩, hlcc'⟩ := hkeeps
    refine completes_settle hx ⟨⟨issued e x, ?_, hk, hpat, rfl, rfl⟩, ⟨accessPkt e x x.ch.val x.cells patE, ?_, hpat, hxo, hxd, hxe, hread, rfl⟩,
      ?_, hregs'.trans hregs, hlom'.trans hlom, hlcc'.trans hlcc⟩
    · rw [hvot']; exact he
    · rw [settle_lists hptr (by omega)]; exact hy
    · rw [hch', hch]; exact congrArg Chan.k hself
  · obtain ⟨hd, hx⟩ := bar4_read_turn (be := be) (pat := pat) ho hroom hcut hbe hrx
    have hur : MatchReady p (requested p tag.toNat hd s) := hready.ports rfl (by unfold requested holdTag receipt; rw [modPort_same, modPort_same])
    rw [takeRead_presents hur.bar hur.clean hr hur.aligned] at hx
    have hkey := hur.quiet.presented (takeKey_presented p _)
    have hawaited : Awaited p (takeKey p (requested p tag.toNat hd s)) := takeKey_awaited hawait
    have hpump := first_copy_waits (c := copyOfOp (requested p tag.toNat hd s) p pat.toNat off.toNat len [] be false true tag.toNat [])
      hkey hecc hopen hclosed hevict hwait hmode hawaited (fun _ => ⟨hidem, hkind⟩)
    rw [hpump] at hx
    obtain ⟨⟨-, hnp⟩, hself, hk, hvot, -, ⟨hregs, hseg, -, hlom⟩, -⟩ := first_copy_shown (s := s) (p := p) (pat := pat.toNat)
      (off := off.toNat) (n := len) (tag := tag.toNat) (bs := []) (en := be) (isRead := true) (cells := []) (w := requested p tag.toNat hd s) rfl
    have hheld : (requested p tag.toNat hd s).port[p].np = ⟨tag.toNat, hd⟩ :: s.port[p].np := by
      unfold requested holdTag receipt; rw [modPort_same, modPort_same]; rfl
    exact completes_settle hx ⟨⟨hd, hnp.trans hheld⟩, hself, ⟨_, rfl, hk, rfl, rfl, rfl, rfl, rfl, hvot⟩, hregs, hseg, hlom⟩
end

section
/-!
SUPPORT. The counterexample to O36: a voted write of segment 0 is fed from the list of voted aperiodic work of the other segment, which owns
its bus for that list alone. The write's last acknowledge takes the packet from the list, and the other segment, now without work, gives its
bus back (R162).
-/

namespace Sys2Proof.Machine

open Sys2Proof

/-- Both segments master cycles. -/
def bothMaster : State :=
  let s := State.reset
  setReg (.ls 0) 0x040 (getReg s (.ls 0) 0x040 ||| 3#32) (setReg (.ls 1) 0x040 (getReg s (.ls 1) 0x040 ||| 3#32)
    { s with pwr := { s.pwr with boot := .opened, st := .run } })

/-- A complete voted write of four bytes on the list of voted aperiodic work of segment 1. -/
def votedWritePkt : Pkt :=
  { owner := 9, cells := [], eop := true, epoch := 0, cy := 0, src := 0, pat := 0, off := 0, len := 4, aux := 0, data := List.replicate 4 7,
    en := List.replicate 4 true, isRead := false, trunc := false, cont := false, poison := false, sent := 0, patE := 1 + 2 * 1 + 3 * 2 ^ 17 + 0x100000 * 2 ^ 32 + 7 * 2 ^ 96,
    origin := .vote 0 0 }

/-- The engine that drives its one D32 cycle. -/
def votedWriteEng : Eng := { engOf (accOfPkt 9 .vap votedWritePkt) 0 with driving := true }

/-- Segment 0 drives that cycle; segment 1 owns its bus and has nothing but the packet to do. -/
def crossFed : State :=
  modSeg 1 (fun x => { x with owner := true }) (modSeg 0 (fun x => { x with eng := some votedWriteEng, owner := true })
    (setPkts 9 [votedWritePkt] bothMaster))

/-- The one cycle of the write. -/
def votedWriteCycle : CycS := ⟨0x100000, 0, (List.range 4).map fun i => (0x100000 + i, i)⟩

theorem crossFed_ready : Quiet crossFed ∧ crossFed.seg[(0 : Seg)].eng = some votedWriteEng ∧ votedWriteEng.driving = true ∧
    votedWriteEng.hold = false ∧ votedWriteEng.todo = [votedWriteCycle] ∧ crossFed.seg[(0 : Seg)].ahead = none ∧ votedWriteEng.phases = 0 ∧
    (patOf votedWriteEng.acc.patE).kind ≠ .rmw ∧ votedWriteCycle.beats ≤ votedWriteEng.beat + 1 ∧ votedWriteEng.acc.origin = .vote 0 0 ∧
    votedWriteEng.acc.write = true := by and_intros <;> decide +kernel

theorem crossFed_owns : crossFed.seg[(1 : Seg)].owner = true := by decide +kernel

/-- The segments that own their buses after a command, if the command completes. -/
def ownersAfter (c : Instr) (s : State) : List Bool :=
  match exec c s with
  | .next t => t.seg.toList.map (·.owner)
  | .fault _ => []
  | .refused _ => []

theorem ownersAfter_of_exec {c : Instr} {s t : State} (h : exec c s = .next t) : ownersAfter c s = t.seg.toList.map (·.owner) := by
  unfold ownersAfter; rw [h]

/-- The acknowledge takes the bus of segment 1 away. -/
theorem crossFed_releases : (ownersAfter (.dtackSeen 0 0) crossFed)[1]? = some false := by decide +kernel

end Sys2Proof.Machine

open Sys2Proof Sys2Proof.Machine

/-- Refutes O36: the voted write of segment 0 in `crossFed` ends, and segment 1 changes too: it owned its bus for the packet that leaves, and
gives it back. The clause lacks the hypothesis that the access is fed from a list of its own segment. -/
theorem not_cycleProgress : ¬ Obligations.CycleProgress := by
  unfold Obligations.CycleProgress
  intro h
  obtain ⟨hq, heng, hdrv, hhold, htodo, hahead, hph, hkind, hlast, horigin, hwrite⟩ := crossFed_ready
  obtain ⟨-, -, hbeats⟩ := h 0 0 votedWriteEng votedWriteCycle [] crossFed hq heng hdrv hhold htodo hahead
  obtain ⟨-, -, -, hend⟩ := hbeats hph hkind
  obtain ⟨-, -, hvote⟩ := hend hlast rfl
  obtain ⟨t, hx, ⟨-, hother⟩, -⟩ := hvote 0 0 horigin hwrite
  have hkept : t.seg[(1 : Seg)].owner = true := (congrArg SegS.owner (hother 1 (by decide))).trans crossFed_owns
  have hlost := (congrArg (·[1]?) (ownersAfter_of_exec hx)).symm.trans crossFed_releases
  simp at hlost
  exact absurd (hkept.symm.trans hlost) (by decide)
end

section
/-!
SUPPORT. What a command on one segment's bus leaves alone: frames for the segment that acts, and the beat that an engine drives while no memory
word is in error (R188, R214).
-/

namespace Sys2Proof.Machine

open Sys2Proof

/-! Frames -/

/-- The state differs from `s` in segment `g`, the process image, the Creel, the event hub and the outputs alone. -/
def SegWork (g : Seg) (s t : State) : Prop :=
  t = { s with seg := t.seg, img := t.img, crl := t.crl, evh := t.evh, out := t.out } ∧ ∀ h, h ≠ g → t.seg[h] = s.seg[h]

namespace SegWork

variable {g : Seg} {s t u : State}

theorem refl (g : Seg) (s : State) : SegWork g s s := ⟨rfl, fun _ _ => rfl⟩

theorem trans (h1 : SegWork g s t) (h2 : SegWork g t u) : SegWork g s u := by
  obtain ⟨e1, o1⟩ := h1
  obtain ⟨e2, o2⟩ := h2
  exact ⟨by rw [e2, e1], fun h hne => (o2 h hne).trans (o1 h hne)⟩

/-- Only the image, the Creel, the event hub and the outputs differ. -/
theorem of_parts (h : u = { t with img := u.img, crl := u.crl, evh := u.evh, out := u.out }) : SegWork g t u := by
  have hs : u.seg = t.seg := by rw [h]
  refine ⟨?_, fun _ _ => by rw [hs]⟩
  rw [hs]; exact h

theorem modSeg (h : SegWork g s t) (f : SegS → SegS) : SegWork g s (modSeg g f t) :=
  h.trans ⟨rfl, fun _ hne => modSeg_other _ _ _ _ hne⟩

theorem raise (h : SegWork g s t) (ev : Nat) : SegWork g s (raise ev t) := h.trans (of_parts rfl)

theorem slaveAnswer (h : SegWork g s t) (a : Nat) (bs : List Byte) : SegWork g s (slaveAnswer g a bs t) := by
  have h1 := (h.trans (of_parts (u := emit (.slave g a bs) t) rfl)).modSeg fun x => { x with pins := { x.pins with
    dtack := a == 0, berr := a != 0, retry := a == 2, groupR := true } }
  unfold Machine.slaveAnswer; dsimp only
  split
  · exact h1.raise _
  · split
    · exact h1.raise _
    · exact h1

theorem hub (h : SegWork g s t) (hu : HubOnly t u) : SegWork g s u := by
  refine h.trans (of_parts ?_)
  unfold HubOnly at hu
  have e : u.img = t.img ∧ u.out = t.out := by rw [hu]; exact ⟨rfl, rfl⟩
  rw [e.1, e.2]; exact hu

/-- What the whole command changes then. -/
theorem segOnly (h : SegWork g (cleared s) t) :
    SegOnly g { s with img := t.img } (settle t) ∧ (settle t).regs = s.regs := by
  obtain ⟨e, ho⟩ := h
  refine ⟨⟨?_, fun d hne => by rw [settled_seg]; exact ho d hne⟩, (settle_regs t).trans (by rw [e]; rfl)⟩
  rw [settled_seg]
  refine restSame_settle ((restSame_iff _ _).2 ?_)
  rw [e]; exact ⟨⟨rfl, rfl, rfl, rfl⟩, ⟨rfl, rfl, rfl, rfl⟩, ⟨rfl, rfl, rfl, rfl⟩, rfl, rfl, rfl, portsBut_same rfl⟩

theorem segOnly_img (h : SegWork g (cleared s) t) (hi : t.img = s.img) : SegOnly g s (settle t) ∧ (settle t).regs = s.regs := by
  have h1 := h.segOnly
  rw [hi] at h1; exact h1

theorem segOnly_quiet (h : SegWork g (cleared s) t) (hi : t.img = s.img) (hd : Delivered t) : SegOnly g s t ∧ t.regs = s.regs := by
  have h1 := h.segOnly_img hi
  rwa [settle_delivered hd] at h1

theorem pwr (h : SegWork g s t) : t.pwr = s.pwr := by rw [h.1]

theorem tap (h : SegWork g s t) : t.tap = s.tap := by rw [h.1]

end SegWork

theorem restSame_seg {s x : State} (h : RestSame s x) (v : Vector SegS 2) : RestSame { s with seg := v } { x with seg := v } := by
  unfold RestSame at *; exact congrArg (fun y : State => { y with seg := v }) h

/-- A change of one segment is all that a command does. -/
theorem segAlone_modSeg (g : Seg) (f : SegS → SegS) (s : State) : SegAlone g s (modSeg g f (cleared s)) :=
  ⟨rfl, fun _ hne => modSeg_other _ _ _ _ hne⟩

/-- The slaves stay free where no access comes to wait and their queues stay. -/
theorem SlavesFree.congr {s t : State} (h : SlavesFree s) (hw : ∀ g : Seg, t.seg[g].slvWait = none)
    (hl : ∀ g : Seg, slaveList t g = slaveList s g) : SlavesFree t := fun g => ⟨hw g, (hl g).trans (h g).2⟩

/-- A change of one segment leaves the slaves free, if no access comes to wait there. -/
theorem SlavesFree.modSeg {s : State} (h : SlavesFree s) {g : Seg} {f : SegS → SegS} (hf : (f s.seg[g]).slvWait = none) :
    SlavesFree (modSeg g f s) := by
  refine h.congr (fun d => ?_) fun _ => rfl
  by_cases hd : d = g
  · subst hd; rw [modSeg_self]; exact hf
  · rw [modSeg_other _ _ _ _ hd]; exact (h d).1

/-- The slave's answer: what stands on the pins, what leaves, and its event (R181, Table 6.9). -/
theorem slaveAnswer_seg (g : Seg) (a : Nat) (bs : List Byte) (s : State) :
    (slaveAnswer g a bs s).seg[g] = { s.seg[g] with
      pins := { s.seg[g].pins with dtack := a == 0, berr := a != 0, retry := a == 2, groupR := true } } := by
  have h1 : ∀ t : State, t.seg = s.seg → (Machine.modSeg g (fun x => { x with pins := { x.pins with
    dtack := a == 0, berr := a != 0, retry := a == 2, groupR := true } }) t).seg[g] = { s.seg[g] with
      pins := { s.seg[g].pins with dtack := a == 0, berr := a != 0, retry := a == 2, groupR := true } } := fun t ht => by
    rw [modSeg_self, ht]
  unfold slaveAnswer; dsimp only
  (repeat' split) <;> exact h1 _ rfl

theorem slaveAnswer_out (g : Seg) (a : Nat) (bs : List Byte) (s : State) :
    (slaveAnswer g a bs s).out = s.out ++ [.slave g a bs] := by unfold slaveAnswer; dsimp only; (repeat' split) <;> rfl

theorem slaveAnswer_occurs {g : Seg} {a : Nat} (bs : List Byte) (s : State) (h : a = 1 ∨ a = 2) :
    ∃ o ∈ (slaveAnswer g a bs s).evh.occ, o.ev = segEv g (a + 3) := by
  rcases h with rfl | rfl
  · exact raise_mem _ _
  · exact raise_mem _ _

theorem slaveAnswer_crl (g : Seg) (a : Nat) (bs : List Byte) (s : State) : (slaveAnswer g a bs s).crl = s.crl := by
  unfold slaveAnswer; dsimp only; (repeat' split) <;> rfl

theorem slaveAnswer_grows (g : Seg) (a : Nat) (bs : List Byte) (s : State) : Grows s (slaveAnswer g a bs s) := by
  unfold slaveAnswer; dsimp only
  split
  · exact raise_grows _ _
  · split
    · exact raise_grows _ _
    · exact Grows.refl _

/-- A command that ends with a slave's BERR* or RETRY* is answered, and sets its event. -/
theorem refused_completes {g : Seg} {a : Nat} {s t : State} (ha : a = 1 ∨ a = 2) (hw : SegWork g (cleared s) t) (hi : t.img = s.img)
    (hb : s.pwr.boot ≠ .inReset) :
    SegOnly g s (settle (slaveAnswer g a [] t)) ∧ (settle (slaveAnswer g a [] t)).regs = s.regs ∧
      .slave g a [] ∈ (settle (slaveAnswer g a [] t)).out ∧ EventSet (settle (slaveAnswer g a [] t)) (segEv g (a + 3)) := by
  have hx := hw.slaveAnswer a []
  obtain ⟨h1, h2⟩ := hx.segOnly_img (by simpa using hi)
  refine ⟨h1, h2, settle_out ?_, event_seen (segEv_page g (a + 3) (by omega)) ?_ (slaveAnswer_occurs [] t ha)⟩
  · rw [slaveAnswer_out]; exact List.mem_append_right _ (List.mem_singleton.2 rfl)
  · rw [hx.pwr]; exact hb

/-- An answer leaves the slaves as free as they were. -/
theorem SlavesFree.slaveAnswer {s : State} (h : SlavesFree s) (g : Seg) (a : Nat) (bs : List Byte) : SlavesFree (slaveAnswer g a bs s) := by
  refine h.congr (fun d => ?_) fun d => ?_
  · by_cases hd : d = g
    · subst hd; rw [slaveAnswer_seg]; exact (h d).1
    · rw [((SegWork.refl g s).slaveAnswer a bs).2 d hd]; exact (h d).1
  · unfold slaveList listPkts; rw [slaveAnswer_crl]

/-- DTACK* with data is a step of the bus alone. -/
theorem slaveAnswer_dtack (g : Seg) (bs : List Byte) (s : State) :
    slaveAnswer g 0 bs s = modSeg g (fun x => { x with pins := { x.pins with
      dtack := true, berr := false, retry := false, groupR := true } }) (emit (.slave g 0 bs) s) := rfl

/-- What a granted claim leaves. -/
theorem claim_taken {q n : Nat} {s : State} (hp : PtrsGood s) (hc : claimOk s.crl q n = true) :
    ∃ cells s1, claim q n s = some (cells, s1) ∧ HubOnly s s1 ∧ PtrsGood s1 ∧ (∀ j, listPkts s1 j = listPkts s j) ∧
      ∀ j, resetNow s1.crl j = resetNow s.crl j := by
  obtain ⟨cells, s1, hclaim, hub, hp1, hl, hr⟩ := claim_filled hp hc []
  have hub1 := congrArg (fun y : State => { y with crl := s1.crl }) hub
  exact ⟨cells, s1, hclaim, hub1, hp1, hl, hr⟩

/-! A beat on the pins -/

/-- While no memory word is in error, the words of a beat are read as stored. -/
theorem readBeat_clean {s : State} (h : s.tap.ecc = []) (e : Eng) : readBeat e s = s ∧ beatBad s e = false := by
  have meets : ∀ ws : List Nat, meetWords ws s = s := by
    intro ws; unfold meetWords
    induction ws with
    | nil => rfl
    | cons w ws ih => rw [List.foldl_cons, show readEcc 6 w (w + 1) s = s by unfold readEcc; rw [h]; rfl]; exact ih
  refine ⟨meets _, ?_⟩
  unfold beatBad wordsBad uncorrIn; rw [h]; simp

/-- Engine `e` drives the beat it stands at, of cycle `c`. -/
def shown (g : Seg) (e : Eng) (c : CycS) (s : State) : State :=
  modSeg g (fun x => { x with eng := some e, pins := drivePins (patOf e.acc.patE) e c (freeVal s).toNat x.pins }) s

theorem shown_seg (g : Seg) (e : Eng) (c : CycS) (s : State) :
    (∀ h, h ≠ g → (shown g e c s).seg[h] = s.seg[h]) ∧
      (shown g e c s).seg[g] = { s.seg[g] with
        eng := some e, pins := drivePins (patOf e.acc.patE) e c (freeVal s).toNat s.seg[g].pins } := by
  unfold shown
  exact ⟨fun h hne => modSeg_other _ _ _ _ hne, modSeg_self _ _ _⟩

theorem showEng_shown {g : Seg} {e : Eng} {c : CycS} {cs : List CycS} {s : State} (ht : e.todo = c :: cs) :
    ∃ n, showEng g e (modSeg g (fun x => { x with eng := some e }) s) = { shown g e c s with freeCount := n } := by
  have hs : modSeg g (fun x => { x with pins := drivePins (patOf e.acc.patE) e c (freeVal s).toNat x.pins })
      (modSeg g (fun x => { x with eng := some e }) s) = shown g e c s := by
    unfold shown modSeg; dsimp only
    rw [show ∀ a b : SegS, (s.seg.set g a).set g b = s.seg.set g b from fun a b => by simp]
    simp
  unfold showEng; rw [ht]; dsimp only
  rw [show freeVal (modSeg g (fun x => { x with eng := some e }) s) = freeVal s from rfl, hs]
  split
  · exact ⟨_, rfl⟩
  · exact ⟨s.freeCount, rfl⟩

/-- While no memory word is in error, the engine drives its beat. -/
theorem driveBeat_shown {g : Seg} {e : Eng} {c : CycS} {cs : List CycS} {s : State} (hecc : s.tap.ecc = []) (ht : e.todo = c :: cs) :
    ∃ n, driveBeat g e s = { shown g e c s with freeCount := n } := by
  obtain ⟨hread, hbad⟩ := readBeat_clean hecc e
  unfold driveBeat; dsimp only
  rw [hread, hbad]; exact showEng_shown ht

end Sys2Proof.Machine
end

section
/-!
SUPPORT. A held burst (R174): it goes on, or is truncated and its remainder issued (R175, R206).
-/

namespace Sys2Proof.Machine

open Sys2Proof

variable {s : State} {g : Seg} {e : Eng} {c : CycS} {cs : List CycS}

/-- The engine with the bytes that have arrived, its hold ended. -/
def resumed (s : State) (e : Eng) : Eng := { e with acc := { e.acc with data := present s e.acc }, hold := false }

theorem strobeHoldResume_goesOn (he : s.seg[g].eng = some e) (hh : e.hold = true) (ht : e.todo = c :: cs)
    (hb : beatPresent s (resumed s e) c e.beat = true) : strobeHoldResume g s = driveBeat g (resumed s e) s := by
  unfold strobeHoldResume; rw [he]
  change (match e.todo with
    | c :: _ => if e.hold && beatPresent s (resumed s e) c e.beat then driveBeat g (resumed s e) s else s
    | [] => s) = _
  rw [ht]; dsimp only
  rw [hh, hb]; rfl

theorem strobeHoldResume_waits (he : s.seg[g].eng = some e) (ht : e.todo = c :: cs)
    (hb : beatPresent s (resumed s e) c e.beat = false) : strobeHoldResume g s = s := by
  unfold strobeHoldResume; rw [he]
  change (match e.todo with
    | c :: _ => if e.hold && beatPresent s (resumed s e) c e.beat then driveBeat g (resumed s e) s else s
    | [] => s) = _
  rw [ht]; dsimp only
  rw [hb, Bool.and_false]; rfl

/-! Truncation -/

/-- A changed head leaves an empty list empty. -/
theorem modHead_empty {q : Nat} {f : Pkt → Pkt} {j : Nat} (h : listPkts s j = []) : listPkts (modHead q f s) j = [] := by
  unfold modHead; split
  · rename_i p ps hl
    have hj : j ≠ q := fun e => by rw [← e, h] at hl; cases hl
    rw [listPkts_setPkts_other hj]; exact h
  · exact h

theorem modHead_lists (q : Nat) (f : Pkt → Pkt) (s : State) : OtherLists q s (modHead q f s) := by
  unfold modHead; split
  · exact (OtherLists.refl q s).setPkts _
  · exact OtherLists.refl q s

theorem modHead_head {q : Nat} {f : Pkt → Pkt} {x : Pkt} {xs : List Pkt} (h : listPkts s q = x :: xs) :
    listPkts (modHead q f s) q = f x :: xs := by
  unfold modHead; rw [h]; exact listPkts_setPkts_same _ _ _

/-- The packet of the truncated write, marked at the head of its list; the engine has stopped. -/
def cutOff (g : Seg) (e : Eng) (s : State) : State :=
  modHead e.acc.queue (fun p => { p with trunc := true, cont := false, sent := sentSoFar e }) (engStop g s)

/-- A truncated burst, counted. -/
def truncated (g : Seg) (e : Eng) (s : State) : State :=
  tenureEnd g (raise (segEv g 3) (incReg (.ls g) 0x060 1 (cutOff g e s)))

theorem truncOp_cuts (he : s.seg[g].eng = some e) (hh : e.hold = true) : truncOp g s = truncated g e s := by
  unfold truncOp; rw [he]; exact if_pos hh

theorem truncated_regs (g : Seg) (e : Eng) (s : State) : (truncated g e s).regs = (incReg (.ls g) 0x060 1 s).regs := by
  have h : (cutOff g e s).regs = s.regs := by simp [cutOff]
  unfold truncated
  rw [show (tenureEnd g (raise (segEv g 3) (incReg (.ls g) 0x060 1 (cutOff g e s)))).regs = (incReg (.ls g) 0x060 1 (cutOff g e s)).regs by
    simp]
  unfold incReg setReg getReg; dsimp only; rw [h]

theorem truncated_seg (g : Seg) (e : Eng) (s : State) :
    (∀ h, h ≠ g → (truncated g e s).seg[h] = s.seg[h]) ∧ (truncated g e s).seg[g].eng = none ∧
      (truncated g e s).seg[g].pins = idlePins s.seg[g].pins ∧ (truncated g e s).seg[g].slvWait = s.seg[g].slvWait := by
  have hseg : (cutOff g e s).seg = (engStop g s).seg := by simp [cutOff]
  have hself : (cutOff g e s).seg[g] = { s.seg[g] with eng := none, ahead := none, pins := idlePins s.seg[g].pins } := by
    rw [hseg]; unfold engStop; rw [modSeg_self]
  refine ⟨fun h hne => ?_, ?_⟩
  · refine (modSeg_other _ _ _ _ hne).trans ?_
    show (cutOff g e s).seg[h] = _
    rw [hseg]; exact modSeg_other _ _ _ _ hne
  · unfold truncated tenureEnd; dsimp only
    rw [modSeg_self]
    show (cutOff g e s).seg[g].eng = _ ∧ (cutOff g e s).seg[g].pins = _ ∧ (cutOff g e s).seg[g].slvWait = _
    rw [hself]; exact ⟨rfl, rfl, rfl⟩

theorem truncated_crl (g : Seg) (e : Eng) (s : State) : (truncated g e s).crl = (cutOff g e s).crl := by simp [truncated]

theorem truncated_slaves (h : SlavesFree s) : SlavesFree (truncated g e s) := by
  obtain ⟨hother, -, -, hwait⟩ := truncated_seg g e s
  refine h.congr (fun d => ?_) fun d => ?_
  · by_cases hd : d = g
    · subst hd; rw [hwait]; exact (h d).1
    · rw [hother d hd]; exact (h d).1
  · have hl : listPkts (cutOff g e s) (14 + d.val) = [] := modHead_empty (s := engStop g s) (h d).2
    rw [(h d).2]; unfold slaveList listPkts at *
    rw [truncated_crl]; exact hl

/-- The list of the truncated write: its head is marked. -/
theorem truncated_list {x : Pkt} {xs : List Pkt} (h : listPkts s e.acc.queue = x :: xs) :
    listPkts (truncated g e s) e.acc.queue = { x with trunc := true, cont := false, sent := sentSoFar e } :: xs := by
  have hl : listPkts (cutOff g e s) e.acc.queue = _ := modHead_head (s := engStop g s) h
  unfold listPkts at *; rw [truncated_crl]; exact hl

theorem truncated_ptrs (h : PtrsGood s) : PtrsGood (truncated g e s) := by
  have hp : PtrsGood (cutOff g e s) := ((modHead_lists _ _ (engStop g s)) h).1
  unfold PtrsGood at *; rw [truncated_crl]; exact hp

theorem truncated_rest (g : Seg) (e : Eng) (s : State) : RestSame { s with seg := (truncated g e s).seg } (truncated g e s) := by
  refine (restSame_iff _ _).2 ⟨?_, ?_, ?_, ?_, ?_, ?_, portsBut_same ?_⟩ <;> simp [truncated, cutOff]

/-! The remainder (R175, R206) -/

theorem continueHead_none {q : Nat} (h : listPkts s q = []) : continueHead q s = s := by unfold continueHead; rw [h]

/-- An incomplete remainder waits, where its list cuts nothing through. -/
theorem continueHead_waits {q : Nat} {x : Pkt} {xs : List Pkt} (h : listPkts s q = x :: xs) (hx : x.eop = false)
    (ht : (getQ s.crl q).thresh = 0) : continueHead q s = s := by
  unfold continueHead; rw [h]; dsimp only
  refine if_neg ?_
  unfold cutAt; rw [hx, ht]; simp

/-- A complete remainder is issued. -/
theorem continueHead_issues {q : Nat} {x : Pkt} {xs : List Pkt} (h : listPkts s q = x :: xs) (hx : x.eop = true) (ht : x.trunc = true)
    (hc : x.cont = false) :
    listPkts (continueHead q s) q = { x with cont := true } :: xs ∧ OtherLists q s (continueHead q s) ∧
      (continueHead q s).seg = s.seg ∧ (continueHead q s).regs = s.regs ∧ (continueHead q s).lom = s.lom ∧ (continueHead q s).vot = s.vot ∧
      (continueHead q s).evh = s.evh := by
  let f : Pkt → Pkt := fun p => { p with cont := true }
  have hh : listPkts (modHead q f s) q = { x with cont := true } :: xs := modHead_head h
  have hl : OtherLists q s (modHead q f s) := modHead_lists _ _ _
  have he : continueHead q s = modHead q f s ∨ ∃ a, continueHead q s = putFlags a fCONT 0 (modHead q f s) := by
    unfold continueHead; rw [h]; dsimp only
    rw [ht, hc, hx]
    by_cases h0 : (patOf x.patE).rlen = 0
    · exact .inl (if_pos h0)
    · exact .inr ⟨_, if_neg h0⟩
  rcases he with he | ⟨a, he⟩ <;> rw [he]
  · exact ⟨hh, hl, by simp, by simp, by simp, by simp, by simp⟩
  · exact ⟨hh, hl.trans (.of_crl rfl), by simp, by simp, by simp, by simp, by simp⟩

end Sys2Proof.Machine

open Sys2Proof Sys2Proof.Machine

/-- Settles O37: a held burst drives its next beat or is cut off with its packet marked; the remainder at the head is issued once it is
complete. -/
theorem strobeHold : Obligations.StrobeHold := by
  unfold Obligations.StrobeHold
  rintro g s ⟨hdel, hboot, hnq, -, hecc, hgood⟩
  obtain ⟨-, -, -, -, -, hfree, -⟩ := hnq
  have hgoodc : PtrsGood (cleared s) := hgood.ptrs
  refine ⟨fun e c cs he hh ht => ⟨fun hb => ?resume, fun hb => ?wait, ?trunc⟩, fun x xs hfwd hrem htr hco => ⟨fun hx => ?issue, fun hx hth => ?later⟩⟩
  case resume =>
    obtain ⟨n, hshow⟩ := driveBeat_shown (g := g) (e := resumed s e) (s := cleared s) hecc ht
    have hslaves : SlavesFree (shown g (resumed s e) c (cleared s)) := SlavesFree.modSeg (s := cleared s) hfree (hfree g).1
    have hx := exec_run (c := .strobeHoldResume g) (fun s => endPump (strobeHoldResume g s)) rfl ((congrArg endPump
      ((strobeHoldResume_goesOn (s := cleared s) he hh ht hb).trans hshow)).trans (endPump_idle _ hslaves))
    obtain ⟨hother, hself⟩ := shown_seg g (resumed s e) c (cleared s)
    exact completes_quiet hx hdel ⟨⟨rfl, hother⟩, congrArg SegS.eng hself⟩
  case wait =>
    have hx := exec_run (c := .strobeHoldResume g) (fun s => endPump (strobeHoldResume g s)) rfl ((congrArg endPump
      (strobeHoldResume_waits (s := cleared s) he ht hb)).trans (endPump_idle _ hfree))
    exact completes_quiet hx hdel rfl
  case trunc =>
    have hx := exec_run (c := .trunc g) (fun s => endPump (truncOp g s)) rfl ((congrArg endPump
      (truncOp_cuts (s := cleared s) he hh)).trans (endPump_idle _ (truncated_slaves (s := cleared s) hfree)))
    have hregs := (settle_regs _).trans (truncated_regs g e (cleared s))
    obtain ⟨hother, heng, hpins, -⟩ := truncated_seg g e (cleared s)
    refine completes_settle hx ⟨⟨?_, fun h hne => ?_⟩, ?_, ?_, ?_, ?_, ?_, fun hq x xs hl => ?_⟩
    · rw [settled_seg]; exact restSame_settle (truncated_rest g e (cleared s))
    · rw [settled_seg]; exact hother h hne
    · exact otherRegs_congr (counted_other (.ls g) 0x060 s) rfl hregs
    · rw [getReg_congr hregs]; exact getReg_incReg _ _ _ _
    · refine event_seen (segEv_page g 3 (by decide)) ?_ (raise_mem _ _)
      rw [show (truncated g e (cleared s)).pwr = s.pwr by simp [truncated, cutOff], hboot]; decide
    · rw [settled_seg]; exact heng
    · rw [settled_seg]; exact hpins
    · rw [settle_lists (truncated_ptrs hgoodc) (by omega)]; exact truncated_list hl
  case issue =>
    obtain ⟨hhead, hl, hseg, hregs, hlom, hvot, hevh⟩ := continueHead_issues (s := cleared s) hrem hx htr hco
    obtain ⟨-, hlists⟩ := hl hgoodc
    have hfwd2 : listPkts (continueHead (remQ g) (cleared s)) (fwdQ g) = [] :=
      (hlists _ (by unfold fwdQ remQ; omega)).trans hfwd
    have hx := exec_run (c := .continuedIssue g) (continuedIssue g) rfl (continueHead_none hfwd2)
    exact completes_quiet hx (by unfold Delivered; rw [hevh]; exact hdel) ⟨hhead, hseg, hregs, hlom, hvot⟩
  case later =>
    have hwait : continueHead (remQ g) (cleared s) = cleared s := continueHead_waits (s := cleared s) hrem hx hth
    have hx := exec_run (c := .continuedIssue g) (s := s) (continuedIssue g) rfl
      ((congrArg (continueHead (fwdQ g)) hwait).trans (continueHead_none (s := cleared s) hfwd))
    exact completes_quiet hx hdel rfl
end

section
/-!
SUPPORT. Accesses to an image window (R177, R178): the bytes of the image outside the record's header and the access stay, and what the window
answers.
-/

namespace Sys2Proof.Machine

open Sys2Proof

/-! Bytes of the image -/

/-- A run of bytes is what stands at its addresses. -/
theorem mgetList_congr {α : Type} {d : α} {m1 m2 : SMap α} {k n : Nat} (h : ∀ i, i < n → mget d m1 (k + i) = mget d m2 (k + i)) :
    mgetList d m1 k n = mgetList d m2 k n := by
  induction n generalizing k with
  | zero => rfl
  | succ n ih =>
    unfold mgetList
    rw [show mget d m1 k = mget d m2 k from h 0 (by omega), ih fun i hi => ?_]
    have := h (i + 1) (by omega)
    rwa [show k + (i + 1) = k + 1 + i by omega] at this

theorem bytesLE_len (n v : Nat) : (bytesLE n v).length = n := by
  induction n generalizing v with
  | zero => rfl
  | succ n ih => exact congrArg (· + 1) (ih (v / 256))

theorem putImg_outside {off a : Nat} {bs : List Byte} (s : State) (h : a < off ∨ off + bs.length ≤ a) :
    mget 0 (putImg off bs s).img.mem a = mget 0 s.img.mem a := mget_msetList_out _ _ _ _ _ h

theorem putFlags_outside {h : Nat} (x y : Nat) {a : Nat} (s : State) (ha : a < h ∨ h + 8 ≤ a) :
    mget 0 (putFlags h x y s).img.mem a = mget 0 s.img.mem a := putImg_outside s (by rw [bytesLE_len]; exact ha)

/-- A change that puts bytes into the header at `h` alone. -/
def HeaderOnly (g : Seg) (h : Nat) (s t : State) : Prop :=
  SegWork g s t ∧ ∀ a, (a < h ∨ h + 8 ≤ a) → mget 0 t.img.mem a = mget 0 s.img.mem a

namespace HeaderOnly

variable {g : Seg} {h : Nat} {s t : State}

theorem refl (g : Seg) (h : Nat) (s : State) : HeaderOnly g h s s := ⟨.refl g s, fun _ _ => rfl⟩

theorem header (w : HeaderOnly g h s t) {bs : List Byte} (hl : bs.length = 8) : HeaderOnly g h s (putImg h bs t) :=
  ⟨w.1.trans (.of_parts rfl), fun a ha => (putImg_outside t (by rw [hl]; exact ha)).trans (w.2 a ha)⟩

theorem flags (w : HeaderOnly g h s t) (x y : Nat) : HeaderOnly g h s (putFlags h x y t) := w.header (bytesLE_len _ _)

theorem modSeg (w : HeaderOnly g h s t) (f : SegS → SegS) : HeaderOnly g h s (modSeg g f t) := ⟨w.1.modSeg f, w.2⟩

end HeaderOnly

/-- The accepted beat marks the record's header alone (R178). -/
theorem incompleteUpdate_header (g : Seg) (j h rlen b n : Nat) (s : State) : HeaderOnly g h s (incompleteUpdate g j h rlen b n s) := by
  unfold incompleteUpdate; extract_lets next next1 s1 s2
  have h1 : HeaderOnly g h s s1 := by
    unfold s1; split
    · exact (HeaderOnly.refl g h s).flags _ _
    · exact .refl g h s
  have h2 : HeaderOnly g h s s2 := h1.modSeg _
  split
  · exact h2.header (bytesLE_len _ _)
  · exact h2

/-! The window (R177) -/

section
variable {g : Seg} {c : SlaveCyc} {s : State} {j h rlen : Nat} {v : Win} {data : List Byte}
  (hw : winFind s g c = some (j, v)) (hr : winRecord s v = some (h, rlen)) (hf : v.fwd = false) (hbo : s.pwr.brownout = false)
include hw hr hf hbo

/-- A beat within the record whose cell is granted. -/
theorem imageWrite_accepts {cells : List Nat} {s1 : State} (ha : v.areaOut = false) (hl : c.addr.toNat - v.base + data.length ≤ rlen)
    (hc : claim (14 + g.val) 1 s = some (cells, s1)) :
    imageWrite g c data s = slaveAnswer g 0 [] (releaseCells (14 + g.val) cells (incompleteUpdate g j h rlen (c.addr.toNat - v.base) data.length
      (putImg (h + 8 + (c.addr.toNat - v.base)) data { s1 with crl := { s1.crl with cell := fillCells cells data s1.crl.cell } }))) := by
  unfold imageWrite; rw [hw]; dsimp only
  rw [hf, hbo, if_neg Bool.false_ne_true, if_neg Bool.false_ne_true, hr]; dsimp only
  rw [ha, decide_eq_false (Nat.not_lt.2 hl), if_neg (by decide), hc]

/-- A beat within the record that finds no cell. -/
theorem imageWrite_holds (ha : v.areaOut = false) (hl : c.addr.toNat - v.base + data.length ≤ rlen) (hc : claim (14 + g.val) 1 s = none) :
    imageWrite g c data s = slaveHold g c data false s := by
  unfold imageWrite; rw [hw]; dsimp only
  rw [hf, hbo, if_neg Bool.false_ne_true, if_neg Bool.false_ne_true, hr]; dsimp only
  rw [ha, decide_eq_false (Nat.not_lt.2 hl), if_neg (by decide), hc]

/-- A write to an output record, or outside the record. -/
theorem imageWrite_refuses (hl : v.areaOut = true ∨ rlen < c.addr.toNat - v.base + data.length) :
    imageWrite g c data s = slaveAnswer g 1 [] s := by
  unfold imageWrite; rw [hw]; dsimp only
  rw [hf, hbo, if_neg Bool.false_ne_true, if_neg Bool.false_ne_true, hr]; dsimp only
  refine if_pos ?_
  rw [Bool.or_eq_true, decide_eq_true_eq]; exact hl

/-- A read within the record. -/
theorem imageRead_answers (he : s.tap.ecc = []) (ha : v.areaOut = false) (hl : c.addr.toNat - v.base + c.size ≤ rlen) :
    imageRead g c s = slaveAnswer g 0 (imgBytes s (h + 8 + (c.addr.toNat - v.base)) c.size) (turnD g s) := by
  unfold imageRead; rw [hw]; dsimp only
  rw [hf, if_neg Bool.false_ne_true, show (turnD g s).pwr.brownout = false from hbo, if_neg Bool.false_ne_true,
    show winRecord (turnD g s) v = _ from hr]; dsimp only
  rw [if_neg (Nat.not_lt.2 hl), ha, Bool.false_and, if_neg Bool.false_ne_true, imgMeet_clean (s := turnD g s) he]; rfl

/-- A read outside the record. -/
theorem imageRead_refuses (hl : rlen < c.addr.toNat - v.base + c.size) : imageRead g c s = slaveAnswer g 1 [] (turnD g s) := by
  unfold imageRead; rw [hw]; dsimp only
  rw [hf, if_neg Bool.false_ne_true, show (turnD g s).pwr.brownout = false from hbo, if_neg Bool.false_ne_true,
    show winRecord (turnD g s) v = _ from hr]; dsimp only
  exact if_pos hl

end

/-- What an accepted beat leaves: its bytes in the record, and the rest of the image but the header (R178). -/
theorem imageWrite_stores {g : Seg} {j h rlen b : Nat} {data : List Byte} {cells : List Nat} {s u x : State} (hu : HubOnly s u)
    (hx : slaveAnswer g 0 [] (releaseCells (14 + g.val) cells (incompleteUpdate g j h rlen b data.length (putImg (h + 8 + b) data u))) = x) :
    SegWork g s x ∧ imgBytes x (h + 8 + b) data.length = data ∧
      ∀ a, (a < h ∨ h + 8 ≤ a) → (a < h + 8 + b ∨ h + 8 + b + data.length ≤ a) → mget 0 x.img.mem a = mget 0 s.img.mem a := by
  obtain ⟨hwork, hmem⟩ := incompleteUpdate_header g j h rlen b data.length (putImg (h + 8 + b) data u)
  have himg : x.img = (incompleteUpdate g j h rlen b data.length (putImg (h + 8 + b) data u)).img := by rw [← hx]; simp
  have hui : u.img = s.img := by unfold HubOnly at hu; rw [hu]
  refine ⟨?_, ?_, fun a h1 h2 => ?_⟩
  · rw [← hx]
    exact (((((SegWork.refl g s).hub hu).trans (.of_parts rfl)).trans hwork).trans (.of_parts rfl)).slaveAnswer 0 []
  · have hin : ∀ i, i < data.length → mget 0 x.img.mem (h + 8 + b + i) = mget 0 (msetList 0 (h + 8 + b) data u.img.mem) (h + 8 + b + i) :=
      fun i _ => by rw [himg, hmem _ (by omega)]; rfl
    exact (mgetList_congr hin).trans (mgetList_msetList _ _ _ _)
  · rw [himg, hmem a h1, putImg_outside u h2, hui]

/-! Time-out, CR/CSR space and pins (R181, R182, R188) -/

/-- A beat that has waited for its cell is answered late. -/
theorem slaveClaimTimeout_answers {g : Seg} {w : SlvWait} {b : Bool} {s : State} (hw : s.seg[g].slvWait = some w) (hb : w.begun = false)
    (hcfg : bitAt s.seg[g].slvCfg 4 = b) :
    slaveClaimTimeout g w.cyc s = slaveAnswer g (if b then 2 else 1) []
      (modSeg g (fun x => { x with slvWait := none, waitRead := if w.cyc.write then x.waitRead else none }) s) := by
  unfold slaveClaimTimeout; rw [hw]; dsimp only
  rw [if_pos rfl, hb, if_neg Bool.false_ne_true]
  unfold lateAnswer; rw [modSeg_self, hcfg]

theorem crcsrOp_reads {g : Seg} {off : Nat} {s : State} (h1 : slaveOn s g = true) (h2 : crcsrAct s g = true) (hb : s.pwr.brownout = false) :
    crcsrOp g false off s = slaveAnswer g 0 [if off < 0x4000 ∧ off % 4 = 3 then crByte s.lom.act g (off / 4) else 0] (turnD g s) := by
  unfold crcsrOp; rw [h1, h2, hb]; rfl

theorem crcsrOp_refuses {g : Seg} {off : Nat} {s : State} (h1 : slaveOn s g = true) (h2 : crcsrAct s g = true) (hb : s.pwr.brownout = false) :
    crcsrOp g true off s = slaveAnswer g 1 [] s := by unfold crcsrOp; rw [h1, h2, hb]; rfl

/-- The low geographic pins are the bits at 0. -/
theorem gaParOk_pins (g : Seg) (pins : BitVec 6) (s : State) :
    gaParOk (modSeg g (fun x => { x with gaPins := pins.toNat }) s) g =
      (((List.range 6).filter fun i => pins.getLsbD i == false).length % 2 == 1) := by
  have hbit : ∀ i, (bitsOf pins.toNat i i == 0) = (pins.getLsbD i == false) := fun i => by
    have h1 : bitsOf pins.toNat i i = pins.toNat / 2 ^ i % 2 := by unfold bitsOf; simp [Nat.shiftRight_eq_div_pow]
    have h2 : pins.getLsbD i = decide (pins.toNat / 2 ^ i % 2 = 1) := by
      rw [BitVec.getLsbD, Nat.testBit_eq_decide_div_mod_eq]
    rw [h1, h2]
    rcases Nat.mod_two_eq_zero_or_one (pins.toNat / 2 ^ i) with h | h <;> rw [h] <;> rfl
  unfold gaParOk; rw [modSeg_self]; dsimp only
  simp only [hbit]

theorem gaOp_good {g : Seg} {pins : BitVec 6} {s : State} (h : ((List.range 6).filter fun i => pins.getLsbD i == false).length % 2 = 1) :
    gaOp g pins.toNat s = modSeg g (fun x => { x with gaPins := pins.toNat }) s := by
  unfold gaOp; dsimp only; rw [gaParOk_pins, h]; rfl

theorem gaOp_bad {g : Seg} {pins : BitVec 6} {s : State} (h : ((List.range 6).filter fun i => pins.getLsbD i == false).length % 2 = 0) :
    gaOp g pins.toNat s = raise (segEv g 14) (modSeg g (fun x => { x with gaPins := pins.toNat }) s) := by
  unfold gaOp; dsimp only; rw [gaParOk_pins, h]; rfl

/-- The slaves are free once segment `g`, the one at which an access waits, has let it go. -/
theorem SlavesFree.freed {s : State} {g : Seg} {f : SegS → SegS} (h : SlavesFree { s with seg := s.seg.set g segInit })
    (hf : (f s.seg[g]).slvWait = none) : SlavesFree (Machine.modSeg g f s) := by
  refine h.congr (fun d => ?_) fun _ => rfl
  by_cases hd : d = g
  · subst hd; rw [modSeg_self]; exact hf
  · have hset : (s.seg.set g segInit)[d] = s.seg[d] := set_other _ _ _ _ hd
    rw [modSeg_other _ _ _ _ hd, ← hset]; exact (h d).1

end Sys2Proof.Machine

open Sys2Proof Sys2Proof.Machine

/-- Settles O39: each access completes as the lemma on its operation says; the frame is that of the segment's work, and the image changes in the
record alone. -/
theorem slaveAccesses : Obligations.SlaveAccesses := by
  unfold Obligations.SlaveAccesses
  intro g cyc s hdel hboot hbo hecc hgood
  have hreset : s.pwr.boot ≠ .inReset := by rw [hboot]; decide
  have hptrs : PtrsGood (cleared s) := hgood.ptrs
  have hnone : SegWork g (cleared s) (cleared s) := .refl g _
  have hturn : SegWork g (cleared s) (turnD g (cleared s)) := hnone.modSeg _
  refine ⟨fun j v h rlen hw hr hf => ⟨fun data ha hl => ⟨fun hc => ?stored, fun hc => ?held⟩, fun data hl => ?refused, fun hl ha => ?read,
    fun hl => ?unread⟩, fun w hw hb hslaves hlist => ?late, ?released, fun off hon hact => ⟨?crRead, ?crWrite⟩,
    fun pins => ⟨fun hp => ?gaGood, fun hp => ?gaBad⟩⟩
  case stored =>
    obtain ⟨cells, s1, hclaim, hub, -⟩ := claim_filled hptrs hc data
    have hx := exec_run (c := .imageWindowWrite g cyc data) (imageWrite g cyc data) rfl
      (imageWrite_accepts (s := cleared s) hw hr hf hbo ha hl hclaim)
    obtain ⟨hwork, hbytes, hmem⟩ := imageWrite_stores (g := g) hub rfl
    obtain ⟨hseg, hregs⟩ := hwork.segOnly
    refine completes_settle hx ⟨?_, hregs, settle_out ?_, ?_, ?_, fun a h1 h2 => ?_⟩
    · rw [settled_img]; exact hseg
    · rw [slaveAnswer_out]; exact List.mem_append_right _ (List.mem_singleton.2 rfl)
    · rw [settled_seg, slaveAnswer_seg]; rfl
    · unfold imgBytes at *; rw [settled_img]; exact hbytes
    · rw [settled_img]; exact hmem a h1 h2
  case held =>
    have hx := exec_run (c := .imageWindowWrite g cyc data) (imageWrite g cyc data) rfl
      (imageWrite_holds (s := cleared s) hw hr hf hbo ha hl (claim_refused hptrs hc))
    exact completes_quiet hx hdel ⟨segAlone_modSeg g _ s, modSeg_self _ _ _⟩
  case refused =>
    have hx := exec_run (c := .imageWindowWrite g cyc data) (imageWrite g cyc data) rfl
      (imageWrite_refuses (s := cleared s) hw hr hf hbo hl)
    exact completes_settle hx (refused_completes (.inl rfl) hnone rfl hreset)
  case read =>
    have hx := exec_run (c := .imageWindowRead g cyc) (imageRead g cyc) rfl
      (imageRead_answers (s := cleared s) hw hr hf hbo hecc ha hl)
    refine completes_quiet hx hdel ⟨⟨rfl, ?_⟩, rfl, ?_, ?_⟩
    · exact (hturn.slaveAnswer 0 _).2
    · rw [slaveAnswer_seg]; rfl
    · rw [slaveAnswer_seg]; unfold turnD; rw [modSeg_self]
  case unread =>
    have hx := exec_run (c := .imageWindowRead g cyc) (imageRead g cyc) rfl (imageRead_refuses (s := cleared s) hw hr hf hbo hl)
    exact completes_settle hx (refused_completes (.inl rfl) hturn rfl hreset)
  case late =>
    let gone : SegS → SegS := fun x => { x with slvWait := none, waitRead := if w.cyc.write then x.waitRead else none }
    generalize hcfg : bitAt s.seg[g].slvCfg 4 = b
    have ha : (if b then 2 else 1) = 1 ∨ (if b then 2 else 1) = 2 := by cases b <;> decide
    have hfree : SlavesFree (slaveAnswer g (if b then 2 else 1) [] (modSeg g gone (cleared s))) :=
      (SlavesFree.freed (s := cleared s) (f := gone) hslaves rfl).slaveAnswer g _ []
    have hx := exec_run (c := .slaveClaimTimeout g w.cyc) (fun s => endPump (slaveClaimTimeout g w.cyc s)) rfl
      ((congrArg endPump (slaveClaimTimeout_answers (s := cleared s) hw hb hcfg)).trans (endPump_idle _ hfree))
    obtain ⟨hseg, hregs, hout, hev⟩ := refused_completes ha (hnone.modSeg gone) rfl hreset
    refine completes_settle hx ⟨hseg, hregs, ?_, ?_⟩
    · rw [settled_seg, slaveAnswer_seg, modSeg_self]
    · cases b
      · exact ⟨hout, hev⟩
      · exact ⟨hout, hev⟩
  case released =>
    have hx := exec_run (c := .slaveStrobeRelease g) (s := s) (strobeRelease g) rfl rfl
    refine completes_quiet hx hdel ⟨segAlone_modSeg g _ s, ?_⟩
    unfold strobeRelease; rw [modSeg_self]; exact ⟨rfl, rfl, rfl, rfl⟩
  case crRead =>
    have hx := exec_run (c := .crcsrAccess g false off) (crcsrOp g false off.toNat) rfl (crcsrOp_reads (s := cleared s) hon hact hbo)
    exact completes_quiet hx hdel ⟨⟨rfl, (hturn.slaveAnswer 0 _).2⟩, rfl⟩
  case crWrite =>
    have hx := exec_run (c := .crcsrAccess g true off) (crcsrOp g true off.toNat) rfl (crcsrOp_refuses (s := cleared s) hon hact hbo)
    exact completes_settle hx (refused_completes (.inl rfl) hnone rfl hreset)
  case gaGood =>
    have hx := exec_run (c := .gaErr g pins) (gaOp g pins.toNat) rfl (gaOp_good (s := cleared s) hp)
    exact completes_quiet hx hdel ⟨segAlone_modSeg g _ s, modSeg_self _ _ _⟩
  case gaBad =>
    have hx := exec_run (c := .gaErr g pins) (gaOp g pins.toNat) rfl (gaOp_bad (s := cleared s) hp)
    obtain ⟨hseg, hregs⟩ := ((hnone.modSeg fun x => { x with gaPins := pins.toNat }).raise (segEv g 14)).segOnly_img rfl
    refine completes_settle hx ⟨hseg, hregs, ?_, event_seen (segEv_page g 14 (by decide)) hreset (raise_mem _ _)⟩
    rw [settled_seg]; exact modSeg_self g (fun x => { x with gaPins := pins.toNat }) (cleared s)
end

section
/-!
SUPPORT. Interrupts of a segment (R185 to R187): the level's lowest event, one bit of the request lines, and the handler's acknowledge access.
-/

namespace Sys2Proof.Machine

open Sys2Proof

/-! One bit of a number -/

theorem bitsOf_testBit (w i : Nat) : bitsOf w i i = (w.testBit i).toNat := by
  unfold bitsOf
  rw [Nat.testBit_eq_decide_div_mod_eq, Nat.shiftRight_eq_div_pow, Nat.add_sub_cancel_left, Nat.pow_one]
  rcases Nat.mod_two_eq_zero_or_one (w / 2 ^ i) with h | h <;> rw [h] <;> rfl

/-- A bit that is cleared is 0. -/
theorem bitsOf_withBits_zero (w i : Nat) : bitsOf (withBits w i i 0) i i = 0 := by
  have hpow : 0 < 2 ^ i := by positivity
  unfold withBits bitsOf
  rw [Nat.add_sub_cancel_left, Nat.shiftRight_eq_div_pow, Nat.shiftRight_eq_div_pow, Nat.pow_one, Nat.zero_mod, Nat.zero_mul, Nat.add_zero,
    Nat.mul_comm (w / 2 ^ i % 2), Nat.sub_mul_div]
  omega

theorem bitsOf_setBit_same (w i : Nat) : bitsOf (w ||| 2 ^ i) i i = 1 := by
  rw [bitsOf_testBit, Nat.testBit_or, Nat.testBit_two_pow_self, Bool.or_true]; rfl

theorem bitsOf_setBit_other {i j : Nat} (w : Nat) (h : i ≠ j) : bitsOf (w ||| 2 ^ i) j j = bitsOf w j j := by
  rw [bitsOf_testBit, bitsOf_testBit, Nat.testBit_or, Nat.testBit_two_pow_of_ne h, Bool.or_false]

/-! Acknowledge cycles (R186) -/

/-- A fold for the least number finds it. -/
theorem foldl_least {m : Nat} (l : List Nat) (a : Nat) (hm : m = a ∨ m ∈ l) (ha : m ≤ a) (hl : ∀ x ∈ l, m ≤ x) :
    l.foldl (fun a b => match a with | some x => some (min x b) | none => some b) (some a) = some m := by
  induction l generalizing a with
  | nil => rw [hm.resolve_right (List.not_mem_nil)]; rfl
  | cons b l ih =>
    have hb : m ≤ b := hl b List.mem_cons_self
    refine ih (min a b) ?_ (Nat.le_min.2 ⟨ha, hb⟩) fun x hx => hl x (List.mem_cons_of_mem _ hx)
    rcases hm with rfl | hm
    · exact .inl (Nat.min_eq_left hb).symm
    · rcases List.mem_cons.1 hm with rfl | hm
      · exact .inl (Nat.min_eq_right ha).symm
      · exact .inr hm

theorem leastEv_least {l : List Nat} {ev : Nat} (hm : ev ∈ l) (hl : ∀ x ∈ l, ev ≤ x) : leastEv l = some ev := by
  cases l with
  | nil => cases hm
  | cons a l =>
    exact foldl_least l a (List.mem_cons.1 hm) (hl a List.mem_cons_self) fun x hx => hl x (List.mem_cons_of_mem _ hx)

/-- The events that are pending at a level. -/
theorem mem_levelEvents {s : State} {g level ev : Nat} : ev ∈ levelEvents s g level ↔ (g, level, ev) ∈ s.evh.levels := by
  unfold levelEvents
  simp only [List.mem_map, List.mem_filter, Bool.and_eq_true, beq_iff_eq, Prod.exists]
  constructor
  · rintro ⟨a, b, c, ⟨h, rfl, rfl⟩, rfl⟩; exact h
  · exact fun h => ⟨g, level, ev, ⟨h, rfl, rfl⟩, rfl⟩

section
variable {g : Seg} {level : Nat} {s : State}

/-- The parts of a segment that masters. -/
theorem masterOk_parts (h : masterOk s g = true) : segAvail s g = true ∧ s.seg[g].sysresetLow = false ∧ s.pwr.st = .run := by
  unfold masterOk at h
  have ha : segAvail s g = true := (Bool.and_eq_true _ _ ▸ h).1
  refine ⟨ha, ?_⟩
  unfold segAvail at ha
  simp only [Bool.and_eq_true, Bool.not_eq_true', beq_iff_eq] at ha
  exact ⟨ha.1.2, ha.2⟩

/-- What an acknowledge cycle of another board meets, while the segment drives no cycle. -/
theorem iackOp_idle (hm : masterOk s g = true) (he : s.seg[g].eng = none) (w : Nat) :
    iackOp g level w s =
      if levelOwn s g level then
        match leastEv (levelEvents s g.val level) with
        | some ev => slaveAnswer g 0 ((bytesLE (2 ^ w) ev).reverse) (turnD g (dropLevel g.val level ev s))
        | none => slaveAnswer g 0 ((bytesLE (2 ^ w) (getFld s (.ls g) 0x068 7 0)).reverse)
            (turnD g (modSeg g (fun x => { x with swPend := withBits x.swPend level level 0 }) s))
      else emit (.iackOut g level) s := by
  obtain ⟨ha, -, hst⟩ := masterOk_parts hm
  unfold iackOp; rw [hst, he, ha]; rfl

/-- The level's lowest event is answered. -/
theorem iackOp_event (hm : masterOk s g = true) (he : s.seg[g].eng = none) (w : Nat) {ev : Nat} (hev : (g.val, level, ev) ∈ s.evh.levels)
    (hl : ∀ x ∈ s.evh.levels, x.1 = g.val → x.2.1 = level → ev ≤ x.2.2) :
    iackOp g level w s = slaveAnswer g 0 ((bytesLE (2 ^ w) ev).reverse) (turnD g (dropLevel g.val level ev s)) := by
  have hmem := mem_levelEvents.2 hev
  have hne : (levelEvents s g.val level).isEmpty = false := by
    cases h : levelEvents s g.val level with
    | nil => rw [h] at hmem; cases hmem
    | cons => rfl
  have hown : levelOwn s g level = true := by
    unfold levelOwn; rw [hne, (masterOk_parts hm).2.2]; rfl
  rw [iackOp_idle hm he, if_pos hown, leastEv_least hmem fun x hx => hl _ (mem_levelEvents.1 hx) rfl rfl]

theorem levelEvents_none (h : ∀ x ∈ s.evh.levels, x.1 = g.val → x.2.1 ≠ level) : levelEvents s g.val level = [] :=
  List.eq_nil_iff_forall_not_mem.2 fun _ hev => h _ (mem_levelEvents.1 hev) rfl rfl

/-- Without an event, the software request is answered. -/
theorem iackOp_software (hm : masterOk s g = true) (he : s.seg[g].eng = none) (w : Nat)
    (hl : ∀ x ∈ s.evh.levels, x.1 = g.val → x.2.1 ≠ level) (hsw : swAt s g level = true) :
    iackOp g level w s = slaveAnswer g 0 ((bytesLE (2 ^ w) (getFld s (.ls g) 0x068 7 0)).reverse)
      (turnD g (modSeg g (fun x => { x with swPend := withBits x.swPend level level 0 }) s)) := by
  have hown : levelOwn s g level = true := by unfold levelOwn; rw [hsw, (masterOk_parts hm).2.2, Bool.or_true]; rfl
  rw [iackOp_idle hm he, if_pos hown, levelEvents_none hl]; rfl

/-- With neither, the cycle is passed on. -/
theorem iackOp_passes (hm : masterOk s g = true) (he : s.seg[g].eng = none) (w : Nat)
    (hl : ∀ x ∈ s.evh.levels, x.1 = g.val → x.2.1 ≠ level) (hsw : swAt s g level = false) :
    iackOp g level w s = emit (.iackOut g level) s := by
  have hown : levelOwn s g level = false := by unfold levelOwn; rw [hsw, levelEvents_none hl]; simp
  rw [iackOp_idle hm he, hown]; rfl

/-! SYSFAIL* (R185) -/

theorem sysfailInOp_falls (h : sysfailOut s g = false) : sysfailInOp g s = raise (segEv g 7) s := by unfold sysfailInOp; rw [h]; rfl

theorem sysfailInOp_own (h : sysfailOut s g = true) : sysfailInOp g s = s := by unfold sysfailInOp; rw [h]; rfl

/-! IRQ_GEN (R186) -/

theorem plain_irqGen (g : Seg) : PlainReg (.ls g) 0x068 := by unfold PlainReg; fin_cases g <;> decide

theorem blockWrite_irqGen (r : Req) (page raw : Nat) (d : Word) (s : State) :
    blockWrite r (.ls g) page 0x068 raw d s = irqGenWrite g d s := rfl

theorem irqGenWrite_seg (g : Seg) (data : Word) (s : State) :
    (∀ h, h ≠ g → (irqGenWrite g data s).seg[h] = s.seg[h]) ∧
      (irqGenWrite g data s).seg[g].swPend =
        if !bitAt (getReg s (.ls g) 0x068) 31 && bitAt data 31 && decide (fieldOf data 18 16 ≠ 0)
        then s.seg[g].swPend ||| 2 ^ fieldOf data 18 16 else s.seg[g].swPend := by
  have hne : (fieldOf data 18 16 != 0) = decide (fieldOf data 18 16 ≠ 0) := by
    by_cases h : fieldOf data 18 16 = 0 <;> simp [h]
  unfold irqGenWrite; dsimp only
  rw [hne]
  split
  · exact ⟨fun h hh => modSeg_other _ _ _ _ hh, congrArg SegS.swPend (modSeg_self _ _ _)⟩
  · exact ⟨fun _ _ => rfl, rfl⟩

theorem irqGenWrite_regs (g : Seg) (data : Word) (s : State) :
    (irqGenWrite g data s).regs = (setReg (.ls g) 0x068 (data &&& 0x800700FF#32) s).regs := by
  unfold irqGenWrite; dsimp only; split <;> rfl

theorem irqGenWrite_rest (g : Seg) (data : Word) (s : State) : RestSame { s with seg := (irqGenWrite g data s).seg } (irqGenWrite g data s) := by
  refine (restSame_iff _ _).2 ⟨?_, ?_, ?_, ?_, ?_, ?_, portsBut_same ?_⟩ <;> simp

/-! The handler (R187) -/

/-- IRQ lines as the segment sees them with level `level` low. -/
def lineLow (g : Seg) (level : Nat) (s : State) : State := modSeg g (fun x => { x with irqIn := x.irqIn ||| 2 ^ level }) s

theorem lineLow_seg (g : Seg) (level : Nat) (s : State) :
    (lineLow g level s).seg[g] = { s.seg[g] with irqIn := s.seg[g].irqIn ||| 2 ^ level } := modSeg_self _ _ _

theorem levelOwn_lineLow (g : Seg) (level l : Nat) (s : State) : levelOwn (lineLow g level s) g l = levelOwn s g l := by
  unfold levelOwn swAt; rw [lineLow_seg]; rfl

/-- Another level is as servable as before. -/
theorem servable_other {l : Nat} (h : level ≠ l) : servable (lineLow g level s) g l = servable s g l := by
  unfold servable irqLow; rw [levelOwn_lineLow, lineLow_seg]
  dsimp only; rw [bitsOf_setBit_other _ h]; rfl

theorem servable_low {pat : Nat} (hp : handlerPat s g level = some pat) (hen : bitAt (getReg s (.ls g) 0x004) level = true)
    (hbusy : s.seg[g].hdlBusy = []) : servable (lineLow g level s) g level = true := by
  unfold servable irqLow; rw [lineLow_seg]
  dsimp only
  rw [bitsOf_setBit_same, hbusy, show handlerPat (lineLow g level s) g level = some pat from hp,
    show bitAt (getReg (lineLow g level s) (.ls g) 0x004) level = true from hen]; rfl

/-- The acknowledge access that the handler queues. -/
def iackPkt (g : Seg) (level pat : Nat) (cells : List Nat) (s : State) : Pkt :=
  fwdPkt g 18 pat (patEntry s.lom.act pat) 0 (patOf (patEntry s.lom.act pat)).w [] cells true (.handler g level) level

/-- The level is being served. -/
def serving (g : Seg) (level : Nat) (s : State) : State := modSeg g (fun x => { x with hdlBusy := x.hdlBusy ++ [level] }) s

/-- The highest level that may be served gets its acknowledge access. -/
theorem handlerServe_queues {pat : Nat} {cells : List Nat} {s1 : State} (hm : masterOk s g = true) (hecc : s.tap.ecc = [])
    (hgood : ListsGood s) (hp : handlerPat s g level = some pat) (hen : bitAt (getReg s (.ls g) 0x004) level = true)
    (hbusy : s.seg[g].hdlBusy = []) (hhigh : ∀ l, level < l → l < 8 → servable s g l = false)
    (hc : claim 18 1 (lineLow g level s) = some (cells, s1)) (hs1 : HubOnly (lineLow g level s) s1) :
    handlerServe g level s = pump (linkPkt (vapQ g) (iackPkt g level pat cells s) (serving g level s1)) := by
  obtain ⟨-, hlow, hst⟩ := masterOk_parts hm
  have hall : ((List.range 8).all fun l => decide (l ≤ level) || !servable (lineLow g level s) g l) = true := by
    rw [List.all_eq_true]; intro l hl
    rw [List.mem_range] at hl
    by_cases h : l ≤ level
    · rw [decide_eq_true h]; rfl
    · rw [servable_other (by omega), hhigh l (by omega) hl, Bool.not_false, Bool.or_true]
  have htap : s1.tap.ecc = [] := by unfold HubOnly at hs1; rw [hs1]; exact hecc
  have hlom : s1.lom = s.lom := by unfold HubOnly at hs1; rw [hs1]; rfl
  unfold handlerServe; extract_lets s0
  have e0 : s0 = lineLow g level s := rfl
  clear_value s0; subst e0
  rw [hst, hlow, if_neg (by decide), servable_low hp hen hbusy, hall, if_pos (by decide),
    show handlerPat (lineLow g level s) g level = some pat from hp, hgood.noReset, if_neg Bool.false_ne_true, hc]
  dsimp only
  rw [fetchBad_clean (s := lineLow g level s) hecc, if_neg Bool.false_ne_true, hlom]
  exact congrArg (fun t => pump (linkPkt (vapQ g) (iackPkt g level pat cells s) t)) (fetchPat_clean (s := serving g level s1) htap pat)

end

/-- A segment whose work grows keeps its bus settled. -/
theorem busSettled_grows {s t : State} {g : Seg} (hown : t.seg[g].owner = s.seg[g].owner) (hpins : t.seg[g].pins = s.seg[g].pins)
    (hctl : sysconAct t g = sysconAct s g) (hwork : hasWork s g = true → hasWork t g = true) (h : BusSettled s g) : BusSettled t g := by
  obtain ⟨h1, h2⟩ := h
  exact ⟨fun ho => hwork (h1 (by rw [← hown]; exact ho)), by rw [hctl, hpins]; exact h2⟩

/-- A pump after a packet has joined a segment's voted aperiodic work does nothing, where nothing else was queued. -/
theorem pump_vapJoined {g : Seg} {s u : State} {y : Pkt} (hq : NothingQueued s) (hm : ∀ d, masterOk s d = true) (hu : SegWork g s u)
    (hseg : u.seg[g].owner = s.seg[g].owner ∧ u.seg[g].pins = s.seg[g].pins ∧ u.seg[g].slvWait = none ∧
      u.seg[g].sysresetLow = s.seg[g].sysresetLow)
    (hp : PtrsGood u) (hl : ∀ j, listPkts u j = listPkts s j) :
    let t := linkPkt (vapQ g) y u
    endPump (pump t) = t ∧ PtrsGood t ∧ listPkts t (vapQ g) = listPkts s (vapQ g) ++ [y] ∧ SegWork g s t ∧ t.seg = u.seg ∧ t.img = u.img := by
  intro t
  obtain ⟨hopen, hwait, hleg, hr, hans, hs, hg⟩ := hq
  obtain ⟨hown, hpins, hslv, hlow⟩ := hseg
  have ht : HubOnly u t := by unfold HubOnly; rw [show t = _ from linkPkt_joins y (hp _)]
  have hst : SegWork g s t := hu.hub ht
  have htseg : t.seg = u.seg := by unfold HubOnly at ht; rw [ht]
  have htimg : t.img = u.img := by unfold HubOnly at ht; rw [ht]
  obtain ⟨hpt, hother⟩ := ((OtherLists.refl (vapQ g) u).linkPkt y) hp
  have hothers : ∀ j, j ≠ vapQ g → listPkts t j = listPkts s j := fun j hj => (hother j hj).trans (hl j)
  have hsame : listPkts t (vapQ g) = listPkts s (vapQ g) ++ [y] := (listPkts_linkPkt_same y hp).trans (by rw [hl])
  have hregs : ∀ d b, segCfg t d b = segCfg s d b := fun d b => segCfg_congr (getReg_congr (by rw [hst.1]) _ _) b
  have hctl : ∀ d, sysconAct t d = sysconAct s d := fun d => by unfold sysconAct; rw [hregs, hst.pwr]
  have hlists : 14 + g.val ≠ vapQ g ∧ 23 ≠ vapQ g := by unfold vapQ; omega
  have hbus : ∀ d, BusSettled t d := fun d => by
    by_cases hd : d = g
    · subst hd
      refine busSettled_grows (by rw [htseg]; exact hown) (by rw [htseg]; exact hpins) (hctl d) (fun _ => ?_) (hg d).2
      unfold hasWork; dsimp only; rw [hsame]; simp
    · have hsd : t.seg[d] = s.seg[d] := hst.2 d hd
      refine busSettled_grows (by rw [hsd]) (by rw [hsd]) (hctl d) (fun h => ?_) (hg d).2
      have hdv : d.val ≠ g.val := Fin.val_ne_of_ne hd
      unfold hasWork at *
      rw [hsd, hothers (vapQ d) (by unfold vapQ; omega), hothers (remQ d) (by unfold vapQ remQ; omega),
        hothers (fwdQ d) (by unfold vapQ fwdQ; omega)]
      exact h
  have hmt : ∀ d, masterOk t d = true := fun d => by
    have hsd : t.seg[d].sysresetLow = s.seg[d].sysresetLow := by
      by_cases hd : d = g
      · subst hd; rw [htseg]; exact hlow
      · rw [hst.2 d hd]
    have := hm d
    unfold masterOk segAvail at *
    rw [hregs, hregs, hsd, hst.pwr]; exact this
  have hmail : mailPump (voteUnit t) = t := by
    rw [voteUnit_idle (by rw [hst.1]; exact hopen) (by rw [hst.1]; exact hwait)]
    unfold mailPump; rw [show t.mnt.leg = none by rw [hst.1]; exact hleg]
  have hpump : pump t = t := pump_settled hmail ((hothers 23 hlists.2).trans hr) (by rw [hst.1]; exact hans)
    fun d => ⟨.inl (hmt d), hbus d⟩
  have hslaves : SlavesFree t := by
    refine hs.congr (fun d => ?_) fun d => hothers _ (by unfold vapQ; omega)
    by_cases hd : d = g
    · subst hd; rw [htseg]; exact hslv
    · rw [hst.2 d hd]; exact (hs d).1
  exact ⟨by rw [hpump, endPump_idle t hslaves], hpt, hsame, hst, htseg, htimg⟩

end Sys2Proof.Machine

open Sys2Proof Sys2Proof.Machine

/-- Settles O41: an acknowledge cycle, a software request, the handler and the two lines each complete as the lemma on their operation says. -/
theorem interrupts : Obligations.Interrupts := by
  unfold Obligations.Interrupts
  intro g level s hq he
  have hreset := hq.notInReset
  obtain ⟨hdel, hboot, hnq, hmaster, hecc, hgood⟩ := hq
  have hnone : SegWork g (cleared s) (cleared s) := .refl g _
  have hacts : ∀ f : State → State, outOfReset f (cleared s) = f (cleared s) := fun f => if_neg hreset
  refine ⟨fun width ev hev hlow => ?event, fun width hno => ⟨fun hsw => ?software, fun hsw => ?passed⟩, fun r data hc hw hp => ?request,
    fun pat hp hen hbusy hhigh hcl => ?handler, fun ho => ?sysfail, fun ho => ?own, ?acfail⟩
  case event =>
    have hx := exec_run (c := .iackCycle g level width) (iackOp g level.toNat width.val) rfl
      (iackOp_event (s := cleared s) (hmaster g) he width.val hev hlow)
    have hdrop : SegWork g (cleared s) (dropLevel g.val level.toNat ev (cleared s)) := .of_parts rfl
    have hwork := (hdrop.modSeg fun x => { x with pins := { x.pins with groupD := true } }).slaveAnswer 0 (bytesLE (2 ^ width.val) ev).reverse
    obtain ⟨hseg, hregs⟩ := hwork.segOnly_quiet rfl hdel
    exact completes_quiet hx hdel ⟨hseg, hregs, rfl, rfl⟩
  case software =>
    have hx := exec_run (c := .iackCycle g level width) (iackOp g level.toNat width.val) rfl
      (iackOp_software (s := cleared s) (hmaster g) he width.val hno hsw)
    refine completes_quiet hx hdel ⟨⟨rfl, ?_⟩, rfl, ?_⟩
    · exact (((hnone.modSeg _).modSeg _).slaveAnswer 0 _).2
    · unfold swAt; rw [slaveAnswer_seg]
      unfold turnD; rw [modSeg_self, modSeg_self]
      dsimp only; rw [bitsOf_withBits_zero]; rfl
  case passed =>
    have hx := exec_run (c := .iackCycle g level width) (iackOp g level.toNat width.val) rfl
      (iackOp_passes (s := cleared s) (hmaster g) he width.val hno hsw)
    exact completes_quiet hx hdel rfl
  case request =>
    have hx : exec (.irqGenAssert r g data) s = .next (settle (irqGenWrite g data (reached r s))) :=
      exec_run (bar0Write r (regAddr (.ls g) 0x068) true data) rfl
        ((bar0Write_block data hc hw hp (plain_irqGen g) (by decide) (by decide) (by decide)).trans (blockWrite_irqGen r _ _ data _))
    have hseg : (reached r s).seg = s.seg := by simp
    obtain ⟨hother, hpend⟩ := irqGenWrite_seg g data (reached r s)
    rw [hseg, getReg_reached] at hpend
    have hregs := irqGenWrite_regs g data (reached r s)
    refine completes_quiet hx ?_ ⟨⟨?_, fun h hne => ?_⟩, ?_, ?_, hpend⟩
    · have hevh : (irqGenWrite g data (reached r s)).evh = s.evh := by simp
      unfold Delivered; rw [hevh]; exact hdel
    · exact restSame_trans (restSame_seg (restSame_reached r s) _) (irqGenWrite_rest g data (reached r s))
    · rw [hother h hne, hseg]
    · exact otherRegs_congr (otherRegs_setReg (.ls g) 0x068 (data &&& 0x800700FF#32) s) rfl (hregs.trans (by simp [setReg]))
    · rw [getReg_congr hregs]; exact getReg_setReg _ _ _ _
  case handler =>
    have hgc : ListsGood (cleared s) := hgood
    obtain ⟨cells, s1, hclaim, hub, hp1, hl1, -⟩ := claim_taken (s := lineLow g level.toNat (cleared s)) hgood.ptrs hcl
    let u := serving g level.toNat s1
    have hs1 : s1.seg = (lineLow g level.toNat (cleared s)).seg := by unfold HubOnly at hub; rw [hub]
    have hi1 : s1.img = s.img := by unfold HubOnly at hub; rw [hub]; rfl
    have hu : SegWork g (cleared s) u := ((hnone.modSeg _).hub hub).modSeg _
    have hself : u.seg[g] = { s.seg[g] with
        irqIn := s.seg[g].irqIn ||| 2 ^ level.toNat, hdlBusy := s.seg[g].hdlBusy ++ [level.toNat] } := by
      refine (modSeg_self _ _ _).trans ?_
      rw [hs1, lineLow_seg]; rfl
    obtain ⟨-, -, -, -, -, hfree, -⟩ := id hnq
    obtain ⟨hidle, hpt, hlist, hwork, hseg, himg⟩ := pump_vapJoined (y := iackPkt g level.toNat pat cells (cleared s)) (s := cleared s) hnq hmaster hu
      (by rw [hself]; exact ⟨rfl, rfl, (hfree g).1, rfl⟩) hp1 hl1
    have hx := exec_run (c := .handlerServe g level) (fun s => endPump (handlerServe g level.toNat s)) rfl ((congrArg endPump
      (handlerServe_queues (s := cleared s) (hmaster g) hecc hgc hp hen hbusy hhigh hclaim hub)).trans hidle)
    obtain ⟨hsegOnly, hregs⟩ := hwork.segOnly_img (himg.trans hi1)
    refine completes_settle hx ⟨hsegOnly, hregs, ?_, iackPkt g level.toNat pat cells (cleared s), ?_, rfl, rfl, rfl⟩
    · rw [settled_seg, hseg, hself]; exact congrArg (· ++ [level.toNat]) hbusy
    · rw [settle_lists hpt (by unfold vapQ; omega), hlist]; exact List.mem_append_right _ (List.mem_singleton.2 rfl)
  case sysfail =>
    have hx := exec_run (c := .sysfailIn g) (outOfReset (sysfailInOp g)) rfl ((hacts _).trans (sysfailInOp_falls (s := cleared s) ho))
    obtain ⟨hrest, hregs⟩ := HubOnly.restSame (s := s) (t := raise (segEv g 7) (cleared s)) rfl
    exact completes_settle hx ⟨hrest, hregs, event_seen (segEv_page g 7 (by decide)) hreset (raise_mem _ _)⟩
  case own =>
    have hx := exec_run (c := .sysfailIn g) (outOfReset (sysfailInOp g)) rfl ((hacts _).trans (sysfailInOp_own (s := cleared s) ho))
    exact completes_quiet hx hdel rfl
  case acfail =>
    have hx := exec_run (c := .acfail g) (outOfReset (raise (segEv g 8))) rfl (hacts _)
    obtain ⟨hrest, hregs⟩ := HubOnly.restSame (s := s) (t := raise (segEv g 8) (cleared s)) rfl
    exact completes_settle hx ⟨hrest, hregs, event_seen (segEv_page g 8 (by decide)) hreset (raise_mem _ _)⟩
end

section
/-!
SUPPORT. A segment that masters nothing any more (R158, R159): its queued work fails, and through all of it an idle engine stays idle, a bus that
nobody owns stays free, and what has occurred stays.
-/

namespace Sys2Proof.Machine

open Sys2Proof

/-! Ownership of a bus -/

/-- No segment owns its bus where none did. -/
theorem modSeg_owner {g h : Seg} {f : SegS → SegS} {s : State} (hf : ∀ x, (f x).owner = x.owner) :
    (modSeg g f s).seg[h].owner = s.seg[h].owner := by
  by_cases e : h = g
  · subst e; rw [modSeg_self, hf]
  · rw [modSeg_other _ _ _ _ e]

theorem owner_congr {s t : State} (h : t.seg = s.seg) (d : Seg) : t.seg[d].owner = s.seg[d].owner := by rw [h]

theorem dropDr_owner (g h : Seg) (id : Nat) (s : State) : (dropDr g id s).seg[h].owner = s.seg[h].owner := owner_congr (by simp) h

theorem popPkt_owner (q : Nat) (h : Seg) (s : State) : (popPkt q s).seg[h].owner = s.seg[h].owner := owner_congr (by simp) h

theorem pulse_owner (pair ev : Nat) (a b : Word) (h : Seg) (s : State) : (pulse pair ev a b s).seg[h].owner = s.seg[h].owner :=
  owner_congr (by simp) h

theorem putFld_owner (k : PageKind) (off hi lo v : Nat) (h : Seg) (s : State) : (putFld k off hi lo v s).seg[h].owner = s.seg[h].owner := rfl

theorem slaveAnswer_owner (g h : Seg) (a : Nat) (bs : List Byte) (s : State) : (slaveAnswer g a bs s).seg[h].owner = s.seg[h].owner := by
  by_cases e : h = g
  · subst e; rw [slaveAnswer_seg]
  · rw [((SegWork.refl g s).slaveAnswer a bs).2 h e]

theorem freeSlot_owner (g h : Seg) (k : Fin 4) (s : State) : (freeSlot g k s).seg[h].owner = s.seg[h].owner := by
  unfold freeSlot; split
  · exact (dropDr_owner _ _ _ _).trans (modSeg_owner fun _ => rfl)
  · rfl

theorem fwdReadResult_owner (g h : Seg) (id : Nat) (r : Bool × List Byte) (s : State) :
    (fwdReadResult g id r s).seg[h].owner = s.seg[h].owner := by
  unfold fwdReadResult; split
  · split
    · unfold answerHeld
      split
      · exact ((slaveAnswer_owner _ _ _ _ _).trans (freeSlot_owner _ _ _ _)).trans (modSeg_owner fun _ => rfl)
      · exact ((slaveAnswer_owner _ _ _ _ _).trans (freeSlot_owner _ _ _ _)).trans (modSeg_owner fun _ => rfl)
    · exact modSeg_owner fun _ => rfl
  · exact owner_congr (by simp) h

/-- The outcome of a failed access changes no owner. -/
theorem failOutcome_owner (a : Acc) (code : Nat) (h : Seg) (s : State) : (failOutcome a code s).seg[h].owner = s.seg[h].owner := by
  unfold failOutcome; extract_lets p
  split
  · exact owner_congr (by simp) h
  · refine owner_congr ?_ h
    split <;> simp
  · refine owner_congr ?_ h
    split
    · simp
    · split
      · split <;> simp
      · rfl
  · exact owner_congr (by simp) h
  · exact (fwdReadResult_owner _ _ _ _ _).trans (owner_congr (by simp) h)
  · exact owner_congr (by simp) h
  · refine (pulse_owner _ _ _ _ _ _).trans ((putFld_owner _ _ _ _ _ _ _).trans (Eq.trans (modSeg_owner ?_) (popPkt_owner _ _ _)))
    exact fun _ => rfl

theorem finishFail_owner (g h : Seg) (a : Acc) (addr code : Nat) (s : State) :
    (finishFail g a addr code s).seg[h].owner = s.seg[h].owner := by
  unfold finishFail
  exact (failOutcome_owner _ _ _ _).trans ((pulse_owner _ _ _ _ _ _).trans (modSeg_owner fun _ => rfl))

/-! Work that is flushed -/

/-- From `s` to `t` queued work fails: an idle bus stays so, and the mailbox's claim with it. -/
structure FlushKeeps (s t : State) : Prop where
  fail : FailKeeps s t
  owner : ∀ g : Seg, s.seg[g].owner = false → t.seg[g].owner = false
  leg : t.mnt.leg = s.mnt.leg

/-- No operation is matched, no access waits in the mailbox or in a slave, and a segment that masters nothing has no transfer in progress. -/
structure PumpReady (s : State) : Prop where
  openE : s.vot.openE = []
  waiting : s.vot.waiting = []
  leg : s.mnt.leg = none
  slaves : ∀ g : Seg, s.seg[g].slvWait = none
  master : ∀ g : Seg, masterOk s g = true ∨ s.seg[g].eng = none

theorem PumpReady.keeps {s t : State} (h : PumpReady s) (hf : FailKeeps s t) (hl : t.mnt.leg = s.mnt.leg) : PumpReady t where
  openE := hf.openE h.openE
  waiting := hf.waiting h.waiting
  leg := hl.trans h.leg
  slaves g := (hf.slvWait g).trans (h.slaves g)
  master g := (h.master g).imp (fun hm => (hf.master g).trans hm) fun he => (hf.eng g).trans he

namespace FlushKeeps

variable {s t u : State}

theorem refl (s : State) : FlushKeeps s s := ⟨.refl s, fun _ h => h, rfl⟩

theorem trans (h1 : FlushKeeps s t) (h2 : FlushKeeps t u) : FlushKeeps s u :=
  ⟨h1.fail.trans h2.fail, fun g h => h2.owner g (h1.owner g h), h2.leg.trans h1.leg⟩

/-- What touches neither the segments nor the mailbox's claim. -/
theorem of_fail (h : FailKeeps s t) (hs : t.seg = s.seg) (hl : t.mnt.leg = s.mnt.leg) : FlushKeeps s t :=
  ⟨h, fun g ho => by rw [hs]; exact ho, hl⟩

theorem modSeg (h : FlushKeeps s t) (g : Seg) {f : SegS → SegS} (hf : ∀ x, segBusy (f x) = segBusy x := by intro; rfl)
    (ho : ∀ x, x.owner = false → (f x).owner = false) : FlushKeeps s (modSeg g f t) := by
  refine h.trans ⟨(FailKeeps.refl t).modSeg g hf, fun d hd => ?_, rfl⟩
  by_cases e : d = g
  · subst e; rw [modSeg_self]; exact ho _ hd
  · rw [modSeg_other _ _ _ _ e]; exact hd

theorem finishFail (h : FlushKeeps s t) (ho : t.vot.openE = []) (g : Seg) (a : Acc) (addr code : Nat) :
    FlushKeeps s (finishFail g a addr code t) :=
  h.trans ⟨(FailKeeps.refl t).finishFail ho g a addr code, fun _ hd => (finishFail_owner _ _ _ _ _ _).trans hd, finishFail_leg _ _ _ _ _⟩

theorem nextCycle (h : FlushKeeps s t) : FlushKeeps s (nextCycle t) :=
  h.trans (of_fail (.of_same rfl (fun _ => rfl) rfl rfl (List.prefix_refl _)) rfl rfl)

theorem freeSlot (h : FlushKeeps s t) (g : Seg) (k : Fin 4) : FlushKeeps s (freeSlot g k t) := by
  refine h.trans ⟨?_, fun _ hd => (freeSlot_owner _ _ _ _).trans hd, congrArg Mnt.leg (by simp)⟩
  unfold Machine.freeSlot; split
  · exact ((FailKeeps.refl t).modSeg g).dropDr g _
  · exact .refl t

theorem tenureEnd (h : FlushKeeps s t) (g : Seg) : FlushKeeps s (tenureEnd g t) := by
  unfold Machine.tenureEnd; dsimp only
  exact h.modSeg g (hf := fun _ => rfl) (fun x hx => by dsimp only; rw [hx]; rfl)

theorem dropBus (h : FlushKeeps s t) (g : Seg) : FlushKeeps s (dropBus g t) := by
  refine h.trans ⟨(FailKeeps.refl t).dropBus g, fun d hd => ?_, rfl⟩
  unfold Machine.dropBus; dsimp only
  by_cases e : d = g
  · subst e; rw [modSeg_self]; dsimp only; rw [hd]; rfl
  · rw [modSeg_other _ _ _ _ e]; exact hd

/-- One piece of queued work fails. -/
theorem failOne (h : FlushKeeps s t) (ho : t.vot.openE = []) (g : Seg) : FlushKeeps s (failOne g t) := by
  have hn := h.nextCycle
  unfold Machine.failOne; extract_lets n
  have hf : ∀ {x : State} (a : Acc) (addr : Nat), FlushKeeps s x → x.vot = t.vot → FlushKeeps s (Machine.finishFail g a addr 1 x) :=
    fun a addr hx hv => hx.finishFail (by rw [hv]; exact ho) g a addr 1
  split
  · exact hf _ _ (hn.modSeg g (ho := fun _ h => h)) rfl
  · exact hf _ _ (hn.modSeg g (ho := fun _ h => h)) rfl
  · exact hf _ _ (hn.modSeg g (ho := fun _ h => h)) rfl
  · split
    · split
      · exact hf _ _ hn rfl
      · exact hn
    · exact hn

theorem failWork (h : FlushKeeps s t) (ho : s.vot.openE = []) (g : Seg) (n : Nat) : FlushKeeps s (failWork g n t) := by
  induction n generalizing t with
  | zero => exact h
  | succ n ih => exact ih (h.failOne (h.fail.openE ho) g)

/-- A segment that masters, or whose engine is idle, is flushed. -/
theorem segFlush (h : FlushKeeps s t) (ho : s.vot.openE = []) (g : Seg) (hg : masterOk s g = true ∨ s.seg[g].eng = none) :
    FlushKeeps s (segFlush g t) := by
  unfold Machine.segFlush
  split
  · exact h.dropBus g
  · rename_i hm
    have he : t.seg[g].eng = none := (h.fail.eng g).trans (hg.resolve_left fun hs => hm ((h.fail.master g).trans hs))
    have hshelve : shelve g t = t := by unfold shelve; rw [he]
    dsimp only; rw [hshelve]
    refine FlushKeeps.dropBus ?_ g
    split
    · exact h
    · exact h.failWork ho g _

/-- A pump, and the end of a command. -/
theorem pump (h : PumpReady s) : FlushKeeps s (pump s) := by
  have hmail : mailPump (voteUnit s) = s := by
    rw [voteUnit_idle h.openE h.waiting]
    unfold mailPump; rw [h.leg]
  unfold Machine.pump; dsimp only; rw [hmail]
  have h2 : FlushKeeps s (ringPump (listPkts s 23).length s) := of_fail ((FailKeeps.refl s).ringPump _) (by simp) (congrArg Mnt.leg (by simp))
  generalize ringPump (listPkts s 23).length s = r at *
  have h3 : FlushKeeps r (drainAnswers r.rng.answers.length r) :=
    of_fail ((FailKeeps.refl r).drainAnswers _) (by simp) (congrArg Mnt.leg (by simp))
  exact ((h2.trans h3).segFlush h.openE 0 (h.master 0)).segFlush h.openE 1 (h.master 1)

theorem endPump (h : PumpReady s) : FlushKeeps s (endPump s) := by
  have resume : ∀ {x : State} (g : Seg), FlushKeeps s x → slaveResume g x = x := fun {x} g hx => by
    have hn : x.seg[g].slvWait = none := (hx.fail.slvWait g).trans (h.slaves g)
    unfold slaveResume; rw [hn]
  have pumps : ∀ {x : State} (g : Seg) (n : Nat), FlushKeeps s x → FlushKeeps s (slavePump g n x) := fun {x} g n hx =>
    hx.trans (of_fail ((FailKeeps.refl x).slavePump g n) (by simp) (congrArg Mnt.leg (by simp)))
  unfold Machine.endPump slavePumps; dsimp only
  rw [resume 0 (refl s)]
  have h0 := pumps 0 (slaveList s 0).length (refl s)
  rw [resume 1 h0]
  exact pumps 1 _ h0

end FlushKeeps

end Sys2Proof.Machine
end

section
/-!
SUPPORT. The tenure of a bus (R162, R183), SYSRESET* (R159) and the clock of a segment (R189, R190).
-/

namespace Sys2Proof.Machine

open Sys2Proof

section
variable {g : Seg} {s : State} {e : Eng} {c : CycS} {cs : List CycS}

/-! Grant and release (R162) -/

/-- The segment owns its bus under its present SEG_CFG, and drives no grant. -/
def tenureBegun (g : Seg) (s : State) : State :=
  modSeg g (fun x => { x with owner := true, mcfg := getReg s (.ls g) 0x040, pins := { x.pins with bgOut := 0 } }) s

theorem tenureBegun_seg (g : Seg) (s : State) :
    (∀ h, h ≠ g → (tenureBegun g s).seg[h] = s.seg[h]) ∧ (tenureBegun g s).seg[g] = { s.seg[g] with
      owner := true, mcfg := getReg s (.ls g) 0x040, pins := { s.seg[g].pins with bgOut := 0 } } :=
  ⟨fun _ hne => modSeg_other _ _ _ _ hne, modSeg_self _ _ _⟩

theorem busGrant_drives (he : s.seg[g].eng = some e) (hd : e.driving = false) (ho : s.seg[g].owner = false) (hm : masterOk s g = true)
    (hb : s.pwr.brownout = false) {level : Nat} (hl : level = getFld s (.ls g) 0x040 7 6) (t : Nat) :
    busGrant g level t s = engDrive g e t (isFirst e) (tenureBegun g s) := by
  have hasked : busAsked s g = true := by unfold busAsked; rw [ho, he]; dsimp only; rw [hd, hm]; rfl
  unfold busGrant; rw [he]; dsimp only
  rw [hasked, hb, ← hl, beq_self_eq_true]; exact if_pos rfl

theorem busGrant_passes {level : Nat} (h : busAsked s g = false ∨ level ≠ getFld s (.ls g) 0x040 7 6) (hr : s.pwr.st = .run) (t : Nat) :
    busGrant g level t s = emit (.grantOut g level) s := by
  have hno : (busAsked s g && level == getFld s (.ls g) 0x040 7 6) = false := by
    rcases h with h | h
    · rw [h]; rfl
    · rw [beq_false_of_ne h, Bool.and_false]
  unfold busGrant; dsimp only
  rw [hr, hno]
  cases s.seg[g].eng <;> rfl

/-- The engine that is tenureBegun the bus drives its first cycle; a late start is only reported. -/
theorem engDrive_shown (hecc : s.tap.ecc = []) (ht : e.todo = c :: cs) (t : Nat) (first : Bool) :
    ∃ n, OnlyReports { shown g { e with driving := true } c s with freeCount := n } (engDrive g e t first s) := by
  obtain ⟨n, hn⟩ := driveBeat_shown (g := g) (e := { e with driving := true }) hecc ht
  refine ⟨n, ?_⟩
  unfold engDrive; dsimp only
  rw [hn]
  (repeat' split) <;> simp

theorem busReleaseRequest_idle (ho : s.seg[g].owner = true) (hc : tenureCfg s g 5 = true) (he : s.seg[g].eng = none)
    (hp : s.seg[g].paused = []) : (busReleaseRequest g s).seg[g] = { s.seg[g] with owner := false } := by
  unfold busReleaseRequest; dsimp only
  rw [ho, hc, if_neg (by decide), modSeg_self, he, hp]; rfl

theorem busReleaseRequest_busy (ho : s.seg[g].owner = true) (hc : tenureCfg s g 5 = true) (he : s.seg[g].eng ≠ none) :
    (busReleaseRequest g s).seg[g] = { s.seg[g] with busLines := s.seg[g].busLines % 16 + 16 } := by
  have hsome : s.seg[g].eng.isSome = true := Option.isSome_iff_ne_none.2 he
  unfold busReleaseRequest; dsimp only
  rw [ho, hc, if_neg (by decide), modSeg_self, hsome, Bool.true_or, if_pos rfl, ← ho]

theorem busReleaseRequest_alone (g : Seg) (s : State) : SegAlone g s (busReleaseRequest g (cleared s)) := by
  unfold busReleaseRequest; dsimp only
  split
  · exact ⟨rfl, fun _ _ => rfl⟩
  · exact segAlone_modSeg g _ s

/-! Arbitration (R183) -/

/-- The highest requesting level. -/
theorem priPick_highest {lines : BitVec 4} {l : Fin 4} (hl : lines.getLsbD l = true) (hh : ∀ m : Fin 4, l < m → lines.getLsbD m = false) :
    priPick (lines.toNat % 16) = some l.val := by
  revert l; revert lines; decide

/-- The free bus of a system controller in priority mode goes to the highest level. -/
theorem arbitrateBus_grants {lines : BitVec 4} {l : Fin 4} (hc : sysconAct s g = true) (ho : s.seg[g].owner = false)
    (hp : s.seg[g].pins.bgOut = 0) (he : s.seg[g].eng = none) (hopt : bitAt (getReg s (.ls g) 0x044) 0 = false)
    (hl : lines.getLsbD l = true) (hh : ∀ m : Fin 4, l < m → lines.getLsbD m = false) :
    arbitrateBus g lines.toNat false s =
      modSeg g (fun x => { x with busLast := l, pins := { x.pins with bclr := false, bgOut := 2 ^ l.val } })
        (modSeg g (fun x => { x with busLines := x.busLines / 16 * 16 + lines.toNat % 16 }) s) := by
  have hasked : busAsked s g = false := by unfold busAsked; rw [he, Bool.and_false]
  have hstands : grantStands s g lines.toNat false = false := by unfold grantStands; rw [hp, Nat.zero_and]; rfl
  have hpow : 2 ^ l.val ≠ 0 := by positivity
  unfold arbitrateBus; dsimp only
  rw [hc, if_neg (by decide), hasked, if_neg Bool.false_ne_true, ho, if_neg (by decide), hstands, if_neg Bool.false_ne_true, hopt,
    if_neg Bool.false_ne_true, Nat.or_zero, priPick_highest hl hh]
  dsimp only; rw [if_neg hpow]

/-! The clock (R189, R190) -/

theorem wakeSeg_wakes {cause : WakeCause} (hg : s.seg[g].gated = true) (h : cause = .asFall ∨ hasWork s g = true) :
    wakeSeg g cause s = raise (segEv g 12) (modSeg g (fun x => { x with gated := false }) s) := by
  refine if_pos ?_
  rcases h with rfl | h
  · rw [hg]; rfl
  · rw [hg, h, Bool.or_true]; rfl

theorem wakeSeg_sleeps {cause : WakeCause} (hc : cause = .masterWork) (h : hasWork s g = false) : wakeSeg g cause s = s := by
  subst hc
  refine if_neg ?_
  rw [h]; simp

theorem segStop_stops (hw : s.seg[g].stopWait = true) (h : segIdle s g = true) :
    segStop g s = modSeg g (fun x => { x with stopWait := false, gated := true }) s := by
  refine if_pos ?_
  rw [hw, h]; rfl

theorem segStop_waits (h : segIdle s g = false) : segStop g s = s := by
  refine if_neg ?_
  rw [h, Bool.and_false]; decide

/-! SYSRESET* (R159, R183) -/

theorem sysresetDriveEnd_seg (s : State) (h : Seg) : (sysresetDriveEnd s).seg[h] = { s.seg[h] with sysresetTimer := false } := by
  let f : SegS → SegS := fun x => { x with sysresetTimer := false }
  change (modSeg 1 f (modSeg 0 f s)).seg[h] = f s.seg[h]
  by_cases h0 : h = 0
  · subst h0; exact (modSeg_other _ _ _ _ (by decide)).trans (modSeg_self _ _ _)
  · have h1 : h = 1 := Fin.eq_one_of_ne_zero h h0
    subst h1; exact (modSeg_self _ _ _).trans (congrArg f (modSeg_other _ _ _ _ (by decide)))

/-- SYSRESET* has fallen on the segment. -/
def resetFalls (g : Seg) (s : State) : State := raise (segEv g 9) (modSeg g (fun x => { x with sysresetLow := true }) s)

/-- Every delayed-read slot of the segment is empty. -/
def slotsFreed (g : Seg) (s : State) : State := allSlots.foldl (fun s k => freeSlot g k s) s

/-- The bus is lost, and no access waits in the slave. -/
def busLost (g : Seg) (s : State) : State :=
  modSeg g (fun x => { x with waitRead := none, slvWait := none, owner := false, ahead := none }) s

theorem sysresetOp_rises (h : s.seg[g].sysresetLow = true) :
    sysresetOp g false s = raise (segEv g 9) (modSeg g (fun x => { x with sysresetLow := false }) s) := by
  unfold sysresetOp; rw [h]; rfl

theorem sysresetOp_falls (h : s.seg[g].sysresetLow = false) (hw : s.seg[g].slvWait = none) :
    sysresetOp g true s = pump (busLost g (slotsFreed g (cycleFail g 1 (resetFalls g s)))) := by
  unfold sysresetOp; rw [h, if_neg (by decide)]; dsimp only
  rw [hw, if_pos rfl, if_neg (by decide)]
  unfold busLost slotsFreed resetFalls; rfl

/-! Delayed-read slots -/

theorem discardPkt_other {q j : Nat} (h : j ≠ q) (cells : List Nat) (s : State) : listPkts (discardPkt q cells s) j = listPkts s j := by
  unfold discardPkt; split
  · rw [listPkts_releaseCells, listPkts_setPkts_other h]
  · rfl

theorem dropDr_other {j : Nat} (h : j ≠ 16 + g.val) (id : Nat) (s : State) : listPkts (dropDr g id s) j = listPkts s j := by
  unfold dropDr
  generalize (listPkts s (16 + g.val)).filter _ = l
  induction l generalizing s with
  | nil => rfl
  | cons p l ih => exact (ih _).trans (discardPkt_other h _ _)

/-- From `s` to `t` delayed-read slots of segment `g` are emptied. -/
structure SlotsEmpty (g : Seg) (s t : State) : Prop where
  work : SegWork g s t
  img : t.img = s.img
  evh : t.evh = s.evh
  out : t.out = s.out
  self : ∃ v, t.seg[g] = { s.seg[g] with dr := v } ∧ ∀ k : Fin 4, s.seg[g].dr[k] = none → v[k] = none
  list : ∀ j, j ≠ 16 + g.val → listPkts t j = listPkts s j

theorem SlotsEmpty.refl (g : Seg) (s : State) : SlotsEmpty g s s :=
  ⟨.refl g s, rfl, rfl, rfl, ⟨_, rfl, fun _ h => h⟩, fun _ _ => rfl⟩

theorem SlotsEmpty.trans {t u : State} (h1 : SlotsEmpty g s t) (h2 : SlotsEmpty g t u) : SlotsEmpty g s u := by
  obtain ⟨v, hv, kv⟩ := h1.self
  obtain ⟨w, hw, kw⟩ := h2.self
  refine ⟨h1.work.trans h2.work, h2.img.trans h1.img, h2.evh.trans h1.evh, h2.out.trans h1.out,
    ⟨w, by rw [hw, hv], fun k hk => kw k ?_⟩, fun j hj => (h2.list j hj).trans (h1.list j hj)⟩
  rw [hv]; exact kv k hk

/-- A slot that is freed is empty. -/
theorem freeSlot_empty (g : Seg) (k : Fin 4) (s : State) : SlotsEmpty g s (freeSlot g k s) ∧ (freeSlot g k s).seg[g].dr[k] = none := by
  unfold freeSlot
  split
  · rename_i d hd
    let u := modSeg g (fun x => { x with dr := x.dr.set k none }) s
    have hseg : (dropDr g d.id u).seg = u.seg := by simp
    have hself : (dropDr g d.id u).seg[g] = { s.seg[g] with dr := s.seg[g].dr.set k none } := by rw [hseg]; exact modSeg_self _ _ _
    have hu : SegWork g s u := (SegWork.refl g s).modSeg _
    have hhub : HubOnly u (dropDr g d.id u) := .of_crl (by simp)
    refine ⟨⟨hu.hub hhub, ?_, ?_, ?_, ⟨_, hself, fun j hj => ?_⟩, fun j hj => dropDr_other hj _ u⟩, ?_⟩
    · simp
    · simp
    · simp
    · by_cases e : j = k
      · subst e; simp
      · rw [set_other _ _ _ _ e]; exact hj
    · rw [hself]; simp
  · rename_i hd
    exact ⟨.refl g s, hd⟩

/-- Freeing slots empties each of them. -/
theorem foldl_freeSlot (g : Seg) (l : List (Fin 4)) (s : State) :
    SlotsEmpty g s (l.foldl (fun s k => freeSlot g k s) s) ∧
      ∀ k ∈ l, (l.foldl (fun s k => freeSlot g k s) s).seg[g].dr[k] = none := by
  induction l generalizing s with
  | nil => exact ⟨.refl g s, fun _ h => absurd h List.not_mem_nil⟩
  | cons a l ih =>
    obtain ⟨h1, ha⟩ := freeSlot_empty g a s
    obtain ⟨h2, hl⟩ := ih (freeSlot g a s)
    refine ⟨h1.trans h2, fun k hk => ?_⟩
    rcases List.mem_cons.1 hk with rfl | hk
    · obtain ⟨v, hv, kv⟩ := h2.self
      rw [List.foldl_cons, hv]; exact kv k ha
    · exact hl k hk

theorem slotsFreed_empty (g : Seg) (s : State) : SlotsEmpty g s (slotsFreed g s) ∧ ∀ k : Fin 4, (slotsFreed g s).seg[g].dr[k] = none := by
  obtain ⟨h, hk⟩ := foldl_freeSlot g allSlots s
  exact ⟨h, fun k => hk k (by revert k; decide)⟩

/-! SYSRESET* on a segment without work -/

theorem resetFalls_seg (g : Seg) (s : State) :
    (∀ h, h ≠ g → (resetFalls g s).seg[h] = s.seg[h]) ∧ (resetFalls g s).seg[g] = { s.seg[g] with sysresetLow := true } :=
  ⟨fun h hne => modSeg_other g h (fun x => { x with sysresetLow := true }) s hne, modSeg_self g (fun x => { x with sysresetLow := true }) s⟩

theorem busLost_seg (g : Seg) (s : State) :
    (busLost g s).seg[g] = { s.seg[g] with waitRead := none, slvWait := none, owner := false, ahead := none } := modSeg_self _ _ _

/-- What SYSRESET* leaves of a segment without work: its bus is free, and nothing is queued. -/
theorem busLost_idle {t : State} (ht : SlotsEmpty g (resetFalls g s) t) (hnq : NothingQueued s) (he : s.seg[g].eng = none)
    (hp : s.seg[g].paused = []) (hc : workCount s g = 0) :
    SegWork g s (busLost g t) ∧ NothingQueued (busLost g t) ∧ (busLost g t).seg[g].sysresetLow = true ∧ (busLost g t).img = s.img ∧
      ∃ o ∈ (busLost g t).evh.occ, o.ev = segEv g 9 := by
  have hfalls : SegWork g s (resetFalls g s) := ((SegWork.refl g s).modSeg _).raise _
  have hwork : SegWork g s (busLost g t) := (hfalls.trans ht.work).modSeg _
  obtain ⟨v, hv, -⟩ := ht.self
  rw [(resetFalls_seg g s).2] at hv
  have hself := busLost_seg g t
  rw [hv] at hself
  have hlist : ∀ j, j ≠ 16 + g.val → listPkts (busLost g t) j = listPkts s j := ht.list
  have himg : (busLost g t).img = s.img := ht.img
  have hev : ∃ o ∈ (busLost g t).evh.occ, o.ev = segEv g 9 := by
    rw [show (busLost g t).evh = (resetFalls g s).evh from ht.evh]; exact raise_mem _ _
  generalize busLost g t = x at *
  have hpwr : x.pwr = s.pwr := hwork.pwr
  have hregs : x.regs = s.regs := by rw [hwork.1]
  refine ⟨hwork, ?_, by rw [hself], himg, hev⟩
  obtain ⟨hopen, hwait, hleg, hr, hans, hs, hg⟩ := hnq
  refine ⟨by rw [hwork.1]; exact hopen, by rw [hwork.1]; exact hwait, by rw [hwork.1]; exact hleg, (hlist 23 (by omega)).trans hr,
    by rw [hwork.1]; exact hans, ?_, fun d => ?_⟩
  · refine hs.congr (fun d => ?_) fun d => hlist _ (by omega)
    by_cases hd : d = g
    · subst hd; rw [hself]
    · rw [hwork.2 d hd]; exact (hs d).1
  · by_cases hd : d = g
    · subst hd
      obtain ⟨hv8, hr10, hf12⟩ : listPkts x (vapQ d) = listPkts s (vapQ d) ∧ listPkts x (remQ d) = listPkts s (remQ d) ∧
        listPkts x (fwdQ d) = listPkts s (fwdQ d) :=
        ⟨hlist _ (by unfold vapQ; omega), hlist _ (by unfold remQ; omega), hlist _ (by unfold fwdQ; omega)⟩
      have hctl : sysconAct x d = sysconAct s d := by unfold sysconAct; rw [segCfg_congr (getReg_congr hregs _ _), hpwr]
      refine ⟨.inr ⟨by rw [hself]; exact he, ?_⟩, fun ho => ?_, ?_⟩
      · unfold workCount at *
        rw [hp] at hc
        rw [hself, hv8, hr10, hf12]; dsimp only
        rw [hp]; exact hc
      · rw [hself] at ho; cases ho
      · rw [hctl, hself]; exact (hg d).2.2
    · refine segIdle_of_lists (hwork.2 d hd) hpwr (getReg_congr hregs _ _) (fun j hj => hlist j ?_) (hg d)
      simp only [vapQ, remQ, fwdQ, List.mem_cons, List.not_mem_nil, or_false] at hj
      omega

/-- SYSRESET* on a segment without work empties its delayed-read slots and takes its bus. -/
theorem sysreset_idle (hnq : NothingQueued s) (hlow : s.seg[g].sysresetLow = false) (he : s.seg[g].eng = none)
    (hp : s.seg[g].paused = []) (hc : workCount s g = 0) :
    ∃ x, endPump (sysresetOp g true s) = x ∧ SegWork g s x ∧ x.img = s.img ∧ x.seg[g].sysresetLow = true ∧ x.seg[g].owner = false ∧
      (∀ k : Fin 4, x.seg[g].dr[k] = none) ∧ ∃ o ∈ x.evh.occ, o.ev = segEv g 9 := by
  have hwait : s.seg[g].slvWait = none := by
    obtain ⟨-, -, -, -, -, hs, -⟩ := hnq
    exact (hs g).1
  have hcf : cycleFail g 1 (resetFalls g s) = resetFalls g s := by
    unfold cycleFail; rw [(congrArg SegS.eng (resetFalls_seg g s).2).trans he]
  obtain ⟨hempty, hslots⟩ := slotsFreed_empty g (resetFalls g s)
  rw [sysresetOp_falls hlow hwait, hcf]
  generalize slotsFreed g (resetFalls g s) = t at *
  obtain ⟨hwork, hidle, hsl, himg, hev⟩ := busLost_idle hempty hnq he hp hc
  have hself := busLost_seg g t
  exact ⟨_, hidle.idle, hwork, himg, hsl, by rw [hself], fun k => by rw [hself]; exact hslots k, hev⟩

/-! SYSRESET* during a transfer -/

/-- The engine has stopped, with SYSRESET* low. -/
theorem resetStopped_ready (hnq : NothingQueued s) (g : Seg) :
    PumpReady (engStop g (resetFalls g s)) ∧ (engStop g (resetFalls g s)).seg[g].eng = none ∧
      (engStop g (resetFalls g s)).seg[g].sysresetLow = true := by
  obtain ⟨hopen, hwait, hleg, -, -, hs, hg⟩ := hnq
  obtain ⟨hother, hself⟩ := resetFalls_seg g s
  have hstop : (engStop g (resetFalls g s)).seg[g] = { s.seg[g] with
      sysresetLow := true, eng := none, ahead := none, pins := idlePins s.seg[g].pins } := by
    unfold engStop; rw [modSeg_self, hself]
  refine ⟨⟨hopen, hwait, hleg, fun d => ?_, fun d => ?_⟩, by rw [hstop], by rw [hstop]⟩
  · rw [(engStop_busy g d (resetFalls g s)).1]
    by_cases hd : d = g
    · subst hd; rw [hself]; exact (hs d).1
    · rw [hother d hd]; exact (hs d).1
  · by_cases hd : d = g
    · subst hd; exact .inr (by rw [hstop])
    · have hseg : (engStop g (resetFalls g s)).seg[d] = s.seg[d] := by
        unfold engStop; rw [modSeg_other _ _ _ _ hd]; exact hother d hd
      refine (hg d).1.imp (fun h => ?_) fun h => by rw [hseg]; exact h.1
      unfold masterOk segAvail at *; rw [hseg]; exact h

theorem slotsFreed_flush {t : State} (h : FlushKeeps s t) (g : Seg) : FlushKeeps s (slotsFreed g t) := by
  unfold slotsFreed
  generalize allSlots = l
  induction l generalizing t with
  | nil => exact h
  | cons k l ih => exact ih (h.freeSlot g k)

/-- The bus is lost, while no access waits in a slave. -/
theorem busLost_keeps (h : ∀ d : Seg, s.seg[d].slvWait = none) (g : Seg) : FailKeeps s (busLost g s) := by
  refine .of_same rfl (fun d => ?_) rfl rfl (grows_of_evh rfl)
  by_cases hd : d = g
  · subst hd; rw [busLost_seg]; unfold segBusy; rw [h d]
  · rw [show (busLost g s).seg[d] = s.seg[d] from modSeg_other _ _ _ _ hd]

/-- The transfer in progress fails, the bus is lost, and none of what follows gives it back. -/
theorem sysreset_failsTransfer (hnq : NothingQueued s) (he : s.seg[g].eng = some e) :
    ∃ x, endPump (pump (busLost g (slotsFreed g (cycleFail g 1 (resetFalls g s))))) = x ∧
      x.pwr = s.pwr ∧ x.seg[g].sysresetLow = true ∧ x.seg[g].owner = false ∧ x.seg[g].eng = none ∧
      (∃ o ∈ x.evh.occ, o.ev = segEv g 9) ∧ ∃ o ∈ x.evh.occ, o.ev = segEv g 2 := by
  obtain ⟨hy, hyeng, hylow⟩ := resetStopped_ready hnq g
  have hev9 : ∃ o ∈ (engStop g (resetFalls g s)).evh.occ, o.ev = segEv g 9 := raise_mem (segEv g 9) _
  have hpwr : (engStop g (resetFalls g s)).pwr = s.pwr := rfl
  have hf : FlushKeeps (engStop g (resetFalls g s)) (accessFailed g e 1 (resetFalls g s)) :=
    (FlushKeeps.refl _).finishFail hy.openE g e.acc (engAddr e) 1
  have hev2 : ∃ o ∈ (accessFailed g e 1 (resetFalls g s)).evh.occ, o.ev = segEv g 2 := accessFailed_occurs 1 hy.openE
  rw [cycleFail_eq 1 ((congrArg SegS.eng (resetFalls_seg g s).2).trans he)]
  generalize engStop g (resetFalls g s) = y at *
  generalize accessFailed g e 1 (resetFalls g s) = f at *
  have hfz : FlushKeeps f (slotsFreed g (tenureEnd g (pump f))) :=
    slotsFreed_flush ((FlushKeeps.pump (hy.keeps hf.fail hf.leg)).tenureEnd g) g
  generalize slotsFreed g (tenureEnd g (pump f)) = z at *
  have hz : PumpReady z := hy.keeps (hf.trans hfz).fail (hf.trans hfz).leg
  have hzw : FailKeeps z (busLost g z) := busLost_keeps hz.slaves g
  have howner : (busLost g z).seg[g].owner = false := by rw [busLost_seg]
  have hw : PumpReady (busLost g z) := hz.keeps hzw rfl
  generalize busLost g z = w at *
  have hwp := FlushKeeps.pump hw
  have hwx := hwp.trans (FlushKeeps.endPump (hw.keeps hwp.fail hwp.leg))
  have hfx := (hfz.fail.trans hzw).trans hwx.fail
  have hyx := hf.fail.trans hfx
  exact ⟨_, rfl, hyx.pwr.trans hpwr, (hyx.sysresetLow g).trans hylow, hwx.owner g howner, (hyx.eng g).trans hyeng, hyx.occ.has hev9,
    hfx.occ.has hev2⟩

end

end Sys2Proof.Machine

open Sys2Proof Sys2Proof.Machine

/-- Settles O34: each command completes as the lemma on its operation says; SYSRESET* needs that none of what fails with the transfer gives the
bus back. -/
theorem busTenure : Obligations.BusTenure := by
  unfold Obligations.BusTenure
  intro g s hdel hreset hfree
  have hfreec : SlavesFree (cleared s) := hfree
  have hnone : SegWork g (cleared s) (cleared s) := .refl g _
  have hkept : ∀ f : SegS → SegS, (∀ x, (f x).slvWait = x.slvWait) → SlavesFree (modSeg g f (cleared s)) := fun f hf =>
    SlavesFree.modSeg hfreec ((hf _).trans (hfree g).1)
  refine ⟨fun l t e c cs he hd ht ho hm hb hecc hl => ?grant, fun l t h hr => ?pass, fun ho hc => ⟨fun he hp => ?letGo, fun he => ?keepOn⟩,
    fun lines l hc ho hp he hopt hl hh => ?arbitrate, ?driveEnd, fun hlow => ?rises,
    fun hlow hnq => ⟨fun he hp hc => ?fallsIdle, fun he => ?fallsBusy⟩, fun cause hgt => ⟨fun h => ?wakes, fun hc h => ?sleeps⟩,
    fun hw => ⟨fun h => ?stops, fun h => ?waits⟩⟩
  case grant =>
    obtain ⟨n, hrep⟩ := engDrive_shown (g := g) (s := tenureBegun g (cleared s)) hecc ht t (isFirst e)
    obtain ⟨hother, hself⟩ := shown_seg g { e with driving := true } c (tenureBegun g (cleared s))
    obtain ⟨htother, htself⟩ := tenureBegun_seg g (cleared s)
    have hbegin := busGrant_drives (s := cleared s) he hd ho hm hb hl t
    have hrest := restSame_of_reports hrep
    generalize engDrive g e t (isFirst e) (tenureBegun g (cleared s)) = x at *
    obtain ⟨-, -, ⟨-, -, -, hfree2⟩, -, ⟨-, -, hseg, -⟩, ⟨-, hcrl⟩⟩ := hrep
    have hxself : x.seg[g] = { s.seg[g] with
        owner := true, mcfg := getReg s (.ls g) 0x040, eng := some { e with driving := true },
        pins := drivePins (patOf e.acc.patE) { e with driving := true } c (freeVal s).toNat { s.seg[g].pins with bgOut := 0 } } := by
      rw [hseg]; refine hself.trans ?_
      rw [htself]; rfl
    have hxother : ∀ h, h ≠ g → x.seg[h] = s.seg[h] := fun h hne => by
      rw [hseg]; exact (hother h hne).trans (htother h hne)
    have hslaves : SlavesFree x := by
      refine hfreec.congr (fun d => ?_) fun d => ?_
      · by_cases hdg : d = g
        · subst hdg; rw [hxself]; exact (hfree d).1
        · rw [hxother d hdg]; exact (hfree d).1
      · unfold slaveList listPkts; rw [hcrl]; rfl
    have hx := exec_run (c := .busGrant g ⟨l, t⟩) (fun s => endPump (busGrant g l.val t s)) rfl
      ((congrArg endPump hbegin).trans (endPump_idle x hslaves))
    have hcount : (settle x).freeCount = n := by rw [← show x.freeCount = n from hfree2]; simp
    refine completes_settle hx ⟨⟨?_, fun h hne => ?_⟩, ?_⟩
    · rw [settled_seg, hcount, hseg]; exact restSame_settle hrest
    · rw [settled_seg]; exact hxother h hne
    · rw [settled_seg]; exact hxself
  case pass =>
    have hx := exec_run (c := .busGrant g ⟨l, t⟩) (fun s => endPump (busGrant g l.val t s)) rfl
      ((congrArg endPump (busGrant_passes (s := cleared s) h hr t)).trans (endPump_idle _ hfreec))
    exact completes_quiet hx hdel rfl
  case letGo =>
    have hx := exec_run (c := .busReleaseRequest g) (s := s) (busReleaseRequest g) rfl rfl
    have ha := busReleaseRequest_alone g s
    refine completes_quiet hx (by rw [ha.1]; exact hdel) ⟨ha, busReleaseRequest_idle (s := cleared s) ho hc he hp⟩
  case keepOn =>
    have hx := exec_run (c := .busReleaseRequest g) (s := s) (busReleaseRequest g) rfl rfl
    have ha := busReleaseRequest_alone g s
    refine completes_quiet hx (by rw [ha.1]; exact hdel) ⟨ha, busReleaseRequest_busy (s := cleared s) ho hc he⟩
  case arbitrate =>
    have hx := exec_run (c := .busRequestArbitrate g ⟨lines, false⟩) (arbitrateBus g lines.toNat false) rfl
      (arbitrateBus_grants (s := cleared s) hc ho hp he hopt hl hh)
    refine completes_quiet hx hdel ⟨⟨rfl, fun d hne => (modSeg_other _ _ _ _ hne).trans (modSeg_other _ _ _ _ hne)⟩, ?_, ?_⟩
    · rw [modSeg_self]
    · rw [modSeg_self, modSeg_self]; rfl
  case driveEnd =>
    have hx := exec_run (c := .sysresetDriveEnd) (s := s) sysresetDriveEnd rfl rfl
    exact completes_quiet hx hdel ⟨rfl, sysresetDriveEnd_seg (cleared s)⟩
  case rises =>
    let f : SegS → SegS := fun x => { x with sysresetLow := false }
    have hx := exec_run (c := .sysresetIn g false) (fun s => endPump (sysresetOp g false s)) rfl
      ((congrArg endPump (sysresetOp_rises (s := cleared s) hlow)).trans (endPump_idle _ (hkept f fun _ => rfl)))
    obtain ⟨hseg, hregs⟩ := ((hnone.modSeg f).raise (segEv g 9)).segOnly_img rfl
    refine completes_settle hx ⟨hseg, hregs, ?_, event_seen (segEv_page g 9 (by decide)) hreset (raise_mem _ _)⟩
    rw [settled_seg]; exact modSeg_self g f (cleared s)
  case fallsIdle =>
    have hnqc : NothingQueued (cleared s) := hnq
    obtain ⟨x, hend, hwork, himg, hsl, hown, hdr, hev⟩ := sysreset_idle (g := g) hnqc hlow he hp hc
    have hx := exec_run (c := .sysresetIn g true) (fun s => endPump (sysresetOp g true s)) rfl hend
    obtain ⟨hseg, hregs⟩ := hwork.segOnly_img himg
    have hb : x.pwr.boot ≠ .inReset := by rw [hwork.pwr]; exact hreset
    refine completes_settle hx ⟨hseg, hregs, ?_, ?_, fun k => ?_, event_seen (segEv_page g 9 (by decide)) hb hev⟩
    · rw [settled_seg]; exact hsl
    · rw [settled_seg]; exact hown
    · rw [settled_seg]; exact hdr k
  case fallsBusy =>
    have hnqc : NothingQueued (cleared s) := hnq
    obtain ⟨e, he⟩ := Option.ne_none_iff_exists'.1 he
    obtain ⟨x, hend, hpwr, hsl, hown, heng, hev9, hev2⟩ := sysreset_failsTransfer (g := g) hnqc he
    have hx := exec_run (c := .sysresetIn g true) (fun s => endPump (sysresetOp g true s)) rfl
      ((congrArg endPump (sysresetOp_falls (s := cleared s) hlow (hfree g).1)).trans hend)
    have hb : x.pwr.boot ≠ .inReset := by rw [hpwr]; exact hreset
    refine completes_settle hx ⟨?_, ?_, ?_, event_seen (segEv_page g 9 (by decide)) hb hev9, event_seen (segEv_page g 2 (by decide)) hb hev2⟩
    · rw [settled_seg]; exact hsl
    · rw [settled_seg]; exact hown
    · rw [settled_seg]; exact heng
  case wakes =>
    let f : SegS → SegS := fun x => { x with gated := false }
    have hx := exec_run (c := .wake g cause) (wakeSeg g cause) rfl (wakeSeg_wakes (s := cleared s) hgt h)
    obtain ⟨hseg, hregs⟩ := ((hnone.modSeg f).raise (segEv g 12)).segOnly_img rfl
    refine completes_settle hx ⟨hseg, hregs, ?_, event_seen (segEv_page g 12 (by decide)) hreset (raise_mem _ _)⟩
    rw [settled_seg]; exact modSeg_self g f (cleared s)
  case sleeps =>
    have hx := exec_run (c := .wake g cause) (wakeSeg g cause) rfl (wakeSeg_sleeps (s := cleared s) hc h)
    exact completes_quiet hx hdel rfl
  case stops =>
    have hx := exec_run (c := .segmentStop g) (segStop g) rfl (segStop_stops (s := cleared s) hw h)
    exact completes_quiet hx hdel ⟨segAlone_modSeg g _ s, modSeg_self _ _ _⟩
  case waits =>
    have hx := exec_run (c := .segmentStop g) (segStop g) rfl (segStop_waits (s := cleared s) h)
    exact completes_quiet hx hdel rfl
end

section
/-!
SUPPORT. Cells that a slave's queue claims one after the other (R199): a claim that is granted as a whole is granted cell by cell.
-/

namespace Sys2Proof.Machine

open Sys2Proof

/-! Sums over the queues that own cells -/

/-- The share of the queues other than `q`. -/
def restShare (q : Nat) (f : Nat → Nat) : Nat := ((owningQueues.erase q).map f).sum

theorem ownedSum_at {q : Nat} (hq : q ∈ owningQueues) (f : Nat → Nat) : (owningQueues.map f).foldl (· + ·) 0 = f q + restShare q f := by
  rw [← List.sum_eq_foldl, ((List.perm_cons_erase hq).map f).sum_eq, List.map_cons, List.sum_cons]; rfl

theorem restShare_congr {q : Nat} {f g : Nat → Nat} (h : ∀ j, j ≠ q → f j = g j) : restShare q f = restShare q g := by
  have hm : (owningQueues.erase q).map f = (owningQueues.erase q).map g :=
    List.map_congr_left fun j hj => h j ((List.Nodup.mem_erase_iff (by decide)).1 hj).1
  unfold restShare; rw [hm]

/-! The books of the Creel -/

/-- The Creels agree on all that decides on a claim. -/
structure SameBooks (c d : Creel) : Prop where
  queue : ∀ q, (getQ d q).held = (getQ c q).held ∧ (getQ d q).resv = (getQ c q).resv ∧ (getQ d q).limit = (getQ c q).limit
  fresh : d.fresh = c.fresh
  free : d.free = c.free
  uncovered : d.uncovered = c.uncovered
  resets : d.resets = c.resets ∧ d.nextResets = c.nextResets

theorem SameBooks.refl (c : Creel) : SameBooks c c := ⟨fun _ => ⟨rfl, rfl, rfl⟩, rfl, rfl, rfl, rfl, rfl⟩

theorem SameBooks.trans {a b c : Creel} (h1 : SameBooks a b) (h2 : SameBooks b c) : SameBooks a c where
  queue q := by
    obtain ⟨a1, a2, a3⟩ := h1.queue q
    obtain ⟨b1, b2, b3⟩ := h2.queue q
    exact ⟨b1.trans a1, b2.trans a2, b3.trans a3⟩
  fresh := h2.fresh.trans h1.fresh
  free := h2.free.trans h1.free
  uncovered := h2.uncovered.trans h1.uncovered
  resets := ⟨h2.resets.1.trans h1.resets.1, h2.resets.2.trans h1.resets.2⟩

theorem SameBooks.resetNow {c d : Creel} (h : SameBooks c d) (q : Nat) : resetNow d q = resetNow c q := by
  unfold Machine.resetNow; rw [h.resets.1, h.resets.2]

theorem SameBooks.claimOk {c d : Creel} (h : SameBooks c d) (q n : Nat) : claimOk d q n = claimOk c q n := by
  obtain ⟨hq1, hq2, hq3⟩ := h.queue q
  have hheld : (fun q => (getQ d q).held) = fun q => (getQ c q).held := funext fun j => (h.queue j).1
  have hunused : (fun q => (getQ d q).resv - (getQ d q).held) = fun q => (getQ c q).resv - (getQ c q).held :=
    funext fun j => by rw [(h.queue j).1, (h.queue j).2.1]
  unfold Machine.claimOk headroom creelFree creelU freeListLen; dsimp only
  rw [hq1, hq2, hq3, hheld, hunused, h.fresh, h.free, h.uncovered, h.resetNow, h.resetNow]

/-- New packets on a list are not in the books. -/
theorem setQ_pkts_books (q : Nat) (ps : List Pkt) (c : Creel) : SameBooks c (setQ q { getQ c q with pkts := ps } c) := by
  refine ⟨fun j => ?_, rfl, rfl, rfl, rfl, rfl⟩
  by_cases e : j = q
  · subst e; rw [getQ_setQ_same]; exact ⟨rfl, rfl, rfl⟩
  · rw [getQ_setQ_other e]; exact ⟨rfl, rfl, rfl⟩

theorem setPkts_books (q : Nat) (ps : List Pkt) (s : State) : SameBooks s.crl (setPkts q ps s).crl := setQ_pkts_books q ps s.crl

theorem linkPkt_books {q : Nat} {s : State} (p : Pkt) (h : PtrsGood s) : SameBooks s.crl (linkPkt q p s).crl := by
  rw [linkPkt_joins p (h q)]; exact setQ_pkts_books q _ s.crl

/-! Claims cell by cell -/

theorem takeCells_length {n : Nat} {c : Creel} (h : n ≤ freeListLen c) : (takeCells n c).1.length = n := by
  unfold freeListLen at h
  unfold takeCells; simp only [List.length_append, List.length_map, List.length_range, List.length_take]
  omega

/-- A claim for fewer cells is granted too. -/
theorem claimOk_less {c : Creel} {q m n : Nat} (hm : m ≤ n) (h : claimOk c q n = true) : claimOk c q m = true := by
  unfold claimOk at *
  simp only [Bool.and_eq_true, decide_eq_true_eq, Bool.or_eq_true, beq_iff_eq] at h ⊢
  obtain ⟨⟨⟨⟨h1, h2⟩, h3⟩, h4⟩, h5⟩ := h
  exact ⟨⟨⟨⟨by omega, by omega⟩, by omega⟩, by omega⟩, h5⟩

theorem claimed_queue (q n : Nat) (c : Creel) :
    getQ (claimed q n c) q = { getQ c q with held := (getQ c q).held + n } ∧ ∀ j, j ≠ q → getQ (claimed q n c) j = getQ c j := by
  unfold claimed
  exact ⟨getQ_setQ_same _ _ _, fun j hj => getQ_setQ_other hj _ _⟩

/-- One cell fewer is free, or comes under the queue's reservation (R199). -/
theorem claimed_headroom {c : Creel} {q n : Nat} (hq : q ∈ owningQueues) (h : n + 1 - ((getQ c q).resv - (getQ c q).held) ≤ headroom c) :
    n - ((getQ c q).resv - ((getQ c q).held + 1)) ≤ headroom (claimed q 1 c) := by
  obtain ⟨hsame, hother⟩ := claimed_queue q 1 c
  have hheld : restShare q (fun j => (getQ (claimed q 1 c) j).held) = restShare q fun j => (getQ c j).held :=
    restShare_congr fun j hj => by rw [hother j hj]
  have hunused : restShare q (fun j => (getQ (claimed q 1 c) j).resv - (getQ (claimed q 1 c) j).held) =
      restShare q fun j => (getQ c j).resv - (getQ c j).held := restShare_congr fun j hj => by rw [hother j hj]
  unfold headroom creelFree creelU at *
  rw [ownedSum_at hq, ownedSum_at hq] at *
  rw [hheld, hunused, hsame]; dsimp only
  omega

/-- The rest of a claim that is granted as a whole is granted after its first cell. -/
theorem claimed_claimOk {c : Creel} {q n : Nat} (hq : q ∈ owningQueues) (h : claimOk c q (n + 1) = true) : claimOk (claimed q 1 c) q n = true := by
  obtain ⟨hsame, -⟩ := claimed_queue q 1 c
  have hreset : ∀ j, resetNow (claimed q 1 c) j = resetNow c j := fun _ => rfl
  have hfree : freeListLen (claimed q 1 c) = 16384 - (c.fresh + min 1 (16384 - c.fresh)) + (c.free.drop (1 - min 1 (16384 - c.fresh))).length := rfl
  have hunc : (claimed q 1 c).uncovered = c.uncovered := rfl
  unfold claimOk at *
  rw [hsame, hunc, hreset, hreset]
  simp only [Bool.and_eq_true, decide_eq_true_eq, Bool.or_eq_true, beq_iff_eq] at h ⊢
  obtain ⟨⟨⟨⟨h1, h2⟩, h3⟩, h4⟩, h5⟩ := h
  refine ⟨⟨⟨⟨by omega, claimed_headroom hq h2⟩, by omega⟩, ?_⟩, h5⟩
  rw [hfree, List.length_drop]
  unfold freeListLen at h4
  omega

/-- What a granted claim of one cell leaves. -/
theorem claim_one {q n : Nat} {s : State} (hp : PtrsGood s) (hq : q ∈ owningQueues) (hc : claimOk s.crl q (n + 1) = true) :
    ∃ cells s1, claim q 1 s = some (cells, s1) ∧ cells.length = 1 ∧ HubOnly s s1 ∧ PtrsGood s1 ∧ (∀ j, listPkts s1 j = listPkts s j) ∧
      claimOk s1.crl q n = true ∧ ∀ j, resetNow s1.crl j = resetNow s.crl j := by
  have h1 : claimOk s.crl q 1 = true := claimOk_less (by omega) hc
  have hlen : 1 ≤ freeListLen s.crl := by
    unfold claimOk at h1
    simp only [Bool.and_eq_true, decide_eq_true_eq] at h1
    exact h1.1.2
  obtain ⟨cells, s1, hclaim, hub, hp1, hl1, hr1⟩ := claim_taken hp h1
  have hcells : cells = (takeCells 1 s.crl).1 ∧ s1.crl = claimed q 1 s.crl := by
    unfold claim at hclaim; dsimp only at hclaim
    rw [useList_sound (hp 63), if_pos h1, raiseIf_eq] at hclaim
    obtain ⟨rfl, rfl⟩ := Prod.mk.inj (Option.some.inj hclaim)
    exact ⟨rfl, rfl⟩
  refine ⟨cells, s1, hclaim, ?_, hub, hp1, hl1, ?_, hr1⟩
  · rw [hcells.1]; exact takeCells_length hlen
  · rw [hcells.2]; exact claimed_claimOk hq hc

end Sys2Proof.Machine
end

section
/-!
SUPPORT. Forwarded writes (R179): beats fill one packet, which stands at its target's list from the first of them.
-/

namespace Sys2Proof.Machine

open Sys2Proof

variable {g h : Seg} {s t u : State} {c : SlaveCyc}

/-! Where a forwarded access goes (R73, R74) -/

theorem fwdTarget_local {pat le : Nat} (ht : fwdTarget s pat = .segment le h) :
    localPat s (patEntry s.lom.act pat) = some le ∧ h = (patOf le).seg := by
  unfold fwdTarget at ht; dsimp only at ht
  split at ht
  · rename_i l hl
    obtain ⟨rfl, rfl⟩ := FwdTo.segment.inj ht
    exact ⟨hl, rfl⟩
  · split at ht <;> cases ht

/-- A forwarded access that is not refused runs a pattern of this node. -/
theorem fwdTarget_node {pat le off n : Nat} {w : Bool} (ht : fwdTarget s pat = .segment le h) (hb : fwdBad s pat w off n = false) :
    (patOf le).node = 0 := by
  obtain ⟨hl, -⟩ := fwdTarget_local ht
  unfold fwdBad at hb
  simp only [Bool.or_eq_false_iff] at hb
  obtain ⟨⟨-, hr⟩, -⟩ := hb
  unfold nodeRefused at hr
  unfold localPat at hl
  dsimp only at hl hr
  split at hl
  · rename_i h0
    obtain rfl := Option.some.inj hl
    exact h0
  · rename_i h0
    split at hl
    · rename_i hn
      obtain rfl := Option.some.inj hl
      rw [bne_iff_ne.2 h0, hn, beq_self_eq_true] at hr
      simp only [Bool.true_and, Bool.or_eq_false_iff, bne_eq_false_iff_eq] at hr
      exact hr.2.1
    · cases hl

theorem fwdGone_segment {pat le : Nat} (ht : fwdTarget s pat = .segment le h) (hm : masterOk s h = true) : fwdGone s pat = false := by
  unfold fwdGone; rw [ht]; dsimp only; rw [hm]; rfl

theorem fwdEntry_segment {pat le : Nat} (ht : fwdTarget s pat = .segment le h) : fwdEntry s pat = le := by unfold fwdEntry; rw [ht]

/-! The slave's queue moves on (R180, R205) -/

theorem slavePump_empty (hl : listPkts s (14 + g.val) = []) (n : Nat) : slavePump g n s = s := by
  cases n with
  | zero => rfl
  | succ n => unfold slavePump; rw [hl]

/-- The one packet of the queue goes to its segment's list. -/
theorem slavePump_moves {p : Pkt} (hp : PtrsGood s) (hr : ∀ q, resetNow s.crl q = false) (hl : listPkts s (14 + g.val) = [p])
    (h0 : (patOf p.patE).node = 0) (hw : p.isRead = false ∨ writesWaiting s g = false) :
    slavePump g 1 s = linkPkt (fwdQ (patOf p.patE).seg) p (setPkts (14 + g.val) [] s) := by
  have hq : fwdQ (patOf p.patE).seg ≠ 20 := by unfold fwdQ; have := (patOf p.patE).seg.isLt; omega
  have hread : (p.isRead && writesWaiting s g) = false := by rcases hw with h | h <;> rw [h] <;> simp
  have ht : takeHead (14 + g.val) s = (some p, setPkts (14 + g.val) [] s) := by
    unfold takeHead; rw [useList_sound (hp _)]; dsimp only; rw [hl]
  unfold slavePump; rw [hl]; dsimp only
  rw [if_pos h0, hr, hread, beq_false_of_ne hq, if_neg (by simp), ht]
  dsimp only; rw [if_neg hq]; rfl

/-! The packet that a slave fills (R179) -/

/-- The packet is one that slave `g` fills. -/
def fills (g : Seg) (x : Pkt) : Bool := x.origin == .fwdWrite g && !x.eop

/-- No packet that slave `g` fills stands where one could. -/
theorem openSlave_none (ho : openSlave s g = none) :
    (∀ x ∈ listPkts s (14 + g.val), fills g x = false) ∧ ∀ d : Seg, ∀ x ∈ listPkts s (fwdQ d), fills g x = false := by
  have hall : ∀ q ∈ [14 + g.val, fwdQ 0, fwdQ 1], ∀ x ∈ listPkts s q, fills g x = false := by
    intro q hq x hx
    have hnone := List.findSome?_eq_none_iff.1 ho q hq
    rw [Option.map_eq_none_iff, List.find?_eq_none] at hnone
    exact Bool.eq_false_iff.2 (hnone x hx)
  refine ⟨hall _ (by simp), fun d => hall _ ?_⟩
  fin_cases d <;> simp

/-- From `s` to `t` slave `g` has opened packet `p` on the list of segment `h`; `b` more cells will be granted to it. -/
structure Filling (g h : Seg) (s t : State) (p : Pkt) (b : Nat) : Prop where
  work : SegWork g s t
  img : t.img = s.img
  wait : t.seg[g].slvWait = s.seg[g].slvWait
  ptrs : PtrsGood t
  reset : ∀ q, resetNow t.crl q = false
  list : listPkts t (fwdQ h) = listPkts s (fwdQ h) ++ [p]
  lists : ∀ j, j ≠ fwdQ h → listPkts t j = listPkts s j
  cells : p.cells.length ≤ cellsFor p.data.length
  budget : claimOk t.crl (14 + g.val) b = true
  fills : Machine.fills g p = true

theorem fwdQ_inj {d e : Seg} (h : fwdQ d = fwdQ e) : d = e := Fin.ext (by unfold fwdQ at h; omega)

theorem slaveQueue_ne (g h : Seg) : 14 + g.val ≠ fwdQ h := by unfold fwdQ; omega

namespace Filling

variable {p : Pkt} {b : Nat} (ho : openSlave s g = none)
include ho

/-- The slave finds its packet. -/
theorem found (hf : Filling g h s t p b) : openSlave t g = some (fwdQ h, p) := by
  obtain ⟨hq, hd⟩ := openSlave_none ho
  have hnone : ∀ q : Nat, q ≠ fwdQ h → (∀ x ∈ listPkts s q, Machine.fills g x = false) →
      ((listPkts t q).find? fun p => p.origin == .fwdWrite g && !p.eop) = none := fun q hne hx => by
    rw [hf.lists q hne, List.find?_eq_none]
    exact fun x hm => Bool.eq_false_iff.1 (hx x hm)
  have hsome : ((listPkts t (fwdQ h)).find? fun p => p.origin == .fwdWrite g && !p.eop) = some p := by
    have hfirst : ((listPkts s (fwdQ h)).find? fun p => p.origin == .fwdWrite g && !p.eop) = none :=
      List.find?_eq_none.2 fun x hm => Bool.eq_false_iff.1 (hd h x hm)
    rw [hf.list, List.find?_append, hfirst, Option.none_or]
    exact List.find?_cons_of_pos hf.fills
  unfold openSlave
  rw [List.findSome?_cons, hnone _ (slaveQueue_ne g h) hq, Option.map_none]; dsimp only
  by_cases h0 : h = 0
  · subst h0
    rw [List.findSome?_cons, hsome]; rfl
  · have h1 : h = 1 := Fin.eq_one_of_ne_zero h h0
    subst h1
    rw [List.findSome?_cons, hnone (fwdQ 0) (fun e => absurd (fwdQ_inj e) (by decide)) (hd 0), Option.map_none]; dsimp only
    rw [List.findSome?_cons, hsome]; rfl

/-- A change of the packet alone. -/
theorem put (hf : Filling g h s t p b) {v : Pkt} (hu : HubOnly t u) (hp : PtrsGood u) (hl : ∀ j, listPkts u j = listPkts t j) :
    HubOnly t (putOpen g (fwdQ h) v u) ∧ PtrsGood (putOpen g (fwdQ h) v u) ∧ SameBooks u.crl (putOpen g (fwdQ h) v u).crl ∧
      listPkts (putOpen g (fwdQ h) v u) (fwdQ h) = listPkts s (fwdQ h) ++ [v] ∧
      ∀ j, j ≠ fwdQ h → listPkts (putOpen g (fwdQ h) v u) j = listPkts s j := by
  obtain ⟨-, hd⟩ := openSlave_none ho
  let w : State := { u with crl := { u.crl with cell := fillCells v.cells v.data u.crl.cell } }
  let ps := (listPkts u (fwdQ h)).map fun x => if x.origin == .fwdWrite g && !x.eop then v else x
  have hps : ps = listPkts s (fwdQ h) ++ [v] := by
    unfold ps
    rw [hl, hf.list, List.map_append, List.map_cons, List.map_nil,
      if_pos (show (p.origin == .fwdWrite g && !p.eop) = true from hf.fills)]
    congr 1
    refine (List.map_congr_left fun x hx => if_neg ?_).trans (List.map_id _)
    exact Bool.eq_false_iff.1 (hd h x hx)
  have hw : OtherLists (fwdQ h) u w := fun hp => ⟨hp, fun _ _ => rfl⟩
  obtain ⟨hpw, hlw⟩ := (hw.setPkts ps) hp
  have hput : putOpen g (fwdQ h) v u = setPkts (fwdQ h) ps w := rfl
  rw [hput]
  have hbooks : SameBooks u.crl w.crl := ⟨fun _ => ⟨rfl, rfl, rfl⟩, rfl, rfl, rfl, rfl, rfl⟩
  refine ⟨?_, hpw, hbooks.trans (setPkts_books _ ps w), ?_, fun j hj => (hlw j hj).trans ((hl j).trans (hf.lists j hj))⟩
  · exact hu.trans rfl
  · rw [listPkts_setPkts_same, hps]

/-- A beat finds its place in the packet. -/
theorem beat (hf : Filling g h s t p b) {bs : List Byte} (hb : cellsFor (p.data.length + bs.length) ≤ p.cells.length + b) :
    ∃ u cells k, fwdBeat g none bs t = some u ∧ u.out = t.out ∧
      Filling g h s u { p with data := p.data ++ bs, cells := cells } k ∧ cells.length + k = p.cells.length + b := by
  have hlen : (p.data ++ bs).length = p.data.length + bs.length := List.length_append
  have hmono : cellsFor p.data.length ≤ cellsFor (p.data.length + bs.length) := by unfold cellsFor; omega
  have hown : 14 + g.val ∈ owningQueues := by fin_cases g <;> decide
  have hfound := hf.found ho
  have hcells := hf.cells
  by_cases he : cellsFor (p.data.length + bs.length) = p.cells.length
  · -- the last cell has room
    let v : Pkt := { p with data := p.data ++ bs }
    obtain ⟨hub, hpt, hbooks, hlist, hlists⟩ := hf.put ho (v := v) (u := t) rfl hf.ptrs (fun _ => rfl)
    refine ⟨putOpen g (fwdQ h) v t, p.cells, b, ?_, rfl, ?_, rfl⟩
    · unfold fwdBeat; rw [hfound]; dsimp only; rw [hlen, if_pos he]
    · exact ⟨hf.work.hub hub, hf.img, hf.wait, hpt, fun q => (hbooks.resetNow q).trans (hf.reset q), hlist, hlists,
        by dsimp only; rw [hlen, he], (hbooks.claimOk _ _).trans hf.budget, hf.fills⟩
  · -- a further cell is begun
    obtain ⟨n, rfl⟩ : ∃ n, b = n + 1 := ⟨b - 1, by omega⟩
    obtain ⟨cells, u, hclaim, hone, hub1, hp1, hl1, hc1, hr1⟩ := claim_one hf.ptrs hown hf.budget
    let v : Pkt := { p with data := p.data ++ bs, cells := p.cells ++ cells }
    have hru : ∀ q, resetNow u.crl q = false := fun q => (hr1 q).trans (hf.reset q)
    obtain ⟨hub, hpt, hbooks, hlist, hlists⟩ := hf.put ho (v := v) hub1 hp1 hl1
    have hsame : (putOpen g (fwdQ h) v u).img = t.img ∧ (putOpen g (fwdQ h) v u).seg = t.seg ∧ (putOpen g (fwdQ h) v u).out = t.out := by
      unfold HubOnly at hub; rw [hub]; exact ⟨rfl, rfl, rfl⟩
    obtain ⟨himg, hseg, hout⟩ := hsame
    refine ⟨putOpen g (fwdQ h) v u, p.cells ++ cells, n, ?_, hout, ?_, by rw [List.length_append, hone]; omega⟩
    · unfold fwdBeat; rw [hfound]; dsimp only; rw [hlen, if_neg he, hclaim]; rfl
    · exact ⟨hf.work.hub hub, himg.trans hf.img, by rw [hseg]; exact hf.wait, hpt, fun q => (hbooks.resetNow q).trans (hru q), hlist, hlists,
        by dsimp only; rw [hlen, List.length_append, hone]; omega, (hbooks.claimOk _ _).trans hc1, hf.fills⟩

omit ho in
/-- The slave's acknowledge leaves the packet as it is. -/
theorem acked (hf : Filling g h s t p b) : Filling g h s (slaveAnswer g 0 [] t) p b where
  work := hf.work.slaveAnswer 0 []
  img := hf.img
  wait := by rw [slaveAnswer_seg]; exact hf.wait
  ptrs := hf.ptrs
  reset := hf.reset
  list := hf.list
  lists := hf.lists
  cells := hf.cells
  budget := hf.budget
  fills := hf.fills

end Filling

/-- From `s` to `x` slave `g` has put the complete packet `y` on the list of segment `h`. -/
structure Forwarded (g h : Seg) (s x : State) (y : Pkt) : Prop where
  work : SegWork g s x
  img : x.img = s.img
  wait : x.seg[g].slvWait = s.seg[g].slvWait
  ptrs : PtrsGood x
  list : listPkts x (fwdQ h) = listPkts s (fwdQ h) ++ [y]
  lists : ∀ j, j ≠ fwdQ h → listPkts x j = listPkts s j

/-- The end of a packet that is being dropped leaves the lists alone (R208). -/
theorem endDropping_leaves (q : Nat) (s : State) :
    HubOnly s (endDropping q s) ∧ (PtrsGood s → PtrsGood (endDropping q s)) ∧ ∀ j, listPkts (endDropping q s) j = listPkts s j := by
  unfold endDropping; split
  · rename_i p hp
    have hq : ∀ j, (getQ (setQ q { getQ s.crl q with dropping := none } s.crl) j).ptrBad = (getQ s.crl j).ptrBad ∧
        (getQ (setQ q { getQ s.crl q with dropping := none } s.crl) j).pkts = (getQ s.crl j).pkts := fun j => by
      by_cases e : j = q
      · subst e; rw [getQ_setQ_same]; exact ⟨rfl, rfl⟩
      · rw [getQ_setQ_other e]; exact ⟨rfl, rfl⟩
    let u : State := { s with crl := setQ q { getQ s.crl q with dropping := none } s.crl }
    have hl : ∀ j, listPkts (releaseCells p.owner p.cells u) j = listPkts s j := fun j => (listPkts_releaseCells _ _ _ _).trans (hq j).2
    refine ⟨rfl, fun hg => ?_, hl⟩
    have hpu : PtrsGood u := fun j => (hq j).1.trans (hg j)
    exact (((OtherLists.refl q u).releaseCells p.owner p.cells) hpu).1
  · exact ⟨rfl, id, fun _ => rfl⟩

/-- The last beat completes the packet. -/
theorem endSlave_completes {p : Pkt} {b : Nat} (ho : openSlave s g = none) (hs : listPkts s (14 + g.val) = []) (hf : Filling g h s t p b) :
    Forwarded g h s (endSlave g t) { p with eop := true } ∧ (endSlave g t).out = t.out := by
  let v : Pkt := { p with eop := true }
  obtain ⟨hub, hpt, -, hlist, hlists⟩ := hf.put ho (v := v) (u := t) rfl hf.ptrs (fun _ => rfl)
  generalize hx : putOpen g (fwdQ h) v t = x at *
  have hdrop : ∃ y, HubOnly x y ∧ (PtrsGood x → PtrsGood y) ∧ (∀ j, listPkts y j = listPkts x j) ∧ endSlave g t = y := by
    unfold endSlave; rw [hf.found ho]; dsimp only
    rw [hx]
    split
    · rename_i q _
      obtain ⟨h1, h2, h3⟩ := endDropping_leaves q x
      refine ⟨_, h1, h2, h3, slavePump_empty ?_ _⟩
      rw [h3, hlists _ (slaveQueue_ne g h)]; exact hs
    · refine ⟨x, rfl, id, fun _ => rfl, slavePump_empty ?_ _⟩
      rw [hlists _ (slaveQueue_ne g h)]; exact hs
  obtain ⟨y, hxy, hpy, hly, hend⟩ := hdrop
  have hty : HubOnly t y := hub.trans hxy
  have hsame : y.img = t.img ∧ y.seg = t.seg ∧ y.out = t.out := by unfold HubOnly at hty; rw [hty]; exact ⟨rfl, rfl, rfl⟩
  obtain ⟨himg, hseg, hout⟩ := hsame
  rw [hend]
  exact ⟨⟨hf.work.hub hty, himg.trans hf.img, by rw [hseg]; exact hf.wait, hpy hpt, (hly _).trans hlist,
    fun j hj => (hly j).trans (hlists j hj)⟩, hout⟩

/-- Every further beat finds its place, and the last completes the packet. -/
theorem fwdBeats_complete (ho : openSlave s g = none) (hs : listPkts s (14 + g.val) = []) (hsize : 0 < c.size) (n : Nat) {p : Pkt} {b : Nat}
    {bs : List Byte} (hf : Filling g h s t p b) (hn : bs.length < n) (hb : cellsFor (p.data.length + bs.length) ≤ p.cells.length + b) :
    ∃ cells, Forwarded g h s (fwdBeats g c n none bs t) { p with data := p.data ++ bs, cells := cells, eop := true } ∧
      t.out <+: (fwdBeats g c n none bs t).out := by
  induction n generalizing t p b bs with
  | zero => omega
  | succ n ih =>
    cases bs with
    | nil =>
      obtain ⟨hd, hout⟩ := endSlave_completes ho hs hf
      refine ⟨p.cells, ?_, ?_⟩
      · rw [List.append_nil]; exact hd
      · show t.out <+: (endSlave g t).out
        rw [hout]
    | cons x xs =>
      have hsplit : ((x :: xs).take c.size).length + ((x :: xs).drop c.size).length = (x :: xs).length := by
        rw [List.length_take, List.length_drop]; omega
      have hpos : 0 < ((x :: xs).take c.size).length := by rw [List.length_take, List.length_cons]; omega
      have hmono : cellsFor (p.data.length + ((x :: xs).take c.size).length) ≤ cellsFor (p.data.length + (x :: xs).length) := by
        unfold cellsFor; omega
      obtain ⟨u, cells, k, hbeat, hout, hfu, hk⟩ := hf.beat ho (bs := (x :: xs).take c.size) (by omega)
      have hrest : cellsFor ((p.data ++ (x :: xs).take c.size).length + ((x :: xs).drop c.size).length) ≤ cells.length + k := by
        rw [List.length_append, Nat.add_assoc, hsplit, hk]; exact hb
      obtain ⟨cells2, hdone, hpre⟩ := ih hfu.acked (bs := (x :: xs).drop c.size) (by omega) hrest
      have hstep : fwdBeats g c (n + 1) none (x :: xs) t = fwdBeats g c n none ((x :: xs).drop c.size) (slaveAnswer g 0 [] u) := by
        rw [fwdBeats]; rw [if_neg (by simp), hbeat]
      refine ⟨cells2, ?_, ?_⟩
      · rw [hstep]
        rw [List.append_assoc, List.take_append_drop] at hdone; exact hdone
      · rw [hstep]
        rw [slaveAnswer_out, hout] at hpre
        exact (List.prefix_append _ _).trans hpre

/-! The first beat (R179) -/

/-- The packet that a forwarded write of `n` bytes opens. -/
def writePkt (g : Seg) (pat le off n : Nat) : Pkt := fwdPkt g (14 + g.val) pat le off n [] [] false (.fwdWrite g) 0

/-- The first beat opens the packet, which goes to its segment's list at once. -/
theorem fwdBeat_opens {pat le off n b : Nat} {bs : List Byte} (ho : openSlave s g = none) (hs : listPkts s (14 + g.val) = [])
    (hp : PtrsGood s) (hr : ∀ q, resetNow s.crl q = false) (h0 : (patOf le).node = 0) (hseg : h = (patOf le).seg)
    (hc : claimOk s.crl (14 + g.val) (b + 1) = true) :
    ∃ u cells, fwdBeat g (some (writePkt g pat le off n)) bs s = some u ∧ cells.length = 1 ∧
      Filling g h s u { writePkt g pat le off n with cells := cells, data := bs, eop := false } b := by
  have hown : 14 + g.val ∈ owningQueues := by fin_cases g <;> decide
  obtain ⟨cells, s1, hclaim, hone, hub, hp1, hl1, hc1, hr1⟩ := claim_one hp hown hc
  let p : Pkt := { writePkt g pat le off n with cells := cells, data := bs, eop := false }
  let v : State := { s1 with crl := { s1.crl with cell := fillCells cells bs s1.crl.cell } }
  let w := linkPkt (14 + g.val) p v
  -- the packet joins the slave's queue
  have hpv : PtrsGood v := hp1
  have hbv : SameBooks s1.crl v.crl := ⟨fun _ => ⟨rfl, rfl, rfl⟩, rfl, rfl, rfl, rfl, rfl⟩
  obtain ⟨hpw, hlw⟩ := ((OtherLists.refl (14 + g.val) v).linkPkt p) hpv
  have hbw : SameBooks s1.crl w.crl := hbv.trans (linkPkt_books p hpv)
  have hwq : listPkts w (14 + g.val) = [p] := by
    rw [show listPkts w (14 + g.val) = listPkts v (14 + g.val) ++ [p] from listPkts_linkPkt_same p hpv,
      show listPkts v (14 + g.val) = [] from (hl1 _).trans hs]; rfl
  have hrw : ∀ q, resetNow w.crl q = false := fun q => (hbw.resetNow q).trans ((hr1 q).trans (hr q))
  -- and moves on to its segment's list
  let z := setPkts (14 + g.val) [] w
  obtain ⟨hpz, hlz⟩ := ((OtherLists.refl (14 + g.val) w).setPkts []) hpw
  let u := linkPkt (fwdQ h) p z
  have hmove : slavePump g 1 w = u := by
    rw [slavePump_moves hpw hrw hwq h0 (.inl rfl), show (patOf p.patE).seg = h from hseg.symm]
  obtain ⟨hpu, hlu⟩ := ((OtherLists.refl (fwdQ h) z).linkPkt p) hpz
  have hbu : SameBooks s1.crl u.crl := (hbw.trans (setPkts_books _ _ _)).trans (linkPkt_books p hpz)
  have hsu : HubOnly s u := by
    have h1 : HubOnly v w := by unfold HubOnly; rw [show w = _ from linkPkt_joins p (hpv _)]
    have h2 : HubOnly z u := by unfold HubOnly; rw [show u = _ from linkPkt_joins p (hpz _)]
    exact (((hub.trans (t := s1) (u := v) rfl).trans h1).trans (u := z) rfl).trans h2
  have hother : ∀ j, j ≠ 14 + g.val → listPkts z j = listPkts s j := fun j hj => (hlz j hj).trans ((hlw j hj).trans (hl1 j))
  have hsame : u.img = s.img ∧ u.seg = s.seg := by unfold HubOnly at hsu; rw [hsu]; exact ⟨rfl, rfl⟩
  obtain ⟨himg, hsegs⟩ := hsame
  refine ⟨u, cells, ?_, hone, (SegWork.refl g s).hub hsu, himg, by rw [hsegs], hpu,
    fun q => (hbu.resetNow q).trans ((hr1 q).trans (hr q)), ?_, fun j hj => ?_, ?_, (hbu.claimOk _ _).trans hc1, ?_⟩
  · have hlen : (slaveList s1 g).length + 1 = 1 := by unfold slaveList; rw [hl1, hs]; rfl
    unfold fwdBeat; rw [ho]; dsimp only
    rw [hclaim]
    exact congrArg some ((congrArg (fun n => slavePump g n w) hlen).trans hmove)
  · rw [show listPkts u (fwdQ h) = listPkts z (fwdQ h) ++ [p] from listPkts_linkPkt_same p hpz,
      hother _ (slaveQueue_ne g h).symm]
  · rw [hlu j hj]
    by_cases e : j = 14 + g.val
    · subst e; exact (listPkts_setPkts_same _ _ _).trans hs.symm
    · exact hother j e
  · unfold cellsFor; dsimp only; rw [hone]; omega
  · unfold Machine.fills writePkt fwdPkt; simp

/-- The beats of a forwarded write for which cells are free: each is acknowledged, and the packet is complete. -/
theorem fwdBeats_forward {pat le off : Nat} {data : List Byte} (ho : openSlave s g = none) (hs : listPkts s (14 + g.val) = [])
    (hp : PtrsGood s) (hr : ∀ q, resetNow s.crl q = false) (h0 : (patOf le).node = 0) (hseg : h = (patOf le).seg) (hsize : 0 < c.size)
    (hdata : data ≠ []) (hc : claimOk s.crl (14 + g.val) (cellsFor data.length) = true) :
    ∃ x cells, fwdBeats g c (data.length + 1) (some (writePkt g pat le off data.length)) data s = x ∧
      Forwarded g h s x { writePkt g pat le off data.length with data := data, cells := cells, eop := true } ∧ .slave g 0 [] ∈ x.out := by
  obtain ⟨b, hb⟩ : ∃ b, cellsFor data.length = b + 1 := ⟨cellsFor data.length - 1, by unfold cellsFor; omega⟩
  rw [hb] at hc
  obtain ⟨u, cells, hbeat, hone, hfu⟩ := fwdBeat_opens (pat := pat) (off := off) (n := data.length) (bs := data.take c.size) ho hs hp hr h0 hseg hc
  have hsplit : (data.take c.size).length + (data.drop c.size).length = data.length := by
    rw [List.length_take, List.length_drop]; omega
  have hpos : 0 < data.length := List.length_pos_iff.2 hdata
  have htake : 0 < (data.take c.size).length := by rw [List.length_take]; omega
  obtain ⟨cells2, hdone, hpre⟩ := fwdBeats_complete ho hs hsize data.length hfu.acked (bs := data.drop c.size) (by omega) (by
    dsimp only; rw [hsplit, hone, hb]; omega)
  rw [show (data.take c.size ++ data.drop c.size) = data from List.take_append_drop _ _] at hdone
  refine ⟨_, cells2, ?_, hdone, hpre.subset ?_⟩
  · rw [fwdBeats, if_neg (by simpa using hdata), hbeat]
  · rw [slaveAnswer_out]; exact List.mem_append_right _ (List.mem_singleton.2 rfl)

end Sys2Proof.Machine
end

section
/-!
SUPPORT. The commands of a forward window (R179, R180, Table 3.10): what each answers, and what it leaves of the delayed-read slots.
-/

namespace Sys2Proof.Machine

open Sys2Proof

section
variable {g h : Seg} {s : State} {c : SlaveCyc} {j : Nat} {v : Win} {k : Fin 4} {d : DrSlot}

/-! Writes (R179) -/

section
variable (hw : winFind s g c = some (j, v)) (hv : v.fwd = true) (hbo : s.pwr.brownout = false) (hecc : s.tap.ecc = []) {data : List Byte}
include hw hv hbo hecc

theorem forwardWrite_refuses (hbad : c.rmw = true ∨ fwdBad s v.pat true (c.addr.toNat - v.base) data.length = true) :
    forwardWrite g c data s = slaveAnswer g 1 [] s := by
  unfold forwardWrite; rw [hw]; dsimp only
  rw [hv, if_neg (by decide), hbo, if_neg Bool.false_ne_true, fetchPat_clean hecc]
  exact if_pos (Bool.or_eq_true _ _ ▸ hbad)

section
variable (hr : c.rmw = false) (hbad : fwdBad s v.pat true (c.addr.toNat - v.base) data.length = false)
include hr hbad

theorem forwardWrite_gone (hgone : fwdGone s v.pat = true) :
    forwardWrite g c data s =
      slaveAnswer g (if (patOf (patEntry s.lom.act v.pat)).lmpol && segCfg s g 4 then 2 else 1) [] s := by
  unfold forwardWrite; rw [hw]; dsimp only
  rw [hv, if_neg (by decide), hbo, if_neg Bool.false_ne_true, fetchPat_clean hecc, hr, hbad, if_neg (by decide), if_pos hgone]
  unfold fwdUnavailable retryOrBerr
  cases (patOf (patEntry s.lom.act v.pat)).lmpol <;> rfl

theorem forwardWrite_passes {le : Nat} (ht : fwdTarget s v.pat = .segment le h) (hm : masterOk s h = true) :
    forwardWrite g c data s =
      fwdBeats g c (data.length + 1) (some (writePkt g v.pat le (c.addr.toNat - v.base) data.length)) data s := by
  unfold forwardWrite; rw [hw]; dsimp only
  rw [hv, if_neg (by decide), hbo, if_neg Bool.false_ne_true, fetchPat_clean hecc, hr, hbad, if_neg (by decide), fwdGone_segment ht hm,
    if_neg Bool.false_ne_true, fwdEntry_segment ht]; rfl

end
end

/-- The slaves stay free where a complete packet has joined a segment's list. -/
theorem Forwarded.slaves {x : State} {y : Pkt} (hf : Forwarded g h s x y) (hs : SlavesFree s) : SlavesFree x := by
  refine hs.congr (fun e => ?_) fun e => hf.lists _ (slaveQueue_ne e h)
  by_cases he : e = g
  · subst he; rw [hf.wait]; exact (hs e).1
  · rw [hf.work.2 e he]; exact (hs e).1

/-! A new delayed read (R180, R197) -/

theorem slotOfRead_turnD (g : Seg) (j : Nat) (c : SlaveCyc) (s : State) : slotOfRead (turnD g s) g j c = slotOfRead s g j c := by
  unfold slotOfRead turnD; simp only [modSeg_self]

/-- The read that takes slot `k`. -/
def readPkt (g : Seg) (pat le off n id : Nat) (k : Fin 4) (cells : List Nat) : Pkt :=
  fwdPkt g (16 + g.val) pat le off n [] cells true (.fwdRead g id) k.val

/-- Slot `k` waits for read `id`, of cycle `c` of window `j`; `w` is the slave's configuration. -/
def slotTaken (g : Seg) (j : Nat) (c : SlaveCyc) (k : Fin 4) (id : Nat) (w : Word) (s : State) : State :=
  modSeg g (fun x => { x with
    dr := x.dr.set k (some ⟨j, c, id, none, 0⟩), drNext := x.drNext + 1, waitRead := some k.val, slvCfg := w }) s

theorem forwardedRead_starts {le : Nat} (hw : winFind s g c = some (j, v)) (hv : v.fwd = true) (hbo : s.pwr.brownout = false)
    (hecc : s.tap.ecc = []) (hwr : c.write = false) (hr : c.rmw = false) (hblk : isBlock c = false) (hslot : slotOfRead s g j c = none)
    (ht : fwdTarget s v.pat = .segment le h) (hm : masterOk s h = true)
    (hbad : fwdBad s v.pat false (c.addr.toNat - v.base) c.size = false)
    (hfree : (allSlots.find? fun k => s.seg[g].dr[k].isNone) = some k) :
    forwardedRead g c s = startForwarded g j v c k (turnD g s) := by
  have hdr : (turnD g s).seg[g].dr = s.seg[g].dr := by unfold turnD; rw [modSeg_self]
  have hgone : fwdGone (turnD g s) v.pat = false := by
    unfold fwdGone
    rw [show fwdTarget (turnD g s) v.pat = .segment le h from ht]; dsimp only
    have hm2 : masterOk (turnD g s) h = masterOk s h := (FailKeeps.refl s).modSeg g |>.master h
    rw [hm2, hm]; rfl
  unfold forwardedRead; rw [hw]; dsimp only
  rw [hv, hwr, if_neg (by decide), show (turnD g s).pwr.brownout = false from hbo, if_neg Bool.false_ne_true, hblk, hr, if_neg (by decide),
    slotOfRead_turnD, hslot]
  dsimp only
  rw [show fwdBad (turnD g s) v.pat false _ _ = false from hbad, if_neg Bool.false_ne_true, hgone, if_neg Bool.false_ne_true,
    fetchPat_clean (s := turnD g s) hecc, hdr, hfree]

/-- The new read has its slot, and its packet is queued at its segment. -/
theorem startForwarded_queues {le : Nat} (hs : listPkts s (14 + g.val) = []) (hp : PtrsGood s) (hr : ∀ q, resetNow s.crl q = false)
    (h0 : (patOf le).node = 0) (hseg : h = (patOf le).seg) (ht : fwdTarget s v.pat = .segment le h) (hww : writesWaiting s g = false)
    (hc : claimOk s.crl (16 + g.val) 1 = true) :
    ∃ x cells, startForwarded g j v c k s = x ∧ SegWork g s x ∧ x.img = s.img ∧ PtrsGood x ∧
      (∀ i, i ≠ fwdQ h → listPkts x i = listPkts s i) ∧
      listPkts x (fwdQ h) = listPkts s (fwdQ h) ++ [readPkt g v.pat le (c.addr.toNat - v.base) c.size s.seg[g].drNext k cells] ∧
      x.seg[g] = { s.seg[g] with
        dr := s.seg[g].dr.set k (some ⟨j, c, s.seg[g].drNext, none, 0⟩), drNext := s.seg[g].drNext + 1, waitRead := some k.val,
        slvCfg := getReg s (.ls g) 0x040 } := by
  obtain ⟨cells, s1, hclaim, hub, hp1, hl1, hr1⟩ := claim_taken hp hc
  have hsame : s1.seg = s.seg ∧ s1.img = s.img ∧ s1.regs = s.regs := by unfold HubOnly at hub; rw [hub]; exact ⟨rfl, rfl, rfl⟩
  obtain ⟨hsegs, himg, hregs⟩ := hsame
  let p := readPkt g v.pat le (c.addr.toNat - v.base) c.size s.seg[g].drNext k cells
  let t := slotTaken g j c k s.seg[g].drNext (getReg s (.ls g) 0x040) s1
  have hself : t.seg[g] = { s.seg[g] with
      dr := s.seg[g].dr.set k (some ⟨j, c, s.seg[g].drNext, none, 0⟩), drNext := s.seg[g].drNext + 1, waitRead := some k.val,
      slvCfg := getReg s (.ls g) 0x040 } := by
    refine (modSeg_self _ _ _).trans ?_
    rw [hsegs]
  -- the packet joins the slave's queue
  let w := linkPkt (14 + g.val) p t
  have hpt : PtrsGood t := hp1
  obtain ⟨hpw, hlw⟩ := ((OtherLists.refl (14 + g.val) t).linkPkt p) hpt
  have hwq : listPkts w (14 + g.val) = [p] := by
    rw [show listPkts w (14 + g.val) = listPkts t (14 + g.val) ++ [p] from listPkts_linkPkt_same p hpt,
      show listPkts t (14 + g.val) = [] from (hl1 _).trans hs]; rfl
  have hrw : ∀ q, resetNow w.crl q = false := fun q =>
    ((linkPkt_books p hpt).resetNow q).trans ((hr1 q).trans (hr q))
  have hww2 : writesWaiting w g = false := by
    have hq : ∀ q ∈ [fwdQ 0, fwdQ 1, 20], listPkts w q = listPkts s q := fun q hq => by
      refine (hlw q ?_).trans (hl1 q)
      simp only [fwdQ, List.mem_cons, List.not_mem_nil, or_false] at hq
      rcases hq with rfl | rfl | rfl <;> fin_cases g <;> decide
    unfold writesWaiting at hww ⊢
    simp only [List.any_cons, List.any_nil] at hww ⊢
    rw [hq (fwdQ 0) (by simp), hq (fwdQ 1) (by simp), hq 20 (by simp)]
    exact hww
  -- and moves on to its segment's list
  let z := setPkts (14 + g.val) [] w
  obtain ⟨hpz, hlz⟩ := ((OtherLists.refl (14 + g.val) w).setPkts []) hpw
  let x := linkPkt (fwdQ h) p z
  obtain ⟨hpx, hlx⟩ := ((OtherLists.refl (fwdQ h) z).linkPkt p) hpz
  have hmove : slavePump g (slaveList w g).length w = x := by
    rw [show slaveList w g = [p] from hwq]
    exact (slavePump_moves hpw hrw hwq h0 (.inr hww2)).trans (by rw [show (patOf p.patE).seg = h from hseg.symm])
  have htx : HubOnly t x := by
    have h1 : HubOnly t w := by unfold HubOnly; rw [show w = _ from linkPkt_joins p (hpt _)]
    have h2 : HubOnly z x := by unfold HubOnly; rw [show x = _ from linkPkt_joins p (hpz _)]
    exact (h1.trans (u := z) rfl).trans h2
  have hxt : x.seg = t.seg ∧ x.img = t.img := by unfold HubOnly at htx; rw [htx]; exact ⟨rfl, rfl⟩
  have hother : ∀ i, i ≠ 14 + g.val → listPkts z i = listPkts s i := fun i hi => (hlz i hi).trans ((hlw i hi).trans (hl1 i))
  refine ⟨x, cells, ?_, ((((SegWork.refl g s).hub hub).modSeg _).hub htx), hxt.2.trans himg, hpx, fun i hi => ?_, ?_, by rw [hxt.1]; exact hself⟩
  · unfold startForwarded; rw [hclaim]; dsimp only
    rw [fwdEntry_segment ht, hsegs]; exact hmove
  · rw [hlx i hi]
    by_cases e : i = 14 + g.val
    · subst e; exact (listPkts_setPkts_same _ _ _).trans hs.symm
    · exact hother i e
  · rw [show listPkts x (fwdQ h) = listPkts z (fwdQ h) ++ [p] from listPkts_linkPkt_same p hpz, hother _ (slaveQueue_ne g h).symm]

/-! Repeats, time-outs and results that nobody collects (R180) -/

theorem delayedRepeat_collects {bs : List Byte} (hw : winFind s g c = some (j, v)) (hslot : slotOfRead s g j c = some k)
    (hd : s.seg[g].dr[k] = some d) (hres : d.result = some (false, bs)) :
    delayedRepeat g c s = slaveAnswer g 0 bs (freeSlot g k (turnD g s)) := by
  have hdr : (turnD g s).seg[g].dr[k] = some d := by unfold turnD; rw [modSeg_self]; exact hd
  unfold delayedRepeat; rw [hw]; dsimp only
  rw [hslot]; dsimp only
  unfold repeatRead; rw [hdr]; dsimp only
  rw [hres]; rfl

/-- The read in slot `k` no longer waits. -/
def waitOver (g : Seg) (s : State) : State := modSeg g (fun x => { x with waitRead := none }) s

/-- The slot's number is not that of a read without a slot. -/
theorem slot_found (k : Fin 4) : (allSlots.find? fun j => j.val == k.val) = some k ∧ k.val ≠ 4 := by revert k; decide

/-- The segment without the read of slot `k`. -/
def slotCleared (k : Fin 4) (x : SegS) : SegS := { x with dr := x.dr.set k none }

theorem slotCleared_dr (k : Fin 4) (x : SegS) : (slotCleared k x).dr[k] = none := by unfold slotCleared; simp

theorem forwardedTimeout_eq (hw : s.seg[g].waitRead = some k.val) :
    forwardedTimeout g s =
      if bitAt s.seg[g].slvCfg 4 && !((s.seg[g].dr[k].map fun d => notGranted s g d.id).getD false) then slaveAnswer g 2 [] (waitOver g s)
      else slaveAnswer g 1 [] (modSeg g (slotCleared k) (waitOver g s)) := by
  obtain ⟨hfind, h4⟩ := slot_found k
  have hwait : modSeg g (fun x => { x with waitRead := none, slvWait := if k.val = 4 then none else x.slvWait }) s = waitOver g s := by
    unfold waitOver; simp only [if_neg h4]
  unfold forwardedTimeout; rw [hw]; dsimp only
  rw [hfind, hwait]; rfl

theorem drDiscardOp_discards (hd : s.seg[g].dr[k] = some d) (hr : d.result ≠ none) :
    drDiscardOp g k s = raise (segEv g 13) (freeSlot g k s) := by
  unfold drDiscardOp; rw [hd]; exact if_pos (Option.isSome_iff_ne_none.2 hr)

theorem drDiscardOp_waits (hd : s.seg[g].dr[k] = some d) (hr : d.result = none) : drDiscardOp g k s = s := by
  unfold drDiscardOp; rw [hd]; dsimp only; rw [hr]; rfl

/-- The slaves stay free while slots are emptied. -/
theorem SlotsEmpty.slaves {t : State} (he : SlotsEmpty g s t) (hs : SlavesFree s) : SlavesFree t := by
  obtain ⟨_, hv, -⟩ := he.self
  refine hs.congr (fun e => ?_) fun e => he.list _ (by omega)
  by_cases heg : e = g
  · subst heg; rw [hv]; exact (hs e).1
  · rw [he.work.2 e heg]; exact (hs e).1

end

end Sys2Proof.Machine

open Sys2Proof Sys2Proof.Machine

/-- Settles O40: each access of a forward window completes as the lemma on its operation says. -/
theorem forwardedAccesses : Obligations.ForwardedAccesses := by
  unfold Obligations.ForwardedAccesses
  intro g cyc j v s hq hbo hw hv
  have hreset := hq.notInReset
  obtain ⟨hdel, hboot, hnq, hmaster, hecc, hgood⟩ := hq
  obtain ⟨-, -, -, -, -, hfree, -⟩ := hnq
  have hfreec : SlavesFree (cleared s) := hfree
  have hptrs : PtrsGood (cleared s) := hgood.ptrs
  have hres : ∀ q, resetNow (cleared s).crl q = false := hgood.noReset
  have hnone : SegWork g (cleared s) (cleared s) := .refl g _
  have hkept : ∀ f : SegS → SegS, (∀ x, (f x).slvWait = x.slvWait) → ∀ t : State, SlavesFree t → SlavesFree (modSeg g f t) := fun f hf t ht =>
    ht.modSeg ((hf _).trans (ht g).1)
  have hturns : SlavesFree (turnD g (cleared s)) := hkept (fun x => { x with pins := { x.pins with groupD := true } }) (fun _ => rfl) _ hfreec
  have hover : SlavesFree (waitOver g (cleared s)) := hkept (fun x => { x with waitRead := none }) (fun _ => rfl) _ hfreec
  refine ⟨fun data ho => ⟨fun le h hr ht hbad hdata hsize hc => ?passed, fun hbad => ?refused, fun hr hbad hgone => ?gone⟩,
    fun le h k hwr hr hblk hslot ht hbad hk hww hc => ?started, fun k d bs hslot hd hresult => ?collected,
    fun k hwait => ⟨fun hkeep => ?kept, fun hkeep => ?dropped⟩, fun k d hd => ⟨fun hr => ?discarded, fun hr => ?waiting⟩⟩
  case passed =>
    obtain ⟨-, hseg⟩ := fwdTarget_local ht
    obtain ⟨x, cells, hbeats, hf, hout⟩ := fwdBeats_forward (c := cyc) (pat := v.pat) (off := cyc.addr.toNat - v.base) (s := cleared s) ho
      (hfree g).2 hptrs hres (fwdTarget_node ht hbad) hseg hsize hdata hc
    have hx := exec_run (c := .forwardWindowWrite g cyc data) (fun s => endPump (forwardWrite g cyc data s)) rfl
      ((congrArg endPump ((forwardWrite_passes (s := cleared s) hw hv hbo hecc hr hbad ht (hmaster h)).trans hbeats)).trans
        (endPump_idle x (hf.slaves hfreec)))
    obtain ⟨hsegOnly, hregs⟩ := hf.work.segOnly_img hf.img
    refine completes_settle hx ⟨hsegOnly, hregs, settle_out hout,
      { writePkt g v.pat le (cyc.addr.toNat - v.base) data.length with data := data, cells := cells, eop := true }, ?_, rfl, rfl, rfl, rfl, rfl, rfl⟩
    rw [settle_lists hf.ptrs (by unfold fwdQ; omega), hf.list]; exact List.mem_append_right _ (List.mem_singleton.2 rfl)
  case refused =>
    have hx := exec_run (c := .forwardWindowWrite g cyc data) (fun s => endPump (forwardWrite g cyc data s)) rfl
      ((congrArg endPump (forwardWrite_refuses (s := cleared s) hw hv hbo hecc hbad)).trans (endPump_idle _ (hfreec.slaveAnswer g 1 [])))
    exact completes_settle hx (refused_completes (.inl rfl) hnone rfl hreset)
  case gone =>
    have ha : ∀ b : Bool, (if b then 2 else 1) = 1 ∨ (if b then 2 else 1) = 2 := by decide
    have hx := exec_run (c := .forwardWindowWrite g cyc data) (fun s => endPump (forwardWrite g cyc data s)) rfl
      ((congrArg endPump (forwardWrite_gone (s := cleared s) hw hv hbo hecc hr hbad hgone)).trans (endPump_idle _ (hfreec.slaveAnswer g _ [])))
    obtain ⟨h1, h2, h3, -⟩ := refused_completes (ha _) hnone rfl hreset
    exact completes_settle hx ⟨h1, h2, h3⟩
  case started =>
    obtain ⟨-, hseg⟩ := fwdTarget_local ht
    have hturn : SegWork g (cleared s) (turnD g (cleared s)) := hnone.modSeg _
    obtain ⟨x, cells, hstart, hwork, himg, hpx, hlists, hlist, hself⟩ := startForwarded_queues (j := j) (c := cyc) (k := k)
      (s := turnD g (cleared s)) (hfree g).2 hptrs hres (fwdTarget_node ht hbad) hseg ht hww hc
    have hsegs : (turnD g (cleared s)).seg[g] = { s.seg[g] with pins := { s.seg[g].pins with groupD := true } } := modSeg_self _ _ _
    have hslaves : SlavesFree x := hturns.congr
      (fun e => by
        by_cases he : e = g
        · subst he; rw [hself]; exact (hturns e).1
        · rw [hwork.2 e he]; exact (hturns e).1)
      (fun e => hlists _ (slaveQueue_ne e h))
    have hx := exec_run (c := .forwardedRead g cyc) (fun s => endPump (forwardedRead g cyc s)) rfl
      ((congrArg endPump ((forwardedRead_starts (s := cleared s) hw hv hbo hecc hwr hr hblk hslot ht (hmaster h) hbad hk).trans hstart)).trans
        (endPump_idle x hslaves))
    rw [hsegs] at hself hlist
    obtain ⟨hsegOnly, hregs⟩ := (hturn.trans hwork).segOnly_img himg
    refine completes_settle hx ⟨hsegOnly, hregs, ?_, ?_,
      readPkt g v.pat le (cyc.addr.toNat - v.base) cyc.size s.seg[g].drNext k cells, ?_, rfl, rfl, rfl, rfl, rfl⟩
    · rw [settled_seg, hself]
    · rw [settled_seg, hself]; simp
    · rw [settle_lists hpx (by unfold fwdQ; omega), hlist]; exact List.mem_append_right _ (List.mem_singleton.2 rfl)
  case collected =>
    obtain ⟨hempty, hgone⟩ := freeSlot_empty g k (turnD g (cleared s))
    have hx := exec_run (c := .delayedReadRepeat g cyc) (fun s => endPump (delayedRepeat g cyc s)) rfl
      ((congrArg endPump (delayedRepeat_collects (s := cleared s) hw hslot hd hresult)).trans
        (endPump_idle _ ((hempty.slaves hturns).slaveAnswer g 0 bs)))
    obtain ⟨hseg, hregs⟩ := (((hnone.modSeg _).trans hempty.work).slaveAnswer 0 bs).segOnly_img hempty.img
    refine completes_settle hx ⟨hseg, hregs, settle_out ?_, ?_⟩
    · rw [slaveAnswer_out]; exact List.mem_append_right _ (List.mem_singleton.2 rfl)
    · rw [settled_seg, slaveAnswer_seg]; exact hgone
  case kept =>
    have hx := exec_run (c := .forwardedReadTimeout g) (fun s => endPump (forwardedTimeout g s)) rfl
      ((congrArg endPump ((forwardedTimeout_eq (s := cleared s) hwait).trans (if_pos hkeep))).trans
        (endPump_idle _ (hover.slaveAnswer g 2 [])))
    obtain ⟨h1, h2, h3, h4⟩ := refused_completes (.inr rfl) (hnone.modSeg fun x => { x with waitRead := none }) rfl hreset
    refine completes_settle hx ⟨h1, h2, ?_, ?_, h3, h4⟩
    · rw [settled_seg, slaveAnswer_seg]; unfold waitOver; rw [modSeg_self]
    · rw [settled_seg, slaveAnswer_seg]; unfold waitOver; rw [modSeg_self]; rfl
  case dropped =>
    have hx := exec_run (c := .forwardedReadTimeout g) (fun s => endPump (forwardedTimeout g s)) rfl
      ((congrArg endPump ((forwardedTimeout_eq (s := cleared s) hwait).trans (if_neg (Bool.eq_false_iff.1 hkeep)))).trans
        (endPump_idle _ ((hkept (slotCleared k) (fun _ => rfl) _ hover).slaveAnswer g 1 [])))
    obtain ⟨h1, h2, h3, h4⟩ := refused_completes (.inl rfl)
      ((hnone.modSeg fun x => { x with waitRead := none }).modSeg (slotCleared k)) rfl hreset
    refine completes_settle hx ⟨h1, h2, ?_, ?_, h3, h4⟩
    · rw [settled_seg, slaveAnswer_seg, modSeg_self]; unfold slotCleared waitOver; rw [modSeg_self]
    · rw [settled_seg, slaveAnswer_seg, modSeg_self]; exact slotCleared_dr _ _
  case discarded =>
    obtain ⟨hempty, hgone⟩ := freeSlot_empty g k (cleared s)
    have hx := exec_run (c := .drDiscard g k) (fun s => endPump (drDiscardOp g k s)) rfl
      ((congrArg endPump (drDiscardOp_discards (s := cleared s) hd hr)).trans (endPump_idle _ (hempty.slaves hfreec)))
    obtain ⟨hseg, hregs⟩ := (hempty.work.raise (segEv g 13)).segOnly_img hempty.img
    refine completes_settle hx ⟨hseg, hregs, ?_, event_seen (segEv_page g 13 (by decide)) ?_ (raise_mem _ _)⟩
    · rw [settled_seg]; exact hgone
    · rw [show (raise (segEv g 13) (freeSlot g k (cleared s))).pwr = (cleared s).pwr from hempty.work.pwr]; exact hreset
  case waiting =>
    have hx := exec_run (c := .drDiscard g k) (fun s => endPump (drDiscardOp g k s)) rfl
      ((congrArg endPump (drDiscardOp_waits (s := cleared s) hd hr)).trans (endPump_idle _ hfreec))
    exact completes_quiet hx hdel rfl
end
